-- ==== Sys2Proof/Word.lean ====
section
/-!
DEFINITION. The word types of the Sylor Z4 and the plainest arithmetic on them: general registers are 64 bits,
Uslyn-S words 32 bits, F32 and I32 patterns 32 bits, memory bytes 8 bits (R31, R36, R197).
-/

namespace Sys2Proof

/-- One byte of memory or of a queue. -/
abbrev Byte := BitVec 8

/-- A general, bound, branch or trap register (R197, R347). -/
abbrev Word := BitVec 64

/-- One lane, one accumulator element, one Uslyn-S word. -/
abbrev Lane := BitVec 32

/-- The field of `w` that starts at bit `lo` and is `n` bits wide, as an unsigned number. -/
def fieldOf (w lo n : Nat) : Nat := w / 2 ^ lo % 2 ^ n

/-- The two's-complement value of the low `n` bits of `w` (`sext` of R33). -/
def sextNat (w n : Nat) : Int := if w % 2 ^ n < 2 ^ (n - 1) then (w % 2 ^ n : Nat) else (w % 2 ^ n : Nat) - (2 : Int) ^ n

/-- `wrap(x, w)` of R33 as an unsigned number. -/
def wrapNat (x : Int) (w : Nat) : Nat := (x % (2 : Int) ^ w).toNat

end Sys2Proof
end

