-- ==== Sys2Proof/Config.lean ====
section
/-!
DEFINITION. What an implementation fixes and what the spec leaves open. A free value is an opaque constant, so
that no proof can see what it is; it is applied to the counter `State.free` or to the operands it depends on.
-/

namespace Sys2Proof.Config

/-- A choice or a value that the spec leaves open, one for each draw: which TLB entry or L1 line a fill displaces, which
node slot an accepted record takes, the clock share under a throttle reason. -/
opaque freeWord : Nat → BitVec 64

/-- A byte that the spec leaves open. -/
opaque freeByte : Nat → BitVec 8

/-- The bytes of an attestation quote beyond its nonce, registers and time: the certificate chain and the XMSS
signature over the given message with the given leaf (R424, R425). -/
opaque signature : List (BitVec 8) → Nat → List (BitVec 8)

/-- Number of compute dies (R3). -/
def dies : Nat := 24

/-- Bytes of stacked DRAM on one die (R57). -/
def dieBytes : Nat := 0x800000000

/-- Virtual interfaces (R62). -/
def interfaces : Nat := 128

/-- Queue depth of every command queue (R77, R178). -/
def queueDepth : Nat := 16

/-- Bytes of a load, store or matrix output queue (R77, R268). -/
def queueBytes : Nat := 8192

end Sys2Proof.Config
end

