-- ==== Sys2Proof/Syntax.lean ====
section
/-!
DEFINITION. The instruction set of the Z4 as syntax: the codes that several words share (R35), the operand kinds of
vector and matrix words (R45, R47), the data that the device's own steps carry, and `Instr`, one constructor for each
row of the opcode table: Uslyn-S words (R36 to R40), Uslyn-V words (R44 to R46), Uslyn-M words (R47 to R49), and the
steps of the engines, the front end, the dispatcher, the fabric and the outside world, which have no word.
-/

namespace Sys2Proof

/-! ### Shared codes (R35) -/

/-- The element formats, in the order of their codes 0 to 27 (R223, R226, R227). -/
inductive Fmt where
  | f32 | f64 | f19 | f16 | bf16 | f8e4 | f8e5 | f8e3 | f6e3 | f6e2 | f4e2
  | i32 | i16 | n16 | i8 | n8 | i4 | n4 | i2 | n2 | t2 | b1
  | dx8 | dx6 | dx4 | dxf8 | dxf6 | dxf4
  deriving DecidableEq, Repr

/-- Rounding modes, codes 0 to 4 (R35, R234). -/
inductive Rnd where
  | rne | rtz | rdn | rup | rsr
  deriving DecidableEq, Repr

/-- Overflow suffixes, codes 0 and 1 (R35). -/
inductive Ovf where
  | wrap | sat
  deriving DecidableEq, Repr

/-- Access sizes, codes 0 to 3 (R35). -/
inductive Size where
  | b | h | w | d
  deriving DecidableEq, Repr

/-- Scopes, codes 0 to 3 (R35, R128). -/
inductive Scope where
  | cl | die | pkg | sys
  deriving DecidableEq, Repr

/-- Orders, codes 0 to 3 (R35, R129). -/
inductive Order where
  | rlx | acq | rel | ar
  deriving DecidableEq, Repr

/-- The engines of a cluster (R176): control, load stream, store stream, vector, matrix, copy. -/
inductive Eng where
  | c | l | sq | v | m | k
  deriving DecidableEq, Repr

/-- The guard of an Uslyn-S word (R19, R36): register number, sense, and whether it names a stage predicate. -/
structure Guard where
  gp : BitVec 3
  neg : Bool
  stage : Bool
  deriving DecidableEq, Repr

/-- The guard of an atomic, whose layout has no GS bit (R36). -/
structure PGuard where
  gp : BitVec 3
  neg : Bool
  deriving DecidableEq, Repr

/-- A general register number. -/
abbrev Reg := BitVec 5

/-! ### Uslyn-S operand groups -/

/-- Conditions of CMP, codes 0 to 5 (R203). -/
inductive Cond where
  | eq | ne | lt | ge | ltn | gen
  deriving DecidableEq, Repr

/-- Conditions of SFCMP and VCMP, codes 0 to 4 (R220, R255). -/
inductive FCond where
  | eq | ne | lt | le | un
  deriving DecidableEq, Repr

/-- The other format of SFCVT (R221). -/
inductive XFmt where
  | f64 | f19 | f16 | bf16 | i32 | i16 | n16 | i8 | n8
  deriving DecidableEq, Repr

/-- Fields that ZLSET writes, codes 0 to 3 (R217). -/
inductive ZlField where
  | zls | zle | zlc | stages
  deriving DecidableEq, Repr

/-- Streams of SBAR, codes 0 to 2 (R125). -/
inductive Stm where
  | sr | sw | m
  deriving DecidableEq, Repr

/-- The engines that an RDV names (R186): bits L, S, V, M, K of EMASK, lowest first. -/
structure EMask where
  l : Bool
  st : Bool
  v : Bool
  m : Bool
  k : Bool
  deriving DecidableEq, Repr

/-- The stream layout's operands (R85). -/
structure StreamOps where
  q : BitVec 2
  sz : Size
  a : Reg
  eg : BitVec 2
  t : Reg
  deriving DecidableEq, Repr

/-- The copy layout's operands (R88): `x` is the field `xtag=reg`. -/
structure CopyOps where
  d : Reg
  a : Reg
  b : Reg
  t : Reg
  x : Bool
  deriving DecidableEq, Repr

/-- The atomic layout's operands (R38, R143): `d64` is the size bit. -/
structure AtomOps where
  d : Reg
  a : Reg
  b : Reg
  off : BitVec 2
  d64 : Bool
  sc : Scope
  ord : Order
  deriving DecidableEq, Repr

/-! ### Uslyn-V operands (R44, R45) -/

/-- One 15-bit operand descriptor (R45). -/
inductive VOp where
  | row (idx : BitVec 8) (str : BitVec 6)
  | lq (n : BitVec 2)
  | sq (n : BitVec 2)
  | moq
  | none
  | scalar
  deriving DecidableEq, Repr

/-- The fields that every vector word carries (R44). `mask` is 0 to 7 for VM0 to VM7 and 8 for every lane. -/
structure VFields where
  pop : BitVec 4
  push : BitVec 4
  dd : VOp
  da : VOp
  db : VOp
  mask : BitVec 4
  fmt : Fmt
  fmt2 : Fmt
  rnd : Rnd
  ovf : Ovf
  mod : BitVec 16
  deriving DecidableEq, Repr

/-! ### Uslyn-M operands (R47, R48) -/

/-- Matrix sources, codes 0 to 8 (R47). -/
inductive MSrc where
  | lq (n : BitVec 2)
  | rb (n : Bool)
  | acc2
  | ch (n : Bool)
  deriving DecidableEq, Repr

/-- Matrix destinations, codes 0 to 7 (R47). -/
inductive MDst where
  | acc
  | sq (n : BitVec 2)
  | moq
  | rb (n : Bool)
  deriving DecidableEq, Repr

/-- Sparsity codes 0 to 3 (R47). -/
inductive Spar where
  | dense | s24 | cvb | two
  deriving DecidableEq, Repr

/-- The head, shape and MOD16 of a matrix word (R47, R48). -/
structure MFields where
  pop : BitVec 4
  push : BitVec 4
  fa : Fmt
  fb : Fmt
  fd : Fmt
  rnd : Rnd
  ovf : Ovf
  acc : BitVec 2
  acc2 : BitVec 2
  sa : MSrc
  sb : MSrc
  dk : MDst
  spar : Spar
  ta : Bool
  tb : Bool
  ebb : BitVec 4
  mx : BitVec 7
  nx : BitVec 7
  kx : BitVec 7
  xsel : BitVec 3
  mod : BitVec 16
  deriving DecidableEq, Repr

/-! ### What the device's own steps carry -/

/-- A kernel of a loaded image: the words of its three areas (R34), the word index of its entry, the lengths of its V
and M blocks by first word (R181), its switch-table rows as word indices of the control area (R367), the live masks
that uslas wrote for each row's labels, and its declared wait graph as edges that carry the token queue they stand for
(R193): an edge
starts at an engine of every strand; it ends at an engine of the same strand (below 6) or, from 6 on, at engine `n % 6`
of strand `(n - 6) / 6`. -/
structure Kernel where
  ctrl : List (BitVec 32)
  vwords : List (BitVec 96)
  mwords : List (BitVec 192)
  entry : Nat
  vblocks : List (Nat × Nat)
  mblocks : List (Nat × Nat)
  switch : List (Nat × List Nat)
  live : List (Nat × List Nat)
  edges : List (Nat × Nat × Option Nat)
  deriving DecidableEq, Repr

/-- A `.region` or `.tagwin` of an image (R26): base and size, memory-type code of R60, home die or interleave, and the
initial bytes by offset. -/
structure Region where
  base : Nat
  size : Nat
  type : Nat
  home : Option Nat
  bytes : List (Nat × BitVec 8)
  deriving DecidableEq, Repr

/-- A `.tensor` of an image (R27): index of its region, offset of its header word, rows and columns. -/
structure Tensor where
  region : Nat
  off : Nat
  rows : Nat
  cols : Nat
  deriving DecidableEq, Repr

/-- A loadable image (R422): its kernels, its regions, its tensors, and for each `.launch` one node record of 128 bytes,
whose KERNEL field is the index of a kernel of the image, together with its 384-byte register image. -/
structure Image where
  kernels : List Kernel
  regions : List Region
  tensors : List Tensor
  launches : List (List (BitVec 8) × List (BitVec 8))
  deriving DecidableEq, Repr

/-- The placement that the front end chooses at LOAD: the virtual address of each kernel's control area (its V and M areas
follow), the physical address of each region, the page-table words it writes (address, 64-bit value), and the virtual
address of the records and register images of the `.launch` lines. -/
structure Layout where
  ctrlVa : List Nat
  regionPa : List Nat
  ptes : List (Nat × BitVec 64)
  recordsVa : Nat
  deriving DecidableEq, Repr

/-- Payload of a Zopol packet (R375, R381). -/
inductive Payload where
  /-- SYS load of `n` bytes at export offset `off` -/
  | load (off n : Nat)
  /-- SYS store -/
  | store (off : Nat) (bytes : List (BitVec 8))
  /-- remote atomic: opcode index 0 to 9 of R143, 64-bit size flag, value, compare value -/
  | atomic (op : Nat) (off : Nat) (d64 : Bool) (v c : BitVec 64)
  /-- FADD at scope .sys: virtual cluster, slot, amount -/
  | fadd (vc slot amount : Nat)
  /-- reply of a request: request number, error code 0 none 1 poison 2 link 3 range, data -/
  | reply (req : Nat) (err : Nat) (data : List (BitVec 8))
  /-- collective data: id, attempt, bucket, step, values as 32-bit patterns -/
  | coll (id att bucket step : Nat) (vals : List (BitVec 32))
  /-- gong: id and attempt -/
  | gong (id att : Nat)
  deriving DecidableEq, Repr

/-- A sequenced packet: source and destination package, bound remote interface, class, sequence number. -/
structure Packet where
  src : Nat
  dst : Nat
  vi : Nat
  cls : Nat
  seq : Nat
  body : Payload
  deriving DecidableEq, Repr

/-- What the power controllers measure over an interval (R6, R370 to R374): package watts, watts per rail (VM, VV, VS,
VF), watts of dies 0 to 23 and of the I/O dies together, hottest stack in 1/8 °C, clusters on ballast, and energy in mJ by
cluster (64 * die + cluster). -/
structure Meas where
  watts : Nat
  rails : List Nat
  dies : List Nat
  tmax : Nat
  ball : Nat
  energy : List (Nat × Nat)
  deriving DecidableEq, Repr

/-- A front-end register that a host write names: a control-page number of R418 (with die or interface left to
SYS_VISEL), an offset in the register page of an interface (R410), or an entry of the export table (R378, R406). -/
inductive RegTarget where
  | ctl (n : Nat)
  | page (vi off : Nat)
  | exportEntry (k : Nat)
  deriving DecidableEq, Repr

/-- Where a storage error stands (R401, R403). -/
structure ErrSite where
  unit : Nat
  die : Nat
  clus : Nat
  pa : Nat
  deriving DecidableEq, Repr

/-- The kinds of cluster error that start a rollback (R398): a checker mismatch, a residue mismatch in an entry of the
vector or the matrix engine, an uncorrectable error in state that an undo record covers, or one in an input granule. The
last two name the engine whose entry met them (C: none did). -/
inductive ClusterErr where
  | chkMismatch
  | residue (matrix : Bool)
  | undoCovered (e : Eng)
  | inputGranule (e : Eng) (g : Nat)
  deriving DecidableEq, Repr

/-- One route to a destination (R382): egress port and path label. -/
structure Route where
  port : Nat
  label : Nat
  deriving DecidableEq, Repr

/-- What boot verification found (R423): of the first stage and of the firmware the digest, whether the signature
verifies, and the security version; the CXL ports that trained, with their committed capacities in bytes; whether Tsuwin
trained; the size of each die's cell store. -/
structure BootReport where
  digest0 : BitVec 256
  digest1 : BitVec 256
  sigOk0 : Bool
  sigOk1 : Bool
  version0 : Nat
  version1 : Nat
  cxl : List (Nat × Nat)
  tsuwin : Bool
  cells : List Nat
  deriving DecidableEq, Repr

/-! ### The opcode table -/

/-- One constructor for each row of the opcode table; rows without operands stand last. -/
inductive Instr where
  -- integer register forms (R199, R200)
  | add (g : Guard) (d a b : Reg)
  | sub (g : Guard) (d a b : Reg)
  | mul (g : Guard) (d a b : Reg)
  | mulh (g : Guard) (d a b : Reg)
  | divs (g : Guard) (d a b : Reg)
  | divn (g : Guard) (d a b : Reg)
  | rems (g : Guard) (d a b : Reg)
  | remn (g : Guard) (d a b : Reg)
  | and (g : Guard) (d a b : Reg)
  | or (g : Guard) (d a b : Reg)
  | xor (g : Guard) (d a b : Reg)
  | andn (g : Guard) (d a b : Reg)
  | shl (g : Guard) (d a b : Reg)
  | shr (g : Guard) (d a b : Reg)
  | sha (g : Guard) (d a b : Reg)
  | rot (g : Guard) (d a b : Reg)
  | min (g : Guard) (d a b : Reg)
  | max (g : Guard) (d a b : Reg)
  | minn (g : Guard) (d a b : Reg)
  | maxn (g : Guard) (d a b : Reg)
  | clz (g : Guard) (d a : Reg)
  | popc (g : Guard) (d a : Reg)
  -- integer immediate forms (R199)
  | addImm (g : Guard) (d a : Reg) (imm : BitVec 8)
  | andImm (g : Guard) (d a : Reg) (imm : BitVec 8)
  | orImm (g : Guard) (d a : Reg) (imm : BitVec 8)
  | xorImm (g : Guard) (d a : Reg) (imm : BitVec 8)
  | shlImm (g : Guard) (d a : Reg) (imm : BitVec 8)
  | shrImm (g : Guard) (d a : Reg) (imm : BitVec 8)
  | shaImm (g : Guard) (d a : Reg) (imm : BitVec 8)
  | rotImm (g : Guard) (d a : Reg) (imm : BitVec 8)
  -- compare and select (R203, R204)
  | cmp (g : Guard) (pd : BitVec 3) (a b : Reg) (cond : Cond)
  | sel (g : Guard) (d a b : Reg) (p : BitVec 3)
  -- scalar FP32 (R219 to R221)
  | sfadd (g : Guard) (d a b : Reg) (rnd : Rnd)
  | sfmul (g : Guard) (d a b : Reg) (rnd : Rnd)
  | sffma (g : Guard) (d a b : Reg) (rnd : Rnd)
  | sfmin (g : Guard) (d a b : Reg) (rnd : Rnd)
  | sfmax (g : Guard) (d a b : Reg) (rnd : Rnd)
  | sfcmp (g : Guard) (pd : BitVec 3) (a b : Reg) (cond : FCond)
  | sfcvt (g : Guard) (d a : Reg) (toX : Bool) (xf : XFmt) (rnd : Rnd) (ovf : Ovf)
  -- branches (R205 to R207)
  | pbr (g : Guard) (t : BitVec 3) (off : BitVec 18)
  | pbri (g : Guard) (t : BitVec 3) (a : Reg)
  | br (g : Guard) (t : BitVec 3)
  | brq (g : Guard) (t : BitVec 3) (sense : Bool)
  | call (g : Guard) (t : BitVec 3)
  | ret (g : Guard)
  -- loops (R209 to R218)
  | zloop (g : Guard) (l : BitVec 2) (stages : BitVec 3) (a : Reg) (last : BitVec 11)
  | zlset (g : Guard) (l : BitVec 2) (f : ZlField) (a : Reg)
  | zlsv (g : Guard) (l : BitVec 2) (a : Reg)
  | zlrs (g : Guard) (l : BitVec 2) (a : Reg)
  -- constants (R82)
  | movi (g : Guard) (d : Reg) (imm : BitVec 16)
  | movh (g : Guard) (d : Reg) (imm : BitVec 16)
  | lea (g : Guard) (d a : Reg) (imm : BitVec 11)
  -- scalar accesses (R83, R84)
  | ldOffset (g : Guard) (d a : Reg) (sz : Size) (off : BitVec 8)
  | ldIndex (g : Guard) (d a : Reg) (sz : Size) (b : Reg)
  | stOffset (g : Guard) (d a : Reg) (sz : Size) (off : BitVec 8)
  | stIndex (g : Guard) (d a : Reg) (sz : Size) (b : Reg)
  | ldcOffset (g : Guard) (d a : Reg) (sz : Size) (off : BitVec 8)
  | ldcIndex (g : Guard) (d a : Reg) (sz : Size) (b : Reg)
  | stntOffset (g : Guard) (d a : Reg) (sz : Size) (off : BitVec 8)
  | stntIndex (g : Guard) (d a : Reg) (sz : Size) (b : Reg)
  -- streams and copies (R85 to R98)
  | qld (g : Guard) (o : StreamOps)
  | qst (g : Guard) (o : StreamOps)
  | kcopy (g : Guard) (o : CopyOps)
  | kcopy2d (g : Guard) (o : CopyOps)
  | kfill (g : Guard) (o : CopyOps)
  | kgather (g : Guard) (o : CopyOps)
  | kscatter (g : Guard) (o : CopyOps)
  | kpair (g : Guard) (o : CopyOps)
  | kwait (g : Guard) (d a : Reg)
  | kstat (g : Guard) (d : Reg)
  | done (g : Guard)
  -- atomics (R143)
  | aadd (g : PGuard) (o : AtomOps)
  | aand (g : PGuard) (o : AtomOps)
  | aor (g : PGuard) (o : AtomOps)
  | axor (g : PGuard) (o : AtomOps)
  | amin (g : PGuard) (o : AtomOps)
  | amax (g : PGuard) (o : AtomOps)
  | aminn (g : PGuard) (o : AtomOps)
  | amaxn (g : PGuard) (o : AtomOps)
  | axchg (g : PGuard) (o : AtomOps)
  | acas (g : PGuard) (o : AtomOps)
  -- slots (R147 to R155)
  | fadd (g : Guard) (a : Reg) (slot : BitVec 10) (sc : Scope)
  | fset (g : Guard) (a : Reg) (slot : BitVec 10) (sc : Scope)
  | wait (g : Guard) (a : Reg) (slot : BitVec 10) (sc : Scope)
  | barv (g : Guard) (a : Reg) (slot : BitVec 10) (sc : Scope)
  | barw (g : Guard) (a : Reg) (slot : BitVec 10) (sc : Scope)
  | barinit (g : Guard) (a : Reg) (slot : BitVec 10)
  -- ordering (R123 to R138)
  | mark (g : Guard)
  | sbar (g : Guard) (stm : Stm)
  | fence (g : Guard) (sc : Scope) (ord : Order)
  | drainnt (g : Guard) (sc : Scope)
  | cinv (g : Guard)
  | kpub (g : Guard) (a t : Reg)
  -- tags (R156 to R174)
  | talloc (g : Guard) (d : Reg)
  | tretire (g : Guard) (a : Reg)
  | retireNotice (k die : Nat)
  | retireComplete (k : Nat)
  | tset (g : Guard) (a : Reg)
  | tget (g : Guard) (d : Reg)
  | ldx (g : Guard) (d a b : Reg) (sz : Size)
  | tstat (g : Guard) (d a : Reg)
  -- engines and tokens (R182 to R192)
  | fork (g : Guard) (m : Bool) (blk : BitVec 20)
  | rdv (g : Guard) (em : EMask)
  | ebset (g : Guard) (x : Reg) (n : BitVec 4)
  | ebget (g : Guard) (x : Reg) (n : BitVec 4)
  | tkset (g : Guard) (x : Reg) (n : BitVec 4)
  | tkget (g : Guard) (x : Reg) (n : BitVec 4)
  | strid (g : Guard) (x : Reg)
  -- scheduling (R336 to R342)
  | launch (g : Guard) (d a b : Reg)
  | yield (g : Guard) (d : Reg)
  | prio (g : Guard) (d a : Reg)
  | nodeid (g : Guard) (d : Reg)
  -- CSR and system (R352 to R354)
  | csrr (g : Guard) (x : Reg) (csr : BitVec 16)
  | csrw (g : Guard) (x : Reg) (csr : BitVec 16)
  | csrs (g : Guard) (x : Reg) (csr : BitVec 16)
  | nop (g : Guard)
  | trap (g : Guard) (imm : BitVec 16)
  | eret (g : Guard)
  | brk (g : Guard) (imm : BitVec 16)
  -- power (R368)
  | swpt (g : Guard) (k : BitVec 6)
  | pwrq (g : Guard) (x : Reg) (k : BitVec 6)
  | pwreq (g : Guard) (x : Reg) (k : BitVec 6)
  -- collectives (R394, R395)
  | qarm (g : Guard) (d a : Reg)
  | qpost (g : Guard) (d a b : Reg)
  | qwait (g : Guard) (d a b : Reg)
  | qabort (g : Guard) (d a : Reg)
  | qstat (g : Guard) (d a : Reg)
  -- vector words (R248)
  | vadd (f : VFields)
  | vsub (f : VFields)
  | vmul (f : VFields)
  | vfma (f : VFields)
  | vfms (f : VFields)
  | vmin (f : VFields)
  | vmax (f : VFields)
  | vabs (f : VFields)
  | vneg (f : VFields)
  | vclamp (f : VFields)
  | vexp2 (f : VFields)
  | vlog2 (f : VFields)
  | vrcp (f : VFields)
  | vrsqrt (f : VFields)
  | vtanh (f : VFields)
  | vsig (f : VFields)
  | vand (f : VFields)
  | vor (f : VFields)
  | vxor (f : VFields)
  | vshl (f : VFields)
  | vshr (f : VFields)
  | vsha (f : VFields)
  | vcvt (f : VFields)
  | vpack (f : VFields)
  | vunpack (f : VFields)
  | vcmp (f : VFields)
  | vsel (f : VFields)
  | vmop (f : VFields)
  | vperm (f : VFields)
  | vbcast (f : VFields)
  | vred (f : VFields)
  | vscan (f : VFields)
  | vdefer (f : VFields)
  | vdrain (f : VFields)
  | vmov (f : VFields)
  | vrep (f : VFields)
  | vsacc (f : VFields)
  | vseed (f : VFields)
  -- matrix words (R272 to R304, R318)
  | nset (pop push : BitVec 4) (add : Option (BitVec 4)) (level : BitVec 3) (chan : BitVec 2) (base : BitVec 56) (stride : BitVec 24) (cnt : BitVec 11)
  | ngo (pop push : BitVec 4) (chmask : BitVec 4)
  | mmac (f : MFields)
  | mmacq (f : MFields)
  | msacc (f : MFields)
  | mloadr (f : MFields)
  | mloads (f : MFields)
  | mzero (f : MFields)
  | mstore (f : MFields)
  | mact (f : MFields)
  | mrep (reb : BitVec 4) (len : BitVec 12)
  | relax (f : MFields)
  | relaxb (f : MFields)
  | mxset (f : MFields)
  | mxread (f : MFields)
  | mpatch (f : MFields)
  -- engine and memory steps
  | engineEntryBegin (e : Eng)
  | entryComplete (e : Eng)
  | ntBufferWrite (b : Nat)
  | streamElement (store : Bool)
  | copyComplete (homes : List Nat)
  | pageWalk (va : BitVec 64) (write : Bool)
  | faultService (serviced : Bool) (writes : List (Nat × BitVec 64))
  | shootdownPage (v : BitVec 64)
  | shootdownRange (v : BitVec 64)
  | shootdownVi (v : BitVec 64)
  | shootdownAll (v : BitVec 64)
  | engineWatchdogExpire (e : Eng)
  -- dispatcher and front end
  | graphRelease (vi stream : Nat)
  | nodeComplete (node : Nat)
  | sqDoorbell (vi q : Nat) (v : BitVec 64)
  | sqEnable (vi q : Nat) (v : BitVec 64)
  | launchQueueEnable (vi q : Nat) (v : BitVec 64)
  | load (vi : Nat) (img : Image) (lay : Layout)
  | unload (vi : Nat)
  | teardown (vi : Nat)
  | clearFault (vi : Nat)
  | endNode (vi : Nat)
  | resume (vi : Nat)
  | attest (vi : Nat)
  | mboxBadCommand (vi : Nat) (code : BitVec 8)
  | bar2Access (vi off n : Nat) (data : Option (List (BitVec 8)))
  | viEnable (v : BitVec 64)
  | viDisable (v : BitVec 64)
  | viclsWrite (die : Nat) (mask : BitVec 64)
  | cellcfgWrite (die : Nat) (v : BitVec 64)
  | w1cClear (tgt : RegTarget) (v : BitVec 64)
  | registerWrite (tgt : RegTarget) (v : BitVec 64)
  -- power
  | rampEnvelopeTick (m : Meas)
  | energyPeriodRefill (vi : Nat)
  | impChange (level : Nat)
  | oppChange (rail point : Nat)
  | telemetryRecord (m : Meas)
  -- fabric and collectives
  | packetReceive (p : Packet)
  | ackReceive (dst upto : Nat)
  | ackTimeout (dst : Nat)
  | routeInstall (dst : Nat) (routes : List Route)
  | gongReceive (src vi id att : Nat)
  | bucketStart (die slot : Nat)
  | collectiveStep (die slot bucket : Nat)
  | bucketComplete (die slot : Nat)
  | collectiveFail (die slot code : Nat)
  -- links, reliability, boot
  | cxlDecoderLower (port limit : Nat)
  | clusterErrorRollback (k : ClusterErr)
  | correctedError (e : ErrSite)
  | uncorrectableError (e : ErrSite)
  | scrub (die line : Nat)
  | reset (b : BootReport)
  -- management port and time receiver
  | dynamicAddressAssign (addr : BitVec 7)
  | setEndpointId (eid : BitVec 8)
  | vendorRequestQuote (nonce : BitVec 256)
  | vendorWriteZcfg (v : BitVec 64)
  | illegalEncoding (w : BitVec 32)
  | collectiveCredit (die slot bucket step : Nat)
  | throttleReasonChange (reasons : BitVec 5) (cycles : Nat)
  | packageReserveGrant (die watts : Nat)
  | cxlLinkUp (port cap : Nat)
  -- rows without operands; those that the outside world presents with words read them from `State.input`
  | strandFinish
  | atomicExecute
  | slotUpdate
  | kpubFlip
  | tallocServe
  | tagWaitTimeout
  | retireStart
  | cellFullTimeout
  | relaxGroupStart
  | loadPerformed
  | storePerformed
  | copySubmit
  | stallWireRelease
  | shootdownComplete
  | controlWatchdogExpire
  | sliceEnd
  | switchOutComplete
  | nodeAccept
  | placement
  | portLockLoss
  | destinationLost
  | cxlLinkDown
  | tsuwinLinkDown
  | coreHeartbeatExpire
  | coreRebootComplete
  | fallbackTurn
  | barWindowsOpen
  | getEndpointId
  | getMctpVersionSupport
  | getMessageTypeSupport
  | vendorReadTelemetry
  | vendorReadErrors
  | announce
  | sync
  | followUp
  | ppsEdge
  | ppsEdgeMissing
  | tsuwinLinkUp
  deriving DecidableEq, Repr

end Sys2Proof
end

