-- ==== Sys2Proof/Machine/State.lean ====
section
/-!
DEFINITION. The state of the Z4 package as plain data: the clusters with their strands, memory and what each die holds
for it, the front end, the dispatcher, power, the fabric, reliability and the management port, and the model's own
queue of choices. `State.reset` is the package right after reset (R423 has not begun).
-/

namespace Sys2Proof.Machine

/-! ### Sparse tables -/

/-- A table from numbers to values in one canonical form: keys strictly rising, no entry that holds the default. -/
abbrev Sp (α : Type) := List (Nat × α)

/-- Bytes by physical address (or by scratchpad offset), canonical; an unlisted byte reads 0. -/
abbrev Memory := List Host.Cell

/-! ### Why a step can stop -/

/-- Why the machine stops: it never does, so no reason is listed. What the spec calls a fault is a trap, a record or a
status, and each of those is a next state; the spec names no address whose access ends the run (R57, R75, R117). -/
inductive Fault where
  deriving DecidableEq, Repr

/-- Why an instruction has no meaning. -/
inductive Refusal where
  /-- Raised by an arm of `exec` whose instruction has no meaning yet; safe. -/
  | notModelled (mnemonic : String)
  deriving DecidableEq, Repr

/-! ### Causes -/

/-- Trap causes (R343). -/
inductive Cause where
  | illEnc | misalign | trNc | trRsvd | trSpad | trInvalid | trFormat | tagRemote | tagType | trProt
  | atomSpad | syncArg | syncTarget | tagArg | tokArg | tokOvf | brAlign | brRange | zlEnd | zlArg | zlStage
  | schedArg | csrAcc | pwrArg | fabArg | user | brk | wdog
  | engEnc | copyFail | tagStale | tagWait | cellFull | memLink | memRange | memPoison | fabLost
  | relNc | relDiv | relWsm
  deriving DecidableEq, Repr

/-- A trap record: what the trap registers receive (R346, R347). `more` is the sticky overflow bit of R52. -/
structure TrapRec where
  cause : Cause
  eng : Eng
  deferred : Bool
  more : Bool
  info16 : BitVec 16
  addr : Word
  waddr : Word
  info : Word
  aux : Word
  deriving DecidableEq, Repr

/-! ### The strand -/

/-- One zero-overhead loop set (R197, R350). -/
structure LoopSet where
  zls : Word
  zle : Word
  zlc : BitVec 32
  stages : BitVec 3
  armed : Bool
  frozen : Bool
  deriving DecidableEq, Repr

/-- The trap registers (R345 to R347). TRP_STATUS is H here; FROZ is read off the loop sets, and PEND off the records
unless an edited report has set it since the last of them changed (R415). -/
structure TrapRegs where
  h : Bool
  pend : Option Bool
  cause : Word
  epc : Word
  addr : Word
  waddr : Word
  info : Word
  aux : Word
  hvec : Word
  hen : Word
  scr0 : Word
  scr1 : Word
  deriving DecidableEq, Repr

/-- The control sequencer's state that the control checkpoint of R397 covers: R197, EB, token counts, KS, trap
registers, CQ, and the power request of R365. `order` lists the armed loop sets, most recently armed first (R211). -/
structure Ctl where
  pc : Word
  g : Vector Word 32
  p : BitVec 8
  bt : Vector Word 8
  zl : Vector LoopSet 4
  order : List (Fin 4)
  sp : BitVec 8
  ctag : BitVec 20
  eb : Vector Word 16
  tok : Vector (BitVec 16) 16
  ksErr : BitVec 8
  ksMore : Bool
  ksOut : BitVec 8
  ksErrSeq : BitVec 32
  copySeq : BitVec 32
  cq : List Bool
  trp : TrapRegs
  pwrReq : BitVec 2
  deriving DecidableEq, Repr

/-- One deferral-queue record (R260). -/
structure DqRec where
  lane : BitVec 8
  tag : BitVec 8
  va : Lane
  vb : Lane
  deriving DecidableEq, Repr

/-- The vector engine's state (R241). Row r, lane l is entry `256 * r + l` of `rows`; `gens` holds the generators that
have moved from their launch state (R236). -/
structure VState where
  rows : Sp Lane
  vm : Vector (BitVec 256) 8
  dq : List DqRec
  gens : Sp Lane
  deriving DecidableEq, Repr

/-- One level of a channel's nest (R270). -/
structure Level where
  base : Word
  stride : Word
  cnt : Nat
  deriving DecidableEq, Repr

/-- An address-generator channel (R271). -/
structure Channel where
  active : Vector Level 6
  shadow : Vector Level 6
  idx : Vector Nat 6
  deriving DecidableEq, Repr

/-- The sparse resident structure (R305): entries as (row, column, pattern) in row and column order. -/
structure Struct where
  fmt : Fmt
  bias : Int
  nrows : Nat
  ncols : Nat
  entries : List (Nat × Nat × Lane)
  deriving DecidableEq, Repr

/-- The relaxation registers (R297); per-row registers by row. -/
structure RelaxRegs where
  xtol : Lane
  xlim : BitVec 16
  xmin : BitVec 16
  xgrow : Lane
  xmode : Lane
  xdamp : Sp Lane
  xclo : Lane
  xchi : Lane
  xres : Sp Lane
  xcnt : Sp (BitVec 16)
  xret : BitVec 128
  xdiv : BitVec 128
  xah0 : Sp Lane
  xah1 : Sp Lane
  xah2 : Sp Lane
  xah3 : Sp Lane
  xstat : Word
  xstruct : Lane
  deriving DecidableEq, Repr

/-- The matrix engine's state (R268, R296, R297). Bank b byte o is entry `65536 * b + o` of `rb`; tile t, row i,
column j is entry `16384 * t + 128 * i + j` of `acc`, and likewise for the planes of `qpb`; DPL row b byte j is entry
`128 * b + j`. -/
structure MState where
  rb : Sp Byte
  acc : Sp Lane
  bias : Vector (Option Int) 4
  qpb : Sp Lane
  map : Sp Byte
  gens : Sp Lane
  chans : Vector Channel 4
  stag : Vector Lane 4
  dpl : Sp Byte
  struct : Option Struct
  rx : RelaxRegs
  deriving DecidableEq, Repr

/-- The element queues (R77, R268), oldest byte first. `src` holds, for every byte of a load queue, the address and the
effective tag under which it was read: the replay pointers of R358. -/
structure Queues where
  lq : Vector (List Byte) 4
  src : Vector (List (Word × BitVec 20)) 4
  sq : Vector (List Byte) 4
  moq : List Byte
  deriving DecidableEq, Repr

/-- The atomic operations of R143. -/
inductive AOp where
  | add | and | or | xor | min | max | minn | maxn | xchg | cas
  deriving DecidableEq, Repr

/-- The copy forms of R88. -/
inductive KOp where
  | copy | copy2d | fill | gather | scatter | pair
  deriving DecidableEq, Repr

/-- Where a checked access goes (R55, R60): a scratchpad offset, or a physical address with its memory-type code. -/
inductive Place where
  | spad (off : Nat)
  | mem (pa type : Nat)
  deriving DecidableEq, Repr

/-- A translated stretch of one 64 KiB granule (R72): its first and last virtual address, and where the first byte lies. -/
structure Mapped where
  lo : Nat
  hi : Nat
  pl : Place
  deriving DecidableEq, Repr

/-- What an L, S or K entry does, with the operands it captured (R78) and the place its check at issue found (R83). -/
inductive Cmd where
  /-- ld, ldc: destination, address, size, constant path -/
  | load (d : Reg) (ea : Word) (pl : Place) (sz : Size) (const : Bool)
  | ldx (d : Reg) (ea : Word) (pl : Place) (sz : Size) (tag : BitVec 20)
  | qld (q : BitVec 2) (sz : Size) (base c0 s0 c1 s1 : Word)
  | cinv
  | zlrs (l : BitVec 2) (ea : Word) (pls : List Place)
  | store (ea : Word) (pl : Place) (sz : Size) (v : Word)
  | zlsv (ea : Word) (pls : List Place) (words : List Word)
  | qst (q : BitVec 2) (sz : Size) (base c0 s0 c1 s1 : Word)
  | atomic (op : AOp) (d : Reg) (ea : Word) (pl : Place) (d64 : Bool) (v c : Word) (sc : Scope) (ord : Order)
  | fadd (slot : BitVec 10) (arg : Word) (sc : Scope)
  | barv (slot : BitVec 10) (arg : Word) (sc : Scope)
  | fset (slot : BitVec 10) (mask : Word) (sc : Scope)
  | barinit (slot : BitVec 10) (goal fanout : Word)
  | talloc (d : Reg)
  | tretire (t : BitVec 20)
  | tstat (d : Reg) (t : BitVec 20)
  | drainnt (sc : Scope)
  | launch (d : Reg) (q : BitVec 4) (tail : Word)
  | prio (d : Reg) (v : Word)
  | qarm (d : Reg) (addr : Word)
  | qpost (d : Reg) (handle first : Word)
  | qabort (d : Reg) (handle : Word)
  | qstat (d : Reg) (handle : Word)
  | copy (op : KOp) (x : Bool) (gd ga gb gb1 tags : Word)
  | kpub (ea : Word)
  /-- a KPUB whose result a rollback has kept: it takes its pops and counts, and acts no more (R398) -/
  | kpubLogged
  | marker
  deriving DecidableEq, Repr

/-- How far an entry has come: queued, begun (its pops are taken), submitted (a copy that runs, a request in flight, a
TALLOC at the allocator), performed. -/
inductive Stage where
  | queued | begun | submitted | performed
  deriving DecidableEq, Repr

/-- One L, S or K entry (R78): issue number, control-area address of its word, captured CTAG, token register, its
command, its stage, and the number of elements or lines done. -/
structure Entry where
  seq : Nat
  waddr : Word
  tag : BitVec 20
  tk : Word
  cmd : Cmd
  stage : Stage
  done : Nat
  deriving DecidableEq, Repr

/-- An engine block in the V or M queue (R182). -/
structure Block where
  seq : Nat
  waddr : Word
  first : Nat
  len : Nat
  eb : Vector Word 16
  tag : BitVec 20
  deriving DecidableEq, Repr

/-- One byte that a copy, a matrix entry or a collective will flip in (R92): canonical address (of a publishable region
that of half 0; the flip chooses the half, R136), tag id (0: none), value, and the virtual address it was written at. -/
structure ShadowByte where
  pa : Nat
  tag : BitVec 20
  tw : Bool
  pub : Bool
  val : Byte
  va : Word
  deriving DecidableEq, Repr

/-- What the current matrix word holds between its steps: how far it has come, the operand rows that it has read, header
words, the address of row 0 of its second operand, the rescale of R233, and the shadow bytes that it has reserved (R165). -/
structure Work where
  stage : Nat
  a : List (List Nat)
  b : List (List Nat)
  hdr : List Nat
  addr : Word
  scale : Int
  hold : List ShadowByte
  deriving DecidableEq, Repr

/-- A word that has not begun. -/
def Work.none : Work := ⟨0, [], [], [], 0, 0, []⟩

/-- The block that V or M executes: position of the current word, the repeat it stands in (start offset, length, count,
repetition), whether the current word has taken its pops, its output rows done, what it holds, and, of a matrix entry,
the shadow bytes and the push masks, each with its word's TRP_INFO, that wait for the lines to flip in (R127, R189), and the
homes at which it has used cells of its tag (R166). -/
structure Run where
  blk : Block
  off : Nat
  repLen : Nat
  repStart : Nat
  repCount : Nat
  k : Nat
  popped : Bool
  rows : Nat
  work : Work
  shadow : List ShadowByte
  pushes : List (Nat × Word)
  homes : List Nat
  deriving DecidableEq, Repr

/-- Classes of accesses that an ordering gate waits for or holds back (R124, R125, R129). -/
inductive Class where
  | load | store | atomic | kcmd | winRead | winWrite | outside
  deriving DecidableEq, Repr

/-- An ordering constraint placed by MARK, SBAR, FENCE, an acquire atomic or the like: entries issued after `seq` in a
class of `holds` begin only when no entry issued before it in a class of `waits` is outstanding. `inval` makes the
acquire's invalidation when it is met. -/
structure Gate where
  seq : Nat
  waits : List Class
  holds : List Class
  inval : Bool
  deriving DecidableEq, Repr

/-- One non-temporal buffer (R132): the line it holds, where it goes, its captured tag, bytes by offset, and the issue
number of its first and last stnt. -/
structure NtBuf where
  line : Nat
  type : Nat
  va : Word
  tag : BitVec 20
  bytes : Sp (Byte × Bool)
  first : Nat
  last : Nat
  waddr : Word
  sent : Bool
  deriving DecidableEq, Repr

/-- A translation fault that waits for the front end (R76, R355): one for each agent of the strand that holds an access. -/
structure Held where
  cause : Cause
  va : Word
  write : Bool
  eng : Eng
  declined : Bool
  serviced : Bool
  deriving DecidableEq, Repr

/-- What a cluster does: no strand, a strand that runs, one that has ended while its node has not, one that leaves. -/
inductive Status where
  | idle | running | finished | leaving
  deriving DecidableEq, Repr

/-- The code of a kernel as the loader placed it (R34, R181, R367): base address and bytes of the control area, bytes of
the V and M areas, block tables, switch table as addresses. -/
structure Code where
  ctrlVa : Nat
  ctrl : List Byte
  varea : List Byte
  marea : List Byte
  entry : Nat
  vblocks : List (Nat × Nat)
  mblocks : List (Nat × Nat)
  switch : List (Nat × List Nat)
  edges : List (Nat × Nat × Option Nat)
  deriving DecidableEq, Repr

/-- The state that a rollback restores (R397), with the deferred records that engines held at the commit. -/
structure Snap where
  ctl : Ctl
  v : VState
  m : MState
  q : Queues
  spad : Memory
  fills : List (Nat × Option Entry)
  traps : List TrapRec
  deriving DecidableEq, Repr

/-- A non-idempotent entry's logged result (R397): the issuing word, the register and value where it binds one, and the
record that it left where its home refused it. -/
structure LogRec where
  waddr : Word
  result : Option (Reg × Word)
  refused : Option TrapRec
  deriving DecidableEq, Repr

/-- A strand with everything a context switch saves (R358). `vdry` and `mdry` tell that the last step on the block of V or
M found no tokens, or no bytes or room in a queue (R179, R357); `relaxLost` that the matrix engine's last entry ended in an
error before a RELAX of its block and `relaxEnded` that it ended so at one (R307); `ntWait` that the word at PC is a stnt
that needs a buffer (R132). `zlrec` is the issue number of a ZLRS that waits, with what it has loaded of its record (R218);
`halt` lists the cluster errors whose rollback waits for a request's answer, each with TEL_TIME of its detection (R398,
R403); `fills` says which copy command last filled a window granule (none: the strand's own stores, R398). -/
structure Strand where
  vi : Nat
  stream : Nat
  node : Nat
  idx : Nat
  gang : Nat
  vkind : Bool
  eclass : BitVec 4
  vars : BitVec 3
  code : Code
  spadSize : Nat
  ctl : Ctl
  v : VState
  m : MState
  q : Queues
  spad : Memory
  pendDst : Vector (Option Nat) 32
  zlrec : Option (Nat × List Word)
  traps : List TrapRec
  seq : Nat
  lqu : List Entry
  squ : List Entry
  kqu : List Entry
  vqu : List Block
  mqu : List Block
  vrun : Option Run
  mrun : Option Run
  vdry : Bool
  mdry : Bool
  relaxLost : Bool
  relaxEnded : Bool
  mprog : Word
  gates : List Gate
  nt : List NtBuf
  ntWait : Bool
  held : List Held
  stall : Bool
  finish : Bool
  wdC : Nat
  wdE : Vector Nat 5
  wdTag : Nat
  slice : Nat
  ckpt : Option Snap
  log : List LogRec
  replay : List LogRec
  locks : List Nat
  fills : List (Nat × Option Entry)
  unprotected : Bool
  openSeq : Nat
  rollbacks : Nat
  halt : List (ClusterErr × Nat)
  deriving DecidableEq, Repr

/-! ### The cluster -/

/-- L1 line states (R107). -/
inductive L1St where
  | shared | privateClean | privateDirty | constant
  deriving DecidableEq, Repr

/-- A valid L1 line: physical line number, bank (way), state, 64 bytes. -/
structure L1Line where
  line : Nat
  bank : Nat
  st : L1St
  data : List Byte
  deriving DecidableEq, Repr

/-- A TLB entry (R67): interface, page base, page size in bytes, W, D, TYPE, physical base. -/
structure TlbEntry where
  vi : Nat
  va : Nat
  size : Nat
  w : Bool
  d : Bool
  type : Nat
  pa : Nat
  deriving DecidableEq, Repr

/-- A cluster of a die (R139 numbers it), and the strand on it. THR_ registers and IMP belong to the cluster (R364). -/
structure Cluster where
  die : Nat
  clus : Nat
  status : Status
  st : Strand
  l1 : List L1Line
  tlb : List TlbEntry
  imp : BitVec 2
  thrNow : BitVec 5
  thrSticky : BitVec 5
  thrCyc : BitVec 48
  fenced : Bool
  rollbackTimes : List Nat
  deriving DecidableEq, Repr

/-! ### Per-die state -/

/-- A cell (R162): line number, tag id, 64 bytes. -/
structure Cell where
  line : Nat
  tag : Nat
  data : List Byte
  deriving DecidableEq, Repr

/-- A valid line of an L2 slice (R111): line number, tag id of a cell (0: the base line), encoding, data slot, half of the
slot, and whether the slice holds it dirty. -/
structure L2Line where
  line : Nat
  tag : Nat
  code : Nat
  slot : Nat
  half : Nat
  dirty : Bool
  deriving DecidableEq, Repr

/-- A pointer entry that a die's walker has cached (R68): interface, level of its table, the address bits above that
level's pages, and the table it names. -/
structure Ptr where
  die : Nat
  vi : Nat
  lvl : Nat
  idx : Nat
  next : Nat
  deriving DecidableEq, Repr

/-- A translation that some cluster has used since the last shootdown of its page (R67, R70): interface, page, size, physical
base. -/
structure Seen where
  vi : Nat
  va : Nat
  size : Nat
  pa : Nat
  deriving DecidableEq, Repr

/-- A page-lock entry (R73): die of the table, granule number, pin count. -/
structure Pin where
  die : Nat
  granule : Nat
  count : Nat
  deriving DecidableEq, Repr

/-- A publish-table entry (R135) with its base and size, and the clusters whose KPUBs wait at the home for the writers, in
the order of their arrival (R137, R138), each as 64 * die + cluster. -/
structure Pub where
  die : Nat
  sel : Bool
  writers : Nat
  pcnt : BitVec 32
  base : Nat
  size : Nat
  waits : List Nat
  deriving DecidableEq, Repr

/-- States of a tag index (R159). -/
inductive TagSt where
  | free | live | retiring
  deriving DecidableEq, Repr

/-- A tag index that has left its reset state (R159); `cells` is the count the homes have reported (R171). -/
structure TagRec where
  die : Nat
  idx : Nat
  st : TagSt
  gen : BitVec 4
  vi : Nat
  stream : Nat
  deriving DecidableEq, Repr

/-- A TALLOC that waits at a die's allocator (R168): who waits. -/
structure TagWait where
  die : Nat
  node : Nat
  idx : Nat
  vi : Nat
  stream : Nat
  deriving DecidableEq, Repr

/-- A retirement in progress (R166): the tag, who retires it (none: the front end), dies whose home has received the
notice, dies that have acknowledged. -/
structure Retire where
  die : Nat
  idx : Nat
  vi : Nat
  owner : Option (Nat × Nat)
  noticed : List Nat
  acks : List Nat
  deriving DecidableEq, Repr

/-- A barrier slot (R147). -/
structure Slot where
  value : BitVec 32
  goal : BitVec 16
  phase : BitVec 8
  fanout : Word
  deriving DecidableEq, Repr

/-- A CXL root port (R116, R117): link state and decoder limit in bytes. -/
structure CxlPort where
  up : Bool
  limit : Nat
  deriving DecidableEq, Repr

/-- A copy command that runs (R90, R92): the cluster whose engine runs it (64 * die + cluster), the bytes that will flip,
sorted by line and tag, the granules that it pins, with the interface and the 64 KiB pages through which it reached them,
the bases of the publishable regions that count it as a writer, the 16 KiB window granules that it writes (R97), and the
tag whose cells it reads (0: none). -/
structure CopyRun where
  key : Nat
  bytes : List ShadowByte
  grans : List Nat
  vi : Nat
  pages : List (Nat × Nat)
  regions : List Nat
  window : List Nat
  reads : Nat
  deriving DecidableEq, Repr

/-! ### Front end -/

/-- A launch-queue descriptor (R334); `drop` lists the entries that a tear-down has marked (R337). -/
structure LaunchQ where
  en : Bool
  lsize : BitVec 4
  base : Word
  haddr : Word
  head : Word
  tail : Word
  drop : List Nat
  deriving DecidableEq, Repr

/-- A stream queue (R410, R411). -/
structure StreamQ where
  base : Word
  en : Bool
  host : Bool
  lsize : BitVec 4
  tail : Word
  head : Word
  deriving DecidableEq, Repr

/-- A notification vector (R410, R413). -/
structure Note where
  addr : BitVec 52
  data : BitVec 32
  en : Bool
  deriving DecidableEq, Repr

/-- The mailbox (R414). -/
structure Mbox where
  cmd : BitVec 8
  busy : Bool
  res : BitVec 8
  arg : Vector Word 4
  out0 : Word
  out1 : Word
  deriving DecidableEq, Repr

/-- A loaded image (R422): handle, its kernels, its regions' publish entries, and its areas as physical ranges (first
address, length). -/
structure Loaded where
  handle : Nat
  kernels : List Code
  pubs : List Nat
  areas : List (Nat × Nat)
  deriving DecidableEq, Repr

/-- A LOAD that goes on (R422): graphs not yet written into stream queue 0 (first record, number of records), and the value
of HEAD with which the last graph has been accepted. -/
structure Loading where
  graphs : List (Nat × Nat)
  last : Nat
  deriving DecidableEq, Repr

/-- What the front end holds for one virtual interface (R416). `closing` and `tearing` are the tear-downs of the whole
interface and of streams that go on (R337); `disabling` says that EN falls with the first (R417). `loading` is a LOAD
that goes on, and `refills` counts the periods of R372 whose refill has come. -/
structure VI where
  ptb : Word
  tagq : Word
  vicfg : Word
  vicls : Sp Word
  closing : Bool
  disabling : Bool
  tearing : List Nat
  tvec : Word
  slice : Word
  wdog : Word
  equota : Word
  filler : Word
  zbind : Word
  dropped : BitVec 32
  lqs : Sp LaunchQ
  winBase : Word
  winerr : BitVec 32
  sqs : Sp StreamQ
  crBase : Word
  crCfg : Word
  crIdx : Nat
  notes : Sp Note
  mbox : Mbox
  images : List Loaded
  nextHandle : Nat
  loading : Option Loading
  refills : Nat
  deriving DecidableEq, Repr

/-- A message of the management port (R426, R427), with the word that it names where it names one. -/
inductive MgmtMsg where
  | setEid (eid : BitVec 8)
  | getEid
  | getVersions
  | getTypes
  | readTelemetry (k : Option Nat)
  | readErrors (k : Option Nat)
  | quote (nonce : BitVec 256)
  | writeZcfg (v : BitVec 64)
  | announce (sec : Option Nat)
  | sync (sec : Option Nat)
  | followUp (sec : Option Nat)
  deriving DecidableEq, Repr

/-- An event of the front end (R419): a doorbell of a stream queue, a mailbox command, a fault of a gang that waits to be
serviced, a trap report or a completion behind one with the values of its record, an error report with its record's bits
but SEQ, a management message, and the expiry of an interface's energy timer or of the telemetry timer. -/
inductive Event where
  | doorbell (vi q : Nat)
  | mailbox (vi : Nat)
  | fault (node : Nat)
  | record (time vi kind status strand cookie node gidx : Nat) (trp : List Word) (note : Nat)
  | error (bits : Nat)
  | manage (m : MgmtMsg)
  | energy (vi : Nat)
  | telemetry
  deriving DecidableEq, Repr

/-- Corrected errors of one location that merge into one record (R403): their number, when the first came, by the reference
clock and as TEL_TIME, and the node of the strand there. -/
structure Merged where
  site : ErrSite
  count : Nat
  since : Nat
  time : Nat
  node : Nat
  deriving DecidableEq, Repr

/-- The front end's package registers and firmware pool (R418 to R421), boot state (R423) and measurement registers
(R425). `sdMarks` names, while a shootdown runs, each strand with its next issue number at the request (R70). `events` is
the event queue in the order of arrival (R419): its first 65,536 entries are in the queue, later ones wait at their sources.
`cores` lists the events that cores hold. `errs` lists the locations whose corrected errors of the present second wait for
their record (R403); `fused` is the fused least security version (R423). -/
structure Front where
  visel : BitVec 7
  up : BitVec 12
  fallback : Bool
  turn : Nat
  events : List Event
  cores : List (Nat × Event)
  errs : List Merged
  fused : Nat
  cfgerr : Bool
  reboots : BitVec 32
  sdva : Word
  sdctl : Word
  sdMarks : List (Nat × Nat × Nat)
  zcfg : Word
  zwgt : Word
  ramp : Word
  scrub : Word
  dispcfg : Word
  telcfg0 : Word
  telcfg1 : Word
  errcfg0 : Word
  errcfg1 : Word
  cellcfg : Sp Word
  syncdrop : Sp Word
  anyEnabled : Bool
  booted : Bool
  bootFailed : Bool
  windows : Bool
  meas : Vector (BitVec 256) 16
  leaf : Nat
  idLeaf : Nat
  telIdx : Nat
  errIdx : Nat
  bar2 : List Byte
  placed : List (Nat × Nat × Nat)
  deriving DecidableEq, Repr

/-! ### Dispatcher -/

/-- Node states: accepted and waiting for its graph or its predecessors, in the pool, on clusters, switched out and in
the pool again, switched out and held for the driver (R351). A node that has completed leaves the table. -/
inductive NodeSt where
  | accepted | ready | placed | away | held
  deriving DecidableEq, Repr

/-- A node (R324): the fields of its record, its register image, and the dispatcher's counters. `places` lists the
clusters of its strands by strand index, those they left where the gang is switched out. `entered` is the time of the
node's entry into the pool and `order` the number of that entry among all (R330). -/
structure Node where
  slot : Nat
  vi : Nat
  stream : Nat
  graph : Nat
  gidx : Nat
  state : NodeSt
  kernel : Word
  prio : Nat
  vkind : Bool
  gang : Nat
  spad : Nat
  eclass : BitVec 4
  vars : BitVec 3
  preds : List Nat
  left : Nat
  regs : List Word
  tok : List Nat
  opnd : List Word
  status : Nat
  cookie : BitVec 32
  entered : Nat
  order : Nat
  passed : Nat
  reserving : Option Nat
  finished : List Nat
  trapped : Option Nat
  saved : List Strand
  places : List (Nat × Nat)
  deriving DecidableEq, Repr

/-- A graph of a stream (R325, R326). -/
structure Graph where
  id : Nat
  vi : Nat
  stream : Nat
  size : Nat
  released : Bool
  failed : Bool
  deriving DecidableEq, Repr

/-- A graph that waits to be accepted (R325): interface, address of its first record, number of records, cookie, the
stream queue it came from, and whether its entry sets a reserved bit (R411). -/
structure Submission where
  vi : Nat
  recs : Word
  count : Nat
  cookie : BitVec 32
  queue : Nat
  bad : Bool
  deriving DecidableEq, Repr

/-- The graph dispatcher. `examined` lists the nodes that the present placement opportunity has found the clusters not to
admit, and `entries` counts entries into the pool (R330). -/
structure Disp where
  nodes : List Node
  graphs : List Graph
  nextGraph : Nat
  faulted : List (Nat × Nat)
  subs : List Submission
  served : Sp Nat
  reserveSeq : Nat
  examined : List Nat
  entries : Nat
  deriving DecidableEq, Repr

/-! ### Power, fabric, reliability, management -/

/-- Rails and the ramp limiter (R360, R370), the package reserve (R6), the timebase (R373) and elapsed reference
nanoseconds. The envelope and the demand of placed work are held in hundredths of a watt, the energy in tenths of a
millijoule. `dies` is the last measured draw of dies 0 to 23 and of the I/O dies, `waits` the nodes that the limiter holds
back (R332), `telLast` the time of the last telemetry record (R374). -/
structure Power where
  opp : Vector (BitVec 2) 4
  envelope : Nat
  demand : Nat
  waits : List Nat
  draw : Nat
  dies : List Nat
  grants : Sp Nat
  energy : Word
  ballast : Nat
  sec : Nat
  nsec : Nat
  now : Nat
  thrSince : BitVec 5
  lockedSince : Bool
  telLast : Nat
  deriving DecidableEq, Repr

/-- Who waits for the answer of a request (R381): an entry of a cluster's agent by its issue number (a non-temporal buffer
as agent C with the issue number of its first stnt), a store of a collective, a host write through BAR2 of an interface, or
a read whose bytes wait in the request until they are taken: by the copy engine or the matrix engine of a cluster
(64 * die + cluster), by a collective's bucket, or by the host. -/
inductive Owner where
  | entry (die clus : Nat) (e : Eng) (seq : Nat)
  | coll (die slot : Nat)
  | host (vi : Nat)
  | fetch (e : Eng) (key : Nat)
  | bucket (die slot b : Nat)
  | bar2 (vi : Nat)
  deriving DecidableEq, Repr

/-- A request in flight (R380, R381): its number, who waits, the virtual address of a matrix row's part (R274), the window
address and length of a read, whether it still waits for its acknowledgement and for its reply, and the reply's error code
and data. -/
structure Req where
  num : Nat
  owner : Owner
  va : Word
  pa : Nat
  n : Nat
  ack : Bool
  reply : Bool
  err : Nat
  data : List Byte
  deriving DecidableEq, Repr

/-- The sending and receiving side of the pair with one other package (R381, R382), and the requests in flight. The retry
buffer also holds the replies that R381 caches; its first 4,096 packets have been sent, later ones wait. `sent` holds the
time at which each packet last went out, by number, and `since` the time at which a route last worked. -/
structure Peer where
  pkg : Nat
  nextSeq : BitVec 32
  retry : List Packet
  sent : List (Nat × Nat)
  since : Nat
  expect : BitVec 32
  window : List Packet
  routes : List Route
  failed : List Nat
  lost : Bool
  reqs : List Req
  deriving DecidableEq, Repr

/-- An export entry (R378). -/
structure Exp where
  v : Bool
  w : Bool
  cxl : Bool
  vi : BitVec 7
  pa : Nat
  deriving DecidableEq, Repr

/-- Collective states (R391); a free slot is not listed. -/
inductive CollSt where
  | armed | running | done | aborted | failed
  deriving DecidableEq, Repr

/-- A collective descriptor as QARM read it (R384). -/
structure Desc where
  op : Nat
  tree : Bool
  narrow : Bool
  cls : Nat
  fmt : Fmt
  parts : Nat
  rank : Nat
  att : BitVec 8
  id : Nat
  buckets : Nat
  cpb : Nat
  blen : Nat
  src : Word
  dst : Word
  peers : Word
  door : Word
  deriving DecidableEq, Repr

/-- A bucket (R385, R386): its index, the partial values as F32 or I32 patterns, how many chunks it has received, which
of its sends have gone out, the send under way with the elements of it that have gone, whether its result stands in shadow
lines, and whether it has completed and only passes chunks on (R392). -/
structure Bucket where
  b : Nat
  vals : List Lane
  got : Nat
  sent : List Nat
  part : Option (Nat × Nat)
  shadowed : Bool
  ended : Bool
  deriving DecidableEq, Repr

/-- A collective slot (R391, R395): its status word, who armed it, the descriptor; from the post on the peers, the
interface at the peers (R379), the translated source, destination and doorbell, the buckets in flight and the next one
to start, pinned granules with the pages through which the post reached them, credits granted by receivers (bucket, step),
chunks that have arrived (bucket, step, values), and unacknowledged gongs (package, number). -/
structure Coll where
  die : Nat
  slot : Nat
  st : CollSt
  att : BitVec 8
  code : BitVec 8
  done : Nat
  vi : Nat
  node : Nat
  idx : Nat
  desc : Desc
  peers : List Nat
  rvi : Nat
  src : List Mapped
  dst : List Mapped
  pages : List (Nat × Nat)
  door : Nat
  flight : List Bucket
  next : Nat
  pins : List Nat
  credits : List (Nat × Nat)
  arrived : List (Nat × Nat × List Lane)
  gongs : List (Nat × Nat)
  deriving DecidableEq, Repr

/-- The fabric (R375 to R383). -/
structure Fabric where
  peers : List Peer
  ports : BitVec 36
  exports : Sp Exp
  colls : List Coll
  deriving DecidableEq, Repr

/-- The management port and the time receiver (R426, R427). `out` holds the messages for the controller to read; `edge` is
the last PPS edge: the second that it marks, and the reference time at which it came. -/
structure Mgmt where
  addr : Option (BitVec 7)
  eid : BitVec 8
  out : List (List Byte)
  announced : Option Nat
  synced : Option Nat
  pending : Option Nat
  good : Nat
  bad : Nat
  locked : Bool
  edge : Option (Nat × Nat)
  deriving DecidableEq, Repr

/-! ### Choices and inputs -/

/-- What moves next: the control sequencer, the vector or the matrix engine of `me`; another cluster becomes `me`; or a
step that has no word, with the words that the outside world presents with it. -/
inductive Turn where
  | control
  | vword
  | mword
  | focus (k : Nat)
  | event (i : Instr) (inp : List Nat)
  deriving DecidableEq, Repr

/-- The package. `me` is the cluster whose turn it is and `peers` are the others; `turns`, `rotor`, `input` and `free`
are the model's own: choices, the rotation, the words presented with the step taken, the count of free values drawn. -/
structure State where
  me : Cluster
  peers : List Cluster
  mem : Memory
  poison : List Nat
  cellPoison : List (Nat × Nat)
  cells : List Cell
  l2 : List L2Line
  ptrs : List Ptr
  seen : List Seen
  pins : List Pin
  pubs : List Pub
  tags : List TagRec
  tagWaits : List TagWait
  retires : List Retire
  slots : Sp Slot
  shadow : List CopyRun
  cxl : Vector CxlPort 8
  tsuwin : Bool
  stallWires : List Nat
  vis : Sp VI
  fe : Front
  disp : Disp
  pow : Power
  fab : Fabric
  mgmt : Mgmt
  turns : List Turn
  rotor : Nat
  input : List Nat
  free : Nat
  deriving DecidableEq, Repr

/-! ### Reset -/

/-- A disarmed loop set with every field zero (R197). -/
def LoopSet.zero : LoopSet := ⟨0, 0, 0, 0, false, false⟩

/-- Trap registers at launch (R345). -/
def TrapRegs.zero : TrapRegs := ⟨false, none, 0, 0, 0, 0, 0, 0, 0, 0, 0, 0⟩

/-- The launch values of R197, R185, R188, R99 and R345. -/
def Ctl.launch : Ctl :=
  { pc := 0, g := Vector.replicate 32 0, p := 1, bt := Vector.replicate 8 0, zl := Vector.replicate 4 LoopSet.zero,
    order := [], sp := 0, ctag := 0, eb := Vector.replicate 16 0, tok := Vector.replicate 16 0, ksErr := 0,
    ksMore := false, ksOut := 0, ksErrSeq := 0, copySeq := 0, cq := [], trp := TrapRegs.zero, pwrReq := 0 }

/-- The launch values of R241. -/
def VState.launch : VState := ⟨[], Vector.replicate 8 0, [], []⟩

/-- A level that no NSET has written (R270). -/
def Level.zero : Level := ⟨0, 0, 1⟩

/-- A channel at launch (R268, R270). -/
def Channel.zero : Channel := ⟨Vector.replicate 6 Level.zero, Vector.replicate 6 Level.zero, Vector.replicate 6 0⟩

/-- The relaxation registers at launch (R297). -/
def RelaxRegs.zero : RelaxRegs :=
  { xtol := 0, xlim := 0, xmin := 0, xgrow := 0, xmode := 0, xdamp := [], xclo := 0, xchi := 0, xres := [], xcnt := [],
    xret := 0, xdiv := 0, xah0 := [], xah1 := [], xah2 := [], xah3 := [], xstat := 0, xstruct := 0 }

/-- The launch values of R268 and R296. -/
def MState.launch : MState :=
  { rb := [], acc := [], bias := Vector.replicate 4 none, qpb := [], map := [], gens := [],
    chans := Vector.replicate 4 Channel.zero, stag := Vector.replicate 4 0, dpl := [], struct := none, rx := RelaxRegs.zero }

/-- Empty element queues. -/
def Queues.empty : Queues := ⟨Vector.replicate 4 [], Vector.replicate 4 [], Vector.replicate 4 [], []⟩

/-- No code. -/
def Code.empty : Code := ⟨0, [], [], [], 0, [], [], [], []⟩

/-- A strand at launch values with no program. -/
def Strand.launch : Strand :=
  { vi := 0, stream := 0, node := 0, idx := 0, gang := 1, vkind := false, eclass := 0, vars := 1, code := Code.empty,
    spadSize := 0, ctl := Ctl.launch, v := VState.launch, m := MState.launch, q := Queues.empty, spad := [],
    pendDst := Vector.replicate 32 none, zlrec := none, traps := [], seq := 0, lqu := [], squ := [], kqu := [], vqu := [], mqu := [],
    vrun := none, mrun := none, vdry := false, mdry := false, relaxLost := false, relaxEnded := false, mprog := 0, gates := [], nt := [], ntWait := false,
    held := [], stall := false,
    finish := false, wdC := 0, wdE := Vector.replicate 5 0, wdTag := 0, slice := 0, ckpt := none, log := [],
    replay := [], locks := [], fills := [], unprotected := false, openSeq := 0, rollbacks := 0, halt := [] }

/-- Cluster `c` of die `d` at reset: every bank L1, every line invalid (R102), no strand. -/
def Cluster.reset (d c : Nat) : Cluster :=
  { die := d, clus := c, status := .idle, st := { Strand.launch with vkind := decide (48 ≤ c) }, l1 := [], tlb := [],
    imp := 0, thrNow := 0, thrSticky := 0, thrCyc := 0, fenced := false, rollbackTimes := [] }

/-- An interface at reset: every register 0 (R410, R416 to R418). -/
def VI.zero : VI :=
  { ptb := 0, tagq := 0, vicfg := 0, vicls := [], closing := false, disabling := false, tearing := [], tvec := 0, slice := 0, wdog := 0, equota := 0,
    filler := 0, zbind := 0, dropped := 0, lqs := [], winBase := 0, winerr := 0, sqs := [], crBase := 0, crCfg := 0,
    crIdx := 0, notes := [], mbox := ⟨0, false, 0, Vector.replicate 4 0, 0, 0⟩, images := [], nextHandle := 1,
    loading := none, refills := 0 }

/-- The front end at reset: SYS_SCRUB holds MODE 1, PASS 24, BASE 4, THRESH 80 (R402), every other register 0; the
BAR windows are closed (R423). -/
def Front.reset : Front :=
  { visel := 0, up := 0, fallback := false, turn := 0, events := [], cores := [], errs := [], fused := 0, cfgerr := false,
    reboots := 0, sdva := 0, sdctl := 0, sdMarks := [], zcfg := 0, zwgt := 0, ramp := 0, scrub := 0x50041801, dispcfg := 0, telcfg0 := 0, telcfg1 := 0, errcfg0 := 0,
    errcfg1 := 0, cellcfg := [], syncdrop := [], anyEnabled := false, booted := false, bootFailed := false,
    windows := false, meas := Vector.replicate 16 0, leaf := 0, idLeaf := 0, telIdx := 0, errIdx := 0, bar2 := [], placed := [] }

/-- The package right after reset. `me` is cluster 0 of die 0, with no strand on it; the other clusters come into
`peers` when a program is first placed on them. Memory lists nothing. -/
def State.reset : State :=
  { me := Cluster.reset 0 0, peers := [], mem := [], poison := [], cellPoison := [], cells := [], l2 := [], ptrs := [], seen := [], pins := [],
    pubs := [], tags := [], tagWaits := [], retires := [], slots := [], shadow := [],
    cxl := Vector.replicate 8 ⟨false, 0⟩, tsuwin := false, stallWires := [], vis := [], fe := Front.reset,
    disp := { nodes := [], graphs := [], nextGraph := 0, faulted := [], subs := [], served := [], reserveSeq := 0, examined := [], entries := 0 },
    pow := { opp := Vector.replicate 4 0, envelope := 0, demand := 0, waits := [], draw := 0, dies := [], grants := [],
             energy := 0, ballast := 0, sec := 0, nsec := 0, now := 0, thrSince := 0, lockedSince := false, telLast := 0 },
    fab := { peers := [], ports := BitVec.allOnes 36, exports := [], colls := [] },
    mgmt := { addr := none, eid := 0, out := [], announced := none, synced := none, pending := none, good := 0, bad := 0,
              locked := false, edge := none },
    turns := [], rotor := 0, input := [], free := 0 }

end Sys2Proof.Machine
end

