-- ==== Sys2Proof/Machine/Sparse.lean ====
section
/-!
DEFINITION. The sparse tables of the state: reading with a default, writing in the canonical form (keys strictly
rising, no entry that holds the default), and bytes and little-endian words on `Memory` (R31).
-/

namespace Sys2Proof.Machine

/-- The value at key `k`, or `d` where the table lists none. -/
def Sp.get {α : Type} (m : Sp α) (k : Nat) (d : α) : α :=
  match m with
  | [] => d
  | (k', v) :: r => if k' = k then v else if k < k' then d else Sp.get r k d

/-- Writes `v` at `k`; an entry that would hold the default `d` is removed. (What stands behind a removed entry is cut to
higher keys, which it holds alone in a canonical table.) -/
def Sp.set {α : Type} [DecidableEq α] (m : Sp α) (k : Nat) (v d : α) : Sp α :=
  match m with
  | [] => if v = d then [] else [(k, v)]
  | (k', v') :: r =>
    if k' = k then (if v = d then r.filter (fun x => decide (k < x.1)) else (k, v) :: r)
    else if k < k' then (if v = d then (k', v') :: r else (k, v) :: (k', v') :: r)
    else (k', v') :: Sp.set r k v d

/-- Every key is at least `lo`, keys rise strictly, and no entry holds the default. -/
def Sp.wfFrom {α : Type} [DecidableEq α] (m : Sp α) (lo : Nat) (d : α) : Bool :=
  match m with
  | [] => true
  | (k, v) :: r => decide (lo ≤ k) && decide (v ≠ d) && Sp.wfFrom r (k + 1) d

/-- The canonical form of a table with default `d`. -/
def Sp.wf {α : Type} [DecidableEq α] (m : Sp α) (d : α) : Bool := Sp.wfFrom m 0 d

/-- The canonical form of memory: a byte that is not listed reads 0. -/
def Memory.wf (m : Memory) : Bool := Sp.wf m (0 : Byte)

/-- The byte at address `a`. -/
def Memory.read (m : Memory) (a : Nat) : Byte := Sp.get m a 0

/-- Writes one byte. -/
def Memory.write (m : Memory) (a : Nat) (v : Byte) : Memory := Sp.set m a v 0

/-- `n` bytes from address `a` upward. -/
def Memory.readN (m : Memory) (a n : Nat) : List Byte :=
  match n with
  | 0 => []
  | n + 1 => Memory.read m a :: Memory.readN m (a + 1) n

/-- Writes a list of bytes from address `a` upward. -/
def Memory.writeN (m : Memory) (a : Nat) (bs : List Byte) : Memory :=
  match bs with
  | [] => m
  | b :: r => Memory.writeN (Memory.write m a b) (a + 1) r

/-- The number that little-endian bytes denote (R31). -/
def leNat (bs : List Byte) : Nat :=
  match bs with
  | [] => 0
  | b :: r => b.toNat + 256 * leNat r

/-- The `n` little-endian bytes of a number. -/
def leBytes (n : Nat) (v : Nat) : List Byte :=
  match n with
  | 0 => []
  | n + 1 => BitVec.ofNat 8 v :: leBytes n (v / 256)

/-- Replaces list element `k`; a position beyond the end changes nothing. -/
def setAt {α : Type} (l : List α) (k : Nat) (v : α) : List α :=
  match l, k with
  | [], _ => []
  | _ :: r, 0 => v :: r
  | x :: r, k + 1 => x :: setAt r k v

/-- The bytes of a size code (R35): 1, 2, 4 or 8. -/
def sizeBytes : Size → Nat
  | .b => 1
  | .h => 2
  | .w => 4
  | .d => 8

end Sys2Proof.Machine
end

