-- ==== Sys2Proof/Machine/Formats.lean ====
section
/-!
DEFINITION. The 28 element formats (R223 to R227): their codes, widths and fields, and the exact value that each
pattern denotes.
-/

namespace Sys2Proof.Machine

/-- The code of a format (R223, R226, R227). -/
def fmtCode : Fmt → Nat
  | .f32 => 0 | .f64 => 1 | .f19 => 2 | .f16 => 3 | .bf16 => 4 | .f8e4 => 5 | .f8e5 => 6 | .f8e3 => 7 | .f6e3 => 8
  | .f6e2 => 9 | .f4e2 => 10 | .i32 => 11 | .i16 => 12 | .n16 => 13 | .i8 => 14 | .n8 => 15 | .i4 => 16 | .n4 => 17
  | .i2 => 18 | .n2 => 19 | .t2 => 20 | .b1 => 21 | .dx8 => 22 | .dx6 => 23 | .dx4 => 24 | .dxf8 => 25 | .dxf6 => 26
  | .dxf4 => 27

/-- The format of a code; codes 28 to 31 are reserved (R35). -/
def fmtOfCode (n : Nat) : Option Fmt :=
  match n with
  | 0 => some .f32 | 1 => some .f64 | 2 => some .f19 | 3 => some .f16 | 4 => some .bf16 | 5 => some .f8e4
  | 6 => some .f8e5 | 7 => some .f8e3 | 8 => some .f6e3 | 9 => some .f6e2 | 10 => some .f4e2 | 11 => some .i32
  | 12 => some .i16 | 13 => some .n16 | 14 => some .i8 | 15 => some .n8 | 16 => some .i4 | 17 => some .n4
  | 18 => some .i2 | 19 => some .n2 | 20 => some .t2 | 21 => some .b1 | 22 => some .dx8 | 23 => some .dx6
  | 24 => some .dx4 | 25 => some .dxf8 | 26 => some .dxf6 | 27 => some .dxf4
  | _ => none

/-- Which special patterns a floating-point format has (R225). -/
inductive Specials where
  | ieee | nanOnly | none
  deriving DecidableEq, Repr

/-- Mantissa width, exponent width, bias and specials of a floating-point format (R223). -/
structure FloatSpec where
  mb : Nat
  ebits : Nat
  bias : Nat
  sp : Specials
  deriving DecidableEq, Repr

/-- What kind of number a format holds. -/
inductive FmtKind where
  | float (s : FloatSpec)
  | signed (w : Nat)
  | unsigned (w : Nat)
  | t2
  | b1
  /-- dual exponent, integer magnitude of so many bits -/
  | dx (mbits : Nat)
  /-- dual exponent, small-float magnitude -/
  | dxf (s : FloatSpec)
  deriving DecidableEq, Repr

/-- The kind of each format (R223, R226, R227). -/
def fmtKind : Fmt → FmtKind
  | .f32 => .float ⟨23, 8, 127, .ieee⟩
  | .f64 => .float ⟨52, 11, 1023, .ieee⟩
  | .f19 => .float ⟨10, 8, 127, .ieee⟩
  | .f16 => .float ⟨10, 5, 15, .ieee⟩
  | .bf16 => .float ⟨7, 8, 127, .ieee⟩
  | .f8e4 => .float ⟨3, 4, 7, .nanOnly⟩
  | .f8e5 => .float ⟨2, 5, 15, .ieee⟩
  | .f8e3 => .float ⟨4, 3, 3, .none⟩
  | .f6e3 => .float ⟨2, 3, 3, .none⟩
  | .f6e2 => .float ⟨3, 2, 1, .none⟩
  | .f4e2 => .float ⟨1, 2, 1, .none⟩
  | .i32 => .signed 32
  | .i16 => .signed 16
  | .n16 => .unsigned 16
  | .i8 => .signed 8
  | .n8 => .unsigned 8
  | .i4 => .signed 4
  | .n4 => .unsigned 4
  | .i2 => .signed 2
  | .n2 => .unsigned 2
  | .t2 => .t2
  | .b1 => .b1
  | .dx8 => .dx 6
  | .dx6 => .dx 4
  | .dx4 => .dx 2
  | .dxf8 => .dxf ⟨3, 3, 3, .none⟩
  | .dxf6 => .dxf ⟨2, 2, 1, .none⟩
  | .dxf4 => .dxf ⟨1, 1, 1, .none⟩

/-- Element width in bits (R223, R226, R227). -/
def fmtWidth (f : Fmt) : Nat :=
  match fmtKind f with
  | .float s => s.mb + s.ebits + 1
  | .signed w => w
  | .unsigned w => w
  | .t2 => 2
  | .b1 => 1
  | .dx m => m + 2
  | .dxf s => s.mb + s.ebits + 2

/-- Bits that an element occupies in memory and in queues: F19 takes a 32-bit container (R230). -/
def storeWidth (f : Fmt) : Nat := if f = .f19 then 32 else fmtWidth f

/-- Whether the format is a floating-point one (R223). -/
def fmtIsFloat (f : Fmt) : Bool :=
  match fmtKind f with
  | .float _ => true
  | _ => false

/-- Whether the format is a dual-exponent one (R227). -/
def fmtIsDual (f : Fmt) : Bool :=
  match fmtKind f with
  | .dx _ => true
  | .dxf _ => true
  | _ => false

/-- Whether the format is an integer, ternary or binary one (R226). -/
def fmtIsInt (f : Fmt) : Bool := !(fmtIsFloat f) && !(fmtIsDual f)

/-- An exact value, with the sign of a zero: `fin neg m e` is (-1)^neg * m * 2^e. -/
inductive Val where
  | nan
  | inf (neg : Bool)
  | fin (neg : Bool) (m : Nat) (e : Int)
  deriving DecidableEq, Repr

/-- The exact value of an integer. -/
def Val.ofInt (x : Int) : Val := .fin (decide (x < 0)) x.natAbs 0

/-- R224 and R225: the value of a floating-point pattern of `1 + ebits + mb` bits. -/
def floatVal (s : FloatSpec) (p : Nat) : Val :=
  let m := p % 2 ^ s.mb
  let e := p / 2 ^ s.mb % 2 ^ s.ebits
  let neg := decide (p / 2 ^ (s.mb + s.ebits) % 2 = 1)
  let top := 2 ^ s.ebits - 1
  if s.sp = .ieee ∧ e = top then (if m = 0 then .inf neg else .nan)
  else if s.sp = .nanOnly ∧ e = top ∧ m = 2 ^ s.mb - 1 then .nan
  else if e = 0 then .fin neg m (1 - (s.bias : Int) - s.mb)
  else .fin neg (2 ^ s.mb + m) ((e : Int) - s.bias - s.mb)

/-- The exact value of the low bits of `p` as an element of format `f` (R224 to R227), unscaled for the dual-exponent
formats. -/
def decodeFmt (f : Fmt) (p : Nat) : Val :=
  match fmtKind f with
  | .float s => floatVal s p
  | .signed w => Val.ofInt (sextNat p w)
  | .unsigned w => Val.ofInt (p % 2 ^ w : Nat)
  | .t2 => if p % 4 = 1 then .fin false 1 0 else if p % 4 = 3 then .fin true 1 0 else .fin false 0 0
  | .b1 => .fin (decide (p % 2 = 1)) 1 0
  | .dx m => .fin (decide (p / 2 ^ m % 2 = 1)) (p % 2 ^ m) 0
  | .dxf s =>
    match floatVal s (p % 2 ^ (s.mb + s.ebits)) with
    | .fin _ m e => .fin (decide (p / 2 ^ (s.mb + s.ebits) % 2 = 1)) m e
    | v => v

/-- The selector bit of a dual-exponent pattern (R227). -/
def selectorOf (f : Fmt) (p : Nat) : Nat := p / 2 ^ (fmtWidth f - 1) % 2

/-- The canonical NaN of a floating-point format that has one (R225). -/
def canonNan (s : FloatSpec) : Nat :=
  match s.sp with
  | .ieee => (2 ^ s.ebits - 1) * 2 ^ s.mb + 2 ^ (s.mb - 1)
  | .nanOnly => 2 ^ (s.mb + s.ebits) - 1
  | .none => 0

/-- The pattern of the largest finite magnitude. -/
def maxFinite (s : FloatSpec) : Nat :=
  match s.sp with
  | .ieee => (2 ^ s.ebits - 1) * 2 ^ s.mb - 1
  | .nanOnly => 2 ^ (s.mb + s.ebits) - 2
  | .none => 2 ^ (s.mb + s.ebits) - 1

/-- The pattern that an element of format `f` has in a queue or in memory (R230): F19 stands in bits [31:13]. -/
def toStore (f : Fmt) (p : Nat) : Nat := if f = .f19 then p * 8192 else p

/-- The element pattern of a stored element (R230). -/
def ofStore (f : Fmt) (p : Nat) : Nat := if f = .f19 then p / 8192 % 2 ^ 19 else p % 2 ^ fmtWidth f

end Sys2Proof.Machine
end

