-- ==== Sys2Proof/Machine/Exact.lean ====
section
/-!
DEFINITION. Exact arithmetic and the one rounding (R33, R234 to R238): sums and products of exact values with the
signs of zeros, comparisons, conversion to every format under every mode, quotients, square roots, and the functions of
R251, R284 and R292 through intervals of rational numbers. A real number enters a conversion as an `Approx`: its exact
binary digits down to some place, and whether anything lies below that place.
-/

namespace Sys2Proof.Machine

/-- `|v| = (m + θ) * 2^e` with `θ = 0` when `sticky` is false and `0 < θ < 1` when it is true. -/
structure Approx where
  neg : Bool
  m : Nat
  e : Int
  sticky : Bool
  deriving DecidableEq, Repr

/-- A number before conversion. -/
inductive XVal where
  | nan
  | inf (neg : Bool)
  | num (a : Approx)
  deriving DecidableEq, Repr

/-- An exact value as a number before conversion. -/
def Val.toX : Val → XVal
  | .nan => .nan
  | .inf n => .inf n
  | .fin n m e => .num ⟨n, m, e, false⟩

/-! ### Exact operations -/

/-- The signed integer `±m`. -/
def signed (neg : Bool) (m : Nat) : Int := if neg then -(m : Int) else m

/-- `a * 2^k` as an integer, for `k ≥ 0`. -/
def scaleInt (a : Int) (k : Int) : Int := a * 2 ^ k.toNat

/-- Negation. -/
def Val.neg : Val → Val
  | .nan => .nan
  | .inf n => .inf (!n)
  | .fin n m e => .fin (!n) m e

/-- Magnitude. -/
def Val.abs : Val → Val
  | .nan => .nan
  | .inf _ => .inf false
  | .fin _ m e => .fin false m e

/-- Whether the value is a zero of either sign. -/
def Val.isZero : Val → Bool
  | .fin _ m _ => decide (m = 0)
  | _ => false

/-- Whether the value is negative or a negative zero. -/
def Val.sign : Val → Bool
  | .nan => false
  | .inf n => n
  | .fin n _ _ => n

/-- Exact product; 0 * ∞ is invalid (R249); a zero product takes the exclusive-or of the signs (R234). -/
def Val.mul : Val → Val → Val
  | .nan, _ => .nan
  | _, .nan => .nan
  | .inf a, .inf b => .inf (a != b)
  | .inf a, .fin b m _ => if m = 0 then .nan else .inf (a != b)
  | .fin a m _, .inf b => if m = 0 then .nan else .inf (a != b)
  | .fin a m e, .fin b n f => .fin (a != b) (m * n) (e + f)

/-- Exact scaling by `2^k`. -/
def Val.scale (v : Val) (k : Int) : Val :=
  match v with
  | .fin n m e => .fin n m (e + k)
  | v => v

/-- The lowest exponent of the finite values of a list. -/
def minExp (l : List Val) (d : Int) : Int :=
  match l with
  | [] => d
  | .fin _ _ e :: r => minExp r (if e < d then e else d)
  | _ :: r => minExp r d

/-- The exact sum of the finite values of a list, in units of `2^e`. -/
def sumAt (l : List Val) (e : Int) : Int :=
  match l with
  | [] => 0
  | .fin n m f :: r => signed n (m * 2 ^ (f - e).toNat) + sumAt r e
  | _ :: r => sumAt r e

/-- Whether some term is NaN. -/
def anyNan (l : List Val) : Bool := l.any fun v => decide (v = .nan)

/-- The exact sum of a list of terms (R238): NaN if a term is NaN or infinities of both signs meet; the sign of a zero
sum by R234 under rounding mode `rd`; the empty sum is +0. -/
def sumVals (l : List Val) (rd : Rnd) : Val :=
  if anyNan l then .nan
  else
    let pi := l.any fun v => decide (v = .inf false)
    let ni := l.any fun v => decide (v = .inf true)
    if pi && ni then .nan
    else if pi then .inf false
    else if ni then .inf true
    else
      match l with
      | [] => .fin false 0 0
      | v :: _ =>
        let e := minExp l (match v with | .fin _ _ e => e | _ => 0)
        let t := sumAt l e
        if t = 0 then
          (if l.all (fun v => v.sign) then .fin true 0 e
           else if l.all (fun v => v.isZero && !v.sign) then .fin false 0 e
           else .fin (decide (rd = .rdn)) 0 e)
        else .fin (decide (t < 0)) t.natAbs e

/-- Exact sum of two values. -/
def Val.add (a b : Val) (rd : Rnd) : Val := sumVals [a, b] rd

/-- Comparison of two values as real numbers, −0 equal to +0; nothing with a NaN. -/
def Val.cmp (a b : Val) : Option Ordering :=
  match a, b with
  | .nan, _ => none
  | _, .nan => none
  | .inf x, .inf y => some (if x = y then .eq else if x then .lt else .gt)
  | .inf x, .fin _ _ _ => some (if x then .lt else .gt)
  | .fin _ _ _, .inf y => some (if y then .gt else .lt)
  | .fin n m e, .fin n' m' e' =>
    let k := if e < e' then e else e'
    some (compare (signed n (m * 2 ^ (e - k).toNat)) (signed n' (m' * 2 ^ (e' - k).toNat)))

/-- `a < b` as real numbers; false with a NaN. -/
def Val.lt (a b : Val) : Bool := decide (Val.cmp a b = some .lt)

/-- `a ≤ b` as real numbers; false with a NaN. -/
def Val.le (a b : Val) : Bool := decide (Val.cmp a b = some .lt) || decide (Val.cmp a b = some .eq)

/-- The smaller value of R219 and R250: −0 < +0, a single NaN yields the other operand. -/
def Val.min (a b : Val) : Val :=
  match a, b with
  | .nan, b => b
  | a, .nan => a
  | a, b => if Val.lt a b then a else if Val.lt b a then b else if a.sign then a else b

/-- The larger value of R219 and R250. -/
def Val.max (a b : Val) : Val :=
  match a, b with
  | .nan, b => b
  | a, .nan => a
  | a, b => if Val.lt a b then b else if Val.lt b a then a else if a.sign then b else a

/-! ### Rounding -/

/-- The magnitude in quanta of `2^q` and what is left: `(lo, rem, shift, sticky)` with
`|v| = (lo + (rem + θ) / 2^shift) * 2^q`. An exact value is first widened so that `shift ≥ 24`. -/
def splitAt (a : Approx) (q : Int) : Nat × Nat × Nat × Bool :=
  let w := if a.sticky then 0 else (a.e - q).toNat + 24
  let m := a.m * 2 ^ w
  let e := a.e - w
  let sh := (q - e).toNat
  (m / 2 ^ sh, m % 2 ^ sh, sh, a.sticky)

/-- Whether the magnitude is rounded up from `lo` (R234, R236): `odd` tells whether `lo` has an odd last digit. -/
def roundUp (rd : Rnd) (neg odd : Bool) (rem sh : Nat) (sticky : Bool) (draw : Nat) : Bool :=
  if rem = 0 && !sticky then false
  else
    match rd with
    | .rtz => false
    | .rdn => neg
    | .rup => !neg
    | .rne =>
      let half := 2 ^ (sh - 1)
      if half < rem then true
      else if rem < half then false
      else if sticky then true
      else odd
    | .rsr =>
      let k := sh - 24
      if neg then
        -- lo of R236 is the value of larger magnitude
        let d := (2 ^ sh - rem - (if sticky then 1 else 0)) / 2 ^ k
        !(decide (draw < d))
      else decide (draw < rem / 2 ^ k)

/-- The magnitude of `v` in quanta of `2^q`, rounded. -/
def roundAt (a : Approx) (q : Int) (rd : Rnd) (draw : Nat) : Nat :=
  let (lo, rem, sh, st) := splitAt a q
  if roundUp rd a.neg (decide (lo % 2 = 1)) rem sh st draw then lo + 1 else lo

/-- The quantum that a nonzero number has in a float format: `max(E - mb, 1 - bias - mb)`. -/
def quantum (s : FloatSpec) (a : Approx) : Int :=
  let top := (a.m.log2 : Int) + a.e
  let emin := 1 - (s.bias : Int)
  (if top < emin then emin else top) - s.mb

/-- Exact comparison of `mag * 2^q` with the largest finite magnitude (R235). -/
def exceeds (s : FloatSpec) (mag : Nat) (q : Int) : Bool :=
  match floatVal s (maxFinite s) with
  | .fin _ m e =>
    let k := if e < q then e else q
    decide (m * 2 ^ (e - k).toNat < mag * 2 ^ (q - k).toNat)
  | _ => false

/-- The unsigned pattern of magnitude `mag * 2^q`, which the format holds exactly. -/
def packMag (s : FloatSpec) (mag : Nat) (q : Int) : Nat :=
  let (mag, q) := if 2 ^ (s.mb + 1) ≤ mag then (mag / 2, q + 1) else (mag, q)
  if mag < 2 ^ s.mb then mag
  else ((q + s.mb + s.bias).toNat) * 2 ^ s.mb + (mag - 2 ^ s.mb)

/-- Whether an approximated magnitude is above the largest finite one before rounding (R236). -/
def aboveMax (s : FloatSpec) (a : Approx) : Bool :=
  match floatVal s (maxFinite s) with
  | .fin _ m e =>
    let k := if e < a.e then e else a.e
    let x := a.m * 2 ^ (a.e - k).toNat
    let y := m * 2 ^ (e - k).toNat
    decide (y < x) || (decide (y = x) && a.sticky)
  | _ => false

/-- A finite number to a float format (R234 to R236): the pattern without its sign bit. -/
def floatMag (s : FloatSpec) (a : Approx) (rd : Rnd) (o : Ovf) (draw : Nat) : Nat :=
  if a.m = 0 && !a.sticky then 0
  else
    let rd' := if rd = .rsr && aboveMax s a then .rne else rd
    let q := quantum s a
    let mag := roundAt a q rd' draw
    if exceeds s mag q then
      (if s.sp ≠ .ieee ∨ o = .sat then maxFinite s
       else
         match rd' with
         | .rtz => maxFinite s
         | .rdn => if a.neg then (2 ^ s.ebits - 1) * 2 ^ s.mb else maxFinite s
         | .rup => if a.neg then maxFinite s else (2 ^ s.ebits - 1) * 2 ^ s.mb
         | _ => (2 ^ s.ebits - 1) * 2 ^ s.mb)
    else packMag s mag q

/-- A finite number rounded to an integer (R234, R236). -/
def roundInt (a : Approx) (rd : Rnd) (draw : Nat) : Int := signed a.neg (roundAt a 0 rd draw)

/-- `sat(x, w)` for a signed format. -/
def satSigned (x : Int) (w : Nat) : Int :=
  if x < -(2 : Int) ^ (w - 1) then -(2 : Int) ^ (w - 1) else if (2 : Int) ^ (w - 1) - 1 < x then (2 : Int) ^ (w - 1) - 1 else x

/-- `sat(x, w)` for an unsigned format. -/
def satUnsigned (x : Int) (w : Nat) : Int := if x < 0 then 0 else if (2 : Int) ^ w - 1 < x then (2 : Int) ^ w - 1 else x

/-- The larger of a magnitude and a bound, clamped. -/
def clampNat (x hi : Nat) : Nat := if hi < x then hi else x

/-- `cvt(x, f, m, o)` of R237: the pattern in `fmtWidth f` bits. `draw` is the 24-bit draw of R236, used under rsr
alone. A dual-exponent result has selector 0; its value is rounded with its sign, as of any format (log entry 116). -/
def cvt (x : XVal) (f : Fmt) (rd : Rnd) (o : Ovf) (draw : Nat) : Nat :=
  match fmtKind f with
  | .float s =>
    (match x with
     | .nan => canonNan s
     | .inf n =>
       (if n then 2 ^ (s.mb + s.ebits) else 0) +
         (if s.sp = .ieee then (2 ^ s.ebits - 1) * 2 ^ s.mb else maxFinite s)
     | .num a => (if a.neg then 2 ^ (s.mb + s.ebits) else 0) + floatMag s a rd o draw)
  | .signed w =>
    (match x with
     | .nan => 0
     | .inf n => if n then 2 ^ (w - 1) else 2 ^ (w - 1) - 1
     | .num a => wrapNat (if o = .sat then satSigned (roundInt a rd draw) w else roundInt a rd draw) w)
  | .unsigned w =>
    (match x with
     | .nan => 0
     | .inf n => if n then 0 else 2 ^ w - 1
     | .num a => wrapNat (if o = .sat then satUnsigned (roundInt a rd draw) w else roundInt a rd draw) w)
  | .t2 =>
    (match x with
     | .nan => 0
     | .inf n => if n then 3 else 1
     | .num a =>
       let v := roundInt a rd draw
       if v < 0 then 3 else if 0 < v then 1 else 0)
  | .b1 =>
    (match x with
     | .nan => 0
     | .inf n => if n then 1 else 0
     | .num a => if a.neg && !(decide (a.m = 0) && !a.sticky) then 1 else 0)
  | .dx m =>
    (match x with
     | .nan => 0
     | .inf n => (if n then 2 ^ m else 0) + (2 ^ m - 1)
     | .num a => (if a.neg then 2 ^ m else 0) + clampNat (roundAt a 0 rd draw) (2 ^ m - 1))
  | .dxf s =>
    (match x with
     | .nan => 0
     | .inf n => (if n then 2 ^ (s.mb + s.ebits) else 0) + maxFinite s
     | .num a => (if a.neg then 2 ^ (s.mb + s.ebits) else 0) + floatMag s a rd .sat draw)

/-- Conversion of an exact value without a draw. -/
def cvtVal (v : Val) (f : Fmt) (rd : Rnd) (o : Ovf) : Nat := cvt v.toX f rd o 0

/-- Sets the selector bit of a dual-exponent pattern. -/
def withSelector (f : Fmt) (p : Nat) (sel : Bool) : Nat := if sel then p + 2 ^ (fmtWidth f - 1) else p

/-! ### The stochastic generator (R236) -/

/-- One step of a generator. -/
def genStep (st : Lane) : Lane :=
  let a := st ^^^ (st <<< 13)
  let b := a ^^^ (a >>> 17)
  b ^^^ (b <<< 5)

/-- The 24-bit draw of a stepped generator. -/
def genDraw (st : Lane) : Nat := (st >>> 8).toNat

/-- The launch state of generator `k` of strand `idx`. -/
def genSeed (idx k : Nat) : Lane := 0x2545F491#32 ^^^ BitVec.ofNat 32 (idx * 65536) ^^^ BitVec.ofNat 32 k

/-! ### Quotients and roots -/

/-- Digits that quotients and roots are computed to. -/
def workBits : Nat := 192

/-- `num / den * 2^e` with at least `workBits` digits; `den` is not 0. -/
def quotApprox (neg : Bool) (num den : Nat) (e : Int) : Approx :=
  let s := workBits + den.log2 + 1 - num.log2
  let n := num * 2 ^ s
  ⟨neg, n / den, e - s, decide (n % den ≠ 0)⟩

/-- The integer square root, found bit by bit from bit `k` down. -/
def isqrtFrom (n : Nat) (k : Nat) (r : Nat) : Nat :=
  match k with
  | 0 => r
  | k + 1 =>
    let t := r + 2 ^ k
    isqrtFrom n k (if t * t ≤ n then t else r)

/-- The integer square root. -/
def isqrt (n : Nat) : Nat := isqrtFrom n (n.log2 / 2 + 1) 0

/-- `sqrt(num / den * 2^e)`, positive. -/
def sqrtApprox (num den : Nat) (e : Int) : Approx :=
  let s0 := 2 * workBits + den.log2 + 1 - num.log2
  let s := if (e - s0) % 2 = 0 then s0 else s0 + 1
  let n := num * 2 ^ s
  let q := n / den
  let r := isqrt q
  ⟨false, r, (e - s) / 2, !(decide (r * r = q) && decide (n % den = 0))⟩

/-! ### Intervals for the transcendental functions

A positive real is held between `lo` and `hi` in units of `2^-p`. -/

/-- An interval in units of `2^-p`. -/
structure Ivl where
  lo : Nat
  hi : Nat
  deriving DecidableEq, Repr

/-- The series of e^y from term `t = y^k / k!` on, in units of `2^-p`, rounded down; `n` bounds the number of terms. -/
def expTail (y p t k n : Nat) : Nat :=
  match n with
  | 0 => 0
  | n + 1 => if t = 0 then 0 else t + expTail y p (t * y / (2 ^ p * (k + 1))) (k + 1) n

/-- e^y for y between `y.lo` and `y.hi`, both below 2: each of at most `p` terms loses less than 2 units, the rest of
the series less than 2, and the width of y is magnified by less than 8. -/
def expIvl (y : Ivl) (p : Nat) : Ivl :=
  let s := expTail y.lo p (2 ^ p) 0 p
  ⟨s, s + 2 * p + 4 + 8 * (y.hi - y.lo)⟩

/-- The series of atanh(z) = z + z^3/3 + ..., with `t` the current power of z. -/
def atanhTail (zsq p t k n : Nat) : Nat :=
  match n with
  | 0 => 0
  | n + 1 => if t = 0 then 0 else t / k + atanhTail zsq p (t * zsq / 2 ^ p) (k + 2) n

/-- atanh of the rational `num / den`, at most 1/3, in units of `2^-p`: at most `p` terms, each losing less than 3 units. -/
def atanhIvl (num den p : Nat) : Ivl :=
  let z := num * 2 ^ p / den
  let s := atanhTail (z * z / 2 ^ p) p z 1 p
  ⟨s, s + 3 * p + 4⟩

/-- ln 2 = 2 atanh(1/3). -/
def ln2Ivl (p : Nat) : Ivl :=
  let a := atanhIvl 1 3 p
  ⟨2 * a.lo, 2 * a.hi⟩

/-- Quotient of positive intervals, in units of `2^-p`. -/
def divIvl (a b : Ivl) (p : Nat) : Ivl := ⟨a.lo * 2 ^ p / b.hi, a.hi * 2 ^ p / b.lo + 1⟩

/-- Product of positive intervals. -/
def mulIvl (a b : Ivl) (p : Nat) : Ivl := ⟨a.lo * b.lo / 2 ^ p, a.hi * b.hi / 2 ^ p + 1⟩

/-- An irrational number between `v.lo * 2^e` and `v.hi * 2^e`. -/
structure Between where
  neg : Bool
  v   : Ivl
  e   : Int
  deriving DecidableEq, Repr

/-- Whether an interval decides all digits of its number but the last 64. -/
def Between.decides (x : Between) : Bool := decide (x.v.lo / 2 ^ 64 = x.v.hi / 2 ^ 64) && decide (x.v.lo / 2 ^ 64 ≠ 0)

/-- The digits of a number that its interval's lower end gives. -/
def Between.low (x : Between) : Approx := ⟨x.neg, x.v.lo / 2 ^ 64, x.e + 64, true⟩

/-- A computation at precision `p`, doubled up to `n` times until it decides the number; log entry 11. -/
def ziv (f : Nat → Between) (p n : Nat) : Approx :=
  match n with
  | 0 => (f p).low
  | n + 1 => if (f p).decides then (f p).low else ziv f (2 * p) n

/-- `m * 2^e` in units of `2^-p`, rounded down, with its width. -/
def fixIvl (m : Nat) (e : Int) (p : Nat) : Ivl :=
  let s := e + p
  if 0 ≤ s then ⟨m * 2 ^ s.toNat, m * 2 ^ s.toNat⟩
  else ⟨m / 2 ^ (-s).toNat, m / 2 ^ (-s).toNat + 1⟩

/-- A number just above (`up`) or just below the positive dyadic `m * 2^e`. -/
def nearApprox (neg : Bool) (m : Nat) (e : Int) (up : Bool) : Approx :=
  ⟨neg, if up then m * 2 ^ 320 else m * 2 ^ 320 - 1, e - 320, true⟩

/-- A positive number below every quantum. -/
def tinyApprox (neg : Bool) : Approx := ⟨neg, 2 ^ 200, -20000, true⟩

/-- 2^a for a finite dyadic a (R251). -/
def exp2Approx (neg : Bool) (m : Nat) (e : Int) : Approx :=
  if m = 0 then ⟨false, 1, 0, false⟩
  else if 20 < (m.log2 : Int) + e then (if neg then tinyApprox false else ⟨false, 2 ^ 200, 20000, true⟩)
  else if (m.log2 : Int) + e < -300 then nearApprox false 1 0 (!neg)
  else
    let k := (-e).toNat
    let x := signed neg (m * 2 ^ e.toNat)
    let n := x / (2 : Int) ^ k
    let r := (x % (2 : Int) ^ k).toNat
    if r = 0 then ⟨false, 1, n, false⟩
    else
      ziv (fun p =>
        let y := mulIvl (fixIvl r (-(k : Int)) p) (ln2Ivl p) p
        ⟨false, expIvl y p, n - p⟩) 640 8

/-- log2 of a positive dyadic (R251). -/
def log2Approx (m : Nat) (e : Int) : Approx :=
  let n : Int := (m.log2 : Int) + e
  if m = 2 ^ m.log2 then ⟨decide (n < 0), n.natAbs, 0, false⟩
  else
    -- x = m / 2^log2 m lies in (1, 2); above 4/3 it is halved, so that |ln x| stays below ln 3/2
    let b := m.log2
    let big := decide (2 ^ (b + 2) < 3 * m)
    let n := if big then n + 1 else n
    ziv (fun p =>
      -- ln x = 2 atanh((x-1)/(x+1)); for the halved x it is -2 atanh((1-x)/(1+x))
      let (nu, de) := if big then (2 ^ (b + 1) - m, 2 ^ (b + 1) + m) else (m - 2 ^ b, m + 2 ^ b)
      let a := atanhIvl nu de p
      let l := divIvl ⟨2 * a.lo, 2 * a.hi⟩ (ln2Ivl p) p
      let base := n * (2 : Int) ^ p
      let lo := if big then base - l.hi else base + l.lo
      let hi := if big then base - l.lo else base + l.hi
      if hi < 0 then ⟨true, ⟨(-hi).toNat, (-lo).toNat⟩, -(p : Int)⟩ else ⟨false, ⟨lo.toNat, hi.toNat⟩, -(p : Int)⟩) 640 8

/-- e^-w for a positive dyadic w, as `x * 2^-n` with x in units of `2^-p`. -/
def expNegIvl (m : Nat) (e : Int) (p : Nat) : Ivl × Nat :=
  let w := fixIvl m e p
  let l := ln2Ivl p
  let n := w.lo / l.hi - 1
  let y : Ivl := ⟨w.lo - n * l.hi, w.hi - n * l.lo⟩
  (divIvl ⟨2 ^ p, 2 ^ p⟩ (expIvl y p) p, n)

/-- An interval of `x * 2^-n` brought to units of `2^-p`. -/
def downIvl (x : Ivl) (n : Nat) : Ivl := ⟨x.lo / 2 ^ n, x.hi / 2 ^ n + 1⟩

/-- tanh of a finite dyadic (R251, R284). -/
def tanhApprox (neg : Bool) (m : Nat) (e : Int) : Approx :=
  if m = 0 then ⟨neg, 0, 0, false⟩
  else if (m.log2 : Int) + e < -300 then nearApprox neg m e false
  else if 9 < (m.log2 : Int) + e then nearApprox neg 1 0 false
  else
    ziv (fun p =>
      let (x, n) := expNegIvl m (e + 1) p
      let u := downIvl x n
      ⟨neg, divIvl ⟨2 ^ p - u.hi, 2 ^ p - u.lo⟩ ⟨2 ^ p + u.lo, 2 ^ p + u.hi⟩ p, -(p : Int)⟩) 1536 8

/-- 1 / (1 + e^-v) of a finite dyadic (R251, R284). -/
def sigApprox (neg : Bool) (m : Nat) (e : Int) : Approx :=
  if m = 0 then ⟨false, 1, -1, false⟩
  else if (m.log2 : Int) + e < -300 then nearApprox false 1 (-1) (!neg)
  else if 12 < (m.log2 : Int) + e then (if neg then tinyApprox false else nearApprox false 1 0 false)
  else if 9 < (m.log2 : Int) + e ∧ neg = false then nearApprox false 1 0 false
  else
    ziv (fun p =>
      let (x, n) := expNegIvl m e p
      let u := downIvl x n
      let d : Ivl := ⟨2 ^ p + u.lo, 2 ^ p + u.hi⟩
      if neg then ⟨false, divIvl x d p, -(p : Int) - n⟩ else ⟨false, divIvl ⟨2 ^ p, 2 ^ p⟩ d p, -(p : Int)⟩) 1536 8

/-- 1 − tanh²z, which is 4u / (1 + u)² with u = e^(-2|z|) (R292). -/
def dtanhApprox (m : Nat) (e : Int) : Approx :=
  if m = 0 then ⟨false, 1, 0, false⟩
  else if (m.log2 : Int) + e < -160 then nearApprox false 1 0 false
  else if 12 < (m.log2 : Int) + e then tinyApprox false
  else
    ziv (fun p =>
      let (x, n) := expNegIvl m (e + 1) p
      let u := downIvl x n
      let d : Ivl := ⟨2 ^ p + u.lo, 2 ^ p + u.hi⟩
      ⟨false, divIvl (divIvl x d p) d p, -(p : Int) - n + 2⟩) 1536 8

/-- s(1 − s) with s = 1 / (1 + e^-z), which is u / (1 + u)² with u = e^-|z| (R292). -/
def dsigApprox (m : Nat) (e : Int) : Approx :=
  if m = 0 then ⟨false, 1, -2, false⟩
  else if (m.log2 : Int) + e < -160 then nearApprox false 1 (-2) false
  else if 12 < (m.log2 : Int) + e then tinyApprox false
  else
    ziv (fun p =>
      let (x, n) := expNegIvl m e p
      let u := downIvl x n
      let d : Ivl := ⟨2 ^ p + u.lo, 2 ^ p + u.hi⟩
      ⟨false, divIvl (divIvl x d p) d p, -(p : Int) - n⟩) 1536 8

end Sys2Proof.Machine
end

