-- ==== Sys2Proof/Machine/Ops.lean ====
section
/-!
DEFINITION. The operations that every Uslyn-S word shares: registers and guards (R36, R197, R198), retirement with the
end check (R213, R214), stalls (R359), traps and the return from one (R344 to R353), deferred records (R52), phase
commits (R396), and the issue of entries into the command queues (R77, R78).
-/

namespace Sys2Proof.Machine

/-- The outcome of a step. -/
abbrev Out := Host.Outcome State Fault Refusal

/-! ### The strand of `me` -/

/-- Applies `f` to the strand of `me`. -/
def State.updSt (s : State) (f : Strand → Strand) : State := { s with me := { s.me with st := f s.me.st } }

/-- Applies `f` to the control state of `me`. -/
def State.updCtl (s : State) (f : Ctl → Ctl) : State := s.updSt fun t => { t with ctl := f t.ctl }

/-- The control state of `me`. -/
def State.ctl (s : State) : Ctl := s.me.st.ctl

/-- The number of a general register as an index. -/
def gIdx (r : Reg) : Fin 32 := ⟨r.toNat, r.isLt⟩

/-- The value of a general register; G0 reads zero (R197). -/
def Ctl.getG (c : Ctl) (r : Reg) : Word := if r = 0 then 0 else c.g.get (gIdx r)

/-- Writes a general register; a write to G0 is discarded (R197). -/
def Ctl.setG (c : Ctl) (r : Reg) (v : Word) : Ctl := if r = 0 then c else { c with g := c.g.set r.toNat v r.isLt }

/-- The value of a general register of `me`. -/
def State.getG (s : State) (r : Reg) : Word := s.ctl.getG r

/-- A predicate register; P0 is true (R197). -/
def Ctl.getP (c : Ctl) (p : BitVec 3) : Bool := if p = 0 then true else c.p.getLsbD p.toNat

/-- One bit of an 8-bit register replaced. -/
def setBit8 (v : BitVec 8) (k : Nat) (b : Bool) : BitVec 8 :=
  if b then v ||| BitVec.ofNat 8 (2 ^ k) else v &&& ~~~(BitVec.ofNat 8 (2 ^ k))

/-- Writes a predicate register; P0 cannot be written (R197). -/
def Ctl.setP (c : Ctl) (p : BitVec 3) (b : Bool) : Ctl := if p = 0 then c else { c with p := setBit8 c.p p.toNat b }

/-- A branch target register (R197). -/
def Ctl.getBT (c : Ctl) (t : BitVec 3) : Word := c.bt.get ⟨t.toNat, t.isLt⟩

/-- A loop set (R197). -/
def Ctl.getZL (c : Ctl) (l : Fin 4) : LoopSet := c.zl.get l

/-- Replaces a loop set. -/
def Ctl.setZL (c : Ctl) (l : Fin 4) (z : LoopSet) : Ctl := { c with zl := c.zl.set l.val z l.isLt }

/-- The number of a loop set as an index. -/
def zlIdx (l : BitVec 2) : Fin 4 := ⟨l.toNat, l.isLt⟩

/-! ### Guards -/

/-- Whether a loop set is the staged one (R216). -/
def LoopSet.staged (z : LoopSet) : Bool := z.armed && decide (z.stages ≠ 0)

/-- Whether some armed set other than `l` is staged (R212, R217, R218); frozen sets count as armed (R350). -/
def Ctl.stagedOther (c : Ctl) (l : Fin 4) : Bool := (List.finRange 4).any fun k => decide (k ≠ l) && (c.getZL k).staged

/-- Whether some armed set is staged. -/
def Ctl.anyStaged (c : Ctl) : Bool := (List.finRange 4).any fun k => (c.getZL k).staged

/-- A stage predicate; while no staged set is armed it reads false (R216). -/
def Ctl.getSP (c : Ctl) (k : BitVec 3) : Bool := c.anyStaged && c.sp.getLsbD k.toNat

/-- The value of a guard (R19, R36). -/
def Ctl.guard (c : Ctl) (g : Guard) : Bool := (if g.stage then c.getSP g.gp else c.getP g.gp) != g.neg

/-- The value of an atomic's guard. -/
def Ctl.pguard (c : Ctl) (g : PGuard) : Bool := c.getP g.gp != g.neg

/-! ### Retirement: the end check (R213, R214) -/

/-- Disarms a set; the staged set clears SP0 to SP7 (R213, R214, R216). -/
def Ctl.disarm (c : Ctl) (l : Fin 4) : Ctl :=
  let z := c.getZL l
  let c' := { c.setZL l { z with armed := false, frozen := false } with order := c.order.filter (· ≠ l) }
  if z.staged then { c' with sp := 0 } else c'

/-- Whether a set is armed and live, so that end checks and branches act on it (R350). -/
def LoopSet.live (z : LoopSet) : Bool := z.armed && !z.frozen

/-- Whether the body of a set contains an address (R214). -/
def LoopSet.holds (z : LoopSet) (a : Word) : Bool := decide (z.zls.toNat ≤ a.toNat) && decide (a.toNat ≤ z.zle.toNat)

/-- R214: a jump to `target` disarms every live set of `l` whose body does not contain it. -/
def Ctl.leave (c : Ctl) (target : Word) (l : List (Fin 4)) : Ctl :=
  match l with
  | [] => c
  | k :: r => if (c.getZL k).live && !(c.getZL k).holds target then (c.disarm k).leave target r else c.leave target r

/-- Stage predicates at and above the stage count stay false (R216). -/
def stageBits (sp : BitVec 8) (stages : BitVec 3) : BitVec 8 := sp &&& BitVec.ofNat 8 (2 ^ stages.toNat - 1)

/-- R213: the stage predicates after a loop-back with `zlc` iterations left. -/
def rotateSP (sp : BitVec 8) (stages : BitVec 3) (zlc : BitVec 32) : BitVec 8 :=
  let shifted := stageBits (sp <<< 1) stages
  if stages.toNat ≤ zlc.toNat + 1 then shifted ||| 1 else shifted &&& ~~~1

/-- One loop-back of set `k` (R213). The set that loops back stays armed even where its own body is empty (R217). -/
def Ctl.loopBack (c : Ctl) (k : Fin 4) : Ctl :=
  let z := c.getZL k
  let zlc := z.zlc - 1
  let c1 := c.setZL k { z with zlc := zlc }
  let c2 := if z.stages ≠ 0 then { c1 with sp := rotateSP c1.sp z.stages zlc } else c1
  { c2.leave z.zls (c2.order.filter (· ≠ k)) with pc := z.zls }

/-- R213: the end check at address `a` over armed sets in arming order. -/
def Ctl.endCheck (c : Ctl) (a : Word) (l : List (Fin 4)) : Ctl :=
  match l with
  | [] => { c with pc := a + 4 }
  | k :: r =>
    let z := c.getZL k
    if z.live && decide (z.zle = a) then
      (if z.zlc = 0 then (c.disarm k).endCheck a r else c.loopBack k)
    else c.endCheck a r

/-- Ends a stall of the control sequencer: its watchdog starts again from zero at the next stall (R359). -/
def Strand.unstall (t : Strand) : Strand := { t with stall := false, ntWait := false, wdC := 0 }

/-- The word at PC retires and the end check finds the next PC (R213). -/
def State.retire (s : State) : State :=
  s.updSt fun t => { t.unstall with ctl := t.ctl.endCheck t.ctl.pc t.ctl.order }

/-- The word at PC retires and sets the next PC itself. -/
def State.retireTo (s : State) (target : Word) : State :=
  s.updSt fun t => { t.unstall with ctl := { t.ctl with pc := target } }

/-- The word stays at PC; a new stall starts its watchdog from zero (R359). -/
def State.stalled (s : State) : State :=
  s.updSt fun t => if t.stall then t else { t with stall := true, wdC := 0 }

/-- A word retires with its effect. -/
def done (s : State) : Out := .next s.retire

/-- A word that waits: the next state has the same PC. -/
def wait (s : State) : Out := .next s.stalled

/-! ### Pending results (R83, R144, R198) -/

/-- Whether some register of the list waits for the result of an entry. G0 never waits. -/
def Strand.pending (t : Strand) (rs : List Reg) : Bool :=
  rs.any fun r => decide (r ≠ 0) && (t.pendDst.get (gIdx r)).isSome

/-- A word's own result in a general register: it replaces whatever an earlier entry would still bind there. -/
def Strand.writeG (t : Strand) (r : Reg) (v : Word) : Strand :=
  if r = 0 then t
  else { t with ctl := t.ctl.setG r v, pendDst := t.pendDst.set r.toNat none r.isLt }

/-- `writeG` on the strand of `me`. -/
def State.writeG (s : State) (r : Reg) (v : Word) : State := s.updSt fun t => t.writeG r v

/-- Binds the result of entry `seq` to a register, unless a later word has taken the register over (R80, R83). -/
def Strand.bind (t : Strand) (r : Reg) (seq : Nat) (v : Word) : Strand :=
  if r ≠ 0 ∧ t.pendDst.get (gIdx r) = some seq then
    { t with ctl := t.ctl.setG r v, pendDst := t.pendDst.set r.toNat none r.isLt }
  else t

/-! ### Phase commits (R396, R397) -/

/-- A phase commit: the checkpoint is the state as it stands; undo records, replay log and input locks go. Entries that
are still open are unprotected until they complete. Results that a replay has not reached yet stay, so that no entry of
theirs is issued a second time (R399). -/
def Strand.commit (t : Strand) : Strand :=
  { t with ckpt := some ⟨t.ctl, t.v, t.m, t.q, t.spad, t.fills, t.traps⟩, log := [], locks := [], unprotected := false,
           openSeq := t.seq, rollbacks := 0 }

/-- Whether every engine queue of the strand is empty. -/
def Strand.idle (t : Strand) : Bool :=
  t.lqu.isEmpty && t.squ.isEmpty && t.kqu.isEmpty && t.vqu.isEmpty && t.mqu.isEmpty && t.vrun.isNone && t.mrun.isNone

/-! ### Traps -/

/-- The code of a cause (R343). -/
def causeCode : Cause → Nat
  | .illEnc => 1 | .misalign => 2 | .trNc => 3 | .trRsvd => 4 | .trSpad => 5 | .trInvalid => 6 | .trFormat => 7
  | .tagRemote => 8 | .tagType => 9 | .trProt => 10 | .atomSpad => 11 | .syncArg => 12 | .syncTarget => 13
  | .tagArg => 14 | .tokArg => 15 | .tokOvf => 16 | .brAlign => 17 | .brRange => 18 | .zlEnd => 19 | .zlArg => 20
  | .zlStage => 21 | .schedArg => 22 | .csrAcc => 23 | .pwrArg => 24 | .fabArg => 25 | .user => 26 | .brk => 27
  | .wdog => 28 | .engEnc => 32 | .copyFail => 33 | .tagStale => 34 | .tagWait => 35 | .cellFull => 36
  | .memLink => 37 | .memRange => 38 | .memPoison => 39 | .fabLost => 40 | .relNc => 41 | .relDiv => 42
  | .relWsm => 43

/-- The engine number of TRP_CAUSE.ENG (R346). -/
def engCode : Eng → Nat
  | .c => 0
  | .l => 1
  | .sq => 2
  | .v => 3
  | .m => 4
  | .k => 5

/-- TRP_CAUSE of a record (R346). -/
def TrapRec.word (r : TrapRec) : Word :=
  BitVec.ofNat 64 (causeCode r.cause + r.deferred.toNat * 2 ^ 8 + engCode r.eng * 2 ^ 9 + r.more.toNat * 2 ^ 12 +
    r.info16.toNat * 2 ^ 16)

/-- A precise trap of the word at `pc` (R346, R347): engine C, no address. -/
def TrapRec.precise (c : Cause) (pc : Word) : TrapRec :=
  { cause := c, eng := .c, deferred := false, more := false, info16 := 0, addr := 0, waddr := pc, info := 0, aux := 0 }

/-- A deferred record of an engine (R52, R347). -/
def TrapRec.defer (c : Cause) (e : Eng) (waddr : Word) : TrapRec :=
  { cause := c, eng := e, deferred := true, more := false, info16 := 0, addr := 0, waddr := waddr, info := 0, aux := 0 }

/-- The interface of the strand of `me`. -/
def State.vi (s : State) (n : Nat) : VI := Sp.get s.vis n VI.zero

/-- Replaces the record of an interface. -/
def State.setVi (s : State) (n : Nat) (v : VI) : State := { s with vis := Sp.set s.vis n v VI.zero }

/-! ### Events of the front end (R419) -/

/-- The ordering key of an event: the queue of a doorbell, the interface of a mailbox, of its records or of its timer, the
gang of a fault; error reports, management messages and the telemetry timer have one key each. -/
def Event.key : Event → Nat × Nat
  | .doorbell vi q => (0, 64 * vi + q)
  | .mailbox vi => (1, vi)
  | .fault node => (2, node)
  | .record _ vi _ _ _ _ _ _ _ _ => (3, vi)
  | .error _ => (4, 0)
  | .manage _ => (5, 0)
  | .energy vi => (6, vi)
  | .telemetry => (7, 0)

/-- Entries of the event queue. -/
def eventRoom : Nat := 65536

/-- An event joins those that wait for a core; with the queue full a doorbell is merged into one of its queue that waits,
and every other source waits behind. -/
def State.raise (s : State) (e : Event) : State :=
  let merged := match e with
    | .doorbell _ _ => decide (eventRoom ≤ s.fe.events.length) && s.fe.events.contains e
    | _ => false
  if merged then s else { s with fe := { s.fe with events := s.fe.events ++ [e] } }

/-- Whether an address lies in the running kernel's control area (R206, R344). -/
def Code.holds (c : Code) (a : Word) : Bool := decide (c.ctrlVa ≤ a.toNat) && decide (a.toNat < c.ctrlVa + c.ctrl.length)

/-- R344: whether a trap goes to the user handler. -/
def Strand.userHandles (t : Strand) (c : Cause) : Bool :=
  !t.ctl.trp.h && t.ctl.trp.hvec.getLsbD 0 && t.ctl.trp.hen.getLsbD (causeCode c) && decide (c ≠ .brk) &&
    t.code.holds (t.ctl.trp.hvec &&& ~~~3)

/-- Freezes every armed loop set (R350). -/
def Ctl.freeze (c : Ctl) : Ctl := { c with zl := c.zl.map fun z => if z.armed then { z with frozen := true } else z }

/-- Makes every frozen set live again (R350). -/
def Ctl.unfreeze (c : Ctl) : Ctl := { c with zl := c.zl.map fun z => { z with frozen := false } }

/-- The trap registers take a record; TRP_EPC resumes after a TRAP or BRK and at the word otherwise (R348). -/
def Ctl.takeTrap (c : Ctl) (r : TrapRec) : Ctl :=
  { c with trp := { c.trp with cause := r.word, addr := r.addr, waddr := r.waddr, info := r.info, aux := r.aux,
                               epc := if r.cause = .user ∨ r.cause = .brk then c.pc + 4 else c.pc } }

/-- Tokens, bytes or room may have come since V and M last looked for them. -/
def Strand.stirred (t : Strand) : Strand := { t with vdry := false, mdry := false }

/-- Marks every strand of a node that runs on some cluster as leaving it (R351, R357). -/
def Cluster.leaveNode (vi node : Nat) (c : Cluster) : Cluster :=
  if c.status = .running ∧ c.st.vi = vi ∧ c.st.node = node then { c with status := .leaving, st := c.st.stirred } else c

/-- The gang of `me` stops issuing, to be switched out. -/
def State.leaveGang (s : State) : State :=
  let f := Cluster.leaveNode s.me.st.vi s.me.st.node
  { s with me := f s.me, peers := s.peers.map f }

/-- Replaces a node of the dispatcher. -/
def Disp.updNode (d : Disp) (slot : Nat) (f : Node → Node) : Disp :=
  { d with nodes := d.nodes.map fun n => if n.slot = slot then f n else n }

/-- R348: entry of a trap. The word does not retire. A user trap sets H, freezes the armed sets and goes to
TRP_HVEC.VEC << 2; any other trap switches the gang out and acts per SYS_TVEC (R351), here by naming the trapping
strand in its node. Both complete a phase commit (R349). -/
def State.trapEntry (s : State) (r : TrapRec) : State :=
  let user := s.me.st.userHandles r.cause
  let s1 := s.updSt fun t =>
    let c := t.ctl.takeTrap r
    let c' := if user then { c.freeze with trp := { c.trp with h := true }, pc := c.trp.hvec &&& ~~~3 }
      else { c with pc := c.trp.epc }
    ({ t.unstall with ctl := c', zlrec := none }).commit
  if user then s1
  else
    let s2 := s1.leaveGang
    { s2 with disp := s2.disp.updNode s.me.st.node fun n =>
        match n.trapped with
        | some _ => n
        | none => { n with trapped := some s.me.st.idx } }

/-- The word at PC raises a precise trap. -/
def trap (c : Cause) (s : State) : Out := .next (s.trapEntry (TrapRec.precise c s.ctl.pc))

/-- A precise trap that names an address. -/
def trapAt (c : Cause) (a : Word) (s : State) : Out := .next (s.trapEntry { TrapRec.precise c s.ctl.pc with addr := a })

/-- A precise trap with INFO16. -/
def trapInfo (c : Cause) (i : BitVec 16) (s : State) : Out :=
  .next (s.trapEntry { TrapRec.precise c s.ctl.pc with info16 := i })

/-- Whether a held record has the engine and cause of a new one. -/
def sameCause (r q : TrapRec) : Bool := decide (q.eng = r.eng) && decide (q.cause = r.cause)

/-- R52: an engine records a deferred trap. The first record of a cause stands; a repeat sets its overflow bit. -/
def Strand.record (t : Strand) (r : TrapRec) : Strand :=
  { t with
    traps := if t.traps.any (sameCause r) then t.traps.map fun q => if sameCause r q then { q with more := true } else q
      else t.traps ++ [r],
    ctl := { t.ctl with trp := { t.ctl.trp with pend := none } } }

/-- The engines in the order in which RDV takes them (R192). -/
def engOrder : List Eng := [.l, .sq, .v, .m, .k]

/-- Whether an RDV with this mask names the engine. -/
def named (m : EMask) : Eng → Bool
  | .c => false
  | .l => m.l
  | .sq => m.st
  | .v => m.v
  | .m => m.m
  | .k => m.k

/-- R192: the record that an RDV delivers, the earliest of the first named engine that holds one. -/
def Strand.firstTrap (t : Strand) (m : EMask) (es : List Eng) : Option TrapRec :=
  match es with
  | [] => none
  | e :: r =>
    if named m e then
      (match t.traps.find? fun (q : TrapRec) => decide (q.eng = e) with
       | some q => some q
       | none => t.firstTrap m r)
    else t.firstTrap m r

/-- Delivers a record: it leaves its engine and becomes a trap at the word (R192). -/
def deliver (r : TrapRec) (s : State) : Out :=
  let s1 := s.updSt fun t => { t with traps := t.traps.erase r, ctl := { t.ctl with trp := { t.ctl.trp with pend := none } } }
  .next (s1.trapEntry r)

/-! ### The frame of a word -/

/-- A word under its guard: a false guard retires the word without an effect (R19). -/
def guarded (g : Guard) (s : State) (k : State → Out) : Out := if s.ctl.guard g then k s else done s

/-- An atomic's word under its guard. -/
def pguarded (g : PGuard) (s : State) (k : State → Out) : Out := if s.ctl.pguard g then k s else done s

/-- Waits until the registers that a word reads hold their values (R198). -/
def reading (rs : List Reg) (s : State) (k : State → Out) : Out := if s.me.st.pending rs then wait s else k s

/-- A word that computes one general register. -/
def compute (g : Guard) (rs : List Reg) (d : Reg) (f : State → Word) (s : State) : Out :=
  guarded g s fun s => reading rs s fun s => done (s.writeG d (f s))

/-! ### Issue into the command queues (R77, R78) -/

/-- The next entry of the strand: issue number, word, CTAG and token register are captured. -/
def Strand.entry (t : Strand) (tk : Word) (cmd : Cmd) : Entry :=
  { seq := t.seq, waddr := t.ctl.pc, tag := t.ctl.ctag, tk := tk, cmd := cmd, stage := .queued, done := 0 }

/-- A destination register that waits for the result of the next entry; G0 discards. -/
def Strand.expect (t : Strand) (d : Reg) : Strand :=
  if d = 0 then t else { t with pendDst := t.pendDst.set d.toNat (some t.seq) d.isLt }

/-- Whether a queue holds its 16 entries; one that its engine has begun has left the queue (R90, R178). -/
def queueFull (q : List Entry) : Bool := decide (Config.queueDepth ≤ (q.filter fun e => decide (e.stage = .queued)).length)

/-- Issues an L entry. -/
def issueL (cmd : Cmd) (d : Reg) (s : State) : Out :=
  if queueFull s.me.st.lqu then wait s
  else done (s.updSt fun t => { t.expect d with lqu := t.lqu ++ [t.entry 0 cmd], seq := t.seq + 1 })

/-- Issues a stream entry into L. -/
def issueLs (cmd : Cmd) (tk : Word) (s : State) : Out :=
  if queueFull s.me.st.lqu then wait s
  else done (s.updSt fun t => { t with lqu := t.lqu ++ [t.entry tk cmd], seq := t.seq + 1 })

/-- Issues an S entry with a token register. -/
def issueS (cmd : Cmd) (d : Reg) (tk : Word) (s : State) : Out :=
  if queueFull s.me.st.squ then wait s
  else done (s.updSt fun t => { t.expect d with squ := t.squ ++ [t.entry tk cmd], seq := t.seq + 1 })

/-- A kept result moves from the replay to the log of the phase. -/
def Strand.rebind (t : Strand) (pc : Word) : Strand :=
  match t.replay.find? fun (r : LogRec) => decide (r.waddr = pc) with
  | some r => { t with replay := t.replay.erase r, log := t.log ++ [r] }
  | none => t

/-- R398: a non-idempotent entry that the replay log holds is not issued again; its logged result is bound instead, and the
record that it left stands again. -/
def replayed (s : State) (k : State → Out) : Out :=
  match s.me.st.replay.find? fun (r : LogRec) => decide (r.waddr = s.ctl.pc) with
  | some r =>
    done (s.updSt fun t =>
      let t' := { t with replay := t.replay.erase r, log := t.log ++ [r] }
      let t'' := match r.refused with
        | some q => t'.record q
        | none => t'
      match r.result with
      | some (d, v) => t''.writeG d v
      | none => t'')
  | none => k s

/-- A KPUB under the replay log: one whose result a rollback has kept still takes its pops and counts, but flips no more
(R398). -/
def loggedOr (s : State) (again : State → Out) (k : State → Out) : Out :=
  match s.me.st.replay.find? fun (r : LogRec) => decide (r.waddr = s.ctl.pc) with
  | some _ => again s
  | none => k s

/-- KS with one more command issued (R96, R99). -/
def Ctl.copyIssued (c : Ctl) : Ctl := { c with ksOut := c.ksOut + 1, copySeq := c.copySeq + 1 }

/-- Issues a K entry: a copy command or a KPUB (R88, R137). -/
def issueK (cmd : Cmd) (tk : Word) (s : State) : Out :=
  if queueFull s.me.st.kqu then wait s
  else done (s.updSt fun t => { t with kqu := t.kqu ++ [t.entry tk cmd], seq := t.seq + 1, ctl := t.ctl.copyIssued })

/-- Logs the result of a non-idempotent entry; with the log of 256 full the rest of the phase is unprotected (R397). -/
def Strand.logged (t : Strand) (waddr : Word) (r : Option (Reg × Word)) (q : Option TrapRec := none) : Strand :=
  { t with log := if 256 ≤ t.log.length then t.log else t.log ++ [⟨waddr, r, q⟩], unprotected := t.unprotected || decide (255 ≤ t.log.length) }

/-! ### Tokens (R41, R188, R189) -/

/-- Whether every queue of a mask holds a token. -/
def Ctl.tokensReady (c : Ctl) (mask : Nat) : Bool :=
  (List.finRange 16).all fun k => decide (mask / 2 ^ k.val % 2 = 0) || decide (c.tok.get k ≠ 0)

/-- Pops one token from each queue of a mask. -/
def Ctl.popTokens (c : Ctl) (mask : Nat) : Ctl :=
  { c with tok := Vector.ofFn fun k => if mask / 2 ^ k.val % 2 = 1 then c.tok.get k - 1 else c.tok.get k }

/-- Queues of a mask whose count is at its limit. -/
def Ctl.overflowing (c : Ctl) (mask : Nat) : Option (Fin 16) :=
  (List.finRange 16).find? fun k => decide (mask / 2 ^ k.val % 2 = 1) && decide (c.tok.get k = 65535)

/-- Pushes one token to each queue of a mask; a count stays at 65,535 (R189). -/
def Ctl.pushTokens (c : Ctl) (mask : Nat) : Ctl :=
  { c with tok := Vector.ofFn fun k =>
      if mask / 2 ^ k.val % 2 = 1 ∧ c.tok.get k ≠ 65535 then c.tok.get k + 1 else c.tok.get k }

/-- R189: an engine's pushes, which the vector or the matrix engine may wait for, with TOK_OVF where a count would pass
65,535; `info` is TRP_INFO of the word that pushes. Where one mask overflows several queues, one record names the lowest of
them and MORE stays clear (log entry 109). -/
def Strand.pushFrom (t : Strand) (e : Eng) (waddr info : Word) (mask : Nat) : Strand :=
  let t' := match t.ctl.overflowing mask with
    | some k => t.record { TrapRec.defer .tokOvf e waddr with info16 := BitVec.ofNat 16 k.val, info := info }
    | none => t
  { t' with ctl := t'.ctl.pushTokens mask, vdry := false, mdry := false }

end Sys2Proof.Machine
end

