-- ==== Sys2Proof/Machine/Operands.lean ====
section
/-!
DEFINITION. Operand forms of Uslyn-S words: signed and unsigned readings of a general register, F32 operands (R219),
convert operands (R221), effective addresses (R83, R143), branch targets (R206), bound-register groups (R86).
-/

namespace Sys2Proof.Machine

/-- An 8-bit immediate, sign-extended (R199). -/
def imm8 (v : BitVec 8) : Word := v.signExtend 64

/-- A shift amount of R200: bits [5:0]. -/
def shAmt (b : Word) : Nat := b.toNat % 64

/-- The F32 value in the low half of a register (R219). -/
def f32Of (v : Word) : Val := decodeFmt .f32 (v.toNat % 2 ^ 32)

/-- A 32-bit result with the high half zero (R219). -/
def zext32 (p : Nat) : Word := BitVec.ofNat 64 (p % 2 ^ 32)

/-- The element format that a convert word names (R221). -/
def xfmt : XFmt → Fmt
  | .f64 => .f64
  | .f19 => .f19
  | .f16 => .f16
  | .bf16 => .bf16
  | .i32 => .i32
  | .i16 => .i16
  | .n16 => .n16
  | .i8 => .i8
  | .n8 => .n8

/-- Whether a format is signed, so that a register holds it sign-extended (R221). -/
def fmtSigned (f : Fmt) : Bool :=
  match fmtKind f with
  | .signed _ => true
  | _ => false

/-- A converted pattern of `fmtWidth f` bits in a general register (R221). -/
def extendFmt (f : Fmt) (p : Nat) : Word :=
  if fmtSigned f then BitVec.ofInt 64 (sextNat p (fmtWidth f)) else BitVec.ofNat 64 p

/-- R83: the effective address of an offset form; the offset counts access units. -/
def eaOffset (a : Word) (off : BitVec 8) (sz : Size) : Word := a + off.signExtend 64 * BitVec.ofNat 64 (sizeBytes sz)

/-- R83: the effective address of an index form. -/
def eaIndex (a b : Word) : Word := a + b

/-- The target of a PBR (R205). -/
def pbrTarget (pc : Word) (off : BitVec 18) : Word := pc + 4 * off.signExtend 64

/-- R206: why a target cannot be entered, alignment first. -/
def State.badTarget (s : State) (t : Word) : Option Cause :=
  if t.toNat % 4 ≠ 0 then some .brAlign
  else if s.me.st.code.holds t then none
  else some .brRange

/-- R215: whether a word at `a` stands at the end of an armed set; a frozen set counts as armed (R350). -/
def Ctl.atEnd (c : Ctl) (a : Word) : Bool := (List.finRange 4).any fun k => (c.getZL k).armed && decide ((c.getZL k).zle = a)

/-- A bound register (R185). -/
def Ctl.getEB (c : Ctl) (n : BitVec 4) : Word := c.eb.get ⟨n.toNat, n.isLt⟩

/-- Writes a bound register. -/
def Ctl.setEB (c : Ctl) (n : BitVec 4) (v : Word) : Ctl := { c with eb := c.eb.set n.toNat v n.isLt }

/-- The general register `k` places after `r`; the forms that use it keep it at G31 or below (R38, R149). -/
def regPlus (r : Reg) (k : Nat) : Reg := BitVec.ofNat 5 (r.toNat + k)

end Sys2Proof.Machine
end

