-- ==== Sys2Proof/Machine/Flags.lean ====
section
/-!
DEFINITION. The truth values that compare words compute. The Z4 has no flags: a comparison writes a predicate register
(R203, R220), a vector compare a mask or the condition queue (R255), with −0 equal to +0 and a NaN unordered.
-/

namespace Sys2Proof.Machine

/-- A condition of CMP on 64-bit values (R203). -/
def condHolds (c : Cond) (a b : Word) : Bool :=
  match c with
  | .eq => decide (a = b)
  | .ne => decide (a ≠ b)
  | .lt => decide (a.toInt < b.toInt)
  | .ge => decide (b.toInt ≤ a.toInt)
  | .ltn => decide (a.toNat < b.toNat)
  | .gen => decide (b.toNat ≤ a.toNat)

/-- A condition of SFCMP on exact values (R220). -/
def fcondHolds (c : FCond) (a b : Val) : Bool :=
  match c with
  | .eq => decide (Val.cmp a b = some .eq)
  | .ne => decide (Val.cmp a b ≠ some .eq)
  | .lt => Val.lt a b
  | .le => Val.le a b
  | .un => decide (Val.cmp a b = none)

/-- `P[PD] := v` on the strand of `me`. -/
def State.setP (s : State) (p : BitVec 3) (v : Bool) : State := s.updCtl fun c => c.setP p v

end Sys2Proof.Machine
end

