-- ==== Sys2Proof/Machine/Alu.lean ====
section
/-!
DEFINITION. Integer arithmetic and logic, compare and select, and the constants (R199 to R204, R82). Every word of this
file acts at issue, reads its registers once they are bound (R198), and neither traps nor sets a flag.
-/

namespace Sys2Proof.Machine

/-! ### The table of R200 -/

/-- add: wrap(a + b, 64). -/
def aluAdd (a b : Word) : Word := a + b

/-- sub. -/
def aluSub (a b : Word) : Word := a - b

/-- mul. -/
def aluMul (a b : Word) : Word := a * b

/-- mulh: the high half of the signed product. -/
def aluMulh (a b : Word) : Word := BitVec.ofInt 64 (a.toInt * b.toInt / 2 ^ 64)

/-- divs: truncated toward zero; −2^63 / −1 wraps to −2^63, which is a. -/
def aluDivs (a b : Word) : Word := if b = 0 then BitVec.allOnes 64 else BitVec.ofInt 64 (a.toInt.tdiv b.toInt)

/-- divn. -/
def aluDivn (a b : Word) : Word := if b = 0 then BitVec.allOnes 64 else BitVec.ofNat 64 (a.toNat / b.toNat)

/-- rems: with the dividend's sign; −2^63 rem −1 is 0. -/
def aluRems (a b : Word) : Word := if b = 0 then a else BitVec.ofInt 64 (a.toInt.tmod b.toInt)

/-- remn. -/
def aluRemn (a b : Word) : Word := if b = 0 then a else BitVec.ofNat 64 (a.toNat % b.toNat)

/-- and. -/
def aluAnd (a b : Word) : Word := a &&& b

/-- or. -/
def aluOr (a b : Word) : Word := a ||| b

/-- xor. -/
def aluXor (a b : Word) : Word := a ^^^ b

/-- andn. -/
def aluAndn (a b : Word) : Word := a &&& ~~~b

/-- shl. -/
def aluShl (a b : Word) : Word := a <<< shAmt b

/-- shr: zeros come in. -/
def aluShr (a b : Word) : Word := a >>> shAmt b

/-- sha: the sign bit comes in. -/
def aluSha (a b : Word) : Word := a.sshiftRight (shAmt b)

/-- rot: a rotate right; a shift by 64 leaves zero. -/
def aluRot (a b : Word) : Word := (a >>> shAmt b) ||| (a <<< (64 - shAmt b))

/-- min: signed. -/
def aluMin (a b : Word) : Word := if a.toInt ≤ b.toInt then a else b

/-- max: signed. -/
def aluMax (a b : Word) : Word := if a.toInt ≤ b.toInt then b else a

/-- minn: unsigned. -/
def aluMinn (a b : Word) : Word := if a.toNat ≤ b.toNat then a else b

/-- maxn: unsigned. -/
def aluMaxn (a b : Word) : Word := if a.toNat ≤ b.toNat then b else a

/-- clz: the number of leading zero bits. -/
def aluClz (a : Word) : Word := if a = 0 then 64 else BitVec.ofNat 64 (63 - a.toNat.log2)

/-- popc: the number of one bits. -/
def aluPopc (a : Word) : Word := BitVec.ofNat 64 ((List.range 64).countP fun k => a.getLsbD k)

/-! ### Register forms -/

/-- `add gD, gA, gB` (R200). -/
def execAdd (g : Guard) (d a b : Reg) (s : State) : Out :=
  compute g [a, b] d (fun s => aluAdd (s.getG a) (s.getG b)) s

/-- `sub gD, gA, gB` (R200). -/
def execSub (g : Guard) (d a b : Reg) (s : State) : Out :=
  compute g [a, b] d (fun s => aluSub (s.getG a) (s.getG b)) s

/-- `mul gD, gA, gB` (R200). -/
def execMul (g : Guard) (d a b : Reg) (s : State) : Out :=
  compute g [a, b] d (fun s => aluMul (s.getG a) (s.getG b)) s

/-- `mulh gD, gA, gB` (R200). -/
def execMulh (g : Guard) (d a b : Reg) (s : State) : Out :=
  compute g [a, b] d (fun s => aluMulh (s.getG a) (s.getG b)) s

/-- `divs gD, gA, gB` (R200). -/
def execDivs (g : Guard) (d a b : Reg) (s : State) : Out :=
  compute g [a, b] d (fun s => aluDivs (s.getG a) (s.getG b)) s

/-- `divn gD, gA, gB` (R200). -/
def execDivn (g : Guard) (d a b : Reg) (s : State) : Out :=
  compute g [a, b] d (fun s => aluDivn (s.getG a) (s.getG b)) s

/-- `rems gD, gA, gB` (R200). -/
def execRems (g : Guard) (d a b : Reg) (s : State) : Out :=
  compute g [a, b] d (fun s => aluRems (s.getG a) (s.getG b)) s

/-- `remn gD, gA, gB` (R200). -/
def execRemn (g : Guard) (d a b : Reg) (s : State) : Out :=
  compute g [a, b] d (fun s => aluRemn (s.getG a) (s.getG b)) s

/-- `and gD, gA, gB` (R200). -/
def execAnd (g : Guard) (d a b : Reg) (s : State) : Out :=
  compute g [a, b] d (fun s => aluAnd (s.getG a) (s.getG b)) s

/-- `or gD, gA, gB` (R200). -/
def execOr (g : Guard) (d a b : Reg) (s : State) : Out :=
  compute g [a, b] d (fun s => aluOr (s.getG a) (s.getG b)) s

/-- `xor gD, gA, gB` (R200). -/
def execXor (g : Guard) (d a b : Reg) (s : State) : Out :=
  compute g [a, b] d (fun s => aluXor (s.getG a) (s.getG b)) s

/-- `andn gD, gA, gB` (R200). -/
def execAndn (g : Guard) (d a b : Reg) (s : State) : Out :=
  compute g [a, b] d (fun s => aluAndn (s.getG a) (s.getG b)) s

/-- `shl gD, gA, gB` (R200). -/
def execShl (g : Guard) (d a b : Reg) (s : State) : Out :=
  compute g [a, b] d (fun s => aluShl (s.getG a) (s.getG b)) s

/-- `shr gD, gA, gB` (R200). -/
def execShr (g : Guard) (d a b : Reg) (s : State) : Out :=
  compute g [a, b] d (fun s => aluShr (s.getG a) (s.getG b)) s

/-- `sha gD, gA, gB` (R200). -/
def execSha (g : Guard) (d a b : Reg) (s : State) : Out :=
  compute g [a, b] d (fun s => aluSha (s.getG a) (s.getG b)) s

/-- `rot gD, gA, gB` (R200). -/
def execRot (g : Guard) (d a b : Reg) (s : State) : Out :=
  compute g [a, b] d (fun s => aluRot (s.getG a) (s.getG b)) s

/-- `min gD, gA, gB` (R200). -/
def execMin (g : Guard) (d a b : Reg) (s : State) : Out :=
  compute g [a, b] d (fun s => aluMin (s.getG a) (s.getG b)) s

/-- `max gD, gA, gB` (R200). -/
def execMax (g : Guard) (d a b : Reg) (s : State) : Out :=
  compute g [a, b] d (fun s => aluMax (s.getG a) (s.getG b)) s

/-- `minn gD, gA, gB` (R200). -/
def execMinn (g : Guard) (d a b : Reg) (s : State) : Out :=
  compute g [a, b] d (fun s => aluMinn (s.getG a) (s.getG b)) s

/-- `maxn gD, gA, gB` (R200). -/
def execMaxn (g : Guard) (d a b : Reg) (s : State) : Out :=
  compute g [a, b] d (fun s => aluMaxn (s.getG a) (s.getG b)) s

/-- `clz gD, gA` (R200). -/
def execClz (g : Guard) (d a : Reg) (s : State) : Out := compute g [a] d (fun s => aluClz (s.getG a)) s

/-- `popc gD, gA` (R200). -/
def execPopc (g : Guard) (d a : Reg) (s : State) : Out := compute g [a] d (fun s => aluPopc (s.getG a)) s

/-! ### Immediate forms: arithmetic and logic extend the sign, shifts take 0 to 63 (R199) -/

/-- `add gD, gA, imm` (R199, R200). -/
def execAddImm (g : Guard) (d a : Reg) (imm : BitVec 8) (s : State) : Out :=
  compute g [a] d (fun s => aluAdd (s.getG a) (imm8 imm)) s

/-- `and gD, gA, imm` (R199, R200). -/
def execAndImm (g : Guard) (d a : Reg) (imm : BitVec 8) (s : State) : Out :=
  compute g [a] d (fun s => aluAnd (s.getG a) (imm8 imm)) s

/-- `or gD, gA, imm` (R199, R200). -/
def execOrImm (g : Guard) (d a : Reg) (imm : BitVec 8) (s : State) : Out :=
  compute g [a] d (fun s => aluOr (s.getG a) (imm8 imm)) s

/-- `xor gD, gA, imm` (R199, R200). -/
def execXorImm (g : Guard) (d a : Reg) (imm : BitVec 8) (s : State) : Out :=
  compute g [a] d (fun s => aluXor (s.getG a) (imm8 imm)) s

/-- `shl gD, gA, imm` (R199, R200). -/
def execShlImm (g : Guard) (d a : Reg) (imm : BitVec 8) (s : State) : Out :=
  compute g [a] d (fun s => aluShl (s.getG a) (imm.setWidth 64)) s

/-- `shr gD, gA, imm` (R199, R200). -/
def execShrImm (g : Guard) (d a : Reg) (imm : BitVec 8) (s : State) : Out :=
  compute g [a] d (fun s => aluShr (s.getG a) (imm.setWidth 64)) s

/-- `sha gD, gA, imm` (R199, R200). -/
def execShaImm (g : Guard) (d a : Reg) (imm : BitVec 8) (s : State) : Out :=
  compute g [a] d (fun s => aluSha (s.getG a) (imm.setWidth 64)) s

/-- `rot gD, gA, imm` (R199, R200). -/
def execRotImm (g : Guard) (d a : Reg) (imm : BitVec 8) (s : State) : Out :=
  compute g [a] d (fun s => aluRot (s.getG a) (imm.setWidth 64)) s

/-! ### Compare and select -/

/-- `cmp.cond pD, gA, gB` (R203). -/
def execCmp (g : Guard) (pd : BitVec 3) (a b : Reg) (cond : Cond) (s : State) : Out :=
  guarded g s fun s => reading [a, b] s fun s => done (s.setP pd (condHolds cond (s.getG a) (s.getG b)))

/-- `sel gD, gA, gB, pP` (R204). -/
def execSel (g : Guard) (d a b : Reg) (p : BitVec 3) (s : State) : Out :=
  compute g [a, b] d (fun s => if s.ctl.getP p then s.getG a else s.getG b) s

/-! ### Constants and address arithmetic (R82) -/

/-- `movi gD, imm`. -/
def execMovi (g : Guard) (d : Reg) (imm : BitVec 16) (s : State) : Out := compute g [] d (fun _ => imm.signExtend 64) s

/-- `movh gD, imm`: bits [63:48] are dropped. -/
def execMovh (g : Guard) (d : Reg) (imm : BitVec 16) (s : State) : Out :=
  compute g [d] d (fun s => (s.getG d <<< 16) ||| imm.setWidth 64) s

/-- `lea gD, [gA+imm]`. -/
def execLea (g : Guard) (d a : Reg) (imm : BitVec 11) (s : State) : Out :=
  compute g [a] d (fun s => s.getG a + imm.signExtend 64) s

end Sys2Proof.Machine
end

