-- ==== Sys2Proof/Machine/Branch.lean ====
section
/-!
DEFINITION. Branches (R205 to R207, R214, R215) and the loop words that make no access (R209 to R217).
-/

namespace Sys2Proof.Machine

/-! ### Branches -/

/-- R214: a taken BR or BRQ disarms the sets whose body does not contain the target. -/
def State.jump (s : State) (t : Word) : State := (s.updCtl fun c => c.leave t c.order).retireTo t

/-- R206, R215: a word that transfers control checks its target and that it does not end a loop. -/
def transfer (t : Word) (s : State) (k : State → Out) : Out :=
  match s.badTarget t with
  | some c => trap c s
  | none => if s.ctl.atEnd s.ctl.pc then trap .zlEnd s else k s

/-- Writes a branch target register. -/
def Ctl.setBT (c : Ctl) (t : BitVec 3) (v : Word) : Ctl := { c with bt := c.bt.set t.toNat v t.isLt }

/-- `pbr btT, label` (R205). -/
def execPbr (g : Guard) (t : BitVec 3) (off : BitVec 18) (s : State) : Out :=
  guarded g s fun s => done (s.updCtl fun c => c.setBT t (pbrTarget c.pc off))

/-- `pbri btT, gA` (R205): any value, never a trap (R206). -/
def execPbri (g : Guard) (t : BitVec 3) (a : Reg) (s : State) : Out :=
  guarded g s fun s => reading [a] s fun s => done (s.updCtl fun c => c.setBT t (c.getG a))

/-- `br btT` (R205). -/
def execBr (g : Guard) (t : BitVec 3) (s : State) : Out :=
  guarded g s fun s => transfer (s.ctl.getBT t) s fun s => .next (s.jump (s.ctl.getBT t))

/-- The head of the condition queue goes (R207). -/
def Ctl.popCq (c : Ctl) : Ctl := { c with cq := c.cq.tail }

/-- `brq btT, sense=s` (R207): a trap leaves the head unpopped. At the ZLE of an armed set, too, it first waits for an entry of
the CQ (log entry 113). -/
def execBrq (g : Guard) (t : BitVec 3) (sense : Bool) (s : State) : Out :=
  guarded g s fun s =>
    match s.ctl.cq with
    | [] => wait s
    | h :: _ =>
      if h = sense then transfer (s.ctl.getBT t) s fun s => .next ((s.updCtl Ctl.popCq).jump (s.ctl.getBT t))
      else if s.ctl.atEnd s.ctl.pc then trap .zlEnd s
      else done (s.updCtl Ctl.popCq)

/-- `call btT` (R205): CALL disarms nothing (R214). -/
def execCall (g : Guard) (t : BitVec 3) (s : State) : Out :=
  guarded g s fun s => transfer (s.ctl.getBT t) s fun s =>
    .next ((s.writeG 31 (s.ctl.pc + 4)).retireTo (s.ctl.getBT t))

/-- `ret` (R205): RET disarms nothing (R214). -/
def execRet (g : Guard) (s : State) : Out :=
  guarded g s fun s => reading [31] s fun s => transfer (s.getG 31) s fun s => .next (s.retireTo (s.getG 31))

/-! ### Loops -/

/-- Arms set `l`, first in arming order (R211). -/
def Ctl.arm (c : Ctl) (l : Fin 4) (z : LoopSet) : Ctl :=
  { c.setZL l { z with armed := true, frozen := false } with order := l :: c.order.filter (· ≠ l) }

/-- R212: the last iteration's number. -/
def zloopLast (t stages : Nat) : Nat := if stages = 0 then t - 1 else t + stages - 2

/-- R212: whether the trip count is out of range. -/
def zloopBad (t stages : Nat) : Bool := decide (2 ^ 32 ≤ t) || (decide (stages ≠ 0) && decide (0xFFFFFFFF < (t : Int) + stages - 2))

/-- R212: the control state after a ZLOOP whose checks passed, but for the PC. -/
def Ctl.zloop (c : Ctl) (l : Fin 4) (stages : BitVec 3) (t : Nat) (last : BitVec 11) : Ctl :=
  let c1 := c.disarm l
  let z : LoopSet := { c1.getZL l with zls := c.pc + 4, zle := c.pc + 4 * last.setWidth 64, stages := stages }
  if t = 0 then c1.setZL l z
  else
    let c2 := c1.arm l { z with zlc := BitVec.ofNat 32 (zloopLast t stages.toNat) }
    if stages = 0 then c2 else { c2 with sp := 1 }

/-- `zloop zlL, gA, last, stages=s` (R212); the order of its traps is that of R222. -/
def execZloop (g : Guard) (l : BitVec 2) (stages : BitVec 3) (a : Reg) (last : BitVec 11) (s : State) : Out :=
  guarded g s fun s => reading [a] s fun s =>
    let t := (s.getG a).toNat
    let z := zlIdx l
    let skip := s.ctl.pc + 4 * last.setWidth 64 + 4
    let s' := s.updCtl fun c => c.zloop z stages t last
    if t = 0 then transfer skip s fun _ => .next (s'.retireTo skip)
    else if s.ctl.atEnd s.ctl.pc then trap .zlEnd s
    else if zloopBad t stages.toNat then trap .zlArg s
    else if stages ≠ 0 ∧ s.ctl.stagedOther z then trap .zlStage s
    else .next (s'.retireTo (s.ctl.pc + 4))

/-- R217: a loop address that ZLSET and ZLRS accept. -/
def loopAddrOk (v : Word) : Bool := decide (v.toNat % 4 = 0) && decide (v.toNat < 2 ^ 56)

/-- `zlset zlL, f, gA` (R217). -/
def execZlset (g : Guard) (l : BitVec 2) (f : ZlField) (a : Reg) (s : State) : Out :=
  guarded g s fun s => reading [a] s fun s =>
    let v := s.getG a
    let k := zlIdx l
    let z := s.ctl.getZL k
    match f with
    | .zls => if loopAddrOk v then done (s.updCtl fun c => c.setZL k { z with zls := v }) else trap .zlArg s
    | .zle => if loopAddrOk v then done (s.updCtl fun c => c.setZL k { z with zle := v }) else trap .zlArg s
    | .zlc =>
      if v.toNat < 2 ^ 32 then done (s.updCtl fun c => c.setZL k { z with zlc := v.setWidth 32 }) else trap .zlArg s
    | .stages =>
      if 7 < v.toNat then trap .zlArg s
      else if v ≠ 0 ∧ z.armed ∧ s.ctl.stagedOther k then trap .zlStage s
      else done (s.updCtl fun c =>
        let c1 := c.setZL k { z with stages := v.setWidth 3 }
        if z.staged then { c1 with sp := stageBits c1.sp (v.setWidth 3) } else c1)

end Sys2Proof.Machine
end

