-- ==== Sys2Proof/Machine/L2.lean ====
section
/-!
DEFINITION. The physical map: apertures (R57, R58), homes (R59), what each memory type admits (R60, R65), the DRAM that
the front end reserves (R115), and the L2 slices with their data slots, tags and encodings (R110 to R114).
-/

namespace Sys2Proof.Machine

/-! ### The physical map -/

/-- Bytes of stacked DRAM on the package (R57). -/
def dramTop : Nat := 0xC000000000

/-- Base of the interleaved aperture. -/
def ilBase : Nat := 0x100000000000

/-- Base of the CXL aperture and the size of one root port's share. -/
def cxlBase : Nat := 0x200000000000

/-- Address space of one root port. -/
def cxlPort : Nat := 0x20000000000

/-- Base of the host aperture. -/
def hostBase : Nat := 0x300000000000

/-- Base of the synchronisation SRAM. -/
def syncBase : Nat := 0x400000000000

/-- Bytes of synchronisation SRAM on one die. -/
def syncDie : Nat := 0x400000

/-- Base of the system window. -/
def windowBase : Nat := 0x8000000000000

/-- What a physical address names (R57). -/
inductive Apert where
  | linear
  | interleaved
  | cxl
  | host
  | sync
  | window
  | none
  deriving DecidableEq, Repr

/-- The aperture of a physical address. -/
def apert (a : Nat) : Apert :=
  if a < dramTop then .linear
  else if ilBase ≤ a ∧ a < ilBase + dramTop then .interleaved
  else if cxlBase ≤ a ∧ a < hostBase then .cxl
  else if hostBase ≤ a ∧ a < syncBase then .host
  else if syncBase ≤ a ∧ a < syncBase + 24 * syncDie then .sync
  else if windowBase ≤ a ∧ a < 2 * windowBase then .window
  else .none

/-- R58: the die-linear address of a byte that the interleaved aperture names; other addresses stand for themselves. -/
def canon (a : Nat) : Nat :=
  if ilBase ≤ a ∧ a < ilBase + dramTop then
    let q := (a - ilBase) / 65536
    q % 24 * 0x800000000 + q / 24 * 65536 + a % 65536
  else a

/-- R59: the home die of a canonical address; a system-window address has none here. -/
def homeDie (a : Nat) : Nat :=
  match apert a with
  | .linear => a / 0x800000000
  | .interleaved => canon a / 0x800000000
  | .sync => (a - syncBase) / syncDie
  | _ => a / 65536 % 24

/-! ### Memory types (R60) -/

/-- Codes of the memory types. -/
def tDev : Nat := 0
/-- CXL pages. -/
def tCxl : Nat := 1
/-- Host pages. -/
def tHost : Nat := 2
/-- System-window pages. -/
def tSys : Nat := 3
/-- Publishable pages. -/
def tPub : Nat := 4
/-- Tagged windows. -/
def tTw : Nat := 5
/-- Private pages. -/
def tPriv : Nat := 6
/-- Constant pages. -/
def tConst : Nat := 7
/-- Synchronisation pages. -/
def tSync : Nat := 8

/-- Whether the page `[a, a + n)` lies in an aperture that R60 admits for its type, with the limits of R139 on SYNC
pages. -/
def typeAdmits (type a n : Nat) : Bool :=
  let ap := apert a
  let whole := decide (apert (a + n - 1) = ap)
  let dram := whole && (decide (ap = .linear) || decide (ap = .interleaved))
  match type with
  | 0 => dram
  | 1 => whole && decide (ap = .cxl)
  | 2 => whole && decide (ap = .host)
  | 3 => whole && decide (ap = .window)
  | 4 => dram
  | 5 => dram
  | 6 => dram
  | 7 => dram || (whole && decide (ap = .cxl))
  | 8 => whole && decide (ap = .sync) && decide (n = 65536) && decide (0x100000 ≤ (a - syncBase) % syncDie)
  | _ => false

/-- R65, R135: whether a page lies, by its die-linear bytes, wholly in half 0 of a publishable region. -/
def pubAdmits (pubs : List Pub) (a n : Nat) : Bool :=
  (decide (apert a = .linear) || decide (n = 65536)) &&
    pubs.any fun p => decide (p.base ≤ canon a) && decide (canon a + n ≤ p.base + p.size)

/-! ### Reserved DRAM (R115) -/

/-- Bytes of a die's DRAM that the front end reserves at its top: the cell store (R164), the overflow area (R140), and on
die 0 the dispatch area. -/
def State.reserved (s : State) (die : Nat) : Nat :=
  let n := (Sp.get s.fe.cellcfg die 0).toNat % 2 ^ 17
  65536 * (if 65536 < n then 65536 else n) + 2 ^ 26 + (if die = 0 then 2 ^ 28 else 0)

/-- Whether a canonical address lies in reserved DRAM. -/
def State.reservedAt (s : State) (a : Nat) : Bool :=
  decide (a < dramTop) && decide (Config.dieBytes - s.reserved (a / Config.dieBytes) ≤ a % Config.dieBytes)

/-- Whether the bytes `[a, a + n)` of one die, or of the interleaved aperture, hold a reserved one: the areas are whole 64 KiB
granules at the top of their dies, so the last granule on each die decides. -/
def State.reservedIn (s : State) (a n : Nat) : Bool :=
  (decide (apert a = .linear) || decide (apert a = .interleaved)) &&
    (List.range (min 24 (n / 65536))).any fun k => s.reservedAt (canon (a + n - 65536 * (k + 1)))

/-! ### Lines waiting to flip in -/

/-- The home of a shadow byte; 24 stands for other packages. -/
def flipHome (a : Nat) : Nat := if windowBase ≤ a then 24 else homeDie a

/-- Shadow bytes by line, in order. -/
def byLine (l : List ShadowByte) : List (Nat × List ShadowByte) :=
  l.foldr (fun b acc => match acc with
    | (n, bs) :: r => if n = b.pa / 64 then (n, b :: bs) :: r else (b.pa / 64, [b]) :: acc
    | [] => [(b.pa / 64, [b])]) []

/-- Lines of shadow space that a list of bytes takes at a home (R90, R113). -/
def linesAt (l : List ShadowByte) (home : Nat) : Nat :=
  ((byLine l).filter fun x => decide (flipHome (64 * x.1) = home) && decide (apert (64 * x.1) ≠ .host)).length

/-- The shadow bytes that a matrix entry holds: those of the word that it has reserved space for, else those that it has
made (R165). -/
def Run.claim (r : Run) : List ShadowByte := if r.work.hold.isEmpty then r.shadow else r.work.hold

/-- Lines of shadow space in use at a home. -/
def State.shadowLines (s : State) (home : Nat) : Nat :=
  (s.shadow.foldl (fun n q => n + linesAt q.bytes home) 0) +
    ((s.me :: s.peers).foldl (fun n c => n + (match c.st.mrun with | some r => linesAt r.claim home | none => 0)) 0)

/-! ### The L2 (R110 to R114) -/

/-- Data slots of a slice (R111). -/
def l2Slots : Nat := 1572864

/-- Little-endian elements of `w` bytes. -/
def elements (w : Nat) (bs : List Byte) : List Nat := (List.range (bs.length / w)).map fun k => leNat ((bs.drop (w * k)).take w)

/-- Whether every element differs from the first by a signed delta of `d` bits (R111). -/
def deltasFit (w d : Nat) (bs : List Byte) : Bool :=
  let es := elements w bs
  let base := es.headD 0
  es.all fun e =>
    let x := (e + 2 ^ (8 * w) - base) % 2 ^ (8 * w)
    decide (sextNat (x % 2 ^ d) d = sextNat x (8 * w))

/-- The encoding of a line: the first of the table that applies (R111). -/
def l2Code (bs : List Byte) : Nat :=
  if bs.all fun b => decide (b = 0) then 1
  else if (elements 8 bs).all fun e => decide (e = (elements 8 bs).headD 0) then 2
  else if deltasFit 8 8 bs then 3
  else if deltasFit 4 8 bs then 4
  else if deltasFit 8 16 bs then 5
  else 0

/-- Bytes that an encoding stores (R111). -/
def l2Bytes (code : Nat) : Nat := [64, 0, 8, 16, 20, 24].getD code 64

/-- The number that a publish selector's line has in place of a tag id: the selector of a region stands in a line of its own
beside the region's first line (R113, log entry 10). -/
def selTag : Nat := 65536

/-- The doubleword of a publish-table entry (R135). -/
def Pub.word (p : Pub) : Nat := p.sel.toNat + 2 + 4 * (p.writers % 2 ^ 14) + p.pcnt.toNat * 2 ^ 32

/-- The bytes of a line as its home answers with them: a cell's, those of a publish selector, or those of the base line. -/
def State.lineBytes (s : State) (line tag : Nat) : List Byte :=
  if tag = selTag then
    (match s.pubs.find? fun p => decide (p.base / 64 = line) with
     | some p => leBytes 64 p.word
     | none => List.replicate 64 0)
  else
  match (if tag = 0 then none else s.cells.find? fun c => decide (c.line = line) && decide (c.tag = tag)) with
  | some c => c.data
  | none => s.mem.readN (64 * line) 64

/-- Whether line `x` stands in the way of a line at a slot: an uncompressed line takes both halves. -/
def L2Line.inWay (x : L2Line) (die slot half code : Nat) : Bool :=
  decide (homeDie (64 * x.line) = die) && decide (x.slot = slot) && (decide (code = 0) || decide (x.code = 0) || decide (x.half = half))

/-- A free value of the log, and the state that has drawn it. -/
def State.draw (s : State) : Nat × State := ((Config.freeWord s.free).toNat, { s with free := s.free + 1 })

/-- R112: lines leave the slice. A dirty one is written back to its home memory, a clean one dropped; `mem` and `cells`
already hold what the home answers with, in the slice or below it. -/
def State.l2Evict (s : State) (p : L2Line → Bool) : State := { s with l2 := s.l2.filter fun x => !p x }

/-- A line takes a slot, or a half of one, that a free value names, beside the slots that shadow lines hold; what stands
there is evicted. `avoid` is a slot that it does not take. -/
def State.l2Place (s : State) (x : L2Line) (avoid : Option Nat) : State :=
  let (r, s1) := s.draw
  let die := homeDie (64 * x.line)
  let n := l2Slots - s.shadowLines die
  let slot := if some (r % n) = avoid then (r + 1) % n else r % n
  let half := if x.code = 0 then 0 else r / n % 2
  let s2 := s1.l2Evict fun y => y.inWay die slot half x.code
  { s2 with l2 := s2.l2 ++ [{ x with slot := slot, half := half }] }

/-- The line that shares a slot with a compressed line. -/
def State.l2Partner (s : State) (x : L2Line) : Option L2Line :=
  s.l2.find? fun y => decide ((y.line, y.tag) ≠ (x.line, x.tag)) && decide (homeDie (64 * y.line) = homeDie (64 * x.line)) &&
    decide (y.slot = x.slot)

/-- Replaces the record of a line. -/
def State.l2Put (s : State) (x : L2Line) : State :=
  { s with l2 := s.l2.map fun y => if (y.line, y.tag) = (x.line, x.tag) then x else y }

/-- R111, R112: a write encodes the line anew. A line that now needs a whole slot moves its partner to another half, or
some line is evicted; which, is a free value. -/
def State.l2Encode (s : State) (x : L2Line) (code : Nat) : State :=
  let y := { x with code := code, dirty := true }
  if x.code ≠ 0 ∧ code = 0 then
    match s.l2Partner x with
    | none => s.l2Put { y with half := 0 }
    | some p =>
      let (r, s1) := s.draw
      let s2 := (s1.l2Evict fun q => decide ((q.line, q.tag) = (p.line, p.tag))).l2Put { y with half := 0 }
      if r % 2 = 0 then s2 else s2.l2Place p (some x.slot)
  else s.l2Put y

/-- R110: an access reaches the line of a canonical address under a tag id in its home slice, after a write has been
made. HOST, SYS and SYNC lines never enter. -/
def State.l2Use (s : State) (a tag : Nat) (write : Bool) : State :=
  if apert a = .linear ∨ apert a = .cxl then
    let line := a / 64
    match s.l2.find? fun x => decide (x.line = line) && decide (x.tag = tag) with
    | some x => if write then s.l2Encode x (l2Code (s.lineBytes line tag)) else s
    | none => s.l2Place ⟨line, tag, l2Code (s.lineBytes line tag), 0, 0, write⟩ none
  else s

/-- `l2Use` of the lines of `n` bytes from a canonical address on. -/
def State.l2Range (s : State) (a n : Nat) (write : Bool) : State :=
  if n = 0 then s
  else (List.range ((a + n - 1) / 64 - a / 64 + 1)).foldl (fun s k => s.l2Use (64 * (a / 64 + k)) 0 write) s

/-- An access of the home reaches the publish selector of a region (R113, R136). -/
def State.selUse (s : State) (base : Nat) (write : Bool) : State := s.l2Use base selTag write

/-- R113: shadow lines hold whole slots, here the highest of their slice; the lines that stood there are evicted. -/
def State.l2Yield (s : State) : State :=
  let top := (List.range 24).map fun d => l2Slots - s.shadowLines d
  s.l2Evict fun x => decide (top.getD (homeDie (64 * x.line)) 0 ≤ x.slot)

/-- Valid lines of a slice, the shadow lines among them (R114). -/
def State.l2Lines (s : State) (die : Nat) : Nat :=
  (s.l2.filter fun x => decide (homeDie (64 * x.line) = die)).length + s.shadowLines die

/-- Data slots in use in a slice (R114). -/
def State.l2SlotsUsed (s : State) (die : Nat) : Nat :=
  ((s.l2.filter fun x => decide (homeDie (64 * x.line) = die)).map fun x => x.slot).eraseDups.length + s.shadowLines die

/-- TEL_L2OCC (R114). -/
def State.l2Occ (s : State) (die : Nat) : Word := BitVec.ofNat 64 (s.l2Lines die % 2 ^ 24 + s.l2SlotsUsed die % 2 ^ 21 * 2 ^ 32)

end Sys2Proof.Machine
end

