-- ==== Sys2Proof/Machine/Translate.lean ====
section
/-!
DEFINITION. Addresses: the page-table walk with its checks and its cache of pointer entries (R61 to R66, R68), the TLB
(R67), the checks of an access in the order of R75, and faults that the front end may service (R76, R355).
-/

namespace Sys2Proof.Machine

/-! ### The walk (R61 to R66) -/

/-- Index bits of a level: lowest bit and number of entries (R61). -/
def levelIndex (lvl va : Nat) : Nat :=
  match lvl with
  | 4 => va / 2 ^ 48 % 256
  | 3 => va / 2 ^ 39 % 512
  | 2 => va / 2 ^ 30 % 512
  | 1 => va / 2 ^ 21 % 512
  | _ => va / 2 ^ 16 % 32

/-- Alignment of a table (R61). -/
def tableAlign (lvl : Nat) : Nat :=
  match lvl with
  | 4 => 2048
  | 0 => 256
  | _ => 4096

/-- Page size of a leaf (R61). -/
def leafSize (lvl : Nat) : Nat :=
  match lvl with
  | 0 => 2 ^ 16
  | 1 => 2 ^ 21
  | _ => 2 ^ 30

/-- What a walk finds: where the leaf entry stands, its 64 bits, and its page size. -/
structure Leaf where
  entryPa : Nat
  entry : Nat
  size : Nat
  deriving DecidableEq, Repr

/-- W of a leaf (R64). -/
def Leaf.w (l : Leaf) : Bool := decide (l.entry / 4 % 2 = 1)

/-- TYPE of a leaf (R64). -/
def Leaf.type (l : Leaf) : Nat := l.entry / 32 % 16

/-- PA of a leaf as an address (R64). -/
def leafPa (e : Nat) : Nat := e / 2 ^ 16 % 2 ^ 36 * 2 ^ 16

/-- R65: whether a valid pointer entry is well formed for a table of level `lvl - 1`. -/
def pointerOk (lvl e : Nat) : Bool :=
  let next := e / 256 % 2 ^ 44 * 256
  decide (lvl ≠ 0) && decide (e / 4 % 64 = 0) && decide (e / 2 ^ 52 = 0) && decide (next % tableAlign (lvl - 1) = 0) &&
    (decide (apert next = .linear) || decide (apert next = .interleaved))

/-- R65: whether a valid leaf entry is well formed at level `lvl`. -/
def leafOk (pubs : List Pub) (lvl e : Nat) : Bool :=
  let type := e / 32 % 16
  let n := leafSize lvl
  decide (lvl ≤ 2) && decide (e / 2 ^ 9 % 128 = 0) && decide (e / 2 ^ 52 = 0) && decide (leafPa e % n = 0) &&
    typeAdmits type (leafPa e) n && !(decide (type = tConst) && decide (e / 4 % 2 = 1)) &&
    (decide (type ≠ tPub) || pubAdmits pubs (leafPa e) n)

/-- Bits of an address below the range that one entry of a level covers (R61). -/
def levelShift (lvl : Nat) : Nat :=
  match lvl with
  | 4 => 48
  | 3 => 39
  | 2 => 30
  | 1 => 21
  | _ => 16

/-- The table that a pointer entry names (R63). -/
def nextTable (e : Nat) : Nat := e / 256 % 2 ^ 44 * 256

/-- Whether a cached pointer is that of an address of an interface at a level of a die's walker. -/
def Ptr.hits (p : Ptr) (die vi lvl va : Nat) : Bool :=
  decide (p.die = die) && decide (p.vi = vi) && decide (p.lvl = lvl) && decide (p.idx = va / 2 ^ levelShift lvl)

/-- R68: the pointer that a walker has cached, where it differs from the entry `e` that memory holds now: whether the
walk uses it is a free value. The front end walks without a cache. -/
def State.ptrUse (s : State) (die : Option Nat) (vi lvl va e : Nat) : State × Option Nat :=
  match die with
  | none => (s, none)
  | some d =>
    match s.ptrs.find? fun p => p.hits d vi lvl va with
    | none => (s, none)
    | some p =>
      if e % 4 = 1 ∧ nextTable e = p.next then (s, none)
      else let r := s.draw; (r.2, if r.1 % 2 = 0 then none else some p.next)

/-- R68: a walker caches a pointer; where 256 stand, the one displaced is a free value. -/
def State.ptrFill (s : State) (die : Option Nat) (vi lvl va next : Nat) : State :=
  match die with
  | none => s
  | some d =>
    let rest := s.ptrs.filter fun p => !p.hits d vi lvl va
    let mine := rest.filter fun p => decide (p.die = d)
    let new : Ptr := ⟨d, vi, lvl, va / 2 ^ levelShift lvl, next⟩
    if mine.length < 256 then { s with ptrs := rest ++ [new] }
    else
      let r := s.draw
      match mine[r.1 % 256]? with
      | some v => { r.2 with ptrs := rest.erase v ++ [new] }
      | none => { r.2 with ptrs := rest ++ [new] }

/-- The walk from a table of the first level of the list (R61): the first invalid or malformed entry decides. Each
entry is read through the home slice of its line. One in a poisoned line is read as it stands, log entry 85. -/
def State.walk (s : State) (die : Option Nat) (vi table va : Nat) (levels : List Nat) : State × Except Cause Leaf :=
  match levels with
  | [] => (s, .error .trFormat)
  | lvl :: rest =>
    let at' := canon (table + 8 * levelIndex lvl va)
    let e := leNat (s.mem.readN at' 8)
    match s.ptrUse die vi lvl va e with
    | (s1, some next) => s1.walk die vi next va rest
    | (s1, none) =>
      let s2 := s1.l2Use at' 0 false
      if e % 2 = 0 then (s2, .error .trInvalid)
      else if e / 2 % 2 = 1 then (s2, if leafOk s2.pubs lvl e then .ok ⟨at', e, leafSize lvl⟩ else .error .trFormat)
      else if pointerOk lvl e then (s2.ptrFill die vi lvl va (nextTable e)).walk die vi (nextTable e) va rest
      else (s2, .error .trFormat)

/-- The walk of an interface (R62): EN, the reserved bits of SYS_PTB, then the tables from the root. A root outside
stacked DRAM ends it as a pointer to such a table does; log entry 84. -/
def State.walkBy (s : State) (die : Option Nat) (vi va : Nat) : State × Except Cause Leaf :=
  let ptb := (s.vi vi).ptb.toNat
  let root := ptb / 2048 % 2 ^ 41 * 2048
  if ptb % 2 = 0 then (s, .error .trInvalid)
  else if ptb / 2 % 1024 ≠ 0 ∨ ptb / 2 ^ 52 ≠ 0 then (s, .error .trFormat)
  else if apert root = .linear ∨ apert root = .interleaved then s.walk die vi root va [4, 3, 2, 1, 0]
  else (s, .error .trFormat)

/-- What the tables name for an address now. -/
def State.walkVi (s : State) (vi va : Nat) : Except Cause Leaf := (s.walkBy none vi va).2

/-- R66: the leaf's bits with A set, and D for a write. -/
def Leaf.touched (l : Leaf) (write : Bool) : Nat :=
  let a := if l.entry / 8 % 2 = 1 then l.entry else l.entry + 8
  if write ∧ a / 16 % 2 = 0 then a + 16 else a

/-- R66: the swap at the entry's home, where it changes a bit. -/
def State.touchLeaf (s : State) (l : Leaf) (write : Bool) : State :=
  if l.touched write = l.entry then s
  else { s with mem := s.mem.writeN l.entryPa (leBytes 8 (l.touched write)) }.l2Use l.entryPa 0 true

/-! ### The TLB (R67) -/

/-- Whether an entry translates an address; a write needs D. -/
def TlbEntry.hits (e : TlbEntry) (vi va : Nat) (write : Bool) : Bool :=
  decide (e.vi = vi) && decide (va / e.size * e.size = e.va) && (!write || e.d)

/-- The entry that a walk fills. -/
def Leaf.tlb (l : Leaf) (vi va : Nat) (write : Bool) : TlbEntry :=
  { vi := vi, va := va / l.size * l.size, size := l.size, w := l.w, d := decide (l.touched write / 16 % 2 = 1),
    type := l.type, pa := leafPa l.entry }

/-- A fill: an older entry of the page goes; where 1,024 stand, the victim is a free value (R67). -/
def fillTlb (tlb : List TlbEntry) (e : TlbEntry) (victim : Nat) : List TlbEntry :=
  let rest := tlb.filter fun x => !(decide (x.vi = e.vi) && decide (x.va = e.va) && decide (x.size = e.size))
  if rest.length < 1024 then rest ++ [e] else rest.eraseIdx (victim % 1024) ++ [e]

/-- R70: a translation joins those that clusters have used; a shootdown finds lines and pins of its pages by them, also where
no TLB holds them any more. -/
def TlbEntry.noted (e : TlbEntry) (l : List Seen) : List Seen :=
  let x : Seen := ⟨e.vi, e.va, e.size, e.pa⟩
  if l.contains x then l else l ++ [x]

/-- The translation of an address of interface `vi`, from the TLB or by a walk that sets A and D and fills it. -/
def State.xlate (s : State) (vi va : Nat) (write : Bool) : State × Except Cause TlbEntry :=
  match s.me.tlb.find? fun e => e.hits vi va write with
  | some e => (s, .ok e)
  | none =>
    match s.walkBy (some s.me.die) vi va with
    | (s1, .error c) => (s1, .error c)
    | (s1, .ok l) =>
      let (r, s2) := if s1.me.tlb.length < 1024 then (0, s1) else s1.draw
      let e := l.tlb vi va write
      let s3 := s2.touchLeaf l write
      ({ s3 with me := { s3.me with tlb := fillTlb s3.me.tlb e r }, seen := e.noted s3.seen }, .ok e)

/-! ### The checks of one access (R53 to R55, R75) -/

/-- Base of the scratchpad window (R54). -/
def spadBase : Nat := 0x00FFFFFFFFF80000

/-- Base of the reserved range (R54). -/
def rsvdBase : Nat := 0x00FFFFFFC0000000

/-- The checks of `n` bytes at `va` in the order of R75; `tag` is an explicit tag. -/
def State.lookup (s : State) (va n : Nat) (write : Bool) (tag : Option (BitVec 20)) : State × Except Cause Place :=
  if 2 ^ 56 ≤ va then (s, .error .trNc)
  else if spadBase ≤ va then
    (if va - spadBase + n ≤ s.me.st.spadSize then (s, .ok (.spad (va - spadBase))) else (s, .error .trSpad))
  else if rsvdBase ≤ va then (s, .error .trRsvd)
  else
    match s.xlate s.me.st.vi va write with
    | (s1, .error c) => (s1, .error c)
    | (s1, .ok e) =>
      let explicit : Bool := match tag with
        | some t => decide (t.toNat % 65536 ≠ 0)
        | none => false
      if explicit ∧ e.type = tSys then (s1, .error .tagRemote)
      else if explicit ∧ e.type ≠ tTw then (s1, .error .tagType)
      else if write ∧ !e.w then (s1, .error .trProt)
      else (s1, .ok (.mem (e.pa + (va - e.va)) e.type))

/-! ### Faults that the front end may service (R76, R355) -/

/-- Causes that the front end can service (R75). -/
def serviceable (c : Cause) : Bool := decide (c = .trInvalid) || decide (c = .trProt)

/-- The held access of an agent of the strand. -/
def Strand.heldBy (t : Strand) (e : Eng) : Option Held := t.held.find? fun h => decide (h.eng = e)

/-- The agent holds no access any more. -/
def Strand.release (t : Strand) (e : Eng) : Strand := { t with held := t.held.filter fun h => decide (h.eng ≠ e) }

/-- Whether the pager has declined the access that the agent repeats. -/
def Strand.declined (t : Strand) (e : Eng) (va : Word) : Bool :=
  match t.heldBy e with
  | some h => h.declined && decide (h.va = va)
  | none => false

/-- R355: the access is held and the gang's stall wire rises. -/
def State.hold (s : State) (c : Cause) (va : Word) (write : Bool) (e : Eng) : State :=
  let wired := s.stallWires.contains s.me.st.node
  if wired && (s.me.st.held.any fun h => decide (h.eng = e) && decide (h.va = va)) then s else
  let s1 := (s.raise (.fault s.me.st.node)).updSt fun t => { t.release e with held := (t.release e).held ++ [⟨c, va, write, e, false, false⟩] }
  { s1 with stallWires := if s.stallWires.contains s.me.st.node then s.stallWires else s.stallWires ++ [s.me.st.node] }

/-- R355: whether an agent holds an access while its gang's wire stands; the access repeats at the wire's release. -/
def State.heldNow (s : State) (e : Eng) : Bool := s.stallWires.contains s.me.st.node && (s.me.st.heldBy e).isSome

/-- TRP_AUX of a translation fault (R347): the tag for TAG_REMOTE and TAG_TYPE. -/
def faultAux (c : Cause) (tag : Option (BitVec 20)) : Word :=
  if c = .tagRemote ∨ c = .tagType then
    (match tag with
     | some t => t.setWidth 64
     | none => 0)
  else 0

/-- The word at PC meets a translation fault: it waits for the front end, or it traps precisely. -/
def faultWord (c : Cause) (va : Word) (write : Bool) (tag : Option (BitVec 20)) (s : State) : Out :=
  if serviceable c ∧ !s.me.st.declined .c va then .next (s.stalled.hold c va write .c)
  else .next ((s.updSt fun t => t.release .c).trapEntry
    { TrapRec.precise c s.ctl.pc with addr := va, aux := faultAux c tag })

/-- The last checks of a word's access, after TR_NC and MISALIGN. -/
def located (ea : Word) (n : Nat) (write : Bool) (tag : Option (BitVec 20)) (s : State) (k : Place → State → Out) : Out :=
  match s.lookup ea.toNat n write tag with
  | (s1, .ok pl) => k pl s1
  | (s1, .error c) => faultWord c ea write tag s1

/-- The checks of one access at issue (R83): TR_NC, MISALIGN, then the causes of R75. -/
def checking (ea : Word) (n : Nat) (write : Bool) (tag : Option (BitVec 20)) (s : State) (k : Place → State → Out) : Out :=
  if 2 ^ 56 ≤ ea.toNat then trapAt .trNc ea s
  else if ea.toNat % n ≠ 0 then trapAt .misalign ea s
  else located ea n write tag s k

/-- The checks of a scalar access at issue; the word then holds no access any more. -/
def accessing (ea : Word) (n : Nat) (write : Bool) (tag : Option (BitVec 20)) (s : State) (k : Place → State → Out) : Out :=
  checking ea n write tag s fun pl s => k pl (s.updSt fun t => t.release .c)

/-- The checks of `n` accesses of 8 bytes each at ascending addresses (R218), collecting their places. A fault of one that the
pager has declined stays declined while the earlier ones are checked again (R76). -/
def accessingAll (ea : Word) (n : Nat) (write : Bool) (acc : List Place) (s : State) (k : List Place → State → Out) : Out :=
  match n with
  | 0 => k acc.reverse (s.updSt fun t => t.release .c)
  | n + 1 => checking ea 8 write none s fun pl s => accessingAll (ea + 8) n write (pl :: acc) s k

end Sys2Proof.Machine
end

