-- ==== Sys2Proof/Machine/Home.lean ====
section
/-!
DEFINITION. The homes: publishable halves (R135, R136), cells (R162 to R167), poison and links (R117, R401, R407), and
the L1 of a cluster with its line states (R102, R105 to R108). `performRead` and `performWrite` are the access that an
L or S entry performs on a checked place; a system-window place goes to the fabric instead.
-/

namespace Sys2Proof.Machine

/-! ### Publishable regions -/

/-- The publish-table entry whose half 0 holds a canonical address. -/
def State.pubOf (s : State) (a : Nat) : Option Pub := s.pubs.find? fun p => decide (p.base ≤ a) && decide (a < p.base + p.size)

/-- R136: where an access to an address of a page type goes: reads of a PUB page to the visible half, writes to the
shadow half. -/
def State.storage (s : State) (pa type : Nat) (write : Bool) : Nat :=
  let a := canon pa
  if type = tPub then
    match s.pubOf a with
    | some p => if p.sel == write then a else a + p.size
    | none => a
  else a

/-! ### Tags and cells -/

/-- Die of a tag id (R156). -/
def tagDie (t : BitVec 20) : Nat := t.toNat / 2048 % 32

/-- Index of a tag id (R156). -/
def tagIdx (t : BitVec 20) : Nat := t.toNat % 2048

/-- Tag id (R156). -/
def tagId (t : BitVec 20) : Nat := t.toNat % 65536

/-- The allocator's record of an index; a record that was never made is free at generation 0 (R159). -/
def State.tagRec (s : State) (die idx : Nat) : TagRec :=
  match s.tags.find? fun r => decide (r.die = die) && decide (r.idx = idx) with
  | some r => r
  | none => { die := die, idx := idx, st := .free, gen := 0, vi := 0, stream := 0 }

/-- Replaces the record of an index. -/
def State.setTag (s : State) (r : TagRec) : State :=
  { s with tags := if s.tags.any (fun q => decide (q.die = r.die) && decide (q.idx = r.idx)) then
      s.tags.map fun q => if q.die = r.die ∧ q.idx = r.idx then r else q else s.tags ++ [r] }

/-- R167, R166: whether a tag other than the base tag is stale at the homes for an interface; once a retirement has
reached a home the tag is stale there. -/
def State.staleAt (s : State) (vi : Nat) (t : BitVec 20) (home : Nat) : Bool :=
  let r := s.tagRec (tagDie t) (tagIdx t)
  let noticed := s.retires.any fun q => decide (q.die = tagDie t) && decide (q.idx = tagIdx t) && q.noticed.contains home
  decide (tagId t ≠ 0) &&
    (decide (r.st = .free) || decide (r.vi ≠ vi) || decide (r.gen.toNat ≠ t.toNat / 65536) || noticed)

/-- The cell of a line under a tag id. -/
def State.cellOf (s : State) (line tag : Nat) : Option Cell := s.cells.find? fun c => decide (c.line = line) && decide (c.tag = tag)

/-- Cells in use on a die (R164). -/
def State.cellsUsed (s : State) (die : Nat) : Nat := (s.cells.filter fun c => decide (homeDie (64 * c.line) = die)).length

/-- Cells that a die's store holds (R164). -/
def State.cellRoom (s : State) (die : Nat) : Nat :=
  let n := (Sp.get s.fe.cellcfg die 0).toNat % 2 ^ 17
  1024 * (if 65536 < n then 65536 else n)

/-- Whether the effective tag selects a cell: a TW page and a tag other than the base tag. -/
def usesCell (type : Nat) (tag : BitVec 20) : Bool := decide (type = tTw) && decide (tagId tag ≠ 0)

/-- Every byte that waits to flip in, of copies and of matrix entries. -/
def State.allShadow (s : State) : List ShadowByte :=
  (s.shadow.flatMap fun q => q.bytes) ++
    ((s.me :: s.peers).flatMap fun c => match c.st.mrun with
      | some r => r.claim
      | none => [])

/-- Cells that a list of shadow bytes would materialise on a die (R165). -/
def State.cellsNeeded (s : State) (l : List ShadowByte) (die : Nat) : Nat :=
  (((l.filter fun b => b.tw && decide (homeDie b.pa = die) && (s.cellOf (b.pa / 64) (tagId b.tag)).isNone).map fun b =>
    (b.pa / 64, tagId b.tag)).eraseDups).length

/-- R165: whether a write would materialise a cell for which the store has no room beside the cells in use and those
reserved. -/
def State.cellStalls (s : State) (pa type : Nat) (tag : BitVec 20) : Bool :=
  let line := canon pa / 64
  let die := homeDie (canon pa)
  usesCell type tag && (s.cellOf line (tagId tag)).isNone &&
    decide (s.cellRoom die ≤ s.cellsUsed die + s.cellsNeeded s.allShadow die)

/-! ### What a home refuses -/

/-- R117, R407: the cause for which an address is unbacked. -/
def State.unbacked (s : State) (a : Nat) : Option Cause :=
  match apert a with
  | .cxl =>
    let p := (a - cxlBase) / cxlPort
    match s.cxl.toList[p]? with
    | some q => if !q.up then some .memLink else if q.limit ≤ (a - cxlBase) % cxlPort then some .memRange else none
    | none => some .memRange
  | .host => if s.tsuwin then none else some .memLink
  | _ => none

/-- Whether the line that an access under a tag finds is poisoned: the cell where there is one, else the base line (R401). -/
def State.poisoned (s : State) (a tag : Nat) (cell : Bool) : Bool :=
  if cell && (s.cellOf (a / 64) tag).isSome then s.cellPoison.contains (a / 64, tag) else s.poison.contains (a / 64)

/-- Why a home refuses `n` bytes, or none: a stale tag (R167), an unbacked line, a poisoned line that is read or
written in part (R401). -/
def State.homeErr (s : State) (vi pa type n : Nat) (tag : BitVec 20) (write : Bool) : Option Cause :=
  let a := s.storage pa type write
  if usesCell type tag && s.staleAt vi tag (homeDie a) then some .tagStale
  else
    match s.unbacked a with
    | some c => some c
    | none =>
      if s.poisoned a (tagId tag) (usesCell type tag) && !(write && decide (n = 64)) then some .memPoison else none

/-! ### Reads and writes at the home -/

/-- `n` bytes of one line at their point of coherence (R118, R163). -/
def State.homeRead (s : State) (pa type n : Nat) (tag : BitVec 20) : List Byte :=
  let a := s.storage pa type false
  if usesCell type tag then
    match s.cellOf (a / 64) (tagId tag) with
    | some c => (c.data.drop (a % 64)).take n
    | none => s.mem.readN a n
  else s.mem.readN a n

/-- An access of a PUB page reads the selector of its region at the home (R113, R136). -/
def State.selRead (s : State) (pa type : Nat) : State :=
  match (if type = tPub then s.pubOf (canon pa) else none) with
  | some p => s.selUse p.base false
  | none => s

/-- R110, R113: the line that a home reads for an address: the cell's where the tag has one, else the base line's. -/
def State.homeTouch (s : State) (pa type : Nat) (tag : BitVec 20) : State :=
  let a := s.storage pa type false
  (s.selRead pa type).l2Use a (if usesCell type tag && (s.cellOf (a / 64) (tagId tag)).isSome then tagId tag else 0) false

/-- `homeRead` as an access of the home slice. -/
def State.homeGet (s : State) (pa type n : Nat) (tag : BitVec 20) : State × List Byte :=
  (s.homeTouch pa type tag, s.homeRead pa type n tag)

/-- Bytes put over a list from an offset on. -/
def overlay (l : List Byte) (off : Nat) (bs : List Byte) : List Byte := l.take off ++ bs ++ l.drop (off + bs.length)

/-- R162: a write under a tag; the cell is made from the base line first where there is none. -/
def State.cellPut (s : State) (a tag : Nat) (bs : List Byte) : State :=
  let line := a / 64
  match s.cellOf line tag with
  | some _ =>
    { s with cells := s.cells.map fun c => if c.line = line ∧ c.tag = tag then { c with data := overlay c.data (a % 64) bs } else c }
  | none => { s with cells := s.cells ++ [⟨line, tag, overlay (s.mem.readN (64 * line) 64) (a % 64) bs⟩] }

/-- `cellPut` in the home slice; a write of the whole line clears the cell's poison (R401). -/
def State.cellWrite (s : State) (a tag : Nat) (bs : List Byte) : State :=
  let s1 := s.cellPut a tag bs
  { s1 with cellPoison := if bs.length = 64 then s1.cellPoison.filter (· ≠ (a / 64, tag)) else s1.cellPoison }.l2Use a tag true

/-- Bytes put into base memory in the home slice; a write of a whole line clears its poison (R401). -/
def State.baseWrite (s : State) (a : Nat) (bs : List Byte) : State :=
  { s with mem := s.mem.writeN a bs,
           poison := if bs.length = 64 then s.poison.filter (· ≠ a / 64) else s.poison }.l2Use a 0 true

/-- Bytes of one line written at their point of coherence; a write of the whole line clears its poison (R401). -/
def State.homeWrite (s : State) (pa type : Nat) (tag : BitVec 20) (bs : List Byte) : State :=
  let a := s.storage pa type true
  let s1 := s.selRead pa type
  if usesCell type tag then s1.cellWrite a (tagId tag) bs
  else s1.baseWrite a bs

/-! ### The L1 (R102, R105 to R108) -/

/-- The number of scratchpad banks (R102). -/
def Strand.spadBanks (t : Strand) : Nat := t.spadSize / 16384

/-- The set of a physical line (R105). -/
def l1Set (line : Nat) : Nat := line % 256

/-- The L1 line of a physical line. -/
def Cluster.l1Line (c : Cluster) (line : Nat) : Option L1Line := c.l1.find? fun l => decide (l.line = line)

/-- Drops a line. -/
def Cluster.l1Drop (c : Cluster) (line : Nat) : Cluster := { c with l1 := c.l1.filter fun l => decide (l.line ≠ line) }

/-- Replaces a line that is held. -/
def Cluster.l1Put (c : Cluster) (l : L1Line) : Cluster := { c with l1 := c.l1.map fun q => if q.line = l.line then l else q }

/-- A private-dirty line written whole to its home. -/
def State.l1Flush (s : State) (l : L1Line) : State :=
  if l.st = .privateDirty then s.homeWrite (64 * l.line) tPriv 0 l.data else s

/-- Writes a line back if it is dirty, and drops it. -/
def State.l1Evict (s : State) (line : Nat) : State :=
  match s.me.l1Line line with
  | some l => let s1 := s.l1Flush l; { s1 with me := s1.me.l1Drop line }
  | none => s

/-- Drops every line of a state (R108). -/
def Cluster.l1DropState (c : Cluster) (st : L1St) : Cluster := { c with l1 := c.l1.filter fun l => decide (l.st ≠ st) }

/-- The invalidation that an acquire makes at .die, .pkg and .sys (R128). -/
def State.acquired (s : State) (sc : Scope) : State := if sc = .cl then s else { s with me := s.me.l1DropState .shared }

/-- R108: every private-dirty line goes home and stays, private-clean. -/
def State.l1CleanAll (s : State) : State :=
  let s1 := s.me.l1.foldl State.l1Flush s
  { s1 with me := { s1.me with l1 := s1.me.l1.map fun l => if l.st = .privateDirty then { l with st := .privateClean } else l } }

/-- The bank that a fill of a set takes: the lowest L1 bank whose way is invalid (R105). -/
def Cluster.freeBank (c : Cluster) (set : Nat) : Option Nat :=
  (List.range 20).find? fun b => decide (c.st.spadBanks ≤ b) && !(c.l1.any fun l => decide (l.bank = b) && decide (l1Set l.line = set))

/-- Takes a line into the L1 (R105); where the set is full the victim is a free value. -/
def State.l1Fill (s : State) (line : Nat) (st : L1St) (data : List Byte) : State :=
  match s.me.freeBank (l1Set line) with
  | some b => { s with me := { s.me with l1 := s.me.l1 ++ [⟨line, b, st, data⟩] } }
  | none =>
    let (r, s1) := s.draw
    let b := s.me.st.spadBanks + r % (20 - s.me.st.spadBanks)
    let s2 := match s1.me.l1.find? fun l => decide (l.bank = b) && decide (l1Set l.line = l1Set line) with
      | some v => s1.l1Evict v.line
      | none => s1
    { s2 with me := { s2.me with l1 := s2.me.l1 ++ [⟨line, b, st, data⟩] } }

/-- The types that L1 takes (R107). -/
def cached (type : Nat) : Bool := [tDev, tCxl, tPriv, tConst].contains type

/-- The state in which a load takes a line (R107). -/
def fillState (type : Nat) (const : Bool) : L1St :=
  if const ∨ type = tConst then .constant else if type = tPriv then .privateClean else .shared

/-- Whether a load hits a line: an ordinary load of a page that is not CONST does not hit a constant line (R107). -/
def loadHits (type : Nat) (const : Bool) (l : L1Line) : Bool := const || decide (type = tConst) || decide (l.st ≠ .constant)

/-- A load of `n` bytes through the L1 (R107). -/
def State.l1Load (s : State) (pa type n : Nat) (const : Bool) : State × Except Cause (List Byte) :=
  let a := canon pa
  let line := a / 64
  match s.me.l1Line line with
  | some l =>
    if loadHits type const l then (s, .ok ((l.data.drop (a % 64)).take n))
    else
      let s1 := { s with me := s.me.l1Drop line }
      match s1.homeErr s.me.st.vi a type 64 0 false with
      | some c => (s1, .error c)
      | none =>
        let (s2, d) := s1.homeGet (64 * line) type 64 0
        (s2.l1Fill line (fillState type const) d, .ok ((d.drop (a % 64)).take n))
  | none =>
    match s.homeErr s.me.st.vi a type 64 0 false with
    | some c => (s, .error c)
    | none =>
      let (s1, d) := s.homeGet (64 * line) type 64 0
      (s1.l1Fill line (fillState type const) d, .ok ((d.drop (a % 64)).take n))

/-- A store through the L1 (R107): write-through for DEV and CXL, write-back for PRIV. A constant line stays as it is,
and so does every line where the home refuses the store (R117). A shared line of the same bytes that a store to a PRIV page
hits becomes private-dirty, log entry 110. -/
def State.l1Store (s : State) (pa type : Nat) (bs : List Byte) : State × Option Cause :=
  let a := canon pa
  let line := a / 64
  match s.me.l1Line line with
  | some l =>
    if l.st ≠ .constant ∧ type = tPriv then
      ({ s with me := s.me.l1Put { l with data := overlay l.data (a % 64) bs, st := .privateDirty } }, none)
    else
      match s.homeErr s.me.st.vi a type bs.length 0 true with
      | some c => (s, some c)
      | none =>
        let s1 := if l.st = .constant then s else { s with me := s.me.l1Put { l with data := overlay l.data (a % 64) bs } }
        (s1.homeWrite a type 0 bs, none)
  | none =>
    match s.homeErr s.me.st.vi a type bs.length 0 true with
    | some c => (s, some c)
    | none =>
      if type = tPriv then
        let (s1, d) := s.homeGet (64 * line) type 64 0
        (s1.l1Fill line .privateDirty (overlay d (a % 64) bs), none)
      else (s.homeWrite a type 0 bs, none)

/-! ### Input-buffer locks (R97) -/

/-- The number of a cluster's copy engine. -/
def Cluster.key (c : Cluster) : Nat := 64 * c.die + c.clus

/-- Keys from here on name commands that a rollback has left running (R398); the key of their cluster is added. -/
def orphanBase : Nat := 2 ^ 32

/-- The first command of the cluster of `me` that a rollback has left running. -/
def State.orphan (s : State) : Option CopyRun := s.shadow.find? fun q => decide (orphanBase ≤ q.key) && decide (q.key % orphanBase = s.me.key)

/-- R398: what last filled some window granules: a copy command, or the strand's own stores. -/
def Strand.filled (t : Strand) (l : List Nat) (h : Option Entry) : Strand :=
  { t with fills := (t.fills.filter fun x => !l.contains x.1) ++ l.map fun g => (g, h) }

/-- Takes the locks of some window granules. -/
def Strand.lock (t : Strand) (l : List Nat) : Strand := { t with locks := t.locks ++ l.filter fun g => !t.locks.contains g }

/-- A phase reads window granules: it takes their locks, but not while a running copy writes one of them. -/
def State.lockWindow (s : State) (l : List Nat) : Option State :=
  if s.shadow.any fun q => decide (q.key % orphanBase = s.me.key) && q.window.any l.contains then none
  else some (s.updSt fun t => t.lock l)

/-! ### One access of an entry -/

/-- A read of `n` bytes at a checked place under an effective tag. -/
def State.performRead (s : State) (pl : Place) (n : Nat) (const : Bool) (tag : BitVec 20) : State × Except Cause (List Byte) :=
  match pl with
  | .spad off => (s, .ok (s.me.st.spad.readN off n))
  | .mem pa type =>
    if cached type then s.l1Load pa type n const
    else
      match s.homeErr s.me.st.vi pa type n tag false with
      | some c => (s, .error c)
      | none => let r := s.homeGet pa type n tag; (r.1, .ok r.2)

/-- A write at a checked place under an effective tag. -/
def State.performWrite (s : State) (pl : Place) (tag : BitVec 20) (bs : List Byte) : State × Option Cause :=
  match pl with
  | .spad off => (s.updSt fun t => { t with spad := t.spad.writeN off bs }.filled [off / 16384] none, none)
  | .mem pa type =>
    if cached type then s.l1Store pa type bs
    else
      match s.homeErr s.me.st.vi pa type bs.length tag true with
      | some c => (s, some c)
      | none => (s.homeWrite pa type tag bs, none)

/-- Whether a place lies on another package, or in this package's own export aperture (R378). -/
def Place.remote : Place → Bool
  | .spad _ => false
  | .mem _ type => decide (type = tSys)

/-- A deferred record of an access that its home refused (R117, R145, R167): address, and the tag of a stale access. -/
def accessTrap (c : Cause) (e : Eng) (waddr va : Word) (tag : BitVec 20) : TrapRec :=
  { TrapRec.defer c e waddr with addr := va, aux := if c = .tagStale then tag.setWidth 64 else 0 }

end Sys2Proof.Machine
end

