-- ==== Sys2Proof/Machine/Remote.lean ====
section
/-!
DEFINITION. The system address window as its source sees it (R377 to R381, R383), and an access to this package's own
export aperture. A request to another package joins the pair's retry buffer; its reply comes with PACKET_RECEIVE.
-/

namespace Sys2Proof.Machine

/-- This package's number (R377). -/
def State.pkg (s : State) : Nat := s.fe.zcfg.toNat % 2 ^ 14

/-- SYS_ZBIND.EN (R379). -/
def State.zEnabled (s : State) (vi : Nat) : Bool := (s.vi vi).zbind.getLsbD 0

/-- SYS_ZBIND.RVI (R379). -/
def State.rvi (s : State) (vi : Nat) : Nat := (s.vi vi).zbind.toNat / 2 % 128

/-- The package that a window address names (R378). -/
def windowPkg (pa : Nat) : Nat := pa / 2 ^ 37 % 2 ^ 14

/-- The offset into the export aperture (R378). -/
def windowOff (pa : Nat) : Nat := pa % 2 ^ 37

/-- A pair that nothing has used yet. -/
def Peer.fresh (p : Nat) : Peer :=
  { pkg := p, nextSeq := 0, retry := [], sent := [], since := 0, expect := 0, window := [], routes := [], failed := [],
    lost := false, reqs := [] }

/-- The pair with a package. -/
def State.peer (s : State) (p : Nat) : Peer := (s.fab.peers.find? fun q => decide (q.pkg = p)).getD (Peer.fresh p)

/-- Replaces the record of a pair. -/
def State.setPeer (s : State) (q : Peer) : State :=
  let ps := s.fab.peers
  let ps' := if ps.any fun r => decide (r.pkg = q.pkg) then ps.map fun r => if r.pkg = q.pkg then q else r else ps ++ [q]
  { s with fab := { s.fab with peers := ps' } }

/-- Packets of a pair that have been sent and not acknowledged: at most 4,096; later ones wait at the source (R381). -/
def Peer.flying (q : Peer) : List Packet := q.retry.take 4096

/-- Packets that are in flight and have not gone out yet do so now. -/
def Peer.launch (q : Peer) (now : Nat) : Peer :=
  { q with sent := q.flying.map fun p => (q.sent.find? fun x => decide (x.1 = p.seq)).getD (p.seq, now) }

/-- Sends a sequenced packet to a package: it takes the pair's next number and stays in the retry buffer (R381). To a lost
destination no packet is sent (R383). -/
def State.sendSeq (s : State) (dst vi cls : Nat) (body : Payload) : State :=
  let q := s.peer dst
  let p : Packet := ⟨s.pkg, dst, vi, cls, q.nextSeq.toNat, body⟩
  let q1 : Peer := { q with nextSeq := q.nextSeq + 1, retry := q.retry ++ [p] }
  if q.lost then s else s.setPeer (q1.launch s.pow.now)

/-- Whether a pair has 4,096 unacknowledged packets, so that the FIFO that issues a further one waits (R381). -/
def State.pairFull (s : State) (dst : Nat) : Bool := decide (4096 ≤ (s.peer dst).retry.length)

/-! ### The export aperture (R378) -/

/-- An export entry that is not valid. -/
def Exp.none : Exp := ⟨false, false, false, 0, 0⟩

/-- The type under which an export access acts at its home: DEV, or CXL for KIND 1; a byte of half 0 of a publishable
region goes by the region's selector (R138). -/
def State.exportType (s : State) (e : Exp) (pa : Nat) : Nat :=
  if e.cxl then tCxl else if (s.pubOf (canon pa)).isSome then tPub else tDev

/-- Where an access of a bound interface to `n` bytes at an offset acts: physical address and type, or its cause. -/
def State.exported (s : State) (rvi off n : Nat) (write : Bool) : Except Cause (Nat × Nat) :=
  let e := Sp.get s.fab.exports (off / 2 ^ 26 % 2048) Exp.none
  let pa := e.pa + off % 2 ^ 26
  let type := s.exportType e pa
  if !e.v || decide (e.vi.toNat ≠ rvi) || (write && !e.w) then .error .memRange
  else if !(typeAdmits type pa 1) then .error .memRange
  else
    match s.homeErr rvi pa type n 0 write with
    | some c => .error c
    | none => .ok (pa, type)

/-- A window load at its target. -/
def State.exportRead (s : State) (rvi off n : Nat) : Except Cause (List Byte) :=
  match s.exported rvi off n false with
  | .ok (pa, type) => .ok (s.homeRead pa type n 0)
  | .error c => .error c

/-- `exportRead` as an access of the home slice. -/
def State.exportGet (s : State) (rvi off n : Nat) : State × Except Cause (List Byte) :=
  match s.exported rvi off n false with
  | .ok (pa, type) => let r := s.homeGet pa type n 0; (r.1, .ok r.2)
  | .error c => (s, .error c)

/-- A window store at its target. -/
def State.exportWrite (s : State) (rvi off : Nat) (bs : List Byte) : State × Option Cause :=
  match s.exported rvi off bs.length true with
  | .ok (pa, type) => (s.homeWrite pa type 0 bs, none)
  | .error c => (s, some c)

/-! ### Atomics (R143) -/

/-- The new value of an atomic on `n` bytes. -/
def atomNew (op : AOp) (n : Nat) (old v c : Nat) : Nat :=
  let w := 8 * n
  match op with
  | .add => (old + v) % 2 ^ w
  | .and => Nat.land old v
  | .or => Nat.lor old v
  | .xor => Nat.xor old v
  | .min => if sextNat old w ≤ sextNat v w then old else v
  | .max => if sextNat old w ≤ sextNat v w then v else old
  | .minn => if old ≤ v then old else v
  | .maxn => if old ≤ v then v else old
  | .xchg => v
  | .cas => if old = c then v else old

/-- The opcode index of an atomic, in the order of R143. -/
def atomIndex (op : AOp) : Nat :=
  match op with
  | .add => 0 | .and => 1 | .or => 2 | .xor => 3 | .min => 4 | .max => 5 | .minn => 6 | .maxn => 7 | .xchg => 8 | .cas => 9

/-- The atomic of an opcode index. -/
def atomOf' (k : Nat) : AOp := [AOp.add, .and, .or, .xor, .min, .max, .minn, .maxn, .xchg, .cas].getD k .xchg

/-- R142, R144: an atomic at the home of an address: the old value, and the new one written even where it is equal. On a
PUB page both the read and the write act on the shadow half (R136). -/
def State.homeAtomic (s : State) (vi pa type : Nat) (tag : BitVec 20) (op : AOp) (n v c : Nat) : State × Except Cause Nat :=
  match s.homeErr vi pa type n tag true with
  | some e => (s, .error e)
  | none =>
    let a := s.storage pa type true
    let old := leNat (if usesCell type tag then s.homeRead pa type n tag else s.mem.readN a n)
    (s.homeWrite pa type tag (leBytes n (atomNew op n old v c)), .ok old)

/-- A window atomic at its target. -/
def State.exportAtomic (s : State) (rvi off n : Nat) (op : AOp) (v c : Nat) : State × Except Cause Nat :=
  match s.exported rvi off n true with
  | .ok (pa, type) => s.homeAtomic rvi pa type 0 op n v c
  | .error e => (s, .error e)

/-! ### Requests -/

/-- What becomes of a window access at its source. -/
inductive Sent where
  /-- it has failed at once, or its target has answered at once -/
  | now (s : State) (r : Except Cause (List Byte))
  /-- the packet is on its way -/
  | away (s : State)
  /-- the pair is full -/
  | full

/-- The answer of this package's own ingress (R378). -/
def State.ownServe (s : State) (rvi : Nat) (body : Payload) : State × Except Cause (List Byte) :=
  match body with
  | .load off n => s.exportGet rvi off n
  | .store off bs =>
    match s.exportWrite rvi off bs with
    | (s1, none) => (s1, .ok [])
    | (s1, some c) => (s1, .error c)
  | .atomic op off d64 v c =>
    let n := if d64 then 8 else 4
    match s.exportAtomic rvi off n (atomOf' op) v.toNat c.toNat with
    | (s1, .ok old) => (s1, .ok (leBytes n old))
    | (s1, .error e) => (s1, .error e)
  | _ => (s, .error .memRange)

/-- Whether a request is acknowledged to its issuer before it counts as performed: a store, an atomic, a FADD (R380). -/
def payloadAcks : Payload → Bool
  | .store _ _ => true
  | .atomic _ _ _ _ _ => true
  | .fadd _ _ _ => true
  | _ => false

/-- Whether a request has a reply (R376, R381): a FADD has none. -/
def payloadAsks : Payload → Bool
  | .load _ _ => true
  | .store _ _ => true
  | .atomic _ _ _ _ _ => true
  | _ => false

/-- Sends a request to another package and keeps its record until it is answered (R381). -/
def State.issue (s : State) (dst vi cls : Nat) (o : Owner) (va : Word) (pa n : Nat) (body : Payload) : State :=
  let r : Req := ⟨(s.peer dst).nextSeq.toNat, o, va, pa, n, payloadAcks body, payloadAsks body, 0, []⟩
  let s1 := s.sendSeq dst vi cls body
  let q := s1.peer dst
  s1.setPeer { q with reqs := q.reqs ++ [r] }

/-- Issues a window access of agent `e` and entry `seq` of the strand of `me`, made at an address `va` (R378, R379, R381,
R383). -/
def State.requestAt (s : State) (va : Word) (dst cls : Nat) (e : Eng) (seq : Nat) (body : Payload) : Sent :=
  let vi := s.me.st.vi
  if !s.zEnabled vi then .now s (.error .memRange)
  else if dst = s.pkg then (let r := s.ownServe (s.rvi vi) body; .now r.1 r.2)
  else if (s.peer dst).lost then .now s (.error .fabLost)
  else if s.pairFull dst then .full
  else .away (s.issue dst (s.rvi vi) cls (.entry s.me.die s.me.clus e seq) va 0 0 body)

/-- `requestAt` of an agent that knows the address of its access from its entry. -/
def State.request (s : State) (dst cls : Nat) (e : Eng) (seq : Nat) (body : Payload) : Sent := s.requestAt 0 dst cls e seq body

/-- Whether somebody waits for an answer of another package. -/
def State.awaits (s : State) (p : Owner → Bool) : Bool := s.fab.peers.any fun q => q.reqs.any fun r => p r.owner

/-- Whether entry `seq` of agent `e` of the cluster of `me` waits for answers; any entry where none is named. -/
def State.awaitsEntry (s : State) (e : Eng) (seq : Option Nat) : Bool :=
  s.awaits fun o => match o with
    | .entry d c e' n => decide (d = s.me.die) && decide (c = s.me.clus) && decide (e' = e) && (match seq with
      | some k => decide (n = k)
      | none => true)
    | _ => false

/-! ### Reads whose bytes wait (R378, R381) -/

/-- The request of an owner that covers a window address. -/
def State.fetched (s : State) (o : Owner) (pa : Nat) : Option Req :=
  (s.peer (windowPkg pa)).reqs.find? fun r => decide (r.owner = o) && decide (r.pa ≤ pa) && decide (pa < r.pa + r.n)

/-- Drops what an owner has read. -/
def State.forget (s : State) (p : Owner → Bool) : State :=
  { s with fab := { s.fab with peers := s.fab.peers.map fun q => { q with reqs := q.reqs.filter fun r => !p r.owner } } }

/-- Sends the loads of an owner that have not been sent, one for each window line, and tells whether every answer has
come. A pair that is full makes it wait (R381); what this package serves itself, or can never be read, is no load. -/
def State.fetch (s : State) (vi : Nat) (o : Owner) (l : List Nat) : State × Bool :=
  match l with
  | [] => (s, true)
  | a :: r =>
    let dst := windowPkg a
    if !s.zEnabled vi || decide (dst = s.pkg) || (s.peer dst).lost then s.fetch vi o r
    else
      match s.fetched o a with
      | some q => let p := s.fetch vi o r; (p.1, p.2 && !q.reply)
      | none =>
        if s.pairFull dst then ((s.fetch vi o r).1, false)
        else (((s.issue dst (s.rvi vi) 0 o 0 a 64 (.load (windowOff a) 64)).fetch vi o r).1, false)

/-- What a reply says (R378); 4 stands for a destination that was lost meanwhile (R383). -/
def replyOf (err : Nat) (data : List Byte) : Except Cause (List Byte) :=
  match err with
  | 0 => .ok data
  | 1 => .error .memPoison
  | 2 => .error .memLink
  | 4 => .error .fabLost
  | _ => .error .memRange

/-- A byte that an owner has read of another package; none while it has not come. -/
def State.fetchedByte (s : State) (o : Owner) (pa : Nat) : Option (Except Cause Byte) :=
  match s.fetched o pa with
  | none => none
  | some q =>
    if q.reply then none
    else some (match replyOf q.err q.data with
      | .ok bs => .ok (bs.getD (pa - q.pa) 0)
      | .error c => .error c)

end Sys2Proof.Machine
end

