-- ==== Sys2Proof/Machine/Entries.lean ====
section
/-!
DEFINITION. The life of an L, S or K entry: what orders it (R79, R124 to R129), its token masks (R41 to R43, R188),
beginning, ending with and without tokens (R80, R52), and the clusters that a step outside `me` acts on.
-/

namespace Sys2Proof.Machine

/-! ### Classes and gates -/

/-- The classes of an access at a place: inside the scratchpad window or outside it (R125). -/
def Place.classes (write : Bool) : Place → List Class
  | .spad _ => if write then [.winWrite] else [.winRead]
  | .mem _ _ => [.outside]

/-- The classes of a list of places. -/
def placesClasses (write : Bool) (l : List Place) : List Class := l.flatMap (Place.classes write)

/-- A signed 32-bit half of a register, times a count. -/
def pitch (half : Nat) (k : Nat) : Word := BitVec.ofInt 64 (sextNat half 32 * k)

/-- The classes of accesses of `n` bytes at some addresses. -/
def addrClasses (write : Bool) (n : Nat) (l : List Word) : List Class :=
  (if l.any fun a => decide (spadBase < a.toNat + n) then [if write then .winWrite else .winRead] else []) ++
    (if l.any fun a => decide (a.toNat < spadBase) then [.outside] else [])

/-- The corners of a stream: where some element lies in a space, a corner does (R87). -/
def streamCorners (base c0 s0 c1 s1 : Word) : List Word :=
  if c0 = 0 ∨ c1 = 0 then []
  else [base, base + (c0 - 1) * s0, base + (c1 - 1) * s1, base + (c0 - 1) * s0 + (c1 - 1) * s1]

/-- The classes of one side of a copy: a run of `n` bytes, which may be none. -/
def runClasses (write : Bool) (a : Word) (n : Nat) : List Class := if n = 0 then [] else addrClasses write n [a]

/-- The classes of a copy command by its operands (R91, R94). The addresses that an index list names count in both spaces:
they are known once the list has been read. -/
def copyClasses (op : KOp) (gd ga gb gb1 : Word) : List Class :=
  let b := gb.toNat
  let n := b % 2 ^ 32
  match op with
  | .copy => runClasses false ga b ++ runClasses true gd b
  | .fill => runClasses true gd b
  | .copy2d =>
    let rows := b / 2 ^ 32
    if rows = 0 ∨ n = 0 then []
    else addrClasses false n [ga, ga + pitch gb1.toNat (rows - 1)] ++ addrClasses true n [gd, gd + pitch (gb1.toNat / 2 ^ 32) (rows - 1)]
  | .gather => runClasses false ga (8 * n) ++ [.winRead, .outside] ++ runClasses true gd (n * (b / 2 ^ 32))
  | .scatter => runClasses false gd (8 * n) ++ runClasses false ga (n * (b / 2 ^ 32)) ++ [.winWrite, .outside]
  | .pair =>
    let k := b % 65536 * (b / 65536 % 65536) * 2 ^ (b / 2 ^ 32)
    runClasses false ga k ++ runClasses true gd k ++ runClasses true gb1 k

/-- The classes of an entry, by the places of its accesses (R124, R125). -/
def Entry.classes (e : Entry) : List Class :=
  match e.cmd with
  | .load _ _ pl _ _ => .load :: pl.classes false
  | .ldx _ _ pl _ _ => .load :: pl.classes false
  | .qld _ sz b c0 s0 c1 s1 => .load :: addrClasses false (sizeBytes sz) (streamCorners b c0 s0 c1 s1)
  | .cinv => [.load]
  | .zlrs _ _ pls => .load :: placesClasses false pls
  | .store _ pl _ _ => .store :: pl.classes true
  | .zlsv _ pls _ => .store :: placesClasses true pls
  | .qst _ sz b c0 s0 c1 s1 => .store :: addrClasses true (sizeBytes sz) (streamCorners b c0 s0 c1 s1)
  | .atomic _ _ _ _ _ _ _ _ _ => [.atomic, .load, .outside]
  | .copy op _ gd ga gb gb1 _ => .kcmd :: copyClasses op gd ga gb gb1
  | .kpub _ => [.kcmd, .outside]
  | .kpubLogged => [.kcmd]
  | .marker => []
  | _ => [.store, .outside]

/-- Whether an entry's last store has been handed to another package and waits for the acknowledgement alone (R121). -/
def Entry.handed (e : Entry) : Bool :=
  decide (e.stage = .submitted) &&
    match e.cmd with
    | .store _ _ _ _ => true
    | .zlsv _ _ _ => decide (3 ≤ e.done)
    | .qst _ _ _ c0 _ c1 _ => decide (c0.toNat * c1.toNat ≤ e.done + 1)
    | _ => false

/-- The entries of the three queues. -/
def Strand.entries (t : Strand) : List Entry := t.lqu ++ t.squ ++ t.kqu

/-- Whether an entry of some class issued before `n` has not been performed; `sbar.m` takes a store that has been handed
to another package as performed (R125). -/
def Strand.outstanding (t : Strand) (cls : List Class) (n : Nat) : Bool :=
  t.entries.any fun e => decide (e.seq < n) && decide (e.stage ≠ .performed) && cls.any e.classes.contains &&
    !(decide (cls = [.outside]) && e.handed)

/-- Whether everything that a gate waits for has been performed. -/
def Strand.met (t : Strand) (g : Gate) : Bool := !t.outstanding g.waits g.seq

/-- Whether some gate holds an entry back. -/
def Strand.blocked (t : Strand) (e : Entry) : Bool :=
  t.gates.any fun g => decide (g.seq ≤ e.seq) && g.holds.any e.classes.contains && !t.met g

/-- Gates that are met go; an acquire among them drops the shared lines (R128, R129). -/
def State.passGates (s : State) : State :=
  let t := s.me.st
  let inv := t.gates.any fun g => t.met g && g.inval
  let s1 := s.updSt fun t => { t with gates := t.gates.filter fun g => !t.met g }
  if inv then { s1 with me := s1.me.l1DropState .shared } else s1

/-- Adds a gate. -/
def Strand.gate (t : Strand) (g : Gate) : Strand := { t with gates := t.gates ++ [g] }

/-- The classes that order the whole access side. -/
def allAccess : List Class := [.load, .store, .atomic, .kcmd]

/-- R129: the gate that an entry of release order waits behind. -/
def releaseGate (seq : Nat) : Gate := ⟨seq, allAccess, [.store, .atomic], false⟩

/-- R129: the gate that an acquire atomic leaves for later entries. -/
def acquireGate (seq : Nat) : Gate := ⟨seq + 1, [.atomic], allAccess, false⟩

/-- Whether a K entry counts as a copy command (R96, R137). -/
def Cmd.counted : Cmd → Bool
  | .copy _ _ _ _ _ _ _ => true
  | .kpub _ => true
  | .kpubLogged => true
  | _ => false

/-! ### Queues by engine -/

/-- The queue of an access-side engine. -/
def Strand.queue (t : Strand) (e : Eng) : List Entry :=
  match e with
  | .l => t.lqu
  | .sq => t.squ
  | .k => t.kqu
  | _ => []

/-- Replaces the queue of an access-side engine. -/
def Strand.setQueue (t : Strand) (e : Eng) (q : List Entry) : Strand :=
  match e with
  | .l => { t with lqu := q }
  | .sq => { t with squ := q }
  | .k => { t with kqu := q }
  | _ => t

/-- The number of an engine among the engine watchdogs. -/
def engIdx (e : Eng) : Fin 5 :=
  match e with
  | .sq => 1
  | .v => 2
  | .m => 3
  | .k => 4
  | _ => 0

/-- An engine's begun entry makes progress: its watchdog starts again from zero (R359). -/
def Strand.progress (t : Strand) (e : Eng) : Strand := { t with wdE := t.wdE.set (engIdx e).val 0 (engIdx e).isLt }

/-- Changes the head entry of a queue. -/
def Strand.updHead (t : Strand) (e : Eng) (f : Entry → Entry) : Strand :=
  match t.queue e with
  | h :: r => (t.setQueue e (f h :: r)).progress e
  | [] => t

/-- `updHead` on the strand of `me`. -/
def State.updHead (s : State) (e : Eng) (f : Entry → Entry) : State := s.updSt fun t => t.updHead e f

/-- A tag or cell stall of the store FIFO has ended (R160). -/
def Strand.unstallTag (t : Strand) (e : Eng) : Strand := if e = .sq then { t with wdTag := 0 } else t

/-- The head entry has been performed. -/
def State.performed (s : State) (e : Eng) : State :=
  s.updSt fun t => (t.updHead e fun h => { h with stage := .performed }).unstallTag e

/-- The head entry leaves its queue. -/
def Strand.popHead (t : Strand) (e : Eng) : Strand := t.setQueue e ((t.queue e).drop 1)

/-- KS after a command has ended with a status (R95, R99). -/
def Ctl.copyEnded (c : Ctl) (code seq : Nat) : Ctl :=
  let c1 := { c with ksOut := c.ksOut - 1 }
  if code = 0 then c1
  else if c.ksErr = 0 then { c1 with ksErr := BitVec.ofNat 8 code, ksErrSeq := BitVec.ofNat 32 seq }
  else { c1 with ksMore := true }

/-- Sequence number of the command that the copy engine holds: the oldest of those outstanding (R96). -/
def Ctl.headSeq (c : Ctl) : Nat := (c.copySeq - c.ksOut.setWidth 32).toNat

/-- The head entry ends without its tokens: an error of R52, or a fault that leaves a command unstarted (R76). -/
def Strand.drop (t : Strand) (e : Eng) : Strand :=
  let t1 := t.popHead e
  if e = .k then { t1 with ctl := t1.ctl.copyEnded 0 t1.ctl.headSeq } else t1

/-- R51, R52: the head entry of an engine records ENG_ENC and has no effect; `field` is the lowest bit of the offending
field, or 0xFFFF for a register value (R346), and `va` the data address that offends, if one does (R347). -/
def Strand.engEnc (t : Strand) (e : Eng) (h : Entry) (field : BitVec 16) (va : Word := 0) : Strand :=
  (t.record { TrapRec.defer .engEnc e h.waddr with info16 := field, addr := va }).drop e

/-! ### Token masks (R41 to R43, R188) -/

/-- The pop bits that an engine may name, and the push bits. -/
def tokenMasks (e : Eng) : Nat × Nat :=
  match e with
  | .l => (2 ^ 8 + 2 ^ 10, 2 ^ 0 + 2 ^ 1)
  | .sq => (2 ^ 2 + 2 ^ 5, 2 ^ 8 + 2 ^ 9)
  | .k => (2 ^ 4 + 2 ^ 7 + 2 ^ 9 + 2 ^ 15, 2 ^ 10 + 2 ^ 11 + 2 ^ 12)
  | _ => (0, 0)

/-- Queues that a V-cluster does not have (R188). -/
def mQueues : Nat := 2 ^ 1 + 2 ^ 3 + 2 ^ 5 + 2 ^ 6 + 2 ^ 7 + 2 ^ 12 + 2 ^ 14

/-- The pop mask of a tk register (R22). -/
def popMask (tk : Word) : Nat := tk.toNat % 2 ^ 16

/-- The push mask of a tk register (R22). -/
def pushMask (tk : Word) : Nat := tk.toNat / 2 ^ 16 % 2 ^ 16

/-- R43, R188: whether an engine accepts a tk register. -/
def tkOk (e : Eng) (vkind : Bool) (tk : Word) : Bool :=
  let m := tokenMasks e
  decide (tk.toNat < 2 ^ 32) && decide (Nat.land (popMask tk) m.1 = popMask tk) &&
    decide (Nat.land (pushMask tk) m.2 = pushMask tk) &&
    !(vkind && decide (Nat.land (popMask tk + pushMask tk * 65536) (mQueues + mQueues * 65536) ≠ 0))

/-! ### Beginning and ending -/

/-- R87: an engine whose stream ended in a fault takes no entry until that trap has been delivered. -/
def Strand.halted (t : Strand) (e : Eng) : Bool :=
  decide (e ≠ .k) && t.traps.any fun r => decide (r.eng = e) &&
    [Cause.trNc, .trRsvd, .trSpad, .trInvalid, .trFormat, .tagRemote, .tagType, .trProt].contains r.cause

/-- Whether a begun stream waits for room in its load queue, or for bytes of its store queue (R87). -/
def Strand.streamWaits (t : Strand) (e : Entry) : Bool :=
  decide (e.stage = .begun) &&
    match e.cmd with
    | .qld q sz _ _ _ _ _ => decide (Config.queueBytes < (t.q.lq.get ⟨q.toNat, q.isLt⟩).length + sizeBytes sz)
    | .qst q sz _ _ _ _ _ => decide ((t.q.sq.get ⟨q.toNat, q.isLt⟩).length < sizeBytes sz)
    | _ => false

/-- Whether a begun entry of the strand waits for a token or for queue bytes (R357). -/
def Strand.starved (t : Strand) : Bool :=
  (t.entries.any t.streamWaits) || (t.vrun.isSome && t.vdry) || (t.mrun.isSome && t.mdry)

/-- Whether the engines of `me` take entries: the stall wire is down (R355), no cluster error has stopped issue (R398), and
in a strand that leaves its cluster a begun entry waits for a token or for queue bytes (R357). -/
def State.flows (s : State) : Bool :=
  !s.stallWires.contains s.me.st.node && s.me.st.halt.isEmpty && (decide (s.me.status ≠ .leaving) || s.me.st.starved)

/-- R86: the register rules of a stream command. -/
def streamOk (sz : Size) (base c0 s0 c1 s1 : Word) : Bool :=
  let n := sizeBytes sz
  decide (c0.toNat ≤ 65536) && decide (c1.toNat ≤ 65536) && decide (s0.toNat % n = 0) && decide (s1.toNat % n = 0) &&
    decide (base.toNat % n = 0)

/-- The register rules that a command carries besides R43. -/
def Cmd.regsOk : Cmd → Bool
  | .qld _ sz b c0 s0 c1 s1 => streamOk sz b c0 s0 c1 s1
  | .qst _ sz b c0 s0 c1 s1 => streamOk sz b c0 s0 c1 s1
  | _ => true

/-- The base of a stream command where it is misaligned: the data address that offends (R86, R347). -/
def Cmd.badAddr : Cmd → Word
  | .qld _ sz b _ _ _ _ => if b.toNat % sizeBytes sz = 0 then 0 else b
  | .qst _ sz b _ _ _ _ => if b.toNat % sizeBytes sz = 0 then 0 else b
  | _ => 0

/-- The owner of the window lines that the copy engine of a cluster reads. -/
def State.kOwner (s : State) : Owner := .fetch .k s.me.key

/-- The head entry of an engine begins: its rules are checked, its tokens popped in one step (R43, R189). A
marker has nothing to perform. A token register that breaks R43 is refused before the pops; log entry 86. While a copy that
a rollback left running is under way, the engine takes no command (R96, R398). -/
def State.beginEntry (s : State) (e : Eng) : State :=
  let s1 := s.passGates
  match s1.me.st.queue e with
  | [] => s1
  | h :: _ =>
    if h.stage ≠ .queued ∨ !s1.flows ∨ s1.me.st.halted e ∨ s1.me.st.blocked h ∨ (e = .k ∧ s1.orphan.isSome) then s1
    else if !tkOk e s1.me.st.vkind h.tk || !h.cmd.regsOk then s1.updSt fun t => t.engEnc e h 0xFFFF h.cmd.badAddr
    else if s1.ctl.tokensReady (popMask h.tk) then
      let next := if h.cmd = .marker then Stage.performed else .begun
      s1.updSt fun t => { t with ctl := t.ctl.popTokens (popMask h.tk) }.updHead e fun h => { h with stage := next }
    else s1

/-- The head entry of an engine completes: it pushes its tokens, with TOK_OVF where a count would pass its limit
(R80, R189), and leaves. -/
def State.completeEntry (s : State) (e : Eng) : State :=
  match s.me.st.queue e with
  | [] => s
  | h :: _ =>
    if h.stage = .performed then
      s.updSt fun t =>
        let t1 := if h.cmd.counted then { t with ctl := t.ctl.copyEnded 0 0 } else t
        (t1.pushFrom e h.waddr 0 (pushMask h.tk)).popHead e
    else s

/-- The head entry of an engine while its accesses run. -/
def Strand.running (t : Strand) (e : Eng) : Option Entry :=
  match t.queue e with
  | h :: _ => if h.stage = .begun then some h else none
  | [] => none

/-- A translation fault of an engine (R76, R87): it is held while the front end may service it; otherwise the entry is
recorded as a deferred trap and leaves without its tokens. -/
def State.faultEntry (s : State) (e : Eng) (h : Entry) (c : Cause) (va : Word) (write : Bool) (tag : Option (BitVec 20)) : State :=
  if serviceable c ∧ !s.me.st.declined e va then s.hold c va write e
  else s.updSt fun t =>
    ((t.release e).record { TrapRec.defer c e h.waddr with addr := va, aux := faultAux c tag }).drop e

/-- Records that a home refused an access of the entry (R117, R145, R167). -/
def State.refused (s : State) (c : Cause) (e : Eng) (h : Entry) (va : Word) (tag : BitVec 20) : State :=
  s.updSt fun t => t.record (accessTrap c e h.waddr va tag)

/-! ### Acting on another cluster -/

/-- Applies a step to one cluster of the package, as if it stood in `me`. -/
def State.onPeer (s : State) (k : Nat) (f : State → State) : State :=
  match s.peers[k]? with
  | some c =>
    let s1 := f { s with me := c, peers := setAt s.peers k s.me }
    { s1 with me := s1.peers.getD k s.me, peers := setAt s1.peers k s1.me }
  | none => s

/-- Applies a step to cluster `clus` of die `die`. -/
def State.onCluster (s : State) (die clus : Nat) (f : State → State) : State :=
  if s.me.die = die ∧ s.me.clus = clus then f s
  else
    match s.peers.findIdx? fun c => decide (c.die = die) && decide (c.clus = clus) with
    | some k => s.onPeer k f
    | none => s

/-- Applies a step to the cluster that runs strand `idx` of a node. -/
def State.onStrand (s : State) (node idx : Nat) (f : State → State) : State :=
  let is := fun (c : Cluster) => decide (c.st.node = node) && decide (c.st.idx = idx) && decide (c.status ≠ .idle)
  if is s.me then f s
  else
    match s.peers.findIdx? is with
    | some k => s.onPeer k f
    | none => s

/-- Changes every cluster. -/
def State.mapClusters (s : State) (f : Cluster → Cluster) : State := { s with me := f s.me, peers := s.peers.map f }

/-- Every cluster that the state lists. -/
def State.clusters (s : State) : List Cluster := s.me :: s.peers

end Sys2Proof.Machine
end

