-- ==== Sys2Proof/Machine/LoadStore.lean ====
section
/-!
DEFINITION. Scalar loads and stores (R83, R84), non-temporal stores (R132), loop sets in memory (R218), and the steps in
which the access unit performs them: LOAD_PERFORMED, NT_BUFFER_WRITE and STREAM_ELEMENT.
-/

namespace Sys2Proof.Machine

/-! ### Issue -/

/-- Issues a load of `sz` at `ea` (R83). -/
def issueLoad (d : Reg) (ea : Word) (sz : Size) (const : Bool) (s : State) : Out :=
  accessing ea (sizeBytes sz) false none s fun pl s => issueL (.load d ea pl sz const) d s

/-- Issues a store of the low bytes of `v` at `ea` (R83). -/
def issueStore (ea : Word) (sz : Size) (v : Word) (s : State) : Out :=
  accessing ea (sizeBytes sz) true none s fun pl s => issueS (.store ea pl sz v) 0 0 s

/-- `ld.sz gD, [gA+off]`. -/
def execLdOffset (g : Guard) (d a : Reg) (sz : Size) (off : BitVec 8) (s : State) : Out :=
  guarded g s fun s => reading [a] s fun s => issueLoad d (eaOffset (s.getG a) off sz) sz false s

/-- `ld.sz gD, [gA+gB]`. -/
def execLdIndex (g : Guard) (d a : Reg) (sz : Size) (b : Reg) (s : State) : Out :=
  guarded g s fun s => reading [a, b] s fun s => issueLoad d (eaIndex (s.getG a) (s.getG b)) sz false s

/-- `ldc.sz gD, [gA+off]`: the constant path where the page has one (R84). -/
def execLdcOffset (g : Guard) (d a : Reg) (sz : Size) (off : BitVec 8) (s : State) : Out :=
  guarded g s fun s => reading [a] s fun s => issueLoad d (eaOffset (s.getG a) off sz) sz true s

/-- `ldc.sz gD, [gA+gB]`. -/
def execLdcIndex (g : Guard) (d a : Reg) (sz : Size) (b : Reg) (s : State) : Out :=
  guarded g s fun s => reading [a, b] s fun s => issueLoad d (eaIndex (s.getG a) (s.getG b)) sz true s

/-- `st.sz gD, [gA+off]`: gD is the data register. -/
def execStOffset (g : Guard) (d a : Reg) (sz : Size) (off : BitVec 8) (s : State) : Out :=
  guarded g s fun s => reading [a, d] s fun s => issueStore (eaOffset (s.getG a) off sz) sz (s.getG d) s

/-- `st.sz gD, [gA+gB]`. -/
def execStIndex (g : Guard) (d a : Reg) (sz : Size) (b : Reg) (s : State) : Out :=
  guarded g s fun s => reading [a, b, d] s fun s => issueStore (eaIndex (s.getG a) (s.getG b)) sz (s.getG d) s

/-! ### Non-temporal buffers (R132) -/

/-- Bytes put into a buffer from an offset on. -/
def putBytes (m : Sp (Byte × Bool)) (off : Nat) (bs : List Byte) : Sp (Byte × Bool) :=
  match bs with
  | [] => m
  | b :: r => putBytes (Sp.set m off (b, true) (0, false)) (off + 1) r

/-- Whether bytes of a line still join a buffer: while it has not been written, and while some of its bytes wait for room
at their pair, so that two stnt to one location go in program order (R132, R381). -/
def NtBuf.takes (b : NtBuf) (line : Nat) : Bool := decide (b.line = line) && (!b.sent || !b.bytes.isEmpty)

/-- The open buffer of a line. -/
def Strand.ntOpen (t : Strand) (line : Nat) : Option NtBuf := t.nt.find? fun b => b.takes line

/-- R132: combines the bytes of a stnt in the buffer of their line. -/
def Strand.ntPut (t : Strand) (ea : Word) (a type : Nat) (bs : List Byte) : Strand :=
  let line := a / 64
  let join := fun (b : NtBuf) =>
    if b.takes line then { b with bytes := putBytes b.bytes (a % 64) bs, last := t.seq } else b
  match t.ntOpen line with
  | some _ => { t with seq := t.seq + 1, nt := t.nt.map join }
  | none =>
    let b : NtBuf := ⟨line, type, ea, t.ctl.ctag, putBytes [] (a % 64) bs, t.seq, t.seq, t.ctl.pc, false⟩
    { t with seq := t.seq + 1, nt := t.nt ++ [b] }

/-- Issues a stnt (R84): outside the store FIFO where the page's type has non-temporal stores, else as st. With eight
buffers in use it waits until one has been written. -/
def issueStnt (ea : Word) (sz : Size) (v : Word) (s : State) : Out :=
  accessing ea (sizeBytes sz) true none s fun pl s =>
    match pl with
    | .spad _ => issueS (.store ea pl sz v) 0 0 s
    | .mem pa type =>
      if type = tPub ∨ type = tTw ∨ type = tSync then issueS (.store ea pl sz v) 0 0 s
      else if (s.me.st.ntOpen (canon pa / 64)).isNone ∧ 8 ≤ s.me.st.nt.length then
        wait (s.updSt fun t => { t with ntWait := true })
      else done (s.updSt fun t => t.ntPut ea (canon pa) type (leBytes (sizeBytes sz) v.toNat))

/-- `stnt.sz gD, [gA+off]`. -/
def execStntOffset (g : Guard) (d a : Reg) (sz : Size) (off : BitVec 8) (s : State) : Out :=
  guarded g s fun s => reading [a, d] s fun s => issueStnt (eaOffset (s.getG a) off sz) sz (s.getG d) s

/-- `stnt.sz gD, [gA+gB]`. -/
def execStntIndex (g : Guard) (d a : Reg) (sz : Size) (b : Reg) (s : State) : Out :=
  guarded g s fun s => reading [a, b, d] s fun s => issueStnt (eaIndex (s.getG a) (s.getG b)) sz (s.getG d) s

/-- Whether the oldest S entry is a DRAINNT that waits for a buffer, or a KPUB, a DONE or a trap's switch asks for it. -/
def State.drains (s : State) (b : NtBuf) : Bool :=
  let t := s.me.st
  (match t.squ with
   | h :: _ => (match h.cmd with
     | .drainnt _ => decide (h.stage = .begun) && decide (b.first < h.seq)
     | _ => false)
   | [] => false) ||
  (match t.kqu with
   | h :: _ => (match h.cmd with
     | .kpub _ => decide (h.stage = .begun) && decide (b.first < h.seq)
     | _ => false)
   | [] => false) || t.finish || decide (s.me.status = .leaving)

/-- R132: whether a buffer writes now: its line is whole, something drains it, or a stnt that waits for a buffer needs the
oldest. A buffer that has sent some of its bytes to another package goes on with the rest. -/
def State.ntDue (s : State) (k : Nat) (b : NtBuf) : Bool :=
  if b.sent then !b.bytes.isEmpty
  else decide (b.bytes.length = 64) || s.drains b || (decide (k = 0) && decide (8 ≤ s.me.st.nt.length) && s.me.st.ntWait)

/-- Maximal runs of consecutive bytes of a table, as offset and bytes. -/
def byteRuns (m : Sp (Byte × Bool)) : List (Nat × List Byte) :=
  m.foldr (fun x acc => match acc with
    | (o, bs) :: r => if o = x.1 + 1 then (x.1, x.2.1 :: bs) :: r else (x.1, [x.2.1]) :: acc
    | [] => [(x.1, [x.2.1])]) []

/-- Writes runs of one line at its home in one step. -/
def State.writeRuns (s : State) (pa type : Nat) (rs : List (Nat × List Byte)) : State :=
  rs.foldl (fun s r => s.homeWrite (pa + r.1) type 0 r.2) s

/-- A line's bytes with the bytes of a buffer over them. -/
def overRuns (l : List Byte) (rs : List (Nat × List Byte)) : List Byte := rs.foldl (fun l r => overlay l r.1 r.2) l

/-- Removes buffer `k`. -/
def State.dropNt (s : State) (k : Nat) : State := s.updSt fun t => { t with nt := t.nt.eraseIdx k }

/-- The bytes of a buffer go out to another package, one store for each run, until the pair is full (R381); a store that
is refused at once is recorded. -/
def State.ntSend (s : State) (b : NtBuf) (rs : List (Nat × List Byte)) : State × List (Nat × List Byte) :=
  match rs with
  | [] => (s, [])
  | x :: r =>
    match s.request (windowPkg (64 * b.line)) 0 .c b.first (.store (windowOff (64 * b.line) + x.1) x.2) with
    | .now s1 (.ok _) => s1.ntSend b r
    | .now s1 (.error c) => (s1.updSt fun t => t.record (accessTrap c .sq b.waddr b.va 0)).ntSend b r
    | .away s1 => s1.ntSend b r
    | .full => (s, x :: r)

/-- Whether buffer number `first` of the strand of `me` waits for answers of other packages. -/
def State.ntReplies (s : State) (first : Nat) : Bool :=
  s.awaitsEntry .c (some first)

/-- A buffer that has sent what it could: it stays for the rest and for the answers (R133). -/
def State.ntSent (s : State) (k : Nat) (b : NtBuf) (left : List (Nat × List Byte)) : State :=
  if left.isEmpty && !s.ntReplies b.first then s.dropNt k
  else
    let bytes := left.foldl (fun m r => putBytes m r.1 r.2) []
    s.updSt fun t => { t with nt := t.nt.set k { b with bytes := bytes, sent := true } }

/-- R84, R132: a buffer writes its line in one write. A line that the L1 holds is updated, written and dropped; a
private-dirty one goes home whole. -/
def State.ntWrite (s : State) (k : Nat) (b : NtBuf) : State :=
  let rs := byteRuns b.bytes
  let pa := 64 * b.line
  if b.type = tSys then
    let p := s.ntSend b rs
    p.1.ntSent k b p.2
  else
    let dirty := match s.me.l1Line b.line with
      | some l => decide (l.st = .privateDirty)
      | none => false
    match s.me.l1Line b.line, dirty with
    | some l, true => ({ (s.homeWrite pa b.type 0 (overRuns l.data rs)) with me := s.me.l1Drop b.line }).dropNt k
    | _, _ =>
      let s0 := { s with me := if cached b.type then s.me.l1Drop b.line else s.me }
      match s0.homeErr s.me.st.vi pa b.type b.bytes.length 0 true with
      | some c => (s0.updSt fun t => t.record (accessTrap c .sq b.waddr b.va 0)).dropNt k
      | none => (s0.writeRuns pa b.type rs).dropNt k

/-- NT_BUFFER_WRITE of buffer `b` (R132). -/
def execNtBufferWrite (b : Nat) (s : State) : Out :=
  match s.me.st.nt[b]? with
  | some x => if s.ntDue b x then .next (s.ntWrite b x) else .next s
  | none => .next s

/-! ### Loop sets in memory (R218) -/

/-- The four doublewords of a loop-set record. -/
def zlRecord (z : LoopSet) (sp : BitVec 8) : List Word :=
  [z.zls, z.zle, BitVec.ofNat 64 (z.zlc.toNat + z.stages.toNat * 2 ^ 32 + z.armed.toNat * 2 ^ 35 +
    (if z.staged then sp.toNat else 0) * 2 ^ 40), 0]

/-- `zlsv zlL, [gA]`: an S entry of four stores. -/
def execZlsv (g : Guard) (l : BitVec 2) (a : Reg) (s : State) : Out :=
  guarded g s fun s => reading [a] s fun s =>
    accessingAll (s.getG a) 4 true [] s fun pls s =>
      issueS (.zlsv (s.getG a) pls (zlRecord (s.ctl.getZL (zlIdx l)) s.ctl.sp)) 0 0 s

/-- R218: whether a record's reserved bits and addresses are in order. -/
def zlRecordOk (ws : List Word) : Bool :=
  let c := (ws.getD 2 0).toNat
  loopAddrOk (ws.getD 0 0) && loopAddrOk (ws.getD 1 0) && decide (c / 2 ^ 36 % 16 = 0) && decide (c / 2 ^ 48 = 0) &&
    decide (ws.getD 3 0 = 0)

/-- The set that a record describes. -/
def zlOfRecord (ws : List Word) : LoopSet :=
  let c := (ws.getD 2 0).toNat
  { zls := ws.getD 0 0, zle := ws.getD 1 0, zlc := BitVec.ofNat 32 c, stages := BitVec.ofNat 3 (c / 2 ^ 32),
    armed := decide (c / 2 ^ 35 % 2 = 1), frozen := false }

/-- R218: installs a loaded set. While a user handler runs an armed set is installed frozen (R350). -/
def Ctl.zlInstall (c : Ctl) (l : Fin 4) (ws : List Word) : Ctl :=
  let z := zlOfRecord ws
  let c1 := c.disarm l
  if z.armed then
    let c2 := c1.arm l z
    let c3 := if c.trp.h then c2.setZL l { z with frozen := true } else c2
    if z.stages ≠ 0 then { c3 with sp := stageBits (BitVec.ofNat 8 ((ws.getD 2 0).toNat / 2 ^ 40)) z.stages } else c3
  else c1.setZL l z

/-- The record of a ZLRS that waits, once its loads have been performed. -/
def Strand.zlLoaded (t : Strand) : Option (List Word) :=
  match t.zlrec with
  | some (_, ws) => if ws.length = 4 then some ws else none
  | none => none

/-- Issues the loads of a ZLRS as one L entry. -/
def issueZlrs (l : BitVec 2) (ea : Word) (s : State) : Out :=
  accessingAll ea 4 false [] s fun pls s =>
    if queueFull s.me.st.lqu then wait s
    else .next (s.updSt fun t =>
      { t with lqu := t.lqu ++ [t.entry 0 (.zlrs l ea pls)], zlrec := some (t.seq, []), seq := t.seq + 1 }).stalled

/-- `zlrs zlL, [gA]`: an L entry of four loads; the word waits for them, then checks and installs the record. A trap at
the waiting word drops it, so that what is loaded then belongs to no word. -/
def execZlrs (g : Guard) (l : BitVec 2) (a : Reg) (s : State) : Out :=
  guarded g s fun s => reading [a] s fun s =>
    match s.me.st.zlrec, s.me.st.zlLoaded with
    | none, _ => issueZlrs l (s.getG a) s
    | some _, none => wait s
    | some _, some ws =>
      let k := zlIdx l
      let s1 := s.updSt fun t => { t with zlrec := none }
      if !zlRecordOk ws then trap .zlArg s1
      else if (zlOfRecord ws).staged ∧ s.ctl.stagedOther k then trap .zlStage s1
      else done (s1.updCtl fun c => c.zlInstall k ws)

/-! ### One access of an entry -/

/-- What becomes of an access that an entry makes. -/
inductive Acc where
  /-- performed, or refused by its home -/
  | now (s : State) (r : Except Cause (List Byte))
  /-- a request to another package is in flight -/
  | away (s : State)
  /-- it waits: for a cell (R165), for a lock (R97), or for the pair's retry buffer (R381) -/
  | stay

/-- One access of the head entry of engine `e`: a read of `n` bytes, or a write. A FIFO has one request to another package in
flight, log entry 92. -/
def State.access (s : State) (e : Eng) (h : Entry) (pl : Place) (n : Nat) (const : Bool) (tag : BitVec 20)
    (w : Option (List Byte)) : Acc :=
  match pl, w with
  | .mem pa 3, none =>
    (match s.request (windowPkg pa) 0 e h.seq (.load (windowOff pa) n) with
     | .now s1 r => .now s1 r
     | .away s1 => .away (s1.updHead e fun h => { h with stage := .submitted })
     | .full => .stay)
  | .mem pa 3, some bs =>
    (match s.request (windowPkg pa) 0 e h.seq (.store (windowOff pa) bs) with
     | .now s1 r => .now s1 r
     | .away s1 => .away (s1.updHead e fun h => { h with stage := .submitted })
     | .full => .stay)
  | .spad off, none =>
    (match s.lockWindow [off / 16384] with
     | some s1 => let r := s1.performRead pl n const tag; .now r.1 r.2
     | none => .stay)
  | pl, none => (let r := s.performRead pl n const tag; .now r.1 r.2)
  | pl, some bs =>
    let stalls := match pl with
      | .mem pa type => s.cellStalls pa type tag && !s.staleAt s.me.st.vi tag (homeDie (canon pa))
      | .spad _ => false
    if stalls then .stay
    else
      match s.performWrite pl tag bs with
      | (s1, none) => .now s1 (.ok [])
      | (s1, some c) => .now s1 (.error c)

/-- The bytes of a read, zeros where the home refused it. -/
def readBytes (n : Nat) (r : Except Cause (List Byte)) : List Byte :=
  match r with
  | .ok bs => bs
  | .error _ => List.replicate n 0

/-- R117: a refused access leaves a deferred record. -/
def State.noted (s : State) (e : Eng) (h : Entry) (va : Word) (tag : BitVec 20) (r : Except Cause (List Byte)) : State :=
  match r with
  | .ok _ => s
  | .error c => s.refused c e h va tag

/-- The record of a refused access, which the log keeps for a replay (R397, R398). -/
def Entry.refusal (h : Entry) (e : Eng) (va : Word) (tag : BitVec 20) (r : Except Cause (List Byte)) : Option TrapRec :=
  match r with
  | .ok _ => none
  | .error c => some (accessTrap c e h.waddr va tag)

/-- The head entry has made one more access; at `total` it has been performed. -/
def State.advance (s : State) (e : Eng) (total : Nat) : State :=
  s.updSt fun t => (t.updHead e fun h =>
    { h with done := h.done + 1, stage := if h.done + 1 < total then .begun else .performed }).unstallTag e

/-- The address of element `k` of a stream (R87). -/
def streamAddr (base c0 s0 s1 : Word) (k : Nat) : Word :=
  base + BitVec.ofNat 64 (k / c0.toNat) * s1 + BitVec.ofNat 64 (k % c0.toNat) * s0

/-- Bytes read at an address under a tag, appended to a load queue. -/
def Queues.append (q : Queues) (k : BitVec 2) (va : Word) (tag : BitVec 20) (bs : List Byte) : Queues :=
  let from' := (List.range bs.length).map fun i => (va + BitVec.ofNat 64 i, tag)
  { q with lq := q.lq.set k.toNat (q.lq.get ⟨k.toNat, k.isLt⟩ ++ bs) k.isLt,
           src := q.src.set k.toNat (q.src.get ⟨k.toNat, k.isLt⟩ ++ from') k.isLt }

/-- The result of an access reaches its entry (R80, R83, R87, R144): a load binds, a stream element joins its queue. -/
def State.accDone (s : State) (e : Eng) (h : Entry) (r : Except Cause (List Byte)) : State :=
  match h.cmd with
  | .load d ea _ sz _ =>
    ((s.noted e h ea h.tag r).updSt fun t => t.bind d h.seq (BitVec.ofNat 64 (leNat (readBytes (sizeBytes sz) r)))).performed e
  | .ldx d ea _ sz tag =>
    ((s.noted e h ea tag r).updSt fun t => t.bind d h.seq (BitVec.ofNat 64 (leNat (readBytes (sizeBytes sz) r)))).performed e
  | .zlrs _ ea _ =>
    ((s.noted e h (ea + BitVec.ofNat 64 (8 * h.done)) h.tag r).updSt fun t =>
      { t with zlrec := t.zlrec.map fun z =>
          if z.1 = h.seq then (z.1, z.2 ++ [BitVec.ofNat 64 (leNat (readBytes 8 r))]) else z }).advance e 4
  | .store ea _ _ _ => (s.noted e h ea h.tag r).performed e
  | .zlsv ea _ _ => (s.noted e h (ea + BitVec.ofNat 64 (8 * h.done)) h.tag r).advance e 4
  | .qld q sz base c0 s0 c1 s1 =>
    ((s.noted e h (streamAddr base c0 s0 s1 h.done) h.tag r).updSt fun t =>
      { t with q := t.q.append q (streamAddr base c0 s0 s1 h.done) h.tag (readBytes (sizeBytes sz) r), vdry := false, mdry := false }).advance e (c0.toNat * c1.toNat)
  | .qst _ _ base c0 s0 c1 s1 => (s.noted e h (streamAddr base c0 s0 s1 h.done) h.tag r).advance e (c0.toNat * c1.toNat)
  | .atomic _ d ea _ d64 _ _ sc ord =>
    let n := if d64 then 8 else 4
    let s1 := (s.noted e h ea h.tag r).updSt fun t =>
      (t.bind d h.seq (BitVec.ofNat 64 (leNat (readBytes n r)))).logged h.waddr (some (d, BitVec.ofNat 64 (leNat (readBytes n r))))
        (h.refusal e ea h.tag r)
    if ord = .acq ∨ ord = .ar then (s1.performed e).acquired sc else s1.performed e
  | .fadd _ _ _ => ((s.noted e h 0 0 r).updSt fun t => t.logged h.waddr none (h.refusal e 0 0 r)).performed e
  | _ => s

/-- An access of the head entry, carried to its result when it is at once there. -/
def State.accessStep (s : State) (e : Eng) (h : Entry) (pl : Place) (n : Nat) (const : Bool) (tag : BitVec 20)
    (w : Option (List Byte)) : State :=
  match s.access e h pl n const tag w with
  | .now s1 r => s1.accDone e h r
  | .away s1 => s1
  | .stay => s

/-! ### The steps of the access unit -/

/-- LOAD_PERFORMED: the head of the load FIFO performs its access (R79, R80). -/
def execLoadPerformed (s : State) : Out :=
  match s.me.st.running .l with
  | some h =>
    (match h.cmd with
     | .load _ _ pl sz const => .next (s.accessStep .l h pl (sizeBytes sz) const h.tag none)
     | .ldx _ _ pl sz tag => .next (s.accessStep .l h pl (sizeBytes sz) false tag none)
     | .cinv => .next ({ s with me := s.me.l1DropState .constant }.performed .l)
     | .zlrs _ _ pls => .next (s.accessStep .l h (pls.getD h.done (.spad 0)) 8 false h.tag none)
     | .marker => .next (s.performed .l)
     | _ => .next s)
  | none => .next s

/-! ### Streams (R85 to R87) -/

/-- Reads a descriptor group (R86). -/
def groupReg (eg : BitVec 2) (k : Nat) : BitVec 4 := BitVec.ofNat 4 (4 * eg.toNat + k)

/-- `qld.sz lqN, [gA], ebG, tk=gT`. -/
def execQld (g : Guard) (o : StreamOps) (s : State) : Out :=
  guarded g s fun s => reading [o.a, o.t] s fun s =>
    let eb := fun k => s.ctl.getEB (groupReg o.eg k)
    issueLs (.qld o.q o.sz (s.getG o.a) (eb 0) (eb 1) (eb 2) (eb 3)) (s.getG o.t) s

/-- `qst.sz sqN, [gA], ebG, tk=gT`. -/
def execQst (g : Guard) (o : StreamOps) (s : State) : Out :=
  guarded g s fun s => reading [o.a, o.t] s fun s =>
    let eb := fun k => s.ctl.getEB (groupReg o.eg k)
    issueS (.qst o.q o.sz (s.getG o.a) (eb 0) (eb 1) (eb 2) (eb 3)) 0 (s.getG o.t) s

/-- Bytes at the head of a store queue. -/
def Queues.storeHead (q : Queues) (k : BitVec 2) (n : Nat) : List Byte := (q.sq.get ⟨k.toNat, k.isLt⟩).take n

/-- Takes bytes from the head of a store queue. -/
def Queues.storeTake (q : Queues) (k : BitVec 2) (n : Nat) : Queues :=
  { q with sq := q.sq.set k.toNat ((q.sq.get ⟨k.toNat, k.isLt⟩).drop n) k.isLt }

/-- One element of a QLD: it waits while the queue lacks room. -/
def State.qldElement (s : State) (h : Entry) (q : BitVec 2) (n : Nat) (va : Word) : State :=
  if s.heldNow .l || decide (Config.queueBytes < (s.me.st.q.lq.get ⟨q.toNat, q.isLt⟩).length + n) then s
  else
    match s.lookup va.toNat n false none with
    | (s1, .error c) => s1.faultEntry .l h c va false none
    | (s1, .ok pl) => (s1.updSt fun t => t.release .l).accessStep .l h pl n false h.tag none

/-- One element of a QST: it waits while the queue holds too few bytes; they are taken with the access. -/
def State.qstElement (s : State) (h : Entry) (q : BitVec 2) (n : Nat) (va : Word) : State :=
  if s.heldNow .sq || decide ((s.me.st.q.sq.get ⟨q.toNat, q.isLt⟩).length < n) then s
  else
    match s.lookup va.toNat n true none with
    | (s1, .error c) => s1.faultEntry .sq h c va true none
    | (s1, .ok pl) =>
      let s2 := s1.updSt fun t => t.release .sq
      match s2.access .sq h pl n false h.tag (some (s.me.st.q.storeHead q n)) with
      | .now s3 r => (s3.updSt fun t => { t with q := t.q.storeTake q n, vdry := false, mdry := false }).accDone .sq h r
      | .away s3 => s3.updSt fun t => { t with q := t.q.storeTake q n, vdry := false, mdry := false }
      | .stay => s

/-- STREAM_ELEMENT: one element of the stream at the head of its FIFO; an empty command has been performed (R87). -/
def execStreamElement (store : Bool) (s : State) : Out :=
  let e := if store then Eng.sq else Eng.l
  match s.me.st.running e with
  | some h =>
    (match h.cmd with
     | .qld q sz base c0 s0 c1 s1 =>
       if c0.toNat * c1.toNat ≤ h.done then .next (s.performed .l)
       else .next (s.qldElement h q (sizeBytes sz) (streamAddr base c0 s0 s1 h.done))
     | .qst q sz base c0 s0 c1 s1 =>
       if c0.toNat * c1.toNat ≤ h.done then .next (s.performed .sq)
       else .next (s.qstElement h q (sizeBytes sz) (streamAddr base c0 s0 s1 h.done))
     | _ => .next s)
  | none => .next s

end Sys2Proof.Machine
end

