-- ==== Sys2Proof/Machine/Atomics.lean ====
section
/-!
DEFINITION. Atomics (R142 to R146), barrier slots (R147 to R154), and the markers, fences and barriers of the
consistency model (R123 to R134).
-/

namespace Sys2Proof.Machine

/-! ### Issue with a gate -/

/-- Issues an S entry and the ordering gates that its issue number gives it. -/
def issueSGated (cmd : Cmd) (d : Reg) (gates : Nat → List Gate) (s : State) : Out :=
  if queueFull s.me.st.squ then wait s
  else done (s.updSt fun t =>
    { t.expect d with squ := t.squ ++ [t.entry 0 cmd], seq := t.seq + 1, gates := t.gates ++ gates t.seq })

/-- The gates of an order (R129). -/
def orderGates (ord : Order) (seq : Nat) : List Gate :=
  match ord with
  | .rlx => []
  | .acq => [acquireGate seq]
  | .rel => [releaseGate seq]
  | .ar => [releaseGate seq, acquireGate seq]

/-! ### Atomics -/

/-- The checks of R144 in their order, then the S entry. The address check looks at G[A] alone for alignment. -/
def issueAtomic (op : AOp) (o : AtomOps) (s : State) : Out :=
  let n := if o.d64 then 8 else 4
  let base := s.getG o.a
  let ea := base + BitVec.ofNat 64 (o.off.toNat * n)
  if 2 ^ 56 ≤ ea.toNat then trapAt .trNc ea s
  else if base.toNat % n ≠ 0 then trapAt .misalign ea s
  else if spadBase ≤ ea.toNat then trapAt .atomSpad ea s
  else
    located ea n true none s fun pl s0 =>
      let s := s0.updSt fun t => t.release .c
      issueSGated (.atomic op o.d ea pl o.d64 (s.getG o.b) (s.getG o.d) o.sc o.ord) o.d (orderGates o.ord) s

/-- An atomic at issue; one whose result the replay log holds is not issued again (R398). -/
def atomic (op : AOp) (g : PGuard) (o : AtomOps) (s : State) : Out :=
  pguarded g s fun s => replayed s fun s =>
    reading (if op = .cas then [o.a, o.b, o.d] else [o.a, o.b]) s fun s => issueAtomic op o s

/-- `aadd.sz.sc.or gD, [gA+off], gB`. -/
def execAadd (g : PGuard) (o : AtomOps) (s : State) : Out := atomic .add g o s
/-- `aand`. -/
def execAand (g : PGuard) (o : AtomOps) (s : State) : Out := atomic .and g o s
/-- `aor`. -/
def execAor (g : PGuard) (o : AtomOps) (s : State) : Out := atomic .or g o s
/-- `axor`. -/
def execAxor (g : PGuard) (o : AtomOps) (s : State) : Out := atomic .xor g o s
/-- `amin`, signed. -/
def execAmin (g : PGuard) (o : AtomOps) (s : State) : Out := atomic .min g o s
/-- `amax`, signed. -/
def execAmax (g : PGuard) (o : AtomOps) (s : State) : Out := atomic .max g o s
/-- `aminn`, unsigned. -/
def execAminn (g : PGuard) (o : AtomOps) (s : State) : Out := atomic .minn g o s
/-- `amaxn`, unsigned. -/
def execAmaxn (g : PGuard) (o : AtomOps) (s : State) : Out := atomic .maxn g o s
/-- `axchg`. -/
def execAxchg (g : PGuard) (o : AtomOps) (s : State) : Out := atomic .xchg g o s
/-- `acas`: the expected value is G[D] at issue. -/
def execAcas (g : PGuard) (o : AtomOps) (s : State) : Out := atomic .cas g o s

/-- R142, R144: the atomic at the head of the store FIFO executes at its home, after the L1 has let its line go (R108). -/
def State.atomicStep (s : State) (h : Entry) (op : AOp) (pa type n v c : Nat) : State :=
  let s0 := s.l1Evict (canon pa / 64)
  if type = tSys then
    match s0.request (windowPkg pa) 1 .sq h.seq
        (.atomic (atomIndex op) (windowOff pa) (decide (n = 8)) (BitVec.ofNat 64 v) (BitVec.ofNat 64 c)) with
    | .now s1 r => s1.accDone .sq h r
    | .away s1 => s1.updHead .sq fun h => { h with stage := .submitted }
    | .full => s
  else if s0.cellStalls pa type h.tag && !s0.staleAt s.me.st.vi h.tag (homeDie (canon pa)) then s
  else
    match s0.homeAtomic s.me.st.vi pa type h.tag op n v c with
    | (s1, .ok old) => s1.accDone .sq h (.ok (leBytes n old))
    | (s1, .error e) => s1.accDone .sq h (.error e)

/-- ATOMIC_EXECUTE (R142, R146). -/
def execAtomicExecute (s : State) : Out :=
  match s.me.st.running .sq with
  | some h =>
    (match h.cmd with
     | .atomic op _ _ (.mem pa type) d64 v c _ _ =>
       let n := if d64 then 8 else 4
       .next (s.atomicStep h op pa type n (v.toNat % 2 ^ (8 * n)) (c.toNat % 2 ^ (8 * n)))
     | _ => .next s)
  | none => .next s

/-! ### Slots (R147 to R152) -/

/-- A slot at launch. -/
def Slot.zero : Slot := ⟨0, 0, 0, 0⟩

/-- Where slot `n` of strand `idx` of a node stands in the table. -/
def slotKey (node idx n : Nat) : Nat := (node * 64 + idx) * 1024 + n

/-- A slot of a strand. -/
def State.slot (s : State) (node idx n : Nat) : Slot := Sp.get s.slots (slotKey node idx n) Slot.zero

/-- Replaces a slot of a strand. -/
def State.setSlot (s : State) (node idx n : Nat) (v : Slot) : State :=
  { s with slots := Sp.set s.slots (slotKey node idx n) v Slot.zero }

/-- Strands of a node that have completed. -/
def State.strandDone (s : State) (node idx : Nat) : Bool :=
  s.disp.nodes.any fun n => decide (n.slot = node) && n.finished.contains idx

/-- Counts dropped slot updates on a die; the count saturates (R152). -/
def State.dropSync (s : State) (die k : Nat) : State :=
  let v := (Sp.get s.fe.syncdrop die 0).toNat
  { s with fe := { s.fe with
    syncdrop := Sp.set s.fe.syncdrop die (BitVec.ofNat 64 (if v + k < 2 ^ 32 then v + k else 2 ^ 32 - 1)) 0 } }

/-- The die of the cluster that a strand of a node has, or had when it completed (R152). -/
def State.strandDie (s : State) (node idx : Nat) : Nat :=
  match (s.disp.nodes.find? fun n => decide (n.slot = node)).bind fun n => n.places[idx]? with
  | some p => p.1
  | none => s.me.die

/-- R150: PHASE of slot `n` of every strand of a mask, set `rounds` times; each update to a strand that has completed is
dropped, and counted on that strand's die (R152). -/
def State.setPhases (s : State) (node n : Nat) (mask : Nat) (phase : BitVec 8) (rounds : Nat) (js : List Nat) : State :=
  match js with
  | [] => s
  | j :: r =>
    let s1 := if mask / 2 ^ j % 2 = 0 then s
      else if s.strandDone node j then s.dropSync (s.strandDie node j) rounds
      else s.setSlot node j n { s.slot node j n with phase := phase }
    s1.setPhases node n mask phase rounds r

/-- R150: the completion test of a slot, all its rounds at once: VALUE keeps the rest, PHASE counts the completions, and
each fans out, the last phase standing. -/
def State.completeSlot (s : State) (node idx n : Nat) : State :=
  let v := s.slot node idx n
  let goal := v.goal.toNat
  if goal = 0 ∨ v.value.toNat < goal then s
  else
    let v' := { v with value := BitVec.ofNat 32 (v.value.toNat % goal), phase := v.phase + BitVec.ofNat 8 (v.value.toNat / goal) }
    let s1 := s.setSlot node idx n v'
    if v.fanout = 0 then s1 else s1.setPhases node n v.fanout.toNat v'.phase (v.value.toNat / goal) (List.range 64)

/-- R150: FADD and BARV at the target slot; a target that has completed drops the update (R152). -/
def State.addSlot (s : State) (node idx n amount : Nat) : State :=
  if s.strandDone node idx then s.dropSync (s.strandDie node idx) 1
  else
    let v := s.slot node idx n
    (s.setSlot node idx n { v with value := v.value + BitVec.ofNat 32 amount }).completeSlot node idx n

/-- The checks of R149 on a slot form's register, SYNC_ARG first. -/
def slotArgs (okBits okTarget : Bool) (s : State) (k : State → Out) : Out :=
  if !okBits then trap .syncArg s else if !okTarget then trap .syncTarget s else k s

/-- `fadd.sc gA, slot`. -/
def execFadd (g : Guard) (a : Reg) (slot : BitVec 10) (sc : Scope) (s : State) : Out :=
  guarded g s fun s => replayed s fun s => reading [a] s fun s =>
    let v := (s.getG a).toNat
    let ok := if sc = .sys then decide (v < 2 ^ 41) else decide (v < 2 ^ 22)
    let tgt := if sc = .sys then decide (v / 2 ^ 16 % 2 ^ 11 < 1536) && decide (v / 2 ^ 27 ≠ s.pkg)
      else decide (v / 2 ^ 16 < s.me.st.gang)
    slotArgs ok tgt s fun s => issueSGated (.fadd slot (s.getG a) sc) 0 (fun n => [releaseGate n]) s

/-- Whether a mask names only strands of the gang. -/
def maskOk (s : State) (m : Word) : Bool := decide (m.toNat < 2 ^ s.me.st.gang)

/-- `fset.sc gA, slot`. -/
def execFset (g : Guard) (a : Reg) (slot : BitVec 10) (sc : Scope) (s : State) : Out :=
  guarded g s fun s => replayed s fun s => reading [a] s fun s =>
    slotArgs true (maskOk s (s.getG a)) s fun s => issueSGated (.fset slot (s.getG a) sc) 0 (fun n => [releaseGate n]) s

/-- `barv.sc gA, slot`. -/
def execBarv (g : Guard) (a : Reg) (slot : BitVec 10) (sc : Scope) (s : State) : Out :=
  guarded g s fun s => replayed s fun s => reading [a] s fun s =>
    let v := (s.getG a).toNat
    slotArgs (decide (v < 64)) (decide (v < s.me.st.gang)) s fun s =>
      issueSGated (.barv slot (s.getG a) sc) 0 (fun n => [releaseGate n]) s

/-- `barinit gA, slot`: ordered only as an S entry (R153). -/
def execBarinit (g : Guard) (a : Reg) (slot : BitVec 10) (s : State) : Out :=
  guarded g s fun s => replayed s fun s => reading [a, regPlus a 1] s fun s =>
    slotArgs (decide ((s.getG a).toNat < 2 ^ 16)) (maskOk s (s.getG (regPlus a 1))) s fun s =>
      issueS (.barinit slot (s.getG a) (s.getG (regPlus a 1))) 0 0 s

/-- `wait.sc gA, slot` (R151): stalls until VALUE reaches the threshold; an acquire when it returns (R153). -/
def execWait (g : Guard) (a : Reg) (slot : BitVec 10) (sc : Scope) (s : State) : Out :=
  guarded g s fun s => reading [a] s fun s =>
    let v := (s.getG a).toNat
    slotArgs (decide (v < 2 ^ 32)) true s fun s =>
      if v ≤ (s.slot s.me.st.node s.me.st.idx slot.toNat).value.toNat then done (s.acquired sc) else wait s

/-- `barw.sc gA, slot` (R151): stalls until PHASE equals the expected phase. -/
def execBarw (g : Guard) (a : Reg) (slot : BitVec 10) (sc : Scope) (s : State) : Out :=
  guarded g s fun s => reading [a] s fun s =>
    let v := (s.getG a).toNat
    slotArgs (decide (v < 256)) true s fun s =>
      if (s.slot s.me.st.node s.me.st.idx slot.toNat).phase.toNat = v then done (s.acquired sc) else wait s

/-- SLOT_UPDATE: the slot entry at the head of the store FIFO takes effect at its engine (R150). -/
def execSlotUpdate (s : State) : Out :=
  let t := s.me.st
  match t.running .sq with
  | some h =>
    (match h.cmd with
     | .fadd n arg sc =>
       let v := arg.toNat
       if sc = .sys then
         match s.request (v / 2 ^ 27) 1 .sq h.seq (.fadd (v / 2 ^ 16 % 2 ^ 11) n.toNat (v % 2 ^ 16)) with
         | .now s1 r => .next (s1.accDone .sq h r)
         | .away s1 => .next (s1.updHead .sq fun h => { h with stage := .submitted })
         | .full => .next s
       else .next (((s.addSlot t.node (v / 2 ^ 16) n.toNat (v % 2 ^ 16)).updSt fun t => t.logged h.waddr none).performed .sq)
     | .barv n arg _ => .next (((s.addSlot t.node arg.toNat n.toNat 1).updSt fun t => t.logged h.waddr none).performed .sq)
     | .fset n mask _ =>
       .next (((s.setPhases t.node n.toNat mask.toNat (s.slot t.node t.idx n.toNat).phase 1 (List.range 64)).updSt
         fun t => t.logged h.waddr none).performed .sq)
     | .barinit n goal fan =>
       let v := s.slot t.node t.idx n.toNat
       let s1 := (s.setSlot t.node t.idx n.toNat { v with goal := goal.setWidth 16, fanout := fan }).completeSlot
         t.node t.idx n.toNat
       .next ((s1.updSt fun t => t.logged h.waddr none).performed .sq)
     | _ => .next s)
  | none => .next s

/-! ### Markers, barriers, fences (R123 to R134) -/

/-- Issues a marker into the queues of a list, with a gate for everything issued later; it stalls while one is full. -/
def issueMarker (qs : List Eng) (gates : Nat → List Gate) (s : State) : Out :=
  if qs.any fun e => queueFull (s.me.st.queue e) then wait s
  else done (s.updSt fun t =>
    let t1 := qs.foldl (fun u e => u.setQueue e (u.queue e ++ [t.entry 0 .marker])) t
    { t1 with seq := t.seq + 1, gates := t.gates ++ gates (t.seq + 1) })

/-- `mark` (R124). -/
def execMark (g : Guard) (s : State) : Out :=
  guarded g s fun s => issueMarker [.l, .sq] (fun n => [⟨n, [.load, .store, .atomic], [.load, .store, .atomic], false⟩]) s

/-- The gate of a stream barrier (R125): every later K entry waits until the marker has taken effect, whatever it
accesses. -/
def sbarGate (stm : Stm) (n : Nat) : Gate :=
  match stm with
  | .sr => ⟨n, [.winRead], [.winWrite, .kcmd], false⟩
  | .sw => ⟨n, [.winWrite], [.winRead, .winWrite, .kcmd], false⟩
  | .m => ⟨n, [.outside], [.outside, .kcmd], false⟩

/-- `sbar.sr`, `sbar.sw`, `sbar.m` (R125). -/
def execSbar (g : Guard) (stm : Stm) (s : State) : Out :=
  guarded g s fun s => issueMarker [.l, .sq, .k] (fun n => [sbarGate stm n]) s

/-- The gates of a FENCE (R129, R131). -/
def fenceGates (sc : Scope) (ord : Order) (n : Nat) : List Gate :=
  match ord with
  | .rlx => []
  | .acq => [⟨n, [.load, .atomic], allAccess, decide (sc ≠ .cl)⟩]
  | .rel => [⟨n, allAccess, [.store, .atomic, .kcmd], false⟩]
  | .ar => [⟨n, allAccess, allAccess, decide (sc ≠ .cl)⟩]

/-- `fence.sc.or` (R131). -/
def execFence (g : Guard) (sc : Scope) (ord : Order) (s : State) : Out :=
  guarded g s fun s => issueMarker [.l, .sq, .k] (fenceGates sc ord) s

/-- `drainnt.sc`: an S entry (R133). -/
def execDrainnt (g : Guard) (sc : Scope) (s : State) : Out := guarded g s fun s => issueS (.drainnt sc) 0 0 s

/-- `cinv`: an L entry (R134). -/
def execCinv (g : Guard) (s : State) : Out := guarded g s fun s => issueL .cinv 0 s

end Sys2Proof.Machine
end

