-- ==== Sys2Proof/Machine/Forms.lean ====
section
/-!
DEFINITION. Which patterns of the three word formats are reserved (R35, R36, R38 to R40, R44 to R51) and the field rules
of every form: R248 for vector words, R272 to R284, R300 to R304 and R318 for matrix words. Each check names why it
rejects.
-/

namespace Sys2Proof.Machine

/-- Why a pattern is no instruction (R51). -/
inductive Reject where
  /-- the guard `?!p0` (R36) -/
  | reservedGuard
  /-- an opcode that no table assigns (R39, R46, R49) -/
  | unassignedOpcode
  /-- an unlisted SUB, FN, COND, STM, EMASK or descriptor value -/
  | unlistedValue
  /-- a code that R35 reserves -/
  | reservedCode
  /-- a nonzero bit in a field marked "—" -/
  | reservedBits
  /-- a field that the form does not use is not zero -/
  | unusedField
  /-- an operand kind that the form does not take -/
  | operandKind
  /-- a format, rounding or overflow that the form does not take -/
  | formatClass
  /-- a combination that R50, R245 or the form's own rule reserves -/
  | combination
  /-- fewer bytes than the word has -/
  | short
  deriving DecidableEq, Repr

/-- The first check that fails. -/
def firstBad (l : List (Bool × Reject)) : Option Reject :=
  match l with
  | [] => none
  | (ok, r) :: t => if ok then firstBad t else some r

/-! ### Uslyn-S -/

/-- The guard check of R36. -/
def guardOk (g : Guard) : Bool := !(decide (g.gp = 0) && g.neg && !g.stage)

/-- The guard check of the atomic layout. -/
def pguardOk (g : PGuard) : Bool := !(decide (g.gp = 0) && g.neg)

/-- General registers that a copy form's parameters occupy from G(B) (R38, R39). -/
def copyParams : KOp → Nat
  | .copy => 1
  | .copy2d => 2
  | .fill => 1
  | .gather => 1
  | .scatter => 1
  | .pair => 2

/-- R38: no parameter register lies beyond G31. -/
def copyRegsOk (op : KOp) (o : CopyOps) : Bool := decide (o.b.toNat + copyParams op + (if o.x then 1 else 0) ≤ 32)

/-! ### Uslyn-V: the table of R248 -/

/-- Operand classes of R248. -/
structure VSpec where
  dRow : Bool
  dSq : Bool
  a : List Nat
  b : List Nat
  /-- formats that FMT may name; none where the form has no format class -/
  fmts : List Fmt
  rnd : Bool
  ovf : Bool
  /-- MOD bits that the form assigns, or every bit where a scalar stands -/
  modMask : Nat
  deriving DecidableEq, Repr

/-- The class of a source descriptor: 0 row, 1 queue, 2 scalar, 3 none, 4 not a source. -/
def srcClass : VOp → Nat
  | .row _ _ => 0
  | .lq _ => 1
  | .moq => 1
  | .scalar => 2
  | .none => 3
  | .sq _ => 4

/-- The arithmetic set of R248. -/
def arithSet : List Fmt := [.f32, .f19, .f16, .bf16, .f64, .i32, .i16, .n16, .i8, .n8]

/-- Every format. -/
def allFmts : List Fmt :=
  [.f32, .f64, .f19, .f16, .bf16, .f8e4, .f8e5, .f8e3, .f6e3, .f6e2, .f4e2, .i32, .i16, .n16, .i8, .n8, .i4, .n4, .i2,
   .n2, .t2, .b1, .dx8, .dx6, .dx4, .dxf8, .dxf6, .dxf4]

/-- Formats whose width VPACK takes (R248). -/
def packSet : List Fmt := allFmts.filter fun f => [1, 2, 4, 6, 8, 16].contains (fmtWidth f)

/-- The rows of R248 by opcode (R46); VREP (0x24) has its own rule R265. -/
def vSpec (op : Nat) : VSpec :=
  match op with
  | 0x01 | 0x02 | 0x03 => ⟨true, true, [0, 1, 2], [0, 1, 2], arithSet, true, true, 0⟩
  | 0x04 | 0x05 => ⟨true, false, [0, 1, 2], [0, 1, 2], arithSet, true, true, 0⟩
  | 0x06 | 0x07 => ⟨true, true, [0, 1, 2], [0, 1, 2], arithSet, false, false, 0⟩
  | 0x08 | 0x09 => ⟨true, true, [0, 1, 2], [3], arithSet, false, true, 0⟩
  | 0x0A => ⟨true, false, [0, 1, 2], [0, 1, 2], arithSet, false, false, 0⟩
  | 0x0B | 0x0C | 0x0D | 0x0E | 0x0F | 0x10 => ⟨true, true, [0, 1, 2], [3], [.f32, .f16, .bf16], true, true, 0⟩
  | 0x11 | 0x12 | 0x13 => ⟨true, true, [0, 1, 2], [0, 1, 2], [.i32], false, false, 0⟩
  | 0x14 | 0x15 | 0x16 => ⟨true, true, [0, 1], [0, 1, 2], [.i32, .i16, .n16, .i8, .n8], false, false, 0⟩
  | 0x17 => ⟨true, true, [0, 1], [0, 1, 3], allFmts, true, true, 1⟩
  | 0x18 => ⟨true, true, [0], [3], packSet, false, false, 0⟩
  | 0x19 => ⟨true, false, [0, 1], [3], packSet, false, false, 0⟩
  | 0x1A => ⟨false, false, [0, 1], [0, 1], [.f32, .f19, .f64, .i32], false, false, 0xFF00⟩
  | 0x1B => ⟨true, true, [0, 1, 2], [0, 1, 2], [.f32, .f64], false, false, 0⟩
  | 0x1C => ⟨true, false, [0, 1, 3], [3], [], false, false, 0xFFFE⟩
  | 0x1D => ⟨true, true, [0, 3], [0, 1], [.f32], false, false, 1⟩
  | 0x1E => ⟨true, true, [0, 1], [3], [.f32, .f64], false, false, 0xFF⟩
  | 0x1F | 0x20 => ⟨true, true, [0, 1], [3], [.f32, .i32], true, true, 3⟩
  | 0x21 => ⟨false, false, [0, 1, 3], [0, 1, 3], [], false, false, 0xFFF0⟩
  | 0x22 => ⟨true, false, [3], [3], [], false, false, 0xF800⟩
  | 0x23 => ⟨true, true, [0, 1, 2], [3], [.f32, .f64], false, false, 0⟩
  | 0x25 => ⟨true, false, [0, 1], [0, 1], [.f32], true, true, 0x3FF⟩
  | _ => ⟨false, false, [0, 1], [3], [], false, false, 3⟩

/-- Whether a VMOP with function code `fn` takes row DD (R256). -/
def vmopRow (fn : Nat) : Bool := decide (fn = 9) || decide (fn = 10)

/-- Whether a destination descriptor is one that the form takes (R243, R248). -/
def dstOk (sp : VSpec) (op mod : Nat) (d : VOp) : Bool :=
  if op = 0x1C ∧ vmopRow (mod / 4096) = false then decide (d = .row 0 0)
  else
    match d with
    | .row _ _ => sp.dRow || decide (d = .row 0 0)
    | .sq _ => sp.dSq
    | _ => false

/-- R245: an F64 row operand has an even index and an even stride. -/
def pairOk (f : Fmt) (o : VOp) : Bool :=
  match o with
  | .row i st => !(decide (f = .f64)) || (decide (i.toNat % 2 = 0) && decide (st.toNat % 2 = 0))
  | _ => true

/-- The formats of the three operands: VCVT reads FMT2 and takes a selector row of 32-bit lanes. -/
def vOperandFmts (op : Nat) (f : VFields) : Fmt × Fmt × Fmt :=
  if op = 0x17 then (f.fmt, f.fmt2, .f32) else (f.fmt, f.fmt, f.fmt)

/-- The MOD rules of single forms (R253, R255, R256, R258, R259, R261, R262, R264). -/
def vModBad (op : Nat) (f : VFields) : Option Reject :=
  let m := f.mod.toNat
  match op with
  | 0x17 => firstBad [(decide (m % 2 = 0) || fmtIsDual f.fmt, .combination),
      (decide (srcClass f.db = 3) == decide (m % 2 = 0), .operandKind)]
  | 0x1A => firstBad [(decide (m / 8192 ≤ 4), .unlistedValue), (!(decide (m / 8192 = 4) && decide (f.fmt = .i32)), .combination),
      (decide (m / 256 % 4 ≠ 3), .unlistedValue)]
  | 0x1C =>
    let fn := m / 4096
    firstBad [(decide (fn ≤ 10), .unlistedValue), (decide (m / 2 % 4 ≠ 3), .unlistedValue), (decide (f.mask = 8), .combination),
      (decide (fn = 8) == decide (srcClass f.da ≠ 3), .operandKind),
      (decide (fn ≤ 8) || decide (m / 512 % 8 = 0), .unusedField),
      (!([5, 6, 8].contains fn) || decide (m / 64 % 8 = 0), .unusedField),
      (decide (fn ≤ 3) || decide (m / 8 % 8 = 0), .unusedField)]
  | 0x1D => firstBad [(decide (m % 2 = 1) == decide (srcClass f.da = 3), .operandKind)]
  | 0x1F | 0x20 => firstBad [(decide (m % 4 ≠ 3), .unlistedValue)]
  | 0x22 => firstBad [(decide (f.mask = 8), .combination)]
  | 0x26 => firstBad [(decide (m % 4 ≠ 3), .unlistedValue)]
  | _ => none

/-- R248 with R243 to R247: why a vector word other than VREP is reserved, or none. T2 and B1 count as
integer formats for the ban on rsr (log entry 117). -/
def vBad (op : Nat) (f : VFields) : Option Reject :=
  let sp := vSpec op
  let ca := srcClass f.da
  let cb := srcClass f.db
  let nscal := (if ca = 2 then 1 else 0) + (if cb = 2 then 1 else 0)
  let fs := vOperandFmts op f
  match firstBad [
    (decide (f.push.toNat < 8), .reservedBits),
    (decide (f.mask.toNat ≤ 8), .reservedCode),
    (dstOk sp op f.mod.toNat f.dd, .operandKind),
    (sp.a.contains ca, .operandKind),
    (sp.b.contains cb, .operandKind),
    (decide (nscal ≤ 1), .combination),
    (pairOk fs.1 f.dd && pairOk fs.2.1 f.da && pairOk fs.2.2 f.db, .combination),
    (if sp.fmts = [] then decide (f.fmt = .f32) else sp.fmts.contains f.fmt, .formatClass),
    (decide (op = 0x17) || decide (f.fmt2 = f.fmt), .formatClass),
    (sp.rnd || decide (f.rnd = .rne), .formatClass),
    (sp.ovf || decide (f.ovf = .wrap), .formatClass),
    (!(decide (f.rnd = .rsr) && fmtIsInt f.fmt), .formatClass),
    (decide (nscal = 1) || decide (f.mod.toNat &&& sp.modMask = f.mod.toNat), .reservedBits)] with
  | some r => some r
  | none => vModBad op f

/-- R265: VREP carries LEN 1 to 4,095 in MOD and zero in every other field. -/
def vrepBad (f : VFields) : Option Reject :=
  firstBad [
    (decide (f = { pop := 0, push := 0, dd := .row 0 0, da := .row 0 0, db := .row 0 0, mask := 0, fmt := .f32,
                   fmt2 := .f32, rnd := .rne, ovf := .wrap, mod := f.mod }), .unusedField),
    (decide (f.mod.toNat % 4096 ≠ 0), .unlistedValue)]

/-! ### Uslyn-M: the tables of R276, R300, R302 to R304, R318 -/

/-- Which head fields a matrix form uses, which sources and destinations it takes, and its MOD16 bits. -/
structure MSpec where
  fa : Bool
  fb : Bool
  fd : Bool
  cvt : Bool
  acc : Bool
  sa : List Nat
  sb : List Nat
  dk : List Nat
  spar : Bool
  ta : Bool
  tb : Bool
  /-- bits of XSEL that the form uses; MX, NX and KX likewise -/
  ext : Nat
  modMask : Nat
  deriving DecidableEq, Repr

/-- Code of a source (R47). -/
def srcCode : MSrc → Nat
  | .lq n => n.toNat
  | .rb n => if n then 5 else 4
  | .acc2 => 6
  | .ch n => if n then 8 else 7

/-- Code of a destination (R47). -/
def dstCode : MDst → Nat
  | .acc => 0
  | .sq n => 1 + n.toNat
  | .moq => 5
  | .rb n => if n then 7 else 6

/-- The register number that an MXSET or MXREAD names (R302). -/
def mxReg (f : MFields) : Nat := f.mod.toNat / 1024

/-- SRC of an MXSET (R302): true where it reads A. -/
def mxFromA (f : MFields) : Bool := decide (f.mod.toNat / 512 % 2 = 1)

/-- Extents (1: rows, 2: columns) that a relaxation register's data is counted in (R302). -/
def mxExt (set : Bool) (reg : Nat) : Nat :=
  if reg = 19 ∨ (set ∧ reg = 21) then 3
  else if reg = 5 ∨ (set = false ∧ [8, 9, 12, 13, 14, 15].contains reg) then 1 else 0

/-- Queues and channels 0 and 1. -/
def qch : List Nat := [0, 1, 2, 3, 7, 8]

/-- The rows of R276, R300, R302 to R304 and R318 by opcode. -/
def mSpec (op : Nat) (f : MFields) : MSpec :=
  let all := [0, 1, 2, 3, 4, 5, 6, 7, 8]
  match op with
  | 0x03 => ⟨true, true, true, true, true, all, all, [0], true, true, true, 7, 0xF800⟩
  | 0x04 => ⟨true, true, true, true, false, all, all, [0, 1, 2, 3, 4, 5], true, true, true, 7, 0x0800⟩
  | 0x05 => ⟨false, false, false, true, true, qch, qch, [0], false, false, false, 3, 0x33FF⟩
  | 0x06 => ⟨true, false, true, true, false, [0, 1, 2, 3, 6, 7, 8], [0], [6, 7], false, true, false, 3, 0⟩
  | 0x07 => ⟨false, false, false, false, false, qch, [0], [0], false, false, false, 0, 0⟩
  | 0x08 => ⟨false, false, false, false, true, [0], [0], [0], false, false, false, 3, 0x3001⟩
  | 0x09 => ⟨true, false, true, true, true, [0], [0], [0, 1, 2, 3, 4, 5], false, true, false, 3, 0x3308⟩
  | 0x0A => ⟨true, false, true, true, true, [0], [0], [0, 1, 2, 3, 4, 5, 6, 7], false, false, false, 3, 0x30F0⟩
  | 0x10 => ⟨true, false, false, true, true, [4, 5], [0, 1, 2, 3, 6, 7, 8], [0], false, false, false, 7, 0xC800⟩
  | 0x14 => ⟨true, false, false, true, true, [4, 5], [0, 1, 2, 3, 6, 7, 8], [0], false, false, false, 7, 0xC400⟩
  | 0x11 => ⟨false, false, false, false, [18, 21].contains (mxReg f), if mxFromA f then (if mxReg f = 20 then [7, 8] else qch) else [0],
      [0], [0], false, false, false, if mxFromA f then mxExt true (mxReg f) else 0, 0xFE00⟩
  | 0x12 => ⟨false, false, false, false, decide (mxReg f = 18), [0], [0], [1, 2, 3, 4, 5], false, false, false, mxExt false (mxReg f), 0xFC00⟩
  | _ => ⟨true, false, false, false, false, qch, [0], [6, 7], false, false, false, 3, 0⟩

/-- Formats of A that sparsity admits (R50). -/
def sparSet : List Fmt := [.f8e4, .f8e5, .f8e3, .i8, .n8, .f4e2, .i4, .n4, .dx8, .dx4, .dxf8, .dxf4]

/-- BSRC of a product or relaxation word. -/
def bsrc (f : MFields) : Nat := f.mod.toNat / 16384

/-- The forms that have `ebb=` among their fields whatever reads it (R275, R276, R300, R318): those with extents, but for
MXSET, MXREAD and MPATCH. -/
def ebbForm (op : Nat) : Bool := [0x03, 0x04, 0x05, 0x06, 0x08, 0x09, 0x0A, 0x10, 0x14].contains op

/-- Bound registers that the word reads, as offsets from EBB: extents by XSEL, the bias register, or MXSET's operand
(R275, R302). -/
def ebReach (op : Nat) (f : MFields) : List Nat :=
  let x := f.xsel.toNat
  (if x % 2 = 1 then [0] else []) ++ (if x / 2 % 2 = 1 then [1] else []) ++ (if x / 4 % 2 = 1 then [2] else []) ++
    (if [0x03, 0x10, 0x14].contains op ∧ bsrc f = 2 then [3] else []) ++
    (if op = 0x11 ∧ mxFromA f = false then (if mxReg f = 10 ∨ mxReg f = 11 then [0, 1] else [0]) else [])

/-- R50 on formats, shapes and sparsity of a product word; `depth` is none where a bound register gives it. -/
def productBad (op : Nat) (f : MFields) (depth : Option Nat) : Option Reject :=
  let dual := fmtIsDual f.fa || fmtIsDual f.fb
  let fl := !(fmtIsInt f.fa) || !(fmtIsInt f.fb)
  let both := decide (f.fa = .f64) || decide (f.fb = .f64)
  firstBad [
    (decide (f.spar = .dense) || sparSet.contains f.fa, .combination),
    (!(decide (f.spar = .s24) || decide (f.spar = .two)) || (match depth with | some d => decide (d % 4 = 0) | none => true), .combination),
    (decide (f.spar = .dense) || !f.ta, .combination),
    (decide (op = 4) || !dual, .combination),
    (decide (op = 3) || (fmtIsDual f.fa && fmtIsDual f.fb), .combination),
    (decide (op = 3) || (match depth with | some d => decide (d % 32 = 0) | none => true), .combination),
    (decide (op = 3) || decide (f.dk ≠ .acc) || (match depth with | some d => decide (d = 32) | none => true), .combination),
    (!both || (decide (f.fa = .f64) && decide (f.fb = .f64) && decide (f.fd = .f64)), .combination),
    (fmtIsInt f.fa == fmtIsInt f.fb, .combination),
    (!fl || both || decide (f.fd = .f32), .combination),
    (fl || decide (f.fd = .i32), .combination),
    (decide (op = 4) || decide (f.rnd ≠ .rsr), .combination),
    (decide (op = 4) || decide (f.fa ≠ .f64) || decide (f.acc.toNat % 2 = 0), .combination),
    (decide (op = 4) || decide (bsrc f ≠ 3), .unlistedValue),
    (decide (op = 4) || decide (bsrc f ≠ 1) || (decide (7 ≤ srcCode f.sa) && decide (7 ≤ srcCode f.sb)), .combination)]

/-- R300 and R318: a relaxation word that its own bits condemn. -/
def relaxBad (f : MFields) : Option Reject :=
  firstBad [
    ([Fmt.f32, .f16, .bf16, .f8e4, .f8e5].contains f.fa, .formatClass),
    (decide (bsrc f = 0) || decide (bsrc f = 2), .unlistedValue),
    (!(decide (f.sb = .acc2) && decide (f.acc2 = f.acc)), .combination),
    (decide (2 ≤ f.xsel.toNat) || decide (f.kx = f.nx), .combination),
    (decide (f.rnd ≠ .rsr), .combination)]

/-- The rules of single forms. -/
def mFormBad (op : Nat) (f : MFields) : Option Reject :=
  let m := f.mod.toNat
  match op with
  | 0x03 | 0x04 => productBad op f (if 4 ≤ f.xsel.toNat then none else some (f.kx.toNat + 1))
  | 0x05 => firstBad [(decide (f.rnd ≠ .rsr), .combination)]
  | 0x06 => firstBad [(if f.sa = .acc2 then decide (f.fa = .f32) || decide (f.fa = .i32) else decide (f.fa = f.fd), .formatClass),
      (!(decide (f.fd = .f64) && decide (f.dk = .rb true)), .combination)]
  | 0x09 => firstBad [([Fmt.f32, .i32, .f64].contains f.fa, .formatClass), (decide (f.dk = .acc) || decide (m &&& 0x308 = 0), .combination),
      (decide (f.fa ≠ .f64) || decide (f.acc.toNat % 2 = 0), .combination)]
  | 0x0A => firstBad [([Fmt.f32, .i32, .f64].contains f.fa, .formatClass), (decide (m / 16 % 16 ≤ 4), .unlistedValue),
      (decide (f.dk ≠ .acc) || ([Fmt.f32, .i32].contains f.fd && decide (f.rnd ≠ .rsr)), .combination),
      (!(decide (f.fd = .f64) && decide (f.dk = .rb true)), .combination),
      (decide (f.fa ≠ .f64) || decide (f.acc.toNat % 2 = 0), .combination)]
  | 0x10 | 0x14 => relaxBad f
  | 0x11 => firstBad [(if mxFromA f then [5, 10, 11, 19, 20, 21].contains (mxReg f)
      else [0, 1, 2, 3, 4, 5, 6, 7, 10, 11, 16, 17, 18].contains (mxReg f), .unlistedValue)]
  | 0x12 => firstBad [(decide (mxReg f ≤ 19), .unlistedValue)]
  | 0x13 => firstBad [(!(decide (f.fa = .f64) && decide (f.dk = .rb true)), .combination)]
  | _ => none

/-- Why a matrix word with head, shape and MOD16 is reserved, or none (R47 to R50). An extent field that a bound register
replaces may hold anything: the assembler encodes 0 there (R275), and no rule makes another value reserved (log entry
82). EBB of a form that has `ebb=` may name any register, read or not (R24, R275). -/
def mBad (op : Nat) (f : MFields) : Option Reject :=
  let sp := mSpec op f
  let reach := ebReach op f
  match firstBad [
    (decide (f.push.toNat < 8), .reservedBits),
    (sp.fa || decide (f.fa = .f32), .unusedField),
    (sp.fb || decide (f.fb = .f32), .unusedField),
    (sp.fd || decide (f.fd = .f32), .unusedField),
    (sp.cvt || (decide (f.rnd = .rne) && decide (f.ovf = .wrap)), .unusedField),
    (sp.acc || decide (f.acc = 0), .unusedField),
    (decide (f.sa = .acc2) || decide (f.sb = .acc2) || decide (f.acc2 = 0), .unusedField),
    (sp.sa.contains (srcCode f.sa), .operandKind),
    (sp.sb.contains (srcCode f.sb), .operandKind),
    (sp.dk.contains (dstCode f.dk), .operandKind),
    (sp.spar || decide (f.spar = .dense), .unusedField),
    (sp.ta || !f.ta, .unusedField),
    (sp.tb || !f.tb, .unusedField),
    (decide (f.xsel.toNat &&& sp.ext = f.xsel.toNat), .unusedField),
    (decide (sp.ext % 2 = 1) || decide (f.mx = 0), .unusedField),
    (decide (sp.ext / 2 % 2 = 1) || decide (f.nx = 0), .unusedField),
    (decide (sp.ext / 4 % 2 = 1) || decide (f.kx = 0), .unusedField),
    (decide (f.mod.toNat &&& sp.modMask = f.mod.toNat), .reservedBits),
    (ebbForm op || decide (reach ≠ []) || decide (f.ebb = 0), .unusedField),
    (reach.all fun x => decide (f.ebb.toNat + x ≤ 15), .combination)] with
  | some r => some r
  | none => mFormBad op f

end Sys2Proof.Machine
end

