-- ==== Sys2Proof/Machine/Tags.lean ====
section
/-!
DEFINITION. Context tags (R156 to R174): TSET and TGET at issue, LDX through the load FIFO, and TALLOC, TRETIRE and TSTAT
at the allocators, with the steps of the allocators and the homes. TSTAT is performed by STORE_PERFORMED.
-/

namespace Sys2Proof.Machine

/-- R156: whether a register value is a well-formed tag value. -/
def tagValueOk (v : Word) : Bool :=
  let n := v.toNat
  let die := n / 2048 % 32
  decide (n < 2 ^ 20) && decide (die ≤ 23) && !(decide (n % 2048 = 0) && decide (die ≠ 0)) &&
    !(decide (n % 65536 = 0) && decide (n / 65536 ≠ 0))

/-- `tset gA` (R170). -/
def execTset (g : Guard) (a : Reg) (s : State) : Out :=
  guarded g s fun s => reading [a] s fun s =>
    if tagValueOk (s.getG a) then done (s.updCtl fun c => { c with ctag := (s.getG a).setWidth 20 }) else trap .tagArg s

/-- `tget gD` (R170). -/
def execTget (g : Guard) (d : Reg) (s : State) : Out := compute g [] d (fun s => s.ctl.ctag.setWidth 64) s

/-- `ldx.sz gD, [gA], gB` (R170): an ld under an explicit tag. -/
def execLdx (g : Guard) (d a b : Reg) (sz : Size) (s : State) : Out :=
  guarded g s fun s => reading [a, b] s fun s =>
    if !tagValueOk (s.getG b) then trap .tagArg s
    else
      let t := (s.getG b).setWidth 20
      accessing (s.getG a) (sizeBytes sz) false (some t) s fun pl s => issueL (.ldx d (s.getG a) pl sz t) d s

/-- `talloc gD` (R170): an S entry. -/
def execTalloc (g : Guard) (d : Reg) (s : State) : Out :=
  guarded g s fun s => replayed s fun s => issueS (.talloc d) d 0 s

/-- `tretire gA` (R166, R170): a release at .pkg. -/
def execTretire (g : Guard) (a : Reg) (s : State) : Out :=
  guarded g s fun s => replayed s fun s => reading [a] s fun s =>
    let v := s.getG a
    if !tagValueOk v ∨ v.toNat % 65536 = 0 then trap .tagArg s
    else issueSGated (.tretire (v.setWidth 20)) 0 (fun n => [releaseGate n]) s

/-- `tstat gD, gA` (R170). -/
def execTstat (g : Guard) (d a : Reg) (s : State) : Out :=
  guarded g s fun s => replayed s fun s => reading [a] s fun s =>
    if tagValueOk (s.getG a) then issueS (.tstat d ((s.getG a).setWidth 20)) d 0 s else trap .tagArg s

/-! ### The allocators (R159, R160, R168) -/

/-- SYS_TAGQ.LIVE: the interface's tags that are live or retiring. -/
def State.tagsLive (s : State) (vi : Nat) : Nat := (s.tags.filter fun r => decide (r.st ≠ .free) && decide (r.vi = vi)).length

/-- SYS_TAGQ.QUOTA as it acts. -/
def State.tagQuota (s : State) (vi : Nat) : Nat :=
  let q := (s.vi vi).tagq.toNat % 65536
  if 49128 < q then 49128 else q

/-- SYS_TAGQ.WDT in units of 12.5 µs; none where stalls never trap. -/
def State.tagLimit (s : State) (vi : Nat) : Option Nat :=
  let w := (s.vi vi).tagq.toNat / 2 ^ 32 % 256
  if w = 0 then none else some (80 * w)

/-- The lowest-numbered free index of a die (R170). -/
def State.freeTag (s : State) (die : Nat) : Option Nat :=
  ((List.range 2048).drop 1).find? fun i => decide ((s.tagRec die i).st = .free)

/-- The talloc at the head of the store FIFO of `me` reaches the allocator of its die. -/
def State.tallocArrive (s : State) : State :=
  match s.me.st.running .sq with
  | some h =>
    (match h.cmd with
     | .talloc _ =>
       let t := s.me.st
       { (s.updHead .sq fun h => { h with stage := .submitted }) with
         tagWaits := s.tagWaits ++ [⟨s.me.die, t.node, t.idx, t.vi, t.stream⟩] }
     | _ => s)
  | none => s

/-- The result of a TALLOC reaches its entry. -/
def State.tallocBind (s : State) (v : Word) : State :=
  match s.me.st.squ with
  | h :: _ =>
    (match h.cmd with
     | .talloc d => (s.updSt fun t => (t.bind d h.seq v).logged h.waddr (some (d, v))).performed .sq
     | _ => s)
  | [] => s

/-- The first waiting TALLOC of a die is served, when the quota and the indices allow (R168, R170). -/
def State.tallocServe (s : State) (die : Nat) : State :=
  match s.tagWaits.find? fun w => decide (w.die = die) with
  | none => s
  | some w =>
    match s.freeTag die with
    | none => s
    | some i =>
      if s.tagQuota w.vi ≤ s.tagsLive w.vi then s
      else
        let r := s.tagRec die i
        let s1 := s.setTag { r with st := .live, vi := w.vi, stream := w.stream }
        let s2 := { s1 with tagWaits := s1.tagWaits.erase w }
        s2.onStrand w.node w.idx fun s => s.tallocBind (BitVec.ofNat 64 (die * 2048 + i + r.gen.toNat * 65536))

/-- TALLOC_SERVE: the allocator of a die, the one of `me` where no die is presented. -/
def execTallocServe (s : State) : Out :=
  let s1 := s.tallocArrive
  .next (s1.tallocServe (s.input.headD s.me.die))

/-- TAG_WAIT_TIMEOUT: a TALLOC that has waited for the interval of R160 binds zero (R168). -/
def execTagWaitTimeout (s : State) : Out :=
  match s.me.st.squ, s.tagLimit s.me.st.vi with
  | h :: _, some lim =>
    (match h.cmd with
     | .talloc _ =>
       if h.stage = .submitted ∧ lim ≤ s.me.st.wdTag then
         let s1 := { s with tagWaits := s.tagWaits.filter fun w => !(decide (w.node = s.me.st.node) && decide (w.idx = s.me.st.idx)) }
         .next ((s1.updSt fun t => t.record (TrapRec.defer .tagWait .sq h.waddr)).tallocBind 0)
       else .next s
     | _ => .next s)
  | _, _ => .next s

/-- CELL_FULL_TIMEOUT: a write that has waited for a cell for the interval of R160 is discarded (R165). -/
def execCellFullTimeout (s : State) : Out :=
  match s.me.st.running .sq, s.tagLimit s.me.st.vi with
  | some h, some lim =>
    let stalls := fun (pl : Place) => match pl with
      | .mem pa type => s.cellStalls pa type h.tag
      | .spad _ => false
    let ended : State := s.accDone .sq h (.error .cellFull)
    if s.me.st.wdTag < lim then .next s
    else
      (match h.cmd with
       | .store _ pl _ _ => if stalls pl then .next ended else .next s
       | .zlsv _ pls _ => if stalls (pls.getD h.done (.spad 0)) then .next ended else .next s
       | .atomic _ _ _ pl _ _ _ _ _ => if stalls pl then .next ended else .next s
       | .qst q sz base c0 s0 _ s1 =>
         match s.lookup (streamAddr base c0 s0 s1 h.done).toNat (sizeBytes sz) true none with
         | (_, .ok pl) =>
           if stalls pl then .next (ended.updSt fun t => { t with q := t.q.storeTake q (sizeBytes sz), vdry := false, mdry := false }) else .next s
         | _ => .next s
       | _ => .next s)
  | _, _ => .next s

/-! ### Retirement (R166) -/

/-- A retirement joins those in progress. -/
def State.addRetire (s : State) (r : Retire) : State := { s with retires := s.retires ++ [r] }

/-- RETIRE_START: the allocator checks the tag at the head of the store FIFO and marks its index retiring. -/
def execRetireStart (s : State) : Out :=
  match s.me.st.running .sq with
  | some h =>
    (match h.cmd with
     | .tretire t =>
       let r := s.tagRec (tagDie t) (tagIdx t)
       if r.st = .live ∧ r.vi = s.me.st.vi ∧ r.gen.toNat = t.toNat / 65536 then
         let s1 := s.setTag { r with st := .retiring }
         let q : Retire := ⟨r.die, r.idx, r.vi, some (s.me.st.node, s.me.st.idx), [], []⟩
         .next ((s1.updHead .sq fun h => { h with stage := .submitted }).addRetire q)
       else .next ((s.updSt fun u => u.record (accessTrap .tagStale .sq h.waddr 0 t)).performed .sq)
     | _ => .next s)
  | none => .next s

/-- Whether some shadow bytes belong to cells of a tag at a home. -/
def usesTag (l : List ShadowByte) (id home : Nat) : Bool := l.any fun b => b.tw && decide (tagId b.tag = id) && decide (homeDie b.pa = home)

/-- Whether a running copy, collective or matrix entry reads or writes the tag's cells at a home. -/
def State.tagBusy (s : State) (id home : Nat) : Bool :=
  (s.shadow.any fun q => decide (q.reads = id) || usesTag q.bytes id home) ||
  (s.clusters.any fun c => match c.st.mrun with
    | some r => (decide (tagId r.blk.tag = id) && r.homes.contains home) || usesTag r.claim id home
    | none => false)

/-- A home frees the cells of a tag, without writing them back. -/
def State.freeCells (s : State) (id die : Nat) : State :=
  let mine := fun (line tag : Nat) => decide (tag = id) && decide (homeDie (64 * line) = die)
  { s with cells := s.cells.filter fun c => !mine c.line c.tag, l2 := s.l2.filter fun x => !mine x.line x.tag,
           cellPoison := s.cellPoison.filter fun x => !mine x.1 x.2 }

/-- RETIRE_NOTICE: home `die` treats the tag as stale from now on; once the running commands that use its cells there
have ended it frees the cells and acknowledges. -/
def execRetireNotice (k die : Nat) (s : State) : Out :=
  match s.retires[k]? with
  | some r =>
    let id := r.die * 2048 + r.idx
    if r.acks.contains die ∨ 24 ≤ die then .next s
    else
      let r1 := { r with noticed := if r.noticed.contains die then r.noticed else r.noticed ++ [die] }
      if s.tagBusy id die then .next { s with retires := setAt s.retires k r1 }
      else .next ({ s with retires := setAt s.retires k { r1 with acks := r1.acks ++ [die] } }.freeCells id die)
  | none => .next s

/-- RETIRE_COMPLETE: every home has acknowledged; the index is free at the next generation. -/
def execRetireComplete (k : Nat) (s : State) : Out :=
  match s.retires[k]? with
  | some r =>
    if (List.range 24).all r.acks.contains then
      let q := s.tagRec r.die r.idx
      let s1 := { s.setTag { q with st := .free, gen := q.gen + 1 } with retires := s.retires.eraseIdx k }
      match r.owner with
      | some (node, idx) => .next (s1.onStrand node idx fun s =>
          match s.me.st.squ with
          | h :: _ => (s.updSt fun t => t.logged h.waddr none).performed .sq
          | [] => s)
      | none => .next s1
    else .next s
  | none => .next s

/-- R171: the value of TSTAT. -/
def State.tagStatus (s : State) (vi : Nat) (t : BitVec 20) : Word :=
  if tagId t = 0 then 1
  else
    let r := s.tagRec (tagDie t) (tagIdx t)
    let mine := decide (r.vi = vi) && decide (r.gen.toNat = t.toNat / 65536)
    let live := decide (r.st = .live) && mine
    let retiring := decide (r.st = .retiring) && mine
    let other := decide (r.st ≠ .free) && decide (r.vi ≠ vi)
    let cells := if live || retiring then (s.cells.filter fun c => decide (c.tag = tagId t)).length else 0
    BitVec.ofNat 64 (live.toNat + retiring.toNat * 2 + (if other then 0 else r.gen.toNat) * 2 ^ 16 + cells * 2 ^ 32)

end Sys2Proof.Machine
end

