-- ==== Sys2Proof/Machine/Copy.lean ====
section
/-!
DEFINITION. The copy engine (R72, R73, R88 to R99), publishing (R135 to R138), and the words that read its status.
-/

namespace Sys2Proof.Machine

/-! ### Issue -/

/-- A copy form at issue: every register operand is captured (R78, R88). -/
def issueCopy (op : KOp) (g : Guard) (o : CopyOps) (s : State) : Out :=
  guarded g s fun s =>
    let n := copyParams op
    let rs := [o.d, o.a, o.b, o.t] ++ (if n = 2 then [regPlus o.b 1] else []) ++ (if o.x then [regPlus o.b n] else [])
    reading rs s fun s =>
      issueK (.copy op o.x (s.getG o.d) (s.getG o.a) (s.getG o.b) (if n = 2 then s.getG (regPlus o.b 1) else 0)
        (if o.x then s.getG (regPlus o.b n) else 0)) (s.getG o.t) s

/-- `kcopy gD, gA, gB`. -/
def execKcopy (g : Guard) (o : CopyOps) (s : State) : Out := issueCopy .copy g o s
/-- `kcopy2d gD, gA, gB`. -/
def execKcopy2d (g : Guard) (o : CopyOps) (s : State) : Out := issueCopy .copy2d g o s
/-- `kfill gD, gA, gB`. -/
def execKfill (g : Guard) (o : CopyOps) (s : State) : Out := issueCopy .fill g o s
/-- `kgather gD, gA, gB`. -/
def execKgather (g : Guard) (o : CopyOps) (s : State) : Out := issueCopy .gather g o s
/-- `kscatter gD, gA, gB`. -/
def execKscatter (g : Guard) (o : CopyOps) (s : State) : Out := issueCopy .scatter g o s
/-- `kpair gD, gA, gB`. -/
def execKpair (g : Guard) (o : CopyOps) (s : State) : Out := issueCopy .pair g o s

/-- `kpub [gA], tk=gT` (R137). -/
def execKpub (g : Guard) (a t : Reg) (s : State) : Out :=
  guarded g s fun s => reading [a, t] s fun s =>
    loggedOr s (fun s => if queueFull s.me.st.kqu then wait s else issueK .kpubLogged (s.getG t) (s.updSt fun t => t.rebind s.ctl.pc))
      (fun s => issueK (.kpub (s.getG a)) (s.getG t) s)

/-- KS as one register (R99). -/
def Ctl.ks (c : Ctl) : Word :=
  BitVec.ofNat 64 (c.ksErr.toNat + c.ksMore.toNat * 2 ^ 8 + c.ksOut.toNat * 2 ^ 16 + c.ksErrSeq.toNat * 2 ^ 32)

/-- `kwait gD, gA` (R98). -/
def execKwait (g : Guard) (d a : Reg) (s : State) : Out :=
  guarded g s fun s => reading [a] s fun s =>
    if s.ctl.ksOut.toNat ≤ (s.getG a).toNat then
      done ((s.writeG d s.ctl.ks).updCtl fun c => { c with ksErr := 0, ksMore := false, ksErrSeq := 0 })
    else wait s

/-- `kstat gD` (R98). -/
def execKstat (g : Guard) (d : Reg) (s : State) : Out := compute g [] d (fun s => s.ctl.ks) s

/-! ### What a command moves (R89, R91, R94) -/

/-- A run of bytes that a command moves; without a source it is the pattern of a fill. -/
structure Move where
  dst : Word
  src : Option Word
  n : Nat
  deriving DecidableEq, Repr

/-- R89: whether a command's parameter registers lie within their limits. -/
def copyLimits (op : KOp) (gb : Word) : Bool :=
  let b := gb.toNat
  let lo := b % 2 ^ 25
  match op with
  | .copy => decide (b ≤ 2 ^ 24)
  | .fill => decide (b ≤ 2 ^ 24)
  | .copy2d => decide (lo ≤ 2 ^ 24) && decide (b / 2 ^ 32 ≤ 65536) && decide (b % 2 ^ 32 = lo)
  | .pair =>
    decide (1 ≤ b % 65536) && decide (b % 65536 ≤ 256) && decide (1 ≤ b / 65536 % 65536) && decide (b / 65536 % 65536 ≤ 256) &&
      decide (b / 2 ^ 32 ≤ 3)
  | _ => decide (b % 2 ^ 32 ≤ 65536) && decide (1 ≤ b / 2 ^ 32) && decide (b / 2 ^ 32 ≤ 4096)

/-- The moves of a command in the order of R91 and R94; `list` is the index list. -/
def copyMoves (op : KOp) (gd ga gb gb1 : Word) (list : List Word) : List Move :=
  let b := gb.toNat
  match op with
  | .copy => [⟨gd, some ga, b⟩]
  | .fill => [⟨gd, none, b⟩]
  | .copy2d => (List.range (b / 2 ^ 32)).map fun y =>
      ⟨gd + pitch (gb1.toNat / 2 ^ 32) y, some (ga + pitch gb1.toNat y), b % 2 ^ 25⟩
  | .gather => (List.range list.length).map fun k =>
      ⟨gd + BitVec.ofNat 64 (k * (b / 2 ^ 32)), some (list.getD k 0), b / 2 ^ 32⟩
  | .scatter => (List.range list.length).map fun k =>
      ⟨list.getD k 0, some (ga + BitVec.ofNat 64 (k * (b / 2 ^ 32))), b / 2 ^ 32⟩
  | .pair =>
    let rows := b % 65536
    let cols := b / 65536 % 65536
    let es := 2 ^ (b / 2 ^ 32)
    (List.range (rows * cols)).flatMap fun k =>
      let src := some (ga + BitVec.ofNat 64 (k * es))
      [⟨gd + BitVec.ofNat 64 (k * es), src, es⟩, ⟨gb1 + BitVec.ofNat 64 ((k % cols * rows + k / cols) * es), src, es⟩]

/-- Address and length of the index list of a command. -/
def copyList (op : KOp) (gd ga gb : Word) : Word × Nat :=
  match op with
  | .gather => (ga, gb.toNat % 2 ^ 32)
  | .scatter => (gd, gb.toNat % 2 ^ 32)
  | _ => (0, 0)

/-- R94, R89: alignment of the index list and of a pair, and the overlap of a pair's destinations. -/
def copyAligned (op : KOp) (gd ga gb gb1 : Word) : Bool :=
  match op with
  | .pair =>
    let es := 2 ^ (gb.toNat / 2 ^ 32)
    let n := gb.toNat % 65536 * (gb.toNat / 65536 % 65536) * es
    decide (gd.toNat % es = 0) && decide (ga.toNat % es = 0) && decide (gb1.toNat % es = 0) &&
      (decide (gd.toNat + n ≤ gb1.toNat) || decide (gb1.toNat + n ≤ gd.toNat))
  | _ => decide ((copyList op gd ga gb).1.toNat % 8 = 0)

/-- The two tags of an explicit tag register (R38, R89): source, destination. -/
def copyTags (v : Word) : BitVec 20 × BitVec 20 := (v.setWidth 20, (v >>> 32).setWidth 20)

/-- R89: whether an explicit tag register holds two well-formed tags and nothing else; a fill ignores the source tag. -/
def copyTagsOk (op : KOp) (v : Word) : Bool :=
  (decide (op = .fill) || tagValueOk ((copyTags v).1.setWidth 64)) && tagValueOk ((copyTags v).2.setWidth 64) &&
    decide (v.toNat / 2 ^ 20 % 2 ^ 12 = 0) && decide (v.toNat / 2 ^ 52 = 0)

/-! ### Granules (R72) -/

/-- A 64 KiB granule that a side of a command touches, from its lowest to its highest byte. -/
structure Gran where
  g : Nat
  lo : Nat
  hi : Nat
  deriving DecidableEq, Repr

/-- Adds a stretch of bytes of one granule to a list in ascending order. -/
def addGran (l : List Gran) (x : Gran) : List Gran :=
  match l with
  | [] => [x]
  | y :: r =>
    if y.g = x.g then ⟨y.g, if x.lo < y.lo then x.lo else y.lo, if y.hi < x.hi then x.hi else y.hi⟩ :: r
    else if x.g < y.g then x :: y :: r
    else y :: addGran r x

/-- The granules of `n` bytes from `va` on, added to a list. -/
def addRange (l : List Gran) (va n : Nat) : List Gran :=
  if n = 0 then l
  else
    (List.range ((va + n - 1) / 65536 - va / 65536 + 1)).foldl (fun l k =>
      let g := va / 65536 + k
      addGran l ⟨g, if k = 0 then va else g * 65536, if g = (va + n - 1) / 65536 then va + n - 1 else g * 65536 + 65535⟩) l

/-- Translates granules in ascending order; the first fault ends it with its cause and address. -/
def State.mapAll (s : State) (l : List Gran) (write : Bool) (tag : Option (BitVec 20)) (acc : List Mapped) :
    State × Except (Cause × Nat) (List Mapped) :=
  match l with
  | [] => (s, .ok acc.reverse)
  | x :: r =>
    match s.lookup x.lo (x.hi - x.lo + 1) write tag with
    | (s1, .error c) => (s1, .error (c, x.lo))
    | (s1, .ok pl) => s1.mapAll r write tag (⟨x.lo, x.hi, pl⟩ :: acc)

/-- The place of a byte of a translated side. -/
def placeAt (m : List Mapped) (va : Nat) : Place :=
  match m.find? fun x => decide (x.lo ≤ va) && decide (va ≤ x.hi) with
  | some x =>
    (match x.pl with
     | .spad off => .spad (off + (va - x.lo))
     | .mem pa type => .mem (pa + (va - x.lo)) type)
  | none => .spad 0

/-- Whether a side touches a page of a type. -/
def touches (m : List Mapped) (type : Nat) : Bool := m.any fun x => match x.pl with
  | .mem _ t => decide (t = type)
  | .spad _ => false

/-- Physical granules of the sides outside the window (R73). -/
def pinned (m : List Mapped) : List Nat := m.filterMap fun x => match x.pl with
  | .mem pa _ => some (canon pa / 65536)
  | .spad _ => none

/-- The 16 KiB window granules that `n` bytes from an address on touch. -/
def windowSpan (va n : Nat) : List Nat :=
  if n = 0 ∨ va + n ≤ spadBase then []
  else
    let lo := (va - spadBase) / 16384
    (List.range ((va + n - 1 - spadBase) / 16384 - lo + 1)).map fun k => lo + k

/-- The 16 KiB window granules that some stretches touch (R97). -/
def windowGrans (l : List (Word × Nat)) : List Nat := (l.flatMap fun x => windowSpan x.1.toNat x.2).eraseDups

/-! ### Pins (R73) -/

/-- Counts a granule up in the page-lock table of a die. -/
def pinOne (die : Nat) (l : List Pin) (g : Nat) : List Pin :=
  if l.any fun p => decide (p.die = die) && decide (p.granule = g) then
    l.map fun p => if p.die = die ∧ p.granule = g then { p with count := p.count + 1 } else p
  else l ++ [⟨die, g, 1⟩]

/-- Counts a granule down; an entry whose count reaches 0 is freed. -/
def unpinOne (die : Nat) (l : List Pin) (g : Nat) : List Pin :=
  (l.map fun p => if p.die = die ∧ p.granule = g then { p with count := p.count - 1 } else p).filter fun p => decide (p.count ≠ 0)

/-- Entries in use on a die. -/
def pinsUsed (die : Nat) (l : List Pin) : Nat := (l.filter fun p => decide (p.die = die)).length

/-! ### Reading the source (R91) -/

/-- The status of a cause that a copy's access meets (R95). -/
def copyStatus (c : Cause) : Nat :=
  match c with
  | .memPoison => 3
  | .memRange => 6
  | _ => 2

/-- A byte of another package as its owner has fetched it; 8 stands for a lost destination (R383), 7 for an answer that has
not come. -/
def State.snapFetched (s : State) (o : Owner) (pa : Nat) : Except Nat Byte :=
  match s.fetchedByte o pa with
  | none => .error 7
  | some (.ok b) => .ok b
  | some (.error .fabLost) => .error 8
  | some (.error c) => .error (copyStatus c)

/-- One source byte, or the status of its failure; 8 stands for a lost destination (R383), which a copy reports as a path
that is down, and 7 for an answer of another package that the owner still awaits. -/
def State.snapByte (s : State) (o : Owner) (pl : Place) (tag : BitVec 20) : Except Nat Byte :=
  match pl with
  | .spad off => .ok (s.me.st.spad.read off)
  | .mem pa type =>
    if type = tSys then
      if !s.zEnabled s.me.st.vi then .error 6
      else if windowPkg pa = s.pkg then
        match s.exportRead (s.rvi s.me.st.vi) (windowOff pa) 1 with
        | .ok bs => .ok (bs.headD 0)
        | .error c => .error (copyStatus c)
      else if (s.peer (windowPkg pa)).lost then .error 8
      else s.snapFetched o pa
    else
      match s.homeErr s.me.st.vi pa type 1 tag false with
      | some c => .error (copyStatus c)
      | none => .ok ((s.homeRead pa type 1 tag).headD 0)

/-- The status with which a copy ends for a source byte that failed (R95). -/
def endStatus (e : Nat) : Nat := if e = 8 then 2 else e

/-- The bytes of one move. -/
def State.snap (s : State) (o : Owner) (m : List Mapped) (tag : BitVec 20) (va : Word) (n : Nat) (acc : List Byte) :
    Except Nat (List Byte) :=
  match n with
  | 0 => .ok acc.reverse
  | n + 1 =>
    match s.snapByte o (placeAt m va.toNat) tag with
    | .ok b => s.snap o m tag (va + 1) n (b :: acc)
    | .error e => .error e

/-- Byte `i` of a fill (R91). -/
def fillByte (pat : Word) (i : Nat) : Byte := BitVec.ofNat 8 (pat.toNat / 2 ^ (8 * (i % 8)))

/-- Every move with its bytes: the whole source is read first. -/
def State.snapAll (s : State) (o : Owner) (m : List Mapped) (tag : BitVec 20) (pat : Word) (l : List Move) :
    Except Nat (List (Word × List Byte)) :=
  match l with
  | [] => .ok []
  | x :: r =>
    match (match x.src with
      | some a => s.snap o m tag a x.n []
      | none => .ok ((List.range x.n).map (fillByte pat))) with
    | .error e => .error e
    | .ok bs =>
      match s.snapAll o m tag pat r with
      | .error e => .error e
      | .ok l => .ok ((x.dst, bs) :: l)

/-! ### Shadow lines (R92) -/

/-- The order of shadow bytes: by line, tag and place in the line. -/
def ShadowByte.before (b x : ShadowByte) : Bool :=
  decide (b.pa / 64 < x.pa / 64) || (decide (b.pa / 64 = x.pa / 64) &&
    (decide (b.tag.toNat < x.tag.toNat) || (decide (b.tag = x.tag) && decide (b.pa < x.pa))))

/-- Puts a byte into a sorted list; a later byte wins. -/
def putShadow (l : List ShadowByte) (b : ShadowByte) : List ShadowByte :=
  match l with
  | [] => [b]
  | x :: r => if x.pa = b.pa ∧ x.tag = b.tag then b :: r else if b.before x then b :: x :: r else x :: putShadow r b

/-- Writes the bytes of a move: in place in the scratchpad, as shadow bytes elsewhere. -/
def State.putBytes (s : State) (m : List Mapped) (tag : BitVec 20) (va : Word) (bs : List Byte) (acc : List ShadowByte) :
    State × List ShadowByte :=
  match bs with
  | [] => (s, acc)
  | b :: r =>
    match placeAt m va.toNat with
    | .spad off => (s.updSt fun t => { t with spad := t.spad.write off b }).putBytes m tag (va + 1) r acc
    | .mem pa type =>
      let cell := usesCell type tag
      s.putBytes m tag (va + 1) r (putShadow acc ⟨canon pa, if cell then tag else 0, cell, decide (type = tPub), b, va⟩)

/-- R136: shadow bytes where they flip in now: those of a publishable region into the half that is the shadow half. -/
def State.settled (s : State) (l : List ShadowByte) : List ShadowByte :=
  l.map fun b => if b.pub then { b with pa := s.storage b.pa tPub true } else b

/-- Whether the line of some bytes is poisoned: their cell where there is one, else the base line. -/
def State.linePoisoned (s : State) (x : Nat × List ShadowByte) : Bool :=
  match x.2 with
  | b :: _ => s.poisoned (64 * x.1) (tagId b.tag) b.tw
  | [] => false

/-- Why a system-window line that is written in part cannot be written (R92, R378). Of a line at another package the owner
has made a load, whose reply tells; log entry 119. -/
def State.windowErr (s : State) (o : Owner) (vi line n : Nat) : Option Nat :=
  let pa := 64 * line
  if !s.zEnabled vi then some 6
  else if windowPkg pa = s.pkg then
    (match s.exported (s.rvi vi) (windowOff pa) n true with
     | .error c => some (copyStatus c)
     | .ok _ => none)
  else if (s.peer (windowPkg pa)).lost then some 2
  else
    match s.fetchedByte o pa with
    | some (.error c) => some (copyStatus c)
    | _ => none

/-- The system-window lines that a command writes in part. -/
def partWindow (l : List (Nat × List ShadowByte)) : List Nat :=
  l.filterMap fun x => if x.2.length ≠ 64 ∧ windowBase ≤ 64 * x.1 then some (64 * x.1) else none

/-- R92: why a line that the command writes in part cannot be written: poison, link or range. -/
def State.partErr (s : State) (o : Owner) (vi : Nat) (x : Nat × List ShadowByte) : Option Nat :=
  if x.2.length = 64 then none
  else if windowBase ≤ 64 * x.1 then s.windowErr o vi x.1 x.2.length
  else
    match s.unbacked (64 * x.1) with
    | some c => some (copyStatus c)
    | none => if s.linePoisoned x then some 3 else none

/-- Whether every home has room for the shadow lines and the cells of a command whose bytes grow from `old` to `l`. -/
def State.shadowFits (s : State) (old l : List ShadowByte) : Bool :=
  (List.range 24).all fun d =>
    decide (s.shadowLines d + linesAt l d ≤ 262144 + linesAt old d) &&
      (decide (s.cellsNeeded (s.allShadow ++ l) d = s.cellsNeeded s.allShadow d) ||
        decide (s.cellsUsed d + s.cellsNeeded (s.allShadow ++ l) d ≤ s.cellRoom d))

/-- Maximal runs of consecutive bytes of a line, as address and bytes. -/
def shadowRuns (l : List ShadowByte) : List (Nat × List Byte) :=
  l.foldr (fun x acc => match acc with
    | (o, bs) :: r => if o = x.pa + 1 then (x.pa, x.val :: bs) :: r else (x.pa, [x.val]) :: acc
    | [] => [(x.pa, [x.val])]) []

/-- The bytes of one line reach the home, into the cell of their tag or the base line. -/
def State.flipRuns (s : State) (x : Nat × List ShadowByte) : State :=
  let b := x.2.headD ⟨0, 0, false, false, 0, 0⟩
  (shadowRuns x.2).foldl (fun s r => if b.tw then s.cellWrite r.1 (tagId b.tag) r.2 else s.baseWrite r.1 r.2) s

/-- One line flips in, whole; a line poisoned meanwhile, or behind a lost link, yields a status (R92, R117). -/
def State.flipLine (s : State) (x : Nat × List ShadowByte) : State × Nat :=
  match s.unbacked (64 * x.1) with
  | some c => (s, copyStatus c)
  | none => if decide (x.2.length ≠ 64) && s.linePoisoned x then (s, 3) else (s.flipRuns x, 0)

/-- The lines of a list flip in, until one fails: its bytes and those behind it are discarded (R95). -/
def State.flipLines (s : State) (l : List (Nat × List ShadowByte)) (st : Nat) : State × Nat :=
  match l with
  | [] => (s, st)
  | x :: r => if st ≠ 0 then (s, st) else let p := s.flipLine x; p.1.flipLines r p.2

/-- Whether the flip of a line would fail now. -/
def State.flipBad (s : State) (x : Nat × List ShadowByte) : Bool :=
  (s.unbacked (64 * x.1)).isSome || (decide (x.2.length ≠ 64) && s.linePoisoned x)

/-- R136, R95: the lines of publishable regions take a command's bytes together, once nothing else of it can fail, or none
of them does. -/
def State.flipPub (s : State) (l : List ShadowByte) : State × Nat :=
  let lines := byLine (s.settled (l.filter fun b => b.pub))
  if lines.any s.flipBad then (s, 3) else s.flipLines lines 0

/-- R108: a destination line leaves the issuing cluster's L1; of a private-dirty line the bytes outside the destination
are written back first. -/
def State.l1CopyDrop (s : State) (x : Nat × List ShadowByte) : State :=
  match s.me.l1Line x.1 with
  | some l =>
    let keep := (List.range 64).filter fun o => !(x.2.any fun b => decide (b.pa % 64 = o))
    let s1 := if l.st = .privateDirty then
      keep.foldl (fun s o => s.baseWrite (64 * x.1 + o) [l.data.getD o 0]) s else s
    { s1 with me := s1.me.l1Drop x.1 }
  | none => s

/-! ### Submission (R90) -/

/-- A command that failed: COPY_FAIL with its status, no tokens (R95). -/
def State.copyFail (s : State) (h : Entry) (code : Nat) : State :=
  s.updSt fun t =>
    let t1 := if code = 5 then t else t.record { TrapRec.defer .copyFail .k h.waddr with info16 := BitVec.ofNat 16 code }
    { t1.popHead .k with ctl := t1.ctl.copyEnded code t1.ctl.headSeq }

/-- The tags that a command reads and writes under (R56). -/
def copyTagPair (h : Entry) (x : Bool) (tags : Word) : BitVec 20 × BitVec 20 := if x then copyTags tags else (h.tag, h.tag)

/-- R94: whether both destinations of a pair lie in PUB pages of one publishable region. -/
def State.pairRegionOk (s : State) (dst : List Mapped) : Bool :=
  let regs : List (Option Nat) := dst.map fun x => match x.pl with
    | .mem pa type => if type = tPub then (s.pubOf (canon pa)).map fun (p : Pub) => p.base else none
    | .spad _ => none
  regs.all fun r => r.isSome && decide (some r = regs.head?)

/-- Regions that a set of destinations writes. -/
def State.regionsOf (s : State) (dst : List Mapped) : List Nat :=
  (dst.filterMap fun x => match x.pl with
    | .mem pa type => if type = tPub then (s.pubOf (canon pa)).map fun (p : Pub) => p.base else none
    | .spad _ => none).eraseDups

/-- The first granule of a side that is a tagged page at whose home the tag is stale (R167): the address of its first
access there. -/
def State.staleSide (s : State) (m : List Mapped) (t : BitVec 20) : Option Word :=
  (m.find? fun y => match y.pl with
    | .mem pa type => decide (type = tTw) && s.staleAt s.me.st.vi t (homeDie (canon pa))
    | .spad _ => false).map fun y => BitVec.ofNat 64 y.lo

/-- The first granule of a side of a memory type, by the address of its first access there. -/
def firstOf (m : List Mapped) (type : Nat) : Option Word :=
  (m.find? fun x => match x.pl with
    | .mem _ t => decide (t = type)
    | .spad _ => false).map fun x => BitVec.ofNat 64 x.lo

/-- Counts a writer of some regions up or down, in their entries at the homes (R113, R135). -/
def State.countWriters (s : State) (regions : List Nat) (up : Bool) : State :=
  regions.foldl (fun s b => s.selUse b true)
    { s with pubs := s.pubs.map fun p => if regions.contains p.base then { p with writers := if up then p.writers + 1 else p.writers - 1 } else p }

/-- The physical bytes of some stretches of a side. -/
def sideBytes (m : List Mapped) (l : List (Word × Nat)) : List Place :=
  l.flatMap fun x => (List.range x.2).map fun i => match placeAt m (x.1 + BitVec.ofNat 64 i).toNat with
    | .mem pa type => .mem (canon pa) type
    | .spad off => .spad off

/-- The stretches that the moves of a command read. -/
def moveReads (moves : List Move) : List (Word × Nat) := moves.filterMap fun x => x.src.map fun a => (a, x.n)

/-- The stretches that they write. -/
def moveWrites (moves : List Move) : List (Word × Nat) := moves.map fun x => (x.dst, x.n)

/-- Whether two places are one byte. -/
def samePlace : Place → Place → Bool
  | .mem a _, .mem b _ => decide (a = b)
  | .spad a, .spad b => decide (a = b)
  | _, _ => false

/-- R93: whether a command that has HOST on either side reads a byte that it writes. -/
def hostOverlap (moves : List Move) (src dst : List Mapped) : Bool :=
  (touches src tHost || touches dst tHost) &&
    (let ws := sideBytes dst (moveWrites moves)
     (sideBytes src (moveReads moves)).any fun p => ws.any (samePlace p))

/-- The lines of some stretches of a side outside the window, as canonical address and type. -/
def sideLines (m : List Mapped) (l : List (Word × Nat)) : List (Nat × Nat) :=
  l.flatMap fun x => if x.2 = 0 then [] else
    (List.range ((x.1.toNat + x.2 - 1) / 64 - x.1.toNat / 64 + 1)).filterMap fun k =>
      match placeAt m (if k = 0 then x.1.toNat else (x.1.toNat / 64 + k) * 64) with
      | .mem pa type => some (canon pa / 64 * 64, type)
      | .spad _ => none

/-- R108: a private-dirty line goes home and stays, private-clean. -/
def State.l1Clean (s : State) (line : Nat) : State :=
  match s.me.l1Line line with
  | some l =>
    let s1 := s.l1Flush l
    { s1 with me := if l.st = .privateDirty then s1.me.l1Put { l with st := .privateClean } else s1.me }
  | none => s

/-- Whether a destination touches a locked input granule of the window (R97). -/
def Strand.locksTouch (t : Strand) (dst : List (Word × Nat)) : Bool := (windowGrans dst).any t.locks.contains

/-- The system-window lines of some stretches of a side. -/
def sysLines (m : List Mapped) (l : List (Word × Nat)) : List Nat :=
  ((sideLines m l).filterMap fun x => if x.2 = tSys then some x.1 else none).eraseDups

/-- Whether a KPUB that has begun to wait for the writers of a region holds new commands to it back (R137). -/
def State.pubHeld (s : State) (regions : List Nat) : Bool :=
  (s.me :: s.peers).any fun c => match c.st.kqu with
    | h :: _ => (match h.cmd with
      | .kpub _ => decide (h.stage = .begun) && decide (h.done ≠ 0) && regions.contains (h.done - 1)
      | _ => false)
    | [] => false

/-- The 64 KiB pages of both sides outside the window, by page number and physical granule. -/
def sidePages (m : List Mapped) : List (Nat × Nat) := m.filterMap fun x => match x.pl with
  | .mem pa _ => some (x.lo / 65536, canon pa / 65536)
  | .spad _ => none

/-- Step 6 of R90, with the moment of R91 at which the command reads its source and writes its window bytes: here one and
the same, once steps 3 to 5 are done and the source lines of other packages have come; log entry 88. `s5` is the state
behind step 5. -/
def State.copyRunStart (s5 : State) (h : Entry) (pat : Word) (moves : List Move) (src dst : List Mapped) (st dt : BitVec 20) :
    State :=
  match s5.snapAll s5.kOwner src st pat moves with
  | .error e => s5.copyFail h (endStatus e)
  | .ok l =>
    let s6 := (sideLines src (moveReads moves)).foldl (fun s x => s.homeTouch x.1 x.2 st) s5
    let (s7, bytes) := l.foldl (fun (p : State × List ShadowByte) x => p.1.putBytes dst dt x.1 x.2 p.2) (s6, [])
    let grans := (pinned src ++ pinned dst).eraseDups
    let window := windowGrans (moveWrites moves)
    let q : CopyRun := ⟨s5.me.key, bytes, grans, s5.me.st.vi, sidePages src ++ sidePages dst, s5.regionsOf dst, window,
      if touches src tTw then tagId st else 0⟩
    let s8 := { s7 with pins := grans.foldl (pinOne s5.me.die) s7.pins, shadow := s7.shadow ++ [q] }
    let s9 := (s8.countWriters (s5.regionsOf dst) true).l2Yield.updSt fun t => t.filled window (some h)
    s9.updHead .k fun h => { h with stage := .submitted }

/-- The bytes that a command will write outside the window, with no value yet: what steps 3 and 4 of R90 reserve. -/
def State.copyShape (s : State) (moves : List Move) (dst : List Mapped) (dt : BitVec 20) : List ShadowByte :=
  moves.foldl (fun acc x => (s.putBytes dst dt x.dst (List.replicate x.n 0) acc).2) []

/-- Steps 3 to 6 of R90, once both sides have translated; `lock` names the window granules of an index list. Shadow space
and pins are taken together (log entry 88), and OVERLAP is judged before the source is read (log entry 90). The lines of
other packages that step 3 judges or the source names are loaded first. -/
def State.copyReserve (s : State) (h : Entry) (pat : Word) (moves : List Move) (src dst : List Mapped) (st dt : BitVec 20)
    (lock : List Nat) : State :=
  let shape := s.copyShape moves dst dt
  let lines := byLine (s.settled shape)
  let grans := (pinned src ++ pinned dst).eraseDups
  let fresh := grans.filter fun g => !(s.pins.any fun p => decide (p.die = s.me.die) && decide (p.granule = g))
  if s.pubHeld (s.regionsOf dst) then s
  else
    let (s0, known) := s.fetch s.me.st.vi s.kOwner (partWindow lines)
    if !known then s0
    else
      match lines.findSome? (s0.partErr s.kOwner s.me.st.vi) with
      | some e => s0.copyFail h e
      | none =>
        if !s0.shadowFits [] shape || decide (16384 < pinsUsed s.me.die s.pins + fresh.length) then s0
        else
          match s0.lockWindow (lock ++ windowGrans (moveReads moves)) with
          | none => s0
          | some s1 =>
            let s5 := (sideLines src (moveReads moves)).foldl (fun s x => s.l1Clean (x.1 / 64)) s1
            if hostOverlap moves src dst then s5.copyFail h 4
            else
              match s5.fetch s.me.st.vi s.kOwner (sysLines src (moveReads moves)) with
              | (_, true) => s5.copyRunStart h pat moves src dst st dt
              | (s6, false) => s6

/-- The index list of a command as the engine reads it under CTAG (R89), with the window granules that it lies in, or what
stops the command. -/
inductive ListGot where
  | list (s : State) (window : List Nat) (l : List Word)
  | fault (s : State) (c : Cause) (va : Nat)
  | stale (s : State) (va : Word)
  | failed (s : State) (code : Nat)
  | later (s : State)

/-- Reads the index list of a command, for an owner; commands without one have the empty list. -/
def State.readList (s : State) (o : Owner) (h : Entry) (op : KOp) (gd ga gb : Word) : ListGot :=
  let (lva, cnt) := copyList op gd ga gb
  match s.mapAll (addRange [] lva.toNat (8 * cnt)) false none [] with
  | (s1, .error (c, va)) => .fault s1 c va
  | (s1, .ok m) =>
    match s1.staleSide m h.tag with
    | some va => .stale s1 va
    | none =>
      match s1.fetch s1.me.st.vi o (sysLines m [(lva, 8 * cnt)]) with
      | (s2, false) => .later s2
      | (s2, true) =>
        match s2.snap o m h.tag lva (8 * cnt) [] with
        | .error e => .failed s2 e
        | .ok bs =>
          let s3 := (sideLines m [(lva, 8 * cnt)]).foldl (fun s x => s.homeTouch x.1 x.2 h.tag) s2
          .list s3 (windowGrans [(lva, 8 * cnt)]) ((List.range cnt).map fun k => BitVec.ofNat 64 (leNat ((bs.drop (8 * k)).take 8)))

/-- The moves of a command that move something. -/
def realMoves (op : KOp) (gd ga gb gb1 : Word) (list : List Word) : List Move :=
  (copyMoves op gd ga gb gb1 list).filter fun m => decide (m.n ≠ 0)

/-- The granules that some stretches touch. -/
def stretchGrans (l : List (Word × Nat)) : List Gran := l.foldl (fun l x => addRange l x.1.toNat x.2) []

/-- The first granule of a side of a pair that is not a PUB page of the region of the others (R94). -/
def State.pairBad (s : State) (dst : List Mapped) : Word :=
  let reg := fun (x : Mapped) => match x.pl with
    | .mem pa type => if type = tPub then (s.pubOf (canon pa)).map fun (p : Pub) => p.base else none
    | .spad _ => none
  let first := dst.findSome? reg
  match dst.find? fun x => (reg x).isNone || decide (reg x ≠ first) with
  | some x => BitVec.ofNat 64 x.lo
  | none => 0

/-- Translation of both sides and the checks behind it (R90, step 2), then the later steps. A record names the first
granule that offends. -/
def State.copyCheck (s : State) (h : Entry) (op : KOp) (x : Bool) (pat : Word) (moves : List Move) (tags : Word)
    (lock : List Nat) : State :=
  let (st, dt) := copyTagPair h x tags
  let ex := fun (t : BitVec 20) => if x then some t else none
  match s.mapAll (stretchGrans (moveReads moves)) false (ex st) [] with
  | (s1, .error (c, va)) => s1.faultEntry .k h c (BitVec.ofNat 64 va) false (ex st)
  | (s1, .ok src) =>
    match s1.mapAll (stretchGrans (moveWrites moves)) true (ex dt) [] with
    | (s2, .error (c, va)) => s2.faultEntry .k h c (BitVec.ofNat 64 va) true (ex dt)
    | (s2, .ok dst) =>
      let s3 := s2.updSt fun t => t.release .k
      match firstOf src tSync, firstOf dst tSync with
      | some va, _ => s3.updSt fun t => t.engEnc .k h 0xFFFF va
      | none, some va => s3.updSt fun t => t.engEnc .k h 0xFFFF va
      | none, none =>
        if op = .pair ∧ !s3.pairRegionOk dst then s3.updSt fun t => t.engEnc .k h 0xFFFF (s3.pairBad dst)
        else
          match s3.staleSide src st, s3.staleSide dst dt with
          | some va, _ => s3.updSt fun t => (t.record (accessTrap .tagStale .k h.waddr va st)).drop .k
          | none, some va => s3.updSt fun t => (t.record (accessTrap .tagStale .k h.waddr va dt)).drop .k
          | none, none => s3.copyReserve h pat moves src dst st dt lock

/-- The data address that offends against the alignment of an index list or of a pair; 0 where none does (R347). -/
def copyBadAddr (op : KOp) (gd ga gb gb1 : Word) : Word :=
  match op with
  | .pair =>
    let es := 2 ^ (gb.toNat / 2 ^ 32 % 4)
    if gd.toNat % es ≠ 0 then gd else if ga.toNat % es ≠ 0 then ga else if gb1.toNat % es ≠ 0 then gb1 else 0
  | _ => let a := (copyList op gd ga gb).1; if a.toNat % 8 = 0 then 0 else a

/-- Steps 1 and 2 of R90. A command that breaks a limit of R89 has no destination for step 1 to judge; the destination of
a scatter is known once its list is (log entry 89). -/
def State.copySubmit (s : State) (h : Entry) (op : KOp) (x : Bool) (gd ga gb gb1 tags : Word) : State :=
  if s.heldNow .k then s
  else if !copyLimits op gb then s.updSt fun t => t.engEnc .k h 0xFFFF (copyBadAddr op gd ga gb gb1)
  else
    let bad := !copyAligned op gd ga gb gb1 || (x && !copyTagsOk op tags)
    let got := s.readList s.kOwner h op gd ga gb
    let list := match got with
      | .list _ _ l => some l
      | _ => none
    let moves := match list with
      | some l => realMoves op gd ga gb gb1 l
      | none => []
    let outside := ((stretchGrans (moveReads moves) ++ stretchGrans (moveWrites moves)).filter fun g =>
      decide (g.g * 65536 < spadBase)).map fun g => g.g
    let packed := if op = .gather then [(gd, (gb.toNat % 2 ^ 32) * (gb.toNat / 2 ^ 32))] else []
    if s.me.st.locksTouch (packed ++ moveWrites moves) then s
    else if bad || decide (256 < outside.eraseDups.length) then
      s.updSt fun t => t.engEnc .k h 0xFFFF (copyBadAddr op gd ga gb gb1)
    else
      match got with
      | .later s1 => s1
      | .fault s1 c va => s1.faultEntry .k h c (BitVec.ofNat 64 va) false none
      | .stale s1 va => s1.updSt fun t => (t.record (accessTrap .tagStale .k h.waddr va h.tag)).drop .k
      | .failed s1 e => s1.copyFail h (endStatus e)
      | .list s1 window _ => s1.copyCheck h op x ga moves tags window

/-- Whether a tear-down has ended the node of the strand of `me` (R337). -/
def State.aborting (s : State) : Bool := s.disp.nodes.any fun n => decide (n.slot = s.me.st.node) && decide (n.status ≠ 0)

/-- The command at the head of the K queue ends ABORTED before it starts (R95, R337). -/
def State.copyAborted (s : State) (h : Entry) : State := (s.updSt fun t => t.release .k).copyFail h 5

/-- The window lines that the copy engine of `me` has loaded go, once its command no longer waits to start. -/
def State.copyLoaded (s : State) (h : Entry) : State :=
  if s.me.st.running .k = some h then s else s.forget fun o => decide (o = s.kOwner)

/-- COPY_SUBMIT: the command at the head of the K queue is submitted (R90). -/
def execCopySubmit (s : State) : Out :=
  match s.me.st.running .k with
  | some h =>
    (match h.cmd with
     | .copy op x gd ga gb gb1 tags =>
       .next ((if s.aborting && !s.heldNow .k then s.copyAborted h else s.copySubmit h op x gd ga gb gb1 tags).copyLoaded h)
     | _ => .next s)
  | none => .next s

/-! ### Completion (R92, R95) -/

/-- Whether the copy engine of `me` waits for answers to the stores of command `seq`. -/
def State.copyReplies (s : State) (seq : Nat) : Bool := s.awaitsEntry .k (some seq)

/-- The bytes for other packages go out as window stores; the first failure is kept. Those for which the pair's retry
buffer has no room wait (R381): they are what is left. -/
def State.sendRuns (s : State) (seq : Nat) (l : List (Nat × List Byte)) (st : Nat) : State × Nat × List (Nat × List Byte) :=
  match l with
  | [] => (s, st, [])
  | x :: r =>
    if st ≠ 0 then (s, st, [])
    else
      match s.request (windowPkg x.1) 0 .k seq (.store (windowOff x.1) x.2) with
      | .now s1 (.ok _) => s1.sendRuns seq r st
      | .now s1 (.error c) => s1.sendRuns seq r (copyStatus c)
      | .away s1 => s1.sendRuns seq r st
      | .full => let p := s.sendRuns seq r st; (p.1, p.2.1, x :: p.2.2)

/-- Whether a byte is among some runs. -/
def inRuns (l : List (Nat × List Byte)) (a : Nat) : Bool := l.any fun r => decide (r.1 ≤ a) && decide (a < r.1 + r.2.length)

/-- A running command releases its pins, its shadow space and its regions. -/
def State.copyRelease (s : State) (q : CopyRun) (die : Nat) : State :=
  { s.countWriters q.regions false with
    pins := q.grans.foldl (unpinOne die) s.pins, shadow := s.shadow.filter fun r => decide (r.key ≠ q.key) }

/-- The command at the head of the K queue ends: with status OK it has been performed (R80), else it fails (R95).
The L1 lines of its destination go whatever the status, log entry 91. -/
def State.copyEnd (s : State) (h : Entry) (q : CopyRun) (code : Nat) : State :=
  let s1 := (byLine q.bytes).foldl State.l1CopyDrop (s.copyRelease q s.me.die)
  if code = 0 then s1.performed .k else s1.copyFail h code

/-- The bytes that a command writes at one of some homes now, by line, with those for other packages as runs. Those of
publishable regions come last (`flipPub`). -/
def CopyRun.flipParts (q : CopyRun) (homes : List Nat) : List (Nat × List ShadowByte) × List (Nat × List Byte) :=
  let here := q.bytes.filter fun b => !b.pub && decide (flipHome b.pa ≠ 24) && homes.contains (flipHome b.pa)
  let out := q.bytes.filter fun b => decide (flipHome b.pa = 24)
  (byLine here, (byLine out).flatMap fun x => shadowRuns x.2)

/-- R95: the CXL memory behind a destination page refuses a write for lack of capacity, at a port that the turn names. -/
def State.cxlRefuses (s : State) (lines : List (Nat × List ShadowByte)) : Bool :=
  lines.any fun x => decide (apert (64 * x.1) = .cxl) && s.input.contains ((64 * x.1 - cxlBase) / cxlPort)

/-- The lines of a command flip at some homes, and its bytes for other packages go out. -/
def State.flipSome (s : State) (q : CopyRun) (seq : Nat) (homes : List Nat) (st : Nat) :
    State × Nat × List (Nat × List Byte) :=
  let (lines, runs) := q.flipParts homes
  if s.cxlRefuses lines then (s, if st = 0 then 1 else st, [])
  else
    let p := s.flipLines lines st
    p.1.sendRuns seq runs p.2

/-- What is left of a command's bytes: those of homes that have not flipped, those still to be sent, and those of
publishable regions. -/
def leftBytes (q : CopyRun) (homes : List Nat) (runs : List (Nat × List Byte)) : List ShadowByte :=
  q.bytes.filter fun b => if flipHome b.pa = 24 then inRuns runs b.pa else b.pub || !homes.contains (flipHome b.pa)

/-- A running command is left with some bytes. -/
def State.setRunBytes (s : State) (key : Nat) (bytes : List ShadowByte) : State :=
  { s with shadow := s.shadow.map fun x => if x.key = key then { x with bytes := bytes } else x }

/-- A command without an entry flips its lines at some homes; after the last, and the answers of other packages, it
releases what it holds. Its stores have its key as their entry's number. -/
def State.orphanFlip (s : State) (q : CopyRun) (homes : List Nat) : State :=
  let (s1, st, runs) := s.flipSome q q.key homes 0
  let rest := leftBytes q homes runs
  let s2 := (byLine (q.bytes.filter fun b => !rest.contains b)).foldl State.l1CopyDrop s1
  if st ≠ 0 then s2.copyRelease q s.me.die
  else if (rest.all fun b => b.pub) && !s2.copyReplies q.key then (s2.flipPub rest).1.copyRelease q s.me.die
  else s2.setRunBytes q.key rest

/-- COPY_COMPLETE: the homes named flip their lines of the command; after the last flip, and the answers of other
packages, it completes. Bit d of the entry's count says that home d has flipped; from bit 32 on stands a status. Without
a command of its own the cluster's engine goes on with one that a rollback has left running. -/
def execCopyComplete (homes : List Nat) (s : State) : Out :=
  let orphan := match s.orphan with
    | some q => Host.Outcome.next (s.orphanFlip q homes)
    | none => .next s
  match s.me.st.kqu, s.shadow.find? fun q => decide (q.key = s.me.key) with
  | h :: _, some q =>
    if h.stage ≠ .submitted then orphan
    else
      let fresh := (List.range 24).filter fun d => homes.contains d && decide (h.done / 2 ^ d % 2 = 0)
      let (s1, st, runs) := s.flipSome q h.seq fresh (h.done / 2 ^ 32)
      let done := h.done % 2 ^ 32 + (fresh.map fun d => 2 ^ d).foldl (· + ·) 0 + st * 2 ^ 32
      let local' := q.bytes.all fun b => b.pub || decide (flipHome b.pa = 24) || decide (done / 2 ^ flipHome b.pa % 2 = 1)
      let bytes := q.bytes.filter fun b => decide (flipHome b.pa ≠ 24) || inRuns runs b.pa
      if st ≠ 0 ∧ !s1.copyReplies h.seq then .next (s1.copyEnd h q st)
      else if st = 0 ∧ local' ∧ runs.isEmpty ∧ !s1.copyReplies h.seq then
        (let p := s1.flipPub q.bytes; .next (p.1.copyEnd h q p.2))
      else .next ((s1.setRunBytes q.key bytes).updHead .k fun h => { h with done := done })
  | _, _ => orphan

/-! ### Publishing (R136, R137) -/

/-- R136: after a flip, the new shadow half holds the visible half's bytes. -/
def Memory.copyHalf (m : Memory) (src dst n : Nat) : Memory :=
  (m.filter fun c => decide (src ≤ c.1) && decide (c.1 < src + n)).foldl (fun m c => m.write (c.1 - src + dst) c.2)
    (m.filter fun c => !(decide (dst ≤ c.1) && decide (c.1 < dst + n)))

/-- The flip of a region, its single moment of visibility. -/
def State.publish (s : State) (p : Pub) : State :=
  let p' := { p with sel := !p.sel, pcnt := p.pcnt + 1 }
  let vis := if p'.sel then p.base + p.size else p.base
  let sh := if p'.sel then p.base else p.base + p.size
  let pubs := s.pubs.map fun q => if q.base = p.base then p' else q
  let s1 := { s with mem := s.mem.copyHalf vis sh p.size, pubs := pubs }.selUse p.base true
  (s1.l2.filter fun x => decide (sh ≤ 64 * x.line) && decide (64 * x.line < sh + p.size)).foldl
    (fun s x => s.l2Use (64 * x.line) x.tag true) s1

/-- Whether the KPUB of a cluster waits at the home of a region. -/
def Cluster.publishes (c : Cluster) (base : Nat) : Bool :=
  match c.st.kqu with
  | h :: _ => (match h.cmd with
    | .kpub _ => decide (h.stage = .begun) && decide (h.done = base + 1)
    | _ => false)
  | [] => false

/-- Whether a KPUB is the first of those that wait for a region, in the order in which they reached the home (R138). -/
def State.kpubFirst (s : State) (p : Pub) : Bool :=
  decide ((p.waits.find? fun k => (s.me :: s.peers).any fun c => decide (c.key = k) && c.publishes p.base) = some s.me.key)

/-- The KPUB of `me` reaches the home of its region: it stands behind those that wait there. -/
def State.kpubArrive (s : State) (p : Pub) : State :=
  { s with pubs := s.pubs.map fun q => if q.base = p.base then { q with waits := q.waits.erase s.me.key ++ [s.me.key] } else q }

/-- A KPUB that waits for the writers of its region flips it once there are none and no other stands before it. -/
def State.kpubWait (s : State) (h : Entry) (base : Nat) : State :=
  match s.pubs.find? fun p => decide (p.base = base) with
  | some p =>
    if p.writers = 0 ∧ s.kpubFirst p then
      ((s.publish { p with waits := p.waits.erase s.me.key }).updSt fun t => t.logged h.waddr none).performed .k
    else s
  | none => s.performed .k

/-- KPUB_FLIP: the KPUB at the head of the K queue, once earlier stores and stnt have been performed: it holds new
commands to its region back, and flips it when no running command writes it (R137). -/
def execKpubFlip (s : State) : Out :=
  match s.me.st.running .k with
  | some h =>
    (match h.cmd with
     | .kpub ea =>
       if s.aborting && !s.heldNow .k then .next (s.copyAborted h)
       else if s.me.st.nt.any (fun b => decide (b.first < h.seq)) ||
          s.me.st.squ.any (fun e => decide (e.seq < h.seq) && decide (e.stage ≠ .performed)) then .next s
       else if h.done ≠ 0 then .next (s.kpubWait h (h.done - 1))
       else if s.heldNow .k then .next s
       else
         match s.lookup ea.toNat 1 false none with
         | (s1, .error c) => .next (s1.faultEntry .k h c ea false none)
         | (s1, .ok pl) =>
           let s2 := s1.updSt fun t => t.release .k
           match pl with
           | .mem pa 4 =>
             (match s2.pubOf (canon pa) with
              | some p => .next (((s2.updHead .k fun h => { h with done := p.base + 1 }).kpubArrive p).kpubWait h p.base)
              | none => .next (s2.updSt fun t => t.engEnc .k h 0xFFFF ea))
           | _ => .next (s2.updSt fun t => t.engEnc .k h 0xFFFF ea)
     | .kpubLogged => .next (s.performed .k)
     | _ => .next s)
  | none => .next s

end Sys2Proof.Machine
end

