-- ==== Sys2Proof/Machine/Execution.lean ====
section
/-!
DEFINITION. Engines and tokens as the control sequencer sees them (R182, R185 to R192), the end of a strand (R100), and
the steps in which an engine takes and completes an entry (R179, R189).
-/

namespace Sys2Proof.Machine

/-! ### Blocks (R181 to R183) -/

/-- Length of a block by its first word; the loader admits no other (R181). -/
def blockLen (table : List (Nat × Nat)) (first : Nat) : Nat :=
  match table.find? fun x => decide (x.1 = first) with
  | some x => x.2
  | none => 0

/-- The block that a FORK appends: bound registers and CTAG are captured (R183). -/
def Strand.forkBlock (t : Strand) (table : List (Nat × Nat)) (first : Nat) : Block :=
  { seq := t.seq, waddr := t.ctl.pc, first := first, len := blockLen table first, eb := t.ctl.eb, tag := t.ctl.ctag }

/-- `fork v, blk` and `fork m, blk` (R182). An M block in a V-cluster is ILL_ENC whatever the guard. -/
def execFork (g : Guard) (m : Bool) (blk : BitVec 20) (s : State) : Out :=
  if m && s.me.st.vkind then trap .illEnc s
  else
    guarded g s fun s =>
      let t := s.me.st
      if m then
        if Config.queueDepth ≤ t.mqu.length then wait s
        else done (s.updSt fun t => { t with mqu := t.mqu ++ [t.forkBlock t.code.mblocks blk.toNat], seq := t.seq + 1 })
      else
        if Config.queueDepth ≤ t.vqu.length then wait s
        else done (s.updSt fun t => { t with vqu := t.vqu ++ [t.forkBlock t.code.vblocks blk.toNat], seq := t.seq + 1 })

/-! ### Rendezvous (R191, R192) -/

/-- Whether an engine has completed every entry issued to it. -/
def Strand.engineIdle (t : Strand) (e : Eng) : Bool :=
  match e with
  | .c => true
  | .l => t.lqu.isEmpty
  | .sq => t.squ.isEmpty
  | .k => t.kqu.isEmpty
  | .v => t.vqu.isEmpty && t.vrun.isNone
  | .m => t.mqu.isEmpty && t.mrun.isNone

/-- A phase commit where every queue is empty (R396): the replay log goes with it. -/
def State.commitIdle (s : State) : State := s.updSt fun t => if t.idle then { t.commit with replay := [] } else t

/-- `rdv e+e…`: the first named engine's earliest record is delivered; else the word waits for the named engines. -/
def execRdv (g : Guard) (em : EMask) (s : State) : Out :=
  guarded g s fun s =>
    match s.me.st.firstTrap em engOrder with
    | some r => deliver r s
    | none =>
      if engOrder.all fun e => !named em e || s.me.st.engineIdle e then .next s.retire.commitIdle
      else wait s

/-! ### Bound registers, tokens, identity (R187, R190) -/

/-- `ebset ebN, gX`. -/
def execEbset (g : Guard) (x : Reg) (n : BitVec 4) (s : State) : Out :=
  guarded g s fun s => reading [x] s fun s => done (s.updCtl fun c => c.setEB n (c.getG x))

/-- `ebget gX, ebN`. -/
def execEbget (g : Guard) (x : Reg) (n : BitVec 4) (s : State) : Out := compute g [] x (fun s => s.ctl.getEB n) s

/-- A token count. -/
def Ctl.getTok (c : Ctl) (n : BitVec 4) : BitVec 16 := c.tok.get ⟨n.toNat, n.isLt⟩

/-- `tkset q, gX`: cv, cm and ck alone, and no cm in a V-cluster. -/
def execTkset (g : Guard) (x : Reg) (n : BitVec 4) (s : State) : Out :=
  guarded g s fun s => reading [x] s fun s =>
    let v := (s.getG x).toNat
    if n.toNat < 13 ∨ (n = 14 ∧ s.me.st.vkind) ∨ 65535 < v then trapInfo .tokArg (n.setWidth 16) s
    else if 65535 < (s.ctl.getTok n).toNat + v then trapInfo .tokOvf (n.setWidth 16) s
    else done (s.updCtl fun c => { c with tok := c.tok.set n.toNat (c.getTok n + BitVec.ofNat 16 v) n.isLt })

/-- `tkget gX, q`; the queues that a V-cluster does not have read 0 (R188). -/
def execTkget (g : Guard) (x : Reg) (n : BitVec 4) (s : State) : Out :=
  compute g [] x (fun s =>
    if s.me.st.vkind && decide (mQueues / 2 ^ n.toNat % 2 = 1) then 0 else (s.ctl.getTok n).setWidth 64) s

/-- `strid gX`. -/
def execStrid (g : Guard) (x : Reg) (s : State) : Out := compute g [] x (fun s => BitVec.ofNat 64 (s.me.st.idx % 64)) s

/-! ### The end of a strand (R100) -/

/-- `done`: the control sequencer issues nothing further; STRAND_FINISH ends the wait. PC stays at the DONE. -/
def execDone (g : Guard) (s : State) : Out :=
  guarded g s fun s => .next (s.stalled.updSt fun t => { t with finish := true })

/-- The mask that names every engine. -/
def EMask.all : EMask := ⟨true, true, true, true, true⟩

/-- The strand has ended: its private lines go home, its scratchpad and its deferral queue are discarded (R100, R260), the
dispatcher hears of it. -/
def State.strandEnds (s : State) : State :=
  let s1 := s.l1CleanAll
  let t0 := s1.me.st.commit
  let t := { t0 with spad := [], v := { t0.v with dq := [] }, replay := [], finish := false, stall := false, wdC := 0 }
  let s2 := { s1 with me := { s1.me with status := .finished, st := t } }
  { s2 with disp := s2.disp.updNode s.me.st.node fun n => { n with finished := n.finished ++ [s.me.st.idx] } }

/-- STRAND_FINISH: a pending deferred trap is delivered at the DONE; else, once every queue is empty and the
non-temporal buffers have drained, the strand ends (R100). -/
def execStrandFinish (s : State) : Out :=
  if !s.me.st.finish ∨ s.me.status ≠ .running then .next s
  else
    match s.me.st.firstTrap EMask.all engOrder with
    | some r => deliver r (s.updSt fun t => { t with finish := false })
    | none => if s.me.st.idle && s.me.st.nt.isEmpty then .next s.strandEnds else .next s

/-! ### Entries (R179) -/

/-- Where a block begins. -/
def Run.start (b : Block) : Run :=
  { blk := b, off := 0, repLen := 0, repStart := 0, repCount := 0, k := 0, popped := false, rows := 0, work := Work.none,
    shadow := [], pushes := [], homes := [] }

/-- MPROG of a word with so many rows done (R286). -/
def Run.mprog (r : Run) : Word :=
  BitVec.ofNat 64 ((if r.rows < 128 then r.rows else 128) + r.off % 2 ^ 12 * 2 ^ 8 + r.k % 2 ^ 24 * 2 ^ 20 + 2 ^ 47)

/-- ENGINE_ENTRY_BEGIN: an engine takes the next entry of its queue. -/
def execEngineEntryBegin (e : Eng) (s : State) : Out :=
  match e with
  | .c => .next s
  | .v =>
    (match s.me.st.vqu, s.me.st.vrun with
     | b :: r, none => if s.flows then .next (s.updSt fun t => { t with vqu := r, vrun := some (Run.start b) }.progress .v) else .next s
     | _, _ => .next s)
  | .m =>
    (match s.me.st.mqu, s.me.st.mrun with
     | b :: r, none =>
       if s.flows then
         let x := Run.start b
         .next (s.updSt fun t => { t with mqu := r, mrun := some x, relaxLost := false, relaxEnded := false, mprog := x.mprog }.progress .m)
       else .next s
     | _, _ => .next s)
  | e => .next (s.beginEntry e)

/-! ### System words (R352, R353) -/

/-- `nop`. -/
def execNop (g : Guard) (s : State) : Out := guarded g s done

/-- TRAP and BRK: no such word may end a loop (R353). -/
def raise (c : Cause) (imm : BitVec 16) (s : State) : Out := if s.ctl.atEnd s.ctl.pc then trap .zlEnd s else trapInfo c imm s

/-- `trap imm`. -/
def execTrap (g : Guard) (imm : BitVec 16) (s : State) : Out := guarded g s fun s => raise .user imm s

/-- `brk imm`. -/
def execBrk (g : Guard) (imm : BitVec 16) (s : State) : Out := guarded g s fun s => raise .brk imm s

/-- The state after an ERET: H falls, the frozen sets live again, the phase commits (R349, R353). -/
def State.returned (s : State) : State :=
  let s1 := s.updCtl fun c => { c.unfreeze with trp := { c.trp with h := false } }
  (s1.retireTo s.ctl.trp.epc).updSt Strand.commit

/-- `eret`: no end check. -/
def execEret (g : Guard) (s : State) : Out :=
  guarded g s fun s =>
    if !s.ctl.trp.h then trap .csrAcc s
    else
      match s.badTarget s.ctl.trp.epc with
      | some c => trap c s
      | none => .next s.returned

/-- ILLEGAL_ENCODING: a reserved word is the precise trap ILL_ENC, whatever its guard (R37, R51). -/
def execIllegalEncoding (_w : BitVec 32) (s : State) : Out := trap .illEnc s

/-! ### Power settings (R363, R365, R368) -/

/-- PWR_GRANT.LEVEL (R365). -/
def State.grant (s : State) : BitVec 2 := if s.ctl.pwrReq.toNat ≤ s.me.imp.toNat then s.me.imp else s.ctl.pwrReq

/-- PWR_GRANT (R363). -/
def State.pwrGrant (s : State) : Word := BitVec.ofNat 64 (s.grant.toNat + 4 * s.me.imp.toNat)

/-- PWR_OPP (R363). -/
def Power.oppWord (p : Power) : Nat :=
  (p.opp.get 0).toNat + 4 * (p.opp.get 1).toNat + 16 * (p.opp.get 2).toNat + 64 * (p.opp.get 3).toNat

/-- SYS_EQUOTA.BAL, sign-extended (R372). -/
def VI.balance (v : VI) : Int := sextNat (v.equota.toNat / 2 ^ 32) 32

/-- TEL_TIME (R373). -/
def Power.telTime (p : Power) : Nat := p.nsec + p.sec % 2 ^ 34 * 2 ^ 30

/-- The address that a row of the switch table gives for a level (R367). -/
def Code.switchTo (c : Code) (k : BitVec 6) (lvl : BitVec 2) : Word :=
  match c.switch.find? fun r => decide (r.1 = k.toNat) with
  | some r => BitVec.ofNat 64 (r.2.getD lvl.toNat 0)
  | none => 0

/-- `swpt k`: a taken branch (R214, R215). -/
def execSwpt (g : Guard) (k : BitVec 6) (s : State) : Out :=
  guarded g s fun s =>
    let t := s.me.st.code.switchTo k s.grant
    match s.badTarget t with
    | some c => trap c s
    | none => if s.ctl.atEnd s.ctl.pc then trap .zlEnd s else .next (s.jump t)

/-- An item of PWRQ (R368). -/
def State.pwrItem (s : State) (k : Nat) : Word :=
  match k with
  | 0 => s.pwrGrant
  | 1 => BitVec.ofNat 64 s.pow.oppWord
  | 2 => s.me.thrNow.setWidth 64
  | 3 => BitVec.ofInt 64 (s.vi s.me.st.vi).balance
  | 4 => BitVec.ofNat 64 s.pow.telTime
  | 5 => BitVec.ofNat 64 s.pow.draw
  | _ => s.me.st.eclass.setWidth 64

/-- `pwrq gX, k`. -/
def execPwrq (g : Guard) (x : Reg) (k : BitVec 6) (s : State) : Out :=
  guarded g s fun s => if 6 < k.toNat then trap .pwrArg s else done (s.writeG x (s.pwrItem k.toNat))

/-- `pwreq gX, lvl`: non-idempotent (R397). -/
def execPwreq (g : Guard) (x : Reg) (k : BitVec 6) (s : State) : Out :=
  guarded g s fun s => replayed s fun s =>
    if 2 < k.toNat then trap .pwrArg s
    else
      let old : Word := s.ctl.pwrReq.setWidth 64
      done (((s.writeG x old).updCtl fun c => { c with pwrReq := k.setWidth 2 }).updSt fun t => t.logged s.ctl.pc (some (x, old)))

/-! ### Control and status registers (R345, R354) -/

/-- TRP_STATUS (R346). -/
def Strand.trpStatus (t : Strand) : Word :=
  let froz := ((List.finRange 4).map fun k => if (t.ctl.getZL k).frozen then 2 ^ (8 + k.val) else 0).foldl (· + ·) 0
  BitVec.ofNat 64 (t.ctl.trp.h.toNat + (t.ctl.trp.pend.getD !t.traps.isEmpty).toNat * 2 + froz)

/-- The value of an assigned register that a strand reaches. -/
def State.csr (s : State) (n : Nat) : Option Word :=
  let t := s.ctl.trp
  match n with
  | 0x0000 => some s.me.st.trpStatus
  | 0x0001 => some t.cause
  | 0x0002 => some t.epc
  | 0x0003 => some t.addr
  | 0x0004 => some t.waddr
  | 0x0005 => some t.info
  | 0x0006 => some t.aux
  | 0x0007 => some t.hvec
  | 0x0008 => some t.hen
  | 0x0009 => some t.scr0
  | 0x000A => some t.scr1
  | 0x0010 => some s.me.st.mprog
  | 0x0100 => some s.pwrGrant
  | 0x0101 => some (s.ctl.pwrReq.setWidth 64)
  | 0x0102 => some (BitVec.ofNat 64 s.pow.oppWord)
  | 0x0110 => some (s.me.thrNow.setWidth 64)
  | 0x0111 => some (s.me.thrSticky.setWidth 64)
  | 0x0112 => some (s.me.thrCyc.setWidth 64)
  | _ => none

/-- The bits that a write may change (R346, R347, R363). -/
def csrWritable (n : Nat) : Word :=
  match n with
  | 0x0002 => ~~~3
  | 0x0007 => ~~~2
  | 0x0008 => ~~~(BitVec.ofNat 64 (2 ^ 0 + 2 ^ 27 + 2 ^ 29 + 2 ^ 30 + 2 ^ 31 + (2 ^ 64 - 2 ^ 44)))
  | 0x0009 => BitVec.allOnes 64
  | 0x000A => BitVec.allOnes 64
  | 0x0111 => 31
  | _ => 0

/-- The bits of a register that are to be 0 (R346, R347). -/
def csrZero (n : Nat) : Word :=
  match n with
  | 0x0002 => 3
  | 0x0007 => 2
  | 0x0008 => BitVec.ofNat 64 (2 ^ 0 + 2 ^ 27 + 2 ^ 29 + 2 ^ 30 + 2 ^ 31 + (2 ^ 64 - 2 ^ 44))
  | _ => 0

/-- A register takes a value that passed the check; a THR_STICKY bit is cleared by 0 and kept by 1 (R363). -/
def State.setCsr (s : State) (n : Nat) (v : Word) : State :=
  let upd := fun (f : TrapRegs → TrapRegs) => s.updCtl fun c => { c with trp := f c.trp }
  match n with
  | 0x0002 => upd fun t => { t with epc := v }
  | 0x0007 => upd fun t => { t with hvec := v }
  | 0x0008 => upd fun t => { t with hen := v }
  | 0x0009 => upd fun t => { t with scr0 := v }
  | 0x000A => upd fun t => { t with scr1 := v }
  | 0x0111 => { s with me := { s.me with thrSticky := s.me.thrSticky &&& v.setWidth 5 } }
  | _ => s

/-- R354: a register number, then the effect on its value. -/
def onCsr (n : BitVec 16) (s : State) (k : Word → State → Out) : Out :=
  if 0x8000 ≤ n.toNat then trap .csrAcc s
  else
    match s.csr n.toNat with
    | none => trap .illEnc s
    | some v => k v s

/-- R354: a write; a change of a read-only bit, or a bit that is to be 0, traps. MPROG ignores writes (R286). -/
def writeCsr (n : BitVec 16) (old v : Word) (s : State) : Out :=
  if n = 0x0010 then done s
  else if (old ^^^ v) &&& ~~~(csrWritable n.toNat) ≠ 0 ∨ v &&& csrZero n.toNat ≠ 0 then trap .csrAcc s
  else done (s.setCsr n.toNat v)

/-- `csrr gD, csr`. -/
def execCsrr (g : Guard) (x : Reg) (csr : BitVec 16) (s : State) : Out :=
  guarded g s fun s => onCsr csr s fun v s => done (s.writeG x v)

/-- `csrw csr, gA`. -/
def execCsrw (g : Guard) (x : Reg) (csr : BitVec 16) (s : State) : Out :=
  guarded g s fun s => reading [x] s fun s => onCsr csr s fun old s => writeCsr csr old (s.getG x) s

/-- `csrs csr, gA`. -/
def execCsrs (g : Guard) (x : Reg) (csr : BitVec 16) (s : State) : Out :=
  guarded g s fun s => reading [x] s fun s => onCsr csr s fun old s => writeCsr csr old (old ||| s.getG x) s

end Sys2Proof.Machine
end

