-- ==== Sys2Proof/Machine/Front.lean ====
section
/-!
DEFINITION. What the dispatcher, the front end and the collective engines share: access to an interface's memory under
its page tables (R324, R422), host memory (R407), completion records and notifications (R412, R413), cluster sets (R417),
and effective levels (R329).
-/

namespace Sys2Proof.Machine

/-! ### Memory of an interface -/

/-- Physical address and type of an address of an interface, by a walk that sets A and D (R66) and no TLB. -/
def State.pageOf (s : State) (vi va : Nat) (write : Bool) : State × Except Cause (Nat × Nat) :=
  if 2 ^ 56 ≤ va then (s, .error .trNc)
  else if spadBase ≤ va then (s, .error .trSpad)
  else if rsvdBase ≤ va then (s, .error .trRsvd)
  else
    match s.walkBy none vi va with
    | (s1, .error c) => (s1, .error c)
    | (s1, .ok l) =>
      (s1.touchLeaf l write, if write && !l.w then .error .trProt else .ok (leafPa l.entry + va % l.size, l.type))

/-- `n` bytes of an interface at their points of coherence, line by line; a page of another package is out of reach. -/
def State.feRead (s : State) (vi va n fuel : Nat) (acc : List Byte) : State × Except Cause (List Byte) :=
  match fuel with
  | 0 => (s, .ok acc)
  | fuel + 1 =>
    if n = 0 then (s, .ok acc)
    else
      let c := if n < 64 - va % 64 then n else 64 - va % 64
      match s.pageOf vi va false with
      | (s1, .error e) => (s1, .error e)
      | (s1, .ok (pa, type)) =>
        if type = tSys then (s1, .error .memRange)
        else
          match s1.homeErr vi pa type c 0 false with
          | some e => (s1, .error e)
          | none => let r := s1.homeGet pa type c 0; r.1.feRead vi (va + c) (n - c) fuel (acc ++ r.2)

/-- `feRead` of `n` bytes. -/
def State.feBytes (s : State) (vi va n : Nat) : State × Except Cause (List Byte) := s.feRead vi va n (n / 64 + 2) []

/-- Bytes of an interface written at their points of coherence, line by line. -/
def State.feWrite (s : State) (vi va : Nat) (bs : List Byte) (fuel : Nat) : State × Option Cause :=
  match fuel with
  | 0 => (s, none)
  | fuel + 1 =>
    if bs.isEmpty then (s, none)
    else
      let c := if bs.length < 64 - va % 64 then bs.length else 64 - va % 64
      match s.pageOf vi va true with
      | (s1, .error e) => (s1, some e)
      | (s1, .ok (pa, type)) =>
        if type = tSys then (s1, some .memRange)
        else
          match s1.homeErr vi pa type c 0 true with
          | some e => (s1, some e)
          | none => (s1.homeWrite pa type 0 (bs.take c)).feWrite vi (va + c) (bs.drop c) fuel

/-- `feWrite` of some bytes. -/
def State.fePut (s : State) (vi va : Nat) (bs : List Byte) : State × Option Cause := s.feWrite vi va bs (bs.length / 64 + 2)

/-- Bytes written to host memory; beyond 16 TiB or with the link down they go nowhere (R407). -/
def State.hostPut (s : State) (a : Nat) (bs : List Byte) : State :=
  if s.tsuwin && decide (a + bs.length ≤ syncBase - hostBase) then { s with mem := s.mem.writeN (hostBase + a) bs } else s

/-- Bytes of host memory. -/
def State.hostGet (s : State) (a n : Nat) : Option (List Byte) :=
  if s.tsuwin && decide (a + n ≤ syncBase - hostBase) then some (s.mem.readN (hostBase + a) n) else none

/-! ### Notifications and completion records -/

/-- R413: sends notification vector `k` of an interface. -/
def State.notify (s : State) (vi k : Nat) : State :=
  let n := Sp.get (s.vi vi).notes k ⟨0, 0, false⟩
  if n.en then s.hostPut n.addr.toNat (leBytes 4 n.data.toNat) else s

/-- The trap registers in the order of their CSR numbers (R412). -/
def Strand.trapWords (t : Strand) : List Word :=
  let r := t.ctl.trp
  [t.trpStatus, r.cause, r.epc, r.addr, r.waddr, r.info, r.aux, r.hvec, r.hen, r.scr0, r.scr1]

/-- R412: one record of the completion ring of an event at `time`, SEQ last, then the vector. -/
def State.report (s : State) (time vi kind status strand cookie node gidx : Nat) (trp : List Word) (vector : Nat) : State :=
  let v := s.vi vi
  let cfg := v.crCfg.toNat
  if cfg % 2 = 0 then s
  else
    let i := v.crIdx
    let head := time + (i + 1) % 2 ^ 32 * 2 ^ 64 + kind * 2 ^ 96 + status * 2 ^ 100 + strand * 2 ^ 108 +
      cookie * 2 ^ 128 + node * 2 ^ 160 + gidx * 2 ^ 192
    let bs := leBytes 32 head ++ (trp.flatMap fun w => leBytes 8 w.toNat)
    let s1 := s.hostPut (v.crBase.toNat + 128 * (i % 2 ^ (cfg / 2 % 16))) (bs ++ List.replicate (128 - bs.length) 0)
    (s1.setVi vi { v with crIdx := i + 1 }).notify vi vector

/-- Whether host writes and reads reach the package: its BAR windows are open (R423) and the Tsuwin link, over which the host
drives it, is up (R2, R407). -/
def State.hostUp (s : State) : Bool := s.fe.windows && s.tsuwin

/-- R409: one more fault of a BAR2 access in WINERR, saturating. -/
def State.winFault (s : State) (vi : Nat) : State :=
  let v := s.vi vi
  s.setVi vi { v with winerr := if v.winerr = BitVec.allOnes 32 then v.winerr else v.winerr + 1 }

/-- Counts `n` launches or entries as dropped, saturating (R338). -/
def VI.drops (v : VI) (n : Nat) : VI :=
  { v with dropped := BitVec.ofNat 32 (if v.dropped.toNat + n < 2 ^ 32 then v.dropped.toNat + n else 2 ^ 32 - 1) }

/-! ### Rings of the front end (R374, R403) -/

/-- Bytes written at a physical address of the DRAM or host aperture. -/
def State.ringPut (s : State) (a : Nat) (bs : List Byte) : State :=
  match apert a with
  | .linear => s.baseWrite a bs
  | .interleaved => s.baseWrite (canon a) bs
  | .host => s.hostPut (a - hostBase) bs
  | _ => s

/-- Slot address of entry `i` in a ring that two doublewords describe. -/
def ringSlot (cfg0 cfg1 : Word) (i : Nat) : Nat :=
  cfg1.toNat / 64 % 2 ^ 46 * 64 + 64 * (i % 2 ^ (cfg0.toNat / 2 % 16))

/-- An error report takes its slot of the error ring and its SEQ. -/
def State.errPut (s : State) (bits : Nat) : State :=
  if s.fe.errcfg0.getLsbD 0 then
    let s1 := s.ringPut (ringSlot s.fe.errcfg0 s.fe.errcfg1 s.fe.errIdx) (leBytes 64 (bits + (s.fe.errIdx + 1) % 2 ^ 32 * 2 ^ 64))
    { s1 with fe := { s1.fe with errIdx := s.fe.errIdx + 1 } }
  else s

/-! ### Interfaces and their clusters (R417) -/

/-- SYS_VICFG.EN. -/
def VI.enabled (v : VI) : Bool := v.vicfg.getLsbD 0

/-- SYS_VICFG.SLICED. -/
def VI.sliced (v : VI) : Bool := v.vicfg.getLsbD 1

/-- SYS_VICFG.CEIL. -/
def VI.ceil (v : VI) : Nat := v.vicfg.toNat / 4 % 64

/-- Whether cluster `c` of die `d` is in the interface's set. -/
def VI.owns (v : VI) (d c : Nat) : Bool := (Sp.get v.vicls d 0).getLsbD c

/-- The clusters of a die's set in ascending order. -/
def VI.dieSet (v : VI) (d : Nat) : List Nat := (List.range 64).filter fun c => v.owns d c

/-- The interface's virtual clusters: die and number, by ascending die and number (R417). -/
def VI.clusters (v : VI) : List (Nat × Nat) := (List.range 24).flatMap fun d => (v.dieSet d).map fun c => (d, c)

/-- Whether a cluster is of the kind that a node asks for (R139). -/
def kindFits (vkind : Bool) (c : Nat) : Bool := vkind == decide (48 ≤ c)

/-- Whether a cluster is fenced (R405). -/
def State.fencedAt (s : State) (d c : Nat) : Bool :=
  s.clusters.any fun x => decide (x.die = d) && decide (x.clus = c) && x.fenced

/-- Clusters of a kind that an interface owns or time-shares, fenced ones left out (R327). -/
def State.kindCount (s : State) (vi : Nat) (vkind : Bool) : Nat :=
  ((s.vi vi).clusters.filter fun x => kindFits vkind x.2 && !s.fencedAt x.1 x.2).length

/-- R372: whether the balance admits the interface's nodes. -/
def VI.funded (v : VI) : Bool := decide (v.equota.toNat % 2 ^ 32 = 0) || decide (0 < v.balance)

/-! ### Nodes -/

/-- The node of a slot. -/
def State.node (s : State) (slot : Nat) : Option Node := s.disp.nodes.find? fun n => decide (n.slot = slot)

/-- Changes a node. -/
def State.updNode (s : State) (slot : Nat) (f : Node → Node) : State := { s with disp := s.disp.updNode slot f }

/-- A PRIO above the ceiling counts as the ceiling (R329). -/
def State.capped (s : State) (vi prio : Nat) : Nat := if (s.vi vi).ceil < prio then (s.vi vi).ceil else prio

/-- R329: the effective level of a node of the pool. -/
def State.level (s : State) (n : Node) : Nat :=
  let age := s.fe.dispcfg.toNat % 256
  let wait := (s.pow.now - n.entered) / 1000000
  s.capped n.vi (if age = 0 then n.prio else n.prio + wait / age)

/-- The draw that a node's class declares for its gang, in hundredths of a watt (R366). -/
def Node.classDraw (n : Node) : Nat := 25 * (n.eclass.toNat + 1) * n.gang

/-- Whether a node stands in the pool. -/
def Node.pooled (n : Node) : Bool := decide (n.state = .ready) || decide (n.state = .away)

/-- R371: whether a node belongs to its interface's filler stream. -/
def State.filler (s : State) (n : Node) : Bool :=
  let f := (s.vi n.vi).filler.toNat
  decide (f % 2 = 1) && decide (f / 2 ^ 16 % 2 ^ 16 = n.stream)

/-- Where a node stands in the pool: its effective level counted from 1, or 0 where it is a filler node, which stands below
level 0 (R371). -/
def State.rung (s : State) (n : Node) : Nat := if s.filler n then 0 else s.level n + 1

end Sys2Proof.Machine
end

