-- ==== Sys2Proof/Machine/Coll.lean ====
section
/-!
DEFINITION. The collective engines (R384 to R393) and their instructions (R394, R395). QARM, QPOST, QABORT and QSTAT are
S entries; the operations that STORE_PERFORMED calls for them stand here.
-/

namespace Sys2Proof.Machine

/-! ### Descriptors (R384) -/

/-- The descriptor that 512 bits denote, or none where a field breaks R384. -/
def parseDesc (n : Nat) : Option Desc :=
  let f := fun lo w => fieldOf n lo w
  match fmtOfCode (f 8 5) with
  | none => none
  | some fmt =>
    let p := f 16 14 + 1
    let d : Desc :=
      { op := f 0 4, tree := decide (f 4 1 = 1), narrow := decide (f 5 1 = 1), cls := f 6 2, fmt := fmt, parts := p,
        rank := f 32 14, att := BitVec.ofNat 8 (f 48 8), id := f 64 16, buckets := f 80 16 + 1, cpb := f 96 16,
        blen := f 128 24, src := BitVec.ofNat 64 (f 192 64), dst := BitVec.ofNat 64 (f 256 64),
        peers := BitVec.ofNat 64 (f 320 64), door := BitVec.ofNat 64 (f 384 64) }
    let zero := [(13, 3), (30, 2), (46, 2), (56, 8), (112, 16), (152, 40), (448, 64)].all fun x => decide (f x.1 x.2 = 0)
    let fmtOk := [Fmt.f32, .f16, .bf16, .i32].contains fmt
    let narrowOk := !d.narrow || (decide (fmt = .f32) && decide (d.op ≠ 4))
    let lenOk := decide (1 ≤ d.blen) && (d.tree || decide (d.op = 5) || decide (d.blen % p = 0))
    let addrOk := decide (d.src.toNat % 64 = 0) && decide (d.dst.toNat % 64 = 0) && decide (d.peers.toNat % 2 = 0) &&
      decide (d.door.toNat % 8 = 0) && [d.src, d.dst, d.peers, d.door].all fun a => decide (a.toNat < 2 ^ 56)
    if zero && fmtOk && narrowOk && lenOk && addrOk && decide (d.op ≤ 5) && !(d.tree && (decide (d.op = 3) || decide (d.op = 4))) &&
        decide (2 ≤ d.cls) && decide (2 ≤ p) && decide (d.rank < p) && decide (1 ≤ d.cpb) then some d else none

/-- Bytes of one element. -/
def Desc.es (d : Desc) : Nat := storeWidth d.fmt / 8

/-- Bytes from one bucket to the next (R384). -/
def Desc.stride (d : Desc) : Nat := (d.blen * d.es + 63) / 64 * 64

/-- Elements of a chunk: a P-th of a ring bucket, or all of it. -/
def Desc.chunk (d : Desc) : Nat := if d.tree ∨ d.op = 5 then d.blen else d.blen / d.parts

/-! ### Slots and handles (R391, R394) -/

/-- The collective of a slot. -/
def State.coll (s : State) (die slot : Nat) : Option Coll := s.fab.colls.find? fun c => decide (c.die = die) && decide (c.slot = slot)

/-- Replaces a collective. -/
def State.setColl (s : State) (c : Coll) : State :=
  { s with fab := { s.fab with colls := s.fab.colls.map fun q => if q.die = c.die ∧ q.slot = c.slot then c else q } }

/-- The code of a state (R391). -/
def collCode : CollSt → Nat
  | .armed => 1
  | .running => 2
  | .done => 3
  | .aborted => 4
  | .failed => 5

/-- The status word (R391). -/
def Coll.status (c : Coll) : Word :=
  BitVec.ofNat 64 (collCode c.st + c.att.toNat * 2 ^ 8 + c.code.toNat * 2 ^ 16 + c.done * 2 ^ 32)

/-- Whether a register holds a valid handle (R394). -/
def handleOk (v : Word) : Bool := decide (v.toNat / 2 ^ 31 = 1) && decide (v.toNat % 2 ^ 31 < 2 ^ 11) && decide (v.toNat / 64 % 32 ≤ 23)

/-- The collective that a handle names for a strand's interface: another interface reads the slot as free (R394). -/
def State.collSeen (s : State) (v : Word) : Option Coll :=
  match s.coll (v.toNat / 64 % 32) (v.toNat % 64) with
  | some c => if c.vi = s.me.st.vi then some c else none
  | none => none

/-- The collective that a handle names for the node that armed it (R394). -/
def State.collOwn (s : State) (v : Word) : Option Coll :=
  match s.collSeen v with
  | some c => if c.node = s.me.st.node then some c else none
  | none => none

/-- What QSTAT and QWAIT read: 0 for a free slot. -/
def State.collStatus (s : State) (v : Word) : Word :=
  match s.collSeen v with
  | some c => c.status
  | none => 0

/-! ### The gong, stopping and failing (R390, R393) -/

/-- The packages of PEERS but this rank's own. -/
def Coll.others (c : Coll) : List Nat := c.peers.eraseIdx c.desc.rank

/-- Rings the gong for the current attempt: one sequenced packet to every other package (R390). -/
def State.ring (s : State) (c : Coll) : State :=
  c.others.foldl (fun s p => s.sendSeq p c.rvi 1 (.gong c.desc.id c.att.toNat)) s

/-- Buckets in flight: those that have not completed. -/
def Coll.open (c : Coll) : List Bucket := c.flight.filter fun q => !q.ended

/-- The key of a bucket's lines among the shadow runs; copies have keys below 4,096. -/
def Coll.key (c : Coll) (b : Nat) : Nat := 4096 + (c.die * 64 + c.slot) * 65536 + b

/-- Whether an owner waits for a collective: for the answer of a store, or for the source of a bucket. -/
def Coll.owns (c : Coll) : Owner → Bool
  | .coll d k => decide (d = c.die) && decide (k = c.slot)
  | .bucket d k _ => decide (d = c.die) && decide (k = c.slot)
  | _ => false

/-- R390: the collective stops: shadow lines, staging, pins go, the attempt advances. -/
def State.collStop (s : State) (c : Coll) (st : CollSt) (code : Nat) : State :=
  let keys := c.flight.map fun b => c.key b.b
  { (s.forget c.owns).setColl { c with st := st, code := BitVec.ofNat 8 code, att := c.att + 1, flight := [], credits := [],
                                       arrived := [], pages := [], pins := [] } with
    shadow := s.shadow.filter fun q => !keys.contains q.key,
    pins := c.pins.foldl (unpinOne c.die) s.pins }

/-- R393: a running collective fails and rings the gong. -/
def State.collFail (s : State) (c : Coll) (code : Nat) : State := (s.ring c).collStop c .failed code

/-- R390: a gong for an identifier of an interface; one for another attempt is dropped. -/
def State.gongArrives (s : State) (vi id att : Nat) : State :=
  match s.fab.colls.find? fun c => decide (c.vi = vi) && decide (c.desc.id = id) with
  | some c => if c.att.toNat = att then s.collStop c .aborted 3 else s
  | none => s

/-- R393: collectives of a node that completes: a running one rings the gong and stops; every slot becomes free. -/
def State.collsEnd (s : State) (node : Nat) : State :=
  let mine := s.fab.colls.filter fun c => decide (c.node = node)
  let s1 := mine.foldl (fun s c => if c.st = .running then (s.ring c).collStop c .aborted 3 else s) s
  { s1 with fab := { s1.fab with colls := s1.fab.colls.filter fun c => decide (c.node ≠ node) } }

/-! ### The instructions (R394, R395) -/

/-- `qarm gD, gA`. -/
def execQarm (g : Guard) (d a : Reg) (s : State) : Out :=
  guarded g s fun s => replayed s fun s => reading [a] s fun s =>
    issueSGated (.qarm d (s.getG a)) d (fun n => [releaseGate n]) s

/-- A form that takes a handle: FAB_ARG at issue (R394). -/
def onHandle (a : Reg) (s : State) (k : State → Out) : Out := if handleOk (s.getG a) then k s else trap .fabArg s

/-- `qpost gD, gA, gB`. -/
def execQpost (g : Guard) (d a b : Reg) (s : State) : Out :=
  guarded g s fun s => replayed s fun s => reading [a, b] s fun s =>
    onHandle a s fun s => issueSGated (.qpost d (s.getG a) (s.getG b)) d (fun n => [releaseGate n]) s

/-- `qabort gD, gA`. -/
def execQabort (g : Guard) (d a : Reg) (s : State) : Out :=
  guarded g s fun s => replayed s fun s => reading [a] s fun s =>
    onHandle a s fun s => issueSGated (.qabort d (s.getG a)) d (fun n => [releaseGate n]) s

/-- `qstat gD, gA`. -/
def execQstat (g : Guard) (d a : Reg) (s : State) : Out :=
  guarded g s fun s => replayed s fun s => reading [a] s fun s =>
    onHandle a s fun s => issueS (.qstat d (s.getG a)) d 0 s

/-- Whether a QWAIT returns: more than G[B] buckets are done, or the collective does not run. -/
def State.collPast (s : State) (h b : Word) : Bool :=
  match s.collSeen h with
  | some c => decide (c.st ≠ .running) || decide (b.toNat < c.done)
  | none => true

/-- `qwait gD, gA, gB`: after every earlier S entry has been performed; an acquire at .pkg when it returns. -/
def execQwait (g : Guard) (d a b : Reg) (s : State) : Out :=
  guarded g s fun s => reading [a, b] s fun s =>
    onHandle a s fun s =>
      if (s.me.st.squ.all fun e => decide (e.stage = .performed)) && s.collPast (s.getG a) (s.getG b) then
        done ((s.writeG d (s.collStatus (s.getG a))).acquired .pkg)
      else wait s

/-! ### Arming and posting (R395) -/

/-- The result of the S entry at the head of the store FIFO; it is logged (R397). -/
def State.bindResult (s : State) (h : Entry) (d : Reg) (v : Word) : State :=
  (s.updSt fun t => (t.bind d h.seq v).logged h.waddr (some (d, v))).performed .sq

/-- A translation fault of QARM or QPOST: held while the front end may service it, else recorded, with the result `v`. -/
def State.collFault (s : State) (h : Entry) (d : Reg) (v : Word) (c : Cause) (va : Word) (write : Bool) : State :=
  if serviceable c ∧ !s.me.st.declined .sq va then s.hold c va write .sq
  else (s.updSt fun t => (t.release .sq).record { TrapRec.defer c .sq h.waddr with addr := va }).bindResult h d v

/-- The lowest free slot of a die. -/
def State.freeColl (s : State) (die : Nat) : Option Nat := (List.range 64).find? fun k => (s.coll die k).isNone

/-- An armed collective. -/
def Coll.fresh (die slot vi node idx : Nat) (d : Desc) : Coll :=
  { die := die, slot := slot, st := .armed, att := d.att, code := 0, done := 0, vi := vi, node := node, idx := idx,
    desc := d, peers := [], rvi := 0, src := [], dst := [], pages := [], door := 0, flight := [], next := 0, pins := [],
    credits := [], arrived := [], gongs := [] }

/-- QARM at the engine of the cluster's die; it waits while every slot is in use. -/
def State.qarmStep (s : State) (h : Entry) (d : Reg) (addr : Word) : State :=
  if addr.toNat % 64 ≠ 0 then s.bindResult h d 0
  else if s.heldNow .sq then s
  else
    match s.lookup addr.toNat 64 false none with
    | (s1, .error c) => s1.collFault h d 0 c addr false
    | (s1, .ok pl) =>
      let s2 := s1.updSt fun t => t.release .sq
      match pl with
      | .mem pa 0 =>
        (match s2.homeErr s2.me.st.vi pa tDev 64 0 false with
         | some c => (s2.refused c .sq h addr 0).bindResult h d 0
         | none =>
           match parseDesc (leNat (s2.homeRead pa tDev 64 0)) with
           | none => s2.bindResult h d 0
           | some ds =>
             if s2.fab.colls.any fun c => decide (c.vi = s2.me.st.vi) && decide (c.desc.id = ds.id) then s2.bindResult h d 0
             else
               match s2.freeColl s2.me.die with
               | none => s2
               | some k =>
                 let c := Coll.fresh s2.me.die k s2.me.st.vi s2.me.st.node s2.me.st.idx ds
                 let s3 := { s2 with fab := { s2.fab with colls := s2.fab.colls ++ [c] } }
                 s3.bindResult h d (BitVec.ofNat 64 (2 ^ 31 + s2.me.die * 64 + k)))
      | _ => s2.bindResult h d 0

/-- The 16-bit numbers that bytes hold. -/
def halves (bs : List Byte) : List Nat :=
  match bs with
  | a :: b :: r => (a.toNat + 256 * b.toNat) :: halves r
  | _ => []

/-- The doorbell's physical address; a page of another type than SYNC never chimes. -/
def doorOf (pl : Place) : Nat :=
  match pl with
  | .mem pa type => if type = tSync then pa else 0
  | .spad _ => 0

/-- The translations of a post: doorbell, destination and source of the buckets from `k` on (R72). -/
def State.postMaps (s : State) (d : Desc) (k : Nat) : State × Except (Cause × Nat × Bool) (Place × List Mapped × List Mapped) :=
  let n := (d.buckets - k) * d.stride
  match s.mapAll (addRange [] d.door.toNat 8) false none [] with
  | (s1, .error (c, a)) => (s1, .error (c, a, false))
  | (s1, .ok door) =>
    match s1.mapAll (addRange [] (d.src.toNat + k * d.stride) n) false none [] with
    | (s2, .error (c, a)) => (s2, .error (c, a, false))
    | (s2, .ok src) =>
      match s2.mapAll (addRange [] (d.dst.toNat + k * d.stride) n) true none [] with
      | (s3, .error (c, a)) => (s3, .error (c, a, true))
      | (s3, .ok dst) => (s3, .ok (placeAt door d.door.toNat, src, dst))

/-- The post itself, once everything has translated; it waits for room in the page-lock table (R73). -/
def State.postRun (s : State) (h : Entry) (d : Reg) (c : Coll) (k : Nat) (peers : List Nat) (pm : List Mapped)
    (m : Place × List Mapped × List Mapped) : State :=
  let doorPage := match m.1 with
    | .mem pa _ => [(c.desc.door.toNat / 65536, canon pa / 65536)]
    | .spad _ => []
  let grans := (pinned pm ++ doorPage.map (fun x => x.2) ++ pinned m.2.1 ++ pinned m.2.2).eraseDups
  let fresh := grans.filter fun g => !(s.pins.any fun p => decide (p.die = c.die) && decide (p.granule = g))
  if 16384 < pinsUsed c.die s.pins + fresh.length then s
  else
    let c' : Coll :=
      { c with st := .running, code := 0, done := k, next := k, peers := peers, rvi := s.rvi s.me.st.vi, src := m.2.1,
               dst := m.2.2, pages := sidePages pm ++ doorPage ++ sidePages m.2.1 ++ sidePages m.2.2, door := doorOf m.1,
               flight := [], pins := grans, credits := [], arrived := [], gongs := [] }
    ({ s.setColl c' with pins := grans.foldl (pinOne c.die) s.pins }).bindResult h d (c.att.setWidth 64)

/-- Granules of two ranges, each as its first granule and the one behind its last: those of both count once. -/
def granCount (a b : Nat × Nat) : Nat :=
  let lo := if a.1 < b.1 then b.1 else a.1
  let hi := if a.2 < b.2 then a.2 else b.2
  a.2 - a.1 + (b.2 - b.1) - (hi - lo)

/-- The granules of `n` bytes below the scratchpad window. -/
def granSpan (a n : Nat) : Nat × Nat :=
  let top := spadBase / 65536
  let hi := (a + n + 65535) / 65536
  (a / 65536, if top < hi then top else hi)

/-- Whether the source and destination of the buckets from `k` on touch more than 256 granules (R72). -/
def postTooWide (d : Desc) (k : Nat) : Bool :=
  let n := (d.buckets - k) * d.stride
  decide (256 < granCount (granSpan (d.src.toNat + k * d.stride) n) (granSpan (d.dst.toNat + k * d.stride) n))

/-- The owner of the window lines that a post of the cluster of `me` reads. -/
def State.sOwner (s : State) : Owner := .fetch .sq s.me.key

/-- The packages of PEERS, once every line of it is there, or what stops the post. -/
inductive PeersGot where
  | peers (s : State) (m : List Mapped) (l : List Nat)
  | fault (s : State) (c : Cause) (va : Nat)
  | failed (s : State) (c : Cause)
  | later (s : State)

/-- Reads PEERS of a descriptor. -/
def State.readPeers (s : State) (d : Desc) : PeersGot :=
  match s.mapAll (addRange [] d.peers.toNat (2 * d.parts)) false none [] with
  | (s1, .error (e, a)) => .fault s1 e a
  | (s1, .ok pm) =>
    match s1.fetch s1.me.st.vi s1.sOwner (sysLines pm [(d.peers, 2 * d.parts)]) with
    | (s2, false) => .later s2
    | (s2, true) =>
      match s2.snap s2.sOwner pm 0 d.peers (2 * d.parts) [] with
      | .error e => .failed s2 (if e = 3 then .memPoison else if e = 6 then .memRange else if e = 8 then .fabLost else .memLink)
      | .ok bs => .peers s2 pm (halves bs)

/-- QPOST at the engine: the conditions of R395 on the slot and on PEERS come first, then R72. -/
def State.qpostStep (s : State) (h : Entry) (d : Reg) (handle first : Word) : State :=
  let no : Word := BitVec.allOnes 64
  match s.collOwn handle with
  | none => s.bindResult h d no
  | some c =>
    if c.st = .running ∨ c.st = .done ∨ c.done < first.toNat ∨ !s.zEnabled s.me.st.vi then s.bindResult h d no
    else if s.heldNow .sq then s
    else
      match s.readPeers c.desc with
      | .fault s1 e a => s1.collFault h d no e (BitVec.ofNat 64 a) false
      | .failed s1 e => (s1.refused e .sq h c.desc.peers 0).bindResult h d no
      | .later s1 => s1
      | .peers s1 pm peers =>
        if peers.getD c.desc.rank 0 ≠ s.pkg ∨ peers.eraseDups.length ≠ peers.length then s1.bindResult h d no
        else if postTooWide c.desc first.toNat then
          (s1.updSt fun t => t.record { TrapRec.defer .engEnc .sq h.waddr with info16 := 0xFFFF }).bindResult h d no
        else
          match s1.postMaps c.desc first.toNat with
          | (s2, .error (e, a, w)) => s2.collFault h d no e (BitVec.ofNat 64 a) w
          | (s2, .ok m) => (s2.updSt fun t => t.release .sq).postRun h d c first.toNat peers pm m

/-- Whether some pair of a collective has no room for a gong. -/
def State.gongFull (s : State) (c : Coll) : Bool := c.others.any fun p => s.pairFull p

/-- QABORT at the engine: the gong, then the wait for its acknowledgements. -/
def State.qabortStep (s : State) (h : Entry) (d : Reg) (handle : Word) : State :=
  match s.collOwn handle with
  | none => s.bindResult h d 0
  | some c =>
    if h.stage = .submitted then
      let left := c.gongs.filter fun g => !(s.peer g.1).lost && (s.peer g.1).retry.any fun p => decide (p.seq = g.2)
      if left.isEmpty then s.bindResult h d (c.att.setWidth 64) else s.setColl { c with gongs := left }
    else if c.st = .running then
      if s.gongFull c then s
      else
        let out := c.others.map fun p => (p, (s.peer p).nextSeq.toNat)
        ((s.ring c).collStop { c with gongs := out } .aborted 3).updHead .sq fun h => { h with stage := .submitted }
    else s.bindResult h d (c.att.setWidth 64)

/-- QSTAT at the engine. -/
def State.qstatStep (s : State) (h : Entry) (d : Reg) (handle : Word) : State := s.bindResult h d (s.collStatus handle)

/-! ### The values (R386 to R388) -/

/-- A source element as an F32 or I32 partial value. -/
def collDecode (f : Fmt) (p : Nat) : Lane :=
  if f = .i32 then BitVec.ofNat 32 p else BitVec.ofNat 32 (cvtVal (decodeFmt f p) .f32 .rne .wrap)

/-- R388: rounded to BF16 under rne, as an F32 pattern. -/
def narrowed (v : Lane) : Lane :=
  BitVec.ofNat 32 (cvtVal (decodeFmt .bf16 (cvtVal (decodeFmt .f32 v.toNat) .bf16 .rne .wrap)) .f32 .rne .wrap)

/-- R386: the combining function; `q` is first. -/
def Desc.combine (d : Desc) (q p : Lane) : Lane :=
  if d.fmt = .i32 then
    match d.op with
    | 1 => if q.toInt ≤ p.toInt then q else p
    | 2 => if q.toInt ≤ p.toInt then p else q
    | _ => q + p
  else
    let a := decodeFmt .f32 q.toNat
    let b := decodeFmt .f32 p.toNat
    BitVec.ofNat 32 (cvtVal (match d.op with
      | 1 => Val.min a b
      | 2 => Val.max a b
      | _ => Val.add a b .rne) .f32 .rne .wrap)

/-- A result element. -/
def Desc.encode (d : Desc) (v : Lane) : Nat := if d.fmt = .i32 then v.toNat else cvtVal (decodeFmt .f32 v.toNat) d.fmt .rne .wrap

/-- A chunk of a bucket's values. -/
def Desc.slice (d : Desc) (vals : List Lane) (c : Nat) : List Lane := (vals.drop (c * d.chunk)).take d.chunk

/-- Values put in the place of a chunk. -/
def Desc.put (d : Desc) (vals : List Lane) (c : Nat) (l : List Lane) : List Lane :=
  vals.take (c * d.chunk) ++ l ++ vals.drop (c * d.chunk + l.length)

/-- `(r - s + k) mod P` of R386. -/
def Desc.ringIdx (d : Desc) (s k : Nat) : Nat := (d.rank + k + d.parts * 2 - s) % d.parts

/-- The steps in which this rank receives, in order. Ring steps carry the numbers of R386; a tree rank receives its
children's values in steps 1 and 2 and its parent's in step 3 (left child) or 4. -/
def Desc.recvs (d : Desc) : List Nat :=
  let p := d.parts
  let down := if d.rank = 0 then [] else if d.rank % 2 = 1 then [3] else [4]
  if d.tree then
    (if d.op = 5 then [] else (if 2 * d.rank + 1 < p then [1] else []) ++ (if 2 * d.rank + 2 < p then [2] else [])) ++ down
  else
    match d.op with
    | 3 => (List.range (p - 1)).map (· + 1)
    | 4 => (List.range (p - 1)).map (· + p)
    | 5 => if d.rank = 0 then [] else [d.rank]
    | _ => (List.range (2 * p - 2)).map (· + 1)

/-- One send: its step, the rank it goes to, and how many chunks must have been received before. -/
structure Send where
  step : Nat
  to' : Nat
  after : Nat
  deriving DecidableEq, Repr

/-- The sends of this rank, in order. -/
def Desc.sends (d : Desc) : List Send :=
  let p := d.parts
  let r := d.rank
  let next := (r + 1) % p
  let n := d.recvs.length
  if d.tree then
    let kids := (if 2 * r + 1 < p then [Send.mk 3 (2 * r + 1) n] else []) ++ (if 2 * r + 2 < p then [Send.mk 4 (2 * r + 2) n] else [])
    if d.op = 5 ∨ r = 0 then kids else Send.mk (if r % 2 = 1 then 1 else 2) ((r - 1) / 2) (n - 1) :: kids
  else
    match d.op with
    | 4 => (List.range (p - 1)).map fun k => ⟨p + k, next, k⟩
    | 5 => if r + 1 < p then [⟨r + 1, next, n⟩] else []
    | _ => d.recvs.map fun s => ⟨s, next, s - 1⟩

/-- The chunk that a send of a step carries. -/
def Desc.sendChunk (d : Desc) (s : Nat) : Nat :=
  if d.tree ∨ d.op = 5 then 0
  else if s < d.parts then d.ringIdx s 1
  else if d.op = 4 then d.ringIdx (s - (d.parts - 1)) 1
  else d.ringIdx (s - (d.parts - 1)) 2

/-- The chunk that the values of a step belong to. -/
def Desc.recvChunk (d : Desc) (s : Nat) : Nat :=
  if d.tree ∨ d.op = 5 then 0
  else if s < d.parts then d.ringIdx s 0
  else if d.op = 4 then d.ringIdx (s - (d.parts - 1)) 0
  else d.ringIdx (s - (d.parts - 1)) 1

/-- Elementwise combination of two lists. -/
def zipLanes (f : Lane → Lane → Lane) (a b : List Lane) : List Lane :=
  match a, b with
  | x :: r, y :: q => f x y :: zipLanes f r q
  | _, _ => []

/-- Whether the values received in a step are combined, and whether that makes them final (R386, R387). -/
def Desc.reduces (d : Desc) (s : Nat) : Bool × Bool :=
  if d.tree then (decide (s ≤ 2), decide (s ≤ 2) && decide (d.rank = 0) && decide (some s = d.recvs.getLast?))
  else if d.op = 4 ∨ d.op = 5 then (false, false)
  else (decide (s < d.parts), decide (s + 1 = d.parts))

/-- R386, R387: the values of a step enter the bucket. A tree rank adds a child's value to its own. -/
def Desc.receive (d : Desc) (vals : List Lane) (s : Nat) (q : List Lane) : List Lane :=
  let c := d.recvChunk s
  let old := d.slice vals c
  let (red, fin) := d.reduces s
  let new := if red then (if d.tree then zipLanes d.combine old q else zipLanes d.combine q old) else q
  d.put vals c (if fin && d.narrow then new.map narrowed else new)

/-! ### Buckets (R385, R392) -/

/-- The strand that armed a collective, as far as it exists: its scratchpad is what a window address names. -/
def State.ownerStrand (s : State) (c : Coll) : Strand :=
  let is := fun (t : Strand) => decide (t.node = c.node) && decide (t.idx = c.idx)
  match s.clusters.find? fun x => is x.st && decide (x.status ≠ .idle) with
  | some x => x.st
  | none =>
    match (s.disp.nodes.flatMap fun n => n.saved).find? is with
    | some t => t
    | none => Strand.launch

/-- The state as the engine sees it when it acts for a collective: the interface and the scratchpad of its strand. -/
def State.asOwner (s : State) (c : Coll) : State :=
  s.updSt fun _ => { s.ownerStrand c with vi := c.vi }

/-- Changes the strand that armed a collective, on its cluster or saved. -/
def State.onOwner (s : State) (c : Coll) (f : Strand → Strand) : State :=
  let g := fun (t : Strand) => if t.node = c.node ∧ t.idx = c.idx then f t else t
  let s1 := s.mapClusters fun x => if x.status = .idle then x else { x with st := g x.st }
  { s1 with disp := { s1.disp with nodes := s1.disp.nodes.map fun n => { n with saved := n.saved.map g } } }

/-- CODE of a status of R95 (R393). -/
def collErrCode (e : Nat) : Nat := if e = 3 then 2 else if e = 6 then 5 else 4

/-- The doorbell's value. -/
def State.doorbell (s : State) (c : Coll) : Nat := if apert c.door = .sync then leNat (s.mem.readN (canon c.door) 8) else 0

/-- Elements that a rank reads of its source, as first index and count (R386). -/
def Desc.reads (d : Desc) : Nat × Nat :=
  if d.op = 4 then (d.rank * d.chunk, d.chunk) else if d.op = 5 ∧ d.rank ≠ 0 then (0, 0) else (0, d.blen)

/-- The elements that bytes hold. -/
def elemsOf (es : Nat) (n : Nat) (bs : List Byte) : List Nat :=
  match n with
  | 0 => []
  | n + 1 => leNat (bs.take es) :: elemsOf es n (bs.drop es)

/-- The source bytes of a bucket that a rank reads, as first address and length (R386). -/
def Desc.span (d : Desc) (b : Nat) : Word × Nat :=
  (d.src + BitVec.ofNat 64 (b * d.stride + d.reads.1 * d.es), d.reads.2 * d.es)

/-- Partial values of a bucket as its source gives them, or the status of a failed read. -/
def State.bucketRead (s : State) (c : Coll) (b : Nat) : Except Nat (List Lane) :=
  let d := c.desc
  let (first, n) := d.reads
  match (s.asOwner c).snap (.bucket c.die c.slot b) c.src 0 (d.span b).1 (d.span b).2 [] with
  | .error e => .error e
  | .ok bs =>
    let l := (elemsOf d.es n bs).map (collDecode d.fmt)
    let l' := if d.narrow ∧ d.op = 5 then l.map narrowed else l
    .ok (List.replicate first 0 ++ l' ++ List.replicate (d.blen - first - n) 0)

/-- The next bucket of a collective reads its source, once the lines of other packages are there (R385). -/
def State.bucketStart (s : State) (c : Coll) (b : Nat) : State :=
  let o : Owner := .bucket c.die c.slot b
  match s.fetch c.vi o (sysLines c.src [c.desc.span b]) with
  | (s1, false) => s1
  | (s1, true) =>
    match s1.bucketRead c b with
    | .error e => s1.collFail c (collErrCode e)
    | .ok l =>
      let s2 := (sideLines c.src [c.desc.span b]).foldl (fun s x => s.homeTouch x.1 x.2 0) (s1.forget fun q => decide (q = o))
      s2.setColl { c with next := b + 1, flight := c.flight ++ [⟨b, l, 0, [], none, false, false⟩] }

/-- BUCKET_START: the next bucket of a running collective, once its doorbell makes it ready and fewer than four are in
flight; its source is read (R385). -/
def execBucketStart (die slot : Nat) (s : State) : Out :=
  match s.coll die slot with
  | none => .next s
  | some c =>
    let b := c.next
    if c.st ≠ .running ∨ c.desc.buckets ≤ b ∨ 4 ≤ c.open.length ∨ s.doorbell c < (b + 1) * c.desc.cpb then .next s
    else .next (s.bucketStart c b)

/-- Replaces a bucket in flight. -/
def Coll.setBucket (c : Coll) (q : Bucket) : Coll := { c with flight := c.flight.map fun x => if x.b = q.b then q else x }

/-- The send of a bucket that is under way, or the first that is due and has its credit (R389). -/
def Coll.nextSend (c : Coll) (q : Bucket) : Option Send :=
  match q.part with
  | some x => c.desc.sends.find? fun y => decide (y.step = x.1)
  | none => c.desc.sends.find? fun x => !q.sent.contains x.step && decide (x.after ≤ q.got) && c.credits.contains (q.b, x.step)

/-- The chunk that a bucket receives next, once all its elements have arrived. -/
def Coll.nextRecv (c : Coll) (q : Bucket) : Option (Nat × List Lane) :=
  match c.desc.recvs[q.got]? with
  | none => none
  | some st =>
    match c.arrived.find? fun x => decide (x.1 = q.b) && decide (x.2.1 = st) with
    | some x => if c.desc.chunk ≤ x.2.2.length then some (st, x.2.2) else none
    | none => none

/-- Elements of one packet: four flits of 64 bytes, of F32 or I32 values, or of BF16 values where transport is narrowed
(R375, R388). -/
def Desc.perPacket (d : Desc) : Nat := if d.narrow then 128 else 64

/-- A bucket once the next packet of a send has gone out, or its send has ended. -/
def Bucket.advance (q : Bucket) (step off chunk : Nat) : Bucket :=
  if off < chunk then { q with part := some (step, off) } else { q with part := none, sent := q.sent ++ [step] }

/-- A bucket that has completed and passed everything on goes. -/
def Coll.settle (c : Coll) : Coll := { c with flight := c.flight.filter fun q => !(q.ended && decide (c.desc.sends.length ≤ q.sent.length)) }

/-- A bucket sends the next packet of a chunk. -/
def State.sendChunk (s : State) (c : Coll) (q : Bucket) (x : Send) : State :=
  let p := c.peers.getD x.to' 0
  if s.pairFull p then s
  else
    let off := match q.part with
      | some y => y.2
      | none => 0
    let l := ((c.desc.slice q.vals (c.desc.sendChunk x.step)).drop off).take c.desc.perPacket
    let out := if c.desc.narrow then l.map narrowed else l
    let s1 := s.sendSeq p c.rvi c.desc.cls (.coll c.desc.id c.att.toNat q.b x.step out)
    s1.setColl (c.setBucket (q.advance x.step (off + c.desc.perPacket) c.desc.chunk)).settle

/-- COLLECTIVE_STEP: a bucket sends the next packet of a chunk for which it has a credit, or takes the next chunk that has
arrived. -/
def execCollectiveStep (die slot bucket : Nat) (s : State) : Out :=
  match s.coll die slot with
  | none => .next s
  | some c =>
    match c.flight.find? fun q => decide (q.b = bucket) with
    | none => .next s
    | some q =>
      match c.nextSend q with
      | some x => .next (s.sendChunk c q x)
      | none =>
        match c.nextRecv q with
        | some (st, l) =>
          let c1 := c.setBucket { q with vals := c.desc.receive q.vals st l, got := q.got + 1 }
          .next (s.setColl { c1 with arrived := c1.arrived.filter fun x => !(decide (x.1 = q.b) && decide (x.2.1 = st)) })
        | none => .next s

/-- COLLECTIVE_CREDIT: a receiver has granted a step of a bucket (R389). -/
def execCollectiveCredit (die slot bucket step : Nat) (s : State) : Out :=
  match s.coll die slot with
  | none => .next s
  | some c =>
    if (c.st = .running ∨ c.st = .done) ∧ !c.credits.contains (bucket, step) then .next (s.setColl { c with credits := c.credits ++ [(bucket, step)] })
    else .next s

/-- Whether a bucket holds its whole result; what it still passes on does not count (R392). -/
def Coll.whole (c : Coll) (q : Bucket) : Bool := decide (c.desc.recvs.length ≤ q.got)

/-- Elements of a bucket's result, as first index and count: OP 3 writes its own chunk alone (R386). -/
def Desc.writes (d : Desc) : Nat × Nat := if d.op = 3 then ((d.rank + 1) % d.parts * d.chunk, d.chunk) else (0, d.blen)

/-- A bucket's result as bytes of its destination, with the address of the first. -/
def Coll.result (c : Coll) (q : Bucket) : Word × List Byte :=
  let d := c.desc
  let (first, n) := d.writes
  (d.dst + BitVec.ofNat 64 (q.b * d.stride + first * d.es),
   ((q.vals.drop first).take n).flatMap fun v => leBytes d.es (d.encode v))

/-- The result joins shadow lines of its homes; window bytes are written in place. It waits for shadow space. -/
def State.bucketShadow (s : State) (c : Coll) (q : Bucket) : State :=
  let own : Owner := .bucket c.die c.slot q.b
  let (va, bs) := c.result q
  let (o, bytes) := (s.asOwner c).putBytes c.dst 0 va bs []
  let lines := byLine (s.settled bytes)
  match s.fetch c.vi own (partWindow lines) with
  | (s0, false) => s0
  | (s0, true) =>
    match lines.findSome? (s0.partErr own c.vi) with
    | some e => s0.collFail c (collErrCode e)
    | none =>
      if !s0.shadowFits [] bytes then s0
      else
        let s1 := (s0.forget fun x => decide (x = own)).onOwner c fun t =>
          { t with spad := o.me.st.spad }.filled (windowGrans [(va, bs.length)]) none
        let s2 := s1.setColl (c.setBucket { q with shadowed := true })
        let run : CopyRun := ⟨c.key q.b, bytes, [], c.vi, [], [], [], 0⟩
        { s2 with shadow := s2.shadow ++ [run] }.l2Yield

/-- Whether stores of a collective's result to other packages still wait for their answers. -/
def State.collWaits (s : State) (c : Coll) : Bool := s.awaits fun o => decide (o = .coll c.die c.slot)

/-- Stores of a result to other packages. Those to this package's own number are served at once through its own ingress
(R378); the first that fails gives a code. Those for which the pair has no room wait (R381): they are what is left. -/
def State.collSend (s : State) (c : Coll) (l : List (Nat × List Byte)) : State × Option Nat × List (Nat × List Byte) :=
  match l with
  | [] => (s, none, [])
  | x :: r =>
    let p := windowPkg x.1
    if p = s.pkg then
      match s.exportWrite c.rvi (windowOff x.1) x.2 with
      | (s1, none) => s1.collSend c r
      | (s1, some e) => (s1, some (collErrCode (copyStatus e)), [])
    else if s.pairFull p then (let q := s.collSend c r; (q.1, q.2.1, x :: q.2.2))
    else (s.issue p c.rvi 0 (.coll c.die c.slot) 0 x.1 x.2.length (.store (windowOff x.1) x.2)).collSend c r

/-- The next bucket is done; with the last one the collective is (R392). -/
def State.bucketEnd (s : State) (c : Coll) (q : Bucket) : State :=
  let c1 := ({ c with done := q.b + 1 }.setBucket { q with ended := true }).settle
  let s1 := { s with shadow := s.shadow.filter fun x => decide (x.key ≠ c.key q.b) }
  if c1.done = c1.desc.buckets then
    { s1.setColl { c1 with st := .done, code := 0, pins := [] } with pins := c1.pins.foldl (unpinOne c1.die) s1.pins }
  else s1.setColl c1

/-- The last step of a bucket: its bytes of publishable regions flip in together, and it is done (R92, R136, R392). -/
def State.bucketLast (s : State) (c : Coll) (q : Bucket) (bytes : List ShadowByte) : State :=
  match s.flipPub bytes with
  | (s1, 0) => s1.bucketEnd c q
  | (s1, st) => s1.collFail c (collErrCode st)

/-- The lines of a bucket flip in at some homes, or go out to other packages; those of publishable regions come last, when
nothing else of the bucket can fail (R92, R136, R392). -/
def State.bucketFlip (s : State) (c : Coll) (q : Bucket) (bytes : List ShadowByte) (homes : List Nat) : State :=
  let here := bytes.filter fun b => !b.pub && decide (flipHome b.pa ≠ 24) && homes.contains (flipHome b.pa)
  let out := bytes.filter fun b => decide (flipHome b.pa = 24)
  let (s1, st) := s.flipLines (byLine here) 0
  if st ≠ 0 then s1.collFail c (collErrCode st)
  else
    let runs := (byLine out).flatMap fun x => shadowRuns x.2
    if !runs.isEmpty && !s1.zEnabled c.vi then s1.collFail c 5
    else if runs.any fun x => (s1.peer (windowPkg x.1)).lost then s1.collFail c 4
    else
      match s1.collSend c runs with
      | (s2, some code, _) => s2.collFail c code
      | (s2, none, left) =>
        let rest := bytes.filter fun b => if flipHome b.pa = 24 then inRuns left b.pa else b.pub || !homes.contains (flipHome b.pa)
        let s3 := { s2 with shadow := s2.shadow.map fun x => if x.key = c.key q.b then { x with bytes := rest } else x }
        if (rest.all fun b => b.pub) && !s3.collWaits c then s3.bucketLast c q rest else s3

/-- BUCKET_COMPLETE: the lowest bucket in flight, once whole, puts its result in shadow lines, flips them in at the homes
that the turn names (none named: all), and is done after the last flip and answer. -/
def execBucketComplete (die slot : Nat) (s : State) : Out :=
  match s.coll die slot with
  | none => .next s
  | some c =>
    match c.open with
    | [] => .next s
    | q :: _ =>
      if !c.whole q then .next s
      else if !q.shadowed then .next (s.bucketShadow c q)
      else
        match s.shadow.find? fun x => decide (x.key = c.key q.b) with
        | none => .next s
        | some x =>
          if x.bytes.all fun b => b.pub then .next (if s.collWaits c then s else s.bucketLast c q x.bytes)
          else .next (s.bucketFlip c q x.bytes (if s.input.isEmpty then List.range 24 else s.input))

/-- Whether a code of R393 has its reason: a lost peer, or a source that cannot be read now. -/
def State.collReason (s : State) (c : Coll) (code : Nat) : Bool :=
  if code = 1 then c.others.any fun p => (s.peer p).lost
  else c.open.any fun q => match s.bucketRead c q.b with
    | .error 7 => false
    | .error e => decide (collErrCode e = code)
    | .ok _ => false

/-- COLLECTIVE_FAIL: a running collective fails on loss or on an error (R393). -/
def execCollectiveFail (die slot code : Nat) (s : State) : Out :=
  match s.coll die slot with
  | none => .next s
  | some c => if c.st = .running ∧ s.collReason c code then .next (s.collFail c code) else .next s

end Sys2Proof.Machine
end

