-- ==== Sys2Proof/WellFormed.lean ====
section
/-!
DEFINITION. Well-formed instructions: the terms of `Instr` that some word of the opcode map denotes. Steps without a
word carry the inputs of the outside world and are always well-formed.
-/

namespace Sys2Proof

open Machine

/-- Why an instruction is no word of the opcode map (R36 to R51), or none. -/
def illFormed (i : Instr) : Option Reject :=
  match i with
  | .add g _ _ _ => firstBad [(guardOk g, .reservedGuard)]
  | .sub g _ _ _ => firstBad [(guardOk g, .reservedGuard)]
  | .mul g _ _ _ => firstBad [(guardOk g, .reservedGuard)]
  | .mulh g _ _ _ => firstBad [(guardOk g, .reservedGuard)]
  | .divs g _ _ _ => firstBad [(guardOk g, .reservedGuard)]
  | .divn g _ _ _ => firstBad [(guardOk g, .reservedGuard)]
  | .rems g _ _ _ => firstBad [(guardOk g, .reservedGuard)]
  | .remn g _ _ _ => firstBad [(guardOk g, .reservedGuard)]
  | .and g _ _ _ => firstBad [(guardOk g, .reservedGuard)]
  | .or g _ _ _ => firstBad [(guardOk g, .reservedGuard)]
  | .xor g _ _ _ => firstBad [(guardOk g, .reservedGuard)]
  | .andn g _ _ _ => firstBad [(guardOk g, .reservedGuard)]
  | .shl g _ _ _ => firstBad [(guardOk g, .reservedGuard)]
  | .shr g _ _ _ => firstBad [(guardOk g, .reservedGuard)]
  | .sha g _ _ _ => firstBad [(guardOk g, .reservedGuard)]
  | .rot g _ _ _ => firstBad [(guardOk g, .reservedGuard)]
  | .min g _ _ _ => firstBad [(guardOk g, .reservedGuard)]
  | .max g _ _ _ => firstBad [(guardOk g, .reservedGuard)]
  | .minn g _ _ _ => firstBad [(guardOk g, .reservedGuard)]
  | .maxn g _ _ _ => firstBad [(guardOk g, .reservedGuard)]
  | .clz g _ _ => firstBad [(guardOk g, .reservedGuard)]
  | .popc g _ _ => firstBad [(guardOk g, .reservedGuard)]
  | .addImm g _ _ _ => firstBad [(guardOk g, .reservedGuard)]
  | .andImm g _ _ _ => firstBad [(guardOk g, .reservedGuard)]
  | .orImm g _ _ _ => firstBad [(guardOk g, .reservedGuard)]
  | .xorImm g _ _ _ => firstBad [(guardOk g, .reservedGuard)]
  | .shlImm g _ _ imm => firstBad [(guardOk g, .reservedGuard), (decide (imm.toNat ≤ 63), .unlistedValue)]
  | .shrImm g _ _ imm => firstBad [(guardOk g, .reservedGuard), (decide (imm.toNat ≤ 63), .unlistedValue)]
  | .shaImm g _ _ imm => firstBad [(guardOk g, .reservedGuard), (decide (imm.toNat ≤ 63), .unlistedValue)]
  | .rotImm g _ _ imm => firstBad [(guardOk g, .reservedGuard), (decide (imm.toNat ≤ 63), .unlistedValue)]
  | .cmp g pd _ _ _ => firstBad [(guardOk g, .reservedGuard), (decide (pd ≠ 0), .unlistedValue)]
  | .sel g _ _ _ _ => firstBad [(guardOk g, .reservedGuard)]
  | .sfadd g _ _ _ rnd => firstBad [(guardOk g, .reservedGuard), (decide (rnd ≠ .rsr), .formatClass)]
  | .sfmul g _ _ _ rnd => firstBad [(guardOk g, .reservedGuard), (decide (rnd ≠ .rsr), .formatClass)]
  | .sffma g _ _ _ rnd => firstBad [(guardOk g, .reservedGuard), (decide (rnd ≠ .rsr), .formatClass)]
  | .sfmin g _ _ _ rnd => firstBad [(guardOk g, .reservedGuard), (decide (rnd ≠ .rsr), .formatClass)]
  | .sfmax g _ _ _ rnd => firstBad [(guardOk g, .reservedGuard), (decide (rnd ≠ .rsr), .formatClass)]
  | .sfcmp g pd _ _ _ => firstBad [(guardOk g, .reservedGuard), (decide (pd ≠ 0), .unlistedValue)]
  | .sfcvt g _ _ _ _ rnd _ => firstBad [(guardOk g, .reservedGuard), (decide (rnd ≠ .rsr), .formatClass)]
  | .pbr g _ _ => firstBad [(guardOk g, .reservedGuard)]
  | .pbri g _ _ => firstBad [(guardOk g, .reservedGuard)]
  | .br g _ => firstBad [(guardOk g, .reservedGuard)]
  | .brq g _ _ => firstBad [(guardOk g, .reservedGuard)]
  | .call g _ => firstBad [(guardOk g, .reservedGuard)]
  | .ret g => firstBad [(guardOk g, .reservedGuard)]
  | .zloop g _ _ _ last => firstBad [(guardOk g, .reservedGuard), (decide (last ≠ 0), .unlistedValue)]
  | .zlset g _ _ _ => firstBad [(guardOk g, .reservedGuard)]
  | .zlsv g _ _ => firstBad [(guardOk g, .reservedGuard)]
  | .zlrs g _ _ => firstBad [(guardOk g, .reservedGuard)]
  | .movi g _ _ => firstBad [(guardOk g, .reservedGuard)]
  | .movh g _ _ => firstBad [(guardOk g, .reservedGuard)]
  | .lea g _ _ _ => firstBad [(guardOk g, .reservedGuard)]
  | .ldOffset g _ _ _ _ => firstBad [(guardOk g, .reservedGuard)]
  | .ldIndex g _ _ _ _ => firstBad [(guardOk g, .reservedGuard)]
  | .stOffset g _ _ _ _ => firstBad [(guardOk g, .reservedGuard)]
  | .stIndex g _ _ _ _ => firstBad [(guardOk g, .reservedGuard)]
  | .ldcOffset g _ _ _ _ => firstBad [(guardOk g, .reservedGuard)]
  | .ldcIndex g _ _ _ _ => firstBad [(guardOk g, .reservedGuard)]
  | .stntOffset g _ _ _ _ => firstBad [(guardOk g, .reservedGuard)]
  | .stntIndex g _ _ _ _ => firstBad [(guardOk g, .reservedGuard)]
  | .qld g _ => firstBad [(guardOk g, .reservedGuard)]
  | .qst g _ => firstBad [(guardOk g, .reservedGuard)]
  | .kcopy g o => firstBad [(guardOk g, .reservedGuard), (copyRegsOk .copy o, .combination)]
  | .kcopy2d g o => firstBad [(guardOk g, .reservedGuard), (copyRegsOk .copy2d o, .combination)]
  | .kfill g o => firstBad [(guardOk g, .reservedGuard), (copyRegsOk .fill o, .combination)]
  | .kgather g o => firstBad [(guardOk g, .reservedGuard), (copyRegsOk .gather o, .combination)]
  | .kscatter g o => firstBad [(guardOk g, .reservedGuard), (copyRegsOk .scatter o, .combination)]
  | .kpair g o => firstBad [(guardOk g, .reservedGuard), (copyRegsOk .pair o, .combination)]
  | .kwait g _ _ => firstBad [(guardOk g, .reservedGuard)]
  | .kstat g _ => firstBad [(guardOk g, .reservedGuard)]
  | .done g => firstBad [(guardOk g, .reservedGuard)]
  | .aadd g _ => firstBad [(pguardOk g, .reservedGuard)]
  | .aand g _ => firstBad [(pguardOk g, .reservedGuard)]
  | .aor g _ => firstBad [(pguardOk g, .reservedGuard)]
  | .axor g _ => firstBad [(pguardOk g, .reservedGuard)]
  | .amin g _ => firstBad [(pguardOk g, .reservedGuard)]
  | .amax g _ => firstBad [(pguardOk g, .reservedGuard)]
  | .aminn g _ => firstBad [(pguardOk g, .reservedGuard)]
  | .amaxn g _ => firstBad [(pguardOk g, .reservedGuard)]
  | .axchg g _ => firstBad [(pguardOk g, .reservedGuard)]
  | .acas g _ => firstBad [(pguardOk g, .reservedGuard)]
  | .fadd g _ _ _ => firstBad [(guardOk g, .reservedGuard)]
  | .fset g _ _ _ => firstBad [(guardOk g, .reservedGuard)]
  | .wait g _ _ _ => firstBad [(guardOk g, .reservedGuard)]
  | .barv g _ _ _ => firstBad [(guardOk g, .reservedGuard)]
  | .barw g _ _ _ => firstBad [(guardOk g, .reservedGuard)]
  | .barinit g a _ => firstBad [(guardOk g, .reservedGuard), (decide (a.toNat ≠ 31), .combination)]
  | .mark g => firstBad [(guardOk g, .reservedGuard)]
  | .sbar g _ => firstBad [(guardOk g, .reservedGuard)]
  | .fence g _ ord => firstBad [(guardOk g, .reservedGuard), (decide (ord ≠ .rlx), .unlistedValue)]
  | .drainnt g _ => firstBad [(guardOk g, .reservedGuard)]
  | .cinv g => firstBad [(guardOk g, .reservedGuard)]
  | .kpub g _ _ => firstBad [(guardOk g, .reservedGuard)]
  | .talloc g _ => firstBad [(guardOk g, .reservedGuard)]
  | .tretire g _ => firstBad [(guardOk g, .reservedGuard)]
  | .retireNotice _ _ => none
  | .retireComplete _ => none
  | .tset g _ => firstBad [(guardOk g, .reservedGuard)]
  | .tget g _ => firstBad [(guardOk g, .reservedGuard)]
  | .ldx g _ _ _ _ => firstBad [(guardOk g, .reservedGuard)]
  | .tstat g _ _ => firstBad [(guardOk g, .reservedGuard)]
  | .fork g _ _ => firstBad [(guardOk g, .reservedGuard)]
  | .rdv g em => firstBad [(guardOk g, .reservedGuard), (em.l || em.st || em.v || em.m || em.k, .unlistedValue)]
  | .ebset g _ _ => firstBad [(guardOk g, .reservedGuard)]
  | .ebget g _ _ => firstBad [(guardOk g, .reservedGuard)]
  | .tkset g _ _ => firstBad [(guardOk g, .reservedGuard)]
  | .tkget g _ _ => firstBad [(guardOk g, .reservedGuard)]
  | .strid g _ => firstBad [(guardOk g, .reservedGuard)]
  | .launch g _ _ _ => firstBad [(guardOk g, .reservedGuard)]
  | .yield g _ => firstBad [(guardOk g, .reservedGuard)]
  | .prio g _ _ => firstBad [(guardOk g, .reservedGuard)]
  | .nodeid g _ => firstBad [(guardOk g, .reservedGuard)]
  | .csrr g _ _ => firstBad [(guardOk g, .reservedGuard)]
  | .csrw g _ _ => firstBad [(guardOk g, .reservedGuard)]
  | .csrs g _ _ => firstBad [(guardOk g, .reservedGuard)]
  | .nop g => firstBad [(guardOk g, .reservedGuard)]
  | .trap g _ => firstBad [(guardOk g, .reservedGuard)]
  | .eret g => firstBad [(guardOk g, .reservedGuard)]
  | .brk g _ => firstBad [(guardOk g, .reservedGuard)]
  | .swpt g _ => firstBad [(guardOk g, .reservedGuard)]
  | .pwrq g _ _ => firstBad [(guardOk g, .reservedGuard)]
  | .pwreq g _ _ => firstBad [(guardOk g, .reservedGuard)]
  | .qarm g _ _ => firstBad [(guardOk g, .reservedGuard)]
  | .qpost g _ _ _ => firstBad [(guardOk g, .reservedGuard)]
  | .qwait g _ _ _ => firstBad [(guardOk g, .reservedGuard)]
  | .qabort g _ _ => firstBad [(guardOk g, .reservedGuard)]
  | .qstat g _ _ => firstBad [(guardOk g, .reservedGuard)]
  | .vadd f => vBad 0x01 f
  | .vsub f => vBad 0x02 f
  | .vmul f => vBad 0x03 f
  | .vfma f => vBad 0x04 f
  | .vfms f => vBad 0x05 f
  | .vmin f => vBad 0x06 f
  | .vmax f => vBad 0x07 f
  | .vabs f => vBad 0x08 f
  | .vneg f => vBad 0x09 f
  | .vclamp f => vBad 0x0A f
  | .vexp2 f => vBad 0x0B f
  | .vlog2 f => vBad 0x0C f
  | .vrcp f => vBad 0x0D f
  | .vrsqrt f => vBad 0x0E f
  | .vtanh f => vBad 0x0F f
  | .vsig f => vBad 0x10 f
  | .vand f => vBad 0x11 f
  | .vor f => vBad 0x12 f
  | .vxor f => vBad 0x13 f
  | .vshl f => vBad 0x14 f
  | .vshr f => vBad 0x15 f
  | .vsha f => vBad 0x16 f
  | .vcvt f => vBad 0x17 f
  | .vpack f => vBad 0x18 f
  | .vunpack f => vBad 0x19 f
  | .vcmp f => vBad 0x1A f
  | .vsel f => vBad 0x1B f
  | .vmop f => vBad 0x1C f
  | .vperm f => vBad 0x1D f
  | .vbcast f => vBad 0x1E f
  | .vred f => vBad 0x1F f
  | .vscan f => vBad 0x20 f
  | .vdefer f => vBad 0x21 f
  | .vdrain f => vBad 0x22 f
  | .vmov f => vBad 0x23 f
  | .vrep f => vrepBad f
  | .vsacc f => vBad 0x25 f
  | .vseed f => vBad 0x26 f
  | .nset _ push _ level _ _ _ _ => firstBad [(decide (push.toNat < 8), .reservedBits), (decide (level.toNat ≤ 5), .unlistedValue)]
  | .ngo _ push chmask => firstBad [(decide (push.toNat < 8), .reservedBits), (decide (chmask ≠ 0), .unlistedValue)]
  | .mmac f => mBad 0x03 f
  | .mmacq f => mBad 0x04 f
  | .msacc f => mBad 0x05 f
  | .mloadr f => mBad 0x06 f
  | .mloads f => mBad 0x07 f
  | .mzero f => mBad 0x08 f
  | .mstore f => mBad 0x09 f
  | .mact f => mBad 0x0A f
  | .mrep _ len => firstBad [(decide (len ≠ 0), .unlistedValue)]
  | .relax f => mBad 0x10 f
  | .relaxb f => mBad 0x14 f
  | .mxset f => mBad 0x11 f
  | .mxread f => mBad 0x12 f
  | .mpatch f => mBad 0x13 f
  | .engineEntryBegin _ => none
  | .entryComplete _ => none
  | .ntBufferWrite _ => none
  | .streamElement _ => none
  | .copyComplete _ => none
  | .pageWalk _ _ => none
  | .faultService _ _ => none
  | .shootdownPage _ => none
  | .shootdownRange _ => none
  | .shootdownVi _ => none
  | .shootdownAll _ => none
  | .engineWatchdogExpire _ => none
  | .graphRelease _ _ => none
  | .nodeComplete _ => none
  | .sqDoorbell _ _ _ => none
  | .sqEnable _ _ _ => none
  | .launchQueueEnable _ _ _ => none
  | .load _ _ _ => none
  | .unload _ => none
  | .teardown _ => none
  | .clearFault _ => none
  | .endNode _ => none
  | .resume _ => none
  | .attest _ => none
  | .mboxBadCommand _ _ => none
  | .bar2Access _ _ _ _ => none
  | .viEnable _ => none
  | .viDisable _ => none
  | .viclsWrite _ _ => none
  | .cellcfgWrite _ _ => none
  | .w1cClear _ _ => none
  | .registerWrite _ _ => none
  | .rampEnvelopeTick _ => none
  | .energyPeriodRefill _ => none
  | .impChange _ => none
  | .oppChange _ _ => none
  | .telemetryRecord _ => none
  | .packetReceive _ => none
  | .ackReceive _ _ => none
  | .ackTimeout _ => none
  | .routeInstall _ _ => none
  | .gongReceive _ _ _ _ => none
  | .bucketStart _ _ => none
  | .collectiveStep _ _ _ => none
  | .bucketComplete _ _ => none
  | .collectiveFail _ _ _ => none
  | .cxlDecoderLower _ _ => none
  | .clusterErrorRollback _ => none
  | .correctedError _ => none
  | .uncorrectableError _ => none
  | .scrub _ _ => none
  | .reset _ => none
  | .dynamicAddressAssign _ => none
  | .setEndpointId _ => none
  | .vendorRequestQuote _ => none
  | .vendorWriteZcfg _ => none
  | .illegalEncoding _ => none
  | .collectiveCredit _ _ _ _ => none
  | .throttleReasonChange _ _ => none
  | .packageReserveGrant _ _ => none
  | .cxlLinkUp _ _ => none
  | .strandFinish => none
  | .atomicExecute => none
  | .slotUpdate => none
  | .kpubFlip => none
  | .tallocServe => none
  | .tagWaitTimeout => none
  | .retireStart => none
  | .cellFullTimeout => none
  | .relaxGroupStart => none
  | .loadPerformed => none
  | .storePerformed => none
  | .copySubmit => none
  | .stallWireRelease => none
  | .shootdownComplete => none
  | .controlWatchdogExpire => none
  | .sliceEnd => none
  | .switchOutComplete => none
  | .nodeAccept => none
  | .placement => none
  | .portLockLoss => none
  | .destinationLost => none
  | .cxlLinkDown => none
  | .tsuwinLinkDown => none
  | .coreHeartbeatExpire => none
  | .coreRebootComplete => none
  | .fallbackTurn => none
  | .barWindowsOpen => none
  | .getEndpointId => none
  | .getMctpVersionSupport => none
  | .getMessageTypeSupport => none
  | .vendorReadTelemetry => none
  | .vendorReadErrors => none
  | .announce => none
  | .sync => none
  | .followUp => none
  | .ppsEdge => none
  | .ppsEdgeMissing => none
  | .tsuwinLinkUp => none

/-- The instruction is well-formed. -/
def wellFormed (i : Instr) : Bool := decide (illFormed i = none)

end Sys2Proof
end

