-- ==== Sys2Proof/Decode.lean ====
section
/-!
DEFINITION. The decoder of the three word formats, total on any word and rejecting by name (R36 to R51), and after it
the encoder, written from the same tables. A word is a number whose bit 0 is the least significant bit of its first
byte (R34).
-/

namespace Sys2Proof

open Machine

/-! ### Fields -/

/-- Bits `lo` to `lo + n - 1` of `w`. -/
def fld (w lo n : Nat) : BitVec n := BitVec.ofNat n (w / 2 ^ lo)

/-- Bit `lo` of `w`. -/
def bit (w lo : Nat) : Bool := decide (w / 2 ^ lo % 2 = 1)

/-- Whether bits `lo` to `lo + n - 1` are zero. -/
def zero (w lo n : Nat) : Bool := decide (w / 2 ^ lo % 2 ^ n = 0)

/-- An instruction, under a condition on reserved bits. -/
def need (ok : Bool) (r : Reject) (i : Instr) : Except Reject Instr := if ok then .ok i else .error r

/-- The guard fields of R36. -/
def gd (w : Nat) : Guard := ⟨fld w 29 3, bit w 22, bit w 21⟩

/-- The guard fields of the atomic layout. -/
def pg (w : Nat) : PGuard := ⟨fld w 29 3, bit w 22⟩

/-! ### Codes (R35, R39, R40) -/

/-- Size codes. -/
def sizeOf (n : Nat) : Size :=
  match n % 4 with
  | 0 => .b
  | 1 => .h
  | 2 => .w
  | _ => .d

/-- Scope codes. -/
def scopeOf (n : Nat) : Scope :=
  match n % 4 with
  | 0 => .cl
  | 1 => .die
  | 2 => .pkg
  | _ => .sys

/-- Order codes. -/
def orderOf (n : Nat) : Order :=
  match n % 4 with
  | 0 => .rlx
  | 1 => .acq
  | 2 => .rel
  | _ => .ar

/-- Rounding codes; 5 to 7 are reserved. -/
def rndOf (n : Nat) : Option Rnd :=
  match n with
  | 0 => some .rne
  | 1 => some .rtz
  | 2 => some .rdn
  | 3 => some .rup
  | 4 => some .rsr
  | _ => none

/-- Overflow codes. -/
def ovfOf (b : Bool) : Ovf := if b then .sat else .wrap

/-- COND of CMP (R203). -/
def condOf (n : Nat) : Option Cond :=
  match n with
  | 0 => some .eq
  | 1 => some .ne
  | 2 => some .lt
  | 3 => some .ge
  | 4 => some .ltn
  | 5 => some .gen
  | _ => none

/-- COND of SFCMP (R220). -/
def fcondOf (n : Nat) : Option FCond :=
  match n with
  | 0 => some .eq
  | 1 => some .ne
  | 2 => some .lt
  | 3 => some .le
  | 4 => some .un
  | _ => none

/-- XF of SFCVT (R221). -/
def xfOf (n : Nat) : Option XFmt :=
  match n with
  | 1 => some .f64
  | 2 => some .f19
  | 3 => some .f16
  | 4 => some .bf16
  | 11 => some .i32
  | 12 => some .i16
  | 13 => some .n16
  | 14 => some .i8
  | 15 => some .n8
  | _ => none

/-- F of ZLSET (R217). -/
def zlOf (n : Nat) : Option ZlField :=
  match n with
  | 0 => some .zls
  | 1 => some .zle
  | 2 => some .zlc
  | 3 => some .stages
  | _ => none

/-- STM of SBAR (R40). -/
def stmOf (n : Nat) : Option Stm :=
  match n with
  | 0 => some .sr
  | 1 => some .sw
  | 2 => some .m
  | _ => none

/-- The stream layout (R38). -/
def streamOf (w : Nat) : StreamOps := ⟨fld w 19 2, sizeOf (w / 2 ^ 17), fld w 11 5, fld w 9 2, fld w 4 5⟩

/-- The copy layout (R38). -/
def copyOf (w : Nat) : CopyOps := ⟨fld w 16 5, fld w 11 5, fld w 6 5, fld w 1 5, bit w 0⟩

/-- The atomic layout (R38). -/
def atomOf (w : Nat) : AtomOps :=
  ⟨fld w 17 5, fld w 12 5, fld w 7 5, fld w 5 2, bit w 4, scopeOf (w / 2 ^ 2), orderOf w⟩

/-! ### Uslyn-S words -/

/-- OP 0x01: integer register forms (R39). -/
def parseAlu (w : Nat) : Except Reject Instr :=
  match w % 64 with
  | 0 => .ok (.add (gd w) (fld w 16 5) (fld w 11 5) (fld w 6 5))
  | 1 => .ok (.sub (gd w) (fld w 16 5) (fld w 11 5) (fld w 6 5))
  | 2 => .ok (.mul (gd w) (fld w 16 5) (fld w 11 5) (fld w 6 5))
  | 3 => .ok (.mulh (gd w) (fld w 16 5) (fld w 11 5) (fld w 6 5))
  | 4 => .ok (.divs (gd w) (fld w 16 5) (fld w 11 5) (fld w 6 5))
  | 5 => .ok (.divn (gd w) (fld w 16 5) (fld w 11 5) (fld w 6 5))
  | 6 => .ok (.rems (gd w) (fld w 16 5) (fld w 11 5) (fld w 6 5))
  | 7 => .ok (.remn (gd w) (fld w 16 5) (fld w 11 5) (fld w 6 5))
  | 8 => .ok (.and (gd w) (fld w 16 5) (fld w 11 5) (fld w 6 5))
  | 9 => .ok (.or (gd w) (fld w 16 5) (fld w 11 5) (fld w 6 5))
  | 10 => .ok (.xor (gd w) (fld w 16 5) (fld w 11 5) (fld w 6 5))
  | 11 => .ok (.andn (gd w) (fld w 16 5) (fld w 11 5) (fld w 6 5))
  | 12 => .ok (.shl (gd w) (fld w 16 5) (fld w 11 5) (fld w 6 5))
  | 13 => .ok (.shr (gd w) (fld w 16 5) (fld w 11 5) (fld w 6 5))
  | 14 => .ok (.sha (gd w) (fld w 16 5) (fld w 11 5) (fld w 6 5))
  | 15 => .ok (.rot (gd w) (fld w 16 5) (fld w 11 5) (fld w 6 5))
  | 16 => .ok (.min (gd w) (fld w 16 5) (fld w 11 5) (fld w 6 5))
  | 17 => .ok (.max (gd w) (fld w 16 5) (fld w 11 5) (fld w 6 5))
  | 18 => .ok (.minn (gd w) (fld w 16 5) (fld w 11 5) (fld w 6 5))
  | 19 => .ok (.maxn (gd w) (fld w 16 5) (fld w 11 5) (fld w 6 5))
  | 20 => need (zero w 6 5) .unusedField (.clz (gd w) (fld w 16 5) (fld w 11 5))
  | 21 => need (zero w 6 5) .unusedField (.popc (gd w) (fld w 16 5) (fld w 11 5))
  | _ => .error .unlistedValue

/-- OP 0x02: integer immediate forms (R39). -/
def parseAluImm (w : Nat) : Except Reject Instr :=
  match w / 2 ^ 8 % 8 with
  | 0 => .ok (.addImm (gd w) (fld w 16 5) (fld w 11 5) (fld w 0 8))
  | 1 => .ok (.andImm (gd w) (fld w 16 5) (fld w 11 5) (fld w 0 8))
  | 2 => .ok (.orImm (gd w) (fld w 16 5) (fld w 11 5) (fld w 0 8))
  | 3 => .ok (.xorImm (gd w) (fld w 16 5) (fld w 11 5) (fld w 0 8))
  | 4 => .ok (.shlImm (gd w) (fld w 16 5) (fld w 11 5) (fld w 0 8))
  | 5 => .ok (.shrImm (gd w) (fld w 16 5) (fld w 11 5) (fld w 0 8))
  | 6 => .ok (.shaImm (gd w) (fld w 16 5) (fld w 11 5) (fld w 0 8))
  | _ => .ok (.rotImm (gd w) (fld w 16 5) (fld w 11 5) (fld w 0 8))

/-- OP 0x03 (R203). -/
def parseCmp (w : Nat) : Except Reject Instr :=
  match condOf (w % 64) with
  | some c => need (zero w 16 2) .reservedBits (.cmp (gd w) (fld w 18 3) (fld w 11 5) (fld w 6 5) c)
  | none => .error .unlistedValue

/-- OP 0x05: the scalar FP32 forms (R219). -/
def parseSf (w : Nat) : Except Reject Instr :=
  match rndOf (w / 2 ^ 3 % 8) with
  | none => .error .reservedCode
  | some r =>
    match w % 8 with
    | 0 => .ok (.sfadd (gd w) (fld w 16 5) (fld w 11 5) (fld w 6 5) r)
    | 1 => .ok (.sfmul (gd w) (fld w 16 5) (fld w 11 5) (fld w 6 5) r)
    | 2 => .ok (.sffma (gd w) (fld w 16 5) (fld w 11 5) (fld w 6 5) r)
    | 3 => .ok (.sfmin (gd w) (fld w 16 5) (fld w 11 5) (fld w 6 5) r)
    | 4 => .ok (.sfmax (gd w) (fld w 16 5) (fld w 11 5) (fld w 6 5) r)
    | _ => .error .unlistedValue

/-- OP 0x06 (R220). -/
def parseSfcmp (w : Nat) : Except Reject Instr :=
  match fcondOf (w % 64) with
  | some c => need (zero w 16 2) .reservedBits (.sfcmp (gd w) (fld w 18 3) (fld w 11 5) (fld w 6 5) c)
  | none => .error .unlistedValue

/-- OP 0x07 (R221). -/
def parseSfcvt (w : Nat) : Except Reject Instr :=
  match xfOf (w / 2 ^ 5 % 32), rndOf (w / 2 ^ 2 % 8) with
  | some x, some r =>
    need (zero w 0 1) .reservedBits (.sfcvt (gd w) (fld w 16 5) (fld w 11 5) (bit w 10) x r (ovfOf (bit w 1)))
  | _, _ => .error .reservedCode

/-- OP 0x0F: loop state (R217, R218). -/
def parseZl (w : Nat) : Except Reject Instr :=
  if !zero w 2 9 then .error .reservedBits
  else
    match w % 4 with
    | 0 =>
      match zlOf (w / 2 ^ 16 % 8) with
      | some f => .ok (.zlset (gd w) (fld w 19 2) f (fld w 11 5))
      | none => .error .unlistedValue
    | 1 => need (zero w 16 3) .unusedField (.zlsv (gd w) (fld w 19 2) (fld w 11 5))
    | 2 => need (zero w 16 3) .unusedField (.zlrs (gd w) (fld w 19 2) (fld w 11 5))
    | _ => .error .unlistedValue

/-- OP 0x13: `ld` with an offset or an index register (R38). -/
def parseLd (w : Nat) : Except Reject Instr :=
  if bit w 8 then
    need (zero w 0 3) .reservedBits (.ldIndex (gd w) (fld w 16 5) (fld w 11 5) (sizeOf (w / 2 ^ 9)) (fld w 3 5))
  else .ok (.ldOffset (gd w) (fld w 16 5) (fld w 11 5) (sizeOf (w / 2 ^ 9)) (fld w 0 8))

/-- OP 0x14: `st` with an offset or an index register (R38). -/
def parseSt (w : Nat) : Except Reject Instr :=
  if bit w 8 then
    need (zero w 0 3) .reservedBits (.stIndex (gd w) (fld w 16 5) (fld w 11 5) (sizeOf (w / 2 ^ 9)) (fld w 3 5))
  else .ok (.stOffset (gd w) (fld w 16 5) (fld w 11 5) (sizeOf (w / 2 ^ 9)) (fld w 0 8))

/-- OP 0x15: `ldc` with an offset or an index register (R38). -/
def parseLdc (w : Nat) : Except Reject Instr :=
  if bit w 8 then
    need (zero w 0 3) .reservedBits (.ldcIndex (gd w) (fld w 16 5) (fld w 11 5) (sizeOf (w / 2 ^ 9)) (fld w 3 5))
  else .ok (.ldcOffset (gd w) (fld w 16 5) (fld w 11 5) (sizeOf (w / 2 ^ 9)) (fld w 0 8))

/-- OP 0x16: `stnt` with an offset or an index register (R38). -/
def parseStnt (w : Nat) : Except Reject Instr :=
  if bit w 8 then
    need (zero w 0 3) .reservedBits (.stntIndex (gd w) (fld w 16 5) (fld w 11 5) (sizeOf (w / 2 ^ 9)) (fld w 3 5))
  else .ok (.stntOffset (gd w) (fld w 16 5) (fld w 11 5) (sizeOf (w / 2 ^ 9)) (fld w 0 8))

/-- OP 0x2C: slots (R40, R148). -/
def parseSlot (w : Nat) : Except Reject Instr :=
  if !zero w 3 1 then .error .reservedBits
  else
    match w % 8 with
    | 0 => .ok (.fadd (gd w) (fld w 16 5) (fld w 6 10) (scopeOf (w / 2 ^ 4)))
    | 1 => .ok (.fset (gd w) (fld w 16 5) (fld w 6 10) (scopeOf (w / 2 ^ 4)))
    | 2 => .ok (.wait (gd w) (fld w 16 5) (fld w 6 10) (scopeOf (w / 2 ^ 4)))
    | 3 => .ok (.barv (gd w) (fld w 16 5) (fld w 6 10) (scopeOf (w / 2 ^ 4)))
    | 4 => .ok (.barw (gd w) (fld w 16 5) (fld w 6 10) (scopeOf (w / 2 ^ 4)))
    | 5 => need (zero w 4 2) .unusedField (.barinit (gd w) (fld w 16 5) (fld w 6 10))
    | _ => .error .unlistedValue

/-- OP 0x2D: ordering (R40, R124). -/
def parseOrdering (w : Nat) : Except Reject Instr :=
  if !zero w 0 2 then .error .reservedBits
  else
    match w / 2 ^ 13 % 8 with
    | 0 => need (zero w 16 5 && zero w 2 11) .unusedField (.mark (gd w))
    | 1 =>
      match stmOf (w / 2 ^ 7 % 4) with
      | some s => need (zero w 16 5 && zero w 9 4 && zero w 2 5) .unusedField (.sbar (gd w) s)
      | none => .error .unlistedValue
    | 2 => need (zero w 16 5 && zero w 2 7) .unusedField (.fence (gd w) (scopeOf (w / 2 ^ 11)) (orderOf (w / 2 ^ 9)))
    | 3 => need (zero w 16 5 && zero w 2 9) .unusedField (.drainnt (gd w) (scopeOf (w / 2 ^ 11)))
    | 4 => need (zero w 16 5 && zero w 2 11) .unusedField (.cinv (gd w))
    | 5 => need (zero w 7 6) .unusedField (.kpub (gd w) (fld w 16 5) (fld w 2 5))
    | _ => .error .unlistedValue

/-- OP 0x2E: tags (R40, R169). -/
def parseTag (w : Nat) : Except Reject Instr :=
  if !zero w 3 1 then .error .reservedBits
  else
    match w % 8 with
    | 0 => need (zero w 4 12) .unusedField (.talloc (gd w) (fld w 16 5))
    | 1 => need (zero w 16 5 && zero w 4 7) .unusedField (.tretire (gd w) (fld w 11 5))
    | 2 => need (zero w 16 5 && zero w 4 7) .unusedField (.tset (gd w) (fld w 11 5))
    | 3 => need (zero w 4 12) .unusedField (.tget (gd w) (fld w 16 5))
    | 4 => .ok (.ldx (gd w) (fld w 16 5) (fld w 11 5) (fld w 6 5) (sizeOf (w / 2 ^ 4)))
    | 5 => need (zero w 4 7) .unusedField (.tstat (gd w) (fld w 16 5) (fld w 11 5))
    | _ => .error .unlistedValue

/-- OP 0x30: execution (R40, R186). -/
def parseExec (w : Nat) : Except Reject Instr :=
  if !zero w 3 4 then .error .reservedBits
  else
    match w % 8 with
    | 0 => need (zero w 12 9) .unusedField (.rdv (gd w) ⟨bit w 7, bit w 8, bit w 9, bit w 10, bit w 11⟩)
    | 1 => need (zero w 7 5) .unusedField (.ebset (gd w) (fld w 16 5) (fld w 12 4))
    | 2 => need (zero w 7 5) .unusedField (.ebget (gd w) (fld w 16 5) (fld w 12 4))
    | 3 => need (zero w 7 5) .unusedField (.tkset (gd w) (fld w 16 5) (fld w 12 4))
    | 4 => need (zero w 7 5) .unusedField (.tkget (gd w) (fld w 16 5) (fld w 12 4))
    | 5 => need (zero w 7 9) .unusedField (.strid (gd w) (fld w 16 5))
    | _ => .error .unlistedValue

/-- OP 0x31: scheduling (R40, R336, R339). -/
def parseSched (w : Nat) : Except Reject Instr :=
  if !zero w 3 3 then .error .reservedBits
  else
    match w % 8 with
    | 0 => .ok (.launch (gd w) (fld w 16 5) (fld w 11 5) (fld w 6 5))
    | 1 => need (zero w 6 10) .unusedField (.yield (gd w) (fld w 16 5))
    | 2 => need (zero w 6 5) .unusedField (.prio (gd w) (fld w 16 5) (fld w 11 5))
    | 3 => need (zero w 6 10) .unusedField (.nodeid (gd w) (fld w 16 5))
    | _ => .error .unlistedValue

/-- OP 0x35: system (R40, R352). -/
def parseSystem (w : Nat) : Except Reject Instr :=
  if !zero w 16 2 then .error .reservedBits
  else
    match w / 2 ^ 18 % 8 with
    | 0 => need (zero w 0 16) .unusedField (.nop (gd w))
    | 1 => .ok (.trap (gd w) (fld w 0 16))
    | 2 => need (zero w 0 16) .unusedField (.eret (gd w))
    | 3 => .ok (.brk (gd w) (fld w 0 16))
    | _ => .error .unlistedValue

/-- OP 0x36: power (R40, R368). -/
def parsePower (w : Nat) : Except Reject Instr :=
  if !zero w 3 7 then .error .reservedBits
  else
    match w % 8 with
    | 0 => need (zero w 16 5) .unusedField (.swpt (gd w) (fld w 10 6))
    | 1 => .ok (.pwrq (gd w) (fld w 16 5) (fld w 10 6))
    | 2 => .ok (.pwreq (gd w) (fld w 16 5) (fld w 10 6))
    | _ => .error .unlistedValue

/-- OP 0x37: collectives (R40, R394). -/
def parseColl (w : Nat) : Except Reject Instr :=
  if !zero w 3 3 then .error .reservedBits
  else
    match w % 8 with
    | 0 => need (zero w 6 5) .unusedField (.qarm (gd w) (fld w 16 5) (fld w 11 5))
    | 1 => .ok (.qpost (gd w) (fld w 16 5) (fld w 11 5) (fld w 6 5))
    | 2 => .ok (.qwait (gd w) (fld w 16 5) (fld w 11 5) (fld w 6 5))
    | 3 => need (zero w 6 5) .unusedField (.qabort (gd w) (fld w 16 5) (fld w 11 5))
    | 4 => need (zero w 6 5) .unusedField (.qstat (gd w) (fld w 16 5) (fld w 11 5))
    | _ => .error .unlistedValue

/-- The opcode map of R39, before the checks of WellFormed. -/
def parseS (w : Nat) : Except Reject Instr :=
  match w / 2 ^ 23 % 64 with
  | 0x01 => parseAlu w
  | 0x02 => parseAluImm w
  | 0x03 => parseCmp w
  | 0x04 => need (zero w 0 3) .reservedBits (.sel (gd w) (fld w 16 5) (fld w 11 5) (fld w 6 5) (fld w 3 3))
  | 0x05 => parseSf w
  | 0x06 => parseSfcmp w
  | 0x07 => parseSfcvt w
  | 0x08 => .ok (.pbr (gd w) (fld w 18 3) (fld w 0 18))
  | 0x09 => need (zero w 16 2 && zero w 0 11) .unusedField (.pbri (gd w) (fld w 18 3) (fld w 11 5))
  | 0x0A => need (zero w 0 18) .unusedField (.br (gd w) (fld w 18 3))
  | 0x0B => need (zero w 0 17) .unusedField (.brq (gd w) (fld w 18 3) (bit w 17))
  | 0x0C => need (zero w 0 18) .unusedField (.call (gd w) (fld w 18 3))
  | 0x0D => need (zero w 0 21) .unusedField (.ret (gd w))
  | 0x0E => .ok (.zloop (gd w) (fld w 19 2) (fld w 16 3) (fld w 11 5) (fld w 0 11))
  | 0x0F => parseZl w
  | 0x10 => .ok (.movi (gd w) (fld w 16 5) (fld w 0 16))
  | 0x11 => .ok (.movh (gd w) (fld w 16 5) (fld w 0 16))
  | 0x12 => .ok (.lea (gd w) (fld w 16 5) (fld w 11 5) (fld w 0 11))
  | 0x13 => parseLd w
  | 0x14 => parseSt w
  | 0x15 => parseLdc w
  | 0x16 => parseStnt w
  | 0x17 => need (zero w 16 1 && zero w 0 4) .reservedBits (.qld (gd w) (streamOf w))
  | 0x18 => need (zero w 16 1 && zero w 0 4) .reservedBits (.qst (gd w) (streamOf w))
  | 0x19 => .ok (.kcopy (gd w) (copyOf w))
  | 0x1A => .ok (.kcopy2d (gd w) (copyOf w))
  | 0x1B => .ok (.kfill (gd w) (copyOf w))
  | 0x1C => .ok (.kgather (gd w) (copyOf w))
  | 0x1D => .ok (.kscatter (gd w) (copyOf w))
  | 0x1E => .ok (.kpair (gd w) (copyOf w))
  | 0x1F => need (zero w 0 11) .unusedField (.kwait (gd w) (fld w 16 5) (fld w 11 5))
  | 0x20 => need (zero w 0 16) .unusedField (.kstat (gd w) (fld w 16 5))
  | 0x21 => need (zero w 0 21) .unusedField (.done (gd w))
  | 0x22 => .ok (.aadd (pg w) (atomOf w))
  | 0x23 => .ok (.aand (pg w) (atomOf w))
  | 0x24 => .ok (.aor (pg w) (atomOf w))
  | 0x25 => .ok (.axor (pg w) (atomOf w))
  | 0x26 => .ok (.amin (pg w) (atomOf w))
  | 0x27 => .ok (.amax (pg w) (atomOf w))
  | 0x28 => .ok (.aminn (pg w) (atomOf w))
  | 0x29 => .ok (.amaxn (pg w) (atomOf w))
  | 0x2A => .ok (.axchg (pg w) (atomOf w))
  | 0x2B => .ok (.acas (pg w) (atomOf w))
  | 0x2C => parseSlot w
  | 0x2D => parseOrdering w
  | 0x2E => parseTag w
  | 0x2F => .ok (.fork (gd w) (bit w 20) (fld w 0 20))
  | 0x30 => parseExec w
  | 0x31 => parseSched w
  | 0x32 => .ok (.csrr (gd w) (fld w 16 5) (fld w 0 16))
  | 0x33 => .ok (.csrw (gd w) (fld w 16 5) (fld w 0 16))
  | 0x34 => .ok (.csrs (gd w) (fld w 16 5) (fld w 0 16))
  | 0x35 => parseSystem w
  | 0x36 => parsePower w
  | 0x37 => parseColl w
  | _ => .error .unassignedOpcode

/-- An instruction that the checks of WellFormed accept. -/
def checked (r : Except Reject Instr) : Except Reject Instr :=
  match r with
  | .error e => .error e
  | .ok i =>
    match illFormed i with
    | none => .ok i
    | some e => .error e

/-- The instruction of a 32-bit Uslyn-S word, or the reason why there is none (R37, R51). -/
def decodeS (w : Nat) : Except Reject Instr := checked (parseS w)

/-! ### Uslyn-V words (R44 to R46) -/

/-- An operand descriptor (R45): operands other than rows take no stride. -/
def parseVOp (n : Nat) : Option VOp :=
  let idx := n / 2 ^ 6 % 256
  if n / 2 ^ 14 % 2 = 0 then some (.row (fld n 6 8) (fld n 0 6))
  else if n % 64 ≠ 0 then none
  else if idx < 4 then some (.lq (BitVec.ofNat 2 idx))
  else if idx < 8 then some (.sq (BitVec.ofNat 2 (idx - 4)))
  else if idx = 8 then some .moq
  else if idx = 9 then some .none
  else if idx = 10 then some .scalar
  else none

/-- The vector form of an opcode (R46). -/
def vForm (op : Nat) : Option (VFields → Instr) :=
  match op with
  | 0x01 => some .vadd
  | 0x02 => some .vsub
  | 0x03 => some .vmul
  | 0x04 => some .vfma
  | 0x05 => some .vfms
  | 0x06 => some .vmin
  | 0x07 => some .vmax
  | 0x08 => some .vabs
  | 0x09 => some .vneg
  | 0x0A => some .vclamp
  | 0x0B => some .vexp2
  | 0x0C => some .vlog2
  | 0x0D => some .vrcp
  | 0x0E => some .vrsqrt
  | 0x0F => some .vtanh
  | 0x10 => some .vsig
  | 0x11 => some .vand
  | 0x12 => some .vor
  | 0x13 => some .vxor
  | 0x14 => some .vshl
  | 0x15 => some .vshr
  | 0x16 => some .vsha
  | 0x17 => some .vcvt
  | 0x18 => some .vpack
  | 0x19 => some .vunpack
  | 0x1A => some .vcmp
  | 0x1B => some .vsel
  | 0x1C => some .vmop
  | 0x1D => some .vperm
  | 0x1E => some .vbcast
  | 0x1F => some .vred
  | 0x20 => some .vscan
  | 0x21 => some .vdefer
  | 0x22 => some .vdrain
  | 0x23 => some .vmov
  | 0x24 => some .vrep
  | 0x25 => some .vsacc
  | 0x26 => some .vseed
  | _ => none

/-- The fields of a vector word. -/
def parseV (w : Nat) : Except Reject Instr :=
  match vForm (w / 2 ^ 88 % 256) with
  | none => .error .unassignedOpcode
  | some c =>
    match parseVOp (w / 2 ^ 65), parseVOp (w / 2 ^ 50), parseVOp (w / 2 ^ 35) with
    | some dd, some da, some db =>
      match fmtOfCode (w / 2 ^ 26 % 32), fmtOfCode (w / 2 ^ 21 % 32), rndOf (w / 2 ^ 18 % 8) with
      | some f, some f2, some r =>
        need (zero w 16 1) .reservedBits (c ⟨fld w 84 4, fld w 80 4, dd, da, db, fld w 31 4, f, f2, r, ovfOf (bit w 17), fld w 0 16⟩)
      | _, _, _ => .error .reservedCode
    | _, _, _ => .error .unlistedValue

/-- The instruction of a 96-bit Uslyn-V word. -/
def decodeV (w : Nat) : Except Reject Instr := checked (parseV w)

/-! ### Uslyn-M words (R47 to R49) -/

/-- Source codes (R47). -/
def msrcOf (n : Nat) : Option MSrc :=
  match n with
  | 0 => some (.lq 0)
  | 1 => some (.lq 1)
  | 2 => some (.lq 2)
  | 3 => some (.lq 3)
  | 4 => some (.rb false)
  | 5 => some (.rb true)
  | 6 => some .acc2
  | 7 => some (.ch false)
  | 8 => some (.ch true)
  | _ => none

/-- Destination codes (R47). -/
def mdstOf (n : Nat) : MDst :=
  match n % 8 with
  | 0 => .acc
  | 1 => .sq 0
  | 2 => .sq 1
  | 3 => .sq 2
  | 4 => .sq 3
  | 5 => .moq
  | 6 => .rb false
  | _ => .rb true

/-- Sparsity codes (R47). -/
def sparOf (n : Nat) : Option Spar :=
  match n with
  | 0 => some .dense
  | 1 => some .s24
  | 2 => some .cvb
  | 3 => some .two
  | _ => none

/-- The matrix form of an opcode with MOD16 (R49). -/
def mForm (op : Nat) : Option (MFields → Instr) :=
  match op with
  | 0x03 => some .mmac
  | 0x04 => some .mmacq
  | 0x05 => some .msacc
  | 0x06 => some .mloadr
  | 0x07 => some .mloads
  | 0x08 => some .mzero
  | 0x09 => some .mstore
  | 0x0A => some .mact
  | 0x10 => some .relax
  | 0x11 => some .mxset
  | 0x12 => some .mxread
  | 0x13 => some .mpatch
  | 0x14 => some .relaxb
  | _ => none

/-- NSET (R48, R272). -/
def parseNset (w : Nat) : Except Reject Instr :=
  if zero w 107 25 && zero w 136 40 then
    (if zero w 104 1 then
      need (zero w 105 2 && zero w 132 4 && zero w 96 8) .unusedField
        (.nset (fld w 180 4) (fld w 176 4) none (fld w 93 3) (fld w 91 2) (fld w 35 56) (fld w 11 24) (fld w 0 11))
     else
      need (zero w 105 2 && zero w 96 8) .unusedField
        (.nset (fld w 180 4) (fld w 176 4) (some (fld w 132 4)) (fld w 93 3) (fld w 91 2) (fld w 35 56) (fld w 11 24)
          (fld w 0 11)))
  else .error .unusedField

/-- NGO (R48, R273). -/
def parseNgo (w : Nat) : Except Reject Instr :=
  need (zero w 0 92 && zero w 96 80) .unusedField (.ngo (fld w 180 4) (fld w 176 4) (fld w 92 4))

/-- MREP (R48, R276). -/
def parseMrep (w : Nat) : Except Reject Instr :=
  need (zero w 0 80 && zero w 96 88) .unusedField (.mrep (fld w 92 4) (fld w 80 12))

/-- A form with head, shape and MOD16. -/
def parseMForm (c : MFields → Instr) (w : Nat) : Except Reject Instr :=
  match fmtOfCode (w / 2 ^ 171 % 32), fmtOfCode (w / 2 ^ 166 % 32), fmtOfCode (w / 2 ^ 161 % 32),
    rndOf (w / 2 ^ 158 % 8), msrcOf (w / 2 ^ 149 % 16), msrcOf (w / 2 ^ 145 % 16), sparOf (w / 2 ^ 138 % 16) with
  | some fa, some fb, some fd, some r, some sa, some sb, some sp =>
    need (zero w 128 4 && zero w 96 8 && zero w 0 80) .reservedBits
      (c { pop := fld w 180 4, push := fld w 176 4, fa := fa, fb := fb, fd := fd, rnd := r, ovf := ovfOf (bit w 157),
           acc := fld w 155 2, acc2 := fld w 153 2, sa := sa, sb := sb, dk := mdstOf (w / 2 ^ 142), spar := sp,
           ta := bit w 137, tb := bit w 136, ebb := fld w 132 4, mx := fld w 121 7, nx := fld w 114 7,
           kx := fld w 107 7, xsel := fld w 104 3, mod := fld w 80 16 })
  | _, _, _, _, _, _, _ => .error .reservedCode

/-- The opcode map of R49. -/
def parseM (w : Nat) : Except Reject Instr :=
  match w / 2 ^ 184 % 256 with
  | 0x01 => parseNset w
  | 0x02 => parseNgo w
  | 0x0B => parseMrep w
  | op =>
    match mForm op with
    | some c => parseMForm c w
    | none => .error .unassignedOpcode

/-- The instruction of a 192-bit Uslyn-M word. -/
def decodeM (w : Nat) : Except Reject Instr := checked (parseM w)

/-! ### Bytes -/

/-- The Uslyn-S word at the head of some bytes (R34). -/
def decodeSBytes (bs : List Byte) : Except Reject Instr := if bs.length < 4 then .error .short else decodeS (leNat (bs.take 4))

/-- The Uslyn-V word at the head of some bytes. -/
def decodeVBytes (bs : List Byte) : Except Reject Instr := if bs.length < 12 then .error .short else decodeV (leNat (bs.take 12))

/-- The Uslyn-M word at the head of some bytes. -/
def decodeMBytes (bs : List Byte) : Except Reject Instr := if bs.length < 24 then .error .short else decodeM (leNat (bs.take 24))

/-- The decoder's answer without the reason of a rejection. -/
def decoded (r : Except Reject Instr) : Option Instr :=
  match r with
  | .ok i => some i
  | .error _ => none

/-- The instruction whose bits, numbered as the opcode table numbers them, are `w`: 32 bits name an Uslyn-S word, 96 an
Uslyn-V word and 192 an Uslyn-M word. -/
def decodeTableWord (nbits w : Nat) : Option Instr :=
  match nbits with
  | 32 => decoded (decodeSBytes (leBytes 4 w))
  | 96 => decoded (decodeVBytes (leBytes 12 w))
  | 192 => decoded (decodeMBytes (leBytes 24 w))
  | _ => none

/-! ### Encoder -/

/-- Size codes. -/
def sizeCode : Size → Nat
  | .b => 0
  | .h => 1
  | .w => 2
  | .d => 3

/-- Scope codes. -/
def scopeCode : Scope → Nat
  | .cl => 0
  | .die => 1
  | .pkg => 2
  | .sys => 3

/-- Order codes. -/
def orderCode : Order → Nat
  | .rlx => 0
  | .acq => 1
  | .rel => 2
  | .ar => 3

/-- Rounding codes. -/
def rndCode : Rnd → Nat
  | .rne => 0
  | .rtz => 1
  | .rdn => 2
  | .rup => 3
  | .rsr => 4

/-- Overflow codes. -/
def ovfCode : Ovf → Nat
  | .wrap => 0
  | .sat => 1

/-- COND of CMP. -/
def condCode : Cond → Nat
  | .eq => 0
  | .ne => 1
  | .lt => 2
  | .ge => 3
  | .ltn => 4
  | .gen => 5

/-- COND of SFCMP and VCMP. -/
def fcondCode : FCond → Nat
  | .eq => 0
  | .ne => 1
  | .lt => 2
  | .le => 3
  | .un => 4

/-- XF codes. -/
def xfCode : XFmt → Nat
  | .f64 => 1
  | .f19 => 2
  | .f16 => 3
  | .bf16 => 4
  | .i32 => 11
  | .i16 => 12
  | .n16 => 13
  | .i8 => 14
  | .n8 => 15

/-- F of ZLSET. -/
def zlCode : ZlField → Nat
  | .zls => 0
  | .zle => 1
  | .zlc => 2
  | .stages => 3

/-- STM codes. -/
def stmCode : Stm → Nat
  | .sr => 0
  | .sw => 1
  | .m => 2

/-- The fixed fields of R36. -/
def head (g : Guard) (op : Nat) : Nat := g.gp.toNat * 2 ^ 29 + op * 2 ^ 23 + g.neg.toNat * 2 ^ 22 + g.stage.toNat * 2 ^ 21

/-- D, A and B of the register layout. -/
def regs (d a b : Reg) : Nat := d.toNat * 2 ^ 16 + a.toNat * 2 ^ 11 + b.toNat * 2 ^ 6

/-- The body of the stream layout. -/
def streamBody (o : StreamOps) : Nat :=
  o.q.toNat * 2 ^ 19 + sizeCode o.sz * 2 ^ 17 + o.a.toNat * 2 ^ 11 + o.eg.toNat * 2 ^ 9 + o.t.toNat * 2 ^ 4

/-- The body of the copy layout. -/
def copyBody (o : CopyOps) : Nat := regs o.d o.a o.b + o.t.toNat * 2 + o.x.toNat

/-- A word of the atomic layout. -/
def atomWord (g : PGuard) (op : Nat) (o : AtomOps) : Nat :=
  g.gp.toNat * 2 ^ 29 + op * 2 ^ 23 + g.neg.toNat * 2 ^ 22 + o.d.toNat * 2 ^ 17 + o.a.toNat * 2 ^ 12 + o.b.toNat * 2 ^ 7 +
    o.off.toNat * 2 ^ 5 + o.d64.toNat * 2 ^ 4 + scopeCode o.sc * 2 ^ 2 + orderCode o.ord

/-- An operand descriptor (R45). -/
def vopCode : VOp → Nat
  | .row i s => i.toNat * 2 ^ 6 + s.toNat
  | .lq n => 2 ^ 14 + n.toNat * 2 ^ 6
  | .sq n => 2 ^ 14 + (4 + n.toNat) * 2 ^ 6
  | .moq => 2 ^ 14 + 8 * 2 ^ 6
  | .none => 2 ^ 14 + 9 * 2 ^ 6
  | .scalar => 2 ^ 14 + 10 * 2 ^ 6

/-- A vector word (R44). -/
def vWord (op : Nat) (f : VFields) : Nat :=
  op * 2 ^ 88 + f.pop.toNat * 2 ^ 84 + f.push.toNat * 2 ^ 80 + vopCode f.dd * 2 ^ 65 + vopCode f.da * 2 ^ 50 +
    vopCode f.db * 2 ^ 35 + f.mask.toNat * 2 ^ 31 + fmtCode f.fmt * 2 ^ 26 + fmtCode f.fmt2 * 2 ^ 21 +
    rndCode f.rnd * 2 ^ 18 + ovfCode f.ovf * 2 ^ 17 + f.mod.toNat

/-- Sparsity codes. -/
def sparCode : Spar → Nat
  | .dense => 0
  | .s24 => 1
  | .cvb => 2
  | .two => 3

/-- A matrix word with head, shape and MOD16 (R47, R48). -/
def mWord (op : Nat) (f : MFields) : Nat :=
  op * 2 ^ 184 + f.pop.toNat * 2 ^ 180 + f.push.toNat * 2 ^ 176 + fmtCode f.fa * 2 ^ 171 + fmtCode f.fb * 2 ^ 166 +
    fmtCode f.fd * 2 ^ 161 + rndCode f.rnd * 2 ^ 158 + ovfCode f.ovf * 2 ^ 157 + f.acc.toNat * 2 ^ 155 +
    f.acc2.toNat * 2 ^ 153 + srcCode f.sa * 2 ^ 149 + srcCode f.sb * 2 ^ 145 + dstCode f.dk * 2 ^ 142 +
    sparCode f.spar * 2 ^ 138 + f.ta.toNat * 2 ^ 137 + f.tb.toNat * 2 ^ 136 + f.ebb.toNat * 2 ^ 132 +
    f.mx.toNat * 2 ^ 121 + f.nx.toNat * 2 ^ 114 + f.kx.toNat * 2 ^ 107 + f.xsel.toNat * 2 ^ 104 + f.mod.toNat * 2 ^ 80

/-- NSET (R272): `add` sets XSEL bit 0 and EBB. -/
def nsetWord (pop push : BitVec 4) (add : Option (BitVec 4)) (level : BitVec 3) (chan : BitVec 2) (base : BitVec 56)
    (stride : BitVec 24) (cnt : BitVec 11) : Nat :=
  2 ^ 184 + pop.toNat * 2 ^ 180 + push.toNat * 2 ^ 176 +
    (match add with
     | some n => n.toNat * 2 ^ 132 + 2 ^ 104
     | none => 0) +
    level.toNat * 2 ^ 93 + chan.toNat * 2 ^ 91 + base.toNat * 2 ^ 35 + stride.toNat * 2 ^ 11 + cnt.toNat

/-- The Uslyn-S word of an instruction; other instructions have none. -/
def encodeS (i : Instr) : Option Nat :=
  match i with
  | .add g d a b => some (head g 1 + regs d a b + 0)
  | .sub g d a b => some (head g 1 + regs d a b + 1)
  | .mul g d a b => some (head g 1 + regs d a b + 2)
  | .mulh g d a b => some (head g 1 + regs d a b + 3)
  | .divs g d a b => some (head g 1 + regs d a b + 4)
  | .divn g d a b => some (head g 1 + regs d a b + 5)
  | .rems g d a b => some (head g 1 + regs d a b + 6)
  | .remn g d a b => some (head g 1 + regs d a b + 7)
  | .and g d a b => some (head g 1 + regs d a b + 8)
  | .or g d a b => some (head g 1 + regs d a b + 9)
  | .xor g d a b => some (head g 1 + regs d a b + 10)
  | .andn g d a b => some (head g 1 + regs d a b + 11)
  | .shl g d a b => some (head g 1 + regs d a b + 12)
  | .shr g d a b => some (head g 1 + regs d a b + 13)
  | .sha g d a b => some (head g 1 + regs d a b + 14)
  | .rot g d a b => some (head g 1 + regs d a b + 15)
  | .min g d a b => some (head g 1 + regs d a b + 16)
  | .max g d a b => some (head g 1 + regs d a b + 17)
  | .minn g d a b => some (head g 1 + regs d a b + 18)
  | .maxn g d a b => some (head g 1 + regs d a b + 19)
  | .clz g d a => some (head g 1 + regs d a 0 + 20)
  | .popc g d a => some (head g 1 + regs d a 0 + 21)
  | .addImm g d a imm => some (head g 2 + regs d a 0 + 0 + imm.toNat)
  | .andImm g d a imm => some (head g 2 + regs d a 0 + 256 + imm.toNat)
  | .orImm g d a imm => some (head g 2 + regs d a 0 + 512 + imm.toNat)
  | .xorImm g d a imm => some (head g 2 + regs d a 0 + 768 + imm.toNat)
  | .shlImm g d a imm => some (head g 2 + regs d a 0 + 1024 + imm.toNat)
  | .shrImm g d a imm => some (head g 2 + regs d a 0 + 1280 + imm.toNat)
  | .shaImm g d a imm => some (head g 2 + regs d a 0 + 1536 + imm.toNat)
  | .rotImm g d a imm => some (head g 2 + regs d a 0 + 1792 + imm.toNat)
  | .cmp g pd a b c => some (head g 3 + pd.toNat * 2 ^ 18 + regs 0 a b + condCode c)
  | .sel g d a b p => some (head g 4 + regs d a b + p.toNat * 2 ^ 3)
  | .sfadd g d a b r => some (head g 5 + regs d a b + rndCode r * 2 ^ 3 + 0)
  | .sfmul g d a b r => some (head g 5 + regs d a b + rndCode r * 2 ^ 3 + 1)
  | .sffma g d a b r => some (head g 5 + regs d a b + rndCode r * 2 ^ 3 + 2)
  | .sfmin g d a b r => some (head g 5 + regs d a b + rndCode r * 2 ^ 3 + 3)
  | .sfmax g d a b r => some (head g 5 + regs d a b + rndCode r * 2 ^ 3 + 4)
  | .sfcmp g pd a b c => some (head g 6 + pd.toNat * 2 ^ 18 + regs 0 a b + fcondCode c)
  | .sfcvt g d a x f r o => some (head g 7 + regs d a 0 + x.toNat * 2 ^ 10 + xfCode f * 2 ^ 5 + rndCode r * 2 ^ 2 + ovfCode o * 2)
  | .pbr g t off => some (head g 8 + t.toNat * 2 ^ 18 + off.toNat)
  | .pbri g t a => some (head g 9 + t.toNat * 2 ^ 18 + regs 0 a 0)
  | .br g t => some (head g 10 + t.toNat * 2 ^ 18)
  | .brq g t s => some (head g 11 + t.toNat * 2 ^ 18 + s.toNat * 2 ^ 17)
  | .call g t => some (head g 12 + t.toNat * 2 ^ 18)
  | .ret g => some (head g 13)
  | .zloop g l s a n => some (head g 14 + l.toNat * 2 ^ 19 + s.toNat * 2 ^ 16 + regs 0 a 0 + n.toNat)
  | .zlset g l f a => some (head g 15 + l.toNat * 2 ^ 19 + zlCode f * 2 ^ 16 + regs 0 a 0)
  | .zlsv g l a => some (head g 15 + l.toNat * 2 ^ 19 + regs 0 a 0 + 1)
  | .zlrs g l a => some (head g 15 + l.toNat * 2 ^ 19 + regs 0 a 0 + 2)
  | .movi g d imm => some (head g 16 + regs d 0 0 + imm.toNat)
  | .movh g d imm => some (head g 17 + regs d 0 0 + imm.toNat)
  | .lea g d a imm => some (head g 18 + regs d a 0 + imm.toNat)
  | .ldOffset g d a z off => some (head g 19 + regs d a 0 + sizeCode z * 2 ^ 9 + off.toNat)
  | .ldIndex g d a z b => some (head g 19 + regs d a 0 + sizeCode z * 2 ^ 9 + 2 ^ 8 + b.toNat * 2 ^ 3)
  | .stOffset g d a z off => some (head g 20 + regs d a 0 + sizeCode z * 2 ^ 9 + off.toNat)
  | .stIndex g d a z b => some (head g 20 + regs d a 0 + sizeCode z * 2 ^ 9 + 2 ^ 8 + b.toNat * 2 ^ 3)
  | .ldcOffset g d a z off => some (head g 21 + regs d a 0 + sizeCode z * 2 ^ 9 + off.toNat)
  | .ldcIndex g d a z b => some (head g 21 + regs d a 0 + sizeCode z * 2 ^ 9 + 2 ^ 8 + b.toNat * 2 ^ 3)
  | .stntOffset g d a z off => some (head g 22 + regs d a 0 + sizeCode z * 2 ^ 9 + off.toNat)
  | .stntIndex g d a z b => some (head g 22 + regs d a 0 + sizeCode z * 2 ^ 9 + 2 ^ 8 + b.toNat * 2 ^ 3)
  | .qld g o => some (head g 23 + streamBody o)
  | .qst g o => some (head g 24 + streamBody o)
  | .kcopy g o => some (head g 25 + copyBody o)
  | .kcopy2d g o => some (head g 26 + copyBody o)
  | .kfill g o => some (head g 27 + copyBody o)
  | .kgather g o => some (head g 28 + copyBody o)
  | .kscatter g o => some (head g 29 + copyBody o)
  | .kpair g o => some (head g 30 + copyBody o)
  | .kwait g d a => some (head g 31 + regs d a 0)
  | .kstat g d => some (head g 32 + regs d 0 0)
  | .done g => some (head g 33)
  | .aadd g o => some (atomWord g 34 o)
  | .aand g o => some (atomWord g 35 o)
  | .aor g o => some (atomWord g 36 o)
  | .axor g o => some (atomWord g 37 o)
  | .amin g o => some (atomWord g 38 o)
  | .amax g o => some (atomWord g 39 o)
  | .aminn g o => some (atomWord g 40 o)
  | .amaxn g o => some (atomWord g 41 o)
  | .axchg g o => some (atomWord g 42 o)
  | .acas g o => some (atomWord g 43 o)
  | .fadd g a n sc => some (head g 44 + a.toNat * 2 ^ 16 + n.toNat * 2 ^ 6 + scopeCode sc * 2 ^ 4 + 0)
  | .fset g a n sc => some (head g 44 + a.toNat * 2 ^ 16 + n.toNat * 2 ^ 6 + scopeCode sc * 2 ^ 4 + 1)
  | .wait g a n sc => some (head g 44 + a.toNat * 2 ^ 16 + n.toNat * 2 ^ 6 + scopeCode sc * 2 ^ 4 + 2)
  | .barv g a n sc => some (head g 44 + a.toNat * 2 ^ 16 + n.toNat * 2 ^ 6 + scopeCode sc * 2 ^ 4 + 3)
  | .barw g a n sc => some (head g 44 + a.toNat * 2 ^ 16 + n.toNat * 2 ^ 6 + scopeCode sc * 2 ^ 4 + 4)
  | .barinit g a n => some (head g 44 + a.toNat * 2 ^ 16 + n.toNat * 2 ^ 6 + 5)
  | .mark g => some (head g 45)
  | .sbar g x => some (head g 45 + 1 * 2 ^ 13 + stmCode x * 2 ^ 7)
  | .fence g sc r => some (head g 45 + 2 * 2 ^ 13 + scopeCode sc * 2 ^ 11 + orderCode r * 2 ^ 9)
  | .drainnt g sc => some (head g 45 + 3 * 2 ^ 13 + scopeCode sc * 2 ^ 11)
  | .cinv g => some (head g 45 + 4 * 2 ^ 13)
  | .kpub g a t => some (head g 45 + a.toNat * 2 ^ 16 + 5 * 2 ^ 13 + t.toNat * 2 ^ 2)
  | .talloc g d => some (head g 46 + regs d 0 0)
  | .tretire g a => some (head g 46 + regs 0 a 0 + 1)
  | .tset g a => some (head g 46 + regs 0 a 0 + 2)
  | .tget g d => some (head g 46 + regs d 0 0 + 3)
  | .ldx g d a b z => some (head g 46 + regs d a b + sizeCode z * 2 ^ 4 + 4)
  | .tstat g d a => some (head g 46 + regs d a 0 + 5)
  | .fork g m k => some (head g 47 + m.toNat * 2 ^ 20 + k.toNat)
  | .rdv g em => some (head g 48 + em.l.toNat * 2 ^ 7 + em.st.toNat * 2 ^ 8 + em.v.toNat * 2 ^ 9 + em.m.toNat * 2 ^ 10 + em.k.toNat * 2 ^ 11)
  | .ebset g x n => some (head g 48 + regs x 0 0 + n.toNat * 2 ^ 12 + 1)
  | .ebget g x n => some (head g 48 + regs x 0 0 + n.toNat * 2 ^ 12 + 2)
  | .tkset g x n => some (head g 48 + regs x 0 0 + n.toNat * 2 ^ 12 + 3)
  | .tkget g x n => some (head g 48 + regs x 0 0 + n.toNat * 2 ^ 12 + 4)
  | .strid g x => some (head g 48 + regs x 0 0 + 5)
  | .launch g d a b => some (head g 49 + regs d a b)
  | .yield g d => some (head g 49 + regs d 0 0 + 1)
  | .prio g d a => some (head g 49 + regs d a 0 + 2)
  | .nodeid g d => some (head g 49 + regs d 0 0 + 3)
  | .csrr g x c => some (head g 50 + regs x 0 0 + c.toNat)
  | .csrw g x c => some (head g 51 + regs x 0 0 + c.toNat)
  | .csrs g x c => some (head g 52 + regs x 0 0 + c.toNat)
  | .nop g => some (head g 53)
  | .trap g imm => some (head g 53 + 1 * 2 ^ 18 + imm.toNat)
  | .eret g => some (head g 53 + 2 * 2 ^ 18)
  | .brk g imm => some (head g 53 + 3 * 2 ^ 18 + imm.toNat)
  | .swpt g k => some (head g 54 + k.toNat * 2 ^ 10)
  | .pwrq g x k => some (head g 54 + regs x 0 0 + k.toNat * 2 ^ 10 + 1)
  | .pwreq g x k => some (head g 54 + regs x 0 0 + k.toNat * 2 ^ 10 + 2)
  | .qarm g d a => some (head g 55 + regs d a 0)
  | .qpost g d a b => some (head g 55 + regs d a b + 1)
  | .qwait g d a b => some (head g 55 + regs d a b + 2)
  | .qabort g d a => some (head g 55 + regs d a 0 + 3)
  | .qstat g d a => some (head g 55 + regs d a 0 + 4)
  | _ => none

/-- The Uslyn-V word of an instruction. -/
def encodeV (i : Instr) : Option Nat :=
  match i with
  | .vadd f => some (vWord 0x01 f)
  | .vsub f => some (vWord 0x02 f)
  | .vmul f => some (vWord 0x03 f)
  | .vfma f => some (vWord 0x04 f)
  | .vfms f => some (vWord 0x05 f)
  | .vmin f => some (vWord 0x06 f)
  | .vmax f => some (vWord 0x07 f)
  | .vabs f => some (vWord 0x08 f)
  | .vneg f => some (vWord 0x09 f)
  | .vclamp f => some (vWord 0x0A f)
  | .vexp2 f => some (vWord 0x0B f)
  | .vlog2 f => some (vWord 0x0C f)
  | .vrcp f => some (vWord 0x0D f)
  | .vrsqrt f => some (vWord 0x0E f)
  | .vtanh f => some (vWord 0x0F f)
  | .vsig f => some (vWord 0x10 f)
  | .vand f => some (vWord 0x11 f)
  | .vor f => some (vWord 0x12 f)
  | .vxor f => some (vWord 0x13 f)
  | .vshl f => some (vWord 0x14 f)
  | .vshr f => some (vWord 0x15 f)
  | .vsha f => some (vWord 0x16 f)
  | .vcvt f => some (vWord 0x17 f)
  | .vpack f => some (vWord 0x18 f)
  | .vunpack f => some (vWord 0x19 f)
  | .vcmp f => some (vWord 0x1A f)
  | .vsel f => some (vWord 0x1B f)
  | .vmop f => some (vWord 0x1C f)
  | .vperm f => some (vWord 0x1D f)
  | .vbcast f => some (vWord 0x1E f)
  | .vred f => some (vWord 0x1F f)
  | .vscan f => some (vWord 0x20 f)
  | .vdefer f => some (vWord 0x21 f)
  | .vdrain f => some (vWord 0x22 f)
  | .vmov f => some (vWord 0x23 f)
  | .vrep f => some (vWord 0x24 f)
  | .vsacc f => some (vWord 0x25 f)
  | .vseed f => some (vWord 0x26 f)
  | _ => none

/-- The Uslyn-M word of an instruction. -/
def encodeM (i : Instr) : Option Nat :=
  match i with
  | .nset po pu ad lv ch base st cnt => some (nsetWord po pu ad lv ch base st cnt)
  | .ngo po pu m => some (2 * 2 ^ 184 + po.toNat * 2 ^ 180 + pu.toNat * 2 ^ 176 + m.toNat * 2 ^ 92)
  | .mrep r n => some (11 * 2 ^ 184 + r.toNat * 2 ^ 92 + n.toNat * 2 ^ 80)
  | .mmac f => some (mWord 0x03 f)
  | .mmacq f => some (mWord 0x04 f)
  | .msacc f => some (mWord 0x05 f)
  | .mloadr f => some (mWord 0x06 f)
  | .mloads f => some (mWord 0x07 f)
  | .mzero f => some (mWord 0x08 f)
  | .mstore f => some (mWord 0x09 f)
  | .mact f => some (mWord 0x0A f)
  | .relax f => some (mWord 0x10 f)
  | .mxset f => some (mWord 0x11 f)
  | .mxread f => some (mWord 0x12 f)
  | .mpatch f => some (mWord 0x13 f)
  | .relaxb f => some (mWord 0x14 f)
  | _ => none

/-- The number of bits and the word of an instruction that has one. -/
def encode (i : Instr) : Option (Nat × Nat) :=
  match encodeS i, encodeV i, encodeM i with
  | some w, _, _ => some (32, w)
  | none, some w, _ => some (96, w)
  | none, none, some w => some (192, w)
  | none, none, none => none

end Sys2Proof
end

