-- ==== Sys2Proof/Machine/Blocks.lean ====
section
/-!
DEFINITION. What vector and matrix blocks share: the walk through a block with its engine repeats (R182 to R184), the
error that stops a block (R52, R346, R347), the token masks of V and M words (R42), the stochastic generators (R236),
and the blocked sum (R238).
-/

namespace Sys2Proof.Machine

/-! ### The walk through a block (R184) -/

/-- The position after the current word: the next word, or the next repetition of the body. -/
def Run.advance (r : Run) : Run :=
  let off := r.off + 1
  let r1 := { r with popped := false, rows := 0, work := Work.none }
  if r.repLen ≠ 0 ∧ off = r.repStart + r.repLen then
    (if r.k + 1 < r.repCount then { r1 with off := r.repStart, k := r.k + 1 }
     else { r1 with off := off, repLen := 0, repStart := 0, repCount := 0, k := 0 })
  else { r1 with off := off }

/-- The position after a repeat word: the body's first word, or the word behind a body that runs no time. -/
def Run.repeats (r : Run) (len count : Nat) : Run :=
  let r1 := { r with popped := false, rows := 0, work := Work.none }
  if count = 0 then { r1 with off := r.off + 1 + len }
  else { r1 with off := r.off + 1, repLen := len, repStart := r.off + 1, repCount := count, k := 0 }

/-- A bound register of the block's snapshot (R183). -/
def Run.eb (r : Run) (n : BitVec 4) : Word := r.blk.eb.get ⟨n.toNat, n.isLt⟩

/-- The block that an engine executes. -/
def Strand.run (t : Strand) (m : Bool) : Option Run := if m then t.mrun else t.vrun

/-- The engine letter of a block. -/
def engOf (m : Bool) : Eng := if m then .m else .v

/-- MPROG while a matrix block runs is its position; afterwards it stays (R286). -/
def Strand.progAt (t : Strand) (r : Option Run) : Word :=
  match r with
  | some q => q.mprog
  | none => t.mprog

/-- Replaces the block that an engine executes: its entry has made progress (R359). -/
def Strand.setRun (t : Strand) (m : Bool) (r : Option Run) : Strand :=
  (if m then { t with mrun := r, mdry := false, mprog := t.progAt r } else { t with vrun := r, vdry := false }).progress (engOf m)

/-- The step on an engine's block finds no tokens, or no bytes or room in a queue, unless it makes progress (R179). -/
def State.dry (s : State) (m : Bool) : State := s.updSt fun t => if m then { t with mdry := true } else { t with vdry := true }

/-- The vector word that the engine stands at. -/
def Strand.vectorWord (t : Strand) : Option Instr :=
  match t.vrun with
  | some r => if r.off < r.blk.len then decoded (decodeVBytes (t.code.varea.drop ((r.blk.first + r.off) * 12))) else none
  | none => none

/-- Word `n` of the matrix area. -/
def Strand.matrixWordAt (t : Strand) (n : Nat) : Option Instr := decoded (decodeMBytes (t.code.marea.drop (n * 24)))

/-- The matrix word that the engine stands at. -/
def Strand.matrixWord (t : Strand) : Option Instr :=
  match t.mrun with
  | some r => if r.off < r.blk.len then t.matrixWordAt (r.blk.first + r.off) else none
  | none => none

/-- TRP_INFO of a block error (R347). -/
def Run.info (r : Run) : Word := BitVec.ofNat 64 (r.blk.first % 2 ^ 20 + r.off % 2 ^ 12 * 2 ^ 20 + r.k % 2 ^ 24 * 2 ^ 32)

/-- A deferred record of a block's word (R347). -/
def Run.trapOf (r : Run) (m : Bool) (c : Cause) : TrapRec := { TrapRec.defer c (engOf m) r.blk.waddr with info := r.info }

/-- MPROG.ACTIVE falls when a matrix entry ends (R286). -/
def Strand.mprogOff (t : Strand) (m : Bool) : Strand :=
  if m then { t with mprog := t.mprog &&& ~~~(BitVec.ofNat 64 (2 ^ 47)) } else t

/-- Whether the word at an offset of a matrix block is a RELAX or RELAXB. -/
def Strand.relaxAt (t : Strand) (r : Run) (off : Nat) : Bool :=
  match t.matrixWordAt (r.blk.first + off) with
  | some (.relax _) => true
  | some (.relaxb _) => true
  | _ => false

/-- Offsets of the words that a block has left: those from the current one on, and its repeat body where that runs again. -/
def Run.ahead (r : Run) : List Nat :=
  (List.range (r.blk.len - r.off)).map (r.off + ·) ++
    if r.repLen ≠ 0 ∧ r.k + 1 < r.repCount then (List.range r.repLen).map (r.repStart + ·) else []

/-- Whether a RELAX or RELAXB stands in what the matrix engine has left of its block. -/
def Strand.relaxAhead (t : Strand) : Bool :=
  match t.mrun with
  | some r => r.ahead.any (t.relaxAt r)
  | none => false

/-- Whether the matrix engine stands at a RELAX or RELAXB. -/
def Strand.relaxHere (t : Strand) : Bool :=
  match t.mrun with
  | some r => decide (r.off < r.blk.len) && t.relaxAt r r.off
  | none => false

/-- R52: the block stops; its remaining words go, its shadow lines and its tokens with them. -/
def Strand.blockError (t : Strand) (m : Bool) (d : TrapRec) : Strand :=
  let t1 := if m then { t with relaxLost := t.relaxAhead, relaxEnded := t.relaxHere } else t
  ((t1.setRun m none).record d).mprogOff m

/-- ENG_ENC of the matrix engine for a data address (R347). -/
def Strand.addrEnc (t : Strand) (r : Run) (va : Word) : Strand :=
  t.blockError true { r.trapOf true .engEnc with info16 := 0xFFFF, addr := va }

/-- ENG_ENC at the current word; `bit` is the lowest bit of the offending field, 0xFFFF for a register value (R346). -/
def Strand.blockEnc (t : Strand) (m : Bool) (r : Run) (bit : Nat) : Strand :=
  let d := r.trapOf m .engEnc
  t.blockError m { d with info16 := BitVec.ofNat 16 bit }

/-- An engine repeat word (R184): the count comes from the block's snapshot. -/
def repeatWord (m : Bool) (reb : BitVec 4) (len : Nat) (s : State) : Out :=
  match s.me.st.run m with
  | none => .next s
  | some r =>
    if 16777215 < (r.eb reb).toNat then .next (s.updSt fun t => t.blockEnc m r 0xFFFF)
    else .next (s.updSt fun t => t.setRun m (some (r.repeats len (r.eb reb).toNat)))

/-! ### Token masks of engine words (R42) -/

/-- The queues that the bits of a 4-bit mask name. -/
def maskOf (qs : List Nat) (m : BitVec 4) : Nat :=
  ((List.range 4).map fun k => if m.getLsbD k then (match qs[k]? with | some q => 2 ^ q | none => 0) else 0).foldl (· + ·) 0

/-- POP of a vector word: lv, mv, kv, cv. -/
def vPop (m : BitVec 4) : Nat := maskOf [0, 6, 11, 13] m

/-- PUSH of a vector word: vs, vm, vk. -/
def vPush (m : BitVec 4) : Nat := maskOf [2, 3, 4] m

/-- POP of a matrix word: lm, vm, km, cm. -/
def mPop (m : BitVec 4) : Nat := maskOf [1, 3, 12, 14] m

/-- PUSH of a matrix word: ms, mv, mk. -/
def mPush (m : BitVec 4) : Nat := maskOf [5, 6, 7] m

/-- The current word takes its pops in one step, unless it has them (R189); none while a token is missing, or while the
stall wire stands before a pop (R355). -/
def State.popWord (s : State) (m : Bool) (r : Run) (mask : Nat) : Option State :=
  if r.popped then some s
  else if (!s.stallWires.contains s.me.st.node || decide (mask = 0)) && s.ctl.tokensReady mask then
    some (s.updSt fun t => { t with ctl := t.ctl.popTokens mask }.setRun m (some { r with popped := true }))
  else none

/-! ### Stochastic generators (R236) -/

/-- The state of generator `k` of strand `idx` in a table of generators that have moved. -/
def genAt (g : Sp Lane) (idx k : Nat) : Lane := Sp.get g k (genSeed idx k)

/-- Sets generator `k`. -/
def genSet (g : Sp Lane) (idx k : Nat) (v : Lane) : Sp Lane := Sp.set g k v (genSeed idx k)

/-- One conversion of a word: under rsr the generator steps, whatever the value and the format. -/
def cvtGen (g : Sp Lane) (idx k : Nat) (x : XVal) (f : Fmt) (rd : Rnd) (o : Ovf) : Nat × Sp Lane :=
  if rd = .rsr then
    let st := genStep (genAt g idx k)
    (cvt x f rd o (genDraw st), genSet g idx k st)
  else (cvt x f rd o 0, g)

/-! ### The blocked sum (R238) -/

/-- Sums `n` blocks of 32 terms onto an accumulator, with one conversion for each block. A term that is none keeps its
place and takes no part in a zero's sign (R234); an accumulator that is none is still empty, and with `lanes` a block
without a term leaves it as it is (R259), where otherwise its sum is +0. `scale` is the exponent of R233. -/
def sumBlocks (l : List (Option Val)) (n : Nat) (acc : Option Val) (scale : Int) (f : Fmt) (rd : Rnd) (o : Ovf) (idx k : Nat)
    (g : Sp Lane) (lanes : Bool) : Option Val × Sp Lane :=
  match n with
  | 0 => (acc, g)
  | n + 1 =>
    let terms := (l.take 32).filterMap id
    let s := (sumVals terms rd).scale scale
    let x := if lanes && terms.isEmpty then acc else
      match acc with
      | none => some s
      | some a => some (Val.add a s rd)
    let (p, g1) := cvtGen g idx k (x.getD s).toX f rd o
    sumBlocks (l.drop 32) n (x.map fun _ => decodeFmt f p) scale f rd o idx k g1 lanes

/-- Blocks of 32 that hold `n` terms. -/
def blockCount (n : Nat) : Nat := (n + 31) / 32

end Sys2Proof.Machine
end

