-- ==== Sys2Proof/Machine/Vector.lean ====
section
/-!
DEFINITION. The vector engine (R241 to R267): rows, lanes and elements, the seven steps of one execution (R244), and the
forms of R248. A step executes the word once, at the repetition in which the engine stands.
-/

namespace Sys2Proof.Machine

/-! ### Rows, lanes, elements (R241, R242) -/

/-- Lanes of a cluster. -/
def lanesOf (vkind : Bool) : Nat := if vkind then 256 else 64

/-- The mask that selects every lane. -/
def allLanes (w : Nat) : BitVec 256 := BitVec.ofNat 256 (2 ^ w - 1)

/-- Lane `l` of row `r`. -/
def VState.lane (v : VState) (r l : Nat) : Lane := Sp.get v.rows (256 * r + l) 0

/-- The lanes of row `r` as patterns. -/
def VState.row (v : VState) (w r : Nat) : List Nat := (List.range w).map fun l => (v.lane r l).toNat

/-- The lanes of a row, or of the row pair of an F64 operand. -/
def VState.rowVals (v : VState) (w r : Nat) (wide : Bool) : List Nat :=
  if wide then List.zipWith (fun lo hi => lo + hi * 2 ^ 32) (v.row w r) (v.row w (r + 1)) else v.row w r

/-- Writes lanes of row `r` from lane `l` upward where the mask has a bit. -/
def writeLanes (m : Sp Lane) (r l : Nat) (vals : List Nat) (mask : BitVec 256) : Sp Lane :=
  match vals with
  | [] => m
  | v :: t => writeLanes (if mask.getLsbD l then Sp.set m (256 * r + l) (BitVec.ofNat 32 v) 0 else m) r (l + 1) t mask

/-- Writes a row or a row pair. -/
def VState.write (v : VState) (r : Nat) (vals : List Nat) (mask : BitVec 256) (wide : Bool) : VState :=
  let m1 := writeLanes v.rows r 0 vals mask
  if wide then { v with rows := writeLanes m1 (r + 1) 0 (vals.map fun x => x / 2 ^ 32) mask } else { v with rows := m1 }

/-- A lane mask register. -/
def VState.getVm (v : VState) (n : BitVec 3) : BitVec 256 := v.vm.get ⟨n.toNat, n.isLt⟩

/-- Writes a lane mask register. -/
def VState.setVm (v : VState) (n : BitVec 3) (m : BitVec 256) : VState := { v with vm := v.vm.set n.toNat m n.isLt }

/-- The mask of the lanes whose number satisfies a test. -/
def laneMask (w : Nat) (f : Nat → Bool) : BitVec 256 :=
  BitVec.ofNat 256 (((List.range w).map fun l => if f l then 2 ^ l else 0).foldl (· + ·) 0)

/-- The lanes that a word selects (R244). -/
def VState.selected (v : VState) (w : Nat) (mask : BitVec 4) : BitVec 256 :=
  if mask = 8 then allLanes w else v.getVm (mask.setWidth 3) &&& allLanes w

/-- Width of an element inside a lane (R242). -/
def elemWidth (f : Fmt) : Nat := if f = .f64 then 64 else storeWidth f

/-- Elements of a lane. -/
def elemsPerLane (f : Fmt) : Nat := if f = .f64 then 1 else 32 / elemWidth f

/-! ### Sources -/

/-- A source value: nothing, lane patterns, or a scalar with its exact value and the pattern that it gives a lane. -/
inductive VSrc where
  | none
  | lanes (l : List Nat)
  | scalar (v : Val) (p : Nat)
  deriving DecidableEq, Repr

/-- The pattern in lane `l`. -/
def VSrc.pat (s : VSrc) (l : Nat) : Nat :=
  match s with
  | .none => 0
  | .lanes x => x.getD l 0
  | .scalar _ p => p

/-- The exact value of an element whose pattern is `p`; a scalar is its exact value in every element (R246). -/
def VSrc.val (s : VSrc) (f : Fmt) (p : Nat) : Val :=
  match s with
  | .scalar v _ => v
  | _ => decodeFmt f (ofStore f p)

/-- An element pattern repeated over a lane. -/
def splat (f : Fmt) (p : Nat) : Nat :=
  ((List.range (elemsPerLane f)).map fun i => p * 2 ^ (elemWidth f * i)).foldl (· + ·) 0

/-- The scalar operand of R45 and R246. -/
def scalarSrc (f : Fmt) (mod : BitVec 16) : VSrc :=
  if fmtIsFloat f then
    let v := decodeFmt .f32 (mod.toNat * 65536)
    .scalar v (if f = .f32 ∨ f = .f19 then mod.toNat * 65536 else splat f (cvtVal v f .rne .wrap))
  else
    let p := wrapNat mod.toInt (elemWidth f)
    .scalar (if fmtWidth f < 16 then decodeFmt f p else Val.ofInt mod.toInt) (splat f p)

/-- Bytes cut into lanes of `n` bytes. -/
def bytesToLanes (n count : Nat) (bs : List Byte) : List Nat :=
  match count with
  | 0 => []
  | c + 1 => leNat (bs.take n) :: bytesToLanes n c (bs.drop n)

/-- Lanes as bytes. -/
def lanesToBytes (n : Nat) (l : List Nat) : List Byte := l.flatMap fun x => leBytes n x

/-! ### The frame of an execution (R243, R244) -/

/-- What an execution reads: lanes, first rows of its operands, sources, selected lanes, the engine's state, the bytes
taken for A, the strand index, and the matrix engine's generators. -/
structure VIn where
  w : Nat
  ra : Nat
  rd : Nat
  a : VSrc
  b : VSrc
  d : VSrc
  sel : BitVec 256
  v : VState
  bytes : List Byte
  idx : Nat
  cols : Sp Lane
  deriving DecidableEq, Repr

/-- What an execution writes: the engine's state, the matrix generators, the lanes of D (with `every`: whatever the
mask), whole rows at an offset from row D, raw bytes for a store queue, and the truth value for CQ. -/
structure VOut where
  v : VState
  cols : Sp Lane
  out : Option (List Nat)
  every : Bool
  rows : List (Nat × List Nat)
  raw : List Byte
  truth : Bool
  deriving DecidableEq, Repr

/-- A form: rows that each row operand spans, bytes that each queue operand takes or gives, whether it has a destination
and a CQ push, the lowest bit of a field that offends when the word issues, whether its writes wait for the matrix engine, and
its effect. -/
structure VForm where
  na : Nat
  nb : Nat
  nd : Nat
  ba : Nat
  bb : Nat
  bd : Nat
  hasD : Bool
  pushes : Bool
  bad : Option Nat
  mIdle : Bool
  body : VIn → VOut

/-- An output that changes nothing but D. -/
def VIn.gives (x : VIn) (out : List Nat) (g : Sp Lane) : VOut :=
  { v := { x.v with gens := g }, cols := x.cols, out := some out, every := false, rows := [], raw := [], truth := false }

/-- An output without D. -/
def VIn.sets (x : VIn) (v : VState) (truth : Bool) : VOut :=
  { v := v, cols := x.cols, out := none, every := false, rows := [], raw := [], truth := truth }

/-- The common shape: rows and queues of the operand's formats. -/
def baseForm (fa fd : Fmt) (w : Nat) (body : VIn → VOut) : VForm :=
  let n := fun f => if f = Fmt.f64 then 2 else 1
  { na := n fa, nb := n fd, nd := n fd, ba := 4 * w * n fa, bb := 4 * w * n fd, bd := 4 * w * n fd, hasD := true,
    pushes := false, bad := none, mIdle := false, body := body }

/-- The row that an operand names at repetition `k`, with `n` rows; none where it leaves 0 to 255 (R245). -/
def rowAt (o : VOp) (k n : Nat) : Option Nat :=
  match o with
  | .row idx str =>
    let r := (idx.toNat : Int) + k * str.toInt
    if 0 ≤ r ∧ r + n ≤ 256 then some r.toNat else none
  | _ => some 0

/-- The field that makes the execution record ENG_ENC, by its lowest bit (R188, R243, R245, R254, R258, R262, R264). -/
def vOffends (f : VFields) (fm : VForm) (k : Nat) (vkind : Bool) : Option Nat :=
  if vkind && decide (f.da = .moq) then some 50
  else if vkind && decide (f.db = .moq) then some 35
  else if vkind && decide (Nat.land (vPop f.pop) mQueues ≠ 0) then some 84
  else if vkind && decide (Nat.land (vPush f.push) mQueues ≠ 0) then some 80
  else
    match fm.bad with
    | some b => some b
    | none =>
      if fm.hasD && (rowAt f.dd k fm.nd).isNone then some 65
      else if (rowAt f.da k fm.na).isNone then some 50
      else if (rowAt f.db k fm.nb).isNone then some 35
      else none

/-- The bytes that wait in a source queue. -/
def Queues.source (q : Queues) (o : VOp) : List Byte :=
  match o with
  | .lq n => q.lq.get ⟨n.toNat, n.isLt⟩
  | .moq => q.moq
  | _ => []

/-- Takes bytes from the head of a load queue; their replay pointers go with them. -/
def Queues.lqTake (q : Queues) (n : BitVec 2) (c : Nat) : Queues :=
  { q with lq := q.lq.set n.toNat ((q.lq.get ⟨n.toNat, n.isLt⟩).drop c) n.isLt,
           src := q.src.set n.toNat ((q.src.get ⟨n.toNat, n.isLt⟩).drop c) n.isLt }

/-- Takes the bytes of a source. -/
def Queues.takeSource (q : Queues) (o : VOp) (c : Nat) : Queues :=
  match o with
  | .lq n => q.lqTake n c
  | .moq => { q with moq := q.moq.drop c }
  | _ => q

/-- Appends bytes to a store queue. -/
def Queues.sqPut (q : Queues) (n : BitVec 2) (bs : List Byte) : Queues :=
  { q with sq := q.sq.set n.toNat (q.sq.get ⟨n.toNat, n.isLt⟩ ++ bs) n.isLt }

/-- Whether an operand is a queue. -/
def opIsQueue (o : VOp) : Bool := decide (srcClass o = 1)

/-- Whether a store queue destination has room for `n` bytes. -/
def Queues.room (q : Queues) (o : VOp) (n : Nat) : Bool :=
  match o with
  | .sq k => decide ((q.sq.get ⟨k.toNat, k.isLt⟩).length + n ≤ Config.queueBytes)
  | _ => true

/-- Step 2 of R244: bytes, room, and a place in CQ. -/
def Strand.vReady (t : Strand) (f : VFields) (fm : VForm) : Bool :=
  let a := if opIsQueue f.da then fm.ba else 0
  let b := if opIsQueue f.db then fm.bb else 0
  decide (a ≤ (t.q.source f.da).length) &&
    decide (b + (if f.da = f.db then a else 0) ≤ (t.q.source f.db).length) &&
    (!fm.hasD || t.q.room f.dd fm.bd) &&
    (!fm.pushes || decide (t.ctl.cq.length < 32))

/-- Bytes back at the head of a source queue. -/
def Queues.putBack (q : Queues) (o : VOp) (bs : List Byte) : Queues :=
  match o with
  | .lq n => { q with lq := q.lq.set n.toNat (bs ++ q.lq.get ⟨n.toNat, n.isLt⟩) n.isLt,
                      src := q.src.set n.toNat (bs.map (fun _ => (0, 0)) ++ q.src.get ⟨n.toNat, n.isLt⟩) n.isLt }
  | .moq => { q with moq := bs ++ q.moq }
  | _ => q

/-- A source's value, with the bytes `bs` where it is a queue. -/
def VState.src (v : VState) (w : Nat) (o : VOp) (r : Nat) (wide : Bool) (f : Fmt) (mod : BitVec 16) (bs : List Byte) : VSrc :=
  match o with
  | .row _ _ => .lanes (v.rowVals w r wide)
  | .lq _ => .lanes (bytesToLanes (if wide then 8 else 4) w bs)
  | .moq => .lanes (bytesToLanes (if wide then 8 else 4) w bs)
  | .scalar => scalarSrc f mod
  | _ => .none

/-- Step 3 of R244: every source value, DA taking its bytes first, and the queues behind them. -/
def Strand.vInputs (t : Strand) (f : VFields) (fm : VForm) (k : Nat) : VIn × Queues :=
  let w := lanesOf t.vkind
  let ra := (rowAt f.da k fm.na).getD 0
  let rb := (rowAt f.db k fm.nb).getD 0
  let rd := if fm.hasD then (rowAt f.dd k fm.nd).getD 0 else 0
  let abytes := (t.q.source f.da).take fm.ba
  let q1 := t.q.takeSource f.da fm.ba
  let bbytes := (q1.source f.db).take fm.bb
  let q2 := q1.takeSource f.db fm.bb
  let wa := decide (fm.ba = 8 * w)
  let wb := decide (fm.bb = 8 * w)
  let wd := decide (fm.bd = 8 * w)
  ({ w := w, ra := ra, rd := rd, a := t.v.src w f.da ra wa f.fmt f.mod abytes, b := t.v.src w f.db rb wb f.fmt f.mod bbytes,
     d := if fm.hasD then t.v.src w f.dd rd wd f.fmt f.mod [] else .none, sel := t.v.selected w f.mask, v := t.v,
     bytes := abytes, idx := t.idx, cols := t.m.gens }, q2)

/-- Whole rows written from row `rd` on. -/
def writeRows (m : Sp Lane) (rd : Nat) (l : List (Nat × List Nat)) (all : BitVec 256) : Sp Lane :=
  match l with
  | [] => m
  | (k, vals) :: r => writeRows (writeLanes m (rd + k) 0 vals all) rd r all

/-- The lanes of D that a queue receives: zero where the mask is off (R243). -/
def maskedLanes (mask : BitVec 256) (l : Nat) (vals : List Nat) : List Nat :=
  match vals with
  | [] => []
  | v :: t => (if mask.getLsbD l then v else 0) :: maskedLanes mask (l + 1) t

/-- Steps 5 and 6 of R244. -/
def Strand.vWrite (t : Strand) (f : VFields) (fm : VForm) (x : VIn) (y : VOut) (q : Queues) : Strand :=
  let wide := decide (fm.bd = 8 * x.w)
  let mask := if y.every then allLanes x.w else x.sel
  let t1 := { t with v := y.v, m := { t.m with gens := y.cols }, q := q }
  let t2 :=
    match y.out, f.dd with
    | some vals, .row _ _ => { t1 with v := t1.v.write x.rd vals mask wide }
    | some vals, .sq n => { t1 with q := t1.q.sqPut n (lanesToBytes (if wide then 8 else 4) (maskedLanes mask 0 vals)) }
    | _, .sq n => if fm.hasD then { t1 with q := t1.q.sqPut n y.raw } else t1
    | _, _ => t1
  let t3 := { t2 with v := { t2.v with rows := writeRows t2.v.rows x.rd y.rows (allLanes x.w) } }
  if fm.pushes then { t3 with ctl := { t3.ctl with cq := t3.ctl.cq ++ [y.truth] } } else t3

/-- The current word has taken its source and waits at step 5 of R244; it holds the bytes of A. -/
def Strand.vHold (t : Strand) (f : VFields) (fm : VForm) (r : Run) : Strand :=
  let (x, q) := t.vInputs f fm r.k
  { t with q := q, mdry := false }.setRun false (some { r with popped := true, work := { r.work with stage := 1, b := [x.bytes.map fun (b : Byte) => b.toNat] } })

/-- The strand with the bytes that the current word holds where it took them. -/
def Strand.vUnhold (t : Strand) (f : VFields) (r : Run) : Strand :=
  if r.work.stage = 1 then { t with q := t.q.putBack f.da ((r.work.b.headD []).map fun n => BitVec.ofNat 8 n) } else t

/-- Steps 3 to 7 of R244. -/
def Strand.vRun (t0 : Strand) (f : VFields) (fm : VForm) (r : Run) : Strand :=
  let t := t0.vUnhold f r
  let (x, q) := t.vInputs f fm r.k
  ((t.vWrite f fm x (fm.body x) q).pushFrom .v r.blk.waddr r.info (vPush f.push)).setRun false (some r.advance)

/-- One execution of a vector word (R244). What makes it an encoding that offends is judged before the POP mask is popped (log
entry 121). -/
def vWord (f : VFields) (form : Bool → VForm) (s : State) : Out :=
  match s.me.st.vrun with
  | none => .next s
  | some r =>
    let fm := form s.me.st.vkind
    match vOffends f fm r.k s.me.st.vkind with
    | some bit => .next (s.updSt fun t => t.blockEnc false r bit)
    | none =>
      match s.popWord false r (vPop f.pop) with
      | none => .next (s.dry false)
      | some s1 =>
        if r.work.stage = 0 && !s1.me.st.vReady f fm then .next (s1.dry false)
        else if fm.mIdle && s1.me.st.mrun.isSome then .next (if r.work.stage = 0 then s1.updSt fun t => t.vHold f fm r else s1)
        else .next (s1.updSt fun t => t.vRun f fm r)

/-! ### Elementwise forms (R249 to R252) -/

/-- The elements of one lane, lowest first: `fn` computes element patterns and threads the generators. -/
def laneElems (ew n i : Nat) (fn : Nat → Nat → Nat → Sp Lane → Nat × Sp Lane) (a b d : Nat) (g : Sp Lane) : Nat × Sp Lane :=
  match n with
  | 0 => (0, g)
  | n + 1 =>
    let cut := fun (p : Nat) => p / 2 ^ (ew * i) % 2 ^ ew
    let (p, g1) := fn (cut a) (cut b) (cut d) g
    let (q, g2) := laneElems ew n (i + 1) fn a b d g1
    (p % 2 ^ ew * 2 ^ (ew * i) + q, g2)

/-- The lanes from `l` on, `n` of them; a lane that is not selected computes nothing. -/
def mapLanes (x : VIn) (f : Fmt) (n l : Nat) (fn : Nat → Nat → Nat → Nat → Sp Lane → Nat × Sp Lane) (g : Sp Lane) :
    List Nat × Sp Lane :=
  match n with
  | 0 => ([], g)
  | n + 1 =>
    let (p, g1) :=
      if x.sel.getLsbD l then
        laneElems (elemWidth f) (elemsPerLane f) 0 (fn l) (x.a.pat l) (x.b.pat l) (x.d.pat l) g
      else (0, g)
    let (r, g2) := mapLanes x f n (l + 1) fn g1
    (p :: r, g2)

/-- An elementwise word. -/
def elementwise (f : VFields) (fn : VIn → Nat → Nat → Nat → Nat → Sp Lane → Nat × Sp Lane) (s : State) : Out :=
  vWord f (fun vk => baseForm f.fmt f.fmt (lanesOf vk) fun x =>
    let (out, g) := mapLanes x f.fmt x.w 0 (fn x) x.v.gens
    x.gives out g) s

/-- An arithmetic form: the exact value of R250, rounded once (R249). -/
def arith (f : VFields) (rd : Rnd) (o : Ovf) (op : Val → Val → Val → Val) (s : State) : Out :=
  elementwise f (fun x l a b d g =>
    let v := op (x.a.val f.fmt a) (x.b.val f.fmt b) (x.d.val f.fmt d)
    let (p, g1) := cvtGen g x.idx l v.toX f.fmt rd o
    (toStore f.fmt p, g1)) s

/-- `vadd`. -/
def execVadd (f : VFields) (s : State) : Out := arith f f.rnd f.ovf (fun a b _ => Val.add a b f.rnd) s

/-- `vsub`. -/
def execVsub (f : VFields) (s : State) : Out := arith f f.rnd f.ovf (fun a b _ => Val.add a b.neg f.rnd) s

/-- `vmul`. -/
def execVmul (f : VFields) (s : State) : Out := arith f f.rnd f.ovf (fun a b _ => Val.mul a b) s

/-- `vfma`: a × b + d. -/
def execVfma (f : VFields) (s : State) : Out := arith f f.rnd f.ovf (fun a b d => Val.add (Val.mul a b) d f.rnd) s

/-- `vfms`: d − a × b. -/
def execVfms (f : VFields) (s : State) : Out := arith f f.rnd f.ovf (fun a b d => Val.add d (Val.mul a b).neg f.rnd) s

/-- `vmin`: exact. -/
def execVmin (f : VFields) (s : State) : Out := arith f .rne .wrap (fun a b _ => Val.min a b) s

/-- `vmax`: exact. -/
def execVmax (f : VFields) (s : State) : Out := arith f .rne .wrap (fun a b _ => Val.max a b) s

/-- `vabs`. -/
def execVabs (f : VFields) (s : State) : Out := arith f .rne f.ovf (fun a _ _ => a.abs) s

/-- `vneg`. -/
def execVneg (f : VFields) (s : State) : Out := arith f .rne f.ovf (fun a _ _ => a.neg) s

/-- `vclamp`: min(max(d, a), b). -/
def execVclamp (f : VFields) (s : State) : Out := arith f .rne .wrap (fun a b d => Val.min (Val.max d a) b) s

/-! ### Functions (R251) -/

/-- 2^a. -/
def fnExp2 : Val → XVal
  | .nan => .nan
  | .inf n => if n then .num ⟨false, 0, 0, false⟩ else .inf false
  | .fin n m e => .num (exp2Approx n m e)

/-- log2 a. -/
def fnLog2 : Val → XVal
  | .nan => .nan
  | .inf n => if n then .nan else .inf false
  | .fin n m e => if m = 0 then .inf true else if n then .nan else .num (log2Approx m e)

/-- 1 / a. -/
def fnRcp : Val → XVal
  | .nan => .nan
  | .inf n => .num ⟨n, 0, 0, false⟩
  | .fin n m e => if m = 0 then .inf n else .num (quotApprox n 1 m (-e))

/-- 1 / √a. -/
def fnRsqrt : Val → XVal
  | .nan => .nan
  | .inf n => if n then .nan else .num ⟨false, 0, 0, false⟩
  | .fin n m e => if m = 0 then .inf n else if n then .nan else .num (sqrtApprox 1 m (-e))

/-- tanh a. -/
def fnTanh : Val → XVal
  | .nan => .nan
  | .inf n => .num ⟨n, 1, 0, false⟩
  | .fin n m e => .num (tanhApprox n m e)

/-- 1 / (1 + e^−a). -/
def fnSig : Val → XVal
  | .nan => .nan
  | .inf n => if n then .num ⟨false, 0, 0, false⟩ else .num ⟨false, 1, 0, false⟩
  | .fin n m e => .num (sigApprox n m e)

/-- A function form: the exact value rounded once. -/
def funcWord (f : VFields) (fn : Val → XVal) (s : State) : Out :=
  elementwise f (fun x l a _ _ g => cvtGen g x.idx l (fn (x.a.val f.fmt a)) f.fmt f.rnd f.ovf) s

/-- `vexp2`. -/
def execVexp2 (f : VFields) (s : State) : Out := funcWord f fnExp2 s

/-- `vlog2`. -/
def execVlog2 (f : VFields) (s : State) : Out := funcWord f fnLog2 s

/-- `vrcp`. -/
def execVrcp (f : VFields) (s : State) : Out := funcWord f fnRcp s

/-- `vrsqrt`. -/
def execVrsqrt (f : VFields) (s : State) : Out := funcWord f fnRsqrt s

/-- `vtanh`. -/
def execVtanh (f : VFields) (s : State) : Out := funcWord f fnTanh s

/-- `vsig`. -/
def execVsig (f : VFields) (s : State) : Out := funcWord f fnSig s

/-! ### Logic and shifts (R252) -/

/-- A form on patterns. -/
def bitwise (f : VFields) (op : Nat → Nat → Nat) (s : State) : Out := elementwise f (fun _ _ a b _ g => (op a b, g)) s

/-- `vand`. -/
def execVand (f : VFields) (s : State) : Out := bitwise f Nat.land s

/-- `vor`. -/
def execVor (f : VFields) (s : State) : Out := bitwise f Nat.lor s

/-- `vxor`. -/
def execVxor (f : VFields) (s : State) : Out := bitwise f Nat.xor s

/-- `vshl`. -/
def execVshl (f : VFields) (s : State) : Out :=
  bitwise f (fun a c => if c < elemWidth f.fmt then a * 2 ^ c % 2 ^ elemWidth f.fmt else 0) s

/-- `vshr`. -/
def execVshr (f : VFields) (s : State) : Out := bitwise f (fun a c => if c < elemWidth f.fmt then a / 2 ^ c else 0) s

/-- `vsha`: the sign bit fills. -/
def execVsha (f : VFields) (s : State) : Out :=
  bitwise f (fun a c =>
    let w := elemWidth f.fmt
    wrapNat (sextNat a w / (2 : Int) ^ (if c < w then c else w)) w) s

/-! ### Conversion and packing (R253, R254) -/

/-- The lanes of a VCVT from lane `l` on. -/
def cvtLanes (x : VIn) (f : VFields) (n l : Nat) (g : Sp Lane) : List Nat × Sp Lane :=
  match n with
  | 0 => ([], g)
  | n + 1 =>
    let (p, g1) :=
      if x.sel.getLsbD l then
        let (y, g1) := cvtGen g x.idx l (decodeFmt f.fmt2 (ofStore f.fmt2 (x.a.pat l))).toX f.fmt f.rnd f.ovf
        (toStore f.fmt (withSelector f.fmt y (f.mod.getLsbD 0 && decide (x.b.pat l % 2 = 1))), g1)
      else (0, g)
    let (r, g2) := cvtLanes x f n (l + 1) g1
    (p :: r, g2)

/-- `vcvt.fd.fs`. -/
def execVcvt (f : VFields) (s : State) : Out :=
  vWord f (fun vk =>
    let b := baseForm f.fmt2 f.fmt (lanesOf vk) fun x =>
      let (out, g) := cvtLanes x f x.w 0 x.v.gens
      x.gives out g
    { b with nb := 1, bb := 4 * lanesOf vk }) s

/-- Rows of an arrangement with one element to a lane. -/
def packRows (f : Fmt) : Nat := if fmtWidth f = 6 then 4 else 32 / fmtWidth f

/-- Bytes of the dense image. -/
def packBytes (f : Fmt) (w : Nat) : Nat := if fmtWidth f = 6 then 3 * w else 4 * w

/-- Elements packed from bit 0 upward (R230), as a number. -/
def packNat (w : Nat) (l : List Nat) : Nat :=
  match l with
  | [] => 0
  | x :: r => x % 2 ^ w + 2 ^ w * packNat w r

/-- `n` elements of a packed number. -/
def unpackNat (w n v : Nat) : List Nat :=
  match n with
  | 0 => []
  | n + 1 => v % 2 ^ w :: unpackNat w n (v / 2 ^ w)

/-- `vpack.f`. -/
def execVpack (f : VFields) (s : State) : Out :=
  vWord f (fun vk =>
    let w := lanesOf vk
    let p := packBytes f.fmt w
    let b := baseForm .f32 .f32 w fun x =>
      let elems := (List.range (packRows f.fmt)).flatMap fun k => x.v.row x.w (x.ra + k)
      let img := leBytes p (packNat (fmtWidth f.fmt) elems)
      match f.dd with
      | .sq _ => { x.sets x.v false with raw := img }
      | _ => { x.sets x.v false with rows := [(0, bytesToLanes 4 x.w (img ++ List.replicate (4 * x.w - p) 0))] }
    { b with na := packRows f.fmt, bd := p }) s

/-- Lanes cut into rows of `w`. -/
def cutRows (w n k : Nat) (l : List Nat) : List (Nat × List Nat) :=
  match n with
  | 0 => []
  | n + 1 => (k, l.take w) :: cutRows w n (k + 1) (l.drop w)

/-- `vunpack.f`. -/
def execVunpack (f : VFields) (s : State) : Out :=
  vWord f (fun vk =>
    let w := lanesOf vk
    let p := packBytes f.fmt w
    let n := packRows f.fmt
    let b := baseForm .f32 .f32 w fun x =>
      let img := if opIsQueue f.da then x.bytes else (lanesToBytes 4 (x.v.row x.w x.ra)).take p
      { x.sets x.v false with rows := cutRows x.w n 0 (unpackNat (fmtWidth f.fmt) (n * x.w) (leNat img)) }
    { b with nd := n, ba := p }) s

/-! ### Compares and masks (R255, R256) -/

/-- The condition of a code (R255). -/
def fcondOf (n : Nat) : FCond :=
  match n with
  | 0 => .eq
  | 1 => .ne
  | 2 => .lt
  | 3 => .le
  | _ => .un

/-- The truth value of a CQ code over a result and the lanes that count: 1 any, 2 all. -/
def cqTruth (code : Nat) (r sel : BitVec 256) : Bool := if code = 1 then decide (r ≠ 0) else decide (r = sel)

/-- `vcmp.f.cond vmD, A, B, cq=c`. -/
def execVcmp (f : VFields) (s : State) : Out :=
  let code := f.mod.toNat / 256 % 4
  vWord f (fun vk =>
    let b := baseForm f.fmt f.fmt (lanesOf vk) fun x =>
      let r := laneMask x.w fun l =>
        x.sel.getLsbD l && fcondHolds (fcondOf (f.mod.toNat / 8192)) (x.a.val f.fmt (x.a.pat l)) (x.b.val f.fmt (x.b.pat l))
      x.sets (x.v.setVm (f.mod.extractLsb' 10 3) r) (cqTruth code r x.sel)
    { b with hasD := false, pushes := decide (code ≠ 0) }) s

/-- `vsel`: every lane, whatever the mask. -/
def execVsel (f : VFields) (s : State) : Out :=
  vWord f (fun vk => baseForm f.fmt f.fmt (lanesOf vk) fun x =>
    let out := (List.range x.w).map fun l => if x.sel.getLsbD l then x.a.pat l else x.b.pat l
    { x.gives out x.v.gens with every := true }) s

/-- The lowest set bit alone. -/
def lowestBit (w : Nat) (m : BitVec 256) : BitVec 256 :=
  match (List.range w).find? fun l => m.getLsbD l with
  | some l => BitVec.ofNat 256 (2 ^ l)
  | none => 0

/-- The result mask of a VMOP with FN 0 to 8. -/
def vmopMask (fn w : Nat) (ma mb : BitVec 256) (a : VSrc) : BitVec 256 :=
  match fn with
  | 0 => ma &&& mb
  | 1 => ma ||| mb
  | 2 => ma ^^^ mb
  | 3 => ma &&& ~~~mb
  | 4 => ~~~ma &&& allLanes w
  | 5 => allLanes w
  | 6 => 0
  | 7 => lowestBit w ma
  | _ => laneMask w fun l => decide (a.pat l ≠ 0)

/-- `vmop`. -/
def execVmop (f : VFields) (s : State) : Out :=
  let fn := f.mod.toNat / 4096
  let code := f.mod.toNat / 2 % 4
  vWord f (fun vk =>
    let b := baseForm .f32 .f32 (lanesOf vk) fun x =>
      let ma := x.v.getVm (f.mod.extractLsb' 6 3)
      if vmopRow fn then
        let count := ((List.range x.w).filter fun l => ma.getLsbD l).length
        let out := (List.range x.w).map fun l => if fn = 9 then (ma.getLsbD l).toNat else if l = 0 then count else 0
        { x.gives out x.v.gens with every := true, truth := cqTruth code ma (allLanes x.w) }
      else
        let r := vmopMask fn x.w ma (x.v.getVm (f.mod.extractLsb' 3 3)) x.a
        x.sets (x.v.setVm (f.mod.extractLsb' 9 3) r) (cqTruth code r (allLanes x.w))
    { b with hasD := vmopRow fn, pushes := decide (code ≠ 0) }) s

/-! ### Moving lanes (R258) -/

/-- `vmov`: bit for bit. -/
def execVmov (f : VFields) (s : State) : Out := bitwise f (fun a _ => a) s

/-- `vbcast`: a LANE beyond the engine's lanes is ENG_ENC. -/
def execVbcast (f : VFields) (s : State) : Out :=
  let lane := f.mod.toNat % 256
  vWord f (fun vk =>
    let b := baseForm f.fmt f.fmt (lanesOf vk) fun x => x.gives (List.replicate x.w (x.a.pat lane)) x.v.gens
    { b with bad := if lanesOf vk ≤ lane then some 0 else none }) s

/-- `vperm`: within A, or through the whole row array; the latter in V-clusters alone. -/
def execVperm (f : VFields) (s : State) : Out :=
  let gather := f.mod.getLsbD 0
  vWord f (fun vk =>
    let b := baseForm .f32 .f32 (lanesOf vk) fun x =>
      let out := (List.range x.w).map fun l =>
        let i := x.b.pat l
        if gather then (if i / 65536 = 0 ∧ i % 256 < x.w then (x.v.lane (i / 256 % 256) (i % 256)).toNat else 0)
        else x.a.pat (i % x.w)
      x.gives out x.v.gens
    { b with bad := if gather && !vk then some 0 else none }) s

/-! ### Reductions (R259) -/

/-- The selected lanes' values, in place. -/
def VIn.terms (x : VIn) (f : Fmt) (n : Nat) : List (Option Val) :=
  (List.range n).map fun l => if x.sel.getLsbD l then some (decodeFmt f (x.a.pat l)) else none

/-- The smallest or the largest of some values; with none, the greatest or the least of the format. -/
def extreme (big : Bool) (l : List (Option Val)) : Val :=
  match l.filterMap id with
  | [] => .inf big
  | v :: r => r.foldl (fun a b => if big then Val.max a b else Val.min a b) v

/-- The combination of the first `n` lanes, with the generator of lane `k`. -/
def combine (f : VFields) (x : VIn) (n k : Nat) (g : Sp Lane) : Nat × Sp Lane :=
  match f.mod.toNat % 4 with
  | 0 =>
    let (v, g1) := sumBlocks (x.terms f.fmt n) (blockCount n) none 0 f.fmt f.rnd f.ovf x.idx k g true
    (cvtVal (v.getD (.fin false 0 0)) f.fmt .rne .wrap, g1)
  | o => (cvtVal (extreme (decide (o = 2)) (x.terms f.fmt n)) f.fmt .rne .wrap, g)

/-- `vred`: lane 0 receives the result, whatever the mask. -/
def execVred (f : VFields) (s : State) : Out :=
  vWord f (fun vk => baseForm f.fmt f.fmt (lanesOf vk) fun x =>
    let (p, g) := combine f x x.w 0 x.v.gens
    { x.gives (p :: List.replicate (x.w - 1) 0) g with every := true }) s

/-- The lanes of a VSCAN from lane `l` on. -/
def scanLanes (f : VFields) (x : VIn) (n l : Nat) (g : Sp Lane) : List Nat × Sp Lane :=
  match n with
  | 0 => ([], g)
  | n + 1 =>
    let (p, g1) := if x.sel.getLsbD l then combine f x (l + 1) l g else (0, g)
    let (r, g2) := scanLanes f x n (l + 1) g1
    (p :: r, g2)

/-- `vscan`. -/
def execVscan (f : VFields) (s : State) : Out :=
  vWord f (fun vk => baseForm f.fmt f.fmt (lanesOf vk) fun x =>
    let (out, g) := scanLanes f x x.w 0 x.v.gens
    x.gives out g) s

/-! ### The deferral queue (R260 to R262) -/

/-- Records that the queue holds at most. -/
def dqCap (vkind : Bool) : Nat := if vkind then 4096 else 1024

/-- `vdefer`: the lowest selected lanes that fit; VM[MD] names the rest. -/
def execVdefer (f : VFields) (s : State) : Out :=
  vWord f (fun vk =>
    let b := baseForm .f32 .f32 (lanesOf vk) fun x =>
      let sel := (List.range x.w).filter fun l => x.sel.getLsbD l
      let fit := sel.take (dqCap vk - x.v.dq.length)
      let recs := fit.map fun l =>
        (⟨BitVec.ofNat 8 l, f.mod.extractLsb' 8 8, BitVec.ofNat 32 (x.a.pat l), BitVec.ofNat 32 (x.b.pat l)⟩ : DqRec)
      let rest := laneMask x.w fun l => (sel.drop fit.length).contains l
      x.sets ({ x.v with dq := x.v.dq ++ recs }.setVm (f.mod.extractLsb' 5 3) rest) (decide (fit.length = sel.length))
    { b with hasD := false, pushes := f.mod.getLsbD 4 }) s

/-- The lanes of a row made from drained records. -/
def drainRow (w : Nat) (recs : List DqRec) (get : DqRec → Nat) : List Nat := recs.map get ++ List.replicate (w - recs.length) 0

/-- `vdrain`: a full batch, or what there is. -/
def execVdrain (f : VFields) (s : State) : Out :=
  vWord f (fun vk =>
    let b := baseForm .f32 .f32 (lanesOf vk) fun x =>
      let n := if f.mod.getLsbD 12 && decide (x.v.dq.length < x.w) then 0 else if x.w < x.v.dq.length then x.w else x.v.dq.length
      let recs := x.v.dq.take n
      let v := { x.v with dq := x.v.dq.drop n }.setVm (f.mod.extractLsb' 13 3) (laneMask x.w fun l => decide (l < n))
      { x.sets v (decide (0 < n)) with
        rows := [(0, drainRow x.w recs fun r => r.va.toNat), (1, drainRow x.w recs fun r => r.vb.toNat),
                 (2, drainRow x.w recs fun r => r.lane.toNat + r.tag.toNat * 65536)] }
    { b with nd := 3, pushes := f.mod.getLsbD 11 }) s

/-! ### Scale-and-accumulate, seeding, repeats (R263 to R265) -/

/-- An exponent brought within ±1000: beyond that an F32 value scaled by it is outside every F32 range on the same side. -/
def clampExp (k : Int) : Int := if k < -1000 then -1000 else if 1000 < k then 1000 else k

/-- `vsacc`: d + a × 2^(b + imm), one rounding. -/
def execVsacc (f : VFields) (s : State) : Out :=
  elementwise f (fun x l a b d g =>
    let k := sextNat b 32 + sextNat f.mod.toNat 10
    let v := Val.add (decodeFmt .f32 d) ((decodeFmt .f32 a).scale (clampExp k)) f.rnd
    cvtGen g x.idx l v.toX .f32 f.rnd f.ovf) s

/-- The state that a seed gives. -/
def seedOf (p : Nat) : Lane := if p % 2 ^ 32 = 0 then 0x2545F491 else BitVec.ofNat 32 p

/-- Sets generator `base + l` from lane `l` for the selected lanes from `l` on, up to `lim` lanes. -/
def seedLanes (x : VIn) (base : Nat) (n l : Nat) (g : Sp Lane) : Sp Lane :=
  match n with
  | 0 => g
  | n + 1 => seedLanes x base n (l + 1) (if x.sel.getLsbD l then genSet g x.idx (base + l) (seedOf (x.a.pat l)) else g)

/-- `vseed A, tgt=t`: lane generators, or 64 column generators while the matrix engine is between entries. -/
def execVseed (f : VFields) (s : State) : Out :=
  let tgt := f.mod.toNat % 4
  vWord f (fun vk =>
    let b := baseForm .f32 .f32 (lanesOf vk) fun x =>
      if tgt = 0 then x.sets { x.v with gens := seedLanes x 0 x.w 0 x.v.gens } false
      else { x.sets x.v false with cols := seedLanes x (256 + 64 * (tgt - 1)) 64 0 x.cols }
    { b with hasD := false, bad := if decide (tgt ≠ 0) && vk then some 0 else none, mIdle := decide (tgt ≠ 0) }) s

/-- `vrep ebN, len` (R184). -/
def execVrep (f : VFields) (s : State) : Out := repeatWord false (f.mod.extractLsb' 12 4) (f.mod.toNat % 4096) s

end Sys2Proof.Machine
end

