-- ==== Sys2Proof/Machine/Matrix.lean ====
section
/-!
DEFINITION. The matrix engine but for relaxation (R268 to R289): banks, tiles and their biases, address-generator
channels, and the tile-step forms of R276. Each step of a matrix word reads one operand row or completes one output row,
so that a fault stops it between rows (R287) and other agents act between rows.
-/

namespace Sys2Proof.Machine

/-! ### Banks and tiles (R269) -/

/-- Byte `o` of bank `b`. -/
def MState.rbByte (m : MState) (b o : Nat) : Byte := Sp.get m.rb (65536 * b + o) 0

/-- `n` bytes of a bank. -/
def MState.rbBytes (m : MState) (b o n : Nat) : List Byte := (List.range n).map fun k => m.rbByte b (o + k)

/-- Bytes put into a bank. -/
def putBank (rb : Sp Byte) (b o : Nat) (bs : List Byte) : Sp Byte :=
  match bs with
  | [] => rb
  | x :: r => putBank (Sp.set rb (65536 * b + o) x 0) b (o + 1) r

/-- Where element (i, j) of a bank lies: bank, first byte, bit within it, width. An F64 matrix takes both banks, whichever
of them the word names. -/
def bankPos (b : Nat) (f : Fmt) (i j : Nat) : Nat × Nat × Nat × Nat :=
  if f = .f64 then (j / 64, 512 * i + 8 * (j % 64), 0, 64)
  else (b, 512 * i + j * storeWidth f / 8, j * storeWidth f % 8, storeWidth f)

/-- The pattern of element (i, j) of bank `b`. -/
def MState.bank (m : MState) (b : Nat) (f : Fmt) (i j : Nat) : Nat :=
  let (k, o, sh, w) := bankPos b f i j
  leNat (m.rbBytes k o ((sh + w + 7) / 8)) / 2 ^ sh % 2 ^ w

/-- Writes element (i, j) of bank `b`. -/
def MState.setBank (m : MState) (b : Nat) (f : Fmt) (i j p : Nat) : MState :=
  let (k, o, sh, w) := bankPos b f i j
  let n := (sh + w + 7) / 8
  let old := leNat (m.rbBytes k o n)
  let new := old - old / 2 ^ sh % 2 ^ w * 2 ^ sh + p % 2 ^ w * 2 ^ sh
  { m with rb := putBank m.rb k o (leBytes n new) }

/-- Element (i, j) of tile `t` as 32 bits. -/
def MState.accAt (m : MState) (t i j : Nat) : Lane := Sp.get m.acc (16384 * (t % 4) + 128 * i + j) 0

/-- Writes element (i, j) of tile `t`. -/
def MState.setAcc (m : MState) (t i j : Nat) (v : Lane) : MState :=
  { m with acc := Sp.set m.acc (16384 * (t % 4) + 128 * i + j) v 0 }

/-- Element (i, j) of tile `t`, or of the tile pair for F64: `t` and the tile after it, whatever `t` is (log entry 122). -/
def MState.tile (m : MState) (t : Nat) (f : Fmt) (i j : Nat) : Nat :=
  if f = .f64 then
    (m.accAt (t + j / 64) i (2 * (j % 64))).toNat + (m.accAt (t + j / 64) i (2 * (j % 64) + 1)).toNat * 2 ^ 32
  else (m.accAt t i j).toNat

/-- Writes element (i, j) of tile `t`, or of the tile pair for F64. -/
def MState.setTile (m : MState) (t : Nat) (f : Fmt) (i j p : Nat) : MState :=
  if f = .f64 then
    (m.setAcc (t + j / 64) i (2 * (j % 64)) (BitVec.ofNat 32 p)).setAcc (t + j / 64) i (2 * (j % 64) + 1)
      (BitVec.ofNat 32 (p / 2 ^ 32))
  else m.setAcc t i j (BitVec.ofNat 32 p)

/-- Writes patterns to row `i` of a tile from column `j` on. -/
def MState.setTileRow (m : MState) (t : Nat) (f : Fmt) (i j : Nat) (l : List Nat) : MState :=
  match l with
  | [] => m
  | p :: r => (m.setTile t f i j p).setTileRow t f i (j + 1) r

/-- The bias of a tile (R233). -/
def MState.getBias (m : MState) (t : Nat) : Option Int := m.bias.get ⟨t % 4, Nat.mod_lt t (by decide)⟩

/-- Sets the bias of a tile. -/
def MState.setBias (m : MState) (t : Nat) (b : Option Int) : MState :=
  { m with bias := m.bias.set (t % 4) b (Nat.mod_lt t (by decide)) }

/-- The state tag of a tile (R296). -/
def MState.getStag (m : MState) (t : Nat) : Lane := m.stag.get ⟨t % 4, Nat.mod_lt t (by decide)⟩

/-- Sets the state tag of a tile. -/
def MState.setStag (m : MState) (t : Nat) (v : Lane) : MState :=
  { m with stag := m.stag.set (t % 4) v (Nat.mod_lt t (by decide)) }

/-- R296: a word other than RELAX has written tile `t`, and its neighbour where an F64 result has more than 64 columns. -/
def MState.untag (m : MState) (t : Nat) (f : Fmt) (n : Nat) : MState :=
  if f = .f64 ∧ 64 < n then (m.setStag t 0).setStag (t + 1) 0 else m.setStag t 0

/-- The exact value of an element pattern as banks, tiles and rows hold it (R230). -/
def elemVal (f : Fmt) (p : Nat) : Val := decodeFmt f (ofStore f p)

/-- Bytes of a row of `n` elements (R230). -/
def rowBytes (f : Fmt) (n : Nat) : Nat := if fmtWidth f = 6 then 3 * ((n + 3) / 4) else (n * storeWidth f + 7) / 8

/-- A row's elements from its bytes. -/
def rowElems (f : Fmt) (n : Nat) (bs : List Byte) : List Nat := unpackNat (storeWidth f) n (leNat bs)

/-- A row's bytes from its elements. -/
def rowPack (f : Fmt) (l : List Nat) : List Byte := leBytes (rowBytes f l.length) (packNat (storeWidth f) l)

/-- Alignment of a row's address (R274). -/
def rowAlign (f : Fmt) : Nat := if storeWidth f < 8 ∨ fmtWidth f = 6 then 1 else storeWidth f / 8

/-- R305: the resident structure goes. Its banks read zero already. -/
def MState.dropStruct (m : MState) : MState :=
  match m.struct with
  | some _ => { m with struct := none, rx := { m.rx with xstruct := 0 } }
  | none => m

/-! ### Channels (R270, R271) -/

/-- A channel by number. -/
def MState.chan (m : MState) (c : Nat) : Channel := m.chans.get ⟨c % 4, Nat.mod_lt c (by decide)⟩

/-- Replaces a channel. -/
def MState.setChan (m : MState) (c : Nat) (v : Channel) : MState :=
  { m with chans := m.chans.set (c % 4) v (Nat.mod_lt c (by decide)) }

/-- The address at a channel's index vector. -/
def Channel.addr (c : Channel) : Word :=
  (List.finRange 6).foldl (fun a k => a + (c.active.get k).base + BitVec.ofNat 64 (c.idx.get k) * (c.active.get k).stride) 0

/-- The index vector advanced from level `k` on; after the last point it is zero again. -/
def bumpIdx (idx : List Nat) (cnt : List Nat) : List Nat :=
  match idx, cnt with
  | i :: r, n :: c => if i + 1 < n then (i + 1) :: r else 0 :: bumpIdx r c
  | _, _ => []

/-- A channel past its current address. -/
def Channel.next (c : Channel) : Channel :=
  let l := bumpIdx c.idx.toList (c.active.toList.map fun v => v.cnt)
  { c with idx := Vector.ofFn fun k => l.getD k.val 0 }

/-- Changes the matrix state of `me`. -/
def State.updM (s : State) (f : MState → MState) : State := s.updSt fun t => { t with m := f t.m }

/-- Changes the matrix run of `me`. -/
def State.updRun (s : State) (f : Run → Run) : State := s.updSt fun t => t.setRun true (t.mrun.map f)

/-! ### Rows through the access unit (R274, R287) -/

/-- What became of an access: its bytes, a wait, or the end of the block. -/
inductive Got where
  | bytes (s : State) (bs : List Byte)
  | later (s : State)
  | stop (s : State)

/-- ENG_ENC for a data address. -/
def State.mEncAt (s : State) (r : Run) (va : Word) : State := s.updSt fun t => t.addrEnc r va

/-- ENG_ENC for a value. -/
def State.mEnc (s : State) (r : Run) : State := s.updSt fun t => t.blockEnc true r 0xFFFF

/-- The cause that a status of R95 stands for; 8 is a lost destination (R383). -/
def statusCause (n : Nat) : Cause :=
  if n = 3 then .memPoison else if n = 6 then .memRange else if n = 8 then .fabLost else .memLink

/-- The owner of the window lines that the matrix engine of a cluster reads. -/
def State.mOwner (s : State) : Owner := .fetch .m s.me.key

/-- Bytes of a window line that the matrix engine has fetched, or this package serves itself (R378). -/
def State.sysBytes (s : State) (pa n : Nat) : Except Cause (List Byte) :=
  match n with
  | 0 => .ok []
  | n + 1 =>
    match s.snapByte s.mOwner (.mem pa tSys) 0 with
    | .error e => .error (statusCause e)
    | .ok b =>
      match s.sysBytes (pa + 1) n with
      | .ok l => .ok (b :: l)
      | .error c => .error c

/-- The matrix entry of `me` uses cells of its tag at a home, which a retirement of the tag waits for (R166). -/
def State.usesCells (s : State) (home : Nat) : State :=
  s.updSt fun t => { t with mrun := t.mrun.map fun r => { r with homes := if r.homes.contains home then r.homes else r.homes ++ [home] } }

/-- A part of a line read by the matrix engine: an L1 line of a cached type in any state, else the home; no fill. -/
def State.chanChunk (s : State) (pl : Place) (n : Nat) (tag : BitVec 20) : State × Except Cause (List Byte) :=
  match pl with
  | .spad off => (s, .ok (s.me.st.spad.readN off n))
  | .mem pa type =>
    if type = tSys then (s, s.sysBytes pa n)
    else
      match (if cached type then s.me.l1Line (canon pa / 64) else none) with
      | some l => (s, .ok ((l.data.drop (canon pa % 64)).take n))
      | none =>
        match s.homeErr s.me.st.vi pa type n tag false with
        | some c => (s, .error c)
        | none =>
          let g := s.homeGet pa type n tag
          (if usesCell type tag then g.1.usesCells (homeDie (canon pa)) else g.1, .ok g.2)

/-- A record of an access that a home refused, at an address (R347). -/
def Run.accessRec (r : Run) (c : Cause) (va : Word) (tag : BitVec 20) : TrapRec :=
  { r.trapOf true c with addr := va, aux := if c = .tagStale then tag.setWidth 64 else 0 }

/-- Reads `n` bytes line by line, `fuel` parts at most; a refused part reads zeros and is recorded. -/
def State.chanParts (s : State) (r : Run) (m : List Mapped) (va : Word) (n fuel : Nat) (acc : List Byte) :
    State × List Byte :=
  match fuel with
  | 0 => (s, acc)
  | fuel + 1 =>
    if n = 0 then (s, acc)
    else
      let room := 64 - va.toNat % 64
      let c := if n < room then n else room
      match s.chanChunk (placeAt m va.toNat) c r.blk.tag with
      | (s1, .ok bs) => s1.chanParts r m (va + BitVec.ofNat 64 c) (n - c) fuel (acc ++ bs)
      | (s1, .error e) =>
        (s1.updSt fun t => t.record (r.accessRec e va r.blk.tag)).chanParts r m (va + BitVec.ofNat 64 c) (n - c) fuel
          (acc ++ List.replicate c 0)

/-- A channel address that faults: held while the front end may service it, else the end of the block (R287). -/
def State.chanFault (s : State) (r : Run) (c : Cause) (va : Word) (write : Bool) : Got :=
  if serviceable c ∧ !s.me.st.declined .m va then .later (s.hold c va write .m)
  else .stop (s.updSt fun t =>
    (t.release .m).blockError true { r.trapOf true c with addr := va, aux := t.mprog })

/-- `n` bytes at an address. The address of an empty row passes the checks of its first byte (R270, R274). Window lines of
other packages come first. -/
def State.readAt (s : State) (r : Run) (va : Word) (n align : Nat) : Got :=
  if va.toNat % align ≠ 0 then .stop (s.mEncAt r va)
  else if s.heldNow .m then .later s
  else
    match s.mapAll (addRange [] va.toNat (if n = 0 then 1 else n)) false none [] with
    | (s1, .error (c, a)) => s1.chanFault r c (BitVec.ofNat 64 a) false
    | (s1, .ok m) =>
      let s2 := s1.updSt fun t => t.release .m
      if touches m tSync then .stop (s2.mEncAt r va)
      else
        match s2.lockWindow (windowGrans [(va, n)]) with
        | none => .later s
        | some s3 =>
          match s3.fetch s3.me.st.vi s3.mOwner (sysLines m [(va, n)]) with
          | (s4, false) => .later s4
          | (s4, true) =>
            let p := s4.chanParts r m va n (n / 64 + 2) []
            .bytes (p.1.forget fun o => decide (o = s4.mOwner)) p.2

/-- `n` bytes at a channel's address; the channel moves on with them. -/
def State.readChan (s : State) (r : Run) (c n align : Nat) : Got :=
  match s.readAt r (s.me.st.m.chan c).addr n align with
  | .bytes s1 bs => .bytes (s1.updM fun m => m.setChan c (m.chan c).next) bs
  | g => g

/-- `n` bytes from a source of bytes: a load queue, or a channel. -/
def State.readBytes (s : State) (r : Run) (src : MSrc) (n align : Nat) : Got :=
  match src with
  | .lq q =>
    let bs := s.me.st.q.lq.get ⟨q.toNat, q.isLt⟩
    if bs.length < n then .later (s.dry true) else .bytes (s.updSt fun t => { t with q := t.q.lqTake q n }) (bs.take n)
  | .ch c => s.readChan r c.toNat n align
  | _ => .bytes s []

/-- What became of an operand row. -/
inductive Row where
  | elems (s : State) (l : List Nat)
  | later (s : State)
  | stop (s : State)

/-- Row `i` of an operand with `n` elements. -/
def State.readRow (s : State) (r : Run) (src : MSrc) (f : Fmt) (acc2 i n : Nat) : Row :=
  match src with
  | .rb b => .elems s ((List.range n).map fun j => s.me.st.m.bank b.toNat f i j)
  | .acc2 => .elems s ((List.range n).map fun j => s.me.st.m.tile acc2 f i j)
  | _ =>
    match s.readBytes r src (rowBytes f n) (rowAlign f) with
    | .bytes s1 bs => .elems s1 (rowElems f n bs)
    | .later s1 => .later s1
    | .stop s1 => .stop s1

/-- The granules of a row that its tag may write: those where the tag is stale take no bytes (R167). -/
def State.freshSide (s : State) (m : List Mapped) (t : BitVec 20) (l : List ShadowByte) : List ShadowByte :=
  if (s.staleSide m t).isSome then l.filter fun b => !(b.tw && s.staleAt s.me.st.vi t (homeDie b.pa)) else l

/-- Bytes written at an address: in place in the window, as shadow bytes of the entry elsewhere (R274, R283), for which the
word has reserved space and cells (R165). -/
def State.writeAt (s : State) (r : Run) (va : Word) (bs : List Byte) (align : Nat) : Got :=
  if va.toNat % align ≠ 0 then .stop (s.mEncAt r va)
  else if s.heldNow .m then .later s
  else
    match s.mapAll (addRange [] va.toNat bs.length) true none [] with
    | (s1, .error (c, a)) => s1.chanFault r c (BitVec.ofNat 64 a) true
    | (s1, .ok m) =>
      let s2 := s1.updSt fun t => t.release .m
      let old := match s2.me.st.mrun with
        | some q => q.shadow
        | none => []
      if touches m tSync || touches m tHost then .stop (s2.mEncAt r va)
      else
        let (s3, new) := s2.putBytes m r.blk.tag va bs old
        let outside := m.any fun x => match x.pl with
          | .mem _ _ => true
          | .spad _ => false
        let mark := fun (w : Work) => if outside then { w with stage := 2 } else w
        let s4 := (s3.updSt fun t => t.filled (windowGrans [(va, bs.length)]) none).updRun fun q =>
          { q with shadow := s2.freshSide m r.blk.tag new, work := mark q.work }
        .bytes (match s2.staleSide m r.blk.tag with
          | some a => s4.updSt fun t => t.record (r.accessRec .tagStale a r.blk.tag)
          | none => s4) []

/-! ### The frame of a matrix word -/

/-- An extent: the word's field, or a bound register of the snapshot; 0 or more than 128 is ENG_ENC (R47, R50). -/
def Run.extent (r : Run) (f : MFields) (bit : Nat) (fld : BitVec 7) : Option Nat :=
  if f.xsel.getLsbD bit then
    let v := (r.eb (f.ebb + BitVec.ofNat 4 bit)).toNat
    if 1 ≤ v ∧ v ≤ 128 then some v else none
  else some (fld.toNat + 1)

/-- Rows, columns and depth of a word. -/
structure Ext where
  m : Nat
  n : Nat
  k : Nat
  deriving DecidableEq, Repr

/-- The extents of a word, or none. -/
def Run.ext (r : Run) (f : MFields) : Option Ext :=
  match r.extent f 0 f.mx, r.extent f 1 f.nx, r.extent f 2 f.kx with
  | some m, some n, some k => some ⟨m, n, k⟩
  | _, _, _ => none

/-- A matrix word takes its pops and then acts; without its tokens, or without bytes or room in a queue, it leaves the engine
dry (R357). -/
def mBegin (pop : BitVec 4) (check : Run → State → Option Nat) (body : Run → State → State) (s : State) : Out :=
  match s.me.st.mrun with
  | none => .next s
  | some r =>
    match (if r.popped then none else check r s) with
    | some bit => .next (s.updSt fun t => t.blockEnc true r bit)
    | none =>
      match s.popWord true r (mPop pop) with
      | none => .next (s.dry true)
      | some s1 => .next (body { r with popped := true } s1)

/-- A matrix word with extents. -/
def mWord (f : MFields) (check : Run → Ext → State → Option Nat) (body : Run → Ext → State → State) (s : State) : Out :=
  mBegin f.pop (fun r s => match r.ext f with
      | some x => check r x s
      | none => some 0xFFFF)
    (fun r s => match r.ext f with
      | some x => body r x s
      | none => s) s

/-- The word has executed: it pushes its tokens, or keeps them until the entry's lines have flipped in, and the engine
goes on (R189, R127). `wrote` tells whether it made shadow lines. -/
def Strand.mDone (t : Strand) (push : BitVec 4) (wrote : Bool) : Strand :=
  match t.mrun with
  | none => t
  | some r =>
    if wrote then t.setRun true (some { r.advance with pushes := r.pushes ++ [(mPush push, r.info)] })
    else (t.pushFrom .m r.blk.waddr r.info (mPush push)).setRun true (some r.advance)

/-- `mDone` on the strand of `me`. -/
def State.mDone (s : State) (push : BitVec 4) (wrote : Bool) : State := s.updSt fun t => t.mDone push wrote

/-- One more output row is complete; at `total` the word has executed. -/
def State.mRow (s : State) (push : BitVec 4) (total : Nat) (wrote : Bool) : State :=
  let s1 := s.updRun fun r => { r with rows := r.rows + 1 }
  match s1.me.st.mrun with
  | some r => if total ≤ r.rows then s1.mDone push wrote else s1
  | none => s1

/-- The tile of a word at its repetition: (ACC + k × AST) mod 4 (R275). -/
def Run.tileOf (r : Run) (f : MFields) : Nat := (((f.acc.toNat : Int) + r.k * sextNat (f.mod.toNat / 4096) 2) % 4).toNat

/-- Whether the current word has made shadow lines. -/
def State.mWrote (s : State) : Bool :=
  match s.me.st.mrun with
  | some r => decide (r.work.stage = 2)
  | none => false

/-- Bytes appended to a queue destination, where it has room (R283). -/
def State.putQueue (s : State) (dk : MDst) (bs : List Byte) : Option State :=
  match dk with
  | .sq n =>
    if s.me.st.q.room (.sq n) bs.length then some (s.updSt fun t => { t with q := t.q.sqPut n bs }) else none
  | .moq =>
    if s.me.st.q.moq.length + bs.length ≤ Config.queueBytes then
      some (s.updSt fun t => { t with q := { t.q with moq := t.q.moq ++ bs }, vdry := false })
    else none
  | _ => some s

end Sys2Proof.Machine
end

