-- ==== Sys2Proof/Machine/Tiles.lean ====
section
/-!
DEFINITION. The forms of Uslyn-M that R276 lists, NSET, NGO and MREP: products (R277 to R280), loads, stores and
activation (R281 to R285), and the completion of matrix and vector entries (R80, R127).
-/

namespace Sys2Proof.Machine

/-! ### Nests (R272, R273) and repeats -/

/-- `nset chC, lvl, base, stride, count, add=ebN`. -/
def execNset (pop push : BitVec 4) (add : Option (BitVec 4)) (level : BitVec 3) (chan : BitVec 2) (base : BitVec 56)
    (stride : BitVec 24) (cnt : BitVec 11) (s : State) : Out :=
  mBegin pop (fun _ _ => none) (fun r s =>
    let off := match add with
      | some n => r.eb n
      | none => 0
    let v : Level := ⟨base.setWidth 64 + off, stride.signExtend 64, cnt.toNat + 1⟩
    (s.updM fun m =>
      let c := m.chan chan.toNat
      m.setChan chan.toNat { c with shadow := c.shadow.setIfInBounds level.toNat v }).mDone push false) s

/-- NGO on one channel. -/
def Channel.go (c : Channel) : Channel := { c with active := c.shadow, idx := Vector.replicate 6 0 }

/-- `ngo chmask`. -/
def execNgo (pop push chmask : BitVec 4) (s : State) : Out :=
  mBegin pop (fun _ _ => none) (fun _ s =>
    (s.updM fun m =>
      let chans := Vector.ofFn fun (k : Fin 4) => if chmask.getLsbD k.val then (m.chans.get k).go else m.chans.get k
      { m with chans := chans }).mDone push false) s

/-- `mrep ebN, len` (R184). -/
def execMrep (reb : BitVec 4) (len : BitVec 12) (s : State) : Out := repeatWord true reb len.toNat s

/-! ### Operands of a product -/

/-- A byte of the sparsity map. -/
def MState.mapByte (m : MState) (o : Nat) : Nat := (Sp.get m.map o 0).toNat

/-- The bitmap of the row block that holds row `i` (R280). -/
def MState.bitmap (m : MState) (i : Nat) : Nat := leNat ((List.range 16).map fun k => Sp.get m.map (16 * (i / 32) + k) 0)

/-- The two columns that the index entry of group `g` of row `i` names; none where idx0 is not below idx1. -/
def MState.pairOf (m : MState) (i g : Nat) : Option (List Nat) :=
  let nib := m.mapByte (64 + 16 * i + g / 2) / 2 ^ (4 * (g % 2)) % 16
  if nib % 4 < nib / 4 then some [4 * g + nib % 4, 4 * g + nib / 4] else none

/-- The columns of every group of a list, or none. -/
def MState.pairsOf (m : MState) (i : Nat) (gs : List Nat) : Option (List Nat) :=
  match gs with
  | [] => some []
  | g :: r =>
    match m.pairOf i g, m.pairsOf i r with
    | some a, some b => some (a ++ b)
    | _, _ => none

/-- The columns that row `i` of A holds, ascending (R280). -/
def MState.columns (m : MState) (sp : Spar) (i k : Nat) : Option (List Nat) :=
  match sp with
  | .dense => some (List.range k)
  | .s24 => m.pairsOf i (List.range (k / 4))
  | .cvb => some ((List.range k).filter fun c => (m.bitmap i).testBit c)
  | .two => m.pairsOf i ((List.range (k / 4)).filter fun g => (m.bitmap i).testBit g)

/-- Patterns put at their columns from column `c` on; the other columns hold nothing. -/
def spread (cols pats : List Nat) (n c : Nat) : List (Option Nat) :=
  match n with
  | 0 => []
  | n + 1 =>
    match cols, pats with
    | x :: cs, p :: ps => if x = c then some p :: spread cs ps n (c + 1) else none :: spread cols pats n (c + 1)
    | _, _ => none :: spread [] [] n (c + 1)

/-- Element (k, j) of B as the product reads it. -/
def bElem (b : List (List Nat)) (tb : Bool) (k j : Nat) : Nat := if tb then (b.getD j []).getD k 0 else (b.getD k []).getD j 0

/-- BSRC 2: the bias that a bound register gives (R277). -/
def Run.ebBias (r : Run) (f : MFields) : Int := sextNat (r.eb (f.ebb + 3)).toNat 10

/-- R231: whether a header word holds a reserved value. AUX is not among what a matrix word judges (log entry 114). -/
def headerBad (h : Nat) : Bool :=
  decide (27 < h % 32) || decide (h / 32 % 8 ≠ 0) || decide (3 < h / 2 ^ 16 % 256) || decide (4 < h / 2 ^ 24 % 16) ||
    decide (h / 2 ^ 28 % 16 ≠ 0) || (decide (h / 2 ^ 24 % 16 = 4) && decide (22 ≤ h % 32))

/-- A channel `n` rows later. -/
def Channel.later (c : Channel) (n : Nat) : Channel :=
  match n with
  | 0 => c
  | n + 1 => Channel.later c.next n

/-- The address that a channel operand's row takes after `n` others from its channel. -/
def State.rowAddr (s : State) (src : MSrc) (n : Nat) : Word :=
  match src with
  | .ch c => ((s.me.st.m.chan c.toNat).later n).addr
  | _ => 0

/-- Changes what the current word holds. -/
def State.updWork (s : State) (f : Work → Work) : State := s.updRun fun r => { r with work := f r.work }

/-- Reads the next row of B. -/
def bStep (f : MFields) (x : Ext) (r : Run) (s : State) : State :=
  match s.readRow r f.sb f.fb f.acc2.toNat r.work.b.length (if f.tb then x.k else x.n) with
  | .elems s1 l => s1.updWork fun w => { w with b := w.b ++ [l] }
  | .later s1 => s1
  | .stop s1 => s1

/-- Reads row `i` of A: a compressed row holds the values of its columns (R280). -/
def aRow (f : MFields) (x : Ext) (r : Run) (i : Nat) (s : State) : Row :=
  if f.ta then s.readRow r f.sa f.fa f.acc2.toNat i x.m
  else
    match s.me.st.m.columns f.spar i x.k with
    | some cols => s.readRow r f.sa f.fa f.acc2.toNat i cols.length
    | none => .stop (s.mEnc r)

/-- Reads the next row of A ahead of the output rows. -/
def aStep (f : MFields) (x : Ext) (r : Run) (s : State) : State :=
  match aRow f x r r.work.a.length s with
  | .elems s1 l => s1.updWork fun w => { w with a := w.a ++ [l] }
  | .later s1 => s1
  | .stop s1 => s1

/-- Row `i` of A along the depth, from the rows held or from patterns just read; none where it is skipped. -/
def aTerms (f : MFields) (x : Ext) (m : MState) (held : List (List Nat)) (i : Nat) (pats : List Nat) : List (Option Nat) :=
  if f.ta then held.map fun l => some (l.getD i 0)
  else spread ((m.columns f.spar i x.k).getD []) pats x.k 0

/-- Reads the header of an operand: of A, then of B, each 64 bytes below its row 0 (R277). Where both come from one channel,
A's row 0 stands behind the rows of B. -/
def headerStep (f : MFields) (r : Run) (x : Ext) (s : State) : State :=
  let va := (if r.work.hdr ≠ [] then s.rowAddr f.sb 0
    else s.rowAddr f.sa (if f.sa ≠ f.sb then 0 else if f.tb then x.n else x.k)) - 64
  match s.readAt r va 8 1 with
  | .bytes s1 bs => if headerBad (leNat bs) then s1.mEnc r else s1.updWork fun w => { w with hdr := w.hdr ++ [leNat bs] }
  | .later s1 => s1
  | .stop s1 => s1

/-- The bias bA + bB of a product (R277, R233). -/
def productBias (f : MFields) (r : Run) : Int :=
  match bsrc f with
  | 1 => sextNat (r.work.hdr.getD 0 0 / 256) 8 + sextNat (r.work.hdr.getD 1 0 / 256) 8
  | 2 => r.ebBias f
  | _ => 0

/-- Zeroes rows and columns of a tile. -/
def MState.zeroTile (m : MState) (t : Nat) (f : Fmt) (rows cols : Nat) : MState :=
  (List.range rows).foldl (fun m i => m.setTileRow t f i 0 (List.replicate cols 0)) m

/-- R233 on a tile: its bias afterwards and the exponent by which block sums are scaled; none for an I32 tile that would
need a rescale. -/
def MState.takeBias (m : MState) (t : Nat) (f : Fmt) (b : Int) : Option (MState × Int) :=
  match m.getBias t with
  | none => some (m.setBias t (some b), 0)
  | some o => if b = o then some (m, 0) else if f = .i32 then none else some (m, b - o)

/-- The start of an MMAC once it holds B (and the headers): ZA and the tile bias. -/
def mmacStart (f : MFields) (x : Ext) (r : Run) (s : State) : State :=
  let t := r.tileOf f
  let za := f.mod.getLsbD 11
  let m0 := s.me.st.m
  let m1 := if za then (m0.zeroTile t f.fd x.m x.n).setBias t none else m0
  match m1.takeBias t f.fd (productBias f r) with
  | none => s.mEnc r
  | some (m2, sc) => (s.updM fun _ => m2.untag t f.fd x.n).updWork fun w => { w with stage := 1, scale := sc }

/-- Row `i` of a product: every element is the R238 sum of its terms onto the tile. -/
def mmacRow (f : MFields) (x : Ext) (r : Run) (m : MState) (idx i : Nat) (a : List (Option Nat)) : MState :=
  let t := r.tileOf f
  let row := (List.range x.n).map fun j =>
    let terms := (List.range x.k).map fun k =>
      (a.getD k none).map fun p => Val.mul (elemVal f.fa p) (elemVal f.fb (bElem r.work.b f.tb k j))
    let v := (sumBlocks terms (blockCount x.k) (some (elemVal f.fd (m.tile t f.fd i j))) r.work.scale f.fd f.rnd f.ovf idx
      (256 + j) m.gens false).1
    cvtVal (v.getD (.fin false 0 0)) f.fd .rne .wrap
  m.setTileRow t f.fd i 0 row

/-- R233: whether the tile of a product would need a rescale that an I32 tile does not admit. -/
def biasClash (f : MFields) (r : Run) (m : MState) : Bool :=
  !f.mod.getLsbD 11 && (m.takeBias (r.tileOf f) f.fd (productBias f r)).isNone

/-- One step of an MMAC: a header, the check of its bias, a row of B, a row of A ahead, the start, or an output row. -/
def mmacStep (f : MFields) (r : Run) (x : Ext) (s : State) : State :=
  let early := f.ta || decide (f.sa = .acc2)
  if bsrc f = 1 ∧ r.work.hdr.length < 2 then headerStep f r x s
  else if r.work.stage = 0 ∧ biasClash f r s.me.st.m then s.mEnc r
  else if r.work.b.length < (if f.tb then x.n else x.k) then bStep f x r s
  else if early ∧ r.work.a.length < (if f.ta then x.k else x.m) then aStep f x r s
  else if r.work.stage = 0 then mmacStart f x r s
  else
    match (if early then Row.elems s (r.work.a.getD r.rows []) else aRow f x r r.rows s) with
    | .elems s1 l =>
      (s1.updM fun m => mmacRow f x r m s1.me.st.idx r.rows (aTerms f x m r.work.a r.rows l)).mRow f.push x.m false
    | .later s1 => s1
    | .stop s1 => s1

/-- R50: a depth that the word's formats or sparsity do not admit, where a bound register gives it. -/
def depthBad (f : MFields) (quad : Bool) (x : Ext) : Option Nat :=
  if (f.spar = .s24 ∨ f.spar = .two) ∧ x.k % 4 ≠ 0 then some 0xFFFF
  else if quad ∧ (x.k % 32 ≠ 0 ∨ (f.dk = .acc ∧ x.k ≠ 32)) then some 0xFFFF
  else none

/-- `mmac.fa.fb accN, A, B` (R277). -/
def execMmac (f : MFields) (s : State) : Out := mWord f (fun _ x _ => depthBad f false x) (mmacStep f) s

/-! ### Quad partials (R278, R279) -/

/-- Element (i, j) of plane `q`. -/
def MState.plane (m : MState) (q i j : Nat) : Lane := Sp.get m.qpb (16384 * q + 128 * i + j) 0

/-- Writes element (i, j) of plane `q`. -/
def MState.setPlane (m : MState) (q i j : Nat) (v : Lane) : MState := { m with qpb := Sp.set m.qpb (16384 * q + 128 * i + j) v 0 }

/-- The terms of partial (qA, qB), q = 2 qA + qB, over depth block `b`: products of signed magnitudes. -/
def quadTerms (f : MFields) (r : Run) (a : List (Option Nat)) (b q j : Nat) : List (Option Val) :=
  (List.range 32).map fun x =>
    let k := 32 * b + x
    match a.getD k none with
    | none => none
    | some p =>
      let y := bElem r.work.b f.tb k j
      if selectorOf f.fa p = q / 2 ∧ selectorOf f.fb y = q % 2 then some (Val.mul (decodeFmt f.fa p) (decodeFmt f.fb y)) else none

/-- Row `i` of the four planes: one block added onto QPB, or onto zero with ZA. The partials of a row draw in the order of their
planes (log entry 115). -/
def quadRow (f : MFields) (x : Ext) (r : Run) (m : MState) (idx i : Nat) (a : List (Option Nat)) : MState :=
  (List.range 4).foldl (fun m q =>
    (List.range x.n).foldl (fun m j =>
      let old := if f.mod.getLsbD 11 then Val.fin false 0 0 else decodeFmt .f32 (m.plane q i j).toNat
      let (v, g) := sumBlocks (quadTerms f r a 0 q j) 1 (some old) 0 .f32 f.rnd f.ovf idx (256 + j) m.gens false
      { m with gens := g }.setPlane q i j (BitVec.ofNat 32 (cvtVal (v.getD old) .f32 .rne .wrap))) m) m

/-- The bytes of row `i` of partial `q` of depth block `b`, and the generators behind it. -/
def quadBytes (f : MFields) (r : Run) (idx b q : Nat) (a : List (Option Nat)) (n j : Nat) (g : Sp Lane) : List Byte × Sp Lane :=
  match n with
  | 0 => ([], g)
  | n + 1 =>
    let (v, g1) := sumBlocks (quadTerms f r a b q j) 1 none 0 .f32 f.rnd f.ovf idx (256 + j) g false
    let (bs, g2) := quadBytes f r idx b q a n (j + 1) g1
    (leBytes 4 (cvtVal (v.getD (.fin false 0 0)) .f32 .rne .wrap) ++ bs, g2)

/-- One step of an MMACQ: a row of B, a row of A ahead, a row of the planes, or a row of one partial to the queue. -/
def mmacqStep (f : MFields) (r : Run) (x : Ext) (s : State) : State :=
  let toQpb := decide (f.dk = .acc)
  let early := f.ta || !toQpb || decide (f.sa = .acc2)
  if r.work.b.length < (if f.tb then x.n else x.k) then bStep f x r s
  else if early ∧ r.work.a.length < (if f.ta then x.k else x.m) then aStep f x r s
  else if toQpb then
    match (if early then Row.elems s (r.work.a.getD r.rows []) else aRow f x r r.rows s) with
    | .elems s1 l =>
      (s1.updM fun m => quadRow f x r m s1.me.st.idx r.rows (aTerms f x m r.work.a r.rows l)).mRow f.push x.m false
    | .later s1 => s1
    | .stop s1 => s1
  else
    let i := r.rows % x.m
    let m := s.me.st.m
    let a := aTerms f x m r.work.a i (r.work.a.getD i [])
    let (bs, g) := quadBytes f r s.me.st.idx (r.rows / x.m / 4) (r.rows / x.m % 4) a x.n 0 m.gens
    match s.putQueue f.dk bs with
    | none => s.dry true
    | some s1 => (s1.updM fun m => { m with gens := g }).mRow f.push (x.k / 32 * 4 * x.m) false

/-- `mmacq.fa.fb dest, A, B` (R278). -/
def execMmacq (f : MFields) (s : State) : Out := mWord f (fun _ x _ => depthBad f true x) (mmacqStep f) s

/-- A scale entry's exponent for selector `q` (R228). -/
def scaleExp (entry q : Nat) : Int := sextNat (entry / 2 ^ (8 * q)) 8

/-- Row `i` of a fold: the four partials scaled exactly, one rounding onto the tile. -/
def msaccRow (f : MFields) (x : Ext) (r : Run) (ea eb : List Nat) (sc : Int) (m : MState) (i : Nat) : MState :=
  let t := r.tileOf f
  let imm := sextNat f.mod.toNat 10
  let row := (List.range x.n).map fun j =>
    let terms := (List.range 4).map fun q =>
      (decodeFmt .f32 (m.plane q i j).toNat).scale (scaleExp (ea.getD (i / 32) 0) (q / 2) + scaleExp (eb.getD (j / 32) 0) (q % 2) + imm + sc)
    cvtVal (Val.add (decodeFmt .f32 (m.accAt t i j).toNat) (sumVals terms f.rnd) f.rnd) .f32 f.rnd f.ovf
  m.setTileRow t .f32 i 0 row

/-- One step of an MSACC: the entries of A, the entries of B, or the fold. -/
def msaccStep (f : MFields) (r : Run) (x : Ext) (s : State) : State :=
  let read := fun (src : MSrc) (n : Nat) (put : List Nat → Work → Work) =>
    match s.readBytes r src (2 * n) 2 with
    | .bytes s1 bs => s1.updWork (put (unpackNat 16 n (leNat bs)))
    | .later s1 => s1
    | .stop s1 => s1
  if r.work.a = [] then read f.sa (blockCount x.m) fun l w => { w with a := [l] }
  else if r.work.b = [] then read f.sb (blockCount x.n) fun l w => { w with b := [l] }
  else
    let t := r.tileOf f
    match s.me.st.m.takeBias t .f32 0 with
    | none => s.mEnc r
    | some (m1, sc) =>
      let m2 := (List.range x.m).foldl (msaccRow f x r (r.work.a.getD 0 []) (r.work.b.getD 0 []) sc) m1
      (s.updM fun _ => m2.untag t .f32 x.n).mDone f.push false

/-- `msacc accN, A, B, imm=i` (R279). -/
def execMsacc (f : MFields) (s : State) : Out := mWord f (fun _ _ _ => none) (msaccStep f) s

/-! ### Loads (R281, R282) -/

/-- Patterns of a tile row converted with the tile's bias, column generators stepping from column `c` on (R282). -/
def convertRow (f : MFields) (bias : Int) (idx : Nat) (l : List Nat) (c : Nat) (g : Sp Lane) : List Nat × Sp Lane :=
  match l with
  | [] => ([], g)
  | p :: r =>
    let (y, g1) := cvtGen g idx (256 + c) ((elemVal f.fa p).scale bias).toX f.fd f.rnd f.ovf
    let (l', g2) := convertRow f bias idx r (c + 1) g1
    (toStore f.fd y :: l', g2)

/-- Writes row `i`, or column `i` of a transposing load, of a bank from position `j` on. -/
def MState.setBankRow (m : MState) (b : Nat) (f : Fmt) (ta : Bool) (i j : Nat) (l : List Nat) : MState :=
  match l with
  | [] => m
  | p :: r => (if ta then m.setBank b f j i p else m.setBank b f i j p).setBankRow b f ta i (j + 1) r

/-- The bank that a destination names. -/
def bankOf (dk : MDst) : Nat := if dk = .rb true then 1 else 0

/-- One row of an MLOADR. -/
def mloadrStep (f : MFields) (r : Run) (x : Ext) (s : State) : State :=
  match s.readRow r f.sa f.fa f.acc2.toNat r.rows (if f.ta then x.m else x.n) with
  | .elems s1 l =>
    (s1.updM fun m =>
      let (l', g) := if f.sa = .acc2 then convertRow f ((m.getBias f.acc2.toNat).getD 0) s1.me.st.idx l 0 m.gens
        else (l.map fun p => toStore f.fd (ofStore f.fd p), m.gens)
      { m.dropStruct with gens := g }.setBankRow (bankOf f.dk) f.fd f.ta r.rows 0 l').mRow f.push (if f.ta then x.n else x.m) false
  | .later s1 => s1
  | .stop s1 => s1

/-- `mloadr.fa.fd rbN, A` (R282). -/
def execMloadr (f : MFields) (s : State) : Out := mWord f (fun _ _ _ => none) (mloadrStep f) s

/-- Bytes as a sparse table from offset `o` on. -/
def tableOf (bs : List Byte) (o : Nat) : Sp Byte :=
  match bs with
  | [] => []
  | b :: r => if b = 0 then tableOf r (o + 1) else (o, b) :: tableOf r (o + 1)

/-- `mloads A` (R281): the whole map buffer. -/
def execMloads (f : MFields) (s : State) : Out :=
  mBegin f.pop (fun _ _ => none) (fun r s =>
    match s.readBytes r f.sa 2112 16 with
    | .bytes s1 bs => (s1.updM fun m => { m with map := tableOf bs 0 }).mDone f.push false
    | .later s1 => s1
    | .stop s1 => s1) s

/-- Zeroes rows and columns of the four planes: every element of the region that is not zero already. -/
def MState.zeroPlanes (m : MState) (rows cols : Nat) : MState :=
  let zero := fun (t : Sp Lane) (k : Nat) => if k / 128 % 128 < rows ∧ k % 128 < cols then Sp.set t k 0 0 else t
  { m with qpb := (m.qpb.map fun x => x.1).foldl zero m.qpb }

/-- `mzero accN, q=b` (R285). -/
def execMzero (f : MFields) (s : State) : Out :=
  mWord f (fun _ _ _ => none) (fun r x s =>
    (s.updM fun m =>
      if f.mod.getLsbD 0 then m.zeroPlanes x.m x.n
      else (((m.zeroTile (r.tileOf f) .f32 x.m x.n).setBias (r.tileOf f) none).setStag (r.tileOf f) 0)).mDone f.push false) s

/-! ### Stores and activation (R283, R284) -/

/-- FN of MACT and of RELAX (R284, R292): the number before conversion. -/
def actFn (fn : Nat) (lo hi : Val) (v : Val) : XVal :=
  match fn with
  | 1 => if Val.lt v (.fin false 0 0) then .num ⟨false, 0, 0, false⟩ else v.toX
  | 2 =>
    if v = .nan then .nan
    else if Val.lt hi lo then hi.toX
    else
      let a := if Val.lt v lo then lo else v
      (if Val.lt hi a then hi else a).toX
  | 3 => fnTanh v
  | 4 => fnSig v
  | _ => v.toX

/-- The clamp bounds. -/
def RelaxRegs.bounds (x : RelaxRegs) : Val × Val := (decodeFmt .f32 x.xclo.toNat, decodeFmt .f32 x.xchi.toNat)

/-- sat(tile bias, 8): the BIAS that a stored header holds (R233). -/
def headerBias (b : Int) : Int := satSigned b 8

/-- Row `r` of a store (column `r` with TA) from position `c` on: scaled, through FN, converted under the generator of the
element's column. -/
def storeRow (f : MFields) (m : MState) (t fn : Nat) (sc : Int) (idx r n c : Nat) (g : Sp Lane) : List Nat × Sp Lane :=
  match n with
  | 0 => ([], g)
  | n + 1 =>
    let (i, j) := if f.ta then (c, r) else (r, c)
    let v := (elemVal f.fa (m.tile t f.fa i j)).scale sc
    let (y, g1) := cvtGen g idx (256 + j) (actFn fn m.rx.bounds.1 m.rx.bounds.2 v) f.fd f.rnd f.ovf
    let (l, g2) := storeRow f m t fn sc idx r n (c + 1) g1
    (toStore f.fd y :: l, g2)

/-- The tile bias of a store's tile; unset counts 0. -/
def MState.biasOr0 (m : MState) (t : Nat) : Int := (m.getBias t).getD 0

/-- The header word that MSTORE writes. -/
def storeHeader (fd : Fmt) (bw : Int) : Nat := fmtCode fd + wrapNat bw 8 * 256

/-- Bytes that `bytes` bytes from an address on add to those that an entry will make, with no value yet; a fault of the
address, or none where the row cannot be written at all. -/
def State.rowShape (s : State) (tag : BitVec 20) (va : Word) (bytes align : Nat) (acc : List ShadowByte) :
    Except (Option (Cause × Nat)) (List ShadowByte) :=
  if va.toNat % align ≠ 0 then .error none
  else
    match (s.mapAll (addRange [] va.toNat bytes) true none []).2 with
    | .error x => .error (some x)
    | .ok m =>
      if touches m tSync || touches m tHost then .error none
      else .ok (s.freshSide m tag (s.putBytes m tag va (List.replicate bytes 0) acc).2)

/-- The shape of the rows of an MSTORE from its next channel address on, as far as they can be written, and the fault of the
row behind them. -/
def State.rowsShape (s : State) (tag : BitVec 20) (c : Channel) (n bytes align : Nat) (acc : List ShadowByte) :
    List ShadowByte × Option (Cause × Nat) :=
  match n with
  | 0 => (acc, none)
  | n + 1 =>
    match s.rowShape tag c.addr bytes align acc with
    | .error x => (acc, x)
    | .ok l => s.rowsShape tag c.next n bytes align l

/-- R165: an MSTORE that is about to write reserves the lines and cells of all its rows, and of its header where it has one,
together; without room it waits and holds nothing of its own. As with a copy, translation comes first: a fault of a row that
the front end may service is held here (log entry 120). -/
def State.reserveRows (s : State) (r : Run) (hdr : Option Word) (c : Channel) (n bytes align : Nat) : Got :=
  if r.work.hold ≠ [] then .bytes s []
  else if s.heldNow .m then .later s
  else
    let first := match hdr with
      | some va => s.rowShape r.blk.tag va 8 1 r.shadow
      | none => .ok r.shadow
    let got := match first with
      | .error x => (r.shadow, x)
      | .ok l => s.rowsShape r.blk.tag c n bytes align l
    let faults := match got.2 with
      | some (e, a) => serviceable e && !s.me.st.declined .m (BitVec.ofNat 64 a)
      | none => false
    match got.2, faults with
    | some (e, a), true => s.chanFault r e (BitVec.ofNat 64 a) true
    | _, _ =>
      if s.shadowFits r.shadow got.1 then .bytes (s.updWork fun w => { w with hold := got.1 }).l2Yield []
      else .later s

/-- The header of an MSTORE, 64 bytes below row 0 (R283). -/
def storeHead (f : MFields) (r : Run) (ch : Nat) (bw : Int) (s : State) : State :=
  match s.writeAt r ((s.me.st.m.chan ch).addr - 64) (leBytes 8 (storeHeader f.fd bw)) 1 with
  | .bytes s1 _ => s1.updWork fun w => { w with hdr := [1] }
  | .later s1 => s1
  | .stop s1 => s1

/-- One step of an MSTORE to memory: the reservation, the header, or a row. -/
def mstoreMem (f : MFields) (r : Run) (rows : Nat) (bw : Int) (bs : List Byte) (g : Sp Lane) (s : State) : State :=
  let ch := f.mod.toNat / 256 % 4
  let c := s.me.st.m.chan ch
  let head := f.mod.getLsbD 3 && decide (r.work.hdr = [])
  match (if r.rows = 0 then s.reserveRows r (if head then some (c.addr - 64) else none) c rows bs.length (rowAlign f.fd) else .bytes s []) with
  | .later s1 => s1
  | .stop s1 => s1
  | .bytes s0 _ =>
    if head then storeHead f r ch bw s0
    else
      match s0.writeAt r c.addr bs (rowAlign f.fd) with
      | .bytes s1 _ =>
        let s2 := s1.updM fun m => { m.setChan ch (m.chan ch).next with gens := g }
        s2.mRow f.push rows s2.mWrote
      | .later s1 => s1
      | .stop s1 => s1

/-- One step of an MSTORE: the next row, to memory or to a queue. -/
def mstoreStep (f : MFields) (r : Run) (x : Ext) (s : State) : State :=
  let m := s.me.st.m
  let t := r.tileOf f
  let bw := if f.mod.getLsbD 3 then headerBias (m.biasOr0 t) else 0
  let rows := if f.ta then x.n else x.m
  if f.mod.getLsbD 3 ∧ r.work.hdr = [] ∧ f.fa = .i32 ∧ m.biasOr0 t ≠ bw then s.mEnc r
  else
    let (l, g) := storeRow f m t 0 (m.biasOr0 t - bw) s.me.st.idx r.rows (if f.ta then x.m else x.n) 0 m.gens
    let bs := rowPack f.fd l
    match f.dk with
    | .acc => mstoreMem f r rows bw bs g s
    | dk =>
      match s.putQueue dk bs with
      | none => s.dry true
      | some s1 => (s1.updM fun m => { m with gens := g }).mRow f.push rows false

/-- `mstore.fa.fd dest, accN, hw=b` (R283). -/
def execMstore (f : MFields) (s : State) : Out := mWord f (fun _ _ _ => none) (mstoreStep f) s

/-- One row of a MACT. -/
def mactStep (f : MFields) (r : Run) (x : Ext) (s : State) : State :=
  let m := s.me.st.m
  let t := r.tileOf f
  let (l, g) := storeRow f m t (f.mod.toNat / 16 % 16) (m.biasOr0 t) s.me.st.idx r.rows x.n 0 m.gens
  match f.dk with
  | .acc =>
    (s.updM fun m =>
      let m1 := { m with gens := g }.setTileRow t f.fd r.rows 0 l
      if x.m ≤ r.rows + 1 then (m1.setBias t none).setStag t 0 else m1.setStag t 0).mRow f.push x.m false
  | .rb b => (s.updM fun m => { m.dropStruct with gens := g }.setBankRow b.toNat f.fd false r.rows 0 l).mRow f.push x.m false
  | dk =>
    match s.putQueue dk (rowPack f.fd l) with
    | none => s.dry true
    | some s1 => (s1.updM fun m => { m with gens := g }).mRow f.push x.m false

/-- `mact.fa.fd dest, accN, fn=f` (R283, R284). -/
def execMact (f : MFields) (s : State) : Out := mWord f (fun _ _ _ => none) (mactStep f) s

/-! ### Completion of entries (R80, R127) -/

/-- One line of a matrix entry flips in at its home; a line that cannot be written is discarded and recorded (R274). -/
def State.mFlipLine (s : State) (r : Run) (x : Nat × List ShadowByte) : State :=
  let va := match x.2 with
    | b :: _ => b.va
    | [] => 0
  let tag := r.blk.tag
  let bad := match s.unbacked (64 * x.1) with
    | some c => some c
    | none => if decide (x.2.length ≠ 64) && s.linePoisoned x then some .memPoison else none
  match bad with
  | some c => s.updSt fun t => t.record (r.accessRec c va tag)
  | none => (s.flipLine x).1

/-- The virtual address at which a run of bytes was written. -/
def runVa (l : List ShadowByte) (a : Nat) : Word :=
  match l.find? fun b => decide (b.pa = a) with
  | some b => b.va
  | none => 0

/-- The bytes `l` of a matrix entry for other packages go out as window stores; those that find the pair full stay. -/
def State.mSend (s : State) (r : Run) (l : List ShadowByte) (runs left : List (Nat × List Byte)) : State × List (Nat × List Byte) :=
  match runs with
  | [] => (s, left)
  | x :: rest =>
    match s.requestAt (runVa l x.1) (windowPkg x.1) 0 .m r.blk.seq (.store (windowOff x.1) x.2) with
    | .now s1 (.ok _) => s1.mSend r l rest left
    | .now s1 (.error c) => (s1.updSt fun t => t.record (r.accessRec c (runVa l x.1) 0)).mSend r l rest left
    | .away s1 => s1.mSend r l rest left
    | .full => s.mSend r l rest (left ++ [x])

/-- Whether the matrix entry of `me` waits for answers of other packages. -/
def State.mReplies (s : State) : Bool := s.awaitsEntry .m none

/-- Pushes a list of masks. -/
def Strand.pushAll (t : Strand) (waddr : Word) (l : List (Nat × Word)) : Strand :=
  l.foldl (fun t x => t.pushFrom .m waddr x.2 x.1) t

/-- Lines of one home flip in: the home that the turn names, or the first that has lines. Bytes of a publishable region go
into the half that is the shadow half now (R136). -/
def State.mFlipHome (s : State) (r : Run) : State :=
  let homes := r.shadow.map fun b => flipHome b.pa
  let pick := match s.input with
    | h :: _ => if homes.contains h then h else homes.headD 0
    | [] => homes.headD 0
  let (here, rest) := r.shadow.partition fun b => decide (flipHome b.pa = pick)
  if pick = 24 then
    let (s1, left) := s.mSend r here ((byLine here).flatMap fun x => shadowRuns x.2) []
    let keep := here.filter fun b => left.any fun x => decide (x.1 ≤ b.pa) && decide (b.pa < x.1 + x.2.length)
    s1.updRun fun q => { q with shadow := rest ++ keep }
  else ((byLine (s.settled here)).foldl (fun s x => s.mFlipLine r x) s).updRun fun q => { q with shadow := rest }

/-- ENTRY_COMPLETE: an entry pushes its tokens and leaves its engine. A matrix entry's shadow lines flip in first, one
home at a time. -/
def execEntryComplete (e : Eng) (s : State) : Out :=
  match e with
  | .c => .next s
  | .v =>
    (match s.me.st.vrun with
     | some r => if r.blk.len ≤ r.off then .next (s.updSt fun t => { t with vrun := none }) else .next s
     | none => .next s)
  | .m =>
    (match s.me.st.mrun with
     | some r =>
       if r.off < r.blk.len then .next s
       else if r.shadow ≠ [] then .next (s.mFlipHome r)
       else if s.mReplies then .next s
       else .next (s.updSt fun t => ((t.pushAll r.blk.waddr r.pushes).setRun true none).mprogOff true)
     | none => .next s)
  | e => .next (s.completeEntry e)

end Sys2Proof.Machine
end

