-- ==== Sys2Proof/Machine/Relax.lean ====
section
/-!
DEFINITION. Relaxation (R290 to R323): RELAX and RELAXB, alone and in groups, the relaxation registers through MXSET and
MXREAD, MPATCH, and the sparse resident structure.
-/

namespace Sys2Proof.Machine

/-! ### XMODE (R298) -/

/-- ACCEL. -/
def RelaxRegs.accel (x : RelaxRegs) : Nat := x.xmode.toNat % 4

/-- NORM: true for L2. -/
def RelaxRegs.l2 (x : RelaxRegs) : Bool := x.xmode.getLsbD 2

/-- FN. -/
def RelaxRegs.fn (x : RelaxRegs) : Nat := x.xmode.toNat / 16 % 8

/-- KEEP. -/
def RelaxRegs.keep (x : RelaxRegs) : Bool := x.xmode.getLsbD 11

/-- Members along one side of the grid: GSZ + 1. -/
def RelaxRegs.side (x : RelaxRegs) : Nat := x.xmode.toNat / 2 ^ 12 % 4 + 1

/-- Members of the group (R307). -/
def RelaxRegs.members (x : RelaxRegs) : Nat := x.side * x.side

/-- GBASE. -/
def RelaxRegs.gbase (x : RelaxRegs) : Nat := x.xmode.toNat / 2 ^ 14 % 64

/-- GPOS. -/
def RelaxRegs.gpos (x : RelaxRegs) : Nat := x.xmode.toNat / 2 ^ 20 % 16

/-- XMODE outside GPOS. -/
def RelaxRegs.modeBare (x : RelaxRegs) : Nat := x.xmode.toNat % 2 ^ 20 + x.xmode.toNat / 2 ^ 24 * 2 ^ 24

/-! ### One iteration of one row (R291 to R294) -/

/-- What a solve takes from the relaxation registers and the word. -/
structure RelaxCfg where
  back : Bool
  rx : RelaxRegs
  rnd : Rnd
  ovf : Ovf
  bias : Int
  deriving DecidableEq, Repr

/-- A batch row with everything that the iteration keeps for it; `bad` and `nan` tell what this word found. -/
structure RowSt where
  x : List Nat
  h1 : List Nat
  h2 : List Nat
  dpl : List Nat
  res : Lane
  ah0 : Lane
  ah1 : Lane
  ah2 : Lane
  ah3 : Lane
  cnt : BitVec 16
  damp : Lane
  ret : Bool
  div : Bool
  bad : Bool
  nan : Bool
  deriving DecidableEq, Repr

/-- The value of an F32 pattern. -/
def f32Val (p : Nat) : Val := decodeFmt .f32 p

/-- The value of an F32 lane. -/
def laneVal (l : Lane) : Val := decodeFmt .f32 l.toNat

/-- An F32 pattern as a lane. -/
def toLane (p : Nat) : Lane := BitVec.ofNat 32 p

/-- +∞ in F32. -/
def infLane : Lane := 0x7F800000

/-- cvt to F32 under the word's rounding and overflow. -/
def RelaxCfg.cvt (c : RelaxCfg) (v : Val) : Nat := cvtVal v .f32 c.rnd c.ovf

/-- a − b, exact. -/
def RelaxCfg.sub (c : RelaxCfg) (a b : Val) : Val := Val.add a b.neg c.rnd

/-- F′ in F8E4 (R292). -/
def derivative (x : RelaxRegs) (z : Val) : Nat :=
  if z = .nan then 0x7F
  else
    let one := fun (b : Bool) => if b then 0x38 else 0
    match x.fn, z with
    | 0, _ => 0x38
    | 1, z => one (Val.lt (.fin false 0 0) z)
    | 2, z => one (Val.lt x.bounds.1 z && Val.lt z x.bounds.2)
    | 3, .fin _ m e => cvt (.num (dtanhApprox m e)) .f8e4 .rne .wrap 0
    | 4, .fin _ m e => cvt (.num (dsigApprox m e)) .f8e4 .rne .wrap 0
    | _, _ => 0

/-- The new values of a row: F of the sum for RELAX, the sum itself for RELAXB; with z. `w j k` is the weight that output
j gives to state k, or nothing where the structure has no entry. -/
def relaxValue (c : RelaxCfg) (w : Nat → Nat → Option Val) (u : Nat → Val) (xs : List Val) (ds : List Nat) (j : Nat) : Val × Val :=
  let terms := (List.range xs.length).map fun k =>
    (if c.back then w k j else w j k).map fun a =>
      let y := xs.getD k .nan
      if c.back then Val.mul (Val.mul a (decodeFmt .f8e4 (ds.getD k 0))) y else Val.mul a y
  let z := ((sumBlocks terms (blockCount xs.length) (some (u j)) c.bias .f32 c.rnd c.ovf 0 0 [] false).1).getD (.fin false 0 0)
  if c.back then (z, z)
  else (z, f32Val (cvt (actFn c.rx.fn c.rx.bounds.1 c.rx.bounds.2 z) .f32 c.rnd c.ovf 0))

/-- The quotient of two exact values. -/
def Val.quot (a b : Val) : XVal :=
  match a, b with
  | .nan, _ => .nan
  | _, .nan => .nan
  | .inf _, .inf _ => .nan
  | .inf n, .fin m _ _ => .inf (n != m)
  | .fin n _ _, .inf m => .num ⟨n != m, 0, 0, false⟩
  | .fin n x e, .fin m y f => if x = 0 then .num ⟨n != m, 0, 0, false⟩ else .num (quotApprox (n != m) x y (e - f))

/-- The acceleration step (R293): the new state, and the histories. -/
def accelerate (c : RelaxCfg) (first : Bool) (r : RowSt) (xs vs : List Val) : List Nat × List Nat × List Nat :=
  let plain := vs.map fun v => cvtVal v .f32 .rne .wrap
  match c.rx.accel with
  | 0 => (plain, r.h1, r.h2)
  | 3 =>
    let g := List.zipWith (fun v x => c.cvt (c.sub v x)) vs xs
    let d := List.zipWith (fun a h => Val.add (f32Val a) (f32Val h).neg .rne) g r.h2
    let num := sumVals (List.zipWith (fun a b => Val.mul (f32Val a) b) g d) .rne
    let den := sumVals (d.map fun b => Val.mul b b) .rne
    let gam := if den.isZero then Val.fin false 0 0 else f32Val (cvt (Val.quot num den) .f32 .rne .sat 0)
    let xn := if first then plain
      else List.zipWith (fun v h => c.cvt (c.sub v (Val.mul gam (c.sub v (f32Val h))))) vs r.h1
    (xn, plain, g)
  | _ =>
    let w := laneVal r.damp
    (List.zipWith (fun x v => c.cvt (Val.add x (Val.mul w (c.sub v x)) c.rnd)) xs vs, r.h1, r.h2)

/-- The square root of an exact value that is not negative. -/
def Val.root : Val → XVal
  | .nan => .nan
  | .inf n => if n then .nan else .inf false
  | .fin n m e => if m = 0 then .num ⟨n, 0, 0, false⟩ else .num (sqrtApprox m 1 e)

/-- The residual (R294). -/
def residual (c : RelaxCfg) (xs : List Val) (xn : List Nat) : Nat :=
  let ds := List.zipWith (fun p x => Val.add (f32Val p) x.neg .rne) xn xs
  if c.rx.l2 then cvt (Val.root (sumVals (ds.map fun d => Val.mul d d) .rne)) .f32 c.rnd c.ovf 0
  else if anyNan ds then cvtVal .nan .f32 .rne .wrap
  else c.cvt (ds.foldl (fun a d => Val.max a d.abs) (.fin false 0 0))

/-- Adaptive damping (R293). -/
def nextDamp (c : RelaxCfg) (damp prev res : Lane) : Lane :=
  match c.rx.accel, laneVal prev with
  | 2, .fin _ _ _ =>
    let w := laneVal damp
    if Val.lt (laneVal prev) (laneVal res) then toLane (cvtVal (Val.max (w.scale (-1)) (.fin false 1 (-16))) .f32 .rne .wrap)
    else toLane (cvtVal (Val.min (f32Val (cvtVal (Val.mul w (.fin false 9 (-3))) .f32 .rne .sat)) (.fin false 1 0)) .f32 .rne .wrap)
  | _, _ => damp

/-- The retirement tests (R294), on a row whose residual has been recorded. -/
def retireTests (c : RelaxCfg) (r : RowSt) : RowSt :=
  let res := laneVal r.res
  let grew := fun (a b : Lane) => Val.lt (Val.mul (laneVal c.rx.xgrow) (laneVal b)) (laneVal a)
  if res = .nan ∨ res = .inf false then { r with ret := true, div := true, bad := true, nan := true }
  else if grew r.res r.ah0 && grew r.ah0 r.ah1 && grew r.ah1 r.ah2 then { r with ret := true, div := true, bad := true }
  else if c.rx.xmin.toNat ≤ r.cnt.toNat ∧ Val.le res (laneVal c.rx.xtol) then { r with ret := true }
  else r

/-- One iteration of a live row (R291, R316). -/
def relaxRow (c : RelaxCfg) (w : Nat → Nat → Option Val) (u : Nat → Val) (first : Bool) (r : RowSt) : RowSt :=
  let xs := r.x.map f32Val
  let zv := (List.range xs.length).map (relaxValue c w u xs r.dpl)
  let (xn, h1, h2) := accelerate c first r xs (zv.map fun p => p.2)
  let res := toLane (residual c xs xn)
  let dpl := if c.back then r.dpl else zv.map fun p => derivative c.rx p.1
  retireTests c
    { r with x := xn, h1 := h1, h2 := h2, dpl := dpl, ah3 := r.ah2, ah2 := r.ah1, ah1 := r.ah0, ah0 := r.res, res := res,
             cnt := if r.cnt = 65535 then 65535 else r.cnt + 1, damp := nextDamp c r.damp r.res res }

/-- Iterations until no row is live, `n` at most; counts them. -/
def relaxLoop (c : RelaxCfg) (w : Nat → Nat → Option Val) (u : Nat → Nat → Val) (n done : Nat) (rows : List RowSt) : List RowSt × Nat :=
  match n with
  | 0 => (rows, done)
  | n + 1 =>
    if rows.all fun r => r.ret then (rows, done)
    else
      let step := fun (b : Nat) (r : RowSt) => if r.ret then r else relaxRow c w (u b) (decide (done = 0)) r
      relaxLoop c w u n (done + 1) ((List.range rows.length).map fun b => match rows[b]? with
        | some r => step b r
        | none => ⟨[], [], [], [], 0, 0, 0, 0, 0, 0, 0, true, false, false, false⟩)

/-! ### One member's part -/

/-- What the RELAX or RELAXB word of a strand presents: its word, its run, its extents. -/
structure Member where
  f : MFields
  back : Bool
  r : Run
  x : Ext
  m : MState
  idx : Nat
  die : Nat

/-- WS of a RELAX (R300). -/
def Member.ws (q : Member) : Bool := !q.back && q.f.mod.getLsbD 11

/-- The bias of W (R290). -/
def Member.bias (q : Member) : Int :=
  match q.m.struct with
  | some st => st.bias
  | none => if bsrc q.f = 2 then q.r.ebBias q.f else 0

/-- Whether the word may start warm (R295, R317). -/
def Member.warm (q : Member) : Bool :=
  q.ws && decide (q.m.getStag q.f.acc.toNat ≠ 0) && decide (q.m.getStag q.f.acc.toNat = q.m.rx.xstruct)

/-- W[j][k] of the member's own block: a bank element, or an entry of the structure. -/
def Member.weight (q : Member) (j k : Nat) : Option Val :=
  match q.m.struct with
  | some st => (st.entries.find? fun e => decide (e.1 = j) && decide (e.2.1 = k)).map fun e => decodeFmt q.f.fa e.2.2.toNat
  | none => some (elemVal q.f.fa (q.m.bank (decide (q.f.sa = .rb true)).toNat q.f.fa j k))

/-- u or g of the member's own block. -/
def Member.inject (q : Member) (b j : Nat) : Val :=
  match q.f.sb with
  | .acc2 => (laneVal (q.m.accAt q.f.acc2.toNat b j)).scale (q.m.biasOr0 q.f.acc2.toNat)
  | _ => f32Val ((q.r.work.a.getD b []).getD j 0)

/-- The F32 patterns of row `b` of a tile. -/
def MState.tileRow (m : MState) (t b n : Nat) : List Nat := (List.range n).map fun j => (m.accAt t b j).toNat

/-- Row `b` of the derivative plane. -/
def MState.dplRow (m : MState) (b n : Nat) : List Nat := (List.range n).map fun j => (Sp.get m.dpl (128 * b + j) 0).toNat

/-- Which member of a group gives the state block `j`, and which column block a member holds (R308). -/
def blockOwner (struct : Bool) (side j : Nat) : Nat := if struct then j else j * side + j

/-- The block of the state that the member at a position holds. -/
def blockOf (struct : Bool) (side p : Nat) : Nat := if struct then p else p % side

/-- The logical length (R307). -/
def logicalLen (struct : Bool) (x : RelaxRegs) (n : Nat) : Nat :=
  if x.members = 1 then n else 128 * (if struct then x.members else x.side)

/-- The blocks that make up the logical length. -/
def blockCountOf (struct : Bool) (x : RelaxRegs) : Nat := if x.members = 1 then 1 else if struct then x.members else x.side

/-- The register rows as the start leaves them (R295). -/
def startRow (q : Member) (gs : List Member) (warm : Bool) (n : Nat) (b : Nat) : RowSt :=
  let rx := q.m.rx
  let struct := q.m.struct.isSome
  let owner := fun (j : Nat) => gs.getD (blockOwner struct rx.side j) q
  let cat := fun (f : Member → List Nat) => (List.range (blockCountOf struct rx)).flatMap fun j => f (owner j)
  let keep := warm && rx.keep
  let x := cat fun p => p.m.tileRow p.f.acc.toNat b n
  { x := if warm then x else x.map fun _ => 0
    h1 := cat fun p => p.m.tileRow (p.f.acc.toNat + 2) b n
    h2 := cat fun p => p.m.tileRow (p.f.acc.toNat + 3) b n
    dpl := cat fun p => p.m.dplRow b n
    res := if keep then Sp.get rx.xres b 0 else infLane
    ah0 := if keep then Sp.get rx.xah0 b 0 else infLane
    ah1 := if keep then Sp.get rx.xah1 b 0 else infLane
    ah2 := if keep then Sp.get rx.xah2 b 0 else infLane
    ah3 := if keep then Sp.get rx.xah3 b 0 else infLane
    cnt := if keep then Sp.get rx.xcnt b 0 else 0
    damp := Sp.get rx.xdamp b 0
    ret := keep && rx.xret.getLsbD b
    div := keep && rx.xdiv.getLsbD b
    bad := false
    nan := false }

/-- The outcome of a solve. -/
structure Solved where
  rows : List RowSt
  iters : Nat
  warm : Bool
  deriving DecidableEq, Repr

/-- A solve over the members of a group, by position; one member is a group of its own (R291, R308, R316, R319). -/
def solve (gs : List Member) (q : Member) : Solved :=
  let rx := q.m.rx
  let struct := q.m.struct.isSome
  let n := q.x.n
  let warm := gs.all fun p => p.warm
  let c : RelaxCfg := ⟨q.back, rx, q.f.rnd, q.f.ovf, q.bias⟩
  let w := fun (j k : Nat) =>
    if rx.members = 1 then q.weight j k
    else if struct then (gs.getD (j / 128) q).weight (j % 128) k
    else (gs.getD (j / 128 * rx.side + k / 128) q).weight (j % 128) (k % 128)
  let u := fun (b j : Nat) =>
    if rx.members = 1 then q.inject b j else (gs.getD (blockOwner struct rx.side (j / 128)) q).inject b (j % 128)
  let rows := (List.range q.x.m).map (startRow q gs warm n)
  let (out, it) := relaxLoop c w u rx.xlim.toNat 0 rows
  ⟨out, it, warm⟩

/-- One bit of a 128-bit mask replaced. -/
def setBit128 (v : BitVec 128) (k : Nat) (b : Bool) : BitVec 128 :=
  if b then v ||| BitVec.ofNat 128 (2 ^ k) else v &&& ~~~(BitVec.ofNat 128 (2 ^ k))

/-- The per-row registers of row `b` take a row's values. -/
def RelaxRegs.putRow (x : RelaxRegs) (b : Nat) (r : RowSt) : RelaxRegs :=
  { x with xres := Sp.set x.xres b r.res 0, xcnt := Sp.set x.xcnt b r.cnt 0, xah0 := Sp.set x.xah0 b r.ah0 0,
           xah1 := Sp.set x.xah1 b r.ah1 0, xah2 := Sp.set x.xah2 b r.ah2 0, xah3 := Sp.set x.xah3 b r.ah3 0,
           xdamp := Sp.set x.xdamp b r.damp 0, xret := setBit128 x.xret b r.ret, xdiv := setBit128 x.xdiv b r.div }

/-- Bytes put into a row of the derivative plane from column `j` on. -/
def putDpl (d : Sp Byte) (b j : Nat) (l : List Nat) : Sp Byte :=
  match l with
  | [] => d
  | x :: r => putDpl (Sp.set d (128 * b + j) (BitVec.ofNat 8 x) 0) b (j + 1) r

/-- A member takes its part of row `b`: its block of the state, the derivative plane, the histories. -/
def MState.takeRow (m : MState) (q : Member) (b blk n : Nat) (r : RowSt) : MState :=
  let cut := fun (l : List Nat) => (l.drop (blk * n)).take n
  let t := q.f.acc.toNat
  let m1 := m.setTileRow t .f32 b 0 (cut r.x)
  let m2 := if q.back then m1 else { m1 with dpl := putDpl m1.dpl b 0 (cut r.dpl) }
  let m3 := if q.m.rx.accel = 3 then (m2.setTileRow (t + 2) .f32 b 0 (cut r.h1)).setTileRow (t + 3) .f32 b 0 (cut r.h2) else m2
  { m3 with rx := m3.rx.putRow b r }

/-- RELAXB with out=dy: ACC := d ⊙ y, an exact zero giving +0 (R317). -/
def MState.weightRow (m : MState) (q : Member) (b n : Nat) : MState :=
  let t := q.f.acc.toNat
  m.setTileRow t .f32 b 0 ((List.range n).map fun j =>
    let v := Val.mul (decodeFmt .f8e4 (Sp.get m.dpl (128 * b + j) 0).toNat) (laneVal (m.accAt t b j))
    if v.isZero then 0 else cvtVal v .f32 q.f.rnd q.f.ovf)

/-- XSTAT at the end of a word (R294, R295, R299). -/
def statAfter (old : Word) (ws : Bool) (o : Solved) : Word :=
  let any := fun (f : RowSt → Bool) => (o.rows.any f).toNat
  let low := any (fun r => !r.ret) + 2 * any (fun r => r.bad) + 4 * any (fun r => r.nan) +
    8 * (ws && !o.warm).toNat
  BitVec.ofNat 64 (old.toNat / 2 ^ 32 * 2 ^ 32 + old.toNat / 16 % 2 ^ 12 * 16 + low + o.iters * 2 ^ 16)

end Sys2Proof.Machine
end

