-- ==== Sys2Proof/Machine/RelaxWords.lean ====
section
/-!
DEFINITION. The words of relaxation: RELAX and RELAXB with their start, their groups (R307 to R309) and their end (R310,
R317), MXSET and MXREAD (R302, R303), MPATCH (R304), and the structure image (R305).
-/

namespace Sys2Proof.Machine

/-! ### RELAX and RELAXB -/

/-- R301: the run-time cases in which the word has no effect, by the lowest bit of the offending field. -/
def relaxCheck (f : MFields) (_r : Run) (x : Ext) (s : State) : Option Nat :=
  let m := s.me.st.m
  if x.k ≠ x.n then some 0xFFFF
  else if m.rx.members ≠ 1 ∧ x.n ≠ 128 then some 0xFFFF
  else if m.rx.members = 1 ∧ m.rx.gpos ≠ 0 then some 0xFFFF
  else if m.rx.accel = 3 ∧ f.sb = .acc2 ∧ (f.acc2 = f.acc + 2 ∨ f.acc2 = f.acc + 3) then some 153
  else
    match m.struct with
    | none => none
    | some st =>
      if f.fa ≠ st.fmt then some 171
      else if bsrc f ≠ 0 then some 94
      else if st.nrows ≠ x.n ∨ st.ncols ≠ logicalLen true m.rx x.n then some 0xFFFF
      else none

/-- The RELAX or RELAXB word at which a cluster's matrix engine stands. -/
def Cluster.member (c : Cluster) : Option Member :=
  match c.st.mrun, c.st.matrixWord with
  | some r, some (.relax f) => (r.ext f).map fun x => ⟨f, false, r, x, c.st.m, c.st.idx, c.die⟩
  | some r, some (.relaxb f) => (r.ext f).map fun x => ⟨f, true, r, x, c.st.m, c.st.idx, c.die⟩
  | _, _ => none

/-- The clusters that run the strands of the group of one of them (R307). -/
def State.groupOf (s : State) (d : Cluster) : List Cluster :=
  let rx := d.st.m.rx
  s.clusters.filter fun c => decide (c.status ≠ .idle) && decide (c.st.vi = d.st.vi) && decide (c.st.node = d.st.node) &&
    decide (rx.gbase ≤ c.st.idx) && decide (c.st.idx < rx.gbase + rx.members)

/-- The clusters that run the strands of the group of `me` (R307). -/
def State.groupClusters (s : State) : List Cluster := s.groupOf s.me

/-- Whether a cluster's word waits at a stage. -/
def Cluster.atStage (c : Cluster) (n : Nat) : Bool :=
  match c.member with
  | some q => decide (q.r.work.stage = n)
  | none => false

/-- What the members of a group are to have alike in their registers. -/
def groupKey (m : MState) : List Nat :=
  [m.rx.xtol.toNat, m.rx.xlim.toNat, m.rx.xmin.toNat, m.rx.xgrow.toNat, m.rx.xclo.toNat, m.rx.xchi.toNat, m.rx.xstruct.toNat,
   m.rx.modeBare, m.struct.isSome.toNat]

/-- What the members of a group are to have alike in their words. -/
def wordKey (q : Member) : List Int :=
  [q.x.m, q.x.n, fmtCode q.f.fa, (match q.f.rnd with | .rne => 0 | .rtz => 1 | .rdn => 2 | .rup => 3 | .rsr => 4),
   (decide (q.f.ovf = .sat)).toNat, q.ws.toNat, q.bias, q.back.toNat]

/-- Whether every element of a list is the first. -/
def allSame {α : Type} [DecidableEq α] (l : List α) : Bool :=
  match l with
  | [] => true
  | x :: r => r.all fun y => decide (y = x)

/-- The group checks of R307 and R319. -/
def groupOk (cs : List Cluster) (words : List Member) : Bool :=
  let pos := cs.map fun c => c.st.m.rx.gpos
  allSame (cs.map fun c => c.die) && (cs.all fun c => decide (c.st.m.rx.gpos < c.st.m.rx.members)) &&
    decide (pos.eraseDups.length = pos.length) && allSame (cs.map fun c => groupKey c.st.m) && allSame (words.map wordKey)

/-- Changes the strands of some clusters. -/
def State.onClusters (s : State) (p : Cluster → Bool) (f : Strand → Strand) : State :=
  s.mapClusters fun c => if p c then { c with st := f c.st } else c

/-- The strand's matrix word is at a stage. -/
def Strand.toStage (t : Strand) (n : Nat) : Strand :=
  let at' := fun (r : Run) => { r with work := { r.work with stage := n } }
  { t with mrun := t.mrun.map at' }

/-- The strand's matrix word records ENG_ENC for a value. -/
def Strand.stageEnc (t : Strand) : Strand :=
  match t.mrun with
  | some r => t.blockEnc true r 0xFFFF
  | none => t

/-- RELAX_GROUP_START: once every member has reached its word, the group is checked and begins. A member whose entry has ended
in an error before its word is waited for no more: the checks run on the others' words and on all registers. One that has
ended at its own word fails the check of all (R307, R309, log entry 105). -/
def execRelaxGroupStart (s : State) : Out :=
  if !s.me.atStage 7 then .next s
  else
    let cs := s.groupClusters
    let here := cs.filter fun c => c.atStage 7
    let lost := cs.filter fun c => !c.atStage 7 && c.st.relaxLost
    let mine := fun (c : Cluster) => here.any fun d => decide (d.die = c.die) && decide (d.clus = c.clus)
    let g := s.me.st.m.rx.members
    if cs.any fun c => !c.atStage 7 && c.st.relaxEnded then .next (s.onClusters mine Strand.stageEnc)
    else if here.length + lost.length < g then .next s
    else if !groupOk (here ++ lost) (here.filterMap Cluster.member) then .next (s.onClusters mine Strand.stageEnc)
    else if here.length = g then .next (s.onClusters mine fun t => t.toStage 8)
    else .next s

/-- Whether a member of a group waits for what no other member will do: one is not at the word, or has left it (R309). -/
def State.relaxStuck (s : State) (c : Cluster) : Bool :=
  let cs := s.groupOf c
  (c.atStage 7 && (decide (cs.length < c.st.m.rx.members) || cs.any fun d => !d.atStage 7) && !(cs.any fun d => d.st.relaxEnded)) ||
    (c.atStage 9 && cs.any fun d => !d.atStage 8 && !d.atStage 9)

/-- A member's matrix state after the solve (R295, R308, R317). -/
def MState.relaxed (m : MState) (q : Member) (blk : Nat) (o : Solved) : MState :=
  let n := q.x.n
  let t := q.f.acc.toNat
  let put := fun (m : MState) (b : Nat) => match o.rows[b]? with
    | some r => m.takeRow q b blk n r
    | none => m
  let m1 := (List.range q.x.m).foldl put m
  let m2 := if q.back && q.f.mod.getLsbD 10 then (List.range q.x.m).foldl (fun m b => m.weightRow q b n) m1 else m1
  let m3 := (m2.setBias t (some 0)).setStag t (if q.back then 0 else m2.rx.xstruct)
  let m4 := if q.m.rx.accel = 3 then
    (((m3.setBias (t + 2) (some 0)).setStag (t + 2) 0).setBias (t + 3) (some 0)).setStag (t + 3) 0 else m3
  { m4 with rx := { m4.rx with xstat := statAfter m4.rx.xstat q.ws o } }

/-- R310: the deferred records of the conditions that the word set and XMODE enables. -/
def Strand.relaxTraps (t : Strand) (q : Member) : Strand :=
  let st := t.m.rx.xstat
  let mode := t.m.rx.xmode
  let put := fun (t : Strand) (bit en : Nat) (c : Cause) =>
    if st.getLsbD bit && mode.getLsbD en then t.record { q.r.trapOf true c with aux := st } else t
  let t1 := put (put t 0 8 .relNc) 1 9 .relDiv
  if q.back then t1 else put t1 3 10 .relWsm

/-- The word of a member ends. -/
def Strand.relaxEnd (t : Strand) (q : Member) (blk : Nat) (o : Solved) : Strand :=
  (({ t with m := t.m.relaxed q blk o }).relaxTraps q).mDone q.f.push false

/-- Whether the member at a position reads injections (R308, R319). -/
def readsInject (struct : Bool) (x : RelaxRegs) : Bool :=
  decide (x.members = 1) || struct || decide (x.gpos % (x.side + 1) = 0)

/-- Reads the next row of u or g, while some are missing; none when all are there. -/
def injectStep (f : MFields) (r : Run) (x : Ext) (s : State) : Option State :=
  let m := s.me.st.m
  if f.sb = .acc2 ∨ readsInject m.struct.isSome m.rx = false ∨ x.m ≤ r.work.a.length then none
  else
    match s.readRow r f.sb .f32 f.acc2.toNat r.work.a.length x.n with
    | .elems s1 l => some (s1.updWork fun w => { w with a := w.a ++ [l] })
    | .later s1 => some s1
    | .stop s1 => some s1

/-- The members of the group by position, when each of them holds its injections. -/
def State.readyGroup (s : State) : Option (List Member) :=
  let cs := s.groupClusters
  let g := s.me.st.m.rx.members
  let gs := (List.range g).filterMap fun p =>
    (cs.find? fun c => c.atStage 9 && decide (c.st.m.rx.gpos = p)).bind Cluster.member
  if gs.length = g then some gs else none

/-- Whether a cluster runs a strand of the node of `me`. -/
def State.inGang (s : State) (c : Cluster) : Bool := decide (c.status ≠ .idle) && decide (c.st.node = s.me.st.node)

/-- The solve of a group: every member ends its word. -/
def State.groupEnd (s : State) (gs : List Member) : State :=
  match gs with
  | [] => s
  | q0 :: _ =>
    let o := solve gs q0
    s.mapClusters fun c =>
      match gs.find? fun q => decide (q.die = c.die) && decide (q.idx = c.st.idx) && s.inGang c && c.atStage 9 with
      | some q => { c with st := c.st.relaxEnd q (blockOf q.m.struct.isSome q.m.rx.side q.m.rx.gpos) o }
      | none => c

/-- One step of a RELAX or RELAXB: a row of injections, a stage of the group, or the whole solve (R295, R317). -/
def relaxStep (back : Bool) (f : MFields) (r : Run) (x : Ext) (s : State) : State :=
  let q : Member := ⟨f, back, r, x, s.me.st.m, s.me.st.idx, s.me.die⟩
  if s.me.st.m.rx.members = 1 then
    match injectStep f r x s with
    | some s1 => s1
    | none => s.updSt fun t => t.relaxEnd q 0 (solve [q] q)
  else if r.work.stage = 0 then s.updSt fun t => t.toStage 7
  else if r.work.stage = 7 then s
  else if r.work.stage = 8 then
    match injectStep f r x s with
    | some s1 => s1
    | none => s.updSt fun t => t.toStage 9
  else
    match s.readyGroup with
    | some gs => s.groupEnd gs
    | none => s

/-- `relax.fa accN, rbK, B` (R290 to R301). -/
def execRelax (f : MFields) (s : State) : Out := mWord f (relaxCheck f) (relaxStep false f) s

/-- `relaxb.fa accN, rbK, B` (R315 to R320). -/
def execRelaxb (f : MFields) (s : State) : Out := mWord f (relaxCheck f) (relaxStep true f) s

/-! ### MXSET (R302) -/

/-- R298: whether a value of XMODE has a reserved field that is not zero. -/
def modeBad (v : Nat) : Bool := decide (v / 8 % 2 ≠ 0) || decide (v / 128 % 2 ≠ 0) || decide (v / 2 ^ 24 ≠ 0) || decide (4 < v / 16 % 8)

/-- Whether a bound register breaks the bit rules of a selector. -/
def mxBad (reg : Nat) (v : Word) : Bool :=
  match reg with
  | 1 => decide (65535 < v.toNat)
  | 2 => decide (65535 < v.toNat)
  | 4 => modeBad (v.toNat % 2 ^ 32)
  | 5 => false
  | 10 => false
  | 11 => false
  | 16 => decide (v.toNat / 16 % 2 ^ 12 ≠ 0) || decide (v.toNat / 2 ^ 48 ≠ 0)
  | 18 => false
  | _ => decide (2 ^ 32 ≤ v.toNat)

/-- One value for every row. -/
def allRows {α : Type} [DecidableEq α] (v d : α) : Sp α := if v = d then [] else (List.range 128).map fun b => (b, v)

/-- Writes a register from one bound register, and for the masks from two. -/
def MState.mxFromEb (m : MState) (reg acc : Nat) (v hi : Word) : MState :=
  let l : Lane := v.setWidth 32
  let mask : BitVec 128 := v.setWidth 128 ||| (hi.setWidth 128 <<< 64)
  let x := m.rx
  match reg with
  | 0 => { m with rx := { x with xtol := l } }
  | 1 => { m with rx := { x with xlim := v.setWidth 16 } }
  | 2 => { m with rx := { x with xmin := v.setWidth 16 } }
  | 3 => { m with rx := { x with xgrow := l } }
  | 4 => { m with rx := { x with xmode := l } }
  | 5 => { m with rx := { x with xdamp := allRows l 0 } }
  | 6 => { m with rx := { x with xclo := l } }
  | 7 => { m with rx := { x with xchi := l } }
  | 10 => { m with rx := { x with xret := mask } }
  | 11 => { m with rx := { x with xdiv := mask } }
  | 16 => { m with rx := { x with xstat := v } }
  | 17 => { m with rx := { x with xstruct := l } }
  | 18 => m.setStag acc l
  | _ => m

/-- Rows and bytes of a row that MXSET takes from A, with their alignment. -/
def mxShape (reg : Nat) (x : Ext) : Nat × Nat × Nat :=
  match reg with
  | 5 => (x.m, 4, 4)
  | 19 => (x.m, x.n, 1)
  | 21 => (x.m, 4 * x.n, 4)
  | _ => (1, 16, 1)

/-- Per-row values put from row `b` on. -/
def putRows (t : Sp Lane) (b : Nat) (l : List (List Nat)) : Sp Lane :=
  match l with
  | [] => t
  | bs :: r => putRows (Sp.set t b (BitVec.ofNat 32 (leNat (bs.map (BitVec.ofNat 8)))) 0) (b + 1) r

/-- Writes a register from rows of bytes. -/
def MState.mxFromRows (m : MState) (reg acc : Nat) (x : Ext) (l : List (List Nat)) : MState :=
  let bytes := fun (b : Nat) => (l.getD b []).map (BitVec.ofNat 8 : Nat → Byte)
  match reg with
  | 5 => { m with rx := { m.rx with xdamp := putRows m.rx.xdamp 0 l } }
  | 10 => { m with rx := { m.rx with xret := BitVec.ofNat 128 (leNat (bytes 0)) } }
  | 11 => { m with rx := { m.rx with xdiv := BitVec.ofNat 128 (leNat (bytes 0)) } }
  | 19 => { m with dpl := (List.range x.m).foldl (fun d b => putDpl d b 0 (l.getD b [])) m.dpl }
  | _ =>
    let m1 := (List.range x.m).foldl (fun m b => m.setTileRow acc .f32 b 0 (rowElems .f32 x.n (bytes b))) m
    (m1.setBias acc (some 0)).setStag acc 0

/-- `n` bytes of a run of bytes: from a load queue, or from a channel's one address on; the channel moves on with the
last of them. -/
def State.readPart (s : State) (r : Run) (src : MSrc) (off n align : Nat) (last : Bool) : Got :=
  match src with
  | .ch c =>
    (match s.readAt r ((s.me.st.m.chan c.toNat).addr + BitVec.ofNat 64 off) n align with
     | .bytes s1 bs => .bytes (if last then s1.updM fun m => m.setChan c.toNat (m.chan c.toNat).next else s1) bs
     | g => g)
  | src => s.readBytes r src n align

/-- One step of an MXSET from A: a row of bytes, or with the last row the register. -/
def mxRowStep (f : MFields) (r : Run) (x : Ext) (s : State) : State :=
  let reg := mxReg f
  let (rows, n, align) := mxShape reg x
  let i := r.work.a.length
  match s.readPart r f.sa (i * n) n align (decide (rows ≤ i + 1)) with
  | .bytes s1 bs =>
    let l := r.work.a ++ [bs.map fun b => b.toNat]
    if rows ≤ i + 1 then (s1.updM fun m => m.mxFromRows reg f.acc.toNat x l).mDone f.push false
    else s1.updWork fun w => { w with a := l }
  | .later s1 => s1
  | .stop s1 => s1

/-! ### The structure image (R305) -/

/-- The counts of an image. -/
structure Image.Counts where
  fmt : Fmt
  bias : Int
  tag : Nat
  nrows : Nat
  ncols : Nat
  nnz : Nat
  deriving DecidableEq, Repr

/-- The header and counts of an image from its first 128 bytes, or none where one is out of range or reserved. -/
def imageCounts (bs : List Byte) : Option Image.Counts :=
  let h := leNat (bs.take 8)
  let c := leNat ((bs.drop 64).take 8)
  match fmtOfCode (h % 32) with
  | none => none
  | some fmt =>
    if [Fmt.f32, .f16, .bf16, .f8e4, .f8e5].contains fmt ∧ headerBad h = false ∧ h / 2 ^ 24 % 16 = 4 ∧ h / 2 ^ 32 ≠ 0 ∧
       1 ≤ c % 65536 ∧ c % 65536 ≤ 128 ∧ 1 ≤ c / 65536 % 65536 ∧ c / 65536 % 65536 ≤ 2048 ∧ c / 2 ^ 32 ≤ 15360 then
      some ⟨fmt, sextNat (h / 256) 8, h / 2 ^ 32, c % 65536, c / 65536 % 65536, c / 2 ^ 32⟩
    else none

/-- Offset of the entries of an image. -/
def entryOff (nrows : Nat) : Nat := (128 + 4 * (nrows + 1) + 63) / 64 * 64

/-- Whether row pointers rise from 0 to NNZ. -/
def pointersOk (l : List Nat) (prev nnz : Nat) : Bool :=
  match l with
  | [] => decide (prev = nnz)
  | p :: r => decide (prev ≤ p) && pointersOk r p nnz

/-- Whether the columns of a row rise strictly and lie below NCOLS. -/
def columnsOk (l : List Nat) (ncols : Nat) : Bool :=
  match l with
  | [] => true
  | c :: r => decide (c < ncols) && (match r with | d :: _ => decide (c < d) | [] => true) && columnsOk r ncols

/-- The structure of an image, from the bytes at offset 128 on, or none where a check fails. -/
def imageStruct (c : Image.Counts) (bs : List Byte) : Option Struct :=
  let ptr := unpackNat 32 (c.nrows + 1) (leNat (bs.take (4 * (c.nrows + 1))))
  let ents := unpackNat 64 c.nnz (leNat ((bs.drop (entryOff c.nrows - 128)).take (8 * c.nnz)))
  let rowOf := fun (i : Nat) => (ents.drop (ptr.getD i 0)).take (ptr.getD (i + 1) 0 - ptr.getD i 0)
  if ptr.headD 1 = 0 ∧ pointersOk ptr 0 c.nnz ∧ (ents.all fun e => decide (e / 65536 % 65536 = 0)) ∧
     ((List.range c.nrows).all fun i => columnsOk ((rowOf i).map fun e => e % 65536) c.ncols) then
    some ⟨c.fmt, c.bias, c.nrows, c.ncols, (List.range c.nrows).flatMap fun i =>
      (rowOf i).map fun e => (i, e % 65536, BitVec.ofNat 32 (e / 2 ^ 32 % 2 ^ fmtWidth c.fmt))⟩
  else none

/-- One step of `mxset struct`: the header and counts, then the rest, which replaces both banks. -/
def structStep (f : MFields) (r : Run) (s : State) : State :=
  if r.work.a = [] then
    match s.readPart r f.sa 0 128 64 false with
    | .bytes s1 bs => if (imageCounts bs).isSome then s1.updWork fun w => { w with a := [bs.map fun b => b.toNat] } else s1.mEnc r
    | .later s1 => s1
    | .stop s1 => s1
  else
    match imageCounts ((r.work.a.headD []).map (BitVec.ofNat 8)) with
    | none => s.mEnc r
    | some c =>
      match s.readPart r f.sa 128 (entryOff c.nrows - 128 + 8 * c.nnz) 1 true with
      | .bytes s1 bs =>
        (match imageStruct c bs with
         | none => s.mEnc r
         | some st =>
           (s1.updM fun m => { m with rb := [], struct := some st, rx := { m.rx with xstruct := BitVec.ofNat 32 c.tag } }).mDone
             f.push false)
      | .later s1 => s1
      | .stop s1 => s1

/-- `mxset reg, ebN` and `mxset reg, A` (R302). -/
def execMxset (f : MFields) (s : State) : Out :=
  mWord f (fun r _ _ => if mxFromA f = false ∧ mxBad (mxReg f) (r.eb f.ebb) then some 0xFFFF else none)
    (fun r x s =>
      if mxFromA f then (if mxReg f = 20 then structStep f r s else mxRowStep f r x s)
      else (s.updM fun m => m.mxFromEb (mxReg f) f.acc.toNat (r.eb f.ebb) (r.eb (f.ebb + 1))).mDone f.push false) s

/-! ### MXREAD (R303) -/

/-- The first `n` entries of a per-row register, in so many bytes each. -/
def rowsBytes {w : Nat} (t : Sp (BitVec w)) (bytes n : Nat) : List Byte :=
  (List.range n).flatMap fun b => leBytes bytes (Sp.get t b 0).toNat

/-- The bytes of a register. -/
def MState.mxBytes (m : MState) (reg acc : Nat) (x : Ext) : List Byte :=
  let r := m.rx
  match reg with
  | 0 => leBytes 4 r.xtol.toNat
  | 1 => leBytes 2 r.xlim.toNat
  | 2 => leBytes 2 r.xmin.toNat
  | 3 => leBytes 4 r.xgrow.toNat
  | 4 => leBytes 4 r.xmode.toNat
  | 5 => rowsBytes r.xdamp 4 x.m
  | 6 => leBytes 4 r.xclo.toNat
  | 7 => leBytes 4 r.xchi.toNat
  | 8 => rowsBytes r.xres 4 x.m
  | 9 => rowsBytes r.xcnt 2 x.m
  | 10 => leBytes 16 r.xret.toNat
  | 11 => leBytes 16 r.xdiv.toNat
  | 12 => rowsBytes r.xah0 4 x.m
  | 13 => rowsBytes r.xah1 4 x.m
  | 14 => rowsBytes r.xah2 4 x.m
  | 15 => rowsBytes r.xah3 4 x.m
  | 16 => leBytes 8 r.xstat.toNat
  | 17 => leBytes 4 r.xstruct.toNat
  | 18 => leBytes 4 (m.getStag acc).toNat
  | _ => (List.range x.m).flatMap fun b => (m.dplRow b x.n).map (BitVec.ofNat 8)

/-- Bytes with zeros behind them up to a multiple of 256. -/
def pad256 (bs : List Byte) : List Byte := bs ++ List.replicate ((256 - bs.length % 256) % 256) 0

/-- One step of an MXREAD: it captures the bytes, and passes 256 of them on as the queue has room. -/
def mxreadStep (f : MFields) (r : Run) (x : Ext) (s : State) : State :=
  let all := if r.work.stage = 0 then (pad256 (s.me.st.m.mxBytes (mxReg f) f.acc.toNat x)).map fun b => b.toNat else r.work.a.headD []
  match s.putQueue f.dk ((all.take 256).map (BitVec.ofNat 8)) with
  | none => s.updWork fun w => { w with stage := 1, a := [all] }
  | some s1 =>
    if all.length ≤ 256 then s1.mDone f.push false else s1.updWork fun w => { w with stage := 1, a := [all.drop 256] }

/-- `mxread dest, reg` (R303). -/
def execMxread (f : MFields) (s : State) : Out := mWord f (fun _ _ _ => none) (mxreadStep f) s

/-! ### MPATCH (R304) -/

/-- XSTAT with one more patch ignored. -/
def RelaxRegs.ignore (x : RelaxRegs) : RelaxRegs :=
  let p := x.xstat.toNat / 2 ^ 32 % 65536
  if p = 65535 then x else { x with xstat := BitVec.ofNat 64 (x.xstat.toNat + 2 ^ 32) }

/-- The pattern that a patch record's value gives. -/
def patchValue (f : Fmt) (v : Nat) : Nat :=
  match f with
  | .f64 => cvtVal (decodeFmt .f32 v) .f64 .rne .wrap
  | .f19 => v / 8192 * 8192
  | f => v % 2 ^ fmtWidth f

/-- One patch record. -/
def MState.patch (m : MState) (f : MFields) (rec' : Nat) : MState :=
  let i := rec' % 65536
  let c := rec' / 65536 % 65536
  let v := patchValue f.fa (rec' / 2 ^ 32)
  match m.struct with
  | some st =>
    if st.entries.any fun e => decide (e.1 = i) && decide (e.2.1 = c) then
      let put := fun (e : Nat × Nat × Lane) => if e.1 = i ∧ e.2.1 = c then (i, c, BitVec.ofNat 32 v) else e
      { m with struct := some { st with entries := st.entries.map put } }
    else { m with rx := m.rx.ignore }
  | none =>
    if i < 128 ∧ c < 128 then m.setBank (bankOf f.dk) f.fa i c v else { m with rx := m.rx.ignore }

/-- Whether a resident structure has another format than the patches. -/
def MState.patchMismatch (m : MState) (f : MFields) : Bool :=
  match m.struct with
  | some st => decide (st.fmt ≠ f.fa)
  | none => false

/-- One step of an MPATCH: one record. -/
def mpatchStep (f : MFields) (r : Run) (x : Ext) (s : State) : State :=
  let k := r.work.stage
  let last := decide (x.m * x.n ≤ k + 1)
  match s.readPart r f.sa (8 * k) 8 8 last with
  | .bytes s1 bs =>
    if s1.me.st.m.patchMismatch f then s1.updSt fun t => t.blockEnc true r 171
    else
      let s2 := s1.updM fun m => m.patch f (leNat bs)
      if last then s2.mDone f.push false else s2.updWork fun w => { w with stage := k + 1 }
  | .later s1 => s1
  | .stop s1 => s1

/-- `mpatch.fa rbK, A` (R304). -/
def execMpatch (f : MFields) (s : State) : Out := mWord f (fun _ _ _ => none) (mpatchStep f) s

end Sys2Proof.Machine
end

