-- ==== Sys2Proof/Machine/Manage.lean ====
section
/-!
DEFINITION. What a firmware core does in one go (R419): the messages of the management port (R426, R427) with quotes (R424,
R425), and the refill of an energy balance (R372).
-/

namespace Sys2Proof.Machine

/-- Bits `lo` to `hi` of a register. -/
def bitsMask (lo hi : Nat) : Word := BitVec.ofNat 64 (2 ^ (hi + 1) - 2 ^ lo)

/-! ### Quotes (R424, R425) -/

/-- The next leaf of the attestation key that signs now (R424). The identity key certifies each attestation key, the first
one too, with one of its 1,024 leaves; the next is created when one of 2^20 leaves is spent. -/
def State.nextLeaf (s : State) : Option (State × Nat) :=
  let f := s.fe
  let used := fun (key leaf : Nat) => ({ s with fe := { f with idLeaf := key, leaf := leaf + 1 } }, (key - 1) * 2 ^ 20 + leaf)
  if 0 < f.idLeaf ∧ f.leaf < 2 ^ 20 then some (used f.idLeaf f.leaf)
  else if f.idLeaf < 1024 then some (used (f.idLeaf + 1) 0)
  else none

/-- A quote: the nonce, the registers, TEL_TIME, then certificates and signature. -/
def State.quote (s : State) (nonce : List Byte) (leaf : Nat) : List Byte :=
  let body := nonce ++ (s.fe.meas.toList.flatMap fun m => leBytes 32 m.toNat) ++ leBytes 8 s.pow.telTime
  body ++ Config.signature body leaf

/-! ### The management port (R426) -/

/-- A message for the controller of the management port. -/
def State.mgmtOut (s : State) (m : List Byte) : State := { s with mgmt := { s.mgmt with out := s.mgmt.out ++ [m] } }

/-- A response to an MCTP control command: message type 0, the command code, completion code 0, its data. -/
def controlReply (code : Byte) (data : List Byte) : List Byte := [0x00, 0x00, code, 0x00] ++ data

/-- A message of the vendor-defined type. -/
def vendorReply (data : List Byte) : List Byte := 0x7E :: data

/-- Bytes in pieces of at most 1,023. -/
def pieces (bs : List Byte) (n : Nat) : List (List Byte) :=
  match n with
  | 0 => []
  | n + 1 => if bs.isEmpty then [] else bs.take 1023 :: pieces (bs.drop 1023) n

/-- The 64 bytes of a ring's slot for record `i`. -/
def State.ringGet (s : State) (cfg0 cfg1 : Word) (i : Nat) : List Byte :=
  let a := ringSlot cfg0 cfg1 i
  match apert a with
  | .host => (s.hostGet (a - hostBase) 64).getD (List.replicate 64 0xFF)
  | _ => s.mem.readN (canon a) 64

/-- A quote goes out in messages of at most 1,024 bytes, or an empty one where the keys are spent. -/
def State.sendQuote (s : State) (nonce : BitVec 256) : State :=
  match s.nextLeaf with
  | none => s.mgmtOut (vendorReply [])
  | some (s1, leaf) =>
    let q := s1.quote (leBytes 32 nonce.toNat) leaf
    (pieces q (q.length / 1023 + 1)).foldl (fun s m => s.mgmtOut (vendorReply m)) s1

/-- A message of the port is handled; 0 and 255 are no endpoint ids. -/
def State.manage (s : State) (m : MgmtMsg) : State :=
  match m with
  | .setEid eid =>
    if eid = 0 ∨ eid = 0xFF then s.mgmtOut [0x00, 0x00, 0x01, 0x02]
    else { s with mgmt := { s.mgmt with eid := eid } }.mgmtOut (controlReply 0x01 [0x00, eid, 0x00])
  | .getEid => s.mgmtOut (controlReply 0x02 [s.mgmt.eid, 0x00, 0x00])
  | .getVersions => s.mgmtOut (controlReply 0x04 [0x01, 0xF1, 0xF0, 0xFF, 0x00])
  | .getTypes => s.mgmtOut (controlReply 0x05 [0x01, 0x7E])
  | .readTelemetry k => s.mgmtOut (vendorReply (s.ringGet s.fe.telcfg0 s.fe.telcfg1 (k.getD (s.fe.telIdx - 1))))
  | .readErrors k => s.mgmtOut (vendorReply (s.ringGet s.fe.errcfg0 s.fe.errcfg1 (k.getD (s.fe.errIdx - 1))))
  | .quote nonce => s.sendQuote nonce
  | .writeZcfg v => { s with fe := { s.fe with zcfg := v &&& (bitsMask 0 13 ||| bitsMask 16 47) } }
  | .announce sec => { s with mgmt := { s.mgmt with announced := sec } }
  | .sync sec => { s with mgmt := { s.mgmt with synced := sec } }
  | .followUp sec => { s with mgmt := { s.mgmt with pending := sec } }

/-! ### Energy balances (R367, R372) -/

/-- A balance after a change, kept within its 32 bits (R372). -/
def VI.setBalance (v : VI) (x : Int) : VI :=
  let y := if x < -(2 : Int) ^ 31 then -(2 : Int) ^ 31 else if (2 : Int) ^ 31 - 1 < x then (2 : Int) ^ 31 - 1 else x
  { v with equota := BitVec.ofNat 64 (v.equota.toNat % 2 ^ 32 + wrapNat y 32 * 2 ^ 32) }

/-- The highest level not above `l` whose variant a kernel has (R367); VARS always holds dense. -/
def cappedLevel (vars : BitVec 3) (l : Nat) : Nat :=
  if 2 ≤ l ∧ vars.getLsbD 2 then 2 else if 1 ≤ l ∧ vars.getLsbD 1 then 1 else 0

/-- Periods of 10 ms of reference time that have begun (R372). -/
def Power.periods (p : Power) : Nat := p.now / 10000000 + 1

/-- The levels imposed on the strands of an interface, once its balance stands above 0 again, are ones that their kernels
have (R367). -/
def State.recap (s : State) (vi : Nat) : State :=
  if (s.vi vi).funded then
    s.mapClusters fun c =>
      if c.status ≠ .idle ∧ c.st.vi = vi then { c with imp := BitVec.ofNat 2 (cappedLevel c.st.vars c.imp.toNat) } else c
  else s

/-- BAL := min(BAL + SHARE, SHARE) for each period that has begun and has had no refill yet. -/
def State.refillBalance (s : State) (vi : Nat) : State :=
  let v := s.vi vi
  let share : Int := (v.equota.toNat % 2 ^ 32 : Nat)
  let n : Int := (s.pow.periods - v.refills : Nat)
  if s.pow.periods ≤ v.refills then s
  else (s.setVi vi { v.setBalance (min (v.balance + n * share) share) with refills := s.pow.periods }).recap vi

end Sys2Proof.Machine
end

