-- ==== Sys2Proof/Machine/Sched.lean ====
section
/-!
DEFINITION. The graph dispatcher (R324 to R342): acceptance, release, placement, launch queues and completion, with the
words LAUNCH, PRIO and NODEID. What LAUNCH and PRIO do at the dispatcher stands here; STORE_PERFORMED calls it.
-/

namespace Sys2Proof.Machine

/-! ### Node records (R324) -/

/-- A node record as a number of 1,024 bits. -/
abbrev Record := Nat

/-- Predecessor fields of a record. -/
def recPreds (r : Record) : List Nat := (List.range 8).map fun k => fieldOf r (128 + 12 * k) 12

/-- NPRED of a record. -/
def recNpred (r : Record) : Nat := fieldOf r 112 4

/-- R324, R325: whether the record of index `k` sets no bit that is to be 0 and names earlier nodes alone. -/
def recordOk (r : Record) (k : Nat) (device : Bool) : Bool :=
  let n := recNpred r
  let zero := [(87, 1), (94, 2), (116, 12), (224, 32), (480, 32), (768, 256)].all fun x => decide (fieldOf r x.1 x.2 = 0)
  zero && decide (n ≤ 8) && ((recPreds r).take n).all (fun p => decide (p < k)) &&
    ((recPreds r).drop n).all (fun p => decide (p = 0)) && !(device && decide (n ≠ 0))

/-- The verified kernel of an interface whose entry word an address names (R422). -/
def VI.kernelAt (v : VI) (a : Nat) : Option Code := (v.images.flatMap fun i => i.kernels).find? fun c => decide (c.entry = a)

/-- Granules of 16 KiB that a scratchpad request rounds up to (R102). -/
def spadGranules (kib : Nat) : Nat := (kib + 15) / 16

/-- The edges of the declared wait graph of a node (R193). An edge of the kernel starts at an engine of every strand; it
ends at an engine of the same strand (below 6) or, from 6 on, at engine `n % 6` of strand `(n - 6) / 6`. A credit queue
adds none. -/
def waitEdges (c : Code) (gang : Nat) (tok : List Nat) : List (Nat × Nat) :=
  (List.range gang).flatMap fun k => c.edges.filterMap fun e =>
    let credit := match e.2.2 with
      | some q => decide (13 ≤ q) || decide (tok.getD q 0 ≠ 0)
      | none => false
    let target := if e.2.1 < 6 then k * 6 + e.2.1 else e.2.1 - 6
    if credit || decide (gang * 6 ≤ target) then none else some (k * 6 + e.1, target)

/-- Whether a list of edges has a cycle: edges into a vertex that none leaves go, as often as the list is long. -/
def hasCycle (l : List (Nat × Nat)) (fuel : Nat) : Bool :=
  match fuel with
  | 0 => !l.isEmpty
  | fuel + 1 => hasCycle (l.filter fun e => l.any fun f => decide (f.1 = e.2)) fuel

/-- R194: whether the wait graph of a node has a cycle. -/
def waitCycle (c : Code) (gang : Nat) (tok : List Nat) : Bool :=
  let l := waitEdges c gang tok
  hasCycle l (l.length + 1)

/-- The words of a register image; the G0 entry is ignored. -/
def imageWords (bs : List Byte) (n : Nat) : List Word :=
  match n with
  | 0 => []
  | n + 1 => BitVec.ofNat 64 (leNat (bs.take 8)) :: imageWords (bs.drop 8) n

/-- The register image that ARGS names; 0 gives all zero. -/
def State.readArgs (s : State) (vi a : Nat) : State × Option (List Word) :=
  if a = 0 then (s, some (List.replicate 48 0))
  else
    match s.feBytes vi a 384 with
    | (s1, .ok bs) => (s1, some (imageWords bs 48))
    | (s1, .error _) => (s1, none)

/-- The status of a record at acceptance, in the order of R324: GRAPH_FORM, SPAD_RANGE, WAIT_CYCLE, KIND_NONE. -/
def State.acceptStatus (s : State) (vi : Nat) (r : Record) (formOk : Bool) : Nat :=
  match (s.vi vi).kernelAt (fieldOf r 0 64) with
  | none => 3
  | some c =>
    let gang := fieldOf r 88 6 + 1
    let tok := (List.range 16).map fun q => fieldOf r (320 + 8 * q) 8
    if !formOk then 3
    else if 18 < spadGranules (fieldOf r 96 9) then 1
    else if waitCycle c gang tok then 2
    else if s.kindCount vi (decide (fieldOf r 86 1 = 1)) < gang then 7
    else 0

/-- A free node slot: which one the spec leaves open, so that the search starts at a free value. -/
def State.freeNode (s : State) : Nat × State :=
  let (r, s1) := s.draw
  let cand := (List.range (s.disp.nodes.length + 1)).map fun k => (r + k) % 262144
  ((cand.find? fun k => !(s.disp.nodes.any fun n => decide (n.slot = k))).getD 0, s1)

/-- One record enters a node slot (R324); a PRIO above the ceiling counts as the ceiling from now on (R329). -/
def State.acceptRecord (s : State) (vi graph stream gidx : Nat) (cookie : BitVec 32) (device bad : Bool) (rec' : Option Record) : State :=
  let r := rec'.getD 0
  let (slot, s1) := s.freeNode
  let (s2, args) := if rec'.isSome then s1.readArgs vi (fieldOf r 256 64) else (s1, none)
  let formOk := !bad && rec'.isSome && args.isSome && recordOk r gidx device
  let n : Node :=
    { slot := slot, vi := vi, stream := stream, graph := graph, gidx := gidx, state := .accepted,
      kernel := BitVec.ofNat 64 (fieldOf r 0 64), prio := s2.capped vi (fieldOf r 80 6), vkind := decide (fieldOf r 86 1 = 1),
      gang := fieldOf r 88 6 + 1, spad := fieldOf r 96 9, eclass := BitVec.ofNat 4 (fieldOf r 105 4),
      vars := if fieldOf r 109 3 = 0 then 1 else BitVec.ofNat 3 (fieldOf r 109 3), preds := (recPreds r).take (recNpred r),
      left := recNpred r, regs := args.getD [], tok := (List.range 16).map fun q => fieldOf r (320 + 8 * q) 8,
      opnd := (List.range 4).map fun k => BitVec.ofNat 64 (fieldOf r (512 + 64 * k) 64),
      status := s2.acceptStatus vi r formOk, cookie := cookie, entered := 0, order := 0, passed := 0, reserving := none, finished := [],
      trapped := none, saved := [], places := [] }
  { s2 with disp := { s2.disp with nodes := s2.disp.nodes ++ [n] } }

/-- Records of a graph, 128 bytes each; one that faults reads as none. -/
def State.readRecords (s : State) (vi a n : Nat) (acc : List (Option Record)) : State × List (Option Record) :=
  match n with
  | 0 => (s, acc.reverse)
  | n + 1 =>
    match s.feBytes vi a 128 with
    | (s1, .ok bs) => s1.readRecords vi (a + 128) n (some (leNat bs) :: acc)
    | (s1, .error _) => s1.readRecords vi (a + 128) n (none :: acc)

/-- STREAM of a record. -/
def recStream (r : Option Record) : Nat := fieldOf (r.getD 0) 64 16

/-- Every record of a graph enters its slot; their order is their index. -/
def State.acceptAll (s : State) (vi graph stream : Nat) (cookie : BitVec 32) (device bad : Bool) (l : List (Option Record)) (k : Nat) : State :=
  match l with
  | [] => s
  | r :: rest => (s.acceptRecord vi graph stream k cookie device bad r).acceptAll vi graph stream cookie device bad rest (k + 1)

/-- R325: a graph is accepted. Records that fault, that name different streams, or an entry with a reserved bit spoil
the whole graph (R411). -/
def State.acceptGraph (s : State) (vi : Nat) (cookie : BitVec 32) (device bad : Bool) (l : List (Option Record)) : State :=
  let stream := recStream (l.headD none)
  let id := s.disp.nextGraph
  let spoilt := bad || l.any fun r => r.isNone || decide (recStream r ≠ stream)
  let s1 := { s with disp := { s.disp with nextGraph := id + 1, graphs := s.disp.graphs ++ [Graph.mk id vi stream l.length false false] } }
  s1.acceptAll vi id stream cookie device spoilt l 0

/-- Whether `n` more nodes fit into the table. -/
def State.nodesFit (s : State) (n : Nat) : Bool := decide (s.disp.nodes.length + n ≤ 262144)

/-- Whether a submission waits for node slots, so that nothing later is accepted (R325). -/
def State.blockedSubs (s : State) : Bool :=
  match s.disp.subs with
  | q :: _ => !s.nodesFit q.count
  | [] => false

/-! ### Stream queues (R411) -/

/-- A stream queue at reset. -/
def StreamQ.zero : StreamQ := ⟨0, false, false, 0, 0, 0⟩

/-- A stream queue of an interface. -/
def VI.sq (v : VI) (q : Nat) : StreamQ := Sp.get v.sqs q StreamQ.zero

/-- Replaces a stream queue. -/
def VI.setSq (v : VI) (q : Nat) (x : StreamQ) : VI := { v with sqs := Sp.set v.sqs q x StreamQ.zero }

/-- Bytes of a queue's entry: host memory, or the interface's. -/
def State.sqRead (s : State) (vi : Nat) (x : StreamQ) (n : Nat) : State × Option (List Byte) :=
  let a := x.base.toNat + 64 * (x.head.toNat % 2 ^ x.lsize.toNat)
  if x.host then (s, s.hostGet a n)
  else
    match s.feBytes vi a n with
    | (s1, .ok bs) => (s1, some bs)
    | (s1, .error _) => (s1, none)

/-- R411: the entry at HEAD becomes a submission when its stamp says that it is complete; HEAD moves with its
acceptance. -/
def State.sqScan (s : State) (vi q : Nat) : State :=
  let x := (s.vi vi).sq q
  let waits := s.disp.subs.any fun u => decide (u.vi = vi) && decide (u.queue = q)
  if !x.en || !(s.vi vi).enabled || (s.vi vi).closing || waits || decide (x.tail.toNat ≤ x.head.toNat) then s
  else
    match s.sqRead vi x 64 with
    | (s1, none) => s1
    | (s1, some bs) =>
      let e := leNat bs
      if fieldOf e 128 32 ≠ (x.head.toNat + 1) % 2 ^ 32 then s1
      else
        let sub : Submission :=
          { vi := vi, recs := BitVec.ofNat 64 (fieldOf e 0 64), count := fieldOf e 64 12 + 1, cookie := BitVec.ofNat 32 (fieldOf e 96 32),
            queue := q, bad := decide (fieldOf e 76 20 ≠ 0) || decide (fieldOf e 160 352 ≠ 0) }
        { s1 with disp := { s1.disp with subs := s1.disp.subs ++ [sub] } }

/-! ### The firmware pool (R419, R420) -/

/-- Whether a held fault still waits for the front end. -/
def Held.open' (h : Held) : Bool := !h.declined && !h.serviced

/-- Whether a gang has a fault that waits for the front end. -/
def State.gangFaults (s : State) (node : Nat) : Bool :=
  s.clusters.any fun c => decide (c.status ≠ .idle) && decide (c.st.node = node) && c.st.held.any Held.open'

/-- The first running core that holds no event. -/
def State.idleCore (s : State) : Option Nat :=
  (List.range 12).find? fun k => s.fe.up.getLsbD k && !(s.fe.cores.any fun c => decide (c.1 = k))

/-- The oldest event of the queue whose key no core holds; while a core reboots the fallback scheduler takes the
doorbells (R420). -/
def State.oldestEvent (s : State) : Option Event :=
  (s.fe.events.take eventRoom).find? fun e => !(s.fe.cores.any fun c => decide (c.2.key = e.key)) &&
    !(s.fe.fallback && (match e with
      | .doorbell _ _ => true
      | _ => false))

/-- The result of a mailbox command: RES, BUSY 0, and the vector that ARG3 asks for (R414). -/
def State.mboxResult (s : State) (vi res : Nat) : State :=
  let v := s.vi vi
  let a3 := (v.mbox.arg.get 3).toNat
  let s1 := s.setVi vi { v with mbox := { v.mbox with busy := false, res := BitVec.ofNat 8 res } }
  if a3 / 256 % 2 = 1 then s1.notify vi (a3 % 256) else s1

/-- A core handles an event: a doorbell's scan, a report's record, a message, a refill, a mailbox code outside R415 with
BADARG; a mailbox command, a fault or the telemetry timer keeps the core until its own step has handled it. -/
def State.handle (s : State) (core : Nat) (e : Event) : State :=
  let held := { s with fe := { s.fe with cores := s.fe.cores ++ [(core, e)] } }
  match e with
  | .doorbell vi q => s.sqScan vi q
  | .record time vi kind status strand cookie node gidx trp note => s.report time vi kind status strand cookie node gidx trp note
  | .error bits => s.errPut bits
  | .mailbox vi => if 1 ≤ (s.vi vi).mbox.cmd.toNat ∧ (s.vi vi).mbox.cmd.toNat ≤ 7 then held else s.mboxResult vi 1
  | .fault node => if s.gangFaults node then held else s
  | .manage m => s.manage m
  | .energy vi => s.refillBalance vi
  | .telemetry => held

/-- Idle cores take events, oldest first, while there are both. -/
def State.takeEvents (s : State) (fuel : Nat) : State :=
  match fuel with
  | 0 => s
  | fuel + 1 =>
    match s.idleCore, s.oldestEvent with
    | some k, some e => ({ s with fe := { s.fe with events := s.fe.events.erase e } }.handle k e).takeEvents fuel
    | _, _ => s

/-- The firmware pool goes on: a core whose fault no longer stands is idle again, and idle cores take what waits. -/
def State.pool (s : State) : State :=
  let cores := s.fe.cores.filter fun c => match c.2 with
    | .fault node => s.gangFaults node
    | _ => true
  { s with fe := { s.fe with cores := cores } }.takeEvents s.fe.events.length

/-- An event reaches the front end. -/
def State.post (s : State) (e : Event) : State := (s.raise e).pool

/-- Whether a core holds an event. -/
def State.holds (s : State) (e : Event) : Bool := s.fe.cores.any fun c => decide (c.2 = e)

/-- An event of a timer, which has one in the queue or at a core at most. -/
def State.expire (s : State) (e : Event) : State := if s.fe.events.contains e || s.holds e then s.pool else s.post e

/-- R412: the record of a node's completion. Records stand in the order of the events, so that it waits behind a trap report
that waits for a core. -/
def State.completion (s : State) (n : Node) (status : Nat) : State :=
  let note := (s.vi n.vi).crCfg.toNat / 32 % 256
  let e := Event.record s.pow.telTime n.vi 0 status 0 n.cookie.toNat n.slot n.gidx [] note
  if s.fe.events.any fun x => decide (x.key = e.key) then s.post e
  else s.report s.pow.telTime n.vi 0 status 0 n.cookie.toNat n.slot n.gidx [] note

/-- The core that holds an event has handled it. -/
def State.handled (s : State) (e : Event) : State :=
  { s with fe := { s.fe with cores := s.fe.cores.filter fun c => decide (c.2 ≠ e) } }.pool

/-- The node of the strand on a cluster, or 0. -/
def State.nodeAt (s : State) (die clus : Nat) : Nat :=
  match s.clusters.find? fun c => decide (c.die = die) && decide (c.clus = clus) && decide (c.status ≠ .idle) with
  | some c => c.st.node
  | none => 0

/-- The bits of an error record but SEQ (R403), for an error at TEL_TIME `time`. -/
def errBits (time kind unit die clus pa count node : Nat) : Nat :=
  time + kind * 2 ^ 96 + unit % 8 * 2 ^ 100 + die % 24 * 2 ^ 104 + clus % 64 * 2 ^ 109 + pa % 2 ^ 52 * 2 ^ 128 +
    (if count < 4096 then count else 4095) * 2 ^ 180 + node % 2 ^ 18 * 2 ^ 192

/-- An error that was detected at TEL_TIME `time` is reported to the front end. -/
def State.errRecordAt (s : State) (time kind unit die clus pa count node : Nat) : State :=
  s.post (.error (errBits time kind unit die clus pa count node))

/-- An error is reported to the front end. -/
def State.errRecord (s : State) (kind unit die clus pa count node : Nat) : State :=
  s.errRecordAt s.pow.telTime kind unit die clus pa count node

/-- The record of a location's corrected errors. -/
def State.mergedRecord (s : State) (x : Merged) : State :=
  s.post (.error (errBits x.time 0 x.site.unit x.site.die x.site.clus x.site.pa x.count x.node))

/-- The locations whose second has passed have their records (R403). -/
def State.flushErrs (s : State) : State :=
  let due := fun (x : Merged) => decide (x.since + 1000000000 ≤ s.pow.now)
  let s1 : State := { s with fe := { s.fe with errs := s.fe.errs.filter fun x => !due x } }
  (s.fe.errs.filter due).foldl State.mergedRecord s1

/-- A mailbox command has been handled with a result. -/
def State.mboxDone (s : State) (vi res : Nat) : State := (s.mboxResult vi res).handled (.mailbox vi)

/-- A 64-byte entry of a stream queue (R411). -/
def sqEntry (recs count stamp : Nat) : List Byte := leBytes 64 (recs + (count - 1) * 2 ^ 64 + stamp % 2 ^ 32 * 2 ^ 128)

/-- The graphs of a LOAD enter stream queue 0 as if the host had written them: each takes the next slot of the ring, with
its stamp, and TAIL announces it; with the ring full the rest waits (R422). -/
def State.feedLoad (s : State) (vi fuel : Nat) : State :=
  match fuel with
  | 0 => s
  | fuel + 1 =>
    let v := s.vi vi
    let x := v.sq 0
    match v.loading with
    | some ⟨g :: rest, _⟩ =>
      if !x.en || decide (2 ^ x.lsize.toNat ≤ x.tail.toNat - x.head.toNat) then s
      else
        let a := x.base.toNat + 64 * (x.tail.toNat % 2 ^ x.lsize.toNat)
        let bs := sqEntry g.1 g.2 (x.tail.toNat + 1)
        let s1 := if x.host then s.hostPut a bs else (s.fePut vi a bs).1
        let v1 := s1.vi vi
        let s2 := s1.setVi vi { v1.setSq 0 { x with tail := x.tail + 1 } with loading := some ⟨rest, x.tail.toNat + 1⟩ }
        (s2.post (.doorbell vi 0)).feedLoad vi fuel
    | _ => s

/-- LOAD goes on, and completes once every graph of its image has been accepted (R422). -/
def State.loadEnds (s : State) (vi : Nat) : State :=
  let s1 := match (s.vi vi).loading with
    | some l => s.feedLoad vi l.graphs.length
    | none => s
  let v := s1.vi vi
  match v.loading with
  | some ⟨[], last⟩ => if last ≤ (v.sq 0).head.toNat then (s1.setVi vi { v with loading := none }).mboxDone vi 0 else s1
  | _ => s1

/-- The scan of a stream queue goes on after an entry. The fallback scheduler takes one entry a turn, and the queue's doorbell
stands for the others (R420). -/
def State.scanOn (s : State) (vi q : Nat) : State :=
  if !s.fe.fallback then s.sqScan vi q
  else if s.fe.events.contains (.doorbell vi q) then s
  else s.raise (.doorbell vi q)

/-- NODE_ACCEPT: the first submission that waits is accepted, once all its records fit (R324, R325); HEAD of its queue
moves, and the scan goes on. -/
def execNodeAccept (s : State) : Out :=
  match s.disp.subs with
  | [] => .next s
  | u :: rest =>
    if !s.nodesFit u.count then .next s
    else
      let s0 := { s with disp := { s.disp with subs := rest } }
      let (s1, l) := s0.readRecords u.vi u.recs.toNat u.count []
      let s2 := s1.acceptGraph u.vi u.cookie false (u.bad || decide (u.recs.toNat % 64 ≠ 0)) l
      let v := s2.vi u.vi
      let x := v.sq u.queue
      let s3 := s2.setVi u.vi (v.setSq u.queue { x with head := x.head + 1 })
      .next ((s3.scanOn u.vi u.queue).loadEnds u.vi)

/-! ### Launch queues (R334 to R337) -/

/-- A launch queue at reset. -/
def LaunchQ.zero : LaunchQ := ⟨false, 0, 0, 0, 0, 0, []⟩

/-- A launch queue of an interface. -/
def VI.lq (v : VI) (q : Nat) : LaunchQ := Sp.get v.lqs q LaunchQ.zero

/-- Replaces a launch queue. -/
def VI.setLq (v : VI) (q : Nat) (x : LaunchQ) : VI := { v with lqs := Sp.set v.lqs q x LaunchQ.zero }

/-- HEAD moves by one and is written to HADDR; a write that faults is skipped. -/
def State.lqHead (s : State) (vi q : Nat) : State :=
  let v := s.vi vi
  let x := v.lq q
  let i := x.head.toNat
  let s1 := s.setVi vi (v.setLq q { x with head := x.head + 1, drop := x.drop.filter (· ≠ i) })
  (s1.fePut vi x.haddr.toNat (leBytes 8 (i + 1))).1

/-- The scan of R335: valid stamped entries from HEAD up to TAIL, each a graph of one node; `fuel` is the slot count. -/
def State.lqScan (s : State) (vi q fuel : Nat) : State :=
  match fuel with
  | 0 => s
  | fuel + 1 =>
    let x := (s.vi vi).lq q
    let i := x.head.toNat
    if !x.en || decide (x.tail.toNat ≤ i) || !s.nodesFit 1 || s.blockedSubs then s
    else
      match s.feBytes vi (x.base.toNat + 128 * (i % 2 ^ x.lsize.toNat)) 128 with
      | (s1, .error _) => s1
      | (s1, .ok bs) =>
        let r := leNat bs
        if fieldOf r 448 32 ≠ (i + 1) % 2 ^ 32 then s1
        else if x.drop.contains i then ((s1.setVi vi ((s1.vi vi).drops 1)).lqHead vi q).lqScan vi q fuel
        else ((s1.acceptGraph vi 0 true false [some r]).lqHead vi q).lqScan vi q fuel

/-- A scan of one queue. -/
def State.lqScanAll (s : State) (vi q : Nat) : State := s.lqScan vi q (2 ^ ((s.vi vi).lq q).lsize.toNat)

/-- Every launch queue of every interface, when a slot frees after the table was full (R335). -/
def State.scanEvery (s : State) : State :=
  s.vis.foldl (fun s v => v.2.lqs.foldl (fun s q => s.lqScanAll v.1 q.1) s) s

/-- `launch gD, gA, gB`: an S entry, a release at .pkg (R336). -/
def execLaunch (g : Guard) (d a b : Reg) (s : State) : Out :=
  guarded g s fun s => replayed s fun s => reading [a, b] s fun s =>
    if (s.getG a).toNat / 16 ≠ 0 then trap .schedArg s
    else issueSGated (.launch d ((s.getG a).setWidth 4) (s.getG b)) d (fun n => [releaseGate n]) s

/-- R336 at the dispatcher. -/
def State.launchStep (s : State) (h : Entry) (d : Reg) (q : BitVec 4) (tail : Word) : State :=
  let vi := s.me.st.vi
  let v := s.vi vi
  let x := v.lq q.toNat
  if !x.en || v.closing || v.tearing.contains s.me.st.stream then
    (s.setVi vi (v.drops 1)).bindResult h d (BitVec.allOnes 64)
  else
    let t := if x.tail.toNat < tail.toNat then tail else x.tail
    ((s.setVi vi (v.setLq q.toNat { x with tail := t })).lqScanAll vi q.toNat).bindResult h d t

/-! ### Priority and identity (R341, R342) -/

/-- `prio gD, gA`: an S entry. -/
def execPrio (g : Guard) (d a : Reg) (s : State) : Out :=
  guarded g s fun s => replayed s fun s => reading [a] s fun s =>
    if 63 < (s.getG a).toNat then trap .schedArg s else issueS (.prio d (s.getG a)) d 0 s

/-- R341 at the dispatcher. -/
def State.prioStep (s : State) (h : Entry) (d : Reg) (v : Word) : State :=
  let old := match s.node s.me.st.node with
    | some n => n.prio
    | none => 0
  (s.updNode s.me.st.node fun n => { n with prio := s.capped n.vi v.toNat }).bindResult h d (BitVec.ofNat 64 old)

/-- `nodeid gD` (R342). -/
def execNodeid (g : Guard) (d : Reg) (s : State) : Out :=
  compute g [] d (fun s => BitVec.ofNat 64 (s.me.st.node % 2 ^ 18 + s.me.st.stream % 2 ^ 16 * 2 ^ 32)) s

/-! ### Release (R326) -/

/-- A node whose counter is 0 enters the pool, as entry `order` at the time `now`. -/
def Node.enter (now order : Nat) (n : Node) : Node :=
  if n.state = .accepted ∧ n.status = 0 ∧ n.left = 0 then { n with state := .ready, entered := now, order := order } else n

/-- A placement opportunity begins (R330): nothing has been examined at it. -/
def State.opportunity (s : State) : State := { s with disp := { s.disp with examined := [], entries := s.disp.entries + 1 } }

/-- GRAPH_RELEASE: the earliest graph of a stream that has not been released, when no earlier one remains and the stream
is not faulted (R326, R328). -/
def execGraphRelease (vi stream : Nat) (s : State) : Out :=
  match s.disp.graphs.find? fun g => decide (g.vi = vi) && decide (g.stream = stream) with
  | none => .next s
  | some g =>
    if g.released ∨ s.disp.faulted.contains (vi, stream) then .next s
    else
      let s1 : State := { s with disp := { s.disp with
        graphs := s.disp.graphs.map fun q => if q.id = g.id then { q with released := true } else q,
        nodes := s.disp.nodes.map fun n => if n.graph = g.id then n.enter s.pow.now s.disp.entries else n } }
      .next s1.opportunity

/-! ### Placement (R329 to R332) -/

/-- Where a node stands in the order of R330: level, turn of its interface (0 for a node that waits for power, which stays at
the head of its level, R332), moment of entry into the pool, slot. -/
structure Rank where
  level : Nat
  turn : Nat
  order : Nat
  slot : Nat
  deriving DecidableEq, Repr

/-- The rank of a node of the pool. -/
def State.rank (s : State) (n : Node) : Rank :=
  let l := s.rung n
  ⟨l, if s.pow.waits.contains n.slot then 0 else (n.vi + 128 - Sp.get s.disp.served l 0) % 128 + 1, n.order, n.slot⟩

/-- Whether a rank comes before another. -/
def Rank.before (a b : Rank) : Bool :=
  if a.level ≠ b.level then decide (b.level < a.level)
  else if a.turn ≠ b.turn then decide (a.turn < b.turn)
  else if a.order ≠ b.order then decide (a.order < b.order)
  else decide (a.slot < b.slot)

/-- A node put into a list in the order of R330. -/
def State.insertRank (s : State) (l : List Node) (n : Node) : List Node :=
  match l with
  | [] => [n]
  | x :: r => if (s.rank n).before (s.rank x) then n :: x :: r else x :: s.insertRank r n

/-- Nodes in the order of R330. -/
def State.inOrder (s : State) (l : List Node) : List Node := l.foldl s.insertRank []

/-- The candidates of an opportunity: funded nodes of enabled interfaces that no status has ended; filler nodes below all,
while the draw stands below the envelope (R371, R372). -/
def State.candidates (s : State) : List Node :=
  s.inOrder (s.disp.nodes.filter fun n => n.pooled && decide (n.status = 0) && (s.vi n.vi).enabled && (s.vi n.vi).funded &&
    (!s.filler n || decide (100 * s.pow.draw < s.pow.envelope)))

/-- Whether a cluster is free for placement. -/
def State.freeAt (s : State) (d c : Nat) : Bool :=
  s.clusters.all fun x => !(decide (x.die = d) && decide (x.clus = c)) || (decide (x.status = .idle) && !x.fenced)

/-- Free clusters of a node's kind in its interface's set, by die. -/
def State.freeClusters (s : State) (n : Node) : List (Nat × List Nat) :=
  (List.range 24).map fun d => (d, ((s.vi n.vi).dieSet d).filter fun c => kindFits n.vkind c && s.freeAt d c)

/-- A number put into a list in descending order. -/
def insertDesc (l : List Nat) (x : Nat) : List Nat :=
  match l with
  | [] => [x]
  | y :: r => if y < x then x :: y :: r else y :: insertDesc r x

/-- The most clusters that `k` dies of a list hold together. -/
def bestOf (l : List (Nat × List Nat)) (k : Nat) : Nat :=
  (((l.map fun x => x.2.length).foldl insertDesc []).take k).foldl (· + ·) 0

/-- The first set of `k` dies, in the order of R331, that holds `g` clusters. -/
def chooseDies (l : List (Nat × List Nat)) (k g : Nat) : List (Nat × List Nat) :=
  match l with
  | [] => []
  | x :: r =>
    if k = 0 then []
    else if g ≤ x.2.length + bestOf r (k - 1) then x :: chooseDies r (k - 1) (g - x.2.length)
    else chooseDies r k g

/-- R331: the clusters for a gang of `g`, or none where they do not admit it. -/
def choosePlaces (free : List (Nat × List Nat)) (g : Nat) (home : Option Nat) : Option (List (Nat × Nat)) :=
  let one := free.filter fun x => decide (g ≤ x.2.length)
  let named := one.find? fun x => decide (some x.1 = home)
  match named, one with
  | some x, _ => some ((x.2.take g).map fun c => (x.1, c))
  | none, x :: _ => some ((x.2.take g).map fun c => (x.1, c))
  | none, [] =>
    match (List.range 25).find? fun k => decide (g ≤ bestOf free k) with
    | none => none
    | some k => some (((chooseDies free k g).flatMap fun x => x.2.map fun c => (x.1, c)).take g)

/-- The die that homes OPND0 (R59), where the operand is used and translates: that of its base address, log entry 83. -/
def State.opndHome (s : State) (n : Node) : Option Nat :=
  let o := (n.opnd.headD 0).toNat
  if o / 2 ^ 56 = 0 then none
  else
    match s.pageOf n.vi (o % 2 ^ 56) false with
    | (_, .ok (pa, _)) => some (homeDie (canon pa))
    | (_, .error _) => none

/-- Whether a reserving node of the same kind, at an equal or higher level, holds a candidate back (R330). -/
def State.reservedAgainst (s : State) (n : Node) : Bool :=
  let rs := s.disp.nodes.filter fun r => r.pooled && decide (r.status = 0) && decide (r.vkind = n.vkind) && r.reserving.isSome
  let first := rs.foldl (fun (b : Option Node) r => match b with
    | none => some r
    | some x => if (r.reserving.getD 0) < (x.reserving.getD 0) then some r else some x) none
  match first with
  | some r => decide (r.slot ≠ n.slot) && decide (s.rung n ≤ s.rung r)
  | none => false

/-- R332, R370: whether the up-ramp limit admits a node: its class must not take the demand above the envelope. -/
def State.powerAdmits (s : State) (n : Node) : Bool :=
  decide (s.fe.ramp.toNat % 65536 = 0) || decide (s.pow.demand + n.classDraw ≤ s.pow.envelope)

/-- What one look of the dispatcher finds: the node to place with its clusters, the nodes that the clusters do not admit,
those of earlier looks of the opportunity among them, and those that the limiter holds back (R330, R332). -/
structure Look where
  found : Option (Node × List (Nat × Nat))
  seen : List Nat
  held : List Nat
  deriving DecidableEq, Repr

/-- The dispatcher looks through the candidates in order. -/
def State.look (s : State) (l : List Node) (seen : List Nat) (held : List Nat) : Look :=
  match l with
  | [] => ⟨none, seen, held⟩
  | n :: r =>
    if s.reservedAgainst n then s.look r seen held
    else
      match choosePlaces (s.freeClusters n) n.gang (s.opndHome n) with
      | some p => if s.powerAdmits n then ⟨some (n, p), seen, held⟩ else s.look r seen (if held.contains n.slot then held else held ++ [n.slot])
      | none => s.look r (if seen.contains n.slot then seen else seen ++ [n.slot]) held

/-- R330: a node passed over once more; at 64 it becomes reserving. -/
def Node.passOver (order : Nat) (n : Node) : Node :=
  { n with passed := n.passed + 1, reserving := if n.reserving.isNone ∧ 64 ≤ n.passed + 1 then some order else n.reserving }

/-- Counts of the nodes of one kind that were passed over. -/
def State.passAll (s : State) (vkind : Bool) (l : List Nat) : State :=
  l.foldl (fun s k =>
    match s.node k with
    | some n =>
      if n.vkind = vkind ∧ n.pooled then
        let s1 := s.updNode k (Node.passOver s.disp.reserveSeq)
        { s1 with disp := { s1.disp with reserveSeq := s1.disp.reserveSeq + 1 } }
      else s
    | none => s) s

/-- Strand `k` of a node at launch (R197, R241, R268, R331): registers from ARGS, tokens from TOK, PC at KERNEL, everything
else at its launch value; the first phase begins. -/
def Node.launch (n : Node) (code : Code) (k : Nat) : Strand :=
  let reg := fun (i : Nat) => n.regs.getD i 0
  let c : Ctl := { Ctl.launch with
    pc := n.kernel, g := Vector.ofFn fun (i : Fin 32) => if i.val = 0 then 0 else reg i.val,
    eb := Vector.ofFn fun (i : Fin 16) => reg (32 + i.val),
    tok := Vector.ofFn fun (i : Fin 16) => BitVec.ofNat 16 (n.tok.getD i.val 0) }
  let t : Strand := { Strand.launch with
    vi := n.vi, stream := n.stream, node := n.slot, idx := k, gang := n.gang, vkind := n.vkind, eclass := n.eclass,
    vars := n.vars, code := code, spadSize := spadGranules n.spad * 16384, ctl := c }
  t.commit

/-- R106, R108: the unified SRAM of `me` is made ready for a scratchpad of `size` bytes: lines of banks that leave L1 go,
dirty ones home first. At a launch shared and constant lines go too; at the restore of a switched-out strand constant ones do
(R109, log entry 98). -/
def State.repartition (s : State) (size : Nat) (launch : Bool) : State :=
  let out := s.me.l1.filter fun l => decide (l.bank < size / 16384)
  let s1 := out.foldl State.l1Flush s
  let keep := s1.me.l1.filter fun l => decide (size / 16384 ≤ l.bank) &&
    !(launch && decide (l.st = .shared)) && decide (l.st ≠ .constant)
  { s1 with me := { s1.me with l1 := keep } }

/-- A strand enters `me`: the split, then its state; the throttle registers are cleared (R364). -/
def State.enterStrand (s : State) (t : Strand) (launch : Bool) (st : Status) : State :=
  let s1 := s.repartition t.spadSize launch
  { s1 with me := { s1.me with st := t, status := st, thrNow := 0, thrSticky := 0, thrCyc := 0,
                               imp := BitVec.ofNat 2 (cappedLevel t.vars s1.me.imp.toNat) } }

/-- A cluster that the state does not list yet joins the peers as reset left it. -/
def State.ensure (s : State) (d c : Nat) : State :=
  if s.clusters.any fun x => decide (x.die = d) && decide (x.clus = c) then s
  else { s with peers := s.peers ++ [Cluster.reset d c] }

/-- Strands put on their clusters in order. -/
def State.enterAll (s : State) (l : List (Strand × (Nat × Nat))) (launch : Bool) (fin : List Nat) : State :=
  match l with
  | [] => s
  | (t, p) :: r =>
    let st := if fin.contains t.idx then Status.finished else .running
    (((s.ensure p.1 p.2).onCluster p.1 p.2 fun s => s.enterStrand t launch st)).enterAll r launch fin

/-- R152: every slot of a gang is zeroed. -/
def State.zeroSlots (s : State) (node : Nat) : State :=
  { s with slots := s.slots.filter fun x => decide (x.1 / 65536 ≠ node) }

/-- A free byte. -/
def State.drawByte (s : State) : State × Byte := ({ s with free := s.free + 1 }, Config.freeByte s.free)

/-- What a refetched byte reads where it lies. A byte of another package is a free value (log entry 101); one that its home
refuses is 0, with a record of the load engine (R117, R145). -/
def State.refetchAt (s : State) (pl : Place) (va : Word) (tag : BitVec 20) : State × Byte :=
  let got := fun (p : State × Except Cause (List Byte)) => match p with
    | (s1, .ok bs) => (s1, bs.headD 0)
    | (s1, .error c) => (s1.updSt fun t => t.record (accessTrap c .l 0 va tag), 0)
  match pl with
  | .mem pa type =>
    if type ≠ tSys then got (s.performRead pl 1 false tag)
    else if !s.zEnabled s.me.st.vi then got (s, .error .memRange)
    else if windowPkg pa = s.pkg then got (s.exportGet (s.rvi s.me.st.vi) (windowOff pa) 1)
    else s.drawByte
  | .spad _ => got (s.performRead pl 1 false tag)

/-- A byte read again from its replay pointer; none while its page waits for the front end (R76, R355). A byte whose page does
not translate for good leaves its trap with the load engine and is a free value (log entry 53). -/
def State.refetchByte (s : State) (va : Word) (tag : BitVec 20) : State × Option Byte :=
  match s.lookup va.toNat 1 false none with
  | (s1, .error c) =>
    if serviceable c && !s1.me.st.declined .l va then (s1.hold c va false .l, none)
    else
      let r := (s1.updSt fun t => (t.release .l).record { TrapRec.defer c .l 0 with addr := va }).drawByte
      (r.1, some r.2)
  | (s1, .ok pl) => let r := (s1.updSt fun t => t.release .l).refetchAt pl va tag; (r.1, some r.2)

/-- R358: bytes of a load queue read again from their replay pointers, up to one that waits. -/
def State.refetch (s : State) (l : List (Word × BitVec 20)) (acc : List Byte) : State × List Byte :=
  match l with
  | [] => (s, acc.reverse)
  | (va, tag) :: r =>
    match s.refetchByte va tag with
    | (s1, some b) => s1.refetch r (b :: acc)
    | (s1, none) => (s1, acc.reverse)

/-- One load queue of `me` is filled again from where its refetch stands; while an access of the load engine is held the rest
waits. -/
def State.refetchQueue (s : State) (k : Fin 4) : State :=
  let q := s.me.st.q
  if s.me.st.held.any fun h => decide (h.eng = .l) && Held.open' h then s
  else
    let (s1, bs) := s.refetch ((q.src.get k).drop (q.lq.get k).length) []
    s1.updSt fun t => { t with q := { t.q with lq := t.q.lq.set k.val (q.lq.get k ++ bs) k.isLt } }

/-- Whether bytes of a load queue still wait for their refetch. -/
def Strand.refetching (t : Strand) : Bool := (List.finRange 4).any fun k => decide ((t.q.lq.get k).length < (t.q.src.get k).length)

/-- The load queues of `me` are filled again, and the phase begins with them. Where a byte waits for the front end the wire
stands, and its release goes on with the refetch before a word issues. -/
def State.refetchAll (s : State) : State := ((List.finRange 4).foldl State.refetchQueue s).updSt Strand.commit

/-- The placements that the front end notes of a gang: cluster, node, strand (R149). -/
def placements (slot : Nat) (places : List (Nat × Nat)) : List (Nat × Nat × Nat) :=
  places.zipIdx.map fun x => (64 * x.1.1 + x.1.2, slot, x.2)

/-- R331, R358: a node goes to its clusters: a launch, or the restore of a switched-out gang, which is no launch for the L1
(log entry 98). Its class joins the demand of placed work, but a filler's does not: it raises the draw alone (R370, R371). -/
def State.place (s : State) (n : Node) (places : List (Nat × Nat)) : State :=
  let code := ((s.vi n.vi).kernelAt n.kernel.toNat).getD Code.empty
  let s1 := s.updNode n.slot fun n => { n with state := .placed, places := places, saved := [], reserving := none, passed := 0 }
  let s2 := { s1 with disp := { s1.disp with served := Sp.set s1.disp.served (s.rung n) (n.vi + 1) 0 },
                      fe := { s1.fe with placed := placements n.slot places ++ s1.fe.placed },
                      pow := { s1.pow with demand := if s.filler n then s1.pow.demand else s1.pow.demand + n.classDraw } }
  if n.state = .away then
    let s3 := s2.enterAll (n.saved.zip places) false n.finished
    places.foldl (fun s p => s.onCluster p.1 p.2 State.refetchAll) s3
  else
    (s2.zeroSlots n.slot).enterAll (((List.range n.gang).map (n.launch code)).zip places) true []

/-- `n` bytes of an interface, which lie in one 64 KiB granule, enter the slice that homes them. -/
def State.primePart (s : State) (vi va n : Nat) : State :=
  if n = 0 then s
  else
    match s.pageOf vi va false with
    | (s1, .ok (pa, _)) => s1.l2Range (canon pa) n false
    | (s1, .error _) => s1

/-- The first 64 KiB of OPND0 enter their home L2 (R331); no value changes. -/
def State.prime (s : State) (n : Node) : State :=
  let o := (n.opnd.headD 0).toNat
  let va := o % 2 ^ 56
  if o / 2 ^ 56 = 0 then s
  else (s.primePart n.vi va (65536 - va % 65536)).primePart n.vi (va + 65536 - va % 65536) (va % 65536)

/-- PLACEMENT: the first candidate that clusters and power admit is placed, and those examined before it are passed over
(R330 to R332); an opportunity at which none is left has ended. -/
def execPlacement (s : State) : Out :=
  let w := s.look s.candidates s.disp.examined (s.pow.waits.filter fun k => ((s.node k).map Node.pooled).getD false)
  let s1 := { s with pow := { s.pow with waits := w.held } }
  match w.found with
  | some (n, p) =>
    let seen := w.seen.filter (· ≠ n.slot)
    let s2 := { s1.passAll n.vkind seen with disp := { (s1.passAll n.vkind seen).disp with examined := seen } }
    .next ((s2.prime n).place n p)
  | none => .next { s1 with disp := { s1.disp with examined := [] } }

/-! ### Completion (R326 to R328) -/

/-- Whether a node is due to complete, and with which status: every strand has ended, or a status stands, its graph has
been released, and no cluster runs a strand of it. -/
def State.dueStatus (s : State) (n : Node) : Option Nat :=
  if n.status = 0 then (if n.finished.length = n.gang ∧ n.state = .placed then some 0 else none)
  else if n.state ≠ .placed ∧ (s.disp.graphs.any fun g => decide (g.id = n.graph) && g.released) then some n.status
  else none

/-- A cluster that holds no strand any more. -/
def Cluster.vacate (c : Cluster) : Cluster :=
  { c with status := .idle, st := { Strand.launch with vkind := decide (48 ≤ c.clus) } }

/-- Clusters of a node are free again. -/
def State.freeNodeClusters (s : State) (slot : Nat) : State :=
  s.mapClusters fun c => if c.status ≠ .idle ∧ c.st.node = slot then c.vacate else c

/-- A completion acts on a successor: its counter falls by 1 (R326), or it fails too (R328). -/
def Node.predDone (now order idx status : Nat) (n : Node) : Node :=
  if !n.preds.contains idx then n
  else if status ≠ 0 then (if n.status = 0 then { n with status := 4 } else n)
  else { n with left := n.left - 1 }.enter now order

/-- Retires every tag that a stream still owns, as if by TRETIRE (R159). -/
def State.retireStream (s : State) (vi stream : Nat) : State :=
  let mine := s.tags.filter fun r => decide (r.st = .live) && decide (r.vi = vi) && decide (r.stream = stream)
  mine.foldl (fun s r => (s.setTag { r with st := .retiring }).addRetire ⟨r.die, r.idx, vi, none, [], []⟩) s

/-- Whether a scope of a tear-down has ended: no node of it remains. -/
def State.scopeEmpty (s : State) (vi : Nat) (stream : Option Nat) : Bool :=
  s.disp.nodes.all fun n => !(decide (n.vi = vi) && (match stream with | some k => decide (n.stream = k) | none => true))

/-- Ends the tear-downs of an interface whose nodes have all completed: tags are retired, EN falls, TEARDOWN completes
(R159, R337, R415, R417). -/
def State.endTearDown (s : State) (vi : Nat) : State :=
  let v := s.vi vi
  let ended := v.tearing.filter fun k => s.scopeEmpty vi (some k)
  let s1 := ended.foldl (fun s k => s.retireStream vi k) s
  let whole := v.closing && s.scopeEmpty vi none
  let streams := (s1.tags.filter fun r => decide (r.st = .live) && decide (r.vi = vi)).map fun r => r.stream
  let s2 := if whole then streams.eraseDups.foldl (fun s k => s.retireStream vi k) s1 else s1
  let v2 := s2.vi vi
  let s3 := s2.setVi vi { v2 with tearing := v2.tearing.filter fun k => !ended.contains k,
                                  closing := v2.closing && !whole,
                                  vicfg := if whole ∧ v2.disabling then v2.vicfg &&& ~~~1 else v2.vicfg,
                                  disabling := v2.disabling && !whole }
  let busy := v.mbox.busy && decide (v.mbox.cmd = 3) && (whole || ended.any fun k => decide ((v.mbox.arg.get 0).toNat = k))
  if busy then s3.mboxDone vi 0 else s3

/-- R327, R328, R393: a node leaves the table with a status. -/
def State.completeNode (s : State) (n : Node) (status : Nat) : State :=
  let full := !s.nodesFit 1
  let s1 := (s.freeNodeClusters n.slot).collsEnd n.slot
  let s2 := s1.completion n status
  let rest := s2.disp.nodes.filter fun q => decide (q.slot ≠ n.slot)
  let nodes := rest.map fun q => if q.graph = n.graph then q.predDone s.pow.now s.disp.entries n.gidx status else q
  let last := !(rest.any fun q => decide (q.graph = n.graph))
  let failed := decide (status ≠ 0) || s2.disp.graphs.any fun g => decide (g.id = n.graph) && g.failed
  let graphs := if last then s2.disp.graphs.filter fun g => decide (g.id ≠ n.graph)
    else s2.disp.graphs.map fun g => if g.id = n.graph then { g with failed := failed } else g
  let faulted := if last ∧ failed ∧ !s2.disp.faulted.contains (n.vi, n.stream) then s2.disp.faulted ++ [(n.vi, n.stream)]
    else s2.disp.faulted
  let s3 := { s2 with disp := { s2.disp with nodes := nodes, graphs := graphs, faulted := faulted },
                      stallWires := s2.stallWires.filter (· ≠ n.slot),
                      fe := { s2.fe with placed := s2.fe.placed.filter fun x => decide (x.2.1 ≠ n.slot) } }
  let s4 := s3.opportunity.endTearDown n.vi
  if full then s4.scanEvery else s4

/-- NODE_COMPLETE (R327). -/
def execNodeComplete (node : Nat) (s : State) : Out :=
  match s.node node with
  | none => .next s
  | some n =>
    match s.dueStatus n with
    | some st => .next (s.completeNode n st)
    | none => .next s

end Sys2Proof.Machine
end

