-- ==== Sys2Proof/Machine/Switch.lean ====
section
/-!
DEFINITION. Page walks, shootdowns and serviced faults as steps of their own (R66, R69 to R71, R76, R355), the watchdogs
(R359), YIELD (R340), and the end of a slice with its switch-out (R356 to R358).
-/

namespace Sys2Proof.Machine

/-! ### Page walks (R66 to R68) -/

/-- PAGE_WALK: the walker resolves an address for the cluster of `me`; A and D are set and the TLB is filled. A walk that
finds no page leaves the TLB as it is. -/
def execPageWalk (va : BitVec 64) (write : Bool) (s : State) : Out :=
  if rsvdBase ≤ va.toNat then .next s
  else
    let page := fun (e : TlbEntry) => decide (e.vi = s.me.st.vi) && decide (va.toNat / e.size * e.size = e.va)
    let miss := { s with me := { s.me with tlb := s.me.tlb.filter fun e => !page e } }
    match miss.xlate s.me.st.vi va.toNat write with
    | (s1, .ok _) => .next s1
    | (s1, .error _) => .next { s1 with me := s.me }

/-! ### Serviced faults (R76, R355) -/

/-- The first held fault that waits takes the front end's answer. -/
def answerHeld (ok : Bool) (l : List Held) : List Held :=
  match l with
  | [] => []
  | h :: r => if h.open' then { h with serviced := ok, declined := !ok } :: r else h :: answerHeld ok r

/-- Page-table words written at their homes. -/
def State.writePtes (s : State) (l : List (Nat × BitVec 64)) : State :=
  l.foldl (fun s x =>
    if x.1 % 8 = 0 ∧ (apert x.1 = .linear ∨ apert x.1 = .interleaved) then s.baseWrite (canon x.1) (leBytes 8 x.2.toNat)
    else s) s

/-- R115: whether some page-table words stand outside reserved DRAM, and those that are pointers name tables there. -/
def State.tablesFree (s : State) (l : List (Nat × BitVec 64)) : Bool :=
  l.all fun x => !s.reservedAt (canon x.1) && (decide (x.2.toNat % 4 ≠ 1) || !s.reservedAt (canon (nextTable x.2.toNat)))

/-- The leaves that the tables of an interface hold, each with the first address that it translates. -/
def State.leavesFrom (s : State) (table va : Nat) (levels : List Nat) : List (Nat × Leaf) :=
  match levels with
  | [] => []
  | lvl :: rest =>
    (List.range (if lvl = 4 then 256 else if lvl = 0 then 32 else 512)).flatMap fun k =>
      let at' := canon (table + 8 * k)
      let e := leNat (s.mem.readN at' 8)
      if (s.mem.read at').toNat % 2 = 0 then []
      else if e / 2 % 2 = 1 then (if leafOk s.pubs lvl e then [(va + k * 2 ^ levelShift lvl, ⟨at', e, leafSize lvl⟩)] else [])
      else if pointerOk lvl e then s.leavesFrom (nextTable e) (va + k * 2 ^ levelShift lvl) rest
      else []

/-- The leaves of an interface. -/
def State.leaves (s : State) (vi : Nat) : List (Nat × Leaf) :=
  let ptb := (s.vi vi).ptb.toNat
  if ptb % 2 = 0 then [] else s.leavesFrom (ptb / 2048 % 2 ^ 41 * 2048) 0 [4, 3, 2, 1, 0]

/-- The canonical address in the interleaved aperture's order: the inverse of `canon` on stacked DRAM (R58). -/
def uncanon (a : Nat) : Nat := ilBase + (a % Config.dieBytes / 65536 * 24 + a / Config.dieBytes) * 65536 + a % 65536

/-- Whether a canonical address lies in `n` bytes from a physical address on. -/
def inPage (pa n a : Nat) : Bool :=
  let x := if apert pa = .interleaved ∧ a < dramTop then uncanon a else a
  decide (pa ≤ x) && decide (x < pa + n)

/-- Whether a granule of a page is pinned (R73). -/
def State.pagePinned (s : State) (pa n : Nat) : Bool := s.pins.any fun p => inPage pa n (p.granule * 65536)

/-- R74, R115: whether the pages of an interface may go from the leaves `old` to the leaves `new`: no page with a pinned
granule is remapped or freed, and no page holds reserved DRAM. -/
def State.pagesKeep (s : State) (old new : List (Nat × Leaf)) : Bool :=
  let kept := fun (x : Nat × Leaf) => new.any fun y =>
    decide (y.1 = x.1) && decide (y.2.size = x.2.size) && decide (leafPa y.2.entry = leafPa x.2.entry) && decide (y.2.type = x.2.type)
  (old.all fun x => !s.pagePinned (leafPa x.2.entry) x.2.size || kept x) && new.all fun x => !s.reservedIn (leafPa x.2.entry) x.2.size

/-- R74, R115: whether the front end may write some page-table words now, as every interface sees them. -/
def State.mayRemap (s : State) (l : List (Nat × BitVec 64)) : Bool :=
  s.tablesFree l && s.vis.all fun v => s.pagesKeep (s.leaves v.1) ((s.writePtes l).leaves v.1)

/-- FAULT_SERVICE: the core that holds the gang's fault (R419) maps the page or grants the write by the words it writes,
or the pager declines. A request that would remap a pinned granule is held (R74); reserved DRAM is never mapped (R115). -/
def execFaultService (serviced : Bool) (writes : List (Nat × BitVec 64)) (s : State) : Out :=
  let s0 := s.pool
  let e := Event.fault s.me.st.node
  if s.me.st.held.any Held.open' && s0.holds e && !(serviced && !s0.mayRemap writes) then
    let s1 := (if serviced then s0.writePtes writes else s0).updSt fun t => { t with held := answerHeld serviced t.held }
    .next (s1.handled e)
  else .next s0

/-- The clusters of the gang of `me`. -/
def State.gangClusters (s : State) : List Cluster := s.clusters.filter s.inGang

/-- STALL_WIRE_RELEASE: with every fault of the gang answered the wire falls; serviced accesses repeat, declined ones
become traps when they repeat. A refetch that waited goes on at once (R358). -/
def execStallWireRelease (s : State) : Out :=
  let node := s.me.st.node
  if s.stallWires.contains node && !(s.gangClusters.any fun c => c.st.held.any Held.open') then
    let s1 := s.mapClusters fun c =>
      if s.inGang c then { c with st := { c.st with held := c.st.held.filter fun h => h.declined } } else c
    let s2 := { s1 with stallWires := s.stallWires.filter (· ≠ node) }
    .next (s.gangClusters.foldl (fun s c => if c.st.refetching then s.onCluster c.die c.clus State.refetchAll else s) s2)
  else .next s

/-! ### Shootdown (R69, R70) -/

/-- The bits of SYS_SDCTL that a write sets: all but PINNED and the reserved ones. -/
def sdMask : Word := 0xFFFF2FFF

/-- Page size of SYS_SDCTL.SIZE. -/
def sdSize (v : Word) : Nat :=
  match v.toNat / 8 % 4 with
  | 0 => 2 ^ 16
  | 1 => 2 ^ 21
  | _ => 2 ^ 30

/-- First address and length of the range (R69); VA is taken at a multiple of SIZE, log entry 87. -/
def State.sdRange (s : State) (v : Word) : Nat × Nat :=
  let n := sdSize v
  let va := s.fe.sdva.toNat / 65536 % 2 ^ 40 * 65536
  (va / n * n, if v.toNat / 2 % 4 = 1 then (v.toNat / 65536 % 65536 + 1) * n else n)

/-- Whether `n` bytes at an address of an interface lie in the scope. -/
def State.sdCovers (s : State) (v : Word) (vi va n : Nat) : Bool :=
  let own := decide (v.toNat / 32 % 128 = vi)
  match v.toNat / 2 % 4 with
  | 3 => true
  | 2 => own
  | _ => let r := s.sdRange v
         own && decide (va < r.1 + r.2) && decide (r.1 < va + n)

/-- The part of `n` bytes at an address, translated to `pa`, that lies in the scope. -/
def State.sdPart (s : State) (v : Word) (vi va n pa : Nat) : List (Nat × Nat) :=
  if !s.sdCovers v vi va n then []
  else if 2 ≤ v.toNat / 2 % 4 then [(pa, n)]
  else
    let r := s.sdRange v
    let lo := if va < r.1 then r.1 else va
    let hi := if va + n < r.1 + r.2 then va + n else r.1 + r.2
    [(pa + (lo - va), hi - lo)]

/-- The physical pages of the scope: those of the translations that go, those that some cluster has used since the last
shootdown, those that the tables name now, and those that running commands took at their submission; log entry 56. -/
def State.sdPages (s : State) (v : Word) : List (Nat × Nat) :=
  let vi := v.toNat / 32 % 128
  let gone := s.clusters.flatMap fun c => c.tlb.flatMap fun e => s.sdPart v e.vi e.va e.size e.pa
  let used := s.seen.flatMap fun e => s.sdPart v e.vi e.va e.size e.pa
  let now := (s.leaves vi).flatMap fun x => s.sdPart v vi x.1 x.2.size (leafPa x.2.entry)
  let run := s.shadow.flatMap fun q => q.pages.flatMap fun p => s.sdPart v q.vi (p.1 * 65536) 65536 (p.2 * 65536)
  let coll := s.fab.colls.flatMap fun c => c.pages.flatMap fun p => s.sdPart v c.vi (p.1 * 65536) 65536 (p.2 * 65536)
  gone ++ used ++ now ++ run ++ coll

/-- Whether a canonical address lies in one of some physical pages. -/
def inPages (l : List (Nat × Nat)) (a : Nat) : Bool := l.any fun p => inPage p.1 p.2 a

/-- Whether an L1 line is among the lines that FLUSH takes. -/
def State.sdLine (s : State) (v : Word) (l : L1Line) : Bool :=
  decide (v.toNat / 2 % 4 = 3) || inPages (s.sdPages v) (64 * l.line)

/-- The lines that FLUSH takes go home where dirty, and leave every L1. -/
def State.sdFlush (s : State) (v : Word) : State :=
  let dirty := s.clusters.flatMap fun c => c.l1.filter (s.sdLine v)
  let s1 := dirty.foldl State.l1Flush s
  s1.mapClusters fun c => { c with l1 := c.l1.filter fun l => !s.sdLine v l }

/-- Whether a page of the scope is pinned in any table. -/
def State.sdPinned (s : State) (v : Word) : Bool :=
  let pages := s.sdPages v
  s.pins.any fun p => decide (v.toNat / 2 % 4 = 3) || inPages pages (p.granule * 65536)

/-- Every strand of the package, on a cluster or saved. -/
def State.strands (s : State) : List Strand :=
  ((s.clusters.filter fun c => decide (c.status ≠ .idle)).map fun c => c.st) ++ s.disp.nodes.flatMap fun n => n.saved

/-- The address and length of the access that an entry makes under a translation taken before. -/
def Entry.heldVa (e : Entry) : List (Nat × Nat) :=
  match e.cmd with
  | .load _ ea _ sz _ => [(ea.toNat, sizeBytes sz)]
  | .ldx _ ea _ sz _ => [(ea.toNat, sizeBytes sz)]
  | .zlrs _ ea _ => [(ea.toNat, 32)]
  | .store ea _ sz _ => [(ea.toNat, sizeBytes sz)]
  | .zlsv ea _ _ => [(ea.toNat, 32)]
  | .atomic _ _ ea _ d64 _ _ _ _ => [(ea.toNat, if d64 then 8 else 4)]
  | .qld _ sz b c0 s0 _ s1 => if e.stage = .submitted then [((streamAddr b c0 s0 s1 e.done).toNat, sizeBytes sz)] else []
  | .qst _ sz b c0 s0 _ s1 => if e.stage = .submitted then [((streamAddr b c0 s0 s1 e.done).toNat, sizeBytes sz)] else []
  | _ => []

/-- Whether the matrix entry that a strand runs holds bytes at old addresses of the scope (R80). -/
def State.sdMatrix (s : State) (v : Word) (t : Strand) (n : Nat) : Bool :=
  match t.mrun with
  | some r => decide (r.blk.seq < n) && r.shadow.any fun b => s.sdCovers v t.vi b.va.toNat 1
  | none => false

/-- Whether a strand still has an access of the scope that it issued before number `n`. -/
def State.sdOwes (s : State) (v : Word) (t : Strand) (n : Nat) : Bool :=
  s.sdMatrix v t n ||
  (t.entries.any fun e => decide (e.seq < n) && decide (e.stage ≠ .performed) &&
    e.heldVa.any fun x => s.sdCovers v t.vi x.1 x.2) ||
    t.nt.any fun b => decide (b.first < n) && s.sdCovers v t.vi (b.va.toNat / 64 * 64) 64

/-- The pointer entries that walkers keep (R70, R71): all go for SCOPE 2 and 3, else those of the range. -/
def State.sdPtrs (s : State) (v : Word) : List Ptr :=
  if 2 ≤ v.toNat / 2 % 4 then []
  else s.ptrs.filter fun p => !s.sdCovers v p.vi (p.idx * 2 ^ levelShift p.lvl) (2 ^ levelShift p.lvl)

/-- Whether a used translation lies wholly in the scope, so that no access uses it any more. -/
def State.sdWhole (s : State) (v : Word) (e : Seen) : Bool :=
  let r := s.sdRange v
  s.sdCovers v e.vi e.va e.size && (decide (2 ≤ v.toNat / 2 % 4) || (decide (r.1 ≤ e.va) && decide (e.va + e.size ≤ r.1 + r.2)))

/-- The start of a shootdown: TLB entries and pointer entries of the scope go, with their lines where FLUSH asks for it. -/
def State.sdStart (s : State) (v : Word) : State :=
  let s1 := if v.getLsbD 13 then s.sdFlush v else s
  let s2 := s1.mapClusters fun c => { c with tlb := c.tlb.filter fun e => !s.sdCovers v e.vi e.va e.size }
  { s2 with ptrs := s.sdPtrs v, seen := s2.seen.filter fun e => !s.sdWhole v e, fe := { s2.fe with
      sdctl := if s.sdPinned v then s2.fe.sdctl ||| 0x1000 else s2.fe.sdctl,
      sdMarks := s.strands.map fun t => (t.node, t.idx, t.seq) } }

/-- A write of SYS_SDCTL (R69): none while GO is 1; GO with the reserved SIZE does nothing. -/
def State.sdWrite (s : State) (v : Word) : State :=
  let old := s.fe.sdctl
  if old.getLsbD 0 || (v.getLsbD 0 && decide (v.toNat / 8 % 4 = 3)) then s
  else
    let pinned := if v.getLsbD 12 then 0 else old &&& 0x1000
    let s1 := { s with fe := { s.fe with sdctl := (v &&& sdMask) ||| pinned } }
    if v.getLsbD 0 then s1.sdStart v else s1

/-- A write of SYS_SDCTL that starts a shootdown of the given SCOPE; none arrives before the windows open or while the host
link is down (R2, R423). -/
def shootdown (scope : Nat) (v : Word) (s : State) : Out :=
  .next (if s.hostUp then s.sdWrite ((v &&& ~~~6) ||| BitVec.ofNat 64 (2 * scope) ||| 1) else s)

/-- SHOOTDOWN_PAGE: SCOPE 0. -/
def execShootdownPage (v : BitVec 64) (s : State) : Out := shootdown 0 v s
/-- SHOOTDOWN_RANGE: SCOPE 1. -/
def execShootdownRange (v : BitVec 64) (s : State) : Out := shootdown 1 v s
/-- SHOOTDOWN_VI: SCOPE 2. -/
def execShootdownVi (v : BitVec 64) (s : State) : Out := shootdown 2 v s
/-- SHOOTDOWN_ALL: SCOPE 3. -/
def execShootdownAll (v : BitVec 64) (s : State) : Out := shootdown 3 v s

/-- SHOOTDOWN_COMPLETE: GO reads 0 once every access issued under an old translation has reached its home. -/
def execShootdownComplete (s : State) : Out :=
  let v := s.fe.sdctl
  let owes := s.fe.sdMarks.any fun m => s.strands.any fun t =>
    decide (t.node = m.1) && decide (t.idx = m.2.1) && s.sdOwes v t m.2.2
  if v.getLsbD 0 && !owes then .next { s with fe := { s.fe with sdctl := v &&& ~~~1, sdMarks := [] } } else .next s

/-! ### Watchdogs (R359) -/

/-- SYS_WDOG.CINT and EINT in units of 12.5 µs. -/
def State.wdLimit (s : State) (engine : Bool) : Nat :=
  let w := (s.vi s.me.st.vi).wdog.toNat
  80 * (if engine then w / 65536 % 65536 else w % 65536)

/-- CONTROL_WATCHDOG_EXPIRE: the word at which the control sequencer stalls raises a precise WDOG. -/
def execControlWatchdogExpire (s : State) : Out :=
  let lim := s.wdLimit false
  if s.me.status = .running ∧ s.me.st.stall ∧ lim ≠ 0 ∧ lim ≤ s.me.st.wdC ∧ !s.stallWires.contains s.me.st.node then
    .next ((s.updSt fun t => { t with finish := false }).trapEntry (TrapRec.precise .wdog s.ctl.pc))
  else .next s

/-- The record of an engine's watchdog: it names the entry that makes no progress. -/
def Strand.wdRecord (t : Strand) (e : Eng) : Option TrapRec :=
  match e with
  | .c => none
  | .v => t.vrun.map fun r => r.trapOf false .wdog
  | .m => t.mrun.map fun r => r.trapOf true .wdog
  | e =>
    match t.queue e with
    | h :: _ => if h.stage = .begun ∨ h.stage = .submitted then some (TrapRec.defer .wdog e h.waddr) else none
    | [] => none

/-- A count past every interval: the engine's watchdog has expired and waits for progress. -/
def wdSpent : Nat := 2 ^ 40

/-- ENGINE_WATCHDOG_EXPIRE: the engine records a deferred WDOG once, and its entry goes on waiting. -/
def execEngineWatchdogExpire (e : Eng) (s : State) : Out :=
  let lim := s.wdLimit true
  let n := s.me.st.wdE.get (engIdx e)
  if s.me.status ≠ .idle ∧ lim ≠ 0 ∧ lim ≤ n ∧ n < wdSpent ∧ !s.stallWires.contains s.me.st.node then
    match s.me.st.wdRecord e with
    | some r => .next (s.updSt fun t => { t.record r with wdE := t.wdE.set (engIdx e).val wdSpent (engIdx e).isLt })
    | none => .next s
  else .next s

/-! ### Whether a gang may leave (R356) -/

/-- Slot sets saved in the overflow area of a die (R140): every place of a node that is switched out counts, also that of a
completed strand, and of a gang that a tear-down has ended until its node completes (log entry 112). -/
def State.savedSets (s : State) (die : Nat) : Nat :=
  (s.disp.nodes.filter fun n => decide (n.state = .away) || decide (n.state = .held)).foldl
    (fun k n => k + (n.places.filter fun p => decide (p.1 = die)).length) 0

/-- Whether the overflow areas take the sets of the gang of `me`. -/
def State.overflowFree (s : State) : Bool :=
  (List.range 24).all fun d =>
    let k := (s.gangClusters.filter fun c => decide (c.die = d)).length
    decide (k = 0) || decide (s.savedSets d + k ≤ 4096)

/-- Whether a RELAX or RELAXB of a group runs on a cluster (R309). -/
def Cluster.inGroupRelax (c : Cluster) : Bool :=
  match c.member with
  | some q => decide (q.m.rx.members ≠ 1) && decide (7 ≤ q.r.work.stage)
  | none => false

/-- R356, R222: whether a slice end may take effect on the gang of `me`; it never splits a ZLRS. -/
def State.switchable (s : State) : Bool :=
  let node := s.me.st.node
  !s.stallWires.contains node && !(s.tagWaits.any fun w => decide (w.node = node)) && s.overflowFree &&
    !(s.gangClusters.any Cluster.inGroupRelax) && !(s.gangClusters.any fun c => c.st.zlrec.isSome)

/-- R340: whether a node of the gang's interface stands in the pool at or above the gang's level. -/
def State.yieldsTo (s : State) : Bool :=
  match s.node s.me.st.node with
  | none => false
  | some n => s.disp.nodes.any fun q => q.pooled && decide (q.vi = n.vi) &&
      decide ((if s.filler n then 0 else s.capped n.vi n.prio + 1) ≤ s.rung q)

/-- `yield gD` (R340): as `rdv` of every engine, then the offer of the slice. -/
def execYield (g : Guard) (d : Reg) (s : State) : Out :=
  guarded g s fun s =>
    match s.me.st.firstTrap EMask.all engOrder with
    | some r => deliver r s
    | none =>
      if engOrder.all s.me.st.engineIdle then
        if (s.vi s.me.st.vi).sliced && s.yieldsTo && s.switchable then .next ((s.writeG d 1).retire.commitIdle.leaveGang)
        else .next (s.writeG d 0).retire.commitIdle
      else wait s

/-! ### Slices (R356, R371, R372) -/

/-- Whether a node that the dispatcher could place waits for the clusters of the gang of `me`. -/
def State.waitedFor (s : State) (p : Node → Bool) : Bool :=
  s.disp.nodes.any fun n => n.pooled && (s.vi n.vi).enabled && (s.vi n.vi).funded && p n &&
    decide (n.vkind = s.me.st.vkind) && s.gangClusters.any fun c => (s.vi n.vi).owns c.die c.clus

/-- Whether the slice of the gang of `me` is due to end: its quantum is over and a node waits, its interface's balance is
spent, or it is filler and another node waits. -/
def State.sliceDue (s : State) : Bool :=
  let v := s.vi s.me.st.vi
  let quant := v.slice.toNat % 2 ^ 24
  let isFiller := match s.node s.me.st.node with
    | some n => s.filler n
    | none => false
  (v.sliced && ((decide (quant ≠ 0) && decide (quant ≤ s.me.st.slice) && s.waitedFor fun n => !s.filler n) || !v.funded)) ||
    (isFiller && s.waitedFor fun n => !s.filler n)

/-- SLICE_END: the gang of `me` begins to leave its clusters. -/
def execSliceEnd (s : State) : Out :=
  if s.me.status = .running ∧ s.sliceDue ∧ s.switchable then .next s.leaveGang else .next s

/-! ### The switch-out (R357, R358) -/

/-- Whether the store FIFO stalls for a tag or for a cell, which the interval of R160 times (R161). -/
def State.tagStalled (s : State) (t : Strand) : Bool :=
  match t.squ with
  | [] => false
  | h :: _ =>
    let full := fun (pl : Place) => match pl with
      | .mem pa type => s.cellStalls pa type h.tag
      | .spad _ => false
    match h.cmd with
    | .talloc _ => decide (h.stage = .submitted)
    | .store _ pl _ _ => decide (h.stage = .begun) && full pl
    | .qst q sz b c0 s0 _ s1 =>
      decide (h.stage = .begun) && decide (sizeBytes sz ≤ (t.q.sq.get ⟨q.toNat, q.isLt⟩).length) &&
        (let va := (streamAddr b c0 s0 s1 h.done).toNat
         match s.walkVi t.vi va with
         | .ok l => s.cellStalls (leafPa l.entry + va % l.size) l.type h.tag
         | .error _ => false)
    | .zlsv _ pls _ => decide (h.stage = .begun) && full (pls.getD h.done (.spad 0))
    | .atomic _ _ _ pl _ _ _ _ _ => decide (h.stage = .begun) && full pl
    | _ => false

/-- Whether a strand stands at the boundary that step 2 of R357 asks for: no entry has begun and not ended. -/
def Strand.quiet (t : Strand) : Bool :=
  (t.entries.all fun e => decide (e.stage = .queued)) && t.vrun.isNone && t.mrun.isNone && t.nt.isEmpty && !(t.held.any Held.open')

/-- Whether the head of an access-side queue waits for what nothing else will bring: tokens, bytes or room of its own strand,
or a tag or a cell without a limit on the wait. -/
def State.headStuck (s : State) (t : Strand) (e : Eng) : Bool :=
  let endless := (s.tagLimit t.vi).isNone && decide (e = .sq) && s.tagStalled t
  match t.queue e with
  | [] => true
  | h :: _ =>
    match h.stage with
    | .queued => !t.starved || t.halted e || t.blocked h ||
        (tkOk e t.vkind h.tk && h.cmd.regsOk && !t.ctl.tokensReady (popMask h.tk))
    | .begun => t.streamWaits h || endless
    | .submitted => endless
    | .performed => false

/-- Whether the vector engine of a strand waits for its own strand: for tokens, bytes or room, or for the matrix engine. -/
def Strand.vStuck (t : Strand) : Bool :=
  match t.vrun with
  | none => t.vqu.isEmpty || !t.starved
  | some r => t.vdry || (decide (r.work.stage = 1) && t.mrun.isSome)

/-- Whether the matrix engine of a cluster waits for its own gang. -/
def State.mStuck (s : State) (c : Cluster) : Bool :=
  match c.st.mrun with
  | none => c.st.mqu.isEmpty || !c.st.starved
  | some _ => c.st.mdry || s.relaxStuck c

/-- R337: whether the strand of a gang that a tear-down has ended can go on no further, though entries of it have begun (log
entry 57). -/
def State.stuck (s : State) (c : Cluster) : Bool :=
  [Eng.l, .sq, .k].all (s.headStuck c.st) && c.st.vStuck && s.mStuck c && c.st.nt.isEmpty && !(c.st.held.any Held.open')

/-- A strand as R358 saves it: the load queues keep their replay pointers alone. -/
def Strand.toSave (t : Strand) : Strand :=
  ({ t with q := { t.q with lq := Vector.replicate 4 [] }, finish := false, slice := 0 }).commit

/-- Strands of a list in the order of their index. -/
def byIndex (l : List Strand) (n : Nat) : List Strand := (List.range n).filterMap fun k => l.find? fun t => decide (t.idx = k)

/-- What becomes of a node whose gang has left: ended by a tear-down, trapped, or in the pool again. -/
def Node.left' (n : Node) (now order act : Nat) (saved : List Strand) : Node :=
  if n.status ≠ 0 then { n with state := .held, saved := [] }
  else if n.trapped.isSome then
    (if act = 0 then { n with state := .held, saved := saved, status := 5 } else { n with state := .held, saved := saved })
  else { n with state := .away, saved := saved, entered := now, order := order, passed := 0 }

/-- R351: the trap report of a node whose gang has left. -/
def State.trapReport (s : State) (n : Node) (saved : List Strand) : State :=
  match n.trapped with
  | none => s
  | some k =>
    match saved.find? fun t => decide (t.idx = k) with
    | none => s
    | some t => s.post (.record s.pow.telTime n.vi 1 0 k n.cookie.toNat n.slot n.gidx t.trapWords ((s.vi n.vi).tvec.toNat / 256 % 256))

/-- The gang of `me` leaves its clusters: dirty private lines go home, the strands are saved (not those of a node that a
tear-down ended), the clusters are free, and a trap is reported. -/
def State.switchOut (s : State) (n : Node) : State :=
  let gang := s.gangClusters
  let abort := decide (n.status ≠ 0)
  let s1 := if abort then s else gang.foldl (fun s c => s.onCluster c.die c.clus State.l1CleanAll) s
  let saved := if abort then [] else byIndex (gang.map fun c => c.st.toSave) n.gang
  let s2 := { s1.freeNodeClusters n.slot with tagWaits := s1.tagWaits.filter fun w => decide (w.node ≠ n.slot) }
  let s3 := (s2.updNode n.slot fun n => n.left' s.pow.now s.disp.entries ((s.vi n.vi).tvec.toNat % 2) saved).opportunity
  if abort then s3 else s3.trapReport n saved

/-- SWITCH_OUT_COMPLETE: once every strand of the gang of `me` stands at its boundary. -/
def execSwitchOutComplete (s : State) : Out :=
  match s.node s.me.st.node with
  | none => .next s
  | some n =>
    let gang := s.gangClusters
    let abort := decide (n.status ≠ 0)
    if s.me.status ≠ .idle ∧ gang.any (fun c => decide (c.status = .leaving)) ∧ !s.stallWires.contains n.slot ∧
       gang.all (fun c => decide (c.status = .finished) || (decide (c.status = .leaving) && (c.st.quiet || (abort && s.stuck c)))) ∧
       (abort ∨ s.overflowFree) then .next (s.switchOut n)
    else .next s

end Sys2Proof.Machine
end

