-- ==== Sys2Proof/Machine/Power.lean ====
section
/-!
DEFINITION. Power steps: the 100 µs tick of the ramp limiter with the clocks that it advances (R359, R361, R370, R373),
energy balances (R372), levels, rails and throttle reasons (R360 to R365), the package reserve (R6), and telemetry (R374).
-/

namespace Sys2Proof.Machine

/-! ### Time (R373) -/

/-- The timebase and the reference clock advance by some nanoseconds. -/
def Power.advance (p : Power) (ns : Nat) : Power :=
  let n := p.nsec + ns
  { p with now := p.now + ns, nsec := n % 1000000000, sec := (p.sec + n / 1000000000) % 2 ^ 34 }

/-- Eighths of the cycles in which the VM and VV engines run (R360, R361). -/
def Power.eighths (p : Power) : Nat :=
  let a := (p.opp.get 0).toNat
  let b := (p.opp.get 1).toNat
  match if a < b then b else a with
  | 0 => 8
  | 1 => 7
  | 2 => 6
  | _ => 4

/-! ### Counters of a cluster -/

/-- THR_CYC after more suppressed cycles, saturating (R363). -/
def addCyc (c : BitVec 48) (n : Nat) : BitVec 48 :=
  BitVec.ofNat 48 (if c.toNat + n < 2 ^ 48 then c.toNat + n else 2 ^ 48 - 1)

/-- Whether an engine has an entry that it has begun and not ended. -/
def Strand.working (t : Strand) (e : Eng) : Bool := (t.wdRecord e).isSome

/-- An engine's watchdog counts on while its entry makes no progress. -/
def Strand.tickEngine (t : Strand) (n : Nat) (e : Eng) : Strand :=
  let v := t.wdE.get (engIdx e)
  if t.working e && decide (v < wdSpent) then { t with wdE := t.wdE.set (engIdx e).val (v + n) (engIdx e).isLt } else t

/-- The counters of a strand after 100 µs in which its cluster's clock ran for `n` units of 12.5 µs (R356, R359, R161). -/
def Strand.tick (t : Strand) (tagged : Bool) (n : Nat) : Strand :=
  let t1 := { t with wdC := if t.stall then t.wdC + n else t.wdC, slice := t.slice + 100,
                     wdTag := if tagged then t.wdTag + n else t.wdTag }
  (if tagged then [Eng.l, .v, .m, .k] else engOrder).foldl (fun t e => t.tickEngine n e) t1

/-- A cluster after 100 µs: suppressed cycles are counted, and the reasons that suppressed them noted (R363); its strand's
counters go on unless the stall wire stands. While a throttle reason holds, how long the clock ran is a free value. -/
def State.tickCluster (s : State) (c : Cluster) : Cluster :=
  let r := s.pow.eighths
  let n := if c.thrNow = 0 then r else (Config.freeWord (s.free + c.key)).toNat % (r + 1)
  let c1 := { c with thrCyc := addCyc c.thrCyc (11750 * (8 - n)), thrSticky := c.thrSticky ||| c.thrNow }
  if c.status = .idle ∨ s.stallWires.contains c.st.node then c1 else { c1 with st := c.st.tick (s.tagStalled c.st) n }

/-! ### The ramp limiter (R370) -/

/-- The next envelope for a demand, both in hundredths of a watt. -/
def envelopeNext (ramp : Word) (e d : Nat) : Nat :=
  let up := 10 * (ramp.toNat % 65536)
  let down := 10 * (ramp.toNat / 2 ^ 16 % 65536)
  let floor := ramp.toNat / 2 ^ 32 % 65536 * 1000
  if e ≤ d then (if up = 0 then d else min d (e + up))
  else if floor < e then max d (max floor (if down = 0 then 0 else e - down))
  else d

/-- The package limit (R6). -/
def packageWatts : Nat := 5600

/-- The strand of a cluster that runs one. -/
def State.strandAt (s : State) (die clus : Nat) : Option Strand :=
  (s.clusters.find? fun c => decide (c.die = die) && decide (c.clus = clus) && decide (c.status ≠ .idle)).map fun c => c.st

/-- R372: the measured energy of clusters (64 * die + cluster), in mJ, is charged to the interfaces of the strands there. -/
def State.charge (s : State) (l : List (Nat × Nat)) : State :=
  l.foldl (fun s x =>
    match s.strandAt (x.1 / 64) (x.1 % 64) with
    | some t => s.setVi t.vi ((s.vi t.vi).setBalance ((s.vi t.vi).balance - x.2))
    | none => s) s

/-- R372: strands of an interface whose balance is spent run at the relaxed level. -/
def State.relaxSpent (s : State) : State :=
  s.mapClusters fun c => if c.status ≠ .idle ∧ !(s.vi c.st.vi).funded then { c with imp := 2 } else c

/-- A measured draw in watts, never above the package limit (R6). -/
def clampWatts (n : Nat) : Nat := if packageWatts < n then packageWatts else n

/-- Whether a filler node is ready (R371). -/
def State.fillerReady (s : State) : Bool :=
  s.disp.nodes.any fun n => n.pooled && decide (n.status = 0) && (s.vi n.vi).enabled && (s.vi n.vi).funded && s.filler n

/-- The clusters on which the die controllers run ballast, of those that they report (R371): idle M-clusters, while no filler
node is ready and the draw, which ballast holds up, is not above the envelope. -/
def State.ballasts (s : State) (ball : Nat) : Nat :=
  let idle := ((List.range 24).flatMap fun d => (List.range 48).filter fun c => s.freeAt d c).length
  if s.fillerReady ∨ s.pow.envelope < 100 * s.pow.draw then 0 else min ball idle

/-- RAMP_ENVELOPE_TICK: 100 µs of reference time pass. The controllers' measure gives the draw, never above the package
limit, the energy, and the clusters on ballast; the first word presented with the turn gives the demand of placed work
in watts (the measured draw where none is presented). -/
def execRampEnvelopeTick (m : Meas) (s : State) : Out :=
  let s1 := { s.mapClusters s.tickCluster with free := s.free + 2048 }
  let watts := clampWatts m.watts
  let demand := 100 * s.input.headD watts
  let p := { s1.pow.advance 100000 with
    draw := watts, dies := m.dies.map clampWatts, demand := demand, envelope := envelopeNext s.fe.ramp s.pow.envelope demand,
    energy := s.pow.energy + BitVec.ofNat 64 watts }
  let s2 := { s1 with pow := { p with ballast := { s1 with pow := p }.ballasts m.ball } }
  .next ((s2.charge m.energy).relaxSpent).flushErrs

/-- ENERGY_PERIOD_REFILL: the timer of an interface's balance expires at the start of a period of 10 ms, and a firmware core
sets BAL := min(BAL + SHARE, SHARE) (R372, R419). -/
def execEnergyPeriodRefill (vi : Nat) (s : State) : Out :=
  if 128 ≤ vi ∨ s.pow.periods ≤ (s.vi vi).refills then .next s else .next (s.expire (.energy vi))

/-- IMP_CHANGE: the dispatcher imposes a level on the cluster of `me`: the highest at or below it that the kernel has
(R367), or relaxed where the balance is spent (R372). A change of the grant is a placement opportunity (R330). -/
def execImpChange (level : Nat) (s : State) : Out :=
  if 2 < level then .next s
  else
    let spent := decide (s.me.status ≠ .idle) && !(s.vi s.me.st.vi).funded
    .next { s with me := { s.me with imp := BitVec.ofNat 2 (if spent then 2 else cappedLevel s.me.st.vars level) } }.opportunity

/-- OPP_CHANGE: a rail moves to a point (R360, R361). -/
def execOppChange (rail point : Nat) (s : State) : Out :=
  if h : rail < 4 then
    if point < 4 then .next { s with pow := { s.pow with opp := s.pow.opp.set rail (BitVec.ofNat 2 point) h } } else .next s
  else .next s

/-- The allowance of the strand of `me` in mW: the class draw, 3/4 or 1/2 of it, by the granted level (R366). -/
def State.allowance (s : State) : Nat :=
  let full := 250 * (s.me.st.eclass.toNat + 1)
  match s.grant.toNat with
  | 0 => full
  | 1 => 3 * full / 4
  | _ => full / 2

/-- Whether the cluster of `me`, which draws `mw` over 10 µs, is above its allowance, or the package at its limit (R364). -/
def State.capHolds (s : State) (mw : Nat) : Bool :=
  (decide (s.me.status ≠ .idle) && decide (s.allowance < mw)) || decide (packageWatts ≤ s.pow.draw)

/-- Whether the measured draw is above the envelope, so that cycles are suppressed (R370). -/
def State.slewHolds (s : State) : Bool := decide (s.pow.envelope < 100 * s.pow.draw)

/-- THROTTLE_REASON_CHANGE: the reasons that suppress cycles on the cluster of `me`, and the cycles that they have
suppressed besides whole ticks (R364). THERM, CURR and REL are as the controllers find them; SLEW and CAP follow the
envelope and the cluster's mean draw over 10 µs in mW, which the turn presents (R366, R370). -/
def execThrottleReasonChange (reasons : BitVec 5) (cycles : Nat) (s : State) : Out :=
  let r := (reasons &&& 0b10011) ||| BitVec.ofNat 5 (4 * s.slewHolds.toNat + 8 * (s.capHolds (s.input.headD 0)).toNat)
  .next { s with
    me := { s.me with thrNow := r, thrSticky := s.me.thrSticky ||| r, thrCyc := addCyc s.me.thrCyc cycles },
    pow := { s.pow with thrSince := s.pow.thrSince ||| r } }

/-- Watts of the reserve that dies hold. -/
def Power.granted (p : Power) : Nat := p.grants.foldl (fun n x => n + x.2) 0

/-- A die's own share in watts; 24 stands for the four I/O dies together (R6). -/
def dieShare (die : Nat) : Nat := if die < 24 then 215 else 320

/-- PACKAGE_RESERVE_GRANT: a die's part of the 120 W reserve becomes `watts`, while the parts stay within it; it grows only
where the die draws above its share (R6). -/
def execPackageReserveGrant (die watts : Nat) (s : State) : Out :=
  let p := { s.pow with grants := Sp.set s.pow.grants die watts 0 }
  if die ≤ 24 ∧ p.granted ≤ 120 ∧ (watts ≤ Sp.get s.pow.grants die 0 ∨ dieShare die < s.pow.dies.getD die 0) then
    .next { s with pow := p }
  else .next s

/-! ### Telemetry (R374) -/

/-- Clusters that run filler nodes. -/
def State.fillers (s : State) : Nat :=
  (s.clusters.filter fun c => decide (c.status ≠ .idle) && (match s.node c.st.node with
    | some n => s.filler n
    | none => false)).length

/-- SYS_TELCFG.INTERVAL in ns; below 100 µs it acts as 100 µs. -/
def State.telInterval (s : State) : Nat :=
  let n := s.fe.telcfg0.toNat / 32 % 65536
  1000 * (if n < 100 then 100 else n)

/-- A telemetry record as 512 bits. -/
def State.telRecord (s : State) (m : Meas) : Nat :=
  let rails := ((List.range 4).map fun k => clampWatts (m.rails.getD k 0) * 2 ^ (16 * k)).foldl (· + ·) 0
  s.pow.telTime + (s.fe.telIdx + 1) % 2 ^ 32 * 2 ^ 64 + clampWatts m.watts * 2 ^ 96 + s.pow.lockedSince.toNat * 2 ^ 112 +
    s.pow.thrSince.toNat * 2 ^ 113 + rails * 2 ^ 128 + s.pow.energy.toNat / 10 * 2 ^ 192 + m.tmax % 65536 * 2 ^ 256 +
    s.pow.envelope / 100 % 65536 * 2 ^ 272 + s.fillers % 65536 * 2 ^ 288 + s.pow.ballast % 65536 * 2 ^ 304 + s.pow.oppWord * 2 ^ 320

/-- The throttle reasons that hold on some cluster. -/
def State.throttles (s : State) : BitVec 5 := s.clusters.foldl (fun (r : BitVec 5) c => r ||| c.thrNow) 0

/-- An interval of telemetry begins (R374). -/
def State.telStart (s : State) : State :=
  { s with pow := { s.pow with thrSince := s.throttles, lockedSince := s.mgmt.locked, telLast := s.pow.now } }

/-- The core that holds the telemetry timer writes the record. -/
def State.telWrite (s : State) (m : Meas) : State :=
  let s1 := s.ringPut (ringSlot s.fe.telcfg0 s.fe.telcfg1 s.fe.telIdx) (leBytes 64 (s.telRecord m))
  { s1 with fe := { s1.fe with telIdx := s.fe.telIdx + 1 } }.telStart.handled .telemetry

/-- TELEMETRY_RECORD: the timer expires at the end of an interval, and a firmware core writes one record of the telemetry
ring; the next interval begins (R374, R419). -/
def execTelemetryRecord (m : Meas) (s : State) : Out :=
  if s.fe.telcfg0.getLsbD 0 && decide (s.pow.telLast + s.telInterval ≤ s.pow.now) then
    let s1 := s.expire .telemetry
    .next (if s1.holds .telemetry then s1.telWrite m else s1)
  else .next s

end Sys2Proof.Machine
end

