-- ==== Sys2Proof/Machine/Fabric.lean ====
section
/-!
DEFINITION. The fabric as a package sees it arrive (R378, R381 to R383, R389, R390): packets in their windows, what they do
here, acknowledgements, failing routes, lost destinations and new routes.
-/

namespace Sys2Proof.Machine

/-! ### Replies at the source -/

/-- The error code of a cause in a reply. -/
def replyErr (c : Cause) : Nat :=
  match c with
  | .memPoison => 1
  | .memLink => 2
  | _ => 3

/-- The result of a request reaches the entry `seq` of agent `e` of `me` that waits for it; `va` is the address of a matrix
row's part. A copy that a rollback has left running has its key as its number, and ends with a failure (R95). -/
def State.answer (s : State) (e : Eng) (seq : Nat) (va : Word) (r : Except Cause (List Byte)) : State :=
  let failed := fun (k : Cause → State) => match r with
    | .ok _ => s
    | .error c => k c
  match e with
  | .l =>
    (match s.me.st.lqu with
     | h :: _ => if h.seq = seq ∧ h.stage = .submitted then s.accDone .l h r else s
     | [] => s)
  | .sq =>
    (match s.me.st.squ with
     | h :: _ => if h.seq = seq ∧ h.stage = .submitted then s.accDone .sq h r else s
     | [] => s)
  | .k => failed fun c =>
      match s.shadow.find? fun q => decide (orphanBase ≤ q.key) && decide (q.key = seq) with
      | some q => s.copyRelease q s.me.die
      | none => s.updHead .k fun h =>
        if h.seq = seq ∧ h.stage = .submitted ∧ h.done / 2 ^ 32 = 0 then { h with done := h.done + copyStatus c * 2 ^ 32 } else h
  | .m => failed fun c =>
      match s.me.st.mrun with
      | some x => if x.blk.seq = seq then s.updSt fun t => t.record (x.accessRec c va 0) else s
      | none => s
  | .c =>
    (match s.me.st.nt.find? fun b => decide (b.first = seq) && b.sent with
     | some b =>
       let s1 := failed fun c => s.updSt fun t => t.record (accessTrap c .sq b.waddr b.va 0)
       if b.bytes.isEmpty && !s1.ntReplies b.first then
         s1.updSt fun t => { t with nt := t.nt.filter fun x => !(decide (x.first = seq) && x.sent) }
       else s1
     | none => s)
  | .v => s

/-- CODE of R393 for an answer. -/
def collCause (c : Cause) : Nat :=
  match c with
  | .memPoison => 2
  | .memRange => 5
  | _ => 4

/-- The result of a collective's store reaches it (R392, R393). -/
def State.collAnswer (s : State) (die slot : Nat) (r : Except Cause (List Byte)) : State :=
  match s.coll die slot, r with
  | some c, .error e => s.collFail c (collCause e)
  | _, _ => s

/-- R409: a host write through BAR2 that its target refuses counts in WINERR. -/
def State.hostAnswer (s : State) (vi : Nat) (r : Except Cause (List Byte)) : State :=
  match r with
  | .ok _ => s
  | .error _ => s.winFault vi

/-- A request has its answer: it reaches who waits for it. What was read waits in the request until it is taken. -/
def State.settle (s : State) (dst : Nat) (x : Req) : State :=
  let r := replyOf x.err x.data
  let s1 := s.setPeer { s.peer dst with reqs := (s.peer dst).reqs.erase x }
  match x.owner with
  | .entry die clus e seq => s1.onCluster die clus fun s => s.answer e seq x.va r
  | .coll die slot => s1.collAnswer die slot r
  | .host vi => s1.hostAnswer vi r
  | _ => s

/-- A request of a pair takes a change; when it waits for neither its reply nor its acknowledgement, it is answered
(R380). -/
def State.progressReq (s : State) (dst num : Nat) (f : Req → Req) : State :=
  let q := s.peer dst
  match q.reqs.find? fun r => decide (r.num = num) && (r.ack || r.reply) with
  | none => s
  | some r =>
    let x := f r
    let s1 := s.setPeer { q with reqs := q.reqs.map fun y => if y = r then x else y }
    if x.ack || x.reply then s1 else s1.settle dst x

/-- A reply arrives. -/
def State.replied (s : State) (src num err : Nat) (data : List Byte) : State :=
  s.progressReq src num fun r => { r with reply := false, err := if err < 4 then err else 3, data := data }

/-! ### Requests at the target -/

/-- The strand that a FADD at scope .sys reaches on a cluster: the strand of the interface placed there most recently that
has not completed (R149). -/
def State.placedOn (s : State) (vi d c : Nat) : Option (Nat × Nat) :=
  (s.fe.placed.find? fun x => decide (x.1 = 64 * d + c) && !s.strandDone x.2.1 x.2.2 &&
    s.disp.nodes.any fun n => decide (n.slot = x.2.1) && decide (n.vi = vi)).map fun x => x.2

/-- A FADD at scope .sys at its target (R149, R152). -/
def State.sysFadd (s : State) (vi vc slot amount : Nat) : State :=
  match (s.vi vi).clusters[vc]? with
  | none => s.dropSync 0 1
  | some (d, c) =>
    match s.placedOn vi d c with
    | some p => s.addSlot p.1 p.2 slot amount
    | none => s.dropSync d 1

/-- A reply to a request: it takes its own number of the pair back (R381). -/
def State.reply (s : State) (p : Packet) (r : Except Cause (List Byte)) : State :=
  match r with
  | .ok bs => s.sendSeq p.src p.vi p.cls (.reply p.seq 0 bs)
  | .error c => s.sendSeq p.src p.vi p.cls (.reply p.seq (replyErr c) [])

/-- The elements of a packet join those of its bucket and step that have arrived. -/
def addChunk (l : List (Nat × Nat × List Lane)) (bucket step : Nat) (vals : List Lane) : List (Nat × Nat × List Lane) :=
  match l with
  | [] => [(bucket, step, vals)]
  | x :: r => if x.1 = bucket ∧ x.2.1 = step then (bucket, step, x.2.2 ++ vals) :: r else x :: addChunk r bucket step vals

/-- R389: collective data joins the running collective of its attempt; any other is dropped. -/
def State.collData (s : State) (vi id att bucket step : Nat) (vals : List Lane) : State :=
  match s.fab.colls.find? fun c => decide (c.vi = vi) && decide (c.desc.id = id) with
  | some c =>
    if c.st = .running ∧ c.att.toNat = att then s.setColl { c with arrived := addChunk c.arrived bucket step vals } else s
  | none => s

/-- A packet is delivered: it acts once (R378, R381). -/
def State.deliverPacket (s : State) (p : Packet) : State :=
  match p.body with
  | .load off n => let r := s.exportGet p.vi off n; r.1.reply p r.2
  | .store off bs =>
    (match s.exportWrite p.vi off bs with
     | (s1, none) => s1.reply p (.ok [])
     | (s1, some c) => s1.reply p (.error c))
  | .atomic op off d64 v c =>
    let n := if d64 then 8 else 4
    (match s.exportAtomic p.vi off n (atomOf' op) (v.toNat % 2 ^ (8 * n)) (c.toNat % 2 ^ (8 * n)) with
     | (s1, .ok old) => s1.reply p (.ok (leBytes n old))
     | (s1, .error e) => s1.reply p (.error e))
  | .fadd vc slot amount => s.sysFadd p.vi vc slot amount
  | .reply req err data => s.replied p.src req err data
  | .coll id att bucket step vals => s.collData p.vi id att bucket step vals
  | .gong id att => s.gongArrives p.vi id att

/-- Packets of the window are delivered strictly in order, from the next expected number on; a request waits while the
pair has no room for its reply. -/
def State.deliverWindow (s : State) (src fuel : Nat) : State :=
  match fuel with
  | 0 => s
  | fuel + 1 =>
    let q := s.peer src
    match q.window.find? fun p => decide (p.seq % 2 ^ 32 = q.expect.toNat) with
    | none => s
    | some p =>
      if payloadAsks p.body && s.pairFull src then s
      else ((s.setPeer { q with window := q.window.erase p, expect := q.expect + 1 }).deliverPacket p).deliverWindow src fuel

/-- R383: the other package has restarted the space of the pair in this direction; what waits of it goes. -/
def Peer.restarted (q : Peer) : Peer := { q with expect := 0, window := [] }

/-- A sequenced packet reaches its target over a port that has lock: within the window of 4,096 numbers it is kept until its
turn, a duplicate is discarded (R381). -/
def State.receive (s : State) (p : Packet) : State :=
  let q := s.peer p.src
  let ahead := (BitVec.ofNat 32 p.seq - q.expect).toNat
  if p.dst ≠ s.pkg ∨ 4096 ≤ ahead ∨ s.fab.ports = 0 then s
  else
    let old := q.window.any fun x => decide (x.seq % 2 ^ 32 = p.seq % 2 ^ 32)
    let s1 := if old then s else s.setPeer { q with window := q.window ++ [p] }
    s1.deliverWindow p.src 4096

/-- PACKET_RECEIVE. A word of the turn tells that the source has restarted the space of its pair with this package (R383,
log entry 118). -/
def execPacketReceive (p : Packet) (s : State) : Out :=
  .next ((if s.input.isEmpty then s else s.setPeer (s.peer p.src).restarted).receive p)

/-- GONG_RECEIVE: the next packet of its source is a gong (R390). -/
def execGongReceive (src vi id att : Nat) (s : State) : Out :=
  .next (s.receive ⟨src, s.pkg, vi, 1, (s.peer src).expect.toNat, .gong id att⟩)

/-! ### Acknowledgements and routes (R381 to R383) -/

/-- The pair once the acknowledgement of a packet in flight has come: the packet leaves, and one that waited goes out. -/
def Peer.acked (q : Peer) (num now : Nat) : Peer :=
  if q.flying.any fun p => decide (p.seq = num) then
    { q with retry := q.retry.filter fun p => decide (p.seq ≠ num) }.launch now
  else q

/-- ACK_RECEIVE: the packet of that number leaves the retry buffer; a request that it carried is acknowledged (R380), and one
that waited for room goes on. -/
def execAckReceive (dst upto : Nat) (s : State) : Out :=
  if s.fab.ports = 0 then .next s
  else
    let s1 := s.setPeer ((s.peer dst).acked upto s.pow.now)
    .next ((s1.progressReq dst upto fun r => { r with ack := false }).deliverWindow dst 4096)

/-- The first working route of a pair. -/
def Peer.working (q : Peer) : Option Nat := (List.range q.routes.length).find? fun k => !q.failed.contains k

/-- Routes of a pair fail; packets on the route in use go again, in order, on the next (R382). -/
def Peer.fail (q : Peer) (l : List Nat) (now : Nat) : Peer :=
  let hit := match q.working with
    | some k => l.contains k
    | none => false
  let q1 := { q with failed := q.failed ++ l.filter fun k => !q.failed.contains k }
  if hit then { q1 with sent := q1.flying.map fun p => (p.seq, now), since := now } else q1

/-- SYS_ZCFG.ACKTMO in ns; 0 acts as 100 µs (R377). -/
def State.ackTmo (s : State) : Nat :=
  let n := s.fe.zcfg.toNat / 2 ^ 16 % 65536
  1000 * (if n = 0 then 100 else n)

/-- SYS_ZCFG.LOSTTMO in ns; 0 acts as 1,000 ms (R377). -/
def State.lostTmo (s : State) : Nat :=
  let n := s.fe.zcfg.toNat / 2 ^ 32 % 65536
  1000000 * (if n = 0 then 1000 else n)

/-- ACK_TIMEOUT: a packet has stayed unacknowledged for ACKTMO, and the route in use fails (R382). -/
def execAckTimeout (dst : Nat) (s : State) : Out :=
  let q := s.peer dst
  match q.working with
  | some k => if q.sent.any fun x => decide (x.2 + s.ackTmo ≤ s.pow.now) then .next (s.setPeer (q.fail [k] s.pow.now)) else .next s
  | none => .next s

/-- Routes of a pair over ports that a mask does not hold. -/
def Peer.unlocked (q : Peer) (ports : BitVec 36) : List Nat :=
  (List.range q.routes.length).filter fun k => !ports.getLsbD ((q.routes.getD k ⟨36, 0⟩).port)

/-- PORT_LOCK_LOSS: the port that the turn names loses lock; its routes fail. -/
def execPortLockLoss (s : State) : Out :=
  match s.input with
  | [] => .next s
  | port :: _ =>
    let ports := s.fab.ports &&& ~~~(BitVec.ofNat 36 (2 ^ port))
    .next { s with fab := { s.fab with ports := ports, peers := s.fab.peers.map fun q => q.fail (q.unlocked ports) s.pow.now } }

/-- Requests to a lost destination end with FAB_LOST. -/
def State.loseReqs (s : State) (dst : Nat) (l : List Req) : State :=
  l.foldl (fun s r => s.progressReq dst r.num fun r => { r with ack := false, reply := false, err := 4, data := [] }) s

/-- DESTINATION_LOST: no route to the package that the turn names has worked for LOSTTMO (R383). -/
def execDestinationLost (s : State) : Out :=
  match s.input with
  | [] => .next s
  | dst :: _ =>
    let q := s.peer dst
    if q.lost ∨ q.working.isSome ∨ s.pow.now < q.since + s.lostTmo then .next s
    else
      let s1 := s.setPeer { q with retry := [], sent := [], lost := true }
      let hit := s1.fab.colls.filter fun c => decide (c.st = .running) && c.others.contains dst
      .next ((hit.foldl (fun s c => s.collFail c 1) s1).loseReqs dst q.reqs)

/-- A pair with a new set of routes: those over a port with lock work. -/
def Peer.install (q : Peer) (routes : List Route) (ports : BitVec 36) (now : Nat) : Peer :=
  let q1 := { q with routes := routes, failed := [] }
  let q2 := { q1 with failed := q1.unlocked ports }
  { q2 with sent := q2.flying.map fun p => (p.seq, now), since := if q.working.isSome ∨ q2.working.isSome then now else q.since }

/-- ROUTE_INSTALL: a new set of up to four routes. The words of the turn name ports that have regained lock, whose routes
are tried again from now on; the sequence space of the pair to a lost destination restarts at 0. -/
def execRouteInstall (dst : Nat) (routes : List Route) (s : State) : Out :=
  if 4 < routes.length ∨ routes.any fun r => decide (36 ≤ r.port) then .next s
  else
    let ports := s.input.foldl (fun (b : BitVec 36) p => b ||| BitVec.ofNat 36 (2 ^ p)) s.fab.ports
    let q := (s.peer dst).install routes ports s.pow.now
    let q1 := if q.lost ∧ !routes.isEmpty then
        { q with lost := false, nextSeq := 0, retry := [], sent := [] } else q
    let s1 := s.setPeer q1
    .next { s1 with fab := { s1.fab with ports := ports } }

end Sys2Proof.Machine
end

