-- ==== Sys2Proof/Machine/Float.lean ====
section
/-!
DEFINITION. Scalar FP32 arithmetic, comparison and conversion (R219 to R221). No form traps or sets a flag.
-/

namespace Sys2Proof.Machine

/-- `rnd(v, f32, m)` in a register (R219): overflow as the rounding mode gives, NaN as 0x7FC0_0000. -/
def f32Word (v : Val) (rd : Rnd) : Word := zext32 (cvtVal v .f32 rd .wrap)

/-- sfadd. -/
def sfAdd (a b : Word) (rd : Rnd) : Word := f32Word (Val.add (f32Of a) (f32Of b) rd) rd

/-- sfmul. -/
def sfMul (a b : Word) (rd : Rnd) : Word := f32Word (Val.mul (f32Of a) (f32Of b)) rd

/-- sffma: one rounding of the exact value. -/
def sfFma (a b c : Word) (rd : Rnd) : Word := f32Word (Val.add (Val.mul (f32Of a) (f32Of b)) (f32Of c) rd) rd

/-- sfmin: −0 < +0, one NaN yields the other operand. -/
def sfMin (a b : Word) : Word := f32Word (Val.min (f32Of a) (f32Of b)) .rne

/-- sfmax. -/
def sfMax (a b : Word) : Word := f32Word (Val.max (f32Of a) (f32Of b)) .rne

/-- R221: a converted register. -/
def sfConvert (toX : Bool) (xf : XFmt) (rd : Rnd) (o : Ovf) (v : Word) : Word :=
  let fs := if toX then .f32 else xfmt xf
  let fd := if toX then xfmt xf else .f32
  extendFmt fd (cvtVal (decodeFmt fs (v.toNat % 2 ^ fmtWidth fs)) fd rd o)

/-- `sfadd.f32.rnd gD, gA, gB` (R219). -/
def execSfadd (g : Guard) (d a b : Reg) (rnd : Rnd) (s : State) : Out :=
  compute g [a, b] d (fun s => sfAdd (s.getG a) (s.getG b) rnd) s

/-- `sfmul.f32.rnd gD, gA, gB` (R219). -/
def execSfmul (g : Guard) (d a b : Reg) (rnd : Rnd) (s : State) : Out :=
  compute g [a, b] d (fun s => sfMul (s.getG a) (s.getG b) rnd) s

/-- `sffma.f32.rnd gD, gA, gB`: the addend is G[D] (R219). -/
def execSffma (g : Guard) (d a b : Reg) (rnd : Rnd) (s : State) : Out :=
  compute g [a, b, d] d (fun s => sfFma (s.getG a) (s.getG b) (s.getG d) rnd) s

/-- `sfmin.f32 gD, gA, gB`: no rounding (R219). -/
def execSfmin (g : Guard) (d a b : Reg) (_rnd : Rnd) (s : State) : Out :=
  compute g [a, b] d (fun s => sfMin (s.getG a) (s.getG b)) s

/-- `sfmax.f32 gD, gA, gB`: no rounding (R219). -/
def execSfmax (g : Guard) (d a b : Reg) (_rnd : Rnd) (s : State) : Out :=
  compute g [a, b] d (fun s => sfMax (s.getG a) (s.getG b)) s

/-- `sfcmp.cond pD, gA, gB` (R220). -/
def execSfcmp (g : Guard) (pd : BitVec 3) (a b : Reg) (cond : FCond) (s : State) : Out :=
  guarded g s fun s => reading [a, b] s fun s => done (s.setP pd (fcondHolds cond (f32Of (s.getG a)) (f32Of (s.getG b))))

/-- `sfcvt.fd.fs.rnd.ovf gD, gA` (R221). -/
def execSfcvt (g : Guard) (d a : Reg) (toX : Bool) (xf : XFmt) (rnd : Rnd) (ovf : Ovf) (s : State) : Out :=
  compute g [a] d (fun s => sfConvert toX xf rnd ovf (s.getG a)) s

end Sys2Proof.Machine
end

