-- ==== Sys2Proof/Machine/Keccak.lean ====
section
/-!
DEFINITION. SHAKE256 with 256 bits of output (FIPS 202), which the measurement registers use (R422, R423, R425). The
permutation works on five planes of five lanes; its offsets and constants are computed as the standard defines them.
-/

namespace Sys2Proof.Machine

/-- Five lanes of one y. -/
abbrev Plane := List (BitVec 64)

/-- A list turned left by `n` places. -/
def turned (n : Nat) (l : Plane) : Plane := l.drop n ++ l.take n

/-- Lane by lane exclusive or. -/
def mix (a b : Plane) : Plane := List.zipWith (· ^^^ ·) a b

/-- Diffusion: every lane takes the column parities of its neighbours, the right one turned by a bit. -/
def diffuse (s : List Plane) : List Plane :=
  let parity := s.foldl mix (List.replicate 5 0)
  let both := mix (turned 4 parity) ((turned 1 parity).map fun c => c.rotateLeft 1)
  s.map (mix both)

/-- The walk over the lanes that the rotation offsets follow: from (1, 0), (x, y) goes to (y, 2x + 3y); the `t`-th stop of 24
has the triangular number of `t + 1` as its offset. -/
def walkOffsets (x y t n : Nat) : List (Nat × Nat × Nat) :=
  match n with
  | 0 => []
  | n + 1 => (x, y, (t + 1) * (t + 2) / 2 % 64) :: walkOffsets y ((2 * x + 3 * y) % 5) (t + 1) n

/-- Offset of a lane; lane (0, 0) is not turned. -/
def laneOffset (x y : Nat) : Nat :=
  match (walkOffsets 1 0 0 24).find? fun w => w.1 == x && w.2.1 == y with
  | some w => w.2.2
  | none => 0

/-- Every lane turned by its offset and moved: place (x, y) takes the lane of (x + 3y, x). -/
def scatter (s : List Plane) : List Plane :=
  (List.range 5).map fun y => (List.range 5).map fun x =>
    let from' := (x + 3 * y) % 5
    ((s.getD x []).getD from' 0).rotateLeft (laneOffset from' x)

/-- The one nonlinear step, within a plane. -/
def bend (p : Plane) : Plane := mix p (List.zipWith (fun b c => ~~~b &&& c) (turned 1 p) (turned 2 p))

/-- `n` steps of the shift register of x^8 + x^6 + x^5 + x^4 + 1. -/
def register (r n : Nat) : Nat :=
  match n with
  | 0 => r
  | n + 1 => register (if r < 128 then 2 * r else Nat.xor (2 * r) 0x171) n

/-- The constant of a round: bit 2^j − 1 is bit 0 of the register after 7 × round + j steps. -/
def roundWord (round : Nat) : BitVec 64 :=
  BitVec.ofNat 64 (((List.range 7).map fun j => register 1 (7 * round + j) % 2 * 2 ^ (2 ^ j - 1)).foldl (· + ·) 0)

/-- One round. -/
def permuteOnce (s : List Plane) (round : Nat) : List Plane :=
  let t := (scatter (diffuse s)).map bend
  mix (t.headD []) [roundWord round, 0, 0, 0, 0] :: t.tail

/-- The permutation of 1,600 bits, 24 rounds. -/
def permute (s : List Plane) : List Plane := (List.range 24).foldl permuteOnce s

/-- The state whose lane (x, y) is lane `x + 5 * y` of some little-endian bytes, as far as they go. -/
def planesOf (bs : List Byte) : List Plane :=
  (List.range 5).map fun y => (List.range 5).map fun x =>
    BitVec.ofNat 64 (((bs.drop (8 * (x + 5 * y))).take 8).foldr (fun b n => b.toNat + 256 * n) 0)

/-- Blocks of 136 bytes taken in, each into the state as it then stands. -/
def takeIn (s : List Plane) (bs : List Byte) (n : Nat) : List Plane :=
  match n with
  | 0 => s
  | n + 1 => takeIn (permute (List.zipWith mix s (planesOf (bs.take 136)))) (bs.drop 136) n

/-- The suffix and padding of SHAKE: bits 1111, then 10…01 up to a multiple of 136 bytes. -/
def shakePad (bs : List Byte) : List Byte :=
  let room := 136 - bs.length % 136
  bs ++ (if room = 1 then [0x9F] else 0x1F :: List.replicate (room - 2) 0 ++ [0x80])

/-- SHAKE256 of some bytes, its first 256 bits, lowest byte first. -/
def shake256 (bs : List Byte) : BitVec 256 :=
  let s := takeIn (planesOf []) (shakePad bs) (bs.length / 136 + 1)
  BitVec.ofNat 256 (((s.headD []).take 4).foldr (fun w n => w.toNat + 2 ^ 64 * n) 0)

end Sys2Proof.Machine
end

