-- ==== Sys2Proof/Machine/Reliab.lean ====
section
/-!
DEFINITION. Tear-downs (R337), links (R116, R117, R407), storage errors with their records (R401 to R403), rollback and
fencing (R396 to R400, R405), and the firmware pool with its fallback scheduler (R419 to R421).
-/

namespace Sys2Proof.Machine

/-! ### Tear-down (R337) -/

/-- Whether a node lies in the scope: a stream, or the whole interface. -/
def Node.inScope (vi : Nat) (stream : Option Nat) (n : Node) : Bool :=
  decide (n.vi = vi) && (match stream with
    | some k => decide (n.stream = k)
    | none => true)

/-- Whether an entry is a KPUB that has begun. -/
def Entry.publishing (h : Entry) : Bool :=
  decide (h.stage = .begun) && (match h.cmd with
    | .kpub _ => true
    | _ => false)

/-- The running copy, or the begun KPUB, of the cluster of `me` ends ABORTED (R95, R137). -/
def State.abortCopy (s : State) : State :=
  match s.me.st.kqu, s.shadow.find? fun q => decide (q.key = s.me.key) with
  | h :: _, some q => if h.stage = .submitted then s.copyEnd h q 5 else if h.publishing then s.copyFail h 5 else s
  | h :: _, none => if h.publishing then s.copyFail h 5 else s
  | [], _ => s

/-- A command that a rollback has left running ends too. -/
def State.abortOrphan (s : State) : State :=
  match s.orphan with
  | some q => s.copyRelease q s.me.die
  | none => s

/-- The strands of a scope stop: their clusters leave, their copies end. -/
def State.stopScope (s : State) (vi : Nat) (stream : Option Nat) : State :=
  let slots := (s.disp.nodes.filter (Node.inScope vi stream)).map fun n => n.slot
  let mine := s.clusters.filter fun c => decide (c.status ≠ .idle) && slots.contains c.st.node
  let s1 := mine.foldl (fun s c => s.onCluster c.die c.clus fun s => s.abortCopy.abortOrphan) s
  s1.mapClusters fun c =>
    if (c.status = .running ∨ c.status = .finished) ∧ slots.contains c.st.node then { c with status := .leaving, st := c.st.stirred } else c

/-- The number of the entry that a slot of a launch queue holds by its stamp, the first from HEAD on (R335). -/
def LaunchQ.stamped (x : LaunchQ) (stamp : Nat) : Nat :=
  x.head.toNat + (stamp + 2 ^ 32 - 1 + 2 ^ 32 - x.head.toNat % 2 ^ 32) % 2 ^ 32

/-- The valid entries of a launch queue between HEAD and TAIL, by number with their records (R335): what each slot of the ring
holds now. -/
def State.validEntries (s : State) (vi : Nat) (x : LaunchQ) : List (Nat × Record) :=
  let lim := 2 ^ x.lsize.toNat
  if x.tail.toNat ≤ x.head.toNat then []
  else (List.range lim).filterMap fun k =>
    match (s.feBytes vi (x.base.toNat + 128 * k) 128).2 with
    | .ok bs =>
      let n := x.stamped (fieldOf (leNat bs) 448 32)
      if n % lim = k ∧ n < x.tail.toNat then some (n, leNat bs) else none
    | .error _ => none

/-- A launch queue at a tear-down: EN falls and its valid entries are discarded and count as dropped, or those of the stream
are marked. -/
def State.tearQueue (s : State) (vi : Nat) (stream : Option Nat) (q : Nat) : State :=
  let v := s.vi vi
  let x := v.lq q
  let l := s.validEntries vi x
  match stream with
  | none =>
    let head := if x.head.toNat < x.tail.toNat then x.tail else x.head
    s.setVi vi ((v.setLq q { x with en := false, head := head, drop := [] }).drops l.length)
  | some k =>
    let marks := (l.filter fun e => decide (recStream (some e.2) = k)).map fun e => e.1
    s.setVi vi (v.setLq q { x with drop := (x.drop ++ marks).eraseDups })

/-- The submissions of an interface that have not been accepted are dropped and counted; their entries have been consumed,
and a LOAD that goes on submits no more (R337, R411). -/
def State.dropWaiting (s : State) (vi : Nat) : State :=
  let mine := s.disp.subs.filter fun u => decide (u.vi = vi)
  let s1 : State := { s with disp := { s.disp with subs := s.disp.subs.filter fun u => decide (u.vi ≠ vi) } }
  let s2 := mine.foldl (fun s u =>
    let v := s.vi vi
    let x := v.sq u.queue
    s.setVi vi ((v.setSq u.queue { x with head := x.head + 1 }).drops u.count)) s1
  let v := s2.vi vi
  match v.loading with
  | some l => (s2.setVi vi { v.drops (l.graphs.foldl (fun n g => n + g.2) 0) with loading := some ⟨[], (v.sq 0).head.toNat⟩ }).loadEnds vi
  | none => s2

/-- The tear-down of a stream or of a whole interface begins; where nothing of it is left it has ended at once. -/
def State.tearDown (s : State) (vi : Nat) (stream : Option Nat) : State :=
  let s1 := s.stopScope vi stream
  let hit := Node.inScope vi stream
  let graphs := (s1.disp.nodes.filter hit).map fun n => n.graph
  let endNode := fun (n : Node) => if hit n then { n with status := 6 } else n
  let free := fun (g : Graph) => if graphs.contains g.id then { g with released := true } else g
  let s2 := { s1 with disp := { s1.disp with nodes := s1.disp.nodes.map endNode, graphs := s1.disp.graphs.map free } }
  let s3 := ((s2.vi vi).lqs.map fun q => q.1).foldl (fun s q => s.tearQueue vi stream q) s2
  match stream with
  | none =>
    ((s3.setVi vi { s3.vi vi with closing := true }).dropWaiting vi).endTearDown vi
  | some k =>
    let v := s3.vi vi
    (s3.setVi vi { v with tearing := if v.tearing.contains k then v.tearing else v.tearing ++ [k] }).endTearDown vi

/-! ### Error records (R403) -/

/-- The node of the strand that an error of a unit affects: one of a cluster, else 0 (R403). -/
def State.siteNode (s : State) (e : ErrSite) : Nat :=
  if 3 ≤ e.unit ∧ e.unit ≤ 6 then s.nodeAt e.die e.clus else 0

/-- A corrected error joins those of its location. -/
def mergeErr (l : List Merged) (x : Merged) : List Merged :=
  match l with
  | [] => [x]
  | y :: r => if y.site = x.site then { y with count := y.count + x.count } :: r else y :: mergeErr r x

/-- CORRECTED_ERROR: no value changes; the errors of one location merge into one record per second (R403). -/
def execCorrectedError (e : ErrSite) (s : State) : Out :=
  .next { s with fe := { s.fe with errs := mergeErr s.fe.errs ⟨e, 1, s.pow.now, s.pow.telTime, s.siteNode e⟩ } }

/-- UNCORRECTABLE_ERROR: a line of DRAM, L2 or CXL memory is poisoned, the base line, or the cell of the tag id that the
turn names (R164, R401). -/
def execUncorrectableError (e : ErrSite) (s : State) : Out :=
  let line := canon e.pa / 64
  let tag := s.input.headD 0
  let s1 : State :=
    if 1 < e.unit then s
    else if tag = 0 then { s with poison := if s.poison.contains line then s.poison else s.poison ++ [line] }
    else if (s.cellOf line tag).isSome ∧ !s.cellPoison.contains (line, tag) then { s with cellPoison := s.cellPoison ++ [(line, tag)] }
    else s
  .next (s1.errRecord 1 e.unit e.die e.clus e.pa 0 (s.siteNode e))

/-- SCRUB: reading, correcting and writing back a line changes no value (R402). -/
def execScrub (_die _line : Nat) (s : State) : Out := .next s

/-! ### Links (R116, R117, R407) -/

/-- Changes a CXL port. -/
def State.setPort (s : State) (p : Nat) (f : CxlPort → CxlPort) : State :=
  if h : p < 8 then { s with cxl := s.cxl.set p (f (s.cxl.get ⟨p, h⟩)) h } else s

/-- The end of a decoder for a committed capacity: a multiple of 256 MiB within the port's share (R116). -/
def decoderEnd (cap : Nat) : Nat :=
  let n := cap / 2 ^ 28 * 2 ^ 28
  if cxlPort < n then cxlPort else n

/-- Leaf entries below a table: where each stands, its 64 bits and its page size. -/
def leavesOf (mem : Memory) (table : Nat) (lvl : Nat) : List Leaf :=
  match lvl with
  | 0 => (List.range 32).filterMap fun k =>
      let a := canon (table + 8 * k)
      let e := leNat (mem.readN a 8)
      if e % 4 = 3 then some ⟨a, e, leafSize 0⟩ else none
  | n + 1 => (List.range (if n = 3 then 256 else 512)).flatMap fun k =>
      let a := canon (table + 8 * k)
      let e := leNat (mem.readN a 8)
      if e % 2 = 0 then []
      else if e / 2 % 2 = 1 then [⟨a, e, leafSize (n + 1)⟩]
      else leavesOf mem (e / 256 % 2 ^ 44 * 256) n

/-- Every mapping of every interface into a range of physical addresses. -/
def State.mappings (s : State) (lo hi : Nat) : List Leaf :=
  (s.vis.flatMap fun v => if v.2.ptb.toNat % 2 = 1 then leavesOf s.mem (v.2.ptb.toNat / 2048 % 2 ^ 41 * 2048) 4 else []).filter
    fun l => decide (leafPa l.entry < hi) && decide (lo < leafPa l.entry + l.size)

/-- Physical addresses that an entry accesses under translations taken before. -/
def Entry.pas (e : Entry) : List Nat :=
  let of := fun (l : List Place) => l.filterMap fun p => match p with
    | .mem pa _ => some pa
    | .spad _ => none
  match e.cmd with
  | .load _ _ pl _ _ => of [pl]
  | .ldx _ _ pl _ _ => of [pl]
  | .zlrs _ _ pls => of pls
  | .store _ pl _ _ => of [pl]
  | .zlsv _ pls _ => of pls
  | .atomic _ _ _ pl _ _ _ _ _ => of [pl]
  | _ => []

/-- Whether `n` bytes at an address lie in a port's share from `lo` on. -/
def aboveEnd (port lo a n : Nat) : Bool := decide (a < cxlBase + (port + 1) * cxlPort) && decide (lo < a + n)

/-- R117, first half: mappings above a port's new end go from the tables and the TLBs. -/
def State.unmapAbove (s : State) (port lo : Nat) : State :=
  let s1 := (s.mappings lo (cxlBase + (port + 1) * cxlPort)).foldl (fun s l => s.baseWrite l.entryPa (leBytes 8 (l.entry - 1))) s
  s1.mapClusters fun c => { c with tlb := c.tlb.filter fun e => !aboveEnd port lo e.pa e.size }

/-- The bytes that the matrix engine of a strand holds for memory, by canonical address (R80, R165). -/
def Strand.matrixBytes (t : Strand) : List Nat :=
  match t.mrun with
  | some r => r.claim.map fun b => b.pa
  | none => []

/-- Whether an access above the new end is on its way under a translation taken before, or a collective that pins a granule
there runs, which holds the request (R70, R74). -/
def State.busyAbove (s : State) (port lo : Nat) : Bool :=
  (s.strands.any fun t => (t.entries.any fun e => e.pas.any fun a => aboveEnd port lo a 8) ||
    (t.nt.any fun b => aboveEnd port lo (64 * b.line) 64) || t.matrixBytes.any fun a => aboveEnd port lo a 1) ||
    s.fab.colls.any fun c => decide (c.st = .running) && c.pins.any fun g => aboveEnd port lo (g * 65536) 65536

/-- R95, R117: copies that pinned granules of a port from an address on end with a status. -/
def State.endCopies (s : State) (port lo code : Nat) : State :=
  (s.shadow.filter fun q => q.grans.any fun g => aboveEnd port lo (g * 65536) 65536).foldl (fun s q =>
    s.onCluster (q.key % orphanBase / 64) (q.key % 64) fun s =>
      if orphanBase ≤ q.key then s.copyRelease q s.me.die
      else match s.me.st.kqu with
        | h :: _ => if h.stage = .submitted then s.copyEnd h q code else s
        | [] => s) s

/-- CXL_LINK_DOWN: the port that the turn names; its addresses are unbacked, and copies there end LINK_DOWN (R117). -/
def execCxlLinkDown (s : State) : Out :=
  match s.input with
  | [] => .next s
  | p :: _ => .next ((s.setPort p fun q => { q with up := false }).endCopies p (cxlBase + p * cxlPort) 2)

/-- A port's decoder end falls to `newEnd`: the translations above it go first, and the port follows once no access under
them is on its way. -/
def State.lowerEnd (s : State) (port newEnd : Nat) (f : CxlPort → CxlPort) : State :=
  let lo := cxlBase + port * cxlPort + newEnd
  let s1 := s.unmapAbove port lo
  if s1.busyAbove port lo then s1 else (s1.setPort port f).endCopies port lo 1

/-- CXL_DECODER_LOWER (R117). -/
def execCxlDecoderLower (port limit : Nat) (s : State) : Out :=
  match s.cxl.toList[port]? with
  | none => .next s
  | some p =>
    let newEnd := if decoderEnd limit < p.limit then decoderEnd limit else p.limit
    .next (s.lowerEnd port newEnd fun q => { q with limit := newEnd })

/-- CXL_LINK_UP: the link is up again with the capacity that its device commits; a lower one takes the translations above it
first (R117). -/
def execCxlLinkUp (port cap : Nat) (s : State) : Out :=
  match s.cxl.toList[port]? with
  | none => .next s
  | some p =>
    let newEnd := decoderEnd cap
    .next (if newEnd < p.limit then s.lowerEnd port newEnd fun _ => ⟨true, newEnd⟩ else s.setPort port fun _ => ⟨true, newEnd⟩)

/-- TSUWIN_LINK_DOWN (R407). -/
def execTsuwinLinkDown (s : State) : Out := .next { s with tsuwin := false }

/-- TSUWIN_LINK_UP (R407). -/
def execTsuwinLinkUp (s : State) : Out := .next { s with tsuwin := true }

/-! ### Rollback (R398 to R400) -/

/-- The engine whose entry met a cluster error (C: none did). -/
def errEng : ClusterErr → Eng
  | .chkMismatch => .c
  | .residue m => if m then .m else .v
  | .undoCovered e => e
  | .inputGranule e _ => e

/-- Whether the entry that an engine executes was open at the last commit, and so is unprotected (R396). -/
def Strand.openOld (t : Strand) (e : Eng) : Bool :=
  let run := fun (r : Option Run) => match r with
    | some r => decide (r.blk.seq < t.openSeq)
    | none => false
  match e with
  | .c => false
  | .v => run t.vrun
  | .m => run t.mrun
  | e => match t.queue e with
    | h :: _ => decide (h.stage ≠ .queued) && decide (h.seq < t.openSeq)
    | [] => false

/-- Whether a non-idempotent request is on its way, so that the rollback waits for its answer. -/
def Strand.inFlight (t : Strand) : Bool :=
  match t.squ with
  | h :: _ => decide (h.stage = .submitted) && (match h.cmd with
    | .atomic _ _ _ _ _ _ _ _ _ => true
    | .fadd _ _ _ => true
    | .tretire _ => true
    | _ => false)
  | [] => false

/-- The strand at its last commit: what a rollback restores, discards and keeps (R398). Power settings are no part of the
checkpoint (R397). -/
def Strand.rollBack (t : Strand) (c : Snap) : Strand :=
  { t with ctl := { c.ctl with pwrReq := t.ctl.pwrReq }, v := c.v, m := c.m, q := c.q, spad := c.spad, fills := c.fills,
           traps := c.traps, pendDst := Vector.replicate 32 none, zlrec := none, lqu := [], squ := [], kqu := [], vqu := [], mqu := [],
           vrun := none, mrun := none, vdry := false, mdry := false, relaxLost := false, relaxEnded := false,
           mprog := t.mprog &&& ~~~(BitVec.ofNat 64 (2 ^ 47)),
           gates := [], ntWait := false, held := [], stall := false, finish := false, wdC := 0, wdE := Vector.replicate 5 0,
           wdTag := 0, log := [], replay := t.log ++ t.replay, rollbacks := t.rollbacks + 1, halt := [] }

/-- The key of a command of the cluster of `me` that a rollback leaves running. -/
def State.orphanKey (s : State) : Nat :=
  let n := (s.shadow.filter fun q => decide (orphanBase ≤ q.key)).foldl (fun n q => if n < q.key / orphanBase then q.key / orphanBase else n) 0
  s.me.key + (n + 1) * orphanBase

/-- The answers that command `seq` of the cluster of `me` waits for come to one with another number. -/
def State.reOwn (s : State) (seq key : Nat) : State :=
  let o := Owner.entry s.me.die s.me.clus .k seq
  { s with fab := { s.fab with peers := s.fab.peers.map fun q => { q with reqs := q.reqs.map fun r =>
      if r.owner = o then { r with owner := .entry s.me.die s.me.clus .k key } else r } } }

/-- A copy of the cluster of `me` that has started runs on without its entry: what has not flipped yet, and its answers. One
that has failed already only releases what it holds. -/
def State.leaveCopy (s : State) : State :=
  match s.me.st.kqu, s.shadow.find? fun q => decide (q.key = s.me.key) with
  | h :: _, some q =>
    if h.done / 2 ^ 32 ≠ 0 then s.copyRelease q s.me.die
    else
      let key := s.orphanKey
      let left := q.bytes.filter fun b => b.pub || decide (flipHome b.pa = 24) || decide (h.done / 2 ^ flipHome b.pa % 2 = 0)
      { s.reOwn h.seq key with shadow := s.shadow.map fun x => if x.key = q.key then { x with key := key, bytes := left } else x }
  | _, _ => s

/-- The unit of R403 in which a cluster error was found. -/
def errUnit : ClusterErr → Nat
  | .chkMismatch => 6
  | .residue m => if m then 5 else 4
  | .undoCovered .v => 4
  | .undoCovered .m => 5
  | _ => 3

/-- The part of a move whose destination lies in `n` bytes from `lo` on. -/
def Move.clip (lo n : Nat) (x : Move) : Move :=
  let d := x.dst.toNat
  let a := if d < lo then lo else d
  let b := if d + x.n < lo + n then d + x.n else lo + n
  ⟨BitVec.ofNat 64 a, x.src.map fun y => y + BitVec.ofNat 64 (a - d), b - a⟩

/-- A fill's pattern from its byte `i` on. -/
def patFrom (pat : Word) (i : Nat) : Word := BitVec.ofNat 64 (leNat ((List.range 8).map fun k => fillByte pat (i + k)))

/-- What a refill has come to: the granule is filled, or window lines of other packages are awaited, or it cannot be filled. -/
inductive Refill where
  | filled (s : State)
  | later (s : State)
  | lost

/-- The owner of the window lines that a rollback of the cluster of `me` reads. -/
def State.refillOwner (s : State) : Owner := .fetch .c s.me.key

/-- R398: the copy engine re-runs the part of a command that fills window granule `g`; it fails where its source does not
translate or cannot be read. -/
def State.refillGran (s : State) (h : Entry) (g : Nat) : Refill :=
  match h.cmd with
  | .copy op x gd ga gb gb1 tags =>
    let lo := spadBase + g * 16384
    let o := s.refillOwner
    let st := (copyTagPair h x tags).1
    (match s.readList o h op gd ga gb with
     | .later s1 => .later s1
     | .list s1 _ l =>
       let moves := ((realMoves op gd ga gb gb1 l).map (Move.clip lo 16384)).filter fun m => decide (m.n ≠ 0)
       (match s1.mapAll (stretchGrans (moveReads moves)) false (if x then some st else none) [] with
        | (s2, .ok src) =>
          (match s2.fetch s2.me.st.vi o (sysLines src (moveReads moves)) with
           | (s3, false) => .later s3
           | (s3, true) =>
             match s3.snapAll o src st (patFrom ga (if gd.toNat < lo then lo - gd.toNat else 0)) moves with
             | .ok bytes => .filled (bytes.foldl (fun s b => s.updSt fun t =>
                 { t with spad := t.spad.writeN (b.1.toNat - spadBase) b.2 }) s3)
             | .error _ => .lost)
        | (_, .error _) => .lost)
     | _ => .lost)
  | _ => .lost

/-- R398, step 3: an input granule is filled again by the command that last filled it; none where the strand's own stores,
or nothing, filled it. -/
def State.refill (s : State) (fills : List (Nat × Option Entry)) (k : ClusterErr) : Refill :=
  match k with
  | .inputGranule _ g =>
    (match fills.find? fun x => decide (x.1 = g) with
     | some (_, some h) => s.refillGran h g
     | _ => .lost)
  | _ => .filled s

/-- The input granules of some errors are filled again. -/
def State.refillErrs (s : State) (fills : List (Nat × Option Entry)) (l : List (ClusterErr × Nat)) : Refill :=
  match l with
  | [] => .filled s
  | k :: r =>
    match s.refill fills k.1 with
    | .filled s1 => s1.refillErrs fills r
    | .later s1 => .later s1
    | .lost => .lost

/-- R327: nodes not yet placed are judged again after a fencing. -/
def State.rejudge (s : State) : State :=
  { s with disp := { s.disp with nodes := s.disp.nodes.map fun n =>
      if n.status = 0 ∧ (n.state = .accepted ∨ n.state = .ready) ∧ s.kindCount n.vi n.vkind < n.gang then { n with status := 7 } else n } }

/-- R405: the cluster of `me` is fenced; its gang leaves from the last commit, or its stream is torn down. -/
def State.fence (s : State) (recoverable : Bool) : State :=
  let s1 := { s with me := { s.me with fenced := true } }
  let s2 := (s1.errRecord 4 6 s.me.die s.me.clus 0 0 s.me.st.node).rejudge
  if recoverable then s2.leaveGang else s2.tearDown s.me.st.vi (some s.me.st.stream)

/-- The strand of `me` goes back to its checkpoint. -/
def State.restoreMe (s : State) (c : Snap) : State :=
  let s1 := s.leaveCopy
  let s2 := { s1 with tagWaits := s1.tagWaits.filter fun w => !(decide (w.node = s.me.st.node) && decide (w.idx = s.me.st.idx)) }
  (s2.forget fun o => decide (o = s.kOwner) || decide (o = s.mOwner)).updSt fun t => t.rollBack c

/-- Rollbacks of the cluster within the last minute, with one more now. -/
def State.recentRollbacks (s : State) : List Nat :=
  (s.me.rollbackTimes.filter fun x => decide (s.pow.now < x + 60000000000)) ++ [s.pow.now]

/-- One record of R403 for each of some cluster errors of the cluster of `me`, with the time of its detection. -/
def State.errRecords (s : State) (kind : Nat) (l : List (ClusterErr × Nat)) : State :=
  l.foldl (fun s k => s.errRecordAt k.2 kind (errUnit k.1) s.me.die s.me.clus 0 0 s.me.st.node) s

/-- A rollback of the cluster of `me` for some errors, once nothing of it is on its way (R398 to R400, R405). -/
def State.rollback (s : State) (c : Snap) (l : List (ClusterErr × Nat)) : State :=
  let t := s.me.st
  let fails := ((s.errRecords 3 l).updSt fun t => { t with halt := [] }).fence false
  if t.unprotected ∨ l.any fun k => t.openOld (errEng k.1) then fails
  else
    match (s.restoreMe c).refillErrs t.fills l with
    | .lost => fails
    | .later s1 => { s with fab := s1.fab }.updSt fun t => { t with halt := l }
    | .filled s1 =>
      let s2 := s1.forget fun o => decide (o = s1.refillOwner)
      if 2 ≤ t.rollbacks then (s2.errRecords 3 l).fence true
      else
        let times := s.recentRollbacks
        let s3 := s2.errRecords 2 l
        let s4 := { s3 with me := { s3.me with rollbackTimes := times } }
        if 16 ≤ times.length then s4.fence true else s4.pool

/-- CLUSTER_ERROR_ROLLBACK on the cluster of `me`. From the first error on the cluster has stopped issue; while a
non-idempotent request is on its way, or the source of a refill, the rollback waits, and a further error joins the first. -/
def execClusterErrorRollback (k : ClusterErr) (s : State) : Out :=
  let t := s.me.st
  let l := if t.halt.any fun x => decide (x.1 = k) then t.halt else t.halt ++ [(k, s.pow.telTime)]
  if s.me.status = .idle then .next s
  else if t.inFlight then .next (s.updSt fun t => { t with halt := l })
  else
    match t.ckpt with
    | none => .next s
    | some c => .next (s.rollback c l)

/-! ### The firmware pool (R419 to R421) -/

/-- A mailbox command that goes back to the queue is handled again from the start, a LOAD that has placed its image too. -/
def State.restart (s : State) (e : Event) : State :=
  match e with
  | .mailbox vi => s.setVi vi { s.vi vi with loading := none }
  | _ => s

/-- CORE_HEARTBEAT_EXPIRE: the core that the turn names reboots; its event goes back to the head of its key, and the
fallback scheduler takes the doorbells. -/
def execCoreHeartbeatExpire (s : State) : Out :=
  let k := s.input.headD 0
  if s.fe.up.getLsbD k then
    let back := (s.fe.cores.filter fun c => decide (c.1 = k)).map fun c => c.2
    let s1 : State := { s with fe := { s.fe with
      up := s.fe.up &&& ~~~(BitVec.ofNat 12 (2 ^ k)), fallback := true, events := back ++ s.fe.events,
      cores := s.fe.cores.filter fun c => decide (c.1 ≠ k),
      reboots := if s.fe.reboots = BitVec.allOnes 32 then s.fe.reboots else s.fe.reboots + 1 } }
    .next (back.foldl State.restart s1).pool
  else .next s

/-- CORE_REBOOT_COMPLETE: the core that the turn names runs again; with the last one the fallback scheduler stops, and the
doorbells that it has not served are the pool's. -/
def execCoreRebootComplete (s : State) : Out :=
  let k := s.input.headD 0
  if k < 12 ∧ s.fe.booted then
    let up := s.fe.up ||| BitVec.ofNat 12 (2 ^ k)
    let s1 : State := { s with fe := { s.fe with up := up, fallback := s.fe.fallback && decide (up ≠ BitVec.allOnes 12) } }
    .next s1.pool
  else .next s

/-- The enabled stream queues as `64 * interface + queue`, in order. -/
def State.enabledQueues (s : State) : List Nat :=
  s.vis.flatMap fun v => if v.2.enabled then v.2.sqs.filterMap fun q => if q.2.en then some (64 * v.1 + q.1) else none else []

/-- One turn of the fallback scheduler on queue `64 * interface + queue`: one entry; a queue that has none is served, and
its doorbells are done. -/
def State.fallbackServe (s : State) (k : Nat) : State :=
  let s0 : State := { s with fe := { s.fe with turn := k + 1 } }
  let s1 := s0.sqScan (k / 64) (k % 64)
  if s1.disp.subs.any fun u => decide (64 * u.vi + u.queue = k) then s1
  else { s1 with fe := { s1.fe with events := s1.fe.events.filter fun e => decide (e ≠ .doorbell (k / 64) (k % 64)) } }

/-- FALLBACK_TURN: the next enabled stream queue, in turn. -/
def execFallbackTurn (s : State) : Out :=
  if !s.fe.fallback then .next s
  else
    let qs := s.enabledQueues
    match qs.find? fun k => decide (s.fe.turn ≤ k), qs with
    | some k, _ => .next (s.fallbackServe k)
    | none, k :: _ => .next (s.fallbackServe k)
    | none, [] => .next s

end Sys2Proof.Machine
end

