-- ==== Sys2Proof/Machine/Registers.lean ====
section
/-!
DEFINITION. The registers that the host writes and reads: the control page (R418), the register pages (R410), and the
registers with a behaviour of their own (R69, R164, R334, R411, R414, R417). Until the BAR windows open, and while the
Tsuwin link is down, host writes are discarded and reads return all ones (R2, R423).
-/

namespace Sys2Proof.Machine

/-! ### Cluster sets (R417) -/

/-- SYS_FESTAT.CFGERR is set. -/
def State.cfgErr (s : State) : State := { s with fe := { s.fe with cfgerr := true } }

/-- Whether interface `vi`, sliced or not, with the given set on some dies shares a cluster with another interface where
one of the two sets is spatial. -/
def State.setsClash (s : State) (vi : Nat) (sliced : Bool) (vicls : Sp Word) : Bool :=
  s.vis.any fun v => decide (v.1 ≠ vi) && (!sliced || !v.2.sliced) &&
    vicls.any fun d => decide (d.2 &&& Sp.get v.2.vicls d.1 0 ≠ 0)

/-- A write of SYS_VICLS(d). -/
def State.viclsWrite (s : State) (die : Nat) (mask : Word) : State :=
  let vi := s.fe.visel.toNat
  let v := s.vi vi
  let set := Sp.set v.vicls die mask 0
  if 24 ≤ die then s
  else if (v.enabled && decide (Sp.get v.vicls die 0 ≠ mask)) || s.setsClash vi v.sliced set then s.cfgErr
  else s.setVi vi { v with vicls := set }

/-- A write of SYS_VICFG: SLICED changes only while EN is 0; EN from 1 to 0 tears the interface down, and EN reads 1 until
that has ended. -/
def State.vicfgWrite (s : State) (w : Word) : State :=
  let vi := s.fe.visel.toNat
  let v := s.vi vi
  let sliced := w.getLsbD 1
  if v.enabled then
    if sliced ≠ v.sliced then s.cfgErr
    else
      let s1 := s.setVi vi { v with vicfg := (w &&& 0xFE) ||| 1 }
      if w.getLsbD 0 then s1 else (s1.setVi vi { s1.vi vi with disabling := true }).tearDown vi none
  else if s.setsClash vi sliced v.vicls then s.cfgErr
  else
    let s1 := s.setVi vi { v with vicfg := w &&& 0xFF }
    { s1 with fe := { s1.fe with anyEnabled := s1.fe.anyEnabled || w.getLsbD 0 } }

/-! ### Queues (R334, R411) -/

/-- Whether HADDR of a launch queue is a doubleword of a DEV page that may be written. -/
def State.haddrOk (s : State) (vi : Nat) (a : Word) : State × Bool :=
  match s.pageOf vi a.toNat true with
  | (s1, .ok (_, type)) => (s1, decide (type = tDev) && decide (a.toNat % 8 = 0))
  | (s1, .error _) => (s1, false)

/-- A write of doubleword 0 of a launch queue's descriptor (R334). -/
def State.lqWrite (s : State) (vi q : Nat) (w : Word) : State :=
  let x := (s.vi vi).lq q
  let lsize := BitVec.ofNat 4 (w.toNat / 2)
  let put := fun (s : State) (y : LaunchQ) => s.setVi vi ((s.vi vi).setLq q y)
  if w.getLsbD 0 then
    match s.haddrOk vi x.haddr with
    | (s1, true) =>
      ((put s1 { x with en := true, lsize := lsize, head := 0, tail := 0, drop := [] }).fePut vi x.haddr.toNat (leBytes 8 0)).1
    | (_, false) => (put s { x with lsize := lsize }).cfgErr
  else put s { x with en := false, lsize := lsize }

/-- A submission that has been taken from a stream queue and not accepted goes: the queue starts again (R411). -/
def State.dropSub (s : State) (vi q : Nat) : State :=
  { s with disp := { s.disp with subs := s.disp.subs.filter fun u => !(decide (u.vi = vi) && decide (u.queue = q)) } }

/-- A write of SQ_CFG(q): EN = 1 sets HEAD and TAIL to 0 (R411). A LOAD that goes on submits through queue 0 as it now
stands. -/
def State.sqWrite (s : State) (vi q : Nat) (w : Word) : State :=
  let v := s.vi vi
  let x := v.sq q
  let en := w.getLsbD 0
  let y := { x with en := en, host := w.getLsbD 1, lsize := BitVec.ofNat 4 (w.toNat / 4) }
  let v1 := v.setSq q (if en then { y with head := 0, tail := 0 } else y)
  let s1 := if en then s.dropSub vi q else s
  if q = 0 ∧ v.loading.isSome then
    (s1.setVi vi { v1 with loading := v.loading.map fun l => if en then { l with last := 0 } else l }).loadEnds vi
  else s1.setVi vi v1

/-- Records that the complete entries of a stream queue from HEAD on announce. -/
def State.sqRecords (s : State) (vi : Nat) (x : StreamQ) (n : Nat) : Nat :=
  match n with
  | 0 => 0
  | n + 1 =>
    match (s.sqRead vi x 64).2 with
    | none => 0
    | some bs =>
      if fieldOf (leNat bs) 128 32 ≠ (x.head.toNat + 1) % 2 ^ 32 then 0
      else fieldOf (leNat bs) 64 12 + 1 + s.sqRecords vi { x with head := x.head + 1 } n

/-- A write of SQ_TAIL(q): TAIL := max(TAIL, value), and a doorbell for the scan (R411, R419). While the interface is torn
down the entries are dropped and their records counted. -/
def State.doorbellWrite (s : State) (vi q : Nat) (w : Word) : State :=
  let v := s.vi vi
  let x := v.sq q
  let y := if x.tail.toNat < w.toNat then { x with tail := w } else x
  if v.closing then
    let n := s.sqRecords vi x (min (y.tail.toNat - x.head.toNat) (2 ^ x.lsize.toNat))
    s.setVi vi ((v.setSq q { y with head := y.tail }).drops n)
  else (s.setVi vi (v.setSq q y)).post (.doorbell vi q)

/-! ### The mailbox register (R414, R415) -/

/-- A write of MBOX.CMD: it starts a command unless one runs (R414). -/
def State.mboxWrite (s : State) (vi : Nat) (code : BitVec 8) : State :=
  let v := s.vi vi
  if v.mbox.busy then s
  else (s.setVi vi { v with mbox := { v.mbox with cmd := code, busy := true } }).post (.mailbox vi)

/-! ### Writes (R409, R410, R418) -/

/-- Writes some bits of a register and keeps the others. -/
def merge (old w mask : Word) : Word := (w &&& mask) ||| (old &&& ~~~mask)

/-- A counter that a 1 in its low half clears. -/
def clears (w : Word) : Bool := decide (w.toNat % 2 ^ 32 ≠ 0)

/-- A write of a package register. -/
def State.pkgWrite (s : State) (n : Nat) (w : Word) : State :=
  let f := s.fe
  match n with
  | 0x8000 => { s with fe := { f with visel := w.setWidth 7 } }
  | 0x8001 => if w.getLsbD 13 then { s with fe := { f with cfgerr := false } } else s
  | 0x8002 => { s with fe := { f with sdva := w &&& bitsMask 16 55 } }
  | 0x8003 => s.sdWrite w
  | 0x8004 => { s with fe := { f with zcfg := w &&& (bitsMask 0 13 ||| bitsMask 16 47) } }
  | 0x8005 => { s with fe := { f with zwgt := w &&& bitsMask 0 23 } }
  | 0x8006 => { s with fe := { f with ramp := w &&& bitsMask 0 47 } }
  | 0x8007 => { s with fe := { f with scrub := w &&& (1 ||| bitsMask 8 31) } }
  | 0x8008 => { s with fe := { f with dispcfg := w &&& bitsMask 0 7 } }
  | 0x800A => { s with fe := { f with telcfg0 := w &&& bitsMask 0 20 },
                       pow := if f.telcfg0.getLsbD 0 then s.pow else s.telStart.pow }
  | 0x800B => { s with fe := { f with telcfg1 := w &&& bitsMask 0 51 } }
  | 0x800C => { s with fe := { f with errcfg0 := w &&& bitsMask 0 20 } }
  | 0x800D => { s with fe := { f with errcfg1 := w &&& bitsMask 0 51 } }
  | _ => s

/-- A write of SYS_CELLCFG(d) (R164). -/
def State.cellcfgWrite (s : State) (die : Nat) (w : Word) : State :=
  if s.fe.anyEnabled ∨ 24 ≤ die then s
  else { s with fe := { s.fe with cellcfg := Sp.set s.fe.cellcfg die (w &&& bitsMask 0 16) 0 } }

/-- A write of SYS_SYNCDROP(d) (R152). -/
def State.syncdropWrite (s : State) (die : Nat) (w : Word) : State :=
  if clears w then { s with fe := { s.fe with syncdrop := Sp.set s.fe.syncdrop die 0 0 } } else s

/-- A write of a register of the interface that SYS_VISEL names. -/
def State.ifaceWrite (s : State) (n : Nat) (w : Word) : State :=
  let vi := s.fe.visel.toNat
  let v := s.vi vi
  match n with
  | 0x8100 => s.vicfgWrite w
  | 0x8101 => s.setVi vi { v with ptb := w &&& (1 ||| bitsMask 11 51) }
  | 0x8102 => s.setVi vi { v with tagq := w &&& (bitsMask 0 15 ||| bitsMask 32 39) }
  | 0x8103 => s.setVi vi { v with tvec := w &&& (1 ||| bitsMask 8 15) }
  | 0x8104 => s.setVi vi { v with slice := w &&& bitsMask 0 23 }
  | 0x8105 => s.setVi vi { v with wdog := w &&& bitsMask 0 31 }
  | 0x8106 => s.setVi vi { v with equota := merge v.equota w (bitsMask 0 31) }
  | 0x8107 => s.setVi vi { v with filler := w &&& (1 ||| bitsMask 16 31) }
  | 0x8108 => s.setVi vi { v with zbind := w &&& bitsMask 0 7 }
  | 0x8109 => if clears w then s.setVi vi { v with dropped := 0 } else s
  | _ => s

/-- A write of doubleword `k` of launch queue `q` (R334). -/
def State.lqField (s : State) (q k : Nat) (w : Word) : State :=
  let vi := s.fe.visel.toNat
  let v := s.vi vi
  match k with
  | 0 => s.lqWrite vi q w
  | 1 => s.setVi vi (v.setLq q { v.lq q with base := w })
  | 2 => s.setVi vi (v.setLq q { v.lq q with haddr := w })
  | _ => s

/-- A write through the control page (R418). -/
def State.ctlWrite (s : State) (n : Nat) (w : Word) : State :=
  if n < 0x8040 then s.pkgWrite n w
  else if n < 0x8058 then s.cellcfgWrite (n - 0x8040) w
  else if n < 0x80A0 then s
  else if n < 0x80B8 then s.syncdropWrite (n - 0x80A0) w
  else if n < 0x8120 then s.ifaceWrite n w
  else if n < 0x8138 then s.viclsWrite (n - 0x8120) w
  else if 0x8140 ≤ n ∧ n < 0x81C0 then s.lqField ((n - 0x8140) / 8) ((n - 0x8140) % 8) w
  else s

/-- A write of half `h` of notification vector `k` (R410). -/
def Note.write (x : Note) (h : Nat) (w : Word) : Note :=
  if h = 0 then { x with addr := w.setWidth 52 } else { x with data := w.setWidth 32, en := w.getLsbD 32 }

/-- A write of field `k` of stream queue `q`. -/
def State.sqField (s : State) (vi q k : Nat) (w : Word) : State :=
  let v := s.vi vi
  match k with
  | 0 => s.setVi vi (v.setSq q { v.sq q with base := w &&& bitsMask 6 55 })
  | 1 => s.sqWrite vi q w
  | 2 => s.doorbellWrite vi q w
  | _ => s

/-- A write of an argument of the mailbox. -/
def State.argWrite (s : State) (vi k : Nat) (w : Word) : State :=
  let v := s.vi vi
  if h : k < 4 then s.setVi vi { v with mbox := { v.mbox with arg := v.mbox.arg.set k w h } } else s

/-- A write of a register page (R410). -/
def State.pageWrite (s : State) (vi off : Nat) (w : Word) : State :=
  let v := s.vi vi
  if 128 ≤ vi ∨ off % 8 ≠ 0 then s
  else if 0x100 ≤ off ∧ off < 0x900 then s.sqField vi ((off - 0x100) / 32) ((off - 0x100) / 8 % 4) w
  else if 0x1008 ≤ off ∧ off < 0x1028 then s.argWrite vi ((off - 0x1008) / 8) w
  else if 0x2000 ≤ off ∧ off < 0x3000 then
    let k := (off - 0x2000) / 16
    let x := Sp.get v.notes k ⟨0, 0, false⟩
    s.setVi vi { v with notes := Sp.set v.notes k (x.write ((off - 0x2000) / 8 % 2) w) ⟨0, 0, false⟩ }
  else
    match off with
    | 0x0008 => s.setVi vi { v with winBase := w &&& bitsMask 30 55 }
    | 0x0010 => if clears w then s.setVi vi { v with winerr := 0 } else s
    | 0x0018 => if clears w then s.setVi vi { v with dropped := 0 } else s
    | 0x0900 => s.setVi vi { v with crBase := w &&& bitsMask 7 51 }
    | 0x0908 => s.setVi vi { v with crCfg := w &&& bitsMask 0 12 }
    | 0x1000 => s.mboxWrite vi (w.setWidth 8)
    | _ => s

/-- An export entry of 64 bits, and back (R378). -/
def Exp.ofWord (w : Word) : Exp :=
  ⟨w.getLsbD 0, w.getLsbD 1, w.getLsbD 2, BitVec.ofNat 7 (w.toNat / 16), w.toNat / 2 ^ 26 % 2 ^ 26 * 2 ^ 26⟩

/-- The bits of an export entry. -/
def Exp.word (e : Exp) : Word :=
  BitVec.ofNat 64 (e.v.toNat + 2 * e.w.toNat + 4 * e.cxl.toNat + 16 * e.vi.toNat + e.pa)

/-- A write of entry `k` of the export table (R378, R406). -/
def State.exportEntryWrite (s : State) (k : Nat) (w : Word) : State :=
  if k < 2048 then { s with fab := { s.fab with exports := Sp.set s.fab.exports k (Exp.ofWord w) Exp.none } } else s

/-- A host write, discarded until the windows open and while the link is down (R2, R423). -/
def State.hostWrite (s : State) (tgt : RegTarget) (w : Word) : State :=
  if s.hostUp then
    match tgt with
    | .ctl n => s.ctlWrite n w
    | .page vi off => s.pageWrite vi off w
    | .exportEntry k => s.exportEntryWrite k w
  else s

/-- REGISTER_WRITE: a register of the control page or of a register page. -/
def execRegisterWrite (tgt : RegTarget) (v : BitVec 64) (s : State) : Out := .next (s.hostWrite tgt v)

/-- W1C_CLEAR: a counter that a written 1 clears (R152, R338, R410). -/
def execW1cClear (tgt : RegTarget) (v : BitVec 64) (s : State) : Out := .next (s.hostWrite tgt v)

/-- CELLCFG_WRITE (R164). -/
def execCellcfgWrite (die : Nat) (v : BitVec 64) (s : State) : Out := .next (s.hostWrite (.ctl (0x8040 + die % 24)) v)

/-- VICLS_WRITE (R417). -/
def execViclsWrite (die : Nat) (mask : BitVec 64) (s : State) : Out := .next (s.hostWrite (.ctl (0x8120 + die % 24)) mask)

/-- VI_ENABLE: SYS_VICFG with EN 1 (R417). -/
def execViEnable (v : BitVec 64) (s : State) : Out := .next (s.hostWrite (.ctl 0x8100) (v ||| 1))

/-- VI_DISABLE: SYS_VICFG with EN 0 (R417). -/
def execViDisable (v : BitVec 64) (s : State) : Out := .next (s.hostWrite (.ctl 0x8100) (v &&& ~~~1))

/-- SQ_DOORBELL: SQ_TAIL of stream queue `q` (R411). -/
def execSqDoorbell (vi q : Nat) (v : BitVec 64) (s : State) : Out := .next (s.hostWrite (.page (vi % 128) (0x110 + 32 * (q % 64))) v)

/-- SQ_ENABLE: SQ_CFG of stream queue `q` with EN 1 (R411). -/
def execSqEnable (vi q : Nat) (v : BitVec 64) (s : State) : Out :=
  .next (s.hostWrite (.page (vi % 128) (0x108 + 32 * (q % 64))) (v ||| 1))

/-- LAUNCH_QUEUE_ENABLE: EN of launch queue `q` of the interface that SYS_VISEL names, which `vi` has to be: the control
page reaches no other (R334, R409, R418). -/
def execLaunchQueueEnable (vi q : Nat) (v : BitVec 64) (s : State) : Out :=
  .next (if s.fe.visel.toNat = vi then s.hostWrite (.ctl (0x8140 + 8 * (q % 16))) (v ||| 1) else s)

/-- MBOX_BAD_COMMAND: a mailbox write of a code outside R415 (R414). -/
def execMboxBadCommand (vi : Nat) (code : BitVec 8) (s : State) : Out :=
  if 1 ≤ code.toNat ∧ code.toNat ≤ 7 then .next s else .next (s.hostWrite (.page (vi % 128) 0x1000) (code.setWidth 64))

/-! ### Reads (R409, R410, R418) -/

/-- TALLOC entries of an interface that wait (R160). -/
def State.tagWaiters (s : State) (vi : Nat) : Nat := (s.tagWaits.filter fun w => decide (w.vi = vi)).length

/-- What a read of the control page returns. -/
def State.ctlRead (s : State) (n : Nat) : Word :=
  let f := s.fe
  let v := s.vi f.visel.toNat
  if 0x8040 ≤ n ∧ n < 0x8058 then Sp.get f.cellcfg (n - 0x8040) 0
  else if 0x8060 ≤ n ∧ n < 0x8078 then s.l2Occ (n - 0x8060)
  else if 0x8080 ≤ n ∧ n < 0x8098 then BitVec.ofNat 64 (s.cellsUsed (n - 0x8080))
  else if 0x80A0 ≤ n ∧ n < 0x80B8 then Sp.get f.syncdrop (n - 0x80A0) 0
  else if 0x8120 ≤ n ∧ n < 0x8138 then Sp.get v.vicls (n - 0x8120) 0
  else if 0x8140 ≤ n ∧ n < 0x81C0 then
    let x := v.lq ((n - 0x8140) / 8)
    [BitVec.ofNat 64 (x.en.toNat + 2 * x.lsize.toNat), x.base, x.haddr, 0, x.head, x.tail].getD ((n - 0x8140) % 8) 0
  else
    match n with
    | 0x8000 => f.visel.setWidth 64
    | 0x8001 => BitVec.ofNat 64 (f.up.toNat + f.fallback.toNat * 2 ^ 12 + f.cfgerr.toNat * 2 ^ 13 + f.reboots.toNat * 2 ^ 16)
    | 0x8002 => f.sdva
    | 0x8003 => f.sdctl
    | 0x8004 => f.zcfg
    | 0x8005 => f.zwgt
    | 0x8006 => f.ramp
    | 0x8007 => f.scrub
    | 0x8008 => f.dispcfg
    | 0x8009 => BitVec.ofNat 64 s.pow.telTime
    | 0x800A => f.telcfg0
    | 0x800B => f.telcfg1
    | 0x800C => f.errcfg0
    | 0x800D => f.errcfg1
    | 0x8100 => v.vicfg
    | 0x8101 => v.ptb
    | 0x8102 => v.tagq ||| BitVec.ofNat 64 (s.tagsLive f.visel.toNat * 2 ^ 16 + s.tagWaiters f.visel.toNat * 2 ^ 48)
    | 0x8103 => v.tvec
    | 0x8104 => v.slice
    | 0x8105 => v.wdog
    | 0x8106 => v.equota
    | 0x8107 => v.filler
    | 0x8108 => v.zbind
    | 0x8109 => v.dropped.setWidth 64
    | _ => 0

/-- What a read of a register page returns. -/
def State.pageRead (s : State) (vi off : Nat) : Word :=
  let v := s.vi vi
  if off % 8 ≠ 0 then 0
  else if 0x100 ≤ off ∧ off < 0x900 then
    let x := v.sq ((off - 0x100) / 32)
    [x.base, BitVec.ofNat 64 (x.en.toNat + 2 * x.host.toNat + 4 * x.lsize.toNat), x.tail, x.head].getD ((off - 0x100) / 8 % 4) 0
  else if 0x2000 ≤ off ∧ off < 0x3000 then
    let x := Sp.get v.notes ((off - 0x2000) / 16) ⟨0, 0, false⟩
    if off / 8 % 2 = 0 then x.addr.setWidth 64 else BitVec.ofNat 64 (x.data.toNat + x.en.toNat * 2 ^ 32)
  else
    match off with
    | 0x0000 => BitVec.ofNat 64 vi
    | 0x0008 => v.winBase
    | 0x0010 => v.winerr.setWidth 64
    | 0x0018 => v.dropped.setWidth 64
    | 0x0900 => v.crBase
    | 0x0908 => v.crCfg
    | 0x1000 => BitVec.ofNat 64 (v.mbox.cmd.toNat + v.mbox.busy.toNat * 2 ^ 8 + v.mbox.res.toNat * 2 ^ 16)
    | 0x1008 => v.mbox.arg.get 0
    | 0x1010 => v.mbox.arg.get 1
    | 0x1018 => v.mbox.arg.get 2
    | 0x1020 => v.mbox.arg.get 3
    | 0x1028 => v.mbox.out0
    | 0x1030 => v.mbox.out1
    | _ => 0

/-- What a host read returns; it changes nothing. -/
def State.hostRead (s : State) (tgt : RegTarget) : Word :=
  if s.hostUp then
    match tgt with
    | .ctl n => s.ctlRead n
    | .page vi off => s.pageRead vi off
    | .exportEntry k => (Sp.get s.fab.exports k Exp.none).word
  else BitVec.allOnes 64

end Sys2Proof.Machine
end

