-- ==== Sys2Proof/Machine/Host.lean ====
section
/-!
DEFINITION. The mailbox commands (R415), loading (R422), BAR2 (R409), boot and attestation (R423 to R425), the management
port (R426) and the time receiver (R427).
-/

namespace Sys2Proof.Machine

/-! ### The checks of the loader (R422) -/

/-- The words of an area as instructions. -/
def vInstr (w : BitVec 96) : Option Instr := decoded (decodeV w.toNat)

/-- A matrix word as an instruction. -/
def mInstr (w : BitVec 192) : Option Instr := decoded (decodeM w.toNat)

/-- LEN of an engine repeat word (R184). -/
def repeatLen (i : Instr) : Option Nat :=
  match i with
  | .vrep f => some (f.mod.toNat % 4096)
  | .mrep _ len => some len.toNat
  | _ => none

/-- Blocks that follow one another up to the end of an area. -/
def blocksRun (blocks : List (Nat × Nat)) (next n : Nat) : Bool :=
  match blocks with
  | [] => decide (next = n)
  | b :: r => decide (b.1 = next) && decide (1 ≤ b.2) && decide (b.2 ≤ 4096) && blocksRun r (next + b.2) n

/-- R181: the blocks are the runs of an area from its first label on, in order, each of 1 to 4,096 words. -/
def blocksOk (blocks : List (Nat × Nat)) (n : Nat) : Bool :=
  match blocks with
  | [] => true
  | b :: _ => blocksRun blocks b.1 n

/-- Whether a word may not stand in a repeat body: a repeat word (R184), or an NSET or NGO (R276). -/
def unrepeatable (i : Instr) : Bool :=
  match i with
  | .nset _ _ _ _ _ _ _ _ => true
  | .ngo _ _ _ => true
  | i => (repeatLen i).isSome

/-- R184, R276: no repeat body runs past its block, and none holds a word that may not be repeated. -/
def repeatsOk (words : List (Option Instr)) (b : Nat × Nat) : Bool :=
  (List.range b.2).all fun k =>
    match (words.getD (b.1 + k) none).bind repeatLen with
    | none => true
    | some len => decide (k + 1 + len ≤ b.2) &&
        (List.range len).all fun j => !((words.getD (b.1 + k + 1 + j) none).any unrepeatable)

/-- The FORKs and SWPTs of a control area name blocks and rows that exist (R181, R367). -/
def kernelForksOk (k : Kernel) : Bool :=
  k.ctrl.all fun w => match decodeS w.toNat with
    | .ok (.fork _ m blk) => (if m then k.mblocks else k.vblocks).any fun b => decide (b.1 = blk.toNat)
    | _ => true

/-- R367: every row has three labels of the kernel with one live mask, and every SWPT names a row. -/
def kernelSwitchOk (k : Kernel) : Bool :=
  (k.switch.all fun r => decide (r.1 < 64) && decide (r.2.length = 3) && r.2.all fun l => decide (l < k.ctrl.length)) &&
    (k.switch.all fun r => k.live.any fun l => decide (l.1 = r.1) && decide (l.2.length = 3) && decide (l.2.eraseDups.length = 1)) &&
    k.ctrl.all fun w => match decodeS w.toNat with
      | .ok (.swpt _ row) => k.switch.any fun r => decide (r.1 = row.toNat)
      | _ => true

/-- Whether every V and M word of a kernel is assigned (R51). -/
def kernelWordsOk (k : Kernel) : Bool :=
  k.vwords.all (fun w => (vInstr w).isSome) && k.mwords.all fun w => (mInstr w).isSome

/-- R181 of a kernel. -/
def kernelBlocksOk (k : Kernel) : Bool :=
  blocksOk k.vblocks k.vwords.length && blocksOk k.mblocks k.mwords.length && kernelForksOk k

/-- R184 of a kernel. -/
def kernelRepeatsOk (k : Kernel) : Bool :=
  k.vblocks.all (repeatsOk (k.vwords.map vInstr)) && k.mblocks.all (repeatsOk (k.mwords.map mInstr))

/-- The edges of the wait graph from C to each engine that an RDV names (R193). -/
def rdvEdges (ctrl : List (BitVec 32)) : List (Nat × Nat × Option Nat) :=
  ctrl.flatMap fun w => match decodeS w.toNat with
    | .ok (.rdv _ em) => (engOrder.filter (named em)).map fun e => (0, engCode e, none)
    | _ => []

/-- The code of a kernel placed at an address (R34): a zero word follows the control area (R100), then stand the V area and,
at the next multiple of 8, the M area. -/
def placeKernel (k : Kernel) (va : Nat) : Code :=
  { ctrlVa := va, ctrl := k.ctrl.flatMap fun w => leBytes 4 w.toNat, varea := k.vwords.flatMap fun w => leBytes 12 w.toNat,
    marea := k.mwords.flatMap fun w => leBytes 24 w.toNat, entry := va + 4 * k.entry, vblocks := k.vblocks, mblocks := k.mblocks,
    switch := k.switch.map fun r => (r.1, r.2.map fun l => va + 4 * l), edges := k.edges ++ rdvEdges k.ctrl }

/-- The code areas as consecutive bytes. -/
def Code.bytes (c : Code) : List Byte :=
  let cv := c.ctrl ++ leBytes 4 0 ++ c.varea
  cv ++ List.replicate ((8 - (c.ctrlVa + cv.length) % 8) % 8) 0 ++ c.marea

/-- A record of an image with KERNEL and ARGS as addresses. -/
def launchRecord (codes : List Code) (rec' : List Byte) (args : Nat) : List Byte :=
  let entry := match codes[leNat (rec'.take 8)]? with
    | some c => c.entry
    | none => 0
  leBytes 8 entry ++ (rec'.drop 8).take 24 ++ leBytes 8 args ++ (rec'.drop 40).take 88

/-- R194: whether the wait graph of a `.launch` line has a cycle. -/
def launchCycle (codes : List Code) (rec' : List Byte) : Bool :=
  let r := leNat rec'
  match codes[leNat (rec'.take 8)]? with
  | some c => waitCycle c (fieldOf r 88 6 + 1) ((List.range 16).map fun q => fieldOf r (320 + 8 * q) 8)
  | none => false

/-- R135: a publishable region names its die and has a size of its kind. -/
def regionPubOk (r : Region) : Bool :=
  decide (r.type ≠ tPub) || (r.home.isSome && decide (r.size % 65536 = 0) && decide (65536 ≤ r.size) && decide (r.size ≤ 2 ^ 30))

/-- R26, R27: base and size are multiples of 64 KiB, the type and the home exist, and no two placements overlap. -/
def regionOk (r : Region) : Bool :=
  decide (r.base % 65536 = 0) && decide (r.size % 65536 = 0) && decide (r.type ≤ 8) && r.home.all (fun d => decide (d < Config.dies)) &&
    r.bytes.all (fun x => decide (x.1 < r.size)) && decide (r.bytes.map fun x => x.1).Nodup

/-- `n` initial bytes of a region from an offset on. -/
def regionTake (r : Region) (off n : Nat) : List Byte := (List.range n).map fun k =>
  match r.bytes.find? fun x => decide (x.1 = off + k) with
  | some x => x.2
  | none => 0

/-- Bytes that the elements of an uncompressed tensor take (R230, R231). -/
def tensorBytes (f : Fmt) (layout rows cols : Nat) : Nat :=
  let tiles := fun (n : Nat) => (rows + n - 1) / n * ((cols + n - 1) / n) * (n * rowBytes f n)
  match layout with
  | 0 => rows * rowBytes f cols
  | 1 => cols * rowBytes f rows
  | 2 => tiles 32
  | _ => tiles 128

/-- R27, R231, R305: a tensor's header holds no reserved value, its AUX is of its kind, a scale plane lies aligned above the
elements within the region, and a structure image is one that `mxset struct` takes: no two entries stand at one position, none
at a column from NCOLS on. -/
def tensorOk (regions : List Region) (x : Tensor) : Bool :=
  match regions[x.region]? with
  | none => false
  | some r =>
    let h := leNat (regionTake r x.off 8)
    let aux := h / 2 ^ 32
    let sparsity := h / 2 ^ 24 % 16
    let first := (x.off + 71) / 64 * 64
    let plane := x.off + 64 * aux
    match fmtOfCode (h % 32) with
    | none => false
    | some f =>
      !headerBad h && decide (x.off + 8 ≤ r.size) &&
        (if sparsity = 4 then
          match imageCounts (regionTake r x.off 128) with
          | some c => decide (c.nrows = x.rows) && decide (c.ncols = x.cols) && decide (x.off + entryOff c.nrows + 8 * c.nnz ≤ r.size) &&
              (imageStruct c (regionTake r (x.off + 128) (entryOff c.nrows - 128 + 8 * c.nnz))).isSome
          | none => false
        else if 22 ≤ h % 32 then
          decide (x.off % 64 = 0) && decide (first + (if sparsity = 0 then tensorBytes f (h / 2 ^ 16 % 256) x.rows x.cols else 0) ≤ plane) &&
            decide (plane + 2 * ((x.rows + 31) / 32 * ((x.cols + 31) / 32)) ≤ r.size)
        else decide (aux = 0) &&
          decide (first + (if sparsity = 0 then tensorBytes f (h / 2 ^ 16 % 256) x.rows x.cols else 0) ≤ r.size))

/-- R28: a `.launch` record, the `k`-th of its stream: its kernel exists, its predecessors stand before it, it asks for at
most 320 KiB, VARS holds dense, and what is to be 0 is 0. -/
def launchOk (kernels k : Nat) (l : List Byte × List Byte) : Bool :=
  let r := leNat l.1
  decide (l.1.length = 128) && decide (l.2.length ≤ 384) && decide (fieldOf r 0 64 < kernels) && recordOk r k false &&
    decide (fieldOf r 96 9 ≤ 320) && decide (fieldOf r 109 1 = 1)

/-- The `.launch` records of one stream, each with its index in the graph. -/
def launchesOk (kernels : Nat) (seen : List Nat) (l : List (List Byte × List Byte)) : Bool :=
  match l with
  | [] => true
  | x :: r =>
    let stream := recStream (some (leNat x.1))
    launchOk kernels (seen.filter (· = stream)).length x && launchesOk kernels (stream :: seen) r

/-- R26, R29: rows of the switch table are defined once, and the wait graph's edges name engines, strands and queues. -/
def kernelNotationOk (k : Kernel) : Bool :=
  decide (k.switch.map fun r => r.1).Nodup &&
    k.edges.all fun e => decide (e.1 < 6) && decide (e.2.1 < 6 * 65) && e.2.2.all fun q => decide (q < 16)

/-- R30: the static checks of the notation that an image still shows. -/
def imageNotationOk (img : Image) : Bool :=
  img.kernels.all kernelNotationOk && img.regions.all regionOk && img.tensors.all (tensorOk img.regions) &&
    launchesOk img.kernels.length [] img.launches

/-- The first rule that an image breaks, in the order of R422; R135 stands last. -/
def imageBroken (img : Image) (codes : List Code) : Option Nat :=
  if !imageNotationOk img then some 30
  else if img.kernels.any fun k => decide (k.ctrl.length ≤ k.entry) then some 34
  else if !img.kernels.all kernelWordsOk then some 51
  else if !img.kernels.all kernelBlocksOk then some 181
  else if !img.kernels.all kernelRepeatsOk then some 184
  else if img.launches.any fun l => launchCycle codes l.1 then some 194
  else if !img.kernels.all kernelSwitchOk then some 367
  else if !img.regions.all regionPubOk then some 135
  else none

/-! ### The placement of an image (R34, R59, R115, R135) -/

/-- Whether every 64 KiB page from an address of an interface on is mapped, as `ok` asks of its leaf and the address behind
it. -/
def State.mapsAll (s : State) (vi va n : Nat) (ok : Nat → Leaf → Nat → Bool) : Bool :=
  (List.range (if n = 0 then 0 else (va + n - 1) / 65536 - va / 65536 + 1)).all fun k =>
    let a := (va / 65536 + k) * 65536
    match s.walkVi vi a with
    | .ok l => ok k l (leafPa l.entry + a % l.size)
    | .error _ => false

/-- Bytes that back a region: both halves of a publishable one (R135). -/
def regionSpan (r : Region) : Nat := if r.type = tPub then 2 * r.size else r.size

/-- The publish entry of a region at a physical address. -/
def pubEntry (r : Region) (pa : Nat) : Pub :=
  { die := homeDie (canon pa), sel := false, writers := 0, pcnt := 0, base := canon pa, size := r.size, waits := [] }

/-- Whether a memory type lies in stacked DRAM; CONST admits CXL too (R60). -/
def dramType (type : Nat) : Bool := [tDev, tPub, tTw, tPriv, tConst].contains type

/-- R59: whether a region lies where its home says. In DRAM `home=d` is the die-linear aperture on die d and `home=il` the
interleaved one. Of another type `home=d` asks that every granule's home is die d, and a system-window page has none (log entry
71). -/
def regionHome (r : Region) (pa : Nat) : Bool :=
  match r.home with
  | some d =>
    if dramType r.type then decide (apert pa = .linear) && decide (pa / Config.dieBytes = d) && decide ((pa + regionSpan r - 1) / Config.dieBytes = d)
    else decide (r.type = tSys) || (List.range (r.size / 65536)).all fun k => decide (homeDie (pa + 65536 * k) = d)
  | none => !dramType r.type || decide (apert pa = .interleaved)

/-- Whether a region's place is that of its home, outside what is reserved, and mapped there with its type (R59, R115,
R135). -/
def State.regionPlaced (s : State) (vi : Nat) (r : Region) (pa : Nat) : Bool :=
  (decide (r.size = 0) || regionHome r pa) && !s.reservedIn pa (regionSpan r) &&
    s.mapsAll vi r.base r.size fun k l a => decide (a = pa + 65536 * k) && decide (l.type = r.type)

/-- Whether the code areas of a kernel are mapped read-only and of type CONST, at their alignment (R34). -/
def State.codePlaced (s : State) (vi : Nat) (c : Code) : Bool :=
  decide (c.ctrlVa % 4 = 0) && s.mapsAll vi c.ctrlVa c.bytes.length fun _ l _ => !l.w && decide (l.type = tConst)

/-- Whether every die's publish table has room (R135). -/
def pubsFit (l : List Pub) : Bool := (List.range Config.dies).all fun d => decide ((l.filter fun p => decide (p.die = d)).length ≤ 256)

/-- The state with the page-table words and the publish entries of a placement; a region that is placed again where it was
(R420) has its entry. -/
def State.mapped (s : State) (img : Image) (lay : Layout) : State :=
  let pubs := ((img.regions.zip lay.regionPa).filter fun x => decide (x.1.type = tPub)).map fun x => pubEntry x.1 x.2
  { s with pubs := s.pubs ++ pubs.filter fun (p : Pub) => !(s.pubs.any fun (q : Pub) => decide (q.base = p.base)) }.writePtes lay.ptes

/-- Whether the front end may place an image so: a placement that breaks a rule is none that it makes. -/
def State.layoutOk (s : State) (vi : Nat) (img : Image) (lay : Layout) (codes : List Code) : Bool :=
  let s1 := s.mapped img lay
  let n := img.launches.length
  decide (lay.ctrlVa.length = img.kernels.length) && decide (lay.regionPa.length = img.regions.length) &&
    { s with pubs := s1.pubs }.mayRemap lay.ptes && pubsFit s1.pubs &&
    ((img.regions.zip lay.regionPa).all fun x => s1.regionPlaced vi x.1 x.2) && codes.all (s1.codePlaced vi) &&
    decide (lay.recordsVa % 64 = 0) && s1.mapsAll vi lay.recordsVa (512 * n) fun _ l _ => decide (l.type ≠ tSys)

/-! ### Loading (R422) -/

/-- Bytes put at virtual addresses of an interface, line by line, whatever the page's W. -/
def State.placeBytes (s : State) (vi va : Nat) (bs : List Byte) (fuel : Nat) : State :=
  match fuel with
  | 0 => s
  | fuel + 1 =>
    if bs.isEmpty then s
    else
      let c := if bs.length < 64 - va % 64 then bs.length else 64 - va % 64
      let s1 := match s.walkVi vi va with
        | .ok l => s.homeWrite (leafPa l.entry + va % l.size) l.type 0 (bs.take c)
        | .error _ => s
      s1.placeBytes vi (va + c) (bs.drop c) fuel

/-- `placeBytes` of all of some bytes. -/
def State.placeAll (s : State) (vi va : Nat) (bs : List Byte) : State := s.placeBytes vi va bs (bs.length / 64 + 2)

/-- The initial bytes of a region; of a publishable one into both halves (R135). Those of another package are not written, and
bytes that no placement of the image covers keep what memory holds (log entry 111). -/
def State.placeRegion (s : State) (r : Region) (pa : Nat) : State :=
  if r.type = tSys then s
  else r.bytes.foldl (fun s x =>
    if r.type = tPub then (s.baseWrite (canon pa + x.1) [x.2]).baseWrite (canon pa + x.1 + r.size) [x.2]
    else s.homeWrite (pa + x.1) r.type 0 [x.2]) s

/-- Streams of a list of launches in the order in which they first appear. -/
def launchStreams (l : List (List Byte × List Byte)) : List Nat := (l.map fun x => recStream (some (leNat x.1))).eraseDups

/-- Each stream's launches become one graph (R325): records and register images are placed; the graphs by first record and
number of records. -/
def State.placeStreams (s : State) (vi : Nat) (codes : List Code) (l : List (List Byte × List Byte)) (streams : List Nat)
    (va args : Nat) : State × List (Nat × Nat) :=
  match streams with
  | [] => (s, [])
  | k :: r =>
    let mine := l.filter fun x => decide (recStream (some (leNat x.1)) = k)
    let n := mine.length
    let recs := ((List.range n).zip mine).flatMap fun x => launchRecord codes x.2.1 (args + 384 * x.1)
    let s1 := (s.placeAll vi va recs).placeAll vi args (mine.flatMap fun x => (x.2 ++ List.replicate (384 - x.2.length) 0).take 384)
    let p := s1.placeStreams vi codes l r (va + 128 * n) (args + 384 * n)
    (p.1, (va, n) :: p.2)

/-- M := SHAKE256(M ‖ data) for a measurement register (R425). -/
def State.extend (s : State) (k : Nat) (data : List Byte) : State :=
  if h : k < 16 then
    let old := s.fe.meas.get ⟨k, h⟩
    { s with fe := { s.fe with meas := s.fe.meas.set k (shake256 (leBytes 32 old.toNat ++ data)) h } }
  else s

/-- The physical pages of an image's code. -/
def State.codeAreas (s : State) (vi : Nat) (c : Code) : List (Nat × Nat) :=
  (List.range ((c.ctrlVa + c.bytes.length) / 65536 - c.ctrlVa / 65536 + 1)).filterMap fun k =>
    let a := (c.ctrlVa / 65536 + k) * 65536
    match s.walkVi vi a with
    | .ok l => some (leafPa l.entry + a % l.size, 65536)
    | .error _ => none

/-- An image that passed the checks is placed and measured, and its graphs go to stream queue 0. -/
def State.install (s : State) (vi : Nat) (img : Image) (lay : Layout) (codes : List Code) (digest : BitVec 256) : State :=
  let s1 := s.mapped img lay
  let s2 := (img.regions.zip lay.regionPa).foldl (fun s x => s.placeRegion x.1 x.2) s1
  let s3 := codes.foldl (fun s c => s.placeAll vi c.ctrlVa c.bytes) s2
  let p := s3.placeStreams vi codes img.launches (launchStreams img.launches) lay.recordsVa (lay.recordsVa + 128 * img.launches.length)
  let v := p.1.vi vi
  let pubs := ((img.regions.zip lay.regionPa).filter fun x => decide (x.1.type = tPub)).map fun x => canon x.2
  let areas := ((img.regions.zip lay.regionPa).map fun x => (x.2, regionSpan x.1)) ++ codes.flatMap (s1.codeAreas vi)
  let s4 := p.1.setVi vi { v with
    images := v.images ++ [⟨v.nextHandle, codes, pubs, areas⟩], nextHandle := v.nextHandle + 1,
    loading := some ⟨p.2, (v.sq 0).head.toNat⟩, mbox := { v.mbox with out0 := BitVec.ofNat 64 v.nextHandle } }
  (s4.extend 8 (leBytes 32 digest.toNat)).loadEnds vi

/-- Whether a mailbox command of an interface stands and a core holds it (R414, R419). -/
def State.command (s : State) (vi code : Nat) : Bool :=
  let m := (s.vi vi).mbox
  decide (vi < 128) && m.busy && decide (m.cmd.toNat = code) && s.holds (.mailbox vi)

/-- An argument of the mailbox. -/
def State.mboxArg (s : State) (vi k : Nat) : Word := (s.vi vi).mbox.arg.toList.getD k 0

/-- Sets OUT1. -/
def State.mboxOut1 (s : State) (vi n : Nat) : State :=
  let v := s.vi vi
  s.setVi vi { v with mbox := { v.mbox with out1 := BitVec.ofNat 64 n } }

/-- LOAD: `img` is what the image at ARG0 says, `lay` the placement that the front end chooses, one that keeps the rules. It
acts once; then its graphs are accepted. -/
def execLoad (vi : Nat) (img : Image) (lay : Layout) (s : State) : Out :=
  if !s.command vi 1 ∨ (s.vi vi).loading.isSome then .next s
  else
    match s.feBytes vi (s.mboxArg vi 0).toNat (s.mboxArg vi 1).toNat with
    | (s1, .error _) => .next (s1.mboxDone vi 2)
    | (s1, .ok bs) =>
      let codes := (img.kernels.zip (lay.ctrlVa ++ List.replicate img.kernels.length 0)).map fun x => placeKernel x.1 x.2
      match imageBroken img codes with
      | some n => .next ((s1.mboxOut1 vi n).mboxDone vi 3)
      | none => .next (if s1.layoutOk vi img lay codes then s1.install vi img lay codes (shake256 bs) else s)

/-! ### The other commands (R415) -/

/-- Whether a node of an image is in flight. -/
def State.imageBusy (s : State) (vi : Nat) (q : Loaded) : Bool :=
  s.disp.nodes.any fun n => decide (n.vi = vi) && q.kernels.any fun c => decide (c.entry = n.kernel.toNat)

/-- UNLOAD: once no node of the image is in flight, and no command pins a granule of its areas (R74), they are free. -/
def execUnload (vi : Nat) (s : State) : Out :=
  if !s.command vi 2 then .next s
  else
    let v := s.vi vi
    match v.images.find? fun q => decide (q.handle = (s.mboxArg vi 0).toNat) with
    | none => .next (s.mboxDone vi 1)
    | some q =>
      if s.imageBusy vi q || q.areas.any (fun x => s.pagePinned x.1 x.2) then .next s
      else
        let s1 := s.setVi vi { v with images := v.images.filter fun x => decide (x.handle ≠ q.handle) }
        .next ({ s1 with pubs := s1.pubs.filter fun p => !q.pubs.contains p.base }.mboxDone vi 0)

/-- TEARDOWN of a stream, or of the whole interface where ARG0 is all ones (R337); it completes with its last node. -/
def execTeardown (vi : Nat) (s : State) : Out :=
  if !s.command vi 3 then .next s
  else
    let a := s.mboxArg vi 0
    let v := s.vi vi
    if a = BitVec.allOnes 64 then (if v.closing then .next s else .next (s.tearDown vi none))
    else if 65536 ≤ a.toNat then .next (s.mboxDone vi 1)
    else if v.tearing.contains a.toNat then .next s
    else .next (s.tearDown vi (some a.toNat))

/-- CLEARFAULT: the stream's later graphs may be released again (R328). -/
def execClearFault (vi : Nat) (s : State) : Out :=
  if !s.command vi 4 then .next s
  else
    let k := (s.mboxArg vi 0).toNat
    .next ({ s with disp := { s.disp with faulted := s.disp.faulted.filter (· ≠ (vi, k)) } }.mboxDone vi 0)

/-- The node that a gang held by R351 belongs to, by its slot. -/
def State.heldNode (s : State) (vi slot : Nat) : Option Node :=
  match s.node slot with
  | some n => if n.vi = vi ∧ n.state = .held ∧ n.status = 0 ∧ n.trapped.isSome then some n else none
  | none => none

/-- ENDNODE: a held gang completes TRAPPED. -/
def execEndNode (vi : Nat) (s : State) : Out :=
  if !s.command vi 5 then .next s
  else
    match s.heldNode vi (s.mboxArg vi 0).toNat with
    | some n => .next ((s.updNode n.slot fun n => { n with status := 5 }).mboxDone vi 0)
    | none => .next (s.mboxDone vi 1)

/-- Bits of a trap report's registers that are reserved or to be 0 (R346, R347). -/
def reportZero (k : Nat) : Word :=
  match k with
  | 0 => bitsMask 2 7 ||| bitsMask 12 63
  | 1 => bitsMask 13 15 ||| bitsMask 32 63
  | 2 => 3
  | 5 => bitsMask 56 63
  | 7 => 2
  | 8 => BitVec.ofNat 64 (2 ^ 0 + 2 ^ 27 + 2 ^ 29 + 2 ^ 30 + 2 ^ 31 + (2 ^ 64 - 2 ^ 44))
  | _ => 0

/-- The trap registers of a report, or none where it sets a bit that is to be 0. -/
def reportRegs (bs : List Byte) : Option (List Word) :=
  let ws := imageWords (bs.drop 32) 11
  if (List.range 11).all fun k => decide (ws.getD k 0 &&& reportZero k = 0) then some ws else none

/-- A strand that continues with an edited report: its trap registers, H, PEND and the frozen sets, and PC at EPC (R351,
R415). -/
def Strand.edited (t : Strand) (ws : List Word) : Strand :=
  let w := fun k => ws.getD k 0
  let trp : TrapRegs :=
    { h := (w 0).getLsbD 0, pend := some ((w 0).getLsbD 1), cause := w 1, epc := w 2, addr := w 3, waddr := w 4, info := w 5, aux := w 6, hvec := w 7,
      hen := w 8, scr0 := w 9, scr1 := w 10 }
  let froz := fun (k : Fin 4) (z : LoopSet) => { z with frozen := (w 0).getLsbD (8 + k.val) }
  ({ t with ctl := { t.ctl with trp := trp, pc := w 2, zl := Vector.ofFn fun k => froz k (t.ctl.zl.get k) } }).commit

/-- RESUME: a held gang returns to the pool with an edited report. -/
def execResume (vi : Nat) (s : State) : Out :=
  if !s.command vi 6 then .next s
  else
    match s.heldNode vi (s.mboxArg vi 0).toNat with
    | none => .next (s.mboxDone vi 1)
    | some n =>
      match s.feBytes vi (s.mboxArg vi 1).toNat 128 with
      | (s1, .error _) => .next (s1.mboxDone vi 2)
      | (s1, .ok bs) =>
        match reportRegs bs with
        | none => .next (s1.mboxDone vi 1)
        | some ws =>
          let put := fun (t : Strand) => if some t.idx = n.trapped then t.edited ws else t
          let back := fun (n : Node) =>
            { n with state := .away, saved := n.saved.map put, trapped := none, entered := s.pow.now, order := s.disp.entries, passed := 0 }
          .next ((s1.updNode n.slot back).opportunity.mboxDone vi 0)

/-! ### Attestation (R424, R425) -/

/-- ATTEST. -/
def execAttest (vi : Nat) (s : State) : Out :=
  if !s.command vi 7 then .next s
  else
    match s.feBytes vi (s.mboxArg vi 0).toNat 32 with
    | (s1, .error _) => .next (s1.mboxDone vi 2)
    | (s1, .ok nonce) =>
      match s1.nextLeaf with
      | none => .next (s1.mboxDone vi 4)
      | some (s2, leaf) =>
        let q := s2.quote nonce leaf
        match s2.fePut vi (s.mboxArg vi 1).toNat q with
        | (s3, some _) => .next (s3.mboxDone vi 2)
        | (s3, none) =>
          let v := s3.vi vi
          .next ((s3.setVi vi { v with mbox := { v.mbox with out0 := BitVec.ofNat 64 q.length } }).mboxDone vi 0)

/-! ### BAR2 (R409) -/

/-- A BAR2 access that faults: it is counted, and a read returns all ones. -/
def State.bar2Fault (s : State) (vi n : Nat) (read : Bool) : State :=
  let s1 := s.winFault vi
  if read then { s1 with fe := { s1.fe with bar2 := List.replicate n 0xFF } } else s1

/-- `n` bytes of an address as pieces of one 64-byte line each: address and length. -/
def linePieces (va n fuel : Nat) : List (Nat × Nat) :=
  match fuel with
  | 0 => []
  | fuel + 1 =>
    let c := if n < 64 - va % 64 then n else 64 - va % 64
    if n = 0 then [] else (va, c) :: linePieces (va + c) (n - c) fuel

/-- A piece of a BAR2 access: physical address, type, length. -/
structure Piece where
  pa : Nat
  type : Nat
  n : Nat
  deriving DecidableEq, Repr

/-- The package that a piece lies at, where that is another one. -/
def State.pieceFar (s : State) (p : Piece) : Option Nat :=
  if p.type = tSys ∧ windowPkg p.pa ≠ s.pkg then some (windowPkg p.pa) else none

/-- Why a piece cannot be reached, as far as this package knows (R117, R378, R383). -/
def State.pieceErr (s : State) (vi : Nat) (p : Piece) (write : Bool) : Option Cause :=
  if p.type ≠ tSys then s.homeErr vi p.pa p.type p.n 0 write
  else if !s.zEnabled vi then some .memRange
  else
    match s.pieceFar p with
    | some dst => if (s.peer dst).lost then some .fabLost else none
    | none =>
      match s.exported (s.rvi vi) (windowOff p.pa) p.n write with
      | .error c => some c
      | .ok _ => none

/-- The pieces of an access where every one translates and can be reached; none where one faults. -/
def State.pieces (s : State) (vi : Nat) (write : Bool) (l : List (Nat × Nat)) : State × Option (List Piece) :=
  match l with
  | [] => (s, some [])
  | x :: r =>
    match s.pageOf vi x.1 write with
    | (s1, .error _) => (s1, none)
    | (s1, .ok (pa, type)) =>
      let p : Piece := ⟨pa, type, x.2⟩
      if (s1.pieceErr vi p write).isSome then (s1, none)
      else let q := s1.pieces vi write r; (q.1, q.2.map fun l => p :: l)

/-- A piece is written at its home, or goes to another package as a store whose answer the interface's WINERR counts. -/
def State.pieceWrite (s : State) (vi : Nat) (p : Piece) (bs : List Byte) : State :=
  if p.type ≠ tSys then s.homeWrite p.pa p.type 0 bs
  else
    match s.pieceFar p with
    | some dst => s.issue dst (s.rvi vi) 0 (.host vi) 0 p.pa p.n (.store (windowOff p.pa) bs)
    | none => (s.exportWrite (s.rvi vi) (windowOff p.pa) bs).1

/-- The pieces of a write, in order. -/
def State.piecesWrite (s : State) (vi : Nat) (l : List Piece) (bs : List Byte) : State :=
  match l with
  | [] => s
  | p :: r => (s.pieceWrite vi p (bs.take p.n)).piecesWrite vi r (bs.drop p.n)

/-- Bytes of another package that the host has loaded, `n` from a window address on. -/
def State.loadedBytes (s : State) (vi pa n : Nat) : Except Cause (List Byte) :=
  match n with
  | 0 => .ok []
  | n + 1 =>
    match s.fetchedByte (.bar2 vi) pa, s.loadedBytes vi (pa + 1) n with
    | some (.ok b), .ok l => .ok (b :: l)
    | some (.error c), _ => .error c
    | none, _ => .error .memRange
    | _, .error c => .error c

/-- A piece is read. -/
def State.pieceRead (s : State) (vi : Nat) (p : Piece) : State × Except Cause (List Byte) :=
  if p.type ≠ tSys then let r := s.homeGet p.pa p.type p.n 0; (r.1, .ok r.2)
  else if (s.pieceFar p).isSome then (s, s.loadedBytes vi p.pa p.n)
  else s.exportGet (s.rvi vi) (windowOff p.pa) p.n

/-- The pieces of a read, in order. -/
def State.piecesRead (s : State) (vi : Nat) (l : List Piece) (acc : List Byte) : State × Option (List Byte) :=
  match l with
  | [] => (s, some acc)
  | p :: r =>
    match s.pieceRead vi p with
    | (s1, .ok bs) => s1.piecesRead vi r (acc ++ bs)
    | (s1, .error _) => (s1, none)

/-- A BAR2 read: it waits until earlier host writes through the window have been performed (R409), and for what it reads of
other packages. -/
def State.bar2Read (s : State) (vi n : Nat) (l : List Piece) : State :=
  if s.awaits fun o => match o with
    | .host _ => true
    | _ => false then s
  else
    match s.fetch vi (.bar2 vi) ((l.filter fun p => (s.pieceFar p).isSome).map fun p => p.pa / 64 * 64) with
    | (s1, false) => s1
    | (s1, true) =>
      match s1.piecesRead vi l [] with
      | (s2, some bs) => { s2 with fe := { s2.fe with bar2 := bs } }.forget fun o => decide (o = Owner.bar2 vi)
      | (s2, none) => (s2.bar2Fault vi n true).forget fun o => decide (o = Owner.bar2 vi)

/-- A BAR2 write: it waits while a pair that it needs is full (R381). -/
def State.bar2Write (s : State) (vi : Nat) (l : List Piece) (bs : List Byte) : State :=
  if l.any fun p => (s.pieceFar p).any s.pairFull then s else s.piecesWrite vi l bs

/-- BAR2_ACCESS: `n` bytes at an offset of an interface's window of 1 GiB, read or written under its page tables, with tag 0
and no L1; the result of a read stands in `fe.bar2`. An access that faults anywhere is discarded whole. -/
def execBar2Access (vi off n : Nat) (data : Option (List (BitVec 8))) (s : State) : Out :=
  if 128 ≤ vi ∨ 2 ^ 30 < off + n then .next s
  else if !s.hostUp then .next (if data.isNone then { s with fe := { s.fe with bar2 := List.replicate n 0xFF } } else s)
  else
    let len := match data with
      | some bs => bs.length
      | none => n
    match s.pieces vi data.isSome (linePieces ((s.vi vi).winBase.toNat + off) len (len / 64 + 2)) with
    | (s1, none) => .next (s1.bar2Fault vi n data.isNone)
    | (s1, some l) => .next (match data with
      | some bs => s1.bar2Write vi l bs
      | none => s1.bar2Read vi n l)

/-! ### Boot (R423) -/

/-- RESET: everything returns to its reset state but the monotonic counters and the fuses, and boot verifies both images,
measures them and trains. A failed verification holds the package in reset; the management port alone reports it. -/
def execReset (b : BootReport) (s : State) : Out :=
  let r := State.reset
  let s0 := { r with turns := s.turns, rotor := s.rotor, free := s.free,
                     fe := { r.fe with leaf := s.fe.leaf, idLeaf := s.fe.idLeaf, fused := s.fe.fused } }
  if !b.sigOk0 ∨ b.version0 < s.fe.fused ∨ !b.sigOk1 ∨ b.version1 < s.fe.fused then
    .next ({ s0 with fe := { s0.fe with bootFailed := true } }.mgmtOut [0xFF])
  else
    let s1 := (s0.extend 0 (leBytes 32 b.digest0.toNat)).extend 1 (leBytes 32 b.digest1.toNat)
    let s2 := b.cxl.foldl (fun s x => s.setPort x.1 fun _ => ⟨true, decoderEnd x.2⟩) s1
    let cells := ((List.range 24).zip b.cells).foldl (fun m x =>
      Sp.set m x.1 (BitVec.ofNat 64 (if 65536 < x.2 then 65536 else x.2)) 0) ([] : Sp Word)
    .next { s2 with tsuwin := b.tsuwin, fe := { s2.fe with up := BitVec.allOnes 12, booted := true, cellcfg := cells } }

/-- BAR_WINDOWS_OPEN: normal service begins. -/
def execBarWindowsOpen (s : State) : Out :=
  if s.fe.booted ∧ !s.fe.windows then .next { s with fe := { s.fe with scrub := s.fe.scrub &&& ~~~1, windows := true } }
  else .next s

/-! ### The management port (R426) -/

/-- DYNAMIC_ADDRESS_ASSIGN. -/
def execDynamicAddressAssign (addr : BitVec 7) (s : State) : Out := .next { s with mgmt := { s.mgmt with addr := some addr } }

/-- A message of the port, which takes part once it has its dynamic address and in a package that reset does not hold: it joins
the events that firmware cores handle (R419). -/
def onPort (m : MgmtMsg) (s : State) : Out :=
  if s.mgmt.addr.isSome && !s.fe.bootFailed then .next (s.post (.manage m)) else .next s

/-- SET_ENDPOINT_ID. -/
def execSetEndpointId (eid : BitVec 8) (s : State) : Out := onPort (.setEid eid) s

/-- GET_ENDPOINT_ID. -/
def execGetEndpointId (s : State) : Out := onPort .getEid s

/-- GET_MCTP_VERSION_SUPPORT. -/
def execGetMctpVersionSupport (s : State) : Out := onPort .getVersions s

/-- GET_MESSAGE_TYPE_SUPPORT. -/
def execGetMessageTypeSupport (s : State) : Out := onPort .getTypes s

/-- VENDOR_READ_TELEMETRY: the record that the turn names, the latest where it names none. -/
def execVendorReadTelemetry (s : State) : Out := onPort (.readTelemetry s.input.head?) s

/-- VENDOR_READ_ERRORS: likewise for error records. -/
def execVendorReadErrors (s : State) : Out := onPort (.readErrors s.input.head?) s

/-- VENDOR_REQUEST_QUOTE. -/
def execVendorRequestQuote (nonce : BitVec 256) (s : State) : Out := onPort (.quote nonce) s

/-- VENDOR_WRITE_ZCFG (R377). -/
def execVendorWriteZcfg (v : BitVec 64) (s : State) : Out := onPort (.writeZcfg v) s

/-! ### The time receiver (R427) -/

/-- ANNOUNCE: the message names the second that the next edge marks. -/
def execAnnounce (s : State) : Out := onPort (.announce s.input.head?) s

/-- SYNC. -/
def execSync (s : State) : Out := onPort (.sync s.input.head?) s

/-- FOLLOW_UP. -/
def execFollowUp (s : State) : Out := onPort (.followUp s.input.head?) s

/-- Whether the receiver is locked after an edge that agrees or does not, with the counts of such seconds in a row. -/
def Mgmt.second (m : Mgmt) (agrees : Bool) : Mgmt :=
  let good := if agrees then m.good + 1 else 0
  let bad := if agrees then 0 else m.bad + 1
  { m with good := good, bad := bad, locked := (m.locked || decide (3 ≤ good)) && decide (bad < 2),
           announced := none, synced := none, pending := none }

/-- The lock has held throughout the interval only while it holds now (R374). -/
def State.lockHeld (s : State) : State := { s with pow := { s.pow with lockedSince := s.pow.lockedSince && s.mgmt.locked } }

/-- The time that the last edge and the reference clock give, in nanoseconds; before any edge that of the timebase. -/
def State.expectedTime (s : State) (p : Power) : Nat :=
  match s.mgmt.edge with
  | some (sec, at') => sec * 1000000000 + (p.now - at')
  | none => p.sec * 1000000000 + p.nsec

/-- The timebase at the last tick, where `ns` after it second `sec` begins. -/
def Power.setEdge (p : Power) (sec ns : Nat) : Power :=
  let t := sec * 1000000000 + 2 ^ 34 * 1000000000 - ns
  { p with sec := t / 1000000000 % 2 ^ 34, nsec := t % 1000000000 }

/-- PPS_EDGE: the turn names the nanoseconds since the last tick, fewer than the 100 µs to the next, which alone moves the
clocks on (log entry 12). The edge agrees where the second that the messages name, or the nearest one, lies within 100 ns of
the time expected; while locked the timebase takes it (R373, R427). -/
def execPpsEdge (s : State) : Out :=
  let ns := s.input.headD 0 % 100000
  let p := s.pow.advance ns
  let want := s.expectedTime p
  let named := (s.mgmt.pending.orElse fun _ => s.mgmt.synced).orElse fun _ => s.mgmt.announced
  let sec := (named.getD ((want + 500000000) / 1000000000)) % 2 ^ 34
  let t := sec * 1000000000
  let agrees := s.mgmt.edge.isSome && decide (t ≤ want + 100) && decide (want ≤ t + 100)
  let m : Mgmt := { s.mgmt.second agrees with edge := some (sec, p.now) }
  .next { s with pow := if m.locked then s.pow.setEdge sec ns else s.pow, mgmt := m }.lockHeld

/-- PPS_EDGE_MISSING: the timebase runs free. -/
def execPpsEdgeMissing (s : State) : Out := .next { s with mgmt := s.mgmt.second false }.lockHeld

end Sys2Proof.Machine
end

