-- ==== Sys2Proof/Machine/Perform.lean ====
section
/-!
DEFINITION. STORE_PERFORMED: the head of the store FIFO performs its action, whichever instruction put it there.
-/

namespace Sys2Proof.Machine

/-- The command of a begun S entry that no step of its own performs (R79, R80, R83). -/
def State.storeStep (s : State) (h : Entry) : State :=
  match h.cmd with
  | .store _ pl sz v => s.accessStep .sq h pl (sizeBytes sz) false h.tag (some (leBytes (sizeBytes sz) v.toNat))
  | .zlsv _ pls ws =>
    s.accessStep .sq h (pls.getD h.done (.spad 0)) 8 false h.tag (some (leBytes 8 (ws.getD h.done 0).toNat))
  | .drainnt _ => if s.me.st.nt.any fun b => decide (b.first < h.seq) then s else s.performed .sq
  | .marker => s.performed .sq
  | .tstat d t => s.bindResult h d (s.tagStatus s.me.st.vi t)
  | .launch d q tail => s.launchStep h d q tail
  | .prio d v => s.prioStep h d v
  | .qarm d a => s.qarmStep h d a
  | .qpost d hd k => s.qpostStep h d hd k
  | .qabort d hd => s.qabortStep h d hd
  | .qstat d hd => s.qstatStep h d hd
  | _ => s

/-- Whether an entry waits for the acknowledgements of its gong (R385). -/
def Entry.gongs (h : Entry) : Bool :=
  match h.cmd with
  | .qabort _ _ => decide (h.stage = .submitted)
  | _ => false

/-- STORE_PERFORMED. -/
def execStorePerformed (s : State) : Out :=
  match s.me.st.running .sq with
  | some h => .next (s.storeStep h)
  | none =>
    match s.me.st.squ with
    | h :: _ => if h.gongs then .next (s.storeStep h) else .next s
    | [] => .next s

end Sys2Proof.Machine
end

