-- ==== Sys2Proof/Machine/Dispatch.lean ====
section
/-!
DEFINITION. One arm per row of the opcode table.
-/

namespace Sys2Proof.Machine

def exec (i : Instr) (s : State) : Host.Outcome State Fault Refusal :=
  match i with
  | .add g d a b => Sys2Proof.Machine.execAdd g d a b s
  | .sub g d a b => Sys2Proof.Machine.execSub g d a b s
  | .mul g d a b => Sys2Proof.Machine.execMul g d a b s
  | .mulh g d a b => Sys2Proof.Machine.execMulh g d a b s
  | .divs g d a b => Sys2Proof.Machine.execDivs g d a b s
  | .divn g d a b => Sys2Proof.Machine.execDivn g d a b s
  | .rems g d a b => Sys2Proof.Machine.execRems g d a b s
  | .remn g d a b => Sys2Proof.Machine.execRemn g d a b s
  | .and g d a b => Sys2Proof.Machine.execAnd g d a b s
  | .or g d a b => Sys2Proof.Machine.execOr g d a b s
  | .xor g d a b => Sys2Proof.Machine.execXor g d a b s
  | .andn g d a b => Sys2Proof.Machine.execAndn g d a b s
  | .shl g d a b => Sys2Proof.Machine.execShl g d a b s
  | .shr g d a b => Sys2Proof.Machine.execShr g d a b s
  | .sha g d a b => Sys2Proof.Machine.execSha g d a b s
  | .rot g d a b => Sys2Proof.Machine.execRot g d a b s
  | .min g d a b => Sys2Proof.Machine.execMin g d a b s
  | .max g d a b => Sys2Proof.Machine.execMax g d a b s
  | .minn g d a b => Sys2Proof.Machine.execMinn g d a b s
  | .maxn g d a b => Sys2Proof.Machine.execMaxn g d a b s
  | .clz g d a => Sys2Proof.Machine.execClz g d a s
  | .popc g d a => Sys2Proof.Machine.execPopc g d a s
  | .addImm g d a imm => Sys2Proof.Machine.execAddImm g d a imm s
  | .andImm g d a imm => Sys2Proof.Machine.execAndImm g d a imm s
  | .orImm g d a imm => Sys2Proof.Machine.execOrImm g d a imm s
  | .xorImm g d a imm => Sys2Proof.Machine.execXorImm g d a imm s
  | .shlImm g d a imm => Sys2Proof.Machine.execShlImm g d a imm s
  | .shrImm g d a imm => Sys2Proof.Machine.execShrImm g d a imm s
  | .shaImm g d a imm => Sys2Proof.Machine.execShaImm g d a imm s
  | .rotImm g d a imm => Sys2Proof.Machine.execRotImm g d a imm s
  | .cmp g pd a b cond => Sys2Proof.Machine.execCmp g pd a b cond s
  | .sel g d a b p => Sys2Proof.Machine.execSel g d a b p s
  | .sfadd g d a b rnd => Sys2Proof.Machine.execSfadd g d a b rnd s
  | .sfmul g d a b rnd => Sys2Proof.Machine.execSfmul g d a b rnd s
  | .sffma g d a b rnd => Sys2Proof.Machine.execSffma g d a b rnd s
  | .sfmin g d a b rnd => Sys2Proof.Machine.execSfmin g d a b rnd s
  | .sfmax g d a b rnd => Sys2Proof.Machine.execSfmax g d a b rnd s
  | .sfcmp g pd a b cond => Sys2Proof.Machine.execSfcmp g pd a b cond s
  | .sfcvt g d a toX xf rnd ovf => Sys2Proof.Machine.execSfcvt g d a toX xf rnd ovf s
  | .pbr g t off => Sys2Proof.Machine.execPbr g t off s
  | .pbri g t a => Sys2Proof.Machine.execPbri g t a s
  | .br g t => Sys2Proof.Machine.execBr g t s
  | .brq g t sense => Sys2Proof.Machine.execBrq g t sense s
  | .call g t => Sys2Proof.Machine.execCall g t s
  | .ret g => Sys2Proof.Machine.execRet g s
  | .zloop g l stages a last => Sys2Proof.Machine.execZloop g l stages a last s
  | .zlset g l f a => Sys2Proof.Machine.execZlset g l f a s
  | .zlsv g l a => Sys2Proof.Machine.execZlsv g l a s
  | .zlrs g l a => Sys2Proof.Machine.execZlrs g l a s
  | .movi g d imm => Sys2Proof.Machine.execMovi g d imm s
  | .movh g d imm => Sys2Proof.Machine.execMovh g d imm s
  | .lea g d a imm => Sys2Proof.Machine.execLea g d a imm s
  | .ldOffset g d a sz off => Sys2Proof.Machine.execLdOffset g d a sz off s
  | .ldIndex g d a sz b => Sys2Proof.Machine.execLdIndex g d a sz b s
  | .stOffset g d a sz off => Sys2Proof.Machine.execStOffset g d a sz off s
  | .stIndex g d a sz b => Sys2Proof.Machine.execStIndex g d a sz b s
  | .ldcOffset g d a sz off => Sys2Proof.Machine.execLdcOffset g d a sz off s
  | .ldcIndex g d a sz b => Sys2Proof.Machine.execLdcIndex g d a sz b s
  | .stntOffset g d a sz off => Sys2Proof.Machine.execStntOffset g d a sz off s
  | .stntIndex g d a sz b => Sys2Proof.Machine.execStntIndex g d a sz b s
  | .qld g o => Sys2Proof.Machine.execQld g o s
  | .qst g o => Sys2Proof.Machine.execQst g o s
  | .kcopy g o => Sys2Proof.Machine.execKcopy g o s
  | .kcopy2d g o => Sys2Proof.Machine.execKcopy2d g o s
  | .kfill g o => Sys2Proof.Machine.execKfill g o s
  | .kgather g o => Sys2Proof.Machine.execKgather g o s
  | .kscatter g o => Sys2Proof.Machine.execKscatter g o s
  | .kpair g o => Sys2Proof.Machine.execKpair g o s
  | .kwait g d a => Sys2Proof.Machine.execKwait g d a s
  | .kstat g d => Sys2Proof.Machine.execKstat g d s
  | .done g => Sys2Proof.Machine.execDone g s
  | .aadd g o => Sys2Proof.Machine.execAadd g o s
  | .aand g o => Sys2Proof.Machine.execAand g o s
  | .aor g o => Sys2Proof.Machine.execAor g o s
  | .axor g o => Sys2Proof.Machine.execAxor g o s
  | .amin g o => Sys2Proof.Machine.execAmin g o s
  | .amax g o => Sys2Proof.Machine.execAmax g o s
  | .aminn g o => Sys2Proof.Machine.execAminn g o s
  | .amaxn g o => Sys2Proof.Machine.execAmaxn g o s
  | .axchg g o => Sys2Proof.Machine.execAxchg g o s
  | .acas g o => Sys2Proof.Machine.execAcas g o s
  | .fadd g a slot sc => Sys2Proof.Machine.execFadd g a slot sc s
  | .fset g a slot sc => Sys2Proof.Machine.execFset g a slot sc s
  | .wait g a slot sc => Sys2Proof.Machine.execWait g a slot sc s
  | .barv g a slot sc => Sys2Proof.Machine.execBarv g a slot sc s
  | .barw g a slot sc => Sys2Proof.Machine.execBarw g a slot sc s
  | .barinit g a slot => Sys2Proof.Machine.execBarinit g a slot s
  | .mark g => Sys2Proof.Machine.execMark g s
  | .sbar g stm => Sys2Proof.Machine.execSbar g stm s
  | .fence g sc ord => Sys2Proof.Machine.execFence g sc ord s
  | .drainnt g sc => Sys2Proof.Machine.execDrainnt g sc s
  | .cinv g => Sys2Proof.Machine.execCinv g s
  | .kpub g a t => Sys2Proof.Machine.execKpub g a t s
  | .talloc g d => Sys2Proof.Machine.execTalloc g d s
  | .tretire g a => Sys2Proof.Machine.execTretire g a s
  | .retireNotice k die => Sys2Proof.Machine.execRetireNotice k die s
  | .retireComplete k => Sys2Proof.Machine.execRetireComplete k s
  | .tset g a => Sys2Proof.Machine.execTset g a s
  | .tget g d => Sys2Proof.Machine.execTget g d s
  | .ldx g d a b sz => Sys2Proof.Machine.execLdx g d a b sz s
  | .tstat g d a => Sys2Proof.Machine.execTstat g d a s
  | .fork g m blk => Sys2Proof.Machine.execFork g m blk s
  | .rdv g em => Sys2Proof.Machine.execRdv g em s
  | .ebset g x n => Sys2Proof.Machine.execEbset g x n s
  | .ebget g x n => Sys2Proof.Machine.execEbget g x n s
  | .tkset g x n => Sys2Proof.Machine.execTkset g x n s
  | .tkget g x n => Sys2Proof.Machine.execTkget g x n s
  | .strid g x => Sys2Proof.Machine.execStrid g x s
  | .launch g d a b => Sys2Proof.Machine.execLaunch g d a b s
  | .yield g d => Sys2Proof.Machine.execYield g d s
  | .prio g d a => Sys2Proof.Machine.execPrio g d a s
  | .nodeid g d => Sys2Proof.Machine.execNodeid g d s
  | .csrr g x csr => Sys2Proof.Machine.execCsrr g x csr s
  | .csrw g x csr => Sys2Proof.Machine.execCsrw g x csr s
  | .csrs g x csr => Sys2Proof.Machine.execCsrs g x csr s
  | .nop g => Sys2Proof.Machine.execNop g s
  | .trap g imm => Sys2Proof.Machine.execTrap g imm s
  | .eret g => Sys2Proof.Machine.execEret g s
  | .brk g imm => Sys2Proof.Machine.execBrk g imm s
  | .swpt g k => Sys2Proof.Machine.execSwpt g k s
  | .pwrq g x k => Sys2Proof.Machine.execPwrq g x k s
  | .pwreq g x k => Sys2Proof.Machine.execPwreq g x k s
  | .qarm g d a => Sys2Proof.Machine.execQarm g d a s
  | .qpost g d a b => Sys2Proof.Machine.execQpost g d a b s
  | .qwait g d a b => Sys2Proof.Machine.execQwait g d a b s
  | .qabort g d a => Sys2Proof.Machine.execQabort g d a s
  | .qstat g d a => Sys2Proof.Machine.execQstat g d a s
  | .vadd f => Sys2Proof.Machine.execVadd f s
  | .vsub f => Sys2Proof.Machine.execVsub f s
  | .vmul f => Sys2Proof.Machine.execVmul f s
  | .vfma f => Sys2Proof.Machine.execVfma f s
  | .vfms f => Sys2Proof.Machine.execVfms f s
  | .vmin f => Sys2Proof.Machine.execVmin f s
  | .vmax f => Sys2Proof.Machine.execVmax f s
  | .vabs f => Sys2Proof.Machine.execVabs f s
  | .vneg f => Sys2Proof.Machine.execVneg f s
  | .vclamp f => Sys2Proof.Machine.execVclamp f s
  | .vexp2 f => Sys2Proof.Machine.execVexp2 f s
  | .vlog2 f => Sys2Proof.Machine.execVlog2 f s
  | .vrcp f => Sys2Proof.Machine.execVrcp f s
  | .vrsqrt f => Sys2Proof.Machine.execVrsqrt f s
  | .vtanh f => Sys2Proof.Machine.execVtanh f s
  | .vsig f => Sys2Proof.Machine.execVsig f s
  | .vand f => Sys2Proof.Machine.execVand f s
  | .vor f => Sys2Proof.Machine.execVor f s
  | .vxor f => Sys2Proof.Machine.execVxor f s
  | .vshl f => Sys2Proof.Machine.execVshl f s
  | .vshr f => Sys2Proof.Machine.execVshr f s
  | .vsha f => Sys2Proof.Machine.execVsha f s
  | .vcvt f => Sys2Proof.Machine.execVcvt f s
  | .vpack f => Sys2Proof.Machine.execVpack f s
  | .vunpack f => Sys2Proof.Machine.execVunpack f s
  | .vcmp f => Sys2Proof.Machine.execVcmp f s
  | .vsel f => Sys2Proof.Machine.execVsel f s
  | .vmop f => Sys2Proof.Machine.execVmop f s
  | .vperm f => Sys2Proof.Machine.execVperm f s
  | .vbcast f => Sys2Proof.Machine.execVbcast f s
  | .vred f => Sys2Proof.Machine.execVred f s
  | .vscan f => Sys2Proof.Machine.execVscan f s
  | .vdefer f => Sys2Proof.Machine.execVdefer f s
  | .vdrain f => Sys2Proof.Machine.execVdrain f s
  | .vmov f => Sys2Proof.Machine.execVmov f s
  | .vrep f => Sys2Proof.Machine.execVrep f s
  | .vsacc f => Sys2Proof.Machine.execVsacc f s
  | .vseed f => Sys2Proof.Machine.execVseed f s
  | .nset pop push add level chan base stride cnt => Sys2Proof.Machine.execNset pop push add level chan base stride cnt s
  | .ngo pop push chmask => Sys2Proof.Machine.execNgo pop push chmask s
  | .mmac f => Sys2Proof.Machine.execMmac f s
  | .mmacq f => Sys2Proof.Machine.execMmacq f s
  | .msacc f => Sys2Proof.Machine.execMsacc f s
  | .mloadr f => Sys2Proof.Machine.execMloadr f s
  | .mloads f => Sys2Proof.Machine.execMloads f s
  | .mzero f => Sys2Proof.Machine.execMzero f s
  | .mstore f => Sys2Proof.Machine.execMstore f s
  | .mact f => Sys2Proof.Machine.execMact f s
  | .mrep reb len => Sys2Proof.Machine.execMrep reb len s
  | .relax f => Sys2Proof.Machine.execRelax f s
  | .relaxb f => Sys2Proof.Machine.execRelaxb f s
  | .mxset f => Sys2Proof.Machine.execMxset f s
  | .mxread f => Sys2Proof.Machine.execMxread f s
  | .mpatch f => Sys2Proof.Machine.execMpatch f s
  | .engineEntryBegin e => Sys2Proof.Machine.execEngineEntryBegin e s
  | .entryComplete e => Sys2Proof.Machine.execEntryComplete e s
  | .ntBufferWrite b => Sys2Proof.Machine.execNtBufferWrite b s
  | .streamElement store => Sys2Proof.Machine.execStreamElement store s
  | .copyComplete homes => Sys2Proof.Machine.execCopyComplete homes s
  | .pageWalk va write => Sys2Proof.Machine.execPageWalk va write s
  | .faultService serviced writes => Sys2Proof.Machine.execFaultService serviced writes s
  | .shootdownPage v => Sys2Proof.Machine.execShootdownPage v s
  | .shootdownRange v => Sys2Proof.Machine.execShootdownRange v s
  | .shootdownVi v => Sys2Proof.Machine.execShootdownVi v s
  | .shootdownAll v => Sys2Proof.Machine.execShootdownAll v s
  | .engineWatchdogExpire e => Sys2Proof.Machine.execEngineWatchdogExpire e s
  | .graphRelease vi stream => Sys2Proof.Machine.execGraphRelease vi stream s
  | .nodeComplete node => Sys2Proof.Machine.execNodeComplete node s
  | .sqDoorbell vi q v => Sys2Proof.Machine.execSqDoorbell vi q v s
  | .sqEnable vi q v => Sys2Proof.Machine.execSqEnable vi q v s
  | .launchQueueEnable vi q v => Sys2Proof.Machine.execLaunchQueueEnable vi q v s
  | .load vi img lay => Sys2Proof.Machine.execLoad vi img lay s
  | .unload vi => Sys2Proof.Machine.execUnload vi s
  | .teardown vi => Sys2Proof.Machine.execTeardown vi s
  | .clearFault vi => Sys2Proof.Machine.execClearFault vi s
  | .endNode vi => Sys2Proof.Machine.execEndNode vi s
  | .resume vi => Sys2Proof.Machine.execResume vi s
  | .attest vi => Sys2Proof.Machine.execAttest vi s
  | .mboxBadCommand vi code => Sys2Proof.Machine.execMboxBadCommand vi code s
  | .bar2Access vi off n data => Sys2Proof.Machine.execBar2Access vi off n data s
  | .viEnable v => Sys2Proof.Machine.execViEnable v s
  | .viDisable v => Sys2Proof.Machine.execViDisable v s
  | .viclsWrite die mask => Sys2Proof.Machine.execViclsWrite die mask s
  | .cellcfgWrite die v => Sys2Proof.Machine.execCellcfgWrite die v s
  | .w1cClear tgt v => Sys2Proof.Machine.execW1cClear tgt v s
  | .registerWrite tgt v => Sys2Proof.Machine.execRegisterWrite tgt v s
  | .rampEnvelopeTick m => Sys2Proof.Machine.execRampEnvelopeTick m s
  | .energyPeriodRefill vi => Sys2Proof.Machine.execEnergyPeriodRefill vi s
  | .impChange level => Sys2Proof.Machine.execImpChange level s
  | .oppChange rail point => Sys2Proof.Machine.execOppChange rail point s
  | .telemetryRecord m => Sys2Proof.Machine.execTelemetryRecord m s
  | .packetReceive p => Sys2Proof.Machine.execPacketReceive p s
  | .ackReceive dst upto => Sys2Proof.Machine.execAckReceive dst upto s
  | .ackTimeout dst => Sys2Proof.Machine.execAckTimeout dst s
  | .routeInstall dst routes => Sys2Proof.Machine.execRouteInstall dst routes s
  | .gongReceive src vi id att => Sys2Proof.Machine.execGongReceive src vi id att s
  | .bucketStart die slot => Sys2Proof.Machine.execBucketStart die slot s
  | .collectiveStep die slot bucket => Sys2Proof.Machine.execCollectiveStep die slot bucket s
  | .bucketComplete die slot => Sys2Proof.Machine.execBucketComplete die slot s
  | .collectiveFail die slot code => Sys2Proof.Machine.execCollectiveFail die slot code s
  | .cxlDecoderLower port limit => Sys2Proof.Machine.execCxlDecoderLower port limit s
  | .clusterErrorRollback k => Sys2Proof.Machine.execClusterErrorRollback k s
  | .correctedError e => Sys2Proof.Machine.execCorrectedError e s
  | .uncorrectableError e => Sys2Proof.Machine.execUncorrectableError e s
  | .scrub die line => Sys2Proof.Machine.execScrub die line s
  | .reset b => Sys2Proof.Machine.execReset b s
  | .dynamicAddressAssign addr => Sys2Proof.Machine.execDynamicAddressAssign addr s
  | .setEndpointId eid => Sys2Proof.Machine.execSetEndpointId eid s
  | .vendorRequestQuote nonce => Sys2Proof.Machine.execVendorRequestQuote nonce s
  | .vendorWriteZcfg v => Sys2Proof.Machine.execVendorWriteZcfg v s
  | .illegalEncoding w => Sys2Proof.Machine.execIllegalEncoding w s
  | .collectiveCredit die slot bucket step => Sys2Proof.Machine.execCollectiveCredit die slot bucket step s
  | .throttleReasonChange reasons cycles => Sys2Proof.Machine.execThrottleReasonChange reasons cycles s
  | .packageReserveGrant die watts => Sys2Proof.Machine.execPackageReserveGrant die watts s
  | .cxlLinkUp port cap => Sys2Proof.Machine.execCxlLinkUp port cap s
  | .strandFinish => Sys2Proof.Machine.execStrandFinish s
  | .atomicExecute => Sys2Proof.Machine.execAtomicExecute s
  | .slotUpdate => Sys2Proof.Machine.execSlotUpdate s
  | .kpubFlip => Sys2Proof.Machine.execKpubFlip s
  | .tallocServe => Sys2Proof.Machine.execTallocServe s
  | .tagWaitTimeout => Sys2Proof.Machine.execTagWaitTimeout s
  | .retireStart => Sys2Proof.Machine.execRetireStart s
  | .cellFullTimeout => Sys2Proof.Machine.execCellFullTimeout s
  | .relaxGroupStart => Sys2Proof.Machine.execRelaxGroupStart s
  | .loadPerformed => Sys2Proof.Machine.execLoadPerformed s
  | .storePerformed => Sys2Proof.Machine.execStorePerformed s
  | .copySubmit => Sys2Proof.Machine.execCopySubmit s
  | .stallWireRelease => Sys2Proof.Machine.execStallWireRelease s
  | .shootdownComplete => Sys2Proof.Machine.execShootdownComplete s
  | .controlWatchdogExpire => Sys2Proof.Machine.execControlWatchdogExpire s
  | .sliceEnd => Sys2Proof.Machine.execSliceEnd s
  | .switchOutComplete => Sys2Proof.Machine.execSwitchOutComplete s
  | .nodeAccept => Sys2Proof.Machine.execNodeAccept s
  | .placement => Sys2Proof.Machine.execPlacement s
  | .portLockLoss => Sys2Proof.Machine.execPortLockLoss s
  | .destinationLost => Sys2Proof.Machine.execDestinationLost s
  | .cxlLinkDown => Sys2Proof.Machine.execCxlLinkDown s
  | .tsuwinLinkDown => Sys2Proof.Machine.execTsuwinLinkDown s
  | .coreHeartbeatExpire => Sys2Proof.Machine.execCoreHeartbeatExpire s
  | .coreRebootComplete => Sys2Proof.Machine.execCoreRebootComplete s
  | .fallbackTurn => Sys2Proof.Machine.execFallbackTurn s
  | .barWindowsOpen => Sys2Proof.Machine.execBarWindowsOpen s
  | .getEndpointId => Sys2Proof.Machine.execGetEndpointId s
  | .getMctpVersionSupport => Sys2Proof.Machine.execGetMctpVersionSupport s
  | .getMessageTypeSupport => Sys2Proof.Machine.execGetMessageTypeSupport s
  | .vendorReadTelemetry => Sys2Proof.Machine.execVendorReadTelemetry s
  | .vendorReadErrors => Sys2Proof.Machine.execVendorReadErrors s
  | .announce => Sys2Proof.Machine.execAnnounce s
  | .sync => Sys2Proof.Machine.execSync s
  | .followUp => Sys2Proof.Machine.execFollowUp s
  | .ppsEdge => Sys2Proof.Machine.execPpsEdge s
  | .ppsEdgeMissing => Sys2Proof.Machine.execPpsEdgeMissing s
  | .tsuwinLinkUp => Sys2Proof.Machine.execTsuwinLinkUp s

end Sys2Proof.Machine
end

