-- ==== Sys2Proof/Machine/Turns.lean ====
section
/-!
DEFINITION. Which agent moves next, and what it reads: the word at the control sequencer's PC (R34, R180), the word that
the vector or matrix engine stands at (R182, R184), the next action of an engine whose queue holds work, and the choice
of a cluster. Step.lean only calls these.
-/

namespace Sys2Proof.Machine

/-- The bytes of the control area from an address on; outside the area nothing stands (R34). -/
def Code.bytesAt (c : Code) (a : Word) : List Byte := if c.holds a then c.ctrl.drop (a.toNat - c.ctrlVa) else []

/-- The word that the control sequencer fetches at PC; where no word stands it reads zero, which no table assigns (R39). -/
def Strand.fetchWord (t : Strand) : Nat :=
  let bs := t.code.bytesAt t.ctl.pc
  if bs.length < 4 then 0 else leNat (bs.take 4)

/-- The instruction at PC; a reserved word is the step ILLEGAL_ENCODING (R37, R51). -/
def Strand.fetchInstr (t : Strand) : Instr :=
  match decodeS t.fetchWord with
  | .ok i => i
  | .error _ => .illegalEncoding (BitVec.ofNat 32 t.fetchWord)

/-- Whether the gang of a strand is held by its stall wire (R355). -/
def State.wired (s : State) (node : Nat) : Bool := s.stallWires.contains node

/-- Whether the control sequencer of `me` issues: its strand runs and its stall wire is down (R355, R357). -/
def State.issues (s : State) : Bool := decide (s.me.status = .running) && !s.wired s.me.st.node && !s.me.st.finish && s.me.st.halt.isEmpty

/-- The instruction of the control sequencer, when it issues. -/
def State.controlInstr (s : State) : Option Instr := if s.issues then some s.me.st.fetchInstr else none

/-- Brings cluster `k` of the peers into `me`. -/
def State.focus (s : State) (k : Nat) : State :=
  match s.peers[k]? with
  | some c => { s with me := c, peers := setAt s.peers k s.me }
  | none => s

/-- Whether an instruction is a step without a word. -/
def isEvent (i : Instr) : Bool := decide (encode i = none)

/-- Whether a failed verification holds the package in reset, so that nothing but a reset happens (R423). -/
def State.heldInReset (s : State) (i : Instr) : Bool :=
  s.fe.bootFailed && (match i with
    | .reset _ => false
    | _ => true)

/-- The instruction that a turn names. -/
def State.turnInstr (s : State) (t : Turn) : Option Instr :=
  match t with
  | .control => s.controlInstr
  | .vword => s.me.st.vectorWord
  | .mword => s.me.st.matrixWord
  | .focus _ => none
  | .event i _ => if isEvent i && !s.heldInReset i then some i else none

/-- The next step of an L entry. -/
def loadTurn (e : Entry) : Turn :=
  match e.stage, e.cmd with
  | .queued, _ => .event (.engineEntryBegin .l) []
  | .performed, _ => .event (.entryComplete .l) []
  | _, .qld _ _ _ _ _ _ _ => .event (.streamElement false) []
  | _, _ => .event .loadPerformed []

/-- The next notice or the completion of the retirement that an entry waits for (R166). -/
def retireTurn (s : State) (t : BitVec 20) : Turn :=
  match s.retires.findIdx? fun r => decide (r.die * 2048 + r.idx = t.toNat % 65536) with
  | none => .event .retireStart []
  | some k =>
    match (List.range Config.dies).find? fun d => !((s.retires.getD k ⟨0, 0, 0, none, [], []⟩).acks.contains d) with
    | some d => .event (.retireNotice k d) []
    | none => .event (.retireComplete k) []

/-- The next step of an S entry. -/
def storeTurn (s : State) (e : Entry) : Turn :=
  match e.stage, e.cmd with
  | .queued, _ => .event (.engineEntryBegin .sq) []
  | .performed, _ => .event (.entryComplete .sq) []
  | _, .qst _ _ _ _ _ _ _ => .event (.streamElement true) []
  | _, .atomic _ _ _ _ _ _ _ _ _ => .event .atomicExecute []
  | _, .fadd _ _ _ => .event .slotUpdate []
  | _, .barv _ _ _ => .event .slotUpdate []
  | _, .fset _ _ _ => .event .slotUpdate []
  | _, .barinit _ _ _ => .event .slotUpdate []
  | _, .talloc _ => .event .tallocServe []
  | _, .tretire t => retireTurn s t
  | _, .drainnt _ => if s.me.st.nt.isEmpty then .event .storePerformed [] else .event (.ntBufferWrite 0) []
  | _, _ => .event .storePerformed []

/-- The next step of a K entry; a copy's lines flip at every home together. -/
def copyTurn (e : Entry) : Turn :=
  match e.stage, e.cmd with
  | .queued, _ => .event (.engineEntryBegin .k) []
  | .performed, _ => .event (.entryComplete .k) []
  | .submitted, _ => .event (.copyComplete (List.range Config.dies)) []
  | _, .kpub _ => .event .kpubFlip []
  | _, .kpubLogged => .event .kpubFlip []
  | _, _ => .event .copySubmit []

/-- Whether a graph may be released: the first of its stream, not released, its stream not faulted (R326, R328). -/
def State.releasable (s : State) (g : Graph) : Bool :=
  !g.released && !s.disp.faulted.contains (g.vi, g.stream) &&
    decide ((s.disp.graphs.find? fun q => decide (q.vi = g.vi) && decide (q.stream = g.stream)) = some g)

/-- The front end's and the dispatcher's next step: a completion, the end of a switch-out, an acceptance, a release, a
placement. -/
def State.houseTurn (s : State) : Turn :=
  match s.disp.nodes.find? fun n => (s.dueStatus n).isSome with
  | some n => .event (.nodeComplete n.slot) []
  | none =>
    if s.me.status = .leaving then .event .switchOutComplete []
    else if s.disp.subs.head?.any fun u => s.nodesFit u.count then .event .nodeAccept []
    else
      match s.disp.graphs.find? s.releasable with
      | some g => .event (.graphRelease g.vi g.stream) []
      | none => .event .placement []

/-- What the model moves when no turn is named: control, L, S, K, V, M, the dispatcher, and the next cluster, in
rotation. -/
def State.defaultTurn (s : State) : Turn :=
  match s.rotor % 8 with
  | 0 => if s.me.st.finish then .event .strandFinish [] else .control
  | 1 => match s.me.st.lqu with
    | e :: _ => loadTurn e
    | [] => .control
  | 2 => match s.me.st.squ with
    | e :: _ => storeTurn s e
    | [] => .control
  | 3 => match s.me.st.kqu with
    | e :: _ => copyTurn e
    | [] => .control
  | 4 => match s.me.st.vrun with
    | none => .event (.engineEntryBegin .v) []
    | some r => if r.off < r.blk.len then .vword else .event (.entryComplete .v) []
  | 5 => match s.me.st.mrun with
    | none => .event (.engineEntryBegin .m) []
    | some r =>
      if r.off < r.blk.len then (if r.work.stage = 7 ∧ s.me.member.isSome then .event .relaxGroupStart [] else .mword)
      else .event (.entryComplete .m) []
  | 6 => s.houseTurn
  | _ => .focus (s.rotor / 8 % (s.peers.length + 1))

/-- The turn of a step. -/
def State.nextTurn (s : State) : Turn :=
  match s.turns, s.me.st.halt with
  | t :: _, _ => t
  | [], x :: _ => if s.me.st.inFlight then s.defaultTurn else .event (.clusterErrorRollback x.1) []
  | [], [] => s.defaultTurn

/-- The state once the turn is taken: the first of `turns` goes, or the rotation advances. -/
def State.takeTurn (s : State) : State :=
  match s.turns with
  | .event _ inp :: r => { s with turns := r, input := inp }
  | _ :: r => { s with turns := r, input := [] }
  | [] => { s with rotor := s.rotor + 1, input := [] }

/-- A turn that names no instruction: another cluster, or an agent with nothing to do. -/
def State.otherTurn (s : State) (t : Turn) : State :=
  match t with
  | .focus k => s.focus k
  | _ => s

/-- Code bytes with some bytes placed at an address: spliced in where the area holds it, or as an area of their own. -/
def Code.place (c : Code) (a : Word) (bs : List Byte) : Code :=
  if c.holds a then
    { c with ctrl := c.ctrl.take (a.toNat - c.ctrlVa) ++ bs ++ c.ctrl.drop (a.toNat - c.ctrlVa + bs.length) }
  else { c with ctrlVa := a.toNat, ctrl := bs }

/-- A block of one word. -/
def oneWordRun (t : Strand) : Run :=
  { blk := { seq := t.seq, waddr := t.ctl.pc, first := 0, len := 1, eb := t.ctl.eb, tag := t.ctl.ctag }, off := 0,
    repLen := 0, repStart := 0, repCount := 0, k := 0, popped := false, rows := 0, work := Work.none,
    shadow := [], pushes := [], homes := [] }

/-- The state whose next step runs the Uslyn-S word `w` at the PC of `me`. -/
def State.placeControl (s : State) (w : Nat) : State :=
  { s with me := { s.me with status := .running, st := { s.me.st with code := s.me.st.code.place s.me.st.ctl.pc (leBytes 4 w), finish := false } },
           stallWires := s.stallWires.filter (· ≠ s.me.st.node), turns := [.control] }

/-- The state whose next step runs the Uslyn-V word `w` on the vector engine of `me`. -/
def State.placeVector (s : State) (w : Nat) : State :=
  { s.updSt fun t => { t with code := { t.code with varea := leBytes 12 w }, vrun := some (oneWordRun t) } with turns := [.vword] }

/-- The state whose next step runs the Uslyn-M word `w` on the matrix engine of `me`. -/
def State.placeMatrix (s : State) (w : Nat) : State :=
  { s.updSt fun t => { t with code := { t.code with marea := leBytes 24 w }, mrun := some (oneWordRun t) } with turns := [.mword] }

end Sys2Proof.Machine
end

