-- ==== Sys2Proof/Machine/Step.lean ====
section
/-!
DEFINITION. The step of the package: the agent whose turn it is executes its instruction.
-/

namespace Sys2Proof.Machine

/-- One step. -/
def step (s : State) : Host.Outcome State Fault Refusal :=
  match s.turnInstr s.nextTurn with
  | some i => exec i s.takeTurn
  | none => .next (s.takeTurn.otherTurn s.nextTurn)

/-- `s` with the instruction whose bits are `w` stored where its engine fetches next. -/
def State.withFetchWord (s : State) (nbits w : Nat) : State :=
  match nbits with
  | 32 => s.placeControl w
  | 96 => s.placeVector w
  | 192 => s.placeMatrix w
  | _ => s

end Sys2Proof.Machine
end

