-- ==== Sys2Proof/Safety.lean ====
section
/-!
DEFINITION. What counts as a safe state and a safe run, and the terms in which statements about the Uslyn-S words are
made: when a word issues without a wait or a trap, where it leaves the program counter, and what an issued command adds
to its queue; and when a vector or a matrix word executes, and what then stands behind it.
-/

namespace Sys2Proof.Machine

/-- The package memory is in canonical form. -/
def State.memWf (s : State) : Prop := s.mem.wf = true

/-- A step that neither faults nor refuses. -/
def steps (s t : State) : Prop := step s = .next t

/-- No armed and live loop set ends at PC, so that the word at PC is followed by the word behind it (R213). -/
def State.straight (s : State) : Prop :=
  ∀ l ∈ s.ctl.order, (s.ctl.getZL l).live = true → (s.ctl.getZL l).zle ≠ s.ctl.pc

/-- A word with guard `g` that reads the registers `rs` issues: the guard holds (R19, R36), every register it reads is
bound (R198), and no loop ends at it. -/
def State.ready (s : State) (g : Guard) (rs : List Reg) : Prop :=
  s.ctl.guard g = true ∧ s.me.st.pending rs = false ∧ s.straight

/-- The state once the word at PC has retired and the next word stands behind it; the stall it may have had ends. -/
def State.fell (s : State) : State :=
  let c := s.me.st.ctl
  { s with me := { s.me with st := { s.me.st with ctl := { c with pc := c.pc + 4 }, stall := false, ntWait := false, wdC := 0 } } }

/-- The state once the word at PC has retired and the next word stands at `a`. -/
def State.went (s : State) (a : Word) : State :=
  let c := s.me.st.ctl
  { s with me := { s.me with st := { s.me.st with ctl := { c with pc := a }, stall := false, ntWait := false, wdC := 0 } } }

/-- The entry that an issued command becomes: its issue number, word and CTAG captured (R78, R158). -/
def State.entryOf (s : State) (tk : Word) (cmd : Cmd) : Entry :=
  { seq := s.me.st.seq, waddr := s.ctl.pc, tag := s.ctl.ctag, tk := tk, cmd := cmd, stage := .queued, done := 0 }

/-- A command at the tail of L; register `d` waits for its result. -/
def State.pushL (s : State) (cmd : Cmd) (d : Reg) (tk : Word) : State :=
  s.updSt fun t => { t.expect d with lqu := t.lqu ++ [s.entryOf tk cmd], seq := t.seq + 1 }

/-- A command at the tail of S; register `d` waits for its result, and `gates` order what follows. -/
def State.pushS (s : State) (cmd : Cmd) (d : Reg) (tk : Word) (gates : List Gate) : State :=
  s.updSt fun t => { t.expect d with squ := t.squ ++ [s.entryOf tk cmd], seq := t.seq + 1, gates := t.gates ++ gates }

/-- A command at the tail of K, counted in KS (R96, R99). -/
def State.pushK (s : State) (cmd : Cmd) (tk : Word) : State :=
  s.updSt fun t =>
    { t with kqu := t.kqu ++ [s.entryOf tk cmd], seq := t.seq + 1,
             ctl := { t.ctl with ksOut := t.ctl.ksOut + 1, copySeq := t.ctl.copySeq + 1 } }

/-- Whether a queue of the control sequencer has a free place. -/
def hasRoom (q : List Entry) : Prop := queueFull q = false

/-- After a rollback no logged result stands for the word at PC (R398). -/
def State.unlogged (s : State) : Prop := ∀ r ∈ s.me.st.replay, r.waddr ≠ s.ctl.pc

/-- The checks of one access of `n` bytes at `ea` all pass and find `pl`; `s1` is the state with what the translation
filled and marked (R75, R83). -/
def State.finds (s : State) (ea : Word) (n : Nat) (write : Bool) (tag : Option (BitVec 20)) (s1 : State) (pl : Place) : Prop :=
  ea.toNat < 2 ^ 56 ∧ ea.toNat % n = 0 ∧
    ∃ s0, s.lookup ea.toNat n write tag = (s0, .ok pl) ∧ s1 = s0.updSt fun t => t.release .c

/-! ### Vector words -/

/-- The vector word that stands next executes (R244): no field of it offends, its tokens have been popped, its bytes, its
room and its place in CQ are there, unless it has taken its bytes before and holds them, and the matrix engine is idle where
it asks for that. `s1` is the state behind the pops, with bytes that it held back at their queue. `fm` tells the rows and
bytes of its operands. -/
def State.vGoes (s : State) (f : VFields) (fm : VForm) (r : Run) (s1 : State) : Prop :=
  s.me.st.vrun = some r ∧ vOffends f fm r.k s.me.st.vkind = none ∧
    ∃ s0, s.popWord false r (vPop f.pop) = some s0 ∧ (r.work.stage = 0 → s0.me.st.vReady f fm = true) ∧
      (fm.mIdle = true → s0.me.st.mrun = none) ∧ s1 = s0.updSt fun t => t.vUnhold f r

/-- What the execution reads (R244, step 3). -/
def State.vSees (s1 : State) (f : VFields) (fm : VForm) (r : Run) : VIn := (s1.me.st.vInputs f fm r.k).1

/-- The state behind an execution whose results are `y`: they are written, source bytes have left their queues, tokens are
pushed, and the engine stands at the next word. Nothing else changes. -/
def State.vGives (s1 : State) (f : VFields) (fm : VForm) (r : Run) (y : VOut) : State :=
  s1.updSt fun t =>
    ((t.vWrite f fm (t.vInputs f fm r.k).1 y (t.vInputs f fm r.k).2).pushFrom .v r.blk.waddr r.info (vPush f.push)).setRun false
      (some r.advance)

/-- Row operands of format `fa` at A and `fd` at B and D, and a destination. -/
def rowShape (fa fd : Fmt) (w : Nat) : VForm := baseForm fa fd w fun x => x.sets x.v false

/-- A generator after `n` steps. -/
def genAfter (n : Nat) (g : Lane) : Lane :=
  match n with
  | 0 => g
  | n + 1 => genStep (genAfter n g)

/-- The draw for element `i` of lane `l` under a rounding mode: the state of the lane's generator once it has stepped for
that element (R236). -/
def drawFor (rd : Rnd) (g : Sp Lane) (idx l i : Nat) : Nat :=
  if rd = .rsr then genDraw (genAfter (i + 1) (genAt g idx l)) else 0

/-- Element `i` of a lane. -/
def elemIn (f : Fmt) (i p : Nat) : Nat := p / 2 ^ (elemWidth f * i) % 2 ^ elemWidth f

/-- A lane whose element `i` is `e i`. -/
def laneFrom (f : Fmt) (e : Nat → Nat) : Nat :=
  ((List.range (elemsPerLane f)).map fun i => e i % 2 ^ elemWidth f * 2 ^ (elemWidth f * i)).sum

/-! ### Matrix words -/

/-- The matrix word that stands next takes its pops (R189): `r` is the block behind them, `s1` the state. -/
def State.mTakes (s : State) (pop : BitVec 4) (r : Run) (s1 : State) : Prop :=
  ∃ r0, s.me.st.mrun = some r0 ∧ r = { r0 with popped := true } ∧ s.popWord true r0 (mPop pop) = some s1

/-- The matrix word that stands next acts, over the extents `x` (R275). -/
def State.mGoes (s : State) (f : MFields) (r : Run) (x : Ext) (s1 : State) : Prop :=
  s.mTakes f.pop r s1 ∧ r.ext f = some x

/-- The state behind a matrix word that has executed: the engine's state changes by `g`, tokens are pushed, and the engine
stands at the next word. -/
def State.mGives (s1 : State) (push : BitVec 4) (r : Run) (g : MState → MState) : State :=
  s1.updSt fun t => ({ t with m := g t.m }.pushFrom .m r.blk.waddr r.info (mPush push)).setRun true (some r.advance)

/-- Bits that a tile holds of an element. -/
def tileBits (f : Fmt) : Nat := if f = .f64 then 64 else 32

/-- Whether an MMAC or MMACQ reads all of A before its first row (R277, R278). -/
def readsAhead (f : MFields) : Bool := f.ta || decide (f.sa = .acc2)

/-- Rows of B that a product holds before its first output row. -/
def bRows (f : MFields) (x : Ext) : Nat := if f.tb then x.n else x.k

/-- Rows of A that a product with `readsAhead` holds. -/
def aRows (f : MFields) (x : Ext) : Nat := if f.ta then x.k else x.m

/-- The product holds what it reads before its first output row. -/
def Run.holds (r : Run) (f : MFields) (x : Ext) (ahead : Bool) : Prop :=
  r.work.b.length = bRows f x ∧ (ahead = true → r.work.a.length = aRows f x)

/-- Row `r.rows` of A stands ready: it is held, or it has just been read. -/
def State.aReady (s1 : State) (f : MFields) (r : Run) (x : Ext) (ahead : Bool) (s2 : State) (l : List Nat) : Prop :=
  (ahead = true ∧ s2 = s1 ∧ l = r.work.a.getD r.rows []) ∨ (ahead = false ∧ aRow f x r r.rows s1 = .elems s2 l)

end Sys2Proof.Machine
end

