-- ==== Sys2Proof/Certificates/Slice0/Obligations.lean ====
section
/-!
DEFINITION. The statements about the Z4 model. Lists of rows stand where one statement covers several instructions of
one shape; each row pairs the constructor with what the rule of that instruction gives.
-/

namespace Sys2Proof.Machine

/-! ### Terms of the statements: the integer words -/

/-- R200: the two-register words and the value each gives. -/
def aluRows : List ((Guard → Reg → Reg → Reg → Instr) × (Word → Word → Word)) :=
  [(.add, fun a b => a + b), (.sub, fun a b => a - b), (.mul, fun a b => a * b),
   (.mulh, fun a b => BitVec.ofInt 64 ((a.toInt * b.toInt) / 2 ^ 64)),
   (.divs, fun a b => if b = 0 then -1 else a.sdiv b), (.divn, fun a b => if b = 0 then -1 else a / b),
   (.rems, fun a b => if b = 0 then a else a.srem b), (.remn, fun a b => if b = 0 then a else a % b),
   (.and, fun a b => a &&& b), (.or, fun a b => a ||| b), (.xor, fun a b => a ^^^ b), (.andn, fun a b => a &&& ~~~b),
   (.shl, fun a b => a <<< (b.toNat % 64)), (.shr, fun a b => a >>> (b.toNat % 64)),
   (.sha, fun a b => a.sshiftRight (b.toNat % 64)), (.rot, fun a b => a.rotateRight (b.toNat % 64)),
   (.min, fun a b => if a.slt b then a else b), (.max, fun a b => if a.slt b then b else a),
   (.minn, fun a b => if a.ult b then a else b), (.maxn, fun a b => if a.ult b then b else a)]

/-- R200: the one-register words. -/
def aluUnaryRows : List ((Guard → Reg → Reg → Instr) × (Word → Word)) :=
  [(.clz, fun a => BitVec.ofNat 64 ((List.range 64).takeWhile fun k => !a.getLsbD (63 - k)).length),
   (.popc, fun a => BitVec.ofNat 64 ((List.range 64).filter fun k => a.getLsbD k).length)]

/-- R199, R200: the immediate words; arithmetic and logic extend the sign, shifts take an amount. -/
def aluImmRows : List ((Guard → Reg → Reg → BitVec 8 → Instr) × (Word → BitVec 8 → Word)) :=
  [(.addImm, fun a v => a + v.signExtend 64), (.andImm, fun a v => a &&& v.signExtend 64),
   (.orImm, fun a v => a ||| v.signExtend 64), (.xorImm, fun a v => a ^^^ v.signExtend 64),
   (.shlImm, fun a v => a <<< (v.toNat % 64)), (.shrImm, fun a v => a >>> (v.toNat % 64)),
   (.shaImm, fun a v => a.sshiftRight (v.toNat % 64)), (.rotImm, fun a v => a.rotateRight (v.toNat % 64))]

/-- R219: the scalar FP32 words with a rounding suffix: whether the word reads D, the exact value (the third operand is
that of D), and the mode of its one rounding. -/
def floatRows : List ((Guard → Reg → Reg → Reg → Rnd → Instr) × Bool × (Rnd → Word → Word → Word → Val) × (Rnd → Rnd)) :=
  [(.sfadd, false, fun r a b _ => Val.add (f32Of a) (f32Of b) r, id),
   (.sfmul, false, fun _ a b _ => Val.mul (f32Of a) (f32Of b), id),
   (.sffma, true, fun r a b d => Val.add (Val.mul (f32Of a) (f32Of b)) (f32Of d) r, id),
   (.sfmin, false, fun _ a b _ => Val.min (f32Of a) (f32Of b), fun _ => .rne),
   (.sfmax, false, fun _ a b _ => Val.max (f32Of a) (f32Of b), fun _ => .rne)]

/-! ### Terms of the statements: transfers, accesses, issued commands -/

/-- The target of a word that transfers control may be entered, and the word ends no loop (R206, R215). -/
def State.enters (s : State) (t : Word) : Prop :=
  t.toNat % 4 = 0 ∧ s.me.st.code.holds t = true ∧ s.ctl.atEnd s.ctl.pc = false

/-- The checks of consecutive 8-byte accesses pass, each in the state that the one before leaves; behind the last one the
word holds no access any more. -/
def State.findsAll (s : State) (ea : Word) (write : Bool) (pls : List Place) (s' : State) : Prop :=
  match pls with
  | [] => s' = s.updSt fun t => t.release .c
  | pl :: r => ea.toNat < 2 ^ 56 ∧ ea.toNat % 8 = 0 ∧
      ∃ s1, s.lookup ea.toNat 8 write none = (s1, .ok pl) ∧ s1.findsAll (ea + 8) write r s'

/-- R83, R84: the offset loads, with whether they take the constant path. -/
def loadOffsetRows : List ((Guard → Reg → Reg → Size → BitVec 8 → Instr) × Bool) := [(.ldOffset, false), (.ldcOffset, true)]

/-- R83, R84: the index loads. -/
def loadIndexRows : List ((Guard → Reg → Reg → Size → Reg → Instr) × Bool) := [(.ldIndex, false), (.ldcIndex, true)]

/-- R83: the effective address of an offset form; the offset counts access units. -/
def offsetAddr (a : Word) (off : BitVec 8) (sz : Size) : Word := a + off.signExtend 64 * BitVec.ofNat 64 (sizeBytes sz)

/-- R88: the copy words. -/
def copyRows : List ((Guard → CopyOps → Instr) × KOp) :=
  [(.kcopy, .copy), (.kcopy2d, .copy2d), (.kfill, .fill), (.kgather, .gather), (.kscatter, .scatter), (.kpair, .pair)]

/-- Whether a copy word takes a second parameter register (R88). -/
def KOp.two : KOp → Bool
  | .copy2d => true
  | .pair => true
  | _ => false

/-- The register behind `r`. -/
def after (r : Reg) (n : Nat) : Reg := BitVec.ofNat 5 (r.toNat + n)

/-- R143: the atomic words. -/
def atomicRows : List ((PGuard → AtomOps → Instr) × AOp) :=
  [(.aadd, .add), (.aand, .and), (.aor, .or), (.axor, .xor), (.amin, .min), (.amax, .max), (.aminn, .minn), (.amaxn, .maxn),
   (.axchg, .xchg), (.acas, .cas)]

/-- Access bytes of an atomic. -/
def atomBytes (o : AtomOps) : Nat := if o.d64 then 8 else 4

/-- The address of an atomic (R143). -/
def State.atomicAddr (s : State) (o : AtomOps) : Word := s.getG o.a + BitVec.ofNat 64 (o.off.toNat * atomBytes o)

/-- A marker at the tail of each queue of the list, and the gates behind it. -/
def State.marked (s : State) (qs : List Eng) (gates : List Gate) : State :=
  s.updSt fun t =>
    { t with lqu := if .l ∈ qs then t.lqu ++ [s.entryOf 0 .marker] else t.lqu,
             squ := if .sq ∈ qs then t.squ ++ [s.entryOf 0 .marker] else t.squ,
             kqu := if .k ∈ qs then t.kqu ++ [s.entryOf 0 .marker] else t.kqu,
             seq := t.seq + 1, gates := t.gates ++ gates }

/-! ### Terms of the statements: vector words -/

/-- R250, R251, R263: the words that compute every element from the same element of A, B and D: the exact value, the
rounding mode, the overflow suffix, and how the pattern stands in a lane. -/
def elemRows : List ((VFields → Instr) × (VFields → VIn → Nat → Nat → Nat → XVal) × (VFields → Rnd) × (VFields → Ovf) ×
    (VFields → Nat → Nat)) :=
  let va := fun (f : VFields) (x : VIn) (a : Nat) => x.a.val f.fmt a
  let vb := fun (f : VFields) (x : VIn) (b : Nat) => x.b.val f.fmt b
  let vd := fun (f : VFields) (x : VIn) (d : Nat) => x.d.val f.fmt d
  let st := fun (f : VFields) => toStore f.fmt
  let exact := fun (_ : VFields) => Rnd.rne
  [(.vadd, fun f x a b _ => (Val.add (va f x a) (vb f x b) f.rnd).toX, fun f => f.rnd, fun f => f.ovf, st),
   (.vsub, fun f x a b _ => (Val.add (va f x a) (vb f x b).neg f.rnd).toX, fun f => f.rnd, fun f => f.ovf, st),
   (.vmul, fun f x a b _ => (Val.mul (va f x a) (vb f x b)).toX, fun f => f.rnd, fun f => f.ovf, st),
   (.vfma, fun f x a b d => (Val.add (Val.mul (va f x a) (vb f x b)) (vd f x d) f.rnd).toX, fun f => f.rnd, fun f => f.ovf, st),
   (.vfms, fun f x a b d => (Val.add (vd f x d) (Val.mul (va f x a) (vb f x b)).neg f.rnd).toX, fun f => f.rnd,
     fun f => f.ovf, st),
   (.vmin, fun f x a b _ => (Val.min (va f x a) (vb f x b)).toX, exact, fun _ => .wrap, st),
   (.vmax, fun f x a b _ => (Val.max (va f x a) (vb f x b)).toX, exact, fun _ => .wrap, st),
   (.vabs, fun f x a _ _ => (va f x a).abs.toX, exact, fun f => f.ovf, st),
   (.vneg, fun f x a _ _ => (va f x a).neg.toX, exact, fun f => f.ovf, st),
   (.vclamp, fun f x a b d => (Val.min (Val.max (vd f x d) (va f x a)) (vb f x b)).toX, exact, fun _ => .wrap, st),
   (.vexp2, fun f x a _ _ => fnExp2 (va f x a), fun f => f.rnd, fun f => f.ovf, fun _ => id),
   (.vlog2, fun f x a _ _ => fnLog2 (va f x a), fun f => f.rnd, fun f => f.ovf, fun _ => id),
   (.vrcp, fun f x a _ _ => fnRcp (va f x a), fun f => f.rnd, fun f => f.ovf, fun _ => id),
   (.vrsqrt, fun f x a _ _ => fnRsqrt (va f x a), fun f => f.rnd, fun f => f.ovf, fun _ => id),
   (.vtanh, fun f x a _ _ => fnTanh (va f x a), fun f => f.rnd, fun f => f.ovf, fun _ => id),
   (.vsig, fun f x a _ _ => fnSig (va f x a), fun f => f.rnd, fun f => f.ovf, fun _ => id)]

/-- R252, R258: the words that compute every element's bits from the same element of A and B. -/
def bitRows : List ((VFields → Instr) × (Fmt → Nat → Nat → Nat)) :=
  let bv := fun (f : Fmt) (a : Nat) => BitVec.ofNat (elemWidth f) a
  [(.vand, fun f a b => (bv f a &&& bv f b).toNat), (.vor, fun f a b => (bv f a ||| bv f b).toNat),
   (.vxor, fun f a b => (bv f a ^^^ bv f b).toNat), (.vshl, fun f a c => (bv f a <<< c).toNat),
   (.vshr, fun f a c => (bv f a >>> c).toNat), (.vsha, fun f a c => ((bv f a).sshiftRight c).toNat), (.vmov, fun _ a _ => a)]

/-- R243 to R264: what each word of Uslyn-V but its repeat word takes and gives, on a cluster of kind V or M: rows and bytes
of its operands, and the lowest bit of a field that offends when the word runs. -/
def vectorShapes : List ((VFields → Instr) × (VFields → Bool → VForm)) :=
  let elem := fun (f : VFields) (vk : Bool) => rowShape f.fmt f.fmt (lanesOf vk)
  let f32 := fun (vk : Bool) => rowShape .f32 .f32 (lanesOf vk)
  ([.vadd, .vsub, .vmul, .vfma, .vfms, .vmin, .vmax, .vabs, .vneg, .vclamp, .vexp2, .vlog2, .vrcp, .vrsqrt, .vtanh, .vsig,
    .vand, .vor, .vxor, .vshl, .vshr, .vsha, .vsel, .vred, .vscan, .vmov, .vsacc].map fun w => (w, elem)) ++
  [(.vcvt, fun f vk => { rowShape f.fmt2 f.fmt (lanesOf vk) with nb := 1, bb := 4 * lanesOf vk }),
   (.vpack, fun f vk => { f32 vk with na := packRows f.fmt, bd := packBytes f.fmt (lanesOf vk) }),
   (.vunpack, fun f vk => { f32 vk with nd := packRows f.fmt, ba := packBytes f.fmt (lanesOf vk) }),
   (.vcmp, fun f vk => { elem f vk with hasD := false, pushes := decide (f.mod.toNat / 256 % 4 ≠ 0) }),
   (.vmop, fun f vk => { f32 vk with
      hasD := decide (f.mod.toNat / 4096 = 9 ∨ f.mod.toNat / 4096 = 10), pushes := decide (f.mod.toNat / 2 % 4 ≠ 0) }),
   (.vbcast, fun f vk => { elem f vk with bad := if lanesOf vk ≤ f.mod.toNat % 256 then some 0 else none }),
   (.vperm, fun f vk => { f32 vk with bad := if f.mod.getLsbD 0 = true ∧ vk = false then some 0 else none }),
   (.vdefer, fun f vk => { f32 vk with hasD := false, pushes := f.mod.getLsbD 4 }),
   (.vdrain, fun f vk => { f32 vk with nd := 3, pushes := f.mod.getLsbD 11 }),
   (.vseed, fun f vk => { f32 vk with
      hasD := false, bad := if f.mod.toNat % 4 ≠ 0 ∧ vk = true then some 0 else none, mIdle := decide (f.mod.toNat % 4 ≠ 0) })]

/-- The words of Uslyn-V but for its repeat word. -/
def vectorWords : List (VFields → Instr) :=
  [.vadd, .vsub, .vmul, .vfma, .vfms, .vmin, .vmax, .vabs, .vneg, .vclamp, .vexp2, .vlog2, .vrcp, .vrsqrt, .vtanh, .vsig,
   .vand, .vor, .vxor, .vshl, .vshr, .vsha, .vcvt, .vpack, .vunpack, .vcmp, .vsel, .vmop, .vperm, .vbcast, .vred, .vscan,
   .vdefer, .vdrain, .vmov, .vsacc, .vseed]

/-! ### Terms of the statements: every word -/

/-- The guard of a Uslyn-S word (R36); an atomic's guard has no GS bit. -/
def guardOf (i : Instr) : Option Guard :=
  match i with
  | .add g _ _ _ => some g
  | .sub g _ _ _ => some g
  | .mul g _ _ _ => some g
  | .mulh g _ _ _ => some g
  | .divs g _ _ _ => some g
  | .divn g _ _ _ => some g
  | .rems g _ _ _ => some g
  | .remn g _ _ _ => some g
  | .and g _ _ _ => some g
  | .or g _ _ _ => some g
  | .xor g _ _ _ => some g
  | .andn g _ _ _ => some g
  | .shl g _ _ _ => some g
  | .shr g _ _ _ => some g
  | .sha g _ _ _ => some g
  | .rot g _ _ _ => some g
  | .min g _ _ _ => some g
  | .max g _ _ _ => some g
  | .minn g _ _ _ => some g
  | .maxn g _ _ _ => some g
  | .clz g _ _ => some g
  | .popc g _ _ => some g
  | .addImm g _ _ _ => some g
  | .andImm g _ _ _ => some g
  | .orImm g _ _ _ => some g
  | .xorImm g _ _ _ => some g
  | .shlImm g _ _ _ => some g
  | .shrImm g _ _ _ => some g
  | .shaImm g _ _ _ => some g
  | .rotImm g _ _ _ => some g
  | .cmp g _ _ _ _ => some g
  | .sel g _ _ _ _ => some g
  | .sfadd g _ _ _ _ => some g
  | .sfmul g _ _ _ _ => some g
  | .sffma g _ _ _ _ => some g
  | .sfmin g _ _ _ _ => some g
  | .sfmax g _ _ _ _ => some g
  | .sfcmp g _ _ _ _ => some g
  | .sfcvt g _ _ _ _ _ _ => some g
  | .pbr g _ _ => some g
  | .pbri g _ _ => some g
  | .br g _ => some g
  | .brq g _ _ => some g
  | .call g _ => some g
  | .ret g => some g
  | .zloop g _ _ _ _ => some g
  | .zlset g _ _ _ => some g
  | .zlsv g _ _ => some g
  | .zlrs g _ _ => some g
  | .movi g _ _ => some g
  | .movh g _ _ => some g
  | .lea g _ _ _ => some g
  | .ldOffset g _ _ _ _ => some g
  | .ldIndex g _ _ _ _ => some g
  | .stOffset g _ _ _ _ => some g
  | .stIndex g _ _ _ _ => some g
  | .ldcOffset g _ _ _ _ => some g
  | .ldcIndex g _ _ _ _ => some g
  | .stntOffset g _ _ _ _ => some g
  | .stntIndex g _ _ _ _ => some g
  | .qld g _ => some g
  | .qst g _ => some g
  | .kcopy g _ => some g
  | .kcopy2d g _ => some g
  | .kfill g _ => some g
  | .kgather g _ => some g
  | .kscatter g _ => some g
  | .kpair g _ => some g
  | .kwait g _ _ => some g
  | .kstat g _ => some g
  | .done g => some g
  | .aadd g _ => some ⟨g.gp, g.neg, false⟩
  | .aand g _ => some ⟨g.gp, g.neg, false⟩
  | .aor g _ => some ⟨g.gp, g.neg, false⟩
  | .axor g _ => some ⟨g.gp, g.neg, false⟩
  | .amin g _ => some ⟨g.gp, g.neg, false⟩
  | .amax g _ => some ⟨g.gp, g.neg, false⟩
  | .aminn g _ => some ⟨g.gp, g.neg, false⟩
  | .amaxn g _ => some ⟨g.gp, g.neg, false⟩
  | .axchg g _ => some ⟨g.gp, g.neg, false⟩
  | .acas g _ => some ⟨g.gp, g.neg, false⟩
  | .fadd g _ _ _ => some g
  | .fset g _ _ _ => some g
  | .wait g _ _ _ => some g
  | .barv g _ _ _ => some g
  | .barw g _ _ _ => some g
  | .barinit g _ _ => some g
  | .mark g => some g
  | .sbar g _ => some g
  | .fence g _ _ => some g
  | .drainnt g _ => some g
  | .cinv g => some g
  | .kpub g _ _ => some g
  | .talloc g _ => some g
  | .tretire g _ => some g
  | .tset g _ => some g
  | .tget g _ => some g
  | .ldx g _ _ _ _ => some g
  | .tstat g _ _ => some g
  | .fork g _ _ => some g
  | .rdv g _ => some g
  | .ebset g _ _ => some g
  | .ebget g _ _ => some g
  | .tkset g _ _ => some g
  | .tkget g _ _ => some g
  | .strid g _ => some g
  | .launch g _ _ _ => some g
  | .yield g _ => some g
  | .prio g _ _ => some g
  | .nodeid g _ => some g
  | .csrr g _ _ => some g
  | .csrw g _ _ => some g
  | .csrs g _ _ => some g
  | .nop g => some g
  | .trap g _ => some g
  | .eret g => some g
  | .brk g _ => some g
  | .swpt g _ => some g
  | .pwrq g _ _ => some g
  | .pwreq g _ _ => some g
  | .qarm g _ _ => some g
  | .qpost g _ _ _ => some g
  | .qwait g _ _ _ => some g
  | .qabort g _ _ => some g
  | .qstat g _ _ => some g
  | _ => none

end Sys2Proof.Machine

open Sys2Proof Sys2Proof.Machine

/-- R200: every two-register integer word that issues writes the value of its row to D, and nothing else changes but
PC, the stall and D's wait for an older result. R199, R200, R82: the one-register, immediate and constant words likewise. -/
def Obligations.IntegerWords : Prop :=
  (∀ row ∈ aluRows, ∀ (s : State) (g : Guard) (d a b : Reg), s.ready g [a, b] →
      exec (row.1 g d a b) s = .next (s.writeG d (row.2 (s.getG a) (s.getG b))).fell) ∧
  ((∀ row ∈ aluUnaryRows, ∀ (s : State) (g : Guard) (d a : Reg), s.ready g [a] →
      exec (row.1 g d a) s = .next (s.writeG d (row.2 (s.getG a))).fell) ∧
    (∀ row ∈ aluImmRows, ∀ (s : State) (g : Guard) (d a : Reg) (v : BitVec 8), s.ready g [a] →
      exec (row.1 g d a v) s = .next (s.writeG d (row.2 (s.getG a) v)).fell) ∧
    (∀ (s : State) (g : Guard) (d : Reg) (v : BitVec 16), s.ready g [] →
      exec (.movi g d v) s = .next (s.writeG d (v.signExtend 64)).fell) ∧
    (∀ (s : State) (g : Guard) (d : Reg) (v : BitVec 16), s.ready g [d] →
      exec (.movh g d v) s = .next (s.writeG d ((s.getG d <<< 16) ||| v.setWidth 64)).fell) ∧
    (∀ (s : State) (g : Guard) (d a : Reg) (v : BitVec 11), s.ready g [a] →
      exec (.lea g d a v) s = .next (s.writeG d (s.getG a + v.signExtend 64)).fell))

/-- R203, R204, R220: compares write one predicate, select takes one of two registers. R219, R221: scalar FP32
arithmetic rounds the exact value once into the low half of D with the high half zero, and a conversion rounds the
source pattern's value once into the format it names, sign-extended where that format is signed. -/
def Obligations.CompareAndFloat : Prop :=
  ((∀ (s : State) (g : Guard) (pd : BitVec 3) (a b : Reg) (c : Cond), s.ready g [a, b] →
      exec (.cmp g pd a b c) s = .next (s.setP pd
        (match c with
         | .eq => s.getG a == s.getG b
         | .ne => s.getG a != s.getG b
         | .lt => (s.getG a).slt (s.getG b)
         | .ge => !(s.getG a).slt (s.getG b)
         | .ltn => (s.getG a).ult (s.getG b)
         | .gen => !(s.getG a).ult (s.getG b))).fell) ∧
    (∀ (s : State) (g : Guard) (d a b : Reg) (p : BitVec 3), s.ready g [a, b] →
      exec (.sel g d a b p) s = .next (s.writeG d (if s.ctl.getP p then s.getG a else s.getG b)).fell) ∧
    (∀ (s : State) (g : Guard) (pd : BitVec 3) (a b : Reg) (c : FCond), s.ready g [a, b] →
      exec (.sfcmp g pd a b c) s = .next (s.setP pd
        (match Val.cmp (f32Of (s.getG a)) (f32Of (s.getG b)), c with
         | some .eq, .eq => true
         | some .eq, .le => true
         | some .lt, .lt => true
         | some .lt, .le => true
         | some .lt, .ne => true
         | some .gt, .ne => true
         | none, .ne => true
         | none, .un => true
         | _, _ => false)).fell)) ∧
  ((∀ row ∈ floatRows, ∀ (s : State) (g : Guard) (d a b : Reg) (r : Rnd),
      s.ready g (if row.2.1 then [a, b, d] else [a, b]) →
      exec (row.1 g d a b r) s = .next (s.writeG d
        (BitVec.ofNat 64 (cvtVal (row.2.2.1 r (s.getG a) (s.getG b) (s.getG d)) .f32 (row.2.2.2 r) .wrap % 2 ^ 32))).fell) ∧
    (∀ (s : State) (g : Guard) (d a : Reg) (toX : Bool) (xf : XFmt) (r : Rnd) (o : Ovf), s.ready g [a] →
      exec (.sfcvt g d a toX xf r o) s =
        .next (s.writeG d (
          let fs := if toX then .f32 else xfmt xf
          let fd := if toX then xfmt xf else .f32
          let p := cvtVal (decodeFmt fs ((s.getG a).toNat % 2 ^ fmtWidth fs)) fd r o
          if fmtSigned fd then BitVec.ofInt 64 (sextNat p (fmtWidth fd)) else BitVec.ofNat 64 p)).fell))

/-- R205: PBR and PBRI write a branch target register and nothing else. R205, R207, R214: a taken BR or BRQ goes to its
target and leaves the loops that do not contain it, BRQ taking the head of CQ; a BRQ whose head has the other sense
takes the head and falls through; CALL links in G31; RET returns there. CALL and RET leave every loop armed. -/
def Obligations.Branches : Prop :=
  ((∀ (s : State) (g : Guard) (t : BitVec 3) (off : BitVec 18), s.ready g [] →
      exec (.pbr g t off) s = .next (s.updCtl fun c =>
        { c with bt := c.bt.set t.toNat (c.pc + 4 * off.signExtend 64) t.isLt }).fell) ∧
    (∀ (s : State) (g : Guard) (t : BitVec 3) (a : Reg), s.ready g [a] →
      exec (.pbri g t a) s = .next (s.updCtl fun c => { c with bt := c.bt.set t.toNat (s.getG a) t.isLt }).fell)) ∧
  ((∀ (s : State) (g : Guard) (t : BitVec 3), s.ctl.guard g = true → s.enters (s.ctl.getBT t) →
      exec (.br g t) s = .next ((s.updCtl fun c => c.leave (s.ctl.getBT t) c.order).went (s.ctl.getBT t))) ∧
    (∀ (s : State) (g : Guard) (t : BitVec 3) (sense h : Bool) (q : List Bool), s.ctl.guard g = true → s.ctl.cq = h :: q →
      (h = sense → s.enters (s.ctl.getBT t) →
        exec (.brq g t sense) s =
          .next ((s.updCtl fun c => { c with cq := q }.leave (s.ctl.getBT t) c.order).went (s.ctl.getBT t))) ∧
      (h ≠ sense → s.ctl.atEnd s.ctl.pc = false →
        exec (.brq g t sense) s = .next (s.updCtl fun c => { c with cq := q }).fell)) ∧
    (∀ (s : State) (g : Guard) (t : BitVec 3), s.ctl.guard g = true → s.enters (s.ctl.getBT t) →
      exec (.call g t) s = .next ((s.writeG 31 (s.ctl.pc + 4)).went (s.ctl.getBT t))) ∧
    (∀ (s : State) (g : Guard), s.ctl.guard g = true → s.me.st.pending [31] = false → s.enters (s.getG 31) →
      exec (.ret g) s = .next (s.went (s.getG 31))))

/-- R214: leaving for a target disarms exactly the live sets of the list whose body does not hold the target, and clears
the stage predicates where a staged set is among them; no other part of the control state changes but the arming order. -/
def Obligations.LeavingLoops : Prop :=
  ∀ (c : Ctl) (t : Word) (l : List (Fin 4)),
    let out := fun (k : Fin 4) => decide (k ∈ l) && (c.getZL k).live && !(c.getZL k).holds t
    let c' := c.leave t l
    (∀ k, c'.getZL k = if out k then { c.getZL k with armed := false, frozen := false } else c.getZL k) ∧
    c'.order = c.order.filter (fun k => !out k) ∧
    c'.sp = (if (List.finRange 4).any fun k => out k && (c.getZL k).staged then 0 else c.sp) ∧
    { c' with zl := c.zl, order := c.order, sp := c.sp } = c

/-- R212: a ZLOOP with a trip count in range arms its set first in arming order over the next `last` words, with the
iterations left, its stages and, where it is staged, SP0 alone; a trip count of 0 goes past the body unarmed. -/
def Obligations.LoopArms : Prop :=
  ∀ (s : State) (g : Guard) (l : BitVec 2) (stages : BitVec 3) (a : Reg) (last : BitVec 11),
    s.ctl.guard g = true → s.me.st.pending [a] = false →
    let n := (s.getG a).toNat
    let k := zlIdx l
    let z : LoopSet := { s.ctl.getZL k with zls := s.ctl.pc + 4, zle := s.ctl.pc + 4 * last.setWidth 64, stages := stages }
    let skip := s.ctl.pc + 4 * last.setWidth 64 + 4
    (n ≠ 0 → s.ctl.atEnd s.ctl.pc = false → n < 2 ^ 32 → (stages ≠ 0 → n + stages.toNat < 2 ^ 32 + 2) →
      (stages = 0 ∨ s.ctl.stagedOther k = false) →
      ∃ c' : Ctl, exec (.zloop g l stages a last) s = .next ((s.updCtl fun _ => c').went (s.ctl.pc + 4)) ∧
        c'.getZL k = { z with armed := true, frozen := false, zlc := BitVec.ofNat 32 (if stages = 0 then n - 1 else n + stages.toNat - 2) } ∧
        (∀ j, j ≠ k → c'.getZL j = s.ctl.getZL j) ∧ c'.order = k :: s.ctl.order.filter (· ≠ k) ∧
        c'.sp = (if stages ≠ 0 then 1 else if (s.ctl.getZL k).staged then 0 else s.ctl.sp) ∧
        { c' with zl := s.ctl.zl, order := s.ctl.order, sp := s.ctl.sp } = s.ctl) ∧
    (n = 0 → s.enters skip →
      ∃ c' : Ctl, exec (.zloop g l stages a last) s = .next ((s.updCtl fun _ => c').went skip) ∧
        c'.getZL k = { z with armed := false, frozen := false } ∧
        (∀ j, j ≠ k → c'.getZL j = s.ctl.getZL j) ∧ c'.order = s.ctl.order.filter (· ≠ k))

/-- R78, R83, R84: a load whose checks pass joins L with its place, and its destination waits for it. R169, R170: LDX joins L
with its own tag in place of CTAG. No memory is read yet. -/
def Obligations.LoadsIssue : Prop :=
  (∀ row ∈ loadOffsetRows, ∀ (s s1 : State) (pl : Place) (g : Guard) (d a : Reg) (sz : Size) (off : BitVec 8),
    s.ready g [a] → s.finds (offsetAddr (s.getG a) off sz) (sizeBytes sz) false none s1 pl → hasRoom s.me.st.lqu →
    exec (row.1 g d a sz off) s = .next (s1.pushL (.load d (offsetAddr (s.getG a) off sz) pl sz row.2) d 0).fell) ∧
  (∀ row ∈ loadIndexRows, ∀ (s s1 : State) (pl : Place) (g : Guard) (d a b : Reg) (sz : Size),
    s.ready g [a, b] → s.finds (s.getG a + s.getG b) (sizeBytes sz) false none s1 pl → hasRoom s.me.st.lqu →
    exec (row.1 g d a sz b) s = .next (s1.pushL (.load d (s.getG a + s.getG b) pl sz row.2) d 0).fell) ∧
  (∀ (s s1 : State) (pl : Place) (g : Guard) (d a b : Reg) (sz : Size),
    s.ready g [a, b] → tagValueOk (s.getG b) = true →
    s.finds (s.getG a) (sizeBytes sz) false (some ((s.getG b).setWidth 20)) s1 pl → hasRoom s.me.st.lqu →
    exec (.ldx g d a b sz) s = .next (s1.pushL (.ldx d (s.getG a) pl sz ((s.getG b).setWidth 20)) d 0).fell)

/-- R78, R83, R132: stores join S; a non-temporal store to memory whose type has non-temporal stores joins the buffer of
its line instead, as the issue of its own number. -/
def Obligations.StoresIssue : Prop :=
  (∀ (s s1 : State) (pl : Place) (g : Guard) (d a : Reg) (sz : Size) (off : BitVec 8),
    s.ready g [a, d] → s.finds (offsetAddr (s.getG a) off sz) (sizeBytes sz) true none s1 pl → hasRoom s.me.st.squ →
    let out := s1.pushS (.store (offsetAddr (s.getG a) off sz) pl sz (s.getG d)) 0 0 []
    exec (.stOffset g d a sz off) s = .next out.fell ∧
    ((∀ pa t, pl = .mem pa t → t = tPub ∨ t = tTw ∨ t = tSync) → exec (.stntOffset g d a sz off) s = .next out.fell)) ∧
  (∀ (s s1 : State) (pl : Place) (g : Guard) (d a b : Reg) (sz : Size),
    s.ready g [a, b, d] → s.finds (s.getG a + s.getG b) (sizeBytes sz) true none s1 pl → hasRoom s.me.st.squ →
    let out := s1.pushS (.store (s.getG a + s.getG b) pl sz (s.getG d)) 0 0 []
    exec (.stIndex g d a sz b) s = .next out.fell ∧
    ((∀ pa t, pl = .mem pa t → t = tPub ∨ t = tTw ∨ t = tSync) → exec (.stntIndex g d a sz b) s = .next out.fell)) ∧
  (∀ (s s1 : State) (pa t : Nat) (g : Guard) (d a : Reg) (sz : Size) (off : BitVec 8),
    s.ready g [a, d] → s.finds (offsetAddr (s.getG a) off sz) (sizeBytes sz) true none s1 (.mem pa t) →
    t ≠ tPub → t ≠ tTw → t ≠ tSync → ((s.me.st.ntOpen (canon pa / 64)).isSome = true ∨ s.me.st.nt.length < 8) →
    exec (.stntOffset g d a sz off) s = .next (s1.updSt fun u =>
      u.ntPut (offsetAddr (s.getG a) off sz) (canon pa) t (leBytes (sizeBytes sz) (s.getG d).toNat)).fell) ∧
  (∀ (s s1 : State) (pa t : Nat) (g : Guard) (d a b : Reg) (sz : Size),
    s.ready g [a, b, d] → s.finds (s.getG a + s.getG b) (sizeBytes sz) true none s1 (.mem pa t) →
    t ≠ tPub → t ≠ tTw → t ≠ tSync → ((s.me.st.ntOpen (canon pa / 64)).isSome = true ∨ s.me.st.nt.length < 8) →
    exec (.stntIndex g d a sz b) s = .next (s1.updSt fun u =>
      u.ntPut (s.getG a + s.getG b) (canon pa) t (leBytes (sizeBytes sz) (s.getG d).toNat)).fell)

/-- R217: ZLSET writes one field of a loop set; a STAGES written to the staged set leaves only the stage predicates below it
(R216). ZLE takes effect at once, so the second clause leaves out a live set that is told to end at this very word. R218:
ZLSV joins S with the four doublewords of its set's record; ZLRS joins L and waits, and once its four doublewords are there
it installs the set that they describe, armed or not, an armed one first in arming order, and frozen while a handler runs
(R350). -/
def Obligations.LoopSetWords : Prop :=
  (∀ (s : State) (g : Guard) (l : BitVec 2) (a : Reg), s.ready g [a] →
      let v := s.getG a
      let k := zlIdx l
      let z := s.ctl.getZL k
      (v.toNat % 4 = 0 → v.toNat < 2 ^ 56 →
        exec (.zlset g l .zls a) s = .next (s.updCtl fun c => c.setZL k { z with zls := v }).fell) ∧
      (v.toNat % 4 = 0 → v.toNat < 2 ^ 56 → (z.live = false ∨ v ≠ s.ctl.pc) →
        exec (.zlset g l .zle a) s = .next (s.updCtl fun c => c.setZL k { z with zle := v }).fell) ∧
      (v.toNat < 2 ^ 32 →
        exec (.zlset g l .zlc a) s = .next (s.updCtl fun c => c.setZL k { z with zlc := v.setWidth 32 }).fell) ∧
      (v.toNat ≤ 7 → (v = 0 ∨ z.armed = false ∨ s.ctl.stagedOther k = false) →
        exec (.zlset g l .stages a) s = .next (s.updCtl fun c =>
          { c.setZL k { z with stages := v.setWidth 3 } with
            sp := if z.staged = true then c.sp &&& BitVec.ofNat 8 (2 ^ v.toNat - 1) else c.sp }).fell)) ∧
  ((∀ (s s1 : State) (g : Guard) (l : BitVec 2) (a : Reg) (pls : List Place), s.ready g [a] → pls.length = 4 →
      s.findsAll (s.getG a) true pls s1 → hasRoom s.me.st.squ →
      let z := s.ctl.getZL (zlIdx l)
      let ctlWord := z.zlc.toNat + z.stages.toNat * 2 ^ 32 + (if z.armed then 2 ^ 35 else 0) +
        (if z.armed ∧ z.stages ≠ 0 then s.ctl.sp.toNat * 2 ^ 40 else 0)
      exec (.zlsv g l a) s =
        .next (s1.pushS (.zlsv (s.getG a) pls [z.zls, z.zle, BitVec.ofNat 64 ctlWord, 0]) 0 0 []).fell) ∧
    (∀ (s s1 : State) (g : Guard) (l : BitVec 2) (a : Reg) (pls : List Place), s.ready g [a] → pls.length = 4 →
      s.me.st.zlrec = none → s.findsAll (s.getG a) false pls s1 → hasRoom s.me.st.lqu →
      exec (.zlrs g l a) s = .next ((s1.pushL (.zlrs l (s.getG a) pls) 0 0).updSt fun t =>
        { t with zlrec := some (s.me.st.seq, []) }).stalled) ∧
    (∀ (s : State) (g : Guard) (l : BitVec 2) (a : Reg) (n : Nat) (ws : List Word), s.ready g [a] →
      s.me.st.zlrec = some (n, ws) → ws.length = 4 → zlRecordOk ws = true →
      let z := zlOfRecord ws
      let k := zlIdx l
      (z.armed = false →
        exec (.zlrs g l a) s = .next ((s.updSt fun t => { t with zlrec := none }).updCtl fun c =>
          (c.disarm k).setZL k z).fell) ∧
      (z.armed = true → (z.stages = 0 ∨ s.ctl.stagedOther k = false) → (s.ctl.trp.h = true ∨ z.zle ≠ s.ctl.pc) →
        ∃ c' : Ctl, exec (.zlrs g l a) s = .next (s.updSt fun t => { t with zlrec := none, ctl := c' }).fell ∧
          c'.getZL k = { z with frozen := s.ctl.trp.h } ∧ (∀ j, j ≠ k → c'.getZL j = s.ctl.getZL j) ∧
          c'.order = k :: s.ctl.order.filter (· ≠ k) ∧
          c'.sp = (if z.stages ≠ 0 then BitVec.ofNat 8 ((ws.getD 2 0).toNat / 2 ^ 40) &&& BitVec.ofNat 8 (2 ^ z.stages.toNat - 1)
            else if (s.ctl.getZL k).staged then 0 else s.ctl.sp) ∧
          { c' with zl := s.ctl.zl, order := s.ctl.order, sp := s.ctl.sp } = s.ctl)))

/-- R88, R86: copies, KPUB and streams join K, L and S with the registers that their form reads as they stand. R98, R99: KSTAT
reads KS; KWAIT waits until no more than A commands are outstanding, then reads KS and clears its error fields. (That a KPUB
whose result a rollback has kept still joins K and counts, but as a command that flips nothing, is the model's reading of
R398, log entry 100.) -/
def Obligations.CopyWords : Prop :=
  ((∀ row ∈ copyRows, ∀ (s : State) (g : Guard) (o : CopyOps),
      let n := if row.2.two then 2 else 1
      s.ready g ([o.d, o.a, o.b, o.t] ++ (if row.2.two then [after o.b 1] else []) ++ (if o.x then [after o.b n] else [])) →
      hasRoom s.me.st.kqu →
      exec (row.1 g o) s = .next (s.pushK (.copy row.2 o.x (s.getG o.d) (s.getG o.a) (s.getG o.b)
        (if row.2.two then s.getG (after o.b 1) else 0) (if o.x then s.getG (after o.b n) else 0)) (s.getG o.t)).fell) ∧
    (∀ (s : State) (g : Guard) (o : StreamOps), s.ready g [o.a, o.t] →
      let eb := fun (k : Nat) => s.ctl.getEB (BitVec.ofNat 4 (4 * o.eg.toNat + k))
      (hasRoom s.me.st.lqu →
        exec (.qld g o) s = .next (s.pushL (.qld o.q o.sz (s.getG o.a) (eb 0) (eb 1) (eb 2) (eb 3)) 0 (s.getG o.t)).fell) ∧
      (hasRoom s.me.st.squ →
        exec (.qst g o) s = .next (s.pushS (.qst o.q o.sz (s.getG o.a) (eb 0) (eb 1) (eb 2) (eb 3)) 0 (s.getG o.t) []).fell)) ∧
    (∀ (s : State) (g : Guard) (a t : Reg), s.ready g [a, t] → hasRoom s.me.st.kqu →
      (s.unlogged → exec (.kpub g a t) s = .next (s.pushK (.kpub (s.getG a)) (s.getG t)).fell) ∧
      (¬ s.unlogged → exec (.kpub g a t) s =
        .next ((s.updSt fun u => u.rebind s.ctl.pc).pushK .kpubLogged (s.getG t)).fell))) ∧
  ((∀ (s : State) (g : Guard) (d : Reg), s.ready g [] → exec (.kstat g d) s = .next (s.writeG d s.ctl.ks).fell) ∧
    (∀ (s : State) (g : Guard) (d a : Reg), s.ready g [a] →
      (s.ctl.ksOut.toNat ≤ (s.getG a).toNat → exec (.kwait g d a) s =
        .next ((s.writeG d s.ctl.ks).updCtl fun c => { c with ksErr := 0, ksMore := false, ksErrSeq := 0 }).fell) ∧
      ((s.getG a).toNat < s.ctl.ksOut.toNat → exec (.kwait g d a) s = .next s.stalled)))

/-- R143, R144, R129: an atomic outside the scratchpad window whose checks pass joins S with its operands, its destination
waits, and its order suffix places its gates. -/
def Obligations.AtomicsIssue : Prop :=
  ∀ row ∈ atomicRows, ∀ (s s1 : State) (pl : Place) (g : PGuard) (o : AtomOps),
    s.ctl.pguard g = true → s.me.st.pending (if row.2 = .cas then [o.a, o.b, o.d] else [o.a, o.b]) = false → s.straight →
    s.unlogged → (s.getG o.a).toNat % atomBytes o = 0 → (s.atomicAddr o).toNat < spadBase →
    s.finds (s.atomicAddr o) (atomBytes o) true none s1 pl → hasRoom s.me.st.squ →
    let n := s.me.st.seq
    let gates : List Gate := match o.ord with
      | .rlx => []
      | .acq => [acquireGate n]
      | .rel => [releaseGate n]
      | .ar => [releaseGate n, acquireGate n]
    exec (row.1 g o) s =
      .next (s1.pushS (.atomic row.2 o.d (s.atomicAddr o) pl o.d64 (s.getG o.b) (s.getG o.d) o.sc o.ord) o.d 0 gates).fell

/-- R147 to R153: signals join S behind a release gate; WAIT and BARW go on, with the acquire of their scope, once the
slot's counter has reached the value or its phase is the one named, and stay where they are until then. -/
def Obligations.SignalsAndWaits : Prop :=
  (∀ (s : State) (g : Guard) (a : Reg) (slot : BitVec 10) (sc : Scope), s.ready g [a] → s.unlogged → hasRoom s.me.st.squ →
    let v := (s.getG a).toNat
    (sc ≠ .sys → v < 2 ^ 22 → v / 2 ^ 16 < s.me.st.gang →
      exec (.fadd g a slot sc) s = .next (s.pushS (.fadd slot (s.getG a) sc) 0 0 [releaseGate s.me.st.seq]).fell) ∧
    (sc = .sys → v < 2 ^ 41 → v / 2 ^ 16 % 2 ^ 11 < 1536 → v / 2 ^ 27 ≠ s.pkg →
      exec (.fadd g a slot sc) s = .next (s.pushS (.fadd slot (s.getG a) sc) 0 0 [releaseGate s.me.st.seq]).fell) ∧
    (v < 2 ^ s.me.st.gang →
      exec (.fset g a slot sc) s = .next (s.pushS (.fset slot (s.getG a) sc) 0 0 [releaseGate s.me.st.seq]).fell) ∧
    (v < 64 → v < s.me.st.gang →
      exec (.barv g a slot sc) s = .next (s.pushS (.barv slot (s.getG a) sc) 0 0 [releaseGate s.me.st.seq]).fell)) ∧
  (∀ (s : State) (g : Guard) (a : Reg) (slot : BitVec 10), s.ready g [a, after a 1] → s.unlogged → hasRoom s.me.st.squ →
    (s.getG a).toNat < 2 ^ 16 → (s.getG (after a 1)).toNat < 2 ^ s.me.st.gang →
    exec (.barinit g a slot) s = .next (s.pushS (.barinit slot (s.getG a) (s.getG (after a 1))) 0 0 []).fell) ∧
  (∀ (s : State) (g : Guard) (a : Reg) (slot : BitVec 10) (sc : Scope), s.ready g [a] →
    let v := (s.getG a).toNat
    let x := s.slot s.me.st.node s.me.st.idx slot.toNat
    (v < 2 ^ 32 → exec (.wait g a slot sc) s = (if v ≤ x.value.toNat then .next (s.acquired sc).fell else .next s.stalled)) ∧
    (v < 256 → exec (.barw g a slot sc) s = (if x.phase.toNat = v then .next (s.acquired sc).fell else .next s.stalled)))

/-- R124 to R133: MARK, SBAR and FENCE put a marker in each queue they order and place their gate behind it; DRAINNT and
CINV join S and L. -/
def Obligations.OrderWords : Prop :=
  (∀ (s : State) (g : Guard), s.ready g [] → hasRoom s.me.st.lqu → hasRoom s.me.st.squ →
    exec (.mark g) s = .next (s.marked [.l, .sq]
      [⟨s.me.st.seq + 1, [.load, .store, .atomic], [.load, .store, .atomic], false⟩]).fell) ∧
  (∀ (s : State) (g : Guard), s.ready g [] → hasRoom s.me.st.lqu → hasRoom s.me.st.squ → hasRoom s.me.st.kqu →
    let n := s.me.st.seq + 1
    (∀ stm, exec (.sbar g stm) s = .next (s.marked [.l, .sq, .k] [match stm with
      | .sr => ⟨n, [.winRead], [.winWrite, .kcmd], false⟩
      | .sw => ⟨n, [.winWrite], [.winRead, .winWrite, .kcmd], false⟩
      | .m => ⟨n, [.outside], [.outside, .kcmd], false⟩]).fell) ∧
    (∀ sc ord, exec (.fence g sc ord) s = .next (s.marked [.l, .sq, .k] (fenceGates sc ord n)).fell)) ∧
  (∀ (s : State) (g : Guard) (sc : Scope), s.ready g [] → hasRoom s.me.st.squ →
    exec (.drainnt g sc) s = .next (s.pushS (.drainnt sc) 0 0 []).fell) ∧
  (∀ (s : State) (g : Guard), s.ready g [] → hasRoom s.me.st.lqu → exec (.cinv g) s = .next (s.pushL .cinv 0 0).fell)

/-- R158, R159, R166, R170: tags. TSET and TGET move CTAG; TALLOC, TRETIRE and TSTAT join S. -/
def Obligations.TagWords : Prop :=
  (∀ (s : State) (g : Guard) (a : Reg), s.ready g [a] → tagValueOk (s.getG a) = true →
    exec (.tset g a) s = .next (s.updCtl fun c => { c with ctag := (s.getG a).setWidth 20 }).fell) ∧
  (∀ (s : State) (g : Guard) (d : Reg), s.ready g [] →
    exec (.tget g d) s = .next (s.writeG d (s.ctl.ctag.setWidth 64)).fell) ∧
  (∀ (s : State) (g : Guard) (d : Reg), s.ready g [] → s.unlogged → hasRoom s.me.st.squ →
    exec (.talloc g d) s = .next (s.pushS (.talloc d) d 0 []).fell) ∧
  (∀ (s : State) (g : Guard) (a : Reg), s.ready g [a] → s.unlogged → hasRoom s.me.st.squ → tagValueOk (s.getG a) = true →
    (s.getG a).toNat % 65536 ≠ 0 →
    exec (.tretire g a) s = .next (s.pushS (.tretire ((s.getG a).setWidth 20)) 0 0 [releaseGate s.me.st.seq]).fell) ∧
  (∀ (s : State) (g : Guard) (d a : Reg), s.ready g [a] → s.unlogged → hasRoom s.me.st.squ → tagValueOk (s.getG a) = true →
    exec (.tstat g d a) s = .next (s.pushS (.tstat d ((s.getG a).setWidth 20)) d 0 []).fell)

/-- R178, R182, R183: FORK puts a block into V or M with the bound registers and CTAG as they stand; on a V-cluster a
FORK of M is an illegal encoding. -/
def Obligations.ForkQueues : Prop :=
  ∀ (s : State) (g : Guard) (blk : BitVec 20), s.ready g [] →
    let b := fun (table : List (Nat × Nat)) => (⟨s.me.st.seq, s.ctl.pc, blk.toNat, blockLen table blk.toNat, s.ctl.eb, s.ctl.ctag⟩ : Block)
    (s.me.st.vqu.length < Config.queueDepth →
      exec (.fork g false blk) s = .next (s.updSt fun t =>
        { t with vqu := t.vqu ++ [b t.code.vblocks], seq := t.seq + 1 }).fell) ∧
    (s.me.st.vkind = false → s.me.st.mqu.length < Config.queueDepth →
      exec (.fork g true blk) s = .next (s.updSt fun t =>
        { t with mqu := t.mqu ++ [b t.code.mblocks], seq := t.seq + 1 }).fell) ∧
    (s.me.st.vkind = true → exec (.fork g true blk) s = trap .illEnc s)

/-- R190 to R192: RDV goes on once every engine it names is idle and holds no deferred record; it delivers the first
record of the first named engine that holds one, which leaves its engine and becomes a trap at the RDV. -/
def Obligations.Rendezvous : Prop :=
  ∀ (s : State) (g : Guard) (em : EMask), s.ready g [] →
    (s.me.st.firstTrap em engOrder = none → (∀ e ∈ engOrder, named em e = true → s.me.st.engineIdle e = true) →
      exec (.rdv g em) s = .next s.fell.commitIdle) ∧
    (s.me.st.firstTrap em engOrder = none → (∃ e ∈ engOrder, named em e = true ∧ s.me.st.engineIdle e = false) →
      exec (.rdv g em) s = .next s.stalled) ∧
    (∀ r, s.me.st.firstTrap em engOrder = some r →
      exec (.rdv g em) s = .next ((s.updSt fun t =>
        { t with traps := t.traps.erase r, ctl := { t.ctl with trp := { t.ctl.trp with pend := none } } }).trapEntry r))

/-- R187, R190, R342, R353, R100: EBSET and EBGET, TKSET and TKGET, STRID and NODEID move one register of the control
state, NOP does nothing, and DONE sets the mark under which the control sequencer issues no more. On a V-cluster TKGET reads 0
of the queues that it does not have (R188). (That DONE stands as a stall at its own PC until its strand finishes is the model's
reading, log entry 81.) -/
def Obligations.ControlRegisters : Prop :=
  ∀ (s : State) (g : Guard) (x : Reg) (n : BitVec 4),
    (s.ready g [x] →
      exec (.ebset g x n) s = .next (s.updCtl fun c => { c with eb := c.eb.set n.toNat (s.getG x) n.isLt }).fell ∧
      ((n = 13 ∨ n = 15 ∨ (n = 14 ∧ s.me.st.vkind = false)) → (s.getG x).toNat ≤ 65535 →
        (s.ctl.getTok n).toNat + (s.getG x).toNat ≤ 65535 →
        exec (.tkset g x n) s = .next (s.updCtl fun c =>
          { c with tok := c.tok.set n.toNat (c.getTok n + (s.getG x).setWidth 16) n.isLt }).fell)) ∧
    (s.ready g [] →
      exec (.ebget g x n) s = .next (s.writeG x (s.ctl.eb.get ⟨n.toNat, n.isLt⟩)).fell ∧
      (s.me.st.vkind = false ∨ n ∉ [1, 3, 5, 6, 7, 12, 14] →
        exec (.tkget g x n) s = .next (s.writeG x ((s.ctl.getTok n).setWidth 64)).fell) ∧
      (s.me.st.vkind = true → n ∈ [1, 3, 5, 6, 7, 12, 14] → exec (.tkget g x n) s = .next (s.writeG x 0).fell) ∧
      exec (.strid g x) s = .next (s.writeG x (BitVec.ofNat 64 (s.me.st.idx % 64))).fell ∧
      exec (.nodeid g x) s =
        .next (s.writeG x (BitVec.ofNat 64 (s.me.st.node % 2 ^ 18 + s.me.st.stream % 2 ^ 16 * 2 ^ 32))).fell ∧
      exec (.nop g) s = .next s.fell) ∧
    (s.ctl.guard g = true →
      exec (.done g) s = .next { s.stalled with me := { s.stalled.me with st := { s.stalled.me.st with finish := true } } })

/-- R206, R215, R207: where a transfer traps: a misaligned target, then one outside the control area, then a transfer
that ends an armed loop. BR, CALL and RET alike, and a BRQ that would be taken. R83, R75: where a scalar access traps
before any translation: an address beyond 56 bits, then a misaligned one. R190, R188: TKSET on a queue that software may
not push, or with a count above 65,535, traps TOK_ARG with the queue in INFO16; one that would overflow the count traps
TOK_OVF. (That the target is judged before the end of a loop, where R222 gives both, is the model's reading, log entry 15.) -/
def Obligations.WordTraps : Prop :=
  (∀ (s : State) (g : Guard) (t : BitVec 3), s.ctl.guard g = true →
      let T := s.ctl.getBT t
      let bad : Option Cause :=
        if T.toNat % 4 ≠ 0 then some .brAlign
        else if s.me.st.code.holds T = false then some .brRange
        else if s.ctl.atEnd s.ctl.pc then some .zlEnd
        else none
      ∀ c, bad = some c →
        exec (.br g t) s = trap c s ∧ exec (.call g t) s = trap c s ∧
        (s.me.st.pending [31] = false → s.getG 31 = T → exec (.ret g) s = trap c s) ∧
        (∀ sense, s.ctl.cq.head? = some sense → exec (.brq g t sense) s = trap c s)) ∧
  (∀ (s : State) (g : Guard) (d a : Reg) (sz : Size) (off : BitVec 8), s.ctl.guard g = true → s.me.st.pending [a, d] = false →
      let ea := offsetAddr (s.getG a) off sz
      let same := fun (o : Out) =>
        exec (.ldOffset g d a sz off) s = o ∧ exec (.ldcOffset g d a sz off) s = o ∧
        exec (.stOffset g d a sz off) s = o ∧ exec (.stntOffset g d a sz off) s = o
      (2 ^ 56 ≤ ea.toNat → same (trapAt .trNc ea s)) ∧
      (ea.toNat < 2 ^ 56 → ea.toNat % sizeBytes sz ≠ 0 → same (trapAt .misalign ea s))) ∧
  (∀ (s : State) (g : Guard) (x : Reg) (n : BitVec 4), s.ctl.guard g = true → s.me.st.pending [x] = false →
      let v := (s.getG x).toNat
      ((n.toNat < 13 ∨ (n = 14 ∧ s.me.st.vkind = true) ∨ 65535 < v) →
        exec (.tkset g x n) s = trapInfo .tokArg (n.setWidth 16) s) ∧
      ((n = 13 ∨ n = 15 ∨ (n = 14 ∧ s.me.st.vkind = false)) → v ≤ 65535 → 65535 < (s.ctl.getTok n).toNat + v →
        exec (.tkset g x n) s = trapInfo .tokOvf (n.setWidth 16) s))

/-- R336, R341, R340: LAUNCH and PRIO join S, LAUNCH behind a release gate; YIELD on idle engines without a record writes
1 and leaves where its interface is sliced and another node may take the cluster, and writes 0 otherwise. (That it writes 0
also where a node waits but the gang may not leave now is the model's reading, log entry 103.) -/
def Obligations.ScheduleWords : Prop :=
  (∀ (s : State) (g : Guard) (d a b : Reg), s.ready g [a, b] → s.unlogged → hasRoom s.me.st.squ → (s.getG a).toNat < 16 →
    exec (.launch g d a b) s =
      .next (s.pushS (.launch d ((s.getG a).setWidth 4) (s.getG b)) d 0 [releaseGate s.me.st.seq]).fell) ∧
  (∀ (s : State) (g : Guard) (d a : Reg), s.ready g [a] → s.unlogged → hasRoom s.me.st.squ → (s.getG a).toNat ≤ 63 →
    exec (.prio g d a) s = .next (s.pushS (.prio d (s.getG a)) d 0 []).fell) ∧
  (∀ (s : State) (g : Guard) (d : Reg), s.ready g [] → s.me.st.firstTrap EMask.all engOrder = none →
    (∀ e ∈ engOrder, s.me.st.engineIdle e = true) →
    exec (.yield g d) s =
      (if (s.vi s.me.st.vi).sliced = true ∧ s.yieldsTo = true ∧ s.switchable = true
       then .next (s.writeG d 1).fell.commitIdle.leaveGang else .next (s.writeG d 0).fell.commitIdle))

/-- R345, R354, R363: CSRR reads a strand CSR; CSRW and CSRS write the writable bits of one, CSRS setting bits; MPROG takes
no write; a number that no strand CSR has is an illegal encoding, and a host register's number is CSR_ACC, for each of the
three words. -/
def Obligations.CsrWords : Prop :=
  (∀ (s : State) (g : Guard) (x : Reg) (n : BitVec 16), s.ctl.guard g = true → s.me.st.pending [x] = false →
    let same := fun (c : Cause) =>
      exec (.csrr g x n) s = trap c s ∧ exec (.csrw g x n) s = trap c s ∧ exec (.csrs g x n) s = trap c s
    (n.toNat < 0x8000 → s.csr n.toNat = none → same .illEnc) ∧ (0x8000 ≤ n.toNat → same .csrAcc)) ∧
  ∀ (s : State) (g : Guard) (x : Reg) (n : BitVec 16) (old : Word), n.toNat < 0x8000 → s.csr n.toNat = some old →
    (s.ready g [] → exec (.csrr g x n) s = .next (s.writeG x old).fell) ∧
    (s.ready g [x] →
      (n = 0x0010 → exec (.csrw g x n) s = .next s.fell ∧ exec (.csrs g x n) s = .next s.fell) ∧
      (n ≠ 0x0010 →
        let allowed := fun (v : Word) => (old ^^^ v) &&& ~~~(csrWritable n.toNat) = 0 ∧ v &&& csrZero n.toNat = 0
        (allowed (s.getG x) → exec (.csrw g x n) s = .next (s.setCsr n.toNat (s.getG x)).fell) ∧
        (¬ allowed (s.getG x) → exec (.csrw g x n) s = trap .csrAcc s) ∧
        (allowed (old ||| s.getG x) → exec (.csrs g x n) s = .next (s.setCsr n.toNat (old ||| s.getG x)).fell) ∧
        (¬ allowed (old ||| s.getG x) → exec (.csrs g x n) s = trap .csrAcc s)))

/-- R366 to R368: SWPT goes to the target that its switch record names for the power level granted; PWRQ reads an item;
PWREQ asks for a level, yields the one asked for before, and logs that result. -/
def Obligations.PowerWords : Prop :=
  (∀ (s : State) (g : Guard) (k : BitVec 6), s.ctl.guard g = true →
    let t := s.me.st.code.switchTo k s.grant
    s.enters t → exec (.swpt g k) s = .next ((s.updCtl fun c => c.leave t c.order).went t)) ∧
  (∀ (s : State) (g : Guard) (x : Reg) (k : BitVec 6), s.ready g [] → k.toNat ≤ 6 →
    exec (.pwrq g x k) s = .next (s.writeG x (s.pwrItem k.toNat)).fell) ∧
  (∀ (s : State) (g : Guard) (x : Reg) (k : BitVec 6), s.ready g [] → s.unlogged → k.toNat ≤ 2 →
    let old : Word := s.ctl.pwrReq.setWidth 64
    exec (.pwreq g x k) s = .next (((s.writeG x old).updCtl fun c => { c with pwrReq := k.setWidth 2 }).updSt
      fun t => t.logged s.ctl.pc (some (x, old))).fell)

/-- R371 to R385: the collective words. QARM, QPOST and QABORT join S behind a release gate, QSTAT without one; QWAIT goes on
once every S entry has been performed and the collective has stopped or passed the bucket, with its status in D. -/
def Obligations.CollectiveWords : Prop :=
  (∀ (s : State) (g : Guard) (d a : Reg), s.ready g [a] → s.unlogged → hasRoom s.me.st.squ →
    exec (.qarm g d a) s = .next (s.pushS (.qarm d (s.getG a)) d 0 [releaseGate s.me.st.seq]).fell ∧
    (handleOk (s.getG a) = true →
      exec (.qabort g d a) s = .next (s.pushS (.qabort d (s.getG a)) d 0 [releaseGate s.me.st.seq]).fell ∧
      exec (.qstat g d a) s = .next (s.pushS (.qstat d (s.getG a)) d 0 []).fell)) ∧
  (∀ (s : State) (g : Guard) (d a b : Reg), s.ready g [a, b] → s.unlogged → hasRoom s.me.st.squ →
    handleOk (s.getG a) = true →
    exec (.qpost g d a b) s = .next (s.pushS (.qpost d (s.getG a) (s.getG b)) d 0 [releaseGate s.me.st.seq]).fell) ∧
  (∀ (s : State) (g : Guard) (d a b : Reg), s.ready g [a, b] → handleOk (s.getG a) = true →
    let now := (∀ e ∈ s.me.st.squ, e.stage = .performed) ∧ s.collPast (s.getG a) (s.getG b) = true
    (now → exec (.qwait g d a b) s = .next ((s.writeG d (s.collStatus (s.getG a))).acquired .pkg).fell) ∧
    (¬ now → exec (.qwait g d a b) s = .next s.stalled))

/-- R343, R346 to R350: TRAP, BRK and a reserved word enter the trap of their cause; a word that ends an armed loop
traps ZL_END instead of TRAP or BRK. -/
def Obligations.TrapWords : Prop :=
  (∀ (s : State) (g : Guard) (v : BitVec 16), s.ctl.guard g = true →
    (s.ctl.atEnd s.ctl.pc = false →
      exec (.trap g v) s = .next (s.trapEntry { TrapRec.precise .user s.ctl.pc with info16 := v }) ∧
      exec (.brk g v) s = .next (s.trapEntry { TrapRec.precise .brk s.ctl.pc with info16 := v })) ∧
    (s.ctl.atEnd s.ctl.pc = true → exec (.trap g v) s = trap .zlEnd s ∧ exec (.brk g v) s = trap .zlEnd s)) ∧
  (∀ (s : State) (w : BitVec 32), exec (.illegalEncoding w) s = .next (s.trapEntry (TrapRec.precise .illEnc s.ctl.pc)))

/-- R348 to R350: a trap that the strand's own handler takes leaves the word unretired: the trap registers describe it,
TRP_EPC holds the word's address, or the next word's after TRAP and BRK, H is set, armed sets are frozen, and PC is the
handler's address. R348, R351: any other trap stops the gang: every running strand of the node leaves its cluster, the
node names the strand that trapped, and the trap registers describe the trap with PC at TRP_EPC. -/
def Obligations.TrapEntry : Prop :=
  (∀ (s : State) (r : TrapRec), s.me.st.userHandles r.cause = true →
      let t := s.trapEntry r
      let x := t.ctl.trp
      t.ctl.pc = s.ctl.trp.hvec &&& ~~~3 ∧ x.h = true ∧ x.cause = r.word ∧ x.addr = r.addr ∧ x.waddr = r.waddr ∧
      x.info = r.info ∧ x.aux = r.aux ∧
      x.epc = (if r.cause = .user ∨ r.cause = .brk then s.ctl.pc + 4 else s.ctl.pc) ∧
      x.hvec = s.ctl.trp.hvec ∧ x.hen = s.ctl.trp.hen ∧ x.scr0 = s.ctl.trp.scr0 ∧ x.scr1 = s.ctl.trp.scr1 ∧
      (∀ l, (t.ctl.getZL l).armed = (s.ctl.getZL l).armed ∧
        ((s.ctl.getZL l).armed = true → (t.ctl.getZL l).frozen = true)) ∧
      (∀ d, t.getG d = s.getG d) ∧ t.ctl.p = s.ctl.p ∧ t.mem = s.mem ∧ t.me.status = s.me.status ∧ t.disp = s.disp) ∧
  (∀ (s : State) (r : TrapRec), s.me.st.userHandles r.cause = false → s.me.status = .running →
      let t := s.trapEntry r
      t.me.status = .leaving ∧ t.ctl.trp.cause = r.word ∧ t.ctl.trp.addr = r.addr ∧ t.ctl.trp.waddr = r.waddr ∧
      t.ctl.trp.h = s.ctl.trp.h ∧
      t.ctl.trp.epc = (if r.cause = .user ∨ r.cause = .brk then s.ctl.pc + 4 else s.ctl.pc) ∧ t.ctl.pc = t.ctl.trp.epc ∧
      (∀ d, t.getG d = s.getG d) ∧ t.mem = s.mem ∧
      (∀ c ∈ t.peers, c.st.vi = s.me.st.vi → c.st.node = s.me.st.node → c.status ≠ .running) ∧
      (∀ n ∈ t.disp.nodes, n.slot = s.me.st.node → n.trapped ≠ none))

/-- R353: ERET of a strand that runs its handler goes to TRP_EPC with H clear and every loop set live again; with a TRP_EPC
that is misaligned, or else outside the control area, it traps BR_ALIGN or BR_RANGE (R206); outside a handler it traps
CSR_ACC. -/
def Obligations.TrapReturn : Prop :=
  ∀ (s : State) (g : Guard), s.ctl.guard g = true →
    (s.ctl.trp.h = false → exec (.eret g) s = trap .csrAcc s) ∧
    (s.ctl.trp.h = true → s.ctl.trp.epc.toNat % 4 ≠ 0 → exec (.eret g) s = trap .brAlign s) ∧
    (s.ctl.trp.h = true → s.ctl.trp.epc.toNat % 4 = 0 → s.me.st.code.holds s.ctl.trp.epc = false →
      exec (.eret g) s = trap .brRange s) ∧
    (s.ctl.trp.h = true → s.ctl.trp.epc.toNat % 4 = 0 → s.me.st.code.holds s.ctl.trp.epc = true →
      ∃ t, exec (.eret g) s = .next t ∧ t.ctl.pc = s.ctl.trp.epc ∧ t.ctl.trp = { s.ctl.trp with h := false } ∧
        (∀ l, t.ctl.getZL l = { s.ctl.getZL l with frozen := false }) ∧ t.ctl.order = s.ctl.order ∧
        (∀ d, t.getG d = s.getG d) ∧ t.ctl.p = s.ctl.p ∧ t.mem = s.mem)

/-- R244, R249 to R251, R263, R236: an elementwise word writes to D, in every selected lane, each element's exact value
rounded once, under rsr with the draw of that element; its generators step once for every element they draw for and no
other. VSACC adds a × 2^(b + imm) to d (the exponent is held within ±1,000, beyond which F32 results do not depend on it). -/
def Obligations.VectorElements : Prop :=
  (∀ row ∈ elemRows, ∀ (s : State) (f : VFields) (r : Run) (s1 : State),
    let fm := rowShape f.fmt f.fmt (lanesOf s.me.st.vkind)
    s.vGoes f fm r s1 →
    let x := s1.vSees f fm r
    let rd := row.2.2.1 f
    ∃ (out : List Nat) (g : Sp Lane), exec (row.1 f) s = .next (s1.vGives f fm r (x.gives out g)) ∧ out.length = x.w ∧
      (∀ l, l < x.w → out.getD l 0 =
        if x.sel.getLsbD l then laneFrom f.fmt fun i =>
          row.2.2.2.2 f (cvt (row.2.1 f x (elemIn f.fmt i (x.a.pat l)) (elemIn f.fmt i (x.b.pat l)) (elemIn f.fmt i (x.d.pat l)))
            f.fmt rd (row.2.2.2.1 f) (drawFor rd x.v.gens x.idx l i))
        else 0) ∧
      ∀ l, genAt g x.idx l = if rd = .rsr ∧ l < x.w ∧ x.sel.getLsbD l = true
        then genAfter (elemsPerLane f.fmt) (genAt x.v.gens x.idx l) else genAt x.v.gens x.idx l) ∧
  (∀ (s : State) (f : VFields) (r : Run) (s1 : State), f.fmt = .f32 →
    let fm := rowShape f.fmt f.fmt (lanesOf s.me.st.vkind)
    s.vGoes f fm r s1 →
    let x := s1.vSees f fm r
    ∃ (out : List Nat) (g : Sp Lane), exec (.vsacc f) s = .next (s1.vGives f fm r (x.gives out g)) ∧ out.length = x.w ∧
      (∀ l, l < x.w → out.getD l 0 =
        if x.sel.getLsbD l then
          cvt (Val.add (decodeFmt .f32 (x.d.pat l % 2 ^ 32)) ((decodeFmt .f32 (x.a.pat l % 2 ^ 32)).scale
            (clampExp (sextNat (x.b.pat l % 2 ^ 32) 32 + sextNat f.mod.toNat 10))) f.rnd).toX .f32 f.rnd f.ovf
            (drawFor f.rnd x.v.gens x.idx l 0) % 2 ^ 32
        else 0) ∧
      ∀ l, genAt g x.idx l = if f.rnd = .rsr ∧ l < x.w ∧ x.sel.getLsbD l = true
        then genStep (genAt x.v.gens x.idx l) else genAt x.v.gens x.idx l)

/-- R252, R256, R258: logic, shifts and moves act on every element's bits; VSEL, VBCAST and VPERM choose lanes. -/
def Obligations.VectorBits : Prop :=
  (∀ row ∈ bitRows, ∀ (s : State) (f : VFields) (r : Run) (s1 : State),
    let fm := rowShape f.fmt f.fmt (lanesOf s.me.st.vkind)
    s.vGoes f fm r s1 →
    let x := s1.vSees f fm r
    ∃ out : List Nat, exec (row.1 f) s = .next (s1.vGives f fm r (x.gives out x.v.gens)) ∧ out.length = x.w ∧
      ∀ l, l < x.w → out.getD l 0 =
        if x.sel.getLsbD l then laneFrom f.fmt fun i => row.2 f.fmt (elemIn f.fmt i (x.a.pat l)) (elemIn f.fmt i (x.b.pat l)) else 0) ∧
  (∀ (s : State) (f : VFields) (r : Run) (s1 : State),
    let fm := rowShape f.fmt f.fmt (lanesOf s.me.st.vkind)
    s.vGoes f fm r s1 →
    let x := s1.vSees f fm r
    exec (.vsel f) s = .next (s1.vGives f fm r { x.gives
      ((List.range x.w).map fun l => if x.sel.getLsbD l then x.a.pat l else x.b.pat l) x.v.gens with every := true }) ∧
    (f.mod.toNat % 256 < lanesOf s.me.st.vkind →
      exec (.vbcast f) s = .next (s1.vGives f fm r (x.gives (List.replicate x.w (x.a.pat (f.mod.toNat % 256))) x.v.gens)))) ∧
  (∀ (s : State) (f : VFields) (r : Run) (s1 : State),
    let fm := rowShape .f32 .f32 (lanesOf s.me.st.vkind)
    s.vGoes f fm r s1 →
    let x := s1.vSees f fm r
    (f.mod.getLsbD 0 = false →
      exec (.vperm f) s = .next (s1.vGives f fm r (x.gives ((List.range x.w).map fun l => x.a.pat (x.b.pat l % x.w)) x.v.gens))) ∧
    (f.mod.getLsbD 0 = true → s.me.st.vkind = true →
      exec (.vperm f) s = .next (s1.vGives f fm r (x.gives ((List.range x.w).map fun l =>
        let i := x.b.pat l
        if i < 65536 ∧ i % 256 < x.w then (x.v.lane (i / 256) (i % 256)).toNat else 0) x.v.gens))))

/-- R253, R254: VCVT converts the element at the bottom of each selected lane; VPACK packs elements of consecutive rows
from bit 0 upward into one row or into a store queue; VUNPACK is its inverse. -/
def Obligations.VectorConversions : Prop :=
  (∀ (s : State) (f : VFields) (r : Run) (s1 : State),
    let w := lanesOf s.me.st.vkind
    let fm := { rowShape f.fmt2 f.fmt w with nb := 1, bb := 4 * w }
    s.vGoes f fm r s1 →
    let x := s1.vSees f fm r
    ∃ (out : List Nat) (g : Sp Lane), exec (.vcvt f) s = .next (s1.vGives f fm r (x.gives out g)) ∧ out.length = x.w ∧
      (∀ l, l < x.w → out.getD l 0 =
        if x.sel.getLsbD l then
          toStore f.fmt (withSelector f.fmt (cvtVal (decodeFmt f.fmt2 (ofStore f.fmt2 (x.a.pat l))) f.fmt f.rnd f.ovf |>
            fun p => if f.rnd = .rsr then cvt (decodeFmt f.fmt2 (ofStore f.fmt2 (x.a.pat l))).toX f.fmt .rsr f.ovf
              (drawFor .rsr x.v.gens x.idx l 0) else p) (f.mod.getLsbD 0 && decide (x.b.pat l % 2 = 1)))
        else 0) ∧
      ∀ l, genAt g x.idx l = if f.rnd = .rsr ∧ l < x.w ∧ x.sel.getLsbD l = true
        then genStep (genAt x.v.gens x.idx l) else genAt x.v.gens x.idx l) ∧
  (∀ (s : State) (f : VFields) (r : Run) (s1 : State),
    let w := lanesOf s.me.st.vkind
    let p := packBytes f.fmt w
    let fm := { rowShape .f32 .f32 w with na := packRows f.fmt, bd := p }
    s.vGoes f fm r s1 →
    let x := s1.vSees f fm r
    let elems := (List.range (packRows f.fmt)).flatMap fun k => x.v.row x.w (x.ra + k)
    let img := leBytes p (packNat (fmtWidth f.fmt) elems)
    exec (.vpack f) s = .next (s1.vGives f fm r (match f.dd with
      | .sq _ => { x.sets x.v false with raw := img }
      | _ => { x.sets x.v false with rows := [(0, bytesToLanes 4 x.w (img ++ List.replicate (4 * x.w - p) 0))] })) ∧
    ∀ k, k < elems.length → fmtWidth f.fmt * elems.length ≤ 8 * p →
      leNat img / 2 ^ (fmtWidth f.fmt * k) % 2 ^ fmtWidth f.fmt = elems.getD k 0 % 2 ^ fmtWidth f.fmt) ∧
  (∀ (s : State) (f : VFields) (r : Run) (s1 : State),
    let w := lanesOf s.me.st.vkind
    let n := packRows f.fmt
    let fm := { rowShape .f32 .f32 w with nd := n, ba := packBytes f.fmt w }
    s.vGoes f fm r s1 →
    let x := s1.vSees f fm r
    let img := leNat (if opIsQueue f.da then x.bytes else (lanesToBytes 4 (x.v.row x.w x.ra)).take (packBytes f.fmt w))
    ∃ rows : List (List Nat), exec (.vunpack f) s = .next (s1.vGives f fm r
        { x.sets x.v false with rows := (List.range n).zip rows }) ∧ rows.length = n ∧
      ∀ k l, k < n → l < x.w →
        (rows.getD k []).getD l 0 = img / 2 ^ (fmtWidth f.fmt * (k * x.w + l)) % 2 ^ fmtWidth f.fmt)

/-- R255 to R257: VCMP sets a lane mask from the selected lanes and VMOP combines masks or turns one into lanes; a CQ code
pushes whether any, or every, lane that counts is set. -/
def Obligations.VectorMasks : Prop :=
  (∀ (s : State) (f : VFields) (r : Run) (s1 : State),
    let code := f.mod.toNat / 256 % 4
    let fm := { rowShape f.fmt f.fmt (lanesOf s.me.st.vkind) with hasD := false, pushes := decide (code ≠ 0) }
    s.vGoes f fm r s1 →
    let x := s1.vSees f fm r
    ∃ m : BitVec 256, exec (.vcmp f) s = .next (s1.vGives f fm r
        (x.sets (x.v.setVm (f.mod.extractLsb' 10 3) m) (if code = 1 then decide (m ≠ 0) else decide (m = x.sel)))) ∧
      ∀ l, l < 256 → (m.getLsbD l = true ↔ l < x.w ∧ x.sel.getLsbD l = true ∧
        let c := Val.cmp (x.a.val f.fmt (x.a.pat l)) (x.b.val f.fmt (x.b.pat l))
        match f.mod.toNat / 8192 with
        | 0 => c = some .eq
        | 1 => c ≠ some .eq
        | 2 => c = some .lt
        | 3 => c = some .lt ∨ c = some .eq
        | _ => c = none)) ∧
  (∀ (s : State) (f : VFields) (r : Run) (s1 : State),
    let fn := f.mod.toNat / 4096
    let code := f.mod.toNat / 2 % 4
    let fm := { rowShape .f32 .f32 (lanesOf s.me.st.vkind) with hasD := decide (fn = 9 ∨ fn = 10), pushes := decide (code ≠ 0) }
    s.vGoes f fm r s1 →
    let x := s1.vSees f fm r
    let ma := x.v.getVm (f.mod.extractLsb' 6 3)
    let mb := x.v.getVm (f.mod.extractLsb' 3 3)
    let all := allLanes x.w
    let truth := fun (m : BitVec 256) => if code = 1 then decide (m ≠ 0) else decide (m = all)
    let sets := fun (m : BitVec 256) => exec (.vmop f) s = .next (s1.vGives f fm r
      (x.sets (x.v.setVm (f.mod.extractLsb' 9 3) m) (truth m)))
    let rows := fun (out : List Nat) => exec (.vmop f) s = .next (s1.vGives f fm r
      { x.gives out x.v.gens with every := true, truth := truth ma })
    (fn = 0 → sets (ma &&& mb)) ∧ (fn = 1 → sets (ma ||| mb)) ∧ (fn = 2 → sets (ma ^^^ mb)) ∧ (fn = 3 → sets (ma &&& ~~~mb)) ∧
    (fn = 4 → sets (~~~ma &&& all)) ∧ (fn = 5 → sets all) ∧ (fn = 6 → sets 0) ∧
    (fn = 7 → ∃ m : BitVec 256, sets m ∧
      ∀ l, l < 256 → (m.getLsbD l = true ↔ l < x.w ∧ ma.getLsbD l = true ∧ ∀ j, j < l → ma.getLsbD j = false)) ∧
    (fn = 8 → ∃ m : BitVec 256, sets m ∧ ∀ l, l < 256 → (m.getLsbD l = true ↔ l < x.w ∧ x.a.pat l ≠ 0)) ∧
    (fn = 9 → rows ((List.range x.w).map fun l => (ma.getLsbD l).toNat)) ∧
    (fn = 10 → rows ((List.range x.w).map fun l =>
      if l = 0 then ((List.range x.w).filter fun l => ma.getLsbD l).length else 0)))

/-- R259, R260 to R262, R264: reductions and scans give the combination of the selected lanes (the blocked sum of R238,
or the smallest or largest value, rounded once), VDEFER and VDRAIN move records through the deferral queue oldest first,
and VSEED sets generators. -/
def Obligations.VectorAcrossLanes : Prop :=
  (∀ (s : State) (f : VFields) (r : Run) (s1 : State),
    let fm := rowShape f.fmt f.fmt (lanesOf s.me.st.vkind)
    s.vGoes f fm r s1 →
    let x := s1.vSees f fm r
    let terms := fun (n : Nat) => (List.range n).map fun l => if x.sel.getLsbD l then some (decodeFmt f.fmt (x.a.pat l)) else none
    (∃ (p : Nat) (g : Sp Lane), exec (.vred f) s = .next (s1.vGives f fm r
        { x.gives (p :: List.replicate (x.w - 1) 0) g with every := true }) ∧
      (f.mod.toNat % 4 = 0 →
        let q := sumBlocks (terms x.w) (blockCount x.w) none 0 f.fmt f.rnd f.ovf x.idx 0 x.v.gens true
        p = cvtVal (q.1.getD (.fin false 0 0)) f.fmt .rne .wrap ∧ g = q.2) ∧
      (f.mod.toNat % 4 ≠ 0 → p = cvtVal (extreme (decide (f.mod.toNat % 4 = 2)) (terms x.w)) f.fmt .rne .wrap ∧ g = x.v.gens)) ∧
    (f.mod.toNat % 4 ≠ 0 →
      exec (.vscan f) s = .next (s1.vGives f fm r (x.gives ((List.range x.w).map fun l =>
        if x.sel.getLsbD l then cvtVal (extreme (decide (f.mod.toNat % 4 = 2)) (terms (l + 1))) f.fmt .rne .wrap else 0) x.v.gens))) ∧
    (f.mod.toNat % 4 = 0 →
      let q := fun (l : Nat) => sumBlocks (terms (l + 1)) (blockCount (l + 1)) none 0 f.fmt f.rnd f.ovf x.idx l x.v.gens true
      ∃ g : Sp Lane, exec (.vscan f) s = .next (s1.vGives f fm r (x.gives ((List.range x.w).map fun l =>
          if x.sel.getLsbD l then cvtVal ((q l).1.getD (.fin false 0 0)) f.fmt .rne .wrap else 0) g)) ∧
        ∀ l, genAt g x.idx l =
          if l < x.w ∧ x.sel.getLsbD l = true then genAt (q l).2 x.idx l else genAt x.v.gens x.idx l)) ∧
  (∀ (s : State) (f : VFields) (r : Run) (s1 : State),
    let fm := { rowShape .f32 .f32 (lanesOf s.me.st.vkind) with hasD := false, pushes := f.mod.getLsbD 4 }
    s.vGoes f fm r s1 →
    let x := s1.vSees f fm r
    let sel := (List.range x.w).filter fun l => x.sel.getLsbD l
    let room := (if s.me.st.vkind then 4096 else 1024) - x.v.dq.length
    let rec' := fun (l : Nat) =>
      DqRec.mk (BitVec.ofNat 8 l) (f.mod.extractLsb' 8 8) (BitVec.ofNat 32 (x.a.pat l)) (BitVec.ofNat 32 (x.b.pat l))
    let dq := x.v.dq ++ (sel.take room).map rec'
    ∃ rest : BitVec 256, exec (.vdefer f) s = .next (s1.vGives f fm r
        (x.sets ({ x.v with dq := dq }.setVm (f.mod.extractLsb' 5 3) rest) (decide (sel.length ≤ room)))) ∧
      ∀ l, l < 256 → (rest.getLsbD l = true ↔ l ∈ sel.drop room)) ∧
  (∀ (s : State) (f : VFields) (r : Run) (s1 : State),
    let fm := { rowShape .f32 .f32 (lanesOf s.me.st.vkind) with nd := 3, pushes := f.mod.getLsbD 11 }
    s.vGoes f fm r s1 →
    let x := s1.vSees f fm r
    let n := if f.mod.getLsbD 12 = true ∧ x.v.dq.length < x.w then 0 else Nat.min x.w x.v.dq.length
    let recs := x.v.dq.take n
    let zeros := List.replicate (x.w - n) 0
    ∃ m : BitVec 256, exec (.vdrain f) s = .next (s1.vGives f fm r
        { x.sets ({ x.v with dq := x.v.dq.drop n }.setVm (f.mod.extractLsb' 13 3) m) (decide (0 < n)) with
          rows := [(0, recs.map (fun q => q.va.toNat) ++ zeros), (1, recs.map (fun q => q.vb.toNat) ++ zeros),
                   (2, recs.map (fun q => q.lane.toNat + q.tag.toNat * 65536) ++ zeros)] }) ∧
      ∀ l, l < 256 → (m.getLsbD l = true ↔ l < n)) ∧
  (∀ (s : State) (f : VFields) (r : Run) (s1 : State),
    let tgt := f.mod.toNat % 4
    let fm := { rowShape .f32 .f32 (lanesOf s.me.st.vkind) with hasD := false, mIdle := decide (tgt ≠ 0) }
    s.vGoes f fm r s1 → (tgt = 0 ∨ s.me.st.vkind = false) →
    let x := s1.vSees f fm r
    let seed := fun (l : Nat) => if x.a.pat l % 2 ^ 32 = 0 then (0x2545F491 : Lane) else BitVec.ofNat 32 (x.a.pat l)
    ∃ y : VOut, exec (.vseed f) s = .next (s1.vGives f fm r y) ∧ y.out = none ∧ y.rows = [] ∧
      y.v.rows = x.v.rows ∧ y.v.vm = x.v.vm ∧ y.v.dq = x.v.dq ∧
      (tgt = 0 → y.cols = x.cols ∧ ∀ l, genAt y.v.gens x.idx l =
        if l < x.w ∧ x.sel.getLsbD l = true then seed l else genAt x.v.gens x.idx l) ∧
      (tgt ≠ 0 → y.v.gens = x.v.gens ∧ ∀ c, genAt y.cols x.idx c =
        if 256 + 64 * (tgt - 1) ≤ c ∧ c < 256 + 64 * tgt ∧ x.sel.getLsbD (c - (256 + 64 * (tgt - 1))) = true
        then seed (c - (256 + 64 * (tgt - 1))) else genAt x.cols x.idx c))

/-- R243, R244, R179: what no vector word touches: memory and the rest of the package, the control state but for its token
counts, CQ and what TRP_STATUS.P shows, the scratchpad, and the access side. -/
def Obligations.VectorFrame : Prop :=
  ∀ w ∈ vectorWords, ∀ (f : VFields) (s t : State), exec (w f) s = .next t →
    t = { s with me := t.me } ∧ t.me = { s.me with st := t.me.st } ∧
    t.me.st.ctl = { s.me.st.ctl with
      tok := t.me.st.ctl.tok, cq := t.me.st.ctl.cq, trp := { s.me.st.ctl.trp with pend := t.me.st.ctl.trp.pend } } ∧
    t.me.st.spad = s.me.st.spad ∧ t.me.st.lqu = s.me.st.lqu ∧ t.me.st.squ = s.me.st.squ ∧ t.me.st.kqu = s.me.st.kqu ∧
    t.me.st.nt = s.me.st.nt ∧ t.me.st.mrun = s.me.st.mrun ∧ t.me.st.pendDst = s.me.st.pendDst ∧
    t.me.st.m = { s.me.st.m with gens := t.me.st.m.gens }

/-- R52, R244, R346, and R267 for each word of the engine but VREP: a word whose field offends ends its block with an ENG_ENC
record that names the field; one whose tokens have not come leaves the state as it is, and one whose bytes or room have not
come has taken its tokens and done nothing else; the engine is dry either way. A VSEED of column generators that finds the
matrix engine busy holds its source and waits. (Which field stands in the record where several offend is the model's reading,
log entry 34; that no token is popped before such a record, log entry 121.) -/
def Obligations.VectorWaits : Prop :=
  (∀ row ∈ vectorShapes, ∀ (s : State) (f : VFields) (r : Run), s.me.st.vrun = some r →
    let fm := row.2 f s.me.st.vkind
    (∀ bit, vOffends f fm r.k s.me.st.vkind = some bit →
      ∃ t, exec (row.1 f) s = .next t ∧ t.me.st.vrun = none ∧ t.me.st.v = s.me.st.v ∧ t.me.st.q = s.me.st.q ∧
        t.ctl = { s.ctl with trp := { s.ctl.trp with pend := none } } ∧
        (s.me.st.traps = [] → t.me.st.traps =
          [{ TrapRec.defer .engEnc .v r.blk.waddr with info16 := BitVec.ofNat 16 bit, info := r.info }])) ∧
    (vOffends f fm r.k s.me.st.vkind = none →
      (s.popWord false r (vPop f.pop) = none → exec (row.1 f) s = .next (s.dry false)) ∧
      (∀ s1, s.popWord false r (vPop f.pop) = some s1 →
        (r.work.stage = 0 → s1.me.st.vReady f fm = false → exec (row.1 f) s = .next (s1.dry false)) ∧
        ((r.work.stage = 0 → s1.me.st.vReady f fm = true) → fm.mIdle = true → s1.me.st.mrun.isSome = true →
          exec (row.1 f) s = .next (if r.work.stage = 0 then s1.updSt fun t => t.vHold f fm r else s1)))))

/-- R184, R265, R286: how an engine walks. A repeat word whose count is 0 goes behind its body, another one stands at the
body's first word in repetition 0, and a count above 16,777,215 is ENG_ENC; behind the last word of a body stands its first
word in the next repetition, or the word behind the body. A matrix word with rows left counts the one it has completed,
and with its last row it goes on: its tokens are pushed, or, where it has written memory, kept with the block until its lines
flip in. (That a matrix word does one row a step, here as `mRow`, is the model's choice, log entry 18.) -/
def Obligations.EngineWalk : Prop :=
  (∀ (s : State) (r : Run) (m : Bool) (reb : BitVec 4) (len : Nat), s.me.st.run m = some r →
    let i : Instr := if m then .mrep reb (BitVec.ofNat 12 len) else .vrep
      { pop := 0, push := 0, dd := .row 0 0, da := .row 0 0, db := .row 0 0, mask := 0, fmt := .f32, fmt2 := .f32, rnd := .rne,
        ovf := .wrap, mod := reb ++ BitVec.ofNat 12 len }
    let n := (r.eb reb).toNat
    len < 4096 →
    (n = 0 → ∃ q, exec i s = .next (s.updSt fun t => t.setRun m (some q)) ∧ q.off = r.off + 1 + len ∧ q.repLen = r.repLen ∧ q.k = r.k) ∧
    (0 < n → n ≤ 16777215 → ∃ q, exec i s = .next (s.updSt fun t => t.setRun m (some q)) ∧ q.off = r.off + 1 ∧ q.k = 0 ∧
      q.repLen = len ∧ q.repStart = r.off + 1 ∧ q.repCount = n) ∧
    (16777215 < n → exec i s = .next (s.updSt fun t => t.blockEnc m r 0xFFFF))) ∧
  (∀ r : Run, let q := r.advance
    q.popped = false ∧ q.rows = 0 ∧ q.work = Work.none ∧ q.blk = r.blk ∧ q.shadow = r.shadow ∧ q.pushes = r.pushes ∧
    (r.repLen = 0 ∨ r.off + 1 ≠ r.repStart + r.repLen → q.off = r.off + 1 ∧ q.k = r.k ∧ q.repLen = r.repLen) ∧
    (r.repLen ≠ 0 → r.off + 1 = r.repStart + r.repLen →
      (r.k + 1 < r.repCount → q.off = r.repStart ∧ q.k = r.k + 1 ∧ q.repLen = r.repLen ∧ q.repCount = r.repCount) ∧
      (r.repCount ≤ r.k + 1 → q.off = r.off + 1 ∧ q.k = 0 ∧ q.repLen = 0))) ∧
  (∀ (s : State) (push : BitVec 4) (total : Nat) (r : Run), s.me.st.mrun = some r →
    (r.rows + 1 < total → (s.mRow push total false).me.st.mrun = some { r with rows := r.rows + 1 }) ∧
    (total ≤ r.rows + 1 → (s.mRow push total false).me.st.mrun = some r.advance ∧
      (s.mRow push total true).me.st.mrun = some { r.advance with pushes := r.pushes ++ [(mPush push, r.info)] } ∧
      (s.mRow push total true).ctl.tok = s.ctl.tok ∧
      ∀ k : Fin 16, (s.mRow push total false).ctl.tok.get k =
        if mPush push / 2 ^ k.val % 2 = 1 ∧ s.ctl.tok.get k ≠ 65535 then s.ctl.tok.get k + 1 else s.ctl.tok.get k) ∧
    ∀ wrote, (s.mRow push total wrote).me.st.m = s.me.st.m ∧ (s.mRow push total wrote).mem = s.mem)

/-- R271 to R273, R281, R285: NSET writes one shadow level; NGO makes the shadow nests of its channels active and takes
their index vectors to zero; MLOADS replaces the map buffer; MZERO zeroes rows and columns of its tile, whose bias it
unsets, or of the planes. -/
def Obligations.MatrixSetup : Prop :=
  (∀ (s s1 : State) (r : Run) (pop push : BitVec 4) (add : Option (BitVec 4)) (level : BitVec 3) (chan : BitVec 2)
      (base : BitVec 56) (stride : BitVec 24) (cnt : BitVec 11), level.toNat ≤ 5 → s.mTakes pop r s1 →
    ∃ c : Channel, exec (.nset pop push add level chan base stride cnt) s =
        .next (s1.mGives push r fun m => { m with chans := m.chans.set chan.toNat c chan.isLt }) ∧
      let old := s1.me.st.m.chans.get ⟨chan.toNat, chan.isLt⟩
      c.active = old.active ∧ c.idx = old.idx ∧
      ∀ k : Fin 6, c.shadow.get k = if k.val = level.toNat
        then ⟨base.setWidth 64 + (match add with | some n => r.eb n | none => 0), stride.signExtend 64, cnt.toNat + 1⟩
        else old.shadow.get k) ∧
  (∀ (s s1 : State) (r : Run) (pop push chmask : BitVec 4), s.mTakes pop r s1 →
    ∃ cs : Vector Channel 4, exec (.ngo pop push chmask) s = .next (s1.mGives push r fun m => { m with chans := cs }) ∧
      ∀ k : Fin 4, cs.get k =
        let old := s1.me.st.m.chans.get k
        if chmask.getLsbD k.val then { old with active := old.shadow, idx := Vector.replicate 6 0 } else old) ∧
  (∀ (s s1 s2 : State) (r : Run) (f : MFields) (bs : List Byte), s.mTakes f.pop r s1 →
    s1.readBytes r f.sa 2112 16 = .bytes s2 bs → bs.length = 2112 →
    ∃ t : Sp Byte, exec (.mloads f) s = .next ((s2.updM fun m => { m with map := t }).mDone f.push false) ∧
      ∀ o, Sp.get t o 0 = bs.getD o 0) ∧
  (∀ (s s1 : State) (r : Run) (f : MFields) (x : Ext), s.mGoes f r x s1 →
    let old := s1.me.st.m
    ∃ m' : MState, exec (.mzero f) s = .next (s1.mGives f.push r fun _ => m') ∧ m'.rb = old.rb ∧ m'.chans = old.chans ∧
      m'.gens = old.gens ∧ m'.rx = old.rx ∧ m'.map = old.map ∧ m'.dpl = old.dpl ∧ m'.struct = old.struct ∧
      (f.mod.getLsbD 0 = false → m'.qpb = old.qpb ∧ m'.getBias (r.tileOf f) = none ∧ m'.getStag (r.tileOf f) = 0 ∧
        ∀ t i j, t < 4 → i < 128 → j < 128 →
          m'.accAt t i j = if t = r.tileOf f ∧ i < x.m ∧ j < x.n then 0 else old.accAt t i j) ∧
      (f.mod.getLsbD 0 = true → m'.acc = old.acc ∧ m'.bias = old.bias ∧ m'.stag = old.stag ∧
        ∀ q i j, q < 4 → i < 128 → j < 128 → m'.plane q i j = if i < x.m ∧ j < x.n then 0 else old.plane q i j))

/-- R282 to R284: a row of MLOADR goes into its bank, across or down, as it stands (an F19 row with bits [12:0] zero, R230) or, from a tile, scaled by the tile's
bias and rounded; a row of MSTORE or MACT is the tile's row (MSTORE with ta: its column) scaled by the tile's bias (less
the bias that a header takes), put through the function and rounded, and goes to a queue, to the addresses of a channel, to
the tile itself or to a bank. (That an MSTORE reserves room for all its rows before the first is log entry 120.) -/
def Obligations.MatrixLoadsStores : Prop :=
  (∀ (s s1 s2 : State) (r : Run) (f : MFields) (x : Ext) (l : List Nat), s.mGoes f r x s1 →
    r.rows < (if f.ta then x.n else x.m) →
    s1.readRow r f.sa f.fa f.acc2.toNat r.rows (if f.ta then x.m else x.n) = .elems s2 l →
    let old := s2.me.st.m
    let e := fun (c : Nat) => if f.sa = .acc2
      then toStore f.fd (cvt ((elemVal f.fa (l.getD c 0)).scale (old.biasOr0 f.acc2.toNat)).toX f.fd f.rnd f.ovf
        (drawFor f.rnd old.gens s2.me.st.idx (256 + c) 0))
      else if f.fd = .f19 then l.getD c 0 / 8192 * 8192
      else l.getD c 0
    ∃ m' : MState, exec (.mloadr f) s =
        .next ((s2.updM fun _ => m').mRow f.push (if f.ta then x.n else x.m) false) ∧
      m'.struct = none ∧ m'.acc = old.acc ∧ m'.chans = old.chans ∧
      ∀ i j, i < 128 → j < 128 → m'.bank (bankOf f.dk) f.fd i j =
        if f.ta = true ∧ j = r.rows ∧ i < x.m then e i % 2 ^ storeWidth f.fd
        else if f.ta = false ∧ i = r.rows ∧ j < x.n then e j % 2 ^ storeWidth f.fd
        else old.bank (bankOf f.dk) f.fd i j) ∧
  (∀ (s s1 : State) (r : Run) (f : MFields) (x : Ext), s.mGoes f r x s1 →
    let m := s1.me.st.m
    let t := r.tileOf f
    let idx := s1.me.st.idx
    let lo := m.rx.bounds.1
    let hi := m.rx.bounds.2
    -- the row that the word stands at: `n` elements, element `c` at (i, j) of the tile, with the draw of its column
    let rowIs := fun (fn : Nat) (sc : Int) (n : Nat) (l : List Nat) => l.length = n ∧ ∀ c, c < n →
      let j := if f.ta then r.rows else c
      l.getD c 0 = toStore f.fd (cvt (actFn fn lo hi ((elemVal f.fa (m.tile t f.fa (if f.ta then c else r.rows) j)).scale sc))
        f.fd f.rnd f.ovf (drawFor f.rnd m.gens idx (256 + j) (if f.ta then c else 0)))
    let outs := if f.ta then x.n else x.m
    let len := if f.ta then x.m else x.n
    -- MSTORE
    (∃ (l : List Nat) (g : Sp Lane), rowIs 0 (m.biasOr0 t - (if f.mod.getLsbD 3 then headerBias (m.biasOr0 t) else 0)) len l ∧
      (f.dk ≠ .acc → f.mod.getLsbD 3 = false → ∀ s2, s1.putQueue f.dk (rowPack f.fd l) = some s2 →
        exec (.mstore f) s = .next ((s2.updM fun m => { m with gens := g }).mRow f.push outs false)) ∧
      (f.dk = .acc → (f.mod.getLsbD 3 = false ∨ r.work.hdr ≠ []) →
        let ch := f.mod.toNat / 256 % 4
        ∀ s2 s3, (if r.rows = 0 then s1.reserveRows r none (m.chan ch) outs (rowPack f.fd l).length (rowAlign f.fd)
            else .bytes s1 []) = .bytes s2 [] →
          s2.writeAt r (m.chan ch).addr (rowPack f.fd l) (rowAlign f.fd) = .bytes s3 [] →
          exec (.mstore f) s =
            .next ((s3.updM fun m => { m.setChan ch (m.chan ch).next with gens := g }).mRow f.push outs s3.mWrote))) ∧
    -- MACT
    (f.ta = false → r.rows < x.m → ∃ (l : List Nat) (g : Sp Lane), rowIs (f.mod.toNat / 16 % 16) (m.biasOr0 t) x.n l ∧
      ((∀ b, f.dk ≠ .rb b) → f.dk ≠ .acc → ∀ s2, s1.putQueue f.dk (rowPack f.fd l) = some s2 →
        exec (.mact f) s = .next ((s2.updM fun m => { m with gens := g }).mRow f.push x.m false)) ∧
      (f.dk = .acc → ∃ m' : MState, exec (.mact f) s = .next ((s1.updM fun _ => m').mRow f.push x.m false) ∧
        m'.rb = m.rb ∧ m'.gens = g ∧ m'.getStag t = 0 ∧ (r.rows + 1 = x.m → m'.getBias t = none) ∧
        ∀ i j, i < 128 → j < 128 → m'.tile t f.fd i j =
          if i = r.rows ∧ j < x.n then l.getD j 0 % 2 ^ tileBits f.fd else m.tile t f.fd i j) ∧
      (∀ b, f.dk = .rb b → ∃ m' : MState, exec (.mact f) s = .next ((s1.updM fun _ => m').mRow f.push x.m false) ∧
        m'.acc = m.acc ∧ m'.gens = g ∧ m'.struct = none ∧
        ∀ i j, i < 128 → j < 128 → m'.bank b.toNat f.fd i j =
          if i = r.rows ∧ j < x.n then l.getD j 0 % 2 ^ storeWidth f.fd else m.bank b.toNat f.fd i j)))

/-- R233, R238, R277 to R279: once a product holds its operands it zeroes its tile where ZA says so and settles the tile's
bias; then each output row is, element by element, the blocked sum of the products along the depth onto the tile. MMACQ
gives the four partials of a depth block, onto the planes or to a queue, and MSACC folds the planes onto its tile. -/
def Obligations.MatrixProducts : Prop :=
  (∀ (s s1 : State) (r : Run) (f : MFields) (x : Ext), s.mGoes f r x s1 → depthBad f false x = none →
    r.holds f x (readsAhead f) → (bsrc f = 1 → r.work.hdr.length = 2) →
    let old := s1.me.st.m
    let t := r.tileOf f
    (r.work.stage = 0 →
      let b := productBias f r
      let c := if f.mod.getLsbD 11 then none else old.getBias t
      (∀ a, c = some a → a ≠ b → f.fd = .i32 → exec (.mmac f) s = .next (s1.mEnc r)) ∧
      ((c = none ∨ c = some b ∨ f.fd ≠ .i32) → ∃ m' : MState, exec (.mmac f) s =
          .next ((s1.updM fun _ => m').updWork fun w => { w with stage := 1, scale := b - c.getD b }) ∧
        m'.rb = old.rb ∧ m'.gens = old.gens ∧ m'.getBias t = some (c.getD b) ∧ m'.getStag t = 0 ∧
        ∀ i j, i < 128 → j < 128 → m'.tile t f.fd i j =
          if f.mod.getLsbD 11 = true ∧ i < x.m ∧ j < x.n then 0 else old.tile t f.fd i j)) ∧
    (r.work.stage ≠ 0 → r.rows < x.m → ∀ (s2 : State) (l : List Nat), s1.aReady f r x (readsAhead f) s2 l →
      let m := s2.me.st.m
      let a := aTerms f x m r.work.a r.rows l
      let term := fun (j k : Nat) => (a.getD k none).map fun p => Val.mul (elemVal f.fa p) (elemVal f.fb (bElem r.work.b f.tb k j))
      ∃ m' : MState, exec (.mmac f) s = .next ((s2.updM fun _ => m').mRow f.push x.m false) ∧
        { m' with acc := m.acc } = m ∧
        ∀ i j, i < 128 → j < 128 → m'.tile t f.fd i j =
          if i = r.rows ∧ j < x.n then
            cvtVal ((sumBlocks ((List.range x.k).map (term j)) (blockCount x.k) (some (elemVal f.fd (m.tile t f.fd i j)))
              r.work.scale f.fd f.rnd f.ovf s2.me.st.idx (256 + j) m.gens false).1.getD (.fin false 0 0)) f.fd .rne .wrap % 2 ^ tileBits f.fd
          else m.tile t f.fd i j)) ∧
  (∀ (s s1 : State) (r : Run) (f : MFields) (x : Ext), s.mGoes f r x s1 → depthBad f true x = none →
    r.holds f x (readsAhead f || decide (f.dk ≠ .acc)) →
    -- partial `q` at depth block `b`, column `j`, onto `onto`, as the value of an F32 pattern
    let part := fun (m : MState) (idx : Nat) (a : List (Option Nat)) (b q j : Nat) (onto : Option Val) (n : Nat) =>
      let v := sumVals ((quadTerms f r a b q j).filterMap id) f.rnd
      cvtVal (decodeFmt .f32 (cvt (match onto with | some o => Val.add o v f.rnd | none => v).toX .f32 f.rnd f.ovf
        (drawFor f.rnd m.gens idx (256 + j) n))) .f32 .rne .wrap
    (f.dk = .acc → r.rows < x.m → ∀ (s2 : State) (l : List Nat), s1.aReady f r x (readsAhead f) s2 l →
      let m := s2.me.st.m
      ∃ m' : MState, exec (.mmacq f) s = .next ((s2.updM fun _ => m').mRow f.push x.m false) ∧ m'.acc = m.acc ∧ m'.bias = m.bias ∧
        ∀ q i j, q < 4 → i < 128 → j < 128 → m'.plane q i j =
          if i = r.rows ∧ j < x.n then BitVec.ofNat 32 (part m s2.me.st.idx (aTerms f x m r.work.a r.rows l) 0 q j
            (some (if f.mod.getLsbD 11 then .fin false 0 0 else decodeFmt .f32 (m.plane q i j).toNat)) q)
          else m.plane q i j) ∧
    (f.dk ≠ .acc →
      let m := s1.me.st.m
      let i := r.rows % x.m
      ∃ (bs : List Byte) (g : Sp Lane), bs.length = 4 * x.n ∧
        (∀ j, j < x.n → leNat ((bs.drop (4 * j)).take 4) = part m s1.me.st.idx (aTerms f x m r.work.a i (r.work.a.getD i []))
          (r.rows / x.m / 4) (r.rows / x.m % 4) j none 0 % 2 ^ 32) ∧
        ∀ s2, s1.putQueue f.dk bs = some s2 →
          exec (.mmacq f) s = .next ((s2.updM fun m => { m with gens := g }).mRow f.push (x.k / 32 * 4 * x.m) false))) ∧
  (∀ (s s1 : State) (r : Run) (f : MFields) (x : Ext), s.mGoes f r x s1 → r.work.a ≠ [] → r.work.b ≠ [] →
    let old := s1.me.st.m
    let t := r.tileOf f
    let c := old.getBias t
    let ea := fun (i q : Nat) => scaleExp ((r.work.a.getD 0 []).getD (i / 32) 0) (q / 2)
    let eb := fun (j q : Nat) => scaleExp ((r.work.b.getD 0 []).getD (j / 32) 0) (q % 2)
    ∃ m' : MState, exec (.msacc f) s = .next (s1.mGives f.push r fun _ => m') ∧ m'.qpb = old.qpb ∧
      m'.getBias t = some (c.getD 0) ∧ m'.getStag t = 0 ∧
      ∀ i j, i < 128 → j < 128 → m'.tile t .f32 i j =
        if i < x.m ∧ j < x.n then
          cvtVal (Val.add (decodeFmt .f32 (old.accAt t i j).toNat) (sumVals ((List.range 4).map fun q =>
            (decodeFmt .f32 (old.plane q i j).toNat).scale (ea i q + eb j q + sextNat f.mod.toNat 10 + (0 - c.getD 0))) f.rnd) f.rnd)
            .f32 f.rnd f.ovf % 2 ^ 32
        else old.tile t .f32 i j)

/-- R291, R294, R295, R316, R317: RELAX and RELAXB of a group of one, once they hold their injections, end with the solve of
their rows: every row iterates until it retires or XLIM iterations are done, the per-row registers and XSTAT tell the outcome,
and the tile's bias is 0. Of the iteration itself this states one, without acceleration and without retired rows: each element
is the blocked sum of its weights on the state as it stood (or on zero where the word starts cold) onto its injection, put
through the function for RELAX. R302 to R304: MXSET writes a register from bound registers; MXREAD gives back what stands there,
padded to 256 bytes; MPATCH replaces one element or counts the record as ignored. -/
def Obligations.RelaxationWords : Prop :=
  (∀ (s s1 : State) (r : Run) (f : MFields) (x : Ext) (back : Bool), s.mGoes f r x s1 → relaxCheck f r x s = none →
    s1.me.st.m.rx.members = 1 → injectStep f r x s1 = none →
    let m := s1.me.st.m
    let q : Member := ⟨f, back, r, x, m, s1.me.st.idx, s1.me.die⟩
    let o := solve [q] q
    let t := s1.me.st.relaxEnd q 0 o
    exec (if back then .relaxb f else .relax f) s = .next (s1.updSt fun _ => t) ∧
    o.rows.length = x.m ∧ o.iters ≤ m.rx.xlim.toNat ∧ (o.iters < m.rx.xlim.toNat → ∀ w ∈ o.rows, w.ret = true) ∧
    t.m.getBias f.acc.toNat = some 0 ∧ t.m.getStag f.acc.toNat = (if back then 0 else m.rx.xstruct) ∧
    t.m.rx.xstat = statAfter m.rx.xstat q.ws o ∧ t.m.struct = m.struct ∧ t.mrun = some r.advance ∧
    (back = true → t.m.dpl = m.dpl) ∧
    (m.rx.accel = 0 → m.rx.xlim = 1 → q.warm = false ∨ m.rx.keep = false → back = false ∨ f.mod.getLsbD 10 = false →
      ∀ b j, b < x.m → j < x.n →
        let x0 := fun (k : Nat) => f32Val (if q.warm then (m.accAt f.acc.toNat b k).toNat else 0)
        let terms := (List.range x.n).map fun k => (if back then q.weight k j else q.weight j k).map fun a =>
          Val.mul (if back then Val.mul a (decodeFmt .f8e4 (Sp.get m.dpl (128 * b + k) 0).toNat) else a) (x0 k)
        let z := (sumBlocks terms (blockCount x.n) (some (q.inject b j)) q.bias .f32 f.rnd f.ovf 0 0 [] false).1.getD (.fin false 0 0)
        let v := if back then z else f32Val (cvt (actFn m.rx.fn m.rx.bounds.1 m.rx.bounds.2 z) .f32 f.rnd f.ovf 0)
        t.m.accAt f.acc.toNat b j = BitVec.ofNat 32 (cvtVal v .f32 .rne .wrap)) ∧
    ∀ (b : Nat) (w : RowSt), o.rows[b]? = some w → b < 128 →
      Sp.get t.m.rx.xres b 0 = w.res ∧ Sp.get t.m.rx.xcnt b 0 = w.cnt ∧ Sp.get t.m.rx.xdamp b 0 = w.damp ∧
      t.m.rx.xret.getLsbD b = w.ret ∧ t.m.rx.xdiv.getLsbD b = w.div ∧
      (f.mod.getLsbD 10 = false ∨ back = false → m.rx.accel ≠ 3 → ∀ j, j < x.n →
        t.m.accAt f.acc.toNat b j = BitVec.ofNat 32 (w.x.getD j 0))) ∧
  (∀ (s s1 : State) (r : Run) (f : MFields) (x : Ext), s.mGoes f r x s1 → mxFromA f = false → mxBad (mxReg f) (r.eb f.ebb) = false →
    let v := r.eb f.ebb
    let hi := r.eb (f.ebb + 1)
    ∃ m' : MState, exec (.mxset f) s = .next (s1.mGives f.push r fun _ => m') ∧ m'.acc = s1.me.st.m.acc ∧ m'.rb = s1.me.st.m.rb ∧
      ∀ rows : Ext, rows.m ≤ 128 → m'.mxBytes (mxReg f) f.acc.toNat rows =
        match mxReg f with
        | 1 => leBytes 2 v.toNat
        | 2 => leBytes 2 v.toNat
        | 5 => (List.range rows.m).flatMap fun _ => leBytes 4 v.toNat
        | 10 => leBytes 8 v.toNat ++ leBytes 8 hi.toNat
        | 11 => leBytes 8 v.toNat ++ leBytes 8 hi.toNat
        | 16 => leBytes 8 v.toNat
        | 0 => leBytes 4 v.toNat
        | 3 => leBytes 4 v.toNat
        | 4 => leBytes 4 v.toNat
        | 6 => leBytes 4 v.toNat
        | 7 => leBytes 4 v.toNat
        | 17 => leBytes 4 v.toNat
        | 18 => leBytes 4 v.toNat
        | n => m'.mxBytes n f.acc.toNat rows) ∧
  (∀ (s s1 s2 : State) (r : Run) (f : MFields) (x : Ext), s.mGoes f r x s1 → r.work.stage = 0 →
    let bytes := s1.me.st.m.mxBytes (mxReg f) f.acc.toNat x
    (bytes.length ≤ 256 → s1.putQueue f.dk (bytes ++ List.replicate (256 - bytes.length) 0) = some s2 → bytes ≠ [] →
      exec (.mxread f) s = .next (s2.mDone f.push false)) ∧
    (256 < bytes.length → s1.putQueue f.dk (bytes.take 256) = some s2 →
      ∃ rest, exec (.mxread f) s = .next (s2.updWork fun w => { w with stage := 1, a := [rest] }) ∧ rest.length % 256 = 0 ∧
        ∀ k, k + 256 < bytes.length → rest.getD k 0 = (bytes.getD (k + 256) 0).toNat)) ∧
  (∀ (s s1 s2 : State) (r : Run) (f : MFields) (x : Ext) (bs : List Byte), s.mGoes f r x s1 →
    let last := decide (x.m * x.n ≤ r.work.stage + 1)
    s1.readPart r f.sa (8 * r.work.stage) 8 8 last = .bytes s2 bs → s2.me.st.m.struct = none →
    let m := s2.me.st.m
    let i := leNat bs % 65536
    let c := leNat bs / 65536 % 65536
    ∃ m' : MState, exec (.mpatch f) s = .next
        (if last then (s2.updM fun _ => m').mDone f.push false
         else (s2.updM fun _ => m').updWork fun w => { w with stage := r.work.stage + 1 }) ∧
      m'.acc = m.acc ∧
      (i < 128 ∧ c < 128 → m'.rx = m.rx ∧ ∀ i' c', i' < 128 → c' < 128 → m'.bank (bankOf f.dk) f.fa i' c' =
        if i' = i ∧ c' = c then patchValue f.fa (leNat bs / 2 ^ 32) % 2 ^ storeWidth f.fa else m.bank (bankOf f.dk) f.fa i' c') ∧
      (128 ≤ i ∨ 128 ≤ c → m'.rb = m.rb ∧ m'.rx.xstat.toNat =
        (if m.rx.xstat.toNat / 2 ^ 32 % 65536 = 65535 then m.rx.xstat.toNat else (m.rx.xstat.toNat + 2 ^ 32) % 2 ^ 64)))

/-- R36, R48, R302, R303: words that the spec writes out are the instructions that it says they are. -/
def Obligations.DecodeSpecWords : Prop :=
  decodeTableWord 32 0x71485358 = some (.aadd ⟨3, true⟩ ⟨4, 5, 6, 2, true, .pkg, .rlx⟩) ∧
  decodeTableWord 96 0x040004010000040C00000000 = some (.vfma
    { pop := 0, push := 0, dd := .row 8 0, da := .lq 0, db := .row 2 1, mask := 8, fmt := .f32, fmt2 := .f32, rnd := .rne,
      ovf := .wrap, mod := 0 }) ∧
  decodeTableWord 192 0x110000000000004000000000100000000000000000000000 = some (.mxset
    { pop := 0, push := 0, fa := .f32, fb := .f32, fd := .f32, rnd := .rne, ovf := .wrap, acc := 0, acc2 := 0, sa := .lq 0,
      sb := .lq 0, dk := .acc, spar := .dense, ta := false, tb := false, ebb := 4, mx := 0, nx := 0, kx := 0, xsel := 0,
      mod := 0x1000 }) ∧
  decodeTableWord 192 0x120100000000400004000000240000000000000000000000 = some (.mxread
    { pop := 0, push := 1, fa := .f32, fb := .f32, fd := .f32, rnd := .rne, ovf := .wrap, acc := 0, acc2 := 0, sa := .lq 0,
      sb := .lq 0, dk := .sq 0, spar := .dense, ta := false, tb := false, ebb := 0, mx := 2, nx := 0, kx := 0, xsel := 0,
      mod := 0x2400 })

/-- R34, R36 to R48: decoding the word of a well-formed Uslyn-S instruction gives it back. -/
def Obligations.EncodeDecodeControl : Prop :=
  ∀ (i : Instr) (w : Nat), wellFormed i = true → encodeS i = some w → w < 2 ^ 32 ∧ decodeS w = .ok i

/-- R41 to R51: decoding the word of a well-formed Uslyn-V or Uslyn-M instruction gives it back. -/
def Obligations.EncodeDecodeEngines : Prop :=
  (∀ (i : Instr) (w : Nat), wellFormed i = true → encodeV i = some w → w < 2 ^ 96 ∧ decodeV w = .ok i) ∧
  (∀ (i : Instr) (w : Nat), wellFormed i = true → encodeM i = some w → w < 2 ^ 192 ∧ decodeM w = .ok i)

/-- R34, R37, R180, R184: a control turn of a running strand whose stall wire is down executes the instruction that the
four bytes at PC decode to, and the step ILLEGAL_ENCODING where they decode to none; a vector or matrix turn executes
the word at which the engine stands; a turn of a step without a word executes that step. `takeTurn` takes the turn and
nothing else. (Which agent has the turn is the model's choice, log entry 1; the conditions of a control turn beside R180 and the
stall wire, a mark of DONE and a cluster error that stops issue, are log entries 81 and 66; that the sequencer and not `exec`
asks them is log entry 13; that a strand executes the bytes that the loader placed is log entry 25; that reset holds a package
whose boot has failed is log entry 40.) -/
def Obligations.StepRunsDecoded : Prop :=
  (∀ (s : State), s.nextTurn = .control → s.me.status = .running → s.stallWires.contains s.me.st.node = false →
    s.me.st.finish = false → s.me.st.halt = [] → s.me.st.code.holds s.ctl.pc = true →
    let bs := s.me.st.code.ctrl.drop (s.ctl.pc.toNat - s.me.st.code.ctrlVa)
    4 ≤ bs.length →
    (∀ i, decodeSBytes bs = .ok i → step s = exec i s.takeTurn) ∧
    (∀ e, decodeSBytes bs = .error e → step s = exec (.illegalEncoding (BitVec.ofNat 32 (leNat (bs.take 4)))) s.takeTurn)) ∧
  (∀ (s : State) (r : Run) (i : Instr), s.nextTurn = .vword → s.me.st.vrun = some r → r.off < r.blk.len →
    decodeVBytes (s.me.st.code.varea.drop ((r.blk.first + r.off) * 12)) = .ok i → step s = exec i s.takeTurn) ∧
  (∀ (s : State) (r : Run) (i : Instr), s.nextTurn = .mword → s.me.st.mrun = some r → r.off < r.blk.len →
    decodeMBytes (s.me.st.code.marea.drop ((r.blk.first + r.off) * 24)) = .ok i → step s = exec i s.takeTurn) ∧
  (∀ (s : State) (i : Instr) (inp : List Nat), s.nextTurn = .event i inp → encode i = none →
    (s.fe.bootFailed = false ∨ ∃ b, i = .reset b) → step s = exec i s.takeTurn) ∧
  (∀ (s : State), { s.takeTurn with turns := s.turns, rotor := s.rotor, input := s.input } = s)

/-- R19: a Uslyn-S word whose guard is false retires as a NOP does: nothing but PC, the stall and the loops that end at it.
(A FORK of M on a V-cluster is an illegal encoding whatever its guard, R182.) -/
def Obligations.GuardFalse : Prop :=
  ∀ (i : Instr) (g : Guard) (s : State), guardOf i = some g → s.ctl.guard g = false →
    (∀ g' blk, i = .fork g' true blk → s.me.st.vkind = false) → exec i s = exec (.nop g) s ∧
    (s.straight → exec i s = .next s.fell)

/-- R197: G0 reads zero and discards writes, P0 reads true and takes none, and a write of another register changes that
register alone. -/
def Obligations.RegisterFile : Prop :=
  (∀ s : State, s.getG 0 = 0 ∧ s.ctl.getP 0 = true) ∧
  (∀ (s : State) (d a : Reg) (v : Word), (s.writeG d v).getG a = if a = 0 then 0 else if a = d then v else s.getG a) ∧
  (∀ (s : State) (v : Word), s.writeG 0 v = s) ∧
  (∀ (s : State) (p q : BitVec 3) (b : Bool), (s.setP p b).ctl.getP q = if q = 0 then true else if q = p then b else s.ctl.getP q) ∧
  (∀ (s : State) (d : Reg) (v : Word) (p : BitVec 3) (b : Bool), (s.writeG d v).ctl.p = s.ctl.p ∧ (s.writeG d v).mem = s.mem ∧
    (s.writeG d v).ctl.pc = s.ctl.pc ∧ (s.setP p b).ctl.g = s.ctl.g)

/-- R213, R214, R216: the end check of a word that retires, here a NOP. The first set in arming order that is live and ends
here loops back while it has iterations left: ZLC counts down, the stage predicates of a staged set rotate, and other live
sets whose body does not hold its first word are disarmed; with none left it is disarmed and the next word follows. (That a
loop-back leaves the set itself armed is the model's reading, log entry 24.) -/
def Obligations.LoopBack : Prop :=
  ∀ (s : State) (g : Guard) (pre post : List (Fin 4)) (k : Fin 4), s.ctl.order = pre ++ k :: post →
    let ends := fun (l : Fin 4) => (s.ctl.getZL l).live && decide ((s.ctl.getZL l).zle = s.ctl.pc)
    let z := s.ctl.getZL k
    ends k = true → (∀ l ∈ pre, ends l = false) →
    (z.zlc ≠ 0 → ∃ c' : Ctl, exec (.nop g) s = .next ((s.updCtl fun _ => c').went z.zls) ∧
      c'.getZL k = { z with zlc := z.zlc - 1 } ∧
      (∀ l, l ≠ k → c'.getZL l = if l ∈ s.ctl.order ∧ (s.ctl.getZL l).live = true ∧ (s.ctl.getZL l).holds z.zls = false
        then { s.ctl.getZL l with armed := false, frozen := false } else s.ctl.getZL l) ∧
      (z.stages ≠ 0 → s.ctl.stagedOther k = false →
        c'.sp.getLsbD 0 = decide (z.stages.toNat ≤ z.zlc.toNat) ∧
        ∀ n, 0 < n → n < 8 → c'.sp.getLsbD n = (decide (n < z.stages.toNat) && s.ctl.sp.getLsbD (n - 1))) ∧
      { c' with zl := s.ctl.zl, order := s.ctl.order, sp := s.ctl.sp, pc := s.ctl.pc } = s.ctl) ∧
    (z.zlc = 0 → (∀ l ∈ post, ends l = false) → ∃ c' : Ctl, exec (.nop g) s = .next ((s.updCtl fun _ => c').went (s.ctl.pc + 4)) ∧
      c'.getZL k = { z with armed := false, frozen := false } ∧ (∀ l, l ≠ k → c'.getZL l = s.ctl.getZL l) ∧
      c'.order = s.ctl.order.filter (fun l => l ≠ k) ∧ c'.sp = (if z.staged then 0 else s.ctl.sp) ∧
      { c' with zl := s.ctl.zl, order := s.ctl.order, sp := s.ctl.sp, pc := s.ctl.pc } = s.ctl)

/-- Every step of the package keeps memory in its canonical form: equal memories are equal data. -/
def Obligations.StepKeepsMemory : Prop := ∀ s t : State, s.memWf → step s = .next t → t.memWf

/-- At reset memory is in its canonical form, which is the model's own. R102, R197, R402, R410, R418: what reset leaves: no
cluster runs, its L1 holds no line, no interface and no node exists, SYS_SCRUB holds its four reset fields, SYS_ZCFG reads 0,
the BAR windows are closed, and P0 alone is true, every general register and token count reads 0 and no loop set is armed.
(That these launch values stand in a cluster that has run nothing is the model's choice, log entry 4; that every port works
is the model's choice, log entry 41.) -/
def Obligations.ResetState : Prop :=
  (State.reset.memWf ∧ State.reset.me.st.spad.wf = true) ∧
  (State.reset.me.status = .idle ∧ State.reset.me.l1 = [] ∧ State.reset.vis = [] ∧ State.reset.disp.nodes = [] ∧
    State.reset.fe.scrub = 0x50041801 ∧ State.reset.fe.zcfg = 0 ∧ State.reset.fe.windows = false ∧ State.reset.fab.ports = BitVec.allOnes 36 ∧
    State.reset.ctl.p = 1 ∧ (∀ d, State.reset.getG d = 0) ∧ (∀ l, (State.reset.ctl.getZL l).armed = false) ∧
    (∀ l, State.reset.ctl.getTok l = 0))

/-- R43, R52, R79, R80, R179, R182, R188, R189: ENGINE_ENTRY_BEGIN takes the head of a queue once nothing orders it and its
tokens are there: one leaves each queue that its pop mask names. A mask that its engine may not name is ENG_ENC. The vector
and matrix engines take the next block where they are free. ENTRY_COMPLETE of an entry that has been performed pushes its
tokens and ends it; a block ends behind its last word, a matrix block only when its lines have flipped in, one home in a
step. (That a command which its engine refuses pops nothing is the model's choice, log entry 86; that lines flip home by home
is its reading, log entry 38.) -/
def Obligations.EntriesMove : Prop :=
  (∀ (s : State) (e : Eng) (h : Entry) (q : List Entry), e ∈ [Eng.l, Eng.sq, Eng.k] →
    let s1 := s.passGates
    let ok := tkOk e s1.me.st.vkind h.tk && h.cmd.regsOk
    s1.me.st.queue e = h :: q → h.stage = .queued → s1.flows = true → s1.me.st.halted e = false → s1.me.st.blocked h = false →
    (e = .k → s1.orphan = none) → (ok = true → s1.ctl.tokensReady (popMask h.tk) = true → ∃ t, exec (.engineEntryBegin e) s = .next t ∧
      t.me.st.queue e = { h with stage := if h.cmd = .marker then .performed else .begun } :: q ∧
      (∀ k : Fin 16, t.ctl.tok.get k = if h.tk.getLsbD k.val then s.ctl.tok.get k - 1 else s.ctl.tok.get k) ∧
      t.mem = s.mem ∧ t.me.st.traps = s.me.st.traps ∧ t.ctl.g = s.ctl.g) ∧
    (ok = true → s1.ctl.tokensReady (popMask h.tk) = false → exec (.engineEntryBegin e) s = .next s1) ∧
    (ok = false → ∃ t, exec (.engineEntryBegin e) s = .next t ∧ t.me.st.queue e = q ∧ t.ctl.tok = s.ctl.tok ∧ t.mem = s.mem ∧
      (s.me.st.traps = [] →
        t.me.st.traps = [{ TrapRec.defer .engEnc e h.waddr with info16 := 0xFFFF, addr := h.cmd.badAddr }]))) ∧
  (∀ (s : State) (b : Block) (q : List Block), s.flows = true →
    (s.me.st.vqu = b :: q → s.me.st.vrun = none → ∃ t, exec (.engineEntryBegin .v) s = .next t ∧ t.me.st.vqu = q ∧
      t.me.st.vrun = some (Run.start b) ∧ t.mem = s.mem ∧ t.ctl = s.ctl) ∧
    (s.me.st.mqu = b :: q → s.me.st.mrun = none → ∃ t, exec (.engineEntryBegin .m) s = .next t ∧ t.me.st.mqu = q ∧
      t.me.st.mrun = some (Run.start b) ∧ t.mem = s.mem ∧ t.ctl = s.ctl)) ∧
  (∀ (s : State) (e : Eng) (h : Entry) (q : List Entry), e ∈ [Eng.l, Eng.sq, Eng.k] → s.me.st.queue e = h :: q →
    h.stage = .performed → ∃ t, exec (.entryComplete e) s = .next t ∧ t.me.st.queue e = q ∧ t.mem = s.mem ∧ t.ctl.g = s.ctl.g ∧
      (∀ k : Fin 16, t.ctl.tok.get k =
        if h.tk.getLsbD (16 + k.val) = true ∧ s.ctl.tok.get k ≠ 65535 then s.ctl.tok.get k + 1 else s.ctl.tok.get k) ∧
      t.ctl.ksOut = (if h.cmd.counted then s.ctl.ksOut - 1 else s.ctl.ksOut)) ∧
  (∀ (s : State) (r : Run), r.blk.len ≤ r.off →
    (s.me.st.vrun = some r → exec (.entryComplete .v) s = .next (s.updSt fun t => { t with vrun := none })) ∧
    (s.me.st.mrun = some r →
      (r.shadow = [] → s.mReplies = false → ∃ t, exec (.entryComplete .m) s = .next t ∧ t.me.st.mrun = none ∧ t.me.st.m = s.me.st.m ∧
        t.mem = s.mem ∧ t.me.st.mprog.getLsbD 47 = false) ∧
      (∀ b rest, r.shadow = b :: rest → s.input = [] → flipHome b.pa ≠ 24 → ∃ t, exec (.entryComplete .m) s = .next t ∧
        t.me.st.mrun = some { r with shadow := r.shadow.filter fun x => decide (flipHome x.pa ≠ flipHome b.pa) })))

/-- R80, R83, R87, R107, R117, R118, R132, R134: the access unit performs the head of L or S: a load binds the bytes of the
scratchpad or, on pages that the L1 does not take, of the home; a store puts its bytes there and nothing else changes in
memory; a refused load records its cause and binds zero. A load of a page that the L1 takes reads the line that it hits, and takes a line
that it misses in the state of its type where a way is free; a store writes through to the home for DEV and CXL, and makes the
line private-dirty for PRIV. CINV drops the constant lines. A stream moves one element; a
non-temporal buffer that is due writes its bytes and goes. -/
def Obligations.AccessesPerform : Prop :=
  (∀ (s s1 : State) (h : Entry) (d : Reg) (ea : Word) (off : Nat) (sz : Size) (const : Bool), s.me.st.running .l = some h →
    h.cmd = .load d ea (.spad off) sz const → s.lockWindow [off / 16384] = some s1 →
    exec .loadPerformed s = .next ((s1.updSt fun t =>
      t.bind d h.seq (BitVec.ofNat 64 (leNat (s.me.st.spad.readN off (sizeBytes sz))))).performed .l)) ∧
  (∀ (s : State) (h : Entry) (d : Reg) (ea : Word) (pa type : Nat) (sz : Size) (const : Bool), s.me.st.running .l = some h →
    h.cmd = .load d ea (.mem pa type) sz const → cached type = false → type ≠ tSys →
    (s.homeErr s.me.st.vi pa type (sizeBytes sz) h.tag false = none → exec .loadPerformed s = .next (((s.homeTouch pa type h.tag).updSt fun t =>
      t.bind d h.seq (BitVec.ofNat 64 (leNat (s.homeRead pa type (sizeBytes sz) h.tag)))).performed .l)) ∧
    (∀ c, s.homeErr s.me.st.vi pa type (sizeBytes sz) h.tag false = some c → exec .loadPerformed s =
      .next (((s.updSt fun t => t.record (accessTrap c .l h.waddr ea h.tag)).updSt fun t => t.bind d h.seq 0).performed .l))) ∧
  (∀ (s : State) (h : Entry) (d : Reg) (ea : Word) (pa type : Nat) (sz : Size) (const : Bool), s.me.st.running .l = some h →
    h.cmd = .load d ea (.mem pa type) sz const → cached type = true →
    let line := canon pa / 64
    let n := sizeBytes sz
    (∀ l, s.me.l1Line line = some l → (const = true ∨ type = tConst ∨ l.st ≠ .constant) → exec .loadPerformed s =
      .next ((s.updSt fun t => t.bind d h.seq (BitVec.ofNat 64 (leNat ((l.data.drop (canon pa % 64)).take n)))).performed .l)) ∧
    (s.me.l1Line line = none →
      (∀ c, s.homeErr s.me.st.vi (canon pa) type 64 0 false = some c → exec .loadPerformed s =
        .next (((s.updSt fun t => t.record (accessTrap c .l h.waddr ea h.tag)).updSt fun t => t.bind d h.seq 0).performed .l)) ∧
      (∀ b, s.homeErr s.me.st.vi (canon pa) type 64 0 false = none → s.me.freeBank (l1Set line) = some b →
        let bytes := s.mem.readN (64 * line) 64
        ∃ t, exec .loadPerformed s = .next t ∧ t.mem = s.mem ∧ t.me.l1 = s.me.l1 ++ [⟨line, b, fillState type const, bytes⟩] ∧
          t.me.st = ((s.updSt fun t => t.bind d h.seq (BitVec.ofNat 64 (leNat ((bytes.drop (canon pa % 64)).take n)))).performed .l).me.st))) ∧
  (∀ (s : State) (h : Entry) (ea : Word) (pa type : Nat) (sz : Size) (v : Word), s.me.st.running .sq = some h →
    h.cmd = .store ea (.mem pa type) sz v →
    let line := canon pa / 64
    let bs := leBytes (sizeBytes sz) v.toNat
    let put := fun (l : L1Line) (st : L1St) => { l with data := overlay l.data (canon pa % 64) bs, st := st }
    (type = tDev ∨ type = tCxl → s.homeErr s.me.st.vi (canon pa) type (sizeBytes sz) 0 true = none →
      ∃ t, exec .storePerformed s = .next t ∧ t.mem = s.mem.writeN (canon pa) bs ∧ t.ctl = s.ctl ∧
        (s.me.l1Line line = none → t.me.l1 = s.me.l1) ∧
        (∀ l, s.me.l1Line line = some l →
          t.me.l1 = if l.st = .constant then s.me.l1 else s.me.l1.map fun q => if q.line = line then put l l.st else q)) ∧
    (type = tPriv → (∀ l, s.me.l1Line line = some l → l.st ≠ .constant → ∃ t, exec .storePerformed s = .next t ∧ t.mem = s.mem ∧
        t.ctl = s.ctl ∧ t.me.l1 = s.me.l1.map fun q => if q.line = line then put l .privateDirty else q) ∧
      (∀ b, s.me.l1Line line = none → s.homeErr s.me.st.vi (canon pa) type (sizeBytes sz) 0 true = none →
        s.me.freeBank (l1Set line) = some b → ∃ t, exec .storePerformed s = .next t ∧ t.mem = s.mem ∧ t.ctl = s.ctl ∧
          t.me.l1 = s.me.l1 ++ [put ⟨line, b, .privateDirty, s.mem.readN (64 * line) 64⟩ .privateDirty]))) ∧
  (∀ (s : State) (h : Entry), s.me.st.running .l = some h →
    (h.cmd = .cinv → exec .loadPerformed s =
      .next ({ s with me := { s.me with l1 := s.me.l1.filter fun l => decide (l.st ≠ L1St.constant) } }.performed .l)) ∧
    (h.cmd = .marker → exec .loadPerformed s = .next (s.performed .l))) ∧
  (∀ (s : State) (h : Entry) (ea : Word) (sz : Size) (v : Word), s.me.st.running .sq = some h →
    let bs := leBytes (sizeBytes sz) v.toNat
    (∀ off, h.cmd = .store ea (.spad off) sz v → exec .storePerformed s =
      .next ((s.updSt fun t => { t with spad := t.spad.writeN off bs }.filled [off / 16384] none).performed .sq)) ∧
    (∀ pa type, h.cmd = .store ea (.mem pa type) sz v → cached type = false → type ≠ tSys → usesCell type h.tag = false →
      s.homeErr s.me.st.vi pa type (sizeBytes sz) h.tag true = none →
      let a := s.storage pa type true
      ∃ t, exec .storePerformed s = .next t ∧ t.mem.readN a (sizeBytes sz) = bs ∧
        (∀ b, b < a ∨ a + sizeBytes sz ≤ b → t.mem.read b = s.mem.read b) ∧ t.ctl = s.ctl ∧ t.me.st.spad = s.me.st.spad)) ∧
  (∀ (s : State) (h : Entry) (q : BitVec 2) (sz : Size) (base c0 s0 c1 s1 : Word),
    let total := c0.toNat * c1.toNat
    let va := streamAddr base c0 s0 s1 h.done
    let n := sizeBytes sz
    (s.me.st.running .l = some h → h.cmd = .qld q sz base c0 s0 c1 s1 →
      (total ≤ h.done → exec (.streamElement false) s = .next (s.performed .l)) ∧
      (∀ x y pl bs, h.done < total → s.heldNow .l = false → (s.me.st.q.lq.get ⟨q.toNat, q.isLt⟩).length + n ≤ Config.queueBytes →
        s.lookup va.toNat n false none = (x, .ok pl) →
        (x.updSt fun t => t.release .l).access .l h pl n false h.tag none = .now y (.ok bs) →
        exec (.streamElement false) s =
          .next ((y.updSt fun t => { t with q := t.q.append q va h.tag bs, vdry := false, mdry := false }).advance .l total))) ∧
    (s.me.st.running .sq = some h → h.cmd = .qst q sz base c0 s0 c1 s1 →
      (total ≤ h.done → exec (.streamElement true) s = .next (s.performed .sq)) ∧
      (∀ x y pl, h.done < total → s.heldNow .sq = false → n ≤ (s.me.st.q.sq.get ⟨q.toNat, q.isLt⟩).length →
        s.lookup va.toNat n true none = (x, .ok pl) →
        (x.updSt fun t => t.release .sq).access .sq h pl n false h.tag (some (s.me.st.q.storeHead q n)) = .now y (.ok []) →
        exec (.streamElement true) s =
          .next ((y.updSt fun t => { t with q := t.q.storeTake q n, vdry := false, mdry := false }).advance .sq total)))) ∧
  (∀ (s : State) (k : Nat) (b : NtBuf), s.me.st.nt[k]? = some b → s.ntDue k b = true → b.type ≠ tSys → s.me.l1Line b.line = none →
    s.homeErr s.me.st.vi (64 * b.line) b.type b.bytes.length 0 true = none →
    exec (.ntBufferWrite k) s = .next ((s.writeRuns (64 * b.line) b.type (byteRuns b.bytes)).dropNt k))

/-- R142 to R144, R147 to R152: an atomic reads its location and writes the new value in one step at the home, and binds
the old value; FADD and BARV add at a slot, whose completed rounds advance its phase; FSET and BARINIT set slots. -/
def Obligations.AtomicsPerform : Prop :=
  (∀ (s : State) (h : Entry) (op : AOp) (d : Reg) (ea : Word) (pa type : Nat) (d64 : Bool) (v c : Word) (sc : Scope) (ord : Order),
    s.me.st.running .sq = some h → h.cmd = .atomic op d ea (.mem pa type) d64 v c sc ord → type ≠ tSys →
    s.me.l1Line (canon pa / 64) = none → usesCell type h.tag = false →
    let n := if d64 then 8 else 4
    let w := 8 * n
    let a := s.storage pa type true
    let x := leNat (s.mem.readN a n)
    let y := v.toNat % 2 ^ w
    s.homeErr s.me.st.vi pa type n h.tag true = none →
    let new := match op with
      | .add => (x + y) % 2 ^ w
      | .and => Nat.land x y
      | .or => Nat.lor x y
      | .xor => Nat.xor x y
      | .min => if sextNat x w ≤ sextNat y w then x else y
      | .max => if sextNat x w ≤ sextNat y w then y else x
      | .minn => if x ≤ y then x else y
      | .maxn => if x ≤ y then y else x
      | .xchg => y
      | .cas => if x = c.toNat % 2 ^ w then y else x
    ∃ t, exec .atomicExecute s = .next t ∧ t.mem = s.mem.writeN a (leBytes n new) ∧
      (d ≠ 0 → s.me.st.pendDst.get (gIdx d) = some h.seq → t.getG d = BitVec.ofNat 64 x) ∧
      (∀ r, r ≠ d → t.getG r = s.getG r) ∧ t.me.st.spad = s.me.st.spad ∧ t.ctl.p = s.ctl.p) ∧
  (∀ (s : State) (h : Entry) (n : BitVec 10) (arg : Word) (sc : Scope) (barv : Bool), s.me.st.running .sq = some h →
    h.cmd = (if barv then .barv n arg sc else .fadd n arg sc) → (barv = false → sc ≠ .sys) →
    let j := if barv then arg.toNat else arg.toNat / 2 ^ 16
    let k := s.me.st.node
    let old := s.slot k j n.toNat
    let x := (old.value.toNat + (if barv then 1 else arg.toNat % 2 ^ 16)) % 2 ^ 32
    let goal := old.goal.toNat
    s.strandDone k j = false → j < 64 →
    ∃ t, exec .slotUpdate s = .next t ∧
      t.slot k j n.toNat = (if goal = 0 ∨ x < goal then { old with value := BitVec.ofNat 32 x }
        else { old with value := BitVec.ofNat 32 (x % goal), phase := old.phase + BitVec.ofNat 8 (x / goal) }) ∧
      (old.fanout = 0 → ∀ j' n', j' < 64 → n' < 1024 → (j' ≠ j ∨ n' ≠ n.toNat) → t.slot k j' n' = s.slot k j' n') ∧
      t.mem = s.mem ∧ t.ctl = s.ctl) ∧
  (∀ (s : State) (h : Entry) (n : BitVec 10) (mask : Word) (sc : Scope), s.me.st.running .sq = some h → h.cmd = .fset n mask sc →
    let k := s.me.st.node
    ∃ t, exec .slotUpdate s = .next t ∧ t.mem = s.mem ∧ ∀ j, j < 64 →
      t.slot k j n.toNat = if mask.getLsbD j = true ∧ s.strandDone k j = false
        then { s.slot k j n.toNat with phase := (s.slot k s.me.st.idx n.toNat).phase } else s.slot k j n.toNat) ∧
  (∀ (s : State) (h : Entry) (n : BitVec 10) (goal fan : Word), s.me.st.running .sq = some h → h.cmd = .barinit n goal fan →
    let k := s.me.st.node
    let old := s.slot k s.me.st.idx n.toNat
    (goal.toNat % 65536 = 0 ∨ old.value.toNat < goal.toNat % 65536) →
    ∃ t, exec .slotUpdate s = .next t ∧ t.mem = s.mem ∧
      t.slot k s.me.st.idx n.toNat = { old with goal := goal.setWidth 16, fanout := fan })

/-- R89 to R92, R95, R136, R137: COPY_SUBMIT of a command outside its limits is ENG_ENC; a KFILL inside one granule of the
window fills it and runs with no line of its own; COPY_COMPLETE flips the lines of the running command in, byte by byte what
the command wrote, and ends it. KPUB_FLIP swaps the halves of a region without writers, counts it, and copies the bytes
that have become visible to the new shadow half. (That a limit is judged before anything else is the model's reading, log entry
89; that the window bytes of a command are written in the step that submits it is the model's choice, log entry 88.) -/
def Obligations.CopiesRun : Prop :=
  (∀ (s : State) (h : Entry) (op : KOp) (x : Bool) (gd ga gb gb1 tags : Word), s.me.st.running .k = some h →
    h.cmd = .copy op x gd ga gb gb1 tags → copyLimits op gb = false → s.heldNow .k = false → s.aborting = false →
    ∃ t, exec .copySubmit s = .next t ∧ t.me.st = s.me.st.engEnc .k h 0xFFFF (copyBadAddr op gd ga gb gb1) ∧ t.mem = s.mem ∧
      t.shadow = s.shadow ∧ t.pins = s.pins) ∧
  (∀ (s s1 : State) (h : Entry) (gd ga gb gb1 tags : Word) (off : Nat), s.me.st.running .k = some h →
    h.cmd = .copy .fill false gd ga gb gb1 tags →
    let n := gb.toNat
    0 < n → gd.toNat % 65536 + n ≤ 65536 → spadBase ≤ gd.toNat / 65536 * 65536 → gd.toNat + n ≤ 2 ^ 64 →
    s.lookup gd.toNat n true none = (s1, .ok (.spad off)) → s.heldNow .k = false → s.aborting = false → s.me.st.locks = [] →
    (∀ d, d < 24 → s1.shadowLines d ≤ 262144) → pinsUsed s1.me.die s1.pins ≤ 16384 →
    ∃ t, exec .copySubmit s = .next t ∧
      t.me.st.spad = s1.me.st.spad.writeN off ((List.range n).map fun i => BitVec.ofNat 8 (ga.toNat / 2 ^ (8 * (i % 8)))) ∧
      t.mem = s1.mem ∧ t.pins = s1.pins ∧
      (∃ q : CopyRun, t.shadow = s1.shadow ++ [q] ∧ q.key = s1.me.key ∧ q.bytes = []) ∧
      ∃ h' r, t.me.st.kqu = h' :: r ∧ h'.stage = .submitted ∧ h'.cmd = h.cmd) ∧
  (∀ (s : State) (h : Entry) (r : List Entry) (q : CopyRun), s.me.st.kqu = h :: r → h.stage = .submitted → h.done = 0 →
    s.shadow.find? (fun x => decide (x.key = s.me.key)) = some q → s.me.l1 = [] → s.copyReplies h.seq = false → s.input = [] →
    (∀ b ∈ q.bytes, b.tw = false ∧ b.pub = false ∧ b.pa < windowBase ∧ flipHome (64 * (b.pa / 64)) < 24 ∧ s.unbacked (64 * (b.pa / 64)) = none ∧
      s.poison.contains (b.pa / 64) = false) →
    (q.bytes.map fun b => b.pa).Nodup →
    ∃ t, exec (.copyComplete (List.range 24)) s = .next t ∧ (∀ b ∈ q.bytes, t.mem.read b.pa = b.val) ∧
      (∀ a, (∀ b ∈ q.bytes, b.pa ≠ a) → t.mem.read a = s.mem.read a) ∧ t.shadow = s.shadow.filter (fun x => decide (x.key ≠ q.key)) ∧
      t.me.st.kqu = { h with stage := .performed } :: r ∧ t.ctl = s.ctl) ∧
  (∀ (s s1 : State) (h : Entry) (ea : Word) (pa : Nat) (p : Pub), s.memWf → s.me.st.running .k = some h → h.cmd = .kpub ea →
    (∀ b ∈ s.me.st.nt, h.seq ≤ b.first) → (∀ e ∈ s.me.st.squ, e.seq < h.seq → e.stage = .performed) →
    s.lookup ea.toNat 1 false none = (s1, .ok (.mem pa tPub)) → s1.memWf → s1.pubOf (canon pa) = some p → p.writers = 0 →
    p.waits = [] → h.done = 0 → s.heldNow .k = false → s.aborting = false → (∀ q ∈ s1.pubs, q.base = p.base → q = p) →
    let vis := if p.sel then p.base else p.base + p.size
    let sh := if p.sel then p.base + p.size else p.base
    ∃ t, exec .kpubFlip s = .next t ∧
      t.pubs = s1.pubs.map (fun q => if q.base = p.base then { p with sel := !p.sel, pcnt := p.pcnt + 1 } else q) ∧
      (∀ o, o < p.size → t.mem.read (sh + o) = s1.mem.read (vis + o)) ∧
      (∀ a, (a < sh ∨ sh + p.size ≤ a) → t.mem.read a = s1.mem.read a))

/-- R159, R160, R165, R166, R168, R170: an allocator serves the oldest TALLOC of its die with its lowest free index, which
becomes live, and a TALLOC that arrives meanwhile waits behind the others; a TALLOC that has waited for the interval binds zero with TAG_WAIT, and a write that waits for a cell is
discarded with CELL_FULL. A retirement begins on a live tag of the interface; each home acknowledges it once and frees the
tag's cells; with every acknowledgement the index is free at the next generation. -/
def Obligations.TagsServe : Prop :=
  (∀ (s : State) (h : Entry) (r : List Entry) (d : Reg) (i : Nat), s.me.st.squ = h :: r → h.stage = .begun → h.cmd = .talloc d →
    s.tagWaits = [] → s.input = [] → s.me.status ≠ .idle → s.freeTag s.me.die = some i →
    s.tagsLive s.me.st.vi < s.tagQuota s.me.st.vi → d ≠ 0 → s.me.st.pendDst.get (gIdx d) = some h.seq →
    let x := s.tagRec s.me.die i
    ∃ t, exec .tallocServe s = .next t ∧ t.getG d = BitVec.ofNat 64 (s.me.die * 2048 + i + x.gen.toNat * 65536) ∧
      t.tagRec s.me.die i = { x with die := s.me.die, idx := i, st := .live, vi := s.me.st.vi, stream := s.me.st.stream } ∧ t.tagWaits = [] ∧
      (∀ e r', t.me.st.squ = e :: r' → e.stage = .performed) ∧ t.mem = s.mem) ∧
  (∀ (s : State) (w : TagWait), s.input = [] → s.tagWaits.find? (fun w => decide (w.die = s.me.die)) = some w →
    let joins := match s.me.st.running .sq with
      | some h => (match h.cmd with
        | .talloc _ => [⟨s.me.die, s.me.st.node, s.me.st.idx, s.me.st.vi, s.me.st.stream⟩]
        | _ => [])
      | none => []
    (∀ i, s.freeTag s.me.die = some i → s.tagsLive w.vi < s.tagQuota w.vi →
      let x := s.tagRec s.me.die i
      ∃ t, exec .tallocServe s = .next t ∧
        t.tagRec s.me.die i = { x with die := s.me.die, idx := i, st := .live, vi := w.vi, stream := w.stream } ∧
        t.tagWaits = s.tagWaits.erase w ++ joins ∧ t.mem = s.mem ∧
        (∀ (h : Entry) (r : List Entry) (d : Reg), s.me.status ≠ .idle → w.node = s.me.st.node → w.idx = s.me.st.idx →
          s.me.st.squ = h :: r → h.stage = .submitted → h.cmd = .talloc d → d ≠ 0 → s.me.st.pendDst.get (gIdx d) = some h.seq →
          t.getG d = BitVec.ofNat 64 (s.me.die * 2048 + i + x.gen.toNat * 65536) ∧
          t.me.st.squ = { h with stage := .performed } :: r)) ∧
    (s.freeTag s.me.die = none ∨ s.tagQuota w.vi ≤ s.tagsLive w.vi → ∃ t, exec .tallocServe s = .next t ∧
      t.tags = s.tags ∧ t.tagWaits = s.tagWaits ++ joins ∧ t.ctl = s.ctl ∧ t.mem = s.mem)) ∧
  (∀ (s : State) (h : Entry) (r : List Entry) (d : Reg) (lim : Nat), s.me.st.squ = h :: r → s.tagLimit s.me.st.vi = some lim →
    h.cmd = .talloc d → h.stage = .submitted → lim ≤ s.me.st.wdTag → d ≠ 0 → s.me.st.pendDst.get (gIdx d) = some h.seq →
    ∃ t, exec .tagWaitTimeout s = .next t ∧ t.getG d = 0 ∧ t.me.st.squ = { h with stage := .performed } :: r ∧
      (s.me.st.traps = [] → t.me.st.traps = [TrapRec.defer .tagWait .sq h.waddr]) ∧ t.tags = s.tags) ∧
  (∀ (s : State) (h : Entry) (ea : Word) (pa type : Nat) (sz : Size) (v : Word) (lim : Nat), s.me.st.running .sq = some h →
    s.tagLimit s.me.st.vi = some lim → lim ≤ s.me.st.wdTag → h.cmd = .store ea (.mem pa type) sz v →
    s.cellStalls pa type h.tag = true →
    exec .cellFullTimeout s = .next ((s.updSt fun t => t.record (accessTrap .cellFull .sq h.waddr ea h.tag)).performed .sq)) ∧
  (∀ (s : State) (h : Entry) (r : List Entry) (t : BitVec 20), s.me.st.squ = h :: r → h.stage = .begun → h.cmd = .tretire t →
    let x := s.tagRec (tagDie t) (tagIdx t)
    (x.st = .live ∧ x.vi = s.me.st.vi ∧ x.gen.toNat = t.toNat / 65536 → ∃ u, exec .retireStart s = .next u ∧
      u.tagRec x.die x.idx = { x with st := .retiring } ∧
      u.retires = s.retires ++ [⟨x.die, x.idx, x.vi, some (s.me.st.node, s.me.st.idx), [], []⟩] ∧
      u.me.st.squ = { h with stage := .submitted } :: r) ∧
    (¬ (x.st = .live ∧ x.vi = s.me.st.vi ∧ x.gen.toNat = t.toNat / 65536) → ∃ u, exec .retireStart s = .next u ∧ u.tags = s.tags ∧
      u.retires = s.retires ∧ u.me.st.squ = { h with stage := .performed } :: r ∧
      (s.me.st.traps = [] → u.me.st.traps = [accessTrap .tagStale .sq h.waddr 0 t]))) ∧
  (∀ (s : State) (k d : Nat) (r : Retire), s.retires[k]? = some r → d < 24 → r.acks.contains d = false →
    s.tagBusy (r.die * 2048 + r.idx) d = false →
    ∃ u, exec (.retireNotice k d) s = .next u ∧ (∃ r', u.retires[k]? = some r' ∧ r'.acks = r.acks ++ [d] ∧ d ∈ r'.noticed ∧
        { r' with acks := r.acks, noticed := r.noticed } = r) ∧ u.mem = s.mem ∧
      u.cells = s.cells.filter (fun c => !(decide (c.tag = r.die * 2048 + r.idx) && decide (homeDie (64 * c.line) = d)))) ∧
  (∀ (s : State) (k : Nat) (r : Retire), s.retires[k]? = some r → (∀ d, d < 24 → r.acks.contains d = true) →
    let x := s.tagRec r.die r.idx
    ∃ u, exec (.retireComplete k) s = .next u ∧ u.retires = s.retires.eraseIdx k ∧
      u.tagRec r.die r.idx = { x with st := .free, gen := x.gen + 1 } ∧ u.mem = s.mem)

/-- R61, R66, R67, R69, R70, R76, R355: a page walk of the walker leaves the leaf's translation in the TLB and sets A (and D
for a write); the first fault that an agent holds takes the front end's answer, and the stall wire falls with the last one;
a write of SYS_SDCTL with GO sets GO and takes every TLB entry of its scope, unless GO stands or SIZE is 3; GO falls once
no access of the scope is owed. -/
def Obligations.TranslationSteps : Prop :=
  (∀ (s : State) (va : Word) (write : Bool), va.toNat < rsvdBase →
    let vi := s.me.st.vi
    let walk := (s.walkBy (some s.me.die) vi va.toNat).2
    ((∀ p ∈ s.ptrs, p.die = s.me.die → p.vi ≠ vi) → walk = s.walkVi vi va.toNat) ∧
    (∀ l, walk = .ok l → ∃ tlb free l2 ptrs seen e, exec (.pageWalk va write) s = .next { s with
        me := { s.me with tlb := tlb }, free := free, l2 := l2, ptrs := ptrs, seen := seen,
        mem := if l.touched write = l.entry then s.mem else s.mem.writeN l.entryPa (leBytes 8 (l.touched write)) } ∧
      e ∈ tlb ∧ e.vi = vi ∧ e.va = va.toNat / l.size * l.size ∧ e.size = l.size ∧ e.pa = leafPa l.entry ∧ e.type = l.type ∧
      e.w = l.w ∧ ∀ x ∈ tlb, x = e ∨ x ∈ s.me.tlb) ∧
    (∀ c, walk = .error c → ∃ free l2 ptrs, exec (.pageWalk va write) s = .next { s with free := free, l2 := l2, ptrs := ptrs })) ∧
  (∀ (s : State) (pre post : List Held) (h : Held) (ws : List (Nat × Word)), s.me.st.held = pre ++ h :: post →
    (∀ x ∈ pre, x.open' = false) → h.open' = true → s.me.status ≠ .idle → s.fe.events = [] →
    (∃ k, (k, Event.fault s.me.st.node) ∈ s.fe.cores) →
    (∃ cores, exec (.faultService false ws) s = .next ({ s with fe := { s.fe with cores := cores } }.updSt fun t =>
      { t with held := pre ++ { h with serviced := false, declined := true } :: post })) ∧
    (s.pool.mayRemap ws = true → ∃ mem l2 free cores, exec (.faultService true ws) s =
        .next ({ s with mem := mem, l2 := l2, free := free, fe := { s.fe with cores := cores } }.updSt fun t =>
        { t with held := pre ++ { h with serviced := true, declined := false } :: post }) ∧
      (∀ b, (∀ w ∈ ws, b < canon w.1 ∨ canon w.1 + 8 ≤ b) → mem.read b = s.mem.read b) ∧
      ∀ a v, ws = [(a, v)] → a % 8 = 0 → apert a = .linear → mem.readN a 8 = leBytes 8 v.toNat)) ∧
  (∀ (s : State), s.me.st.node ∈ s.stallWires → s.me.status ≠ .idle →
    (∀ c ∈ s.gangClusters, c.st.refetching = false ∧ ∀ h ∈ c.st.held, h.open' = false) →
    ∃ t, exec .stallWireRelease s = .next t ∧ t.stallWires = s.stallWires.filter (fun n => decide (n ≠ s.me.st.node)) ∧
      t.me.st = { s.me.st with held := s.me.st.held.filter fun h => h.declined } ∧ t.mem = s.mem) ∧
  (∀ row ∈ [(Instr.shootdownPage, 0), (.shootdownRange, 1), (.shootdownVi, 2), (.shootdownAll, 3)], ∀ (s : State) (v : Word),
    let w := (v &&& ~~~6) ||| BitVec.ofNat 64 (2 * row.2) ||| 1
    (s.hostUp = false → exec (row.1 v) s = .next s) ∧
    (s.fe.sdctl.getLsbD 0 = true ∨ w.toNat / 8 % 4 = 3 → exec (row.1 v) s = .next s) ∧
    (s.hostUp = true → s.fe.sdctl.getLsbD 0 = false → w.toNat / 8 % 4 ≠ 3 → ∃ t, exec (row.1 v) s = .next t ∧ t.fe.sdctl.getLsbD 0 = true ∧
      (∀ c ∈ t.clusters, ∀ e ∈ c.tlb, s.sdCovers w e.vi e.va e.size = false) ∧ t.me.st = s.me.st ∧
      (w.getLsbD 13 = false → t.mem = s.mem ∧ t.me.l1 = s.me.l1 ∧
        ∀ e ∈ s.me.tlb, s.sdCovers w e.vi e.va e.size = false → e ∈ t.me.tlb))) ∧
  (∀ (s : State), s.fe.sdctl.getLsbD 0 = true →
    let owes := fun (m : Nat × Nat × Nat) (t : Strand) => t.node = m.1 ∧ t.idx = m.2.1 ∧ s.sdOwes s.fe.sdctl t m.2.2 = true
    ((∀ m ∈ s.fe.sdMarks, ∀ t ∈ s.strands, ¬ owes m t) → exec .shootdownComplete s =
      .next { s with fe := { s.fe with sdctl := s.fe.sdctl &&& ~~~1, sdMarks := [] } }) ∧
    ((∃ m ∈ s.fe.sdMarks, ∃ t ∈ s.strands, owes m t) → exec .shootdownComplete s = .next s))

/-- R100, R307, R309, R351, R356 to R359, R372: the watchdogs trap at the stalled word and record WDOG for an entry without
progress; a slice that is due takes the gang off its clusters, and once every strand stands at its boundary the gang is
saved, or held after a trap; a strand at DONE ends once its engines are idle, or takes the trap that one holds; a group of
relaxations waits for its last member, starts with it, or has ENG_ENC. (The interval counters count 80 to the millisecond, log
entry 12; an expired engine watchdog keeps a count past every interval, log entry 59: both are the model's choice.) -/
def Obligations.StrandSteps : Prop :=
  (∀ (s : State),
    let lim := 80 * ((s.vi s.me.st.vi).wdog.toNat % 65536)
    s.me.status = .running → s.me.st.stall = true → s.me.st.node ∉ s.stallWires →
    (lim ≠ 0 → lim ≤ s.me.st.wdC → exec .controlWatchdogExpire s =
      .next ((s.updSt fun t => { t with finish := false }).trapEntry (TrapRec.precise .wdog s.ctl.pc))) ∧
    (lim = 0 ∨ s.me.st.wdC < lim → exec .controlWatchdogExpire s = .next s)) ∧
  (∀ (s : State) (e : Eng) (h : Entry) (q : List Entry), e ∈ [Eng.l, Eng.sq, Eng.k] → s.me.st.queue e = h :: q →
    h.stage = .begun ∨ h.stage = .submitted → s.me.status ≠ .idle → s.me.st.node ∉ s.stallWires →
    let lim := 80 * ((s.vi s.me.st.vi).wdog.toNat / 65536 % 65536)
    let n := s.me.st.wdE.get (engIdx e)
    lim ≠ 0 → lim ≤ n → n < 2 ^ 40 → s.me.st.traps = [] → exec (.engineWatchdogExpire e) s = .next (s.updSt fun t =>
      { t with traps := [TrapRec.defer .wdog e h.waddr], wdE := t.wdE.set (engIdx e).val (2 ^ 40) (engIdx e).isLt,
               ctl := { t.ctl with trp := { t.ctl.trp with pend := none } } })) ∧
  (∀ (s : State), s.me.status = .running → s.switchable = true →
    let v := s.vi s.me.st.vi
    v.sliced = true →
    ((v.slice.toNat % 2 ^ 24 ≠ 0 ∧ v.slice.toNat % 2 ^ 24 ≤ s.me.st.slice ∧ s.waitedFor (fun n => !s.filler n) = true) ∨
      v.funded = false) →
    exec .sliceEnd s = .next { s with
      me := { s.me with status := .leaving, st := s.me.st.stirred },
      peers := s.peers.map (Cluster.leaveNode s.me.st.vi s.me.st.node) }) ∧
  (∀ (s : State) (n : Node), s.node s.me.st.node = some n → n.status = 0 → s.me.status ≠ .idle → n.slot ∉ s.stallWires →
    (∃ c ∈ s.gangClusters, c.status = .leaving) → s.overflowFree = true →
    (∀ c ∈ s.gangClusters, c.status = .finished ∨ (c.status = .leaving ∧ c.st.quiet = true)) →
    ∃ t n', exec .switchOutComplete s = .next t ∧ t.node n.slot = some n' ∧
      (∀ c ∈ t.clusters, c.status ≠ .idle → c.st.node ≠ n.slot) ∧
      n'.saved = byIndex (s.gangClusters.map fun c => c.st.toSave) n.gang ∧
      (n.trapped = none → n'.state = .away ∧ n'.status = 0) ∧
      (n.trapped ≠ none → n'.state = .held ∧ n'.status = if (s.vi n.vi).tvec.toNat % 2 = 0 then 5 else 0)) ∧
  (∀ (s : State), s.me.status = .running → s.me.st.finish = true →
    (s.me.st.traps = [] → s.me.st.idle = true → s.me.st.nt = [] → ∃ t, exec .strandFinish s = .next t ∧
      t.me.status = .finished ∧ t.me.st.spad = [] ∧ t.ctl = s.ctl ∧ (∀ l ∈ t.me.l1, l.st ≠ .privateDirty) ∧
      t.disp = s.disp.updNode s.me.st.node fun n => { n with finished := n.finished ++ [s.me.st.idx] }) ∧
    (∀ r, s.me.st.firstTrap EMask.all engOrder = some r → exec .strandFinish s =
      .next ((s.updSt fun t => { t with finish := false, traps := t.traps.erase r }).trapEntry r))) ∧
  (∀ (s : State), s.me.atStage 7 = true →
    let cs := s.groupClusters
    (∀ c ∈ cs, c.atStage 7 = true) → s.me ∈ cs →
    (cs.length = s.me.st.m.rx.members → ∃ t, exec .relaxGroupStart s = .next t ∧ t.mem = s.mem ∧
      t.me.st = if groupOk cs (cs.filterMap Cluster.member) then s.me.st.toStage 8 else s.me.st.stageEnc) ∧
    (cs.length < s.me.st.m.rx.members → exec .relaxGroupStart s = .next s))

/-- R325 to R328, R330, R331, R358, R412: acceptance puts every record of a graph into a slot of its own graph; a graph's release
puts its nodes without predecessors into the pool; the first candidate takes its clusters, with its launch state or its
saved one; a completion frees the clusters, counts down the successors or fails them, reports, and faults the stream with
the last node of a failed graph. (That records at an address which is no multiple of 64 fail the nodes with status 3 is the
model's reading, log entry 44; whether the limiter admits a node, which is a hypothesis here, rests on log entry 43.) -/
def Obligations.GraphSteps : Prop :=
  (∀ (s : State) (u : Submission) (rest : List Submission), s.disp.subs = u :: rest →
    (s.nodesFit u.count = true → ∃ (t : State) (new : List Node) (stream : Nat), exec .nodeAccept s = .next t ∧ t.disp.nodes = s.disp.nodes ++ new ∧
      t.disp.graphs = s.disp.graphs ++ [⟨s.disp.nextGraph, u.vi, stream, u.count, false, false⟩] ∧ new.length = u.count ∧
      ∀ (k : Nat) (n : Node), new[k]? = some n → n.vi = u.vi ∧ n.gidx = k ∧ n.graph = s.disp.nextGraph ∧ n.stream = stream ∧ n.state = .accepted ∧
        n.cookie = u.cookie ∧ (u.bad = true ∨ u.recs.toNat % 64 ≠ 0 → n.status = 3)) ∧
    (s.nodesFit u.count = false → exec .nodeAccept s = .next s)) ∧
  (∀ (s : State) (vi stream : Nat) (g : Graph), (s.disp.graphs.find? fun g => decide (g.vi = vi) && decide (g.stream = stream)) = some g →
    (g.released = true ∨ (vi, stream) ∈ s.disp.faulted → exec (.graphRelease vi stream) s = .next s) ∧
    (g.released = false → (vi, stream) ∉ s.disp.faulted → exec (.graphRelease vi stream) s = .next { s with disp := { s.disp with
      graphs := s.disp.graphs.map fun q => if q.id = g.id then { q with released := true } else q,
      nodes := s.disp.nodes.map fun n => if n.graph = g.id ∧ n.state = .accepted ∧ n.status = 0 ∧ n.left = 0
        then { n with state := .ready, entered := s.pow.now, order := s.disp.entries } else n,
      examined := [], entries := s.disp.entries + 1 } })) ∧
  (∀ (s : State) (n : Node) (rest : List Node) (p : List (Nat × Nat)), s.candidates = n :: rest → s.reservedAgainst n = false →
    s.powerAdmits n = true → choosePlaces (s.freeClusters n) n.gang (s.opndHome n) = some p → p.Nodup → p.length = n.gang →
    ∃ t, exec .placement s = .next t ∧
      (∀ n' ∈ t.disp.nodes, n'.slot = n.slot → n'.state = .placed ∧ n'.places = p) ∧
      (n.state ≠ .away → ∀ k d c, p[k]? = some (d, c) → ∃ x ∈ t.clusters, x.die = d ∧ x.clus = c ∧ x.status = .running ∧
        x.st = n.launch (((s.vi n.vi).kernelAt n.kernel.toNat).getD Code.empty) k ∧ x.thrNow = 0 ∧ x.thrSticky = 0 ∧ x.thrCyc = 0) ∧
      (n.state = .away → ∀ (k d c : Nat) (u : Strand), p[k]? = some (d, c) → n.saved[k]? = some u → ∃ x ∈ t.clusters, x.die = d ∧ x.clus = c ∧
        x.status = (if u.idx ∈ n.finished then .finished else .running) ∧
        x.st.ctl = { u.ctl with trp := { u.ctl.trp with pend := x.st.ctl.trp.pend } } ∧ x.st.v = u.v ∧ x.st.m = u.m ∧
        x.st.spad = u.spad ∧ x.st.q.sq = u.q.sq ∧ x.st.lqu = u.lqu ∧ x.st.squ = u.squ ∧ x.st.kqu = u.kqu)) ∧
  (∀ (s : State) (k st : Nat) (n : Node), s.node k = some n → s.nodesFit 1 = true →
    (st = 0 ∧ n.status = 0 ∧ n.finished.length = n.gang ∧ n.state = .placed) ∨
      (st ≠ 0 ∧ n.status = st ∧ n.state ≠ .placed ∧ ∃ g ∈ s.disp.graphs, g.id = n.graph ∧ g.released = true) →
    ∃ t, exec (.nodeComplete k) s = .next t ∧
      t.disp.nodes = (s.disp.nodes.filter fun q => decide (q.slot ≠ k)).map (fun q =>
        if q.graph ≠ n.graph ∨ n.gidx ∉ q.preds then q
        else if st ≠ 0 then (if q.status = 0 then { q with status := 4 } else q)
        else { q with left := q.left - 1 }.enter s.pow.now s.disp.entries) ∧
      (∀ c ∈ t.clusters, c.status ≠ .idle → c.st.node ≠ k) ∧ t.stallWires = s.stallWires.filter (fun x => decide (x ≠ k)) ∧
      ((s.vi n.vi).crCfg.getLsbD 0 = true → s.fe.events = [] → (t.vi n.vi).crIdx = (s.vi n.vi).crIdx + 1) ∧
      (st ≠ 0 → (∀ q ∈ s.disp.nodes, q.slot ≠ k → q.graph ≠ n.graph) → (n.vi, n.stream) ∈ t.disp.faulted)) ∧
  (∀ (s : State) (k : Nat) (n : Node), s.node k = some n → n.status = 0 → n.finished.length < n.gang →
    exec (.nodeComplete k) s = .next s)

/-- R2, R334, R378, R409, R410, R411, R417, R418, R421, R164, R152: host writes. A register that only holds bits reads back its
own; the counters of W1C clear; queues are enabled and announced; interfaces are enabled, torn down and given their clusters,
while no spatial cluster is shared; the cell store is set before the first interface is enabled. Before the windows open and
while the host link is down nothing is written and every read is all ones. BAR2 reads and writes memory under the interface's
tables, a read behind every earlier write to another package; an access that faults anywhere writes nothing and is counted.
(That a refused enable of a launch queue keeps LSIZE is the model's reading, log entry 69; that any 1 in the low half clears a
W1C counter, log entry 70; that a register write reaches the export entries is its choice, log entry 93.) -/
def Obligations.HostRegisters : Prop :=
  (∀ (s : State) (tgt : RegTarget) (v : Word), s.hostUp = false →
    exec (.registerWrite tgt v) s = .next s ∧ exec (.w1cClear tgt v) s = .next s ∧ s.hostRead tgt = BitVec.allOnes 64) ∧
  (∀ row ∈ [(0x8000, 0x7F), (0x8002, 0x00FFFFFFFFFF0000), (0x8004, 0x0000FFFFFFFF3FFF), (0x8005, 0xFFFFFF),
      (0x8006, 0x0000FFFFFFFFFFFF), (0x8007, 0xFFFFFF01), (0x8008, 0xFF), (0x800A, 0x1FFFFF), (0x800B, 0x000FFFFFFFFFFFFF),
      (0x800C, 0x1FFFFF), (0x800D, 0x000FFFFFFFFFFFFF), (0x8101, 0x000FFFFFFFFFF801), (0x8103, 0xFF01), (0x8104, 0xFFFFFF),
      (0x8105, 0xFFFFFFFF), (0x8107, 0xFFFF0001), (0x8108, 0xFF)], ∀ (s : State) (v : Word), s.hostUp = true →
    ∃ t, exec (.registerWrite (.ctl row.1) v) s = .next t ∧ t.hostRead (.ctl row.1) = v &&& BitVec.ofNat 64 row.2 ∧
      t.mem = s.mem ∧ t.me = s.me ∧ t.disp = s.disp) ∧
  (∀ row ∈ [(0x0008, 0x00FFFFFFC0000000), (0x0900, 0x000FFFFFFFFFFF80), (0x0908, 0x1FFF), (0x1008, 2 ^ 64 - 1), (0x1010, 2 ^ 64 - 1),
      (0x1018, 2 ^ 64 - 1), (0x1020, 2 ^ 64 - 1), (0x2000, 0x000FFFFFFFFFFFFF), (0x2008, 0x1FFFFFFFF), (0x2FF8, 0x1FFFFFFFF),
      (0x0100, 0x00FFFFFFFFFFFFC0)], ∀ (s : State) (vi : Nat) (v : Word), s.hostUp = true → vi < 128 →
    ∃ t, exec (.registerWrite (.page vi row.1) v) s = .next t ∧ t.hostRead (.page vi row.1) = v &&& BitVec.ofNat 64 row.2 ∧
      t.mem = s.mem ∧ t.me = s.me ∧ t.disp = s.disp) ∧
  (∀ (s : State) (d : Nat), s.hostUp = true → d < 24 → (∀ x ∈ s.l2, homeDie (64 * x.line) ≠ d) → s.shadowLines d = 0 →
    s.hostRead (.ctl (0x8060 + d)) = 0) ∧
  (∀ (s : State) (vi d : Nat) (v : Word), s.hostUp = true → vi < 128 → d < 24 → v.toNat % 2 ^ 32 ≠ 0 →
    exec (.w1cClear (.page vi 0x0010) v) s = .next (s.setVi vi { s.vi vi with winerr := 0 }) ∧
    exec (.w1cClear (.page vi 0x0018) v) s = .next (s.setVi vi { s.vi vi with dropped := 0 }) ∧
    exec (.w1cClear (.ctl (0x80A0 + d)) v) s =
      .next { s with fe := { s.fe with syncdrop := Sp.set s.fe.syncdrop d 0 0 } }) ∧
  (∀ (s : State) (k : Nat) (v : Word), s.hostUp = true → k < 2048 → ∃ t, exec (.registerWrite (.exportEntry k) v) s = .next t ∧
    t.hostRead (.exportEntry k) = v &&& BitVec.ofNat 64 (7 + 0x7F0 + (2 ^ 52 - 2 ^ 26)) ∧ t.mem = s.mem ∧ t.me = s.me) ∧
  (∀ (s : State) (vi q : Nat) (v : Word), s.hostUp = true → vi < 128 → q < 64 →
    let x := (s.vi vi).sq q
    ((q = 0 → (s.vi vi).loading = none) → exec (.sqEnable vi q v) s = .next ((s.dropSub vi q).setVi vi ((s.vi vi).setSq q { x with
      en := true, host := v.getLsbD 1, lsize := BitVec.ofNat 4 (v.toNat / 4), head := 0, tail := 0 }))) ∧
    ((s.vi vi).closing = false → ∃ t, exec (.sqDoorbell vi q v) s = .next t ∧
      (t.vi vi).sq q = { x with tail := if x.tail.toNat < v.toNat then v else x.tail } ∧
      (∀ bs, x.en = true → x.host = true → (s.vi vi).enabled = true → s.fe.fallback = false →
        s.fe.events = [] → s.idleCore.isSome = true → (∀ c ∈ s.fe.cores, c.2 ≠ .doorbell vi q ∧ c.2.key ≠ (Event.doorbell vi q).key) →
        (∀ u ∈ s.disp.subs, ¬ (u.vi = vi ∧ u.queue = q)) → (x.head.toNat < x.tail.toNat ∨ x.head.toNat < v.toNat) →
        s.hostGet (x.base.toNat + 64 * (x.head.toNat % 2 ^ x.lsize.toNat)) 64 = some bs →
        fieldOf (leNat bs) 128 32 = (x.head.toNat + 1) % 2 ^ 32 → ∃ bad, t.disp.subs = s.disp.subs ++
          [⟨vi, BitVec.ofNat 64 (fieldOf (leNat bs) 0 64), fieldOf (leNat bs) 64 12 + 1, BitVec.ofNat 32 (fieldOf (leNat bs) 96 32),
            q, bad⟩]))) ∧
  (∀ (s : State) (vi q : Nat) (v : Word), s.hostUp = true → vi < 128 → q < 16 →
    let x := (s.vi vi).lq q
    let lsize := BitVec.ofNat 4 (v.toNat / 2)
    (s.fe.visel.toNat ≠ vi → exec (.launchQueueEnable vi q v) s = .next s) ∧
    (s.fe.visel.toNat = vi → ∀ s1, s.haddrOk vi x.haddr = (s1, true) → ∃ t, exec (.launchQueueEnable vi q v) s = .next t ∧
      (t.vi vi).lq q = { x with en := true, lsize := lsize, head := 0, tail := 0, drop := [] }) ∧
    (s.fe.visel.toNat = vi → ∀ s1, s.haddrOk vi x.haddr = (s1, false) → exec (.launchQueueEnable vi q v) s =
      .next (s.setVi vi ((s.vi vi).setLq q { x with lsize := lsize })).cfgErr)) ∧
  (∀ (s : State) (v : Word), s.hostUp = true →
    let vi := s.fe.visel.toNat
    let x := s.vi vi
    (x.enabled = false → s.setsClash vi (v.getLsbD 1) x.vicls = false → exec (.viEnable v) s =
      .next { s.setVi vi { x with vicfg := (v ||| 1) &&& 0xFF } with fe := { s.fe with anyEnabled := true } }) ∧
    (x.enabled = false → s.setsClash vi (v.getLsbD 1) x.vicls = true → exec (.viEnable v) s = .next s.cfgErr) ∧
    (x.enabled = true → v.getLsbD 1 = x.sliced → ∃ t, exec (.viDisable v) s = .next t ∧ (∀ u ∈ t.disp.subs, u.vi ≠ vi) ∧
      (∀ n ∈ t.disp.nodes, n.vi = vi → n.status ≠ 0) ∧
      ((t.vi vi).enabled = true ↔ ∃ n ∈ s.disp.nodes, n.vi = vi)) ∧
    (x.enabled = true → v.getLsbD 1 ≠ x.sliced → exec (.viDisable v) s = .next s.cfgErr)) ∧
  (∀ (s : State) (die : Nat) (v : Word), s.hostUp = true → die < 24 →
    let vi := s.fe.visel.toNat
    let x := s.vi vi
    let set := Sp.set x.vicls die v 0
    ((x.enabled = false ∨ Sp.get x.vicls die 0 = v) → s.setsClash vi x.sliced set = false →
      exec (.viclsWrite die v) s = .next (s.setVi vi { x with vicls := set })) ∧
    ((x.enabled = true ∧ Sp.get x.vicls die 0 ≠ v) ∨ s.setsClash vi x.sliced set = true →
      exec (.viclsWrite die v) s = .next s.cfgErr) ∧
    (s.fe.anyEnabled = false → exec (.cellcfgWrite die v) s =
      .next { s with fe := { s.fe with cellcfg := Sp.set s.fe.cellcfg die (v &&& 0x1FFFF) 0 } }) ∧
    (s.fe.anyEnabled = true → exec (.cellcfgWrite die v) s = .next s)) ∧
  (∀ (s : State) (vi off n : Nat) (bs : List Byte), s.hostUp = false → vi < 128 → off + n ≤ 2 ^ 30 →
    exec (.bar2Access vi off n none) s = .next { s with fe := { s.fe with bar2 := List.replicate n 0xFF } } ∧
    exec (.bar2Access vi off n (some bs)) s = .next s) ∧
  (∀ (s s1 : State) (vi off n pa type : Nat), s.hostUp = true → vi < 128 → off + n ≤ 2 ^ 30 → 0 < n →
    let va := (s.vi vi).winBase.toNat + off
    va % 64 + n ≤ 64 → type ≠ tSys →
    (s.pageOf vi va false = (s1, .ok (pa, type)) → s1.homeErr vi pa type n 0 false = none →
      let waits := s.awaits fun o => match o with
        | .host _ => true
        | _ => false
      (waits = true → exec (.bar2Access vi off n none) s = .next s1) ∧
      (waits = false → ∃ t, exec (.bar2Access vi off n none) s = .next t ∧ t.fe.bar2 = s1.homeRead pa type n 0 ∧ t.mem = s1.mem ∧
        t.me = s.me ∧ t.vis = s.vis)) ∧
    (∀ bs : List Byte, bs.length = n → s.pageOf vi va true = (s1, .ok (pa, type)) → s1.homeErr vi pa type n 0 true = none →
      ∃ t, exec (.bar2Access vi off n (some bs)) s = .next t ∧ t.mem = s1.mem.writeN (s1.storage pa type true) bs ∧ t.me = s.me ∧
        t.vis = s.vis)) ∧
  (∀ (s s1 : State) (vi off n : Nat) (bs : List Byte), s.hostUp = true → vi < 128 → off + n ≤ 2 ^ 30 →
    let lines := fun (n : Nat) => linePieces ((s.vi vi).winBase.toNat + off) n (n / 64 + 2)
    let winerr := if (s.vi vi).winerr.toNat = 2 ^ 32 - 1 then 2 ^ 32 - 1 else (s.vi vi).winerr.toNat + 1
    (s.pieces vi false (lines n) = (s1, none) → ∃ t, exec (.bar2Access vi off n none) s = .next t ∧
      t.fe.bar2 = List.replicate n 0xFF ∧ (t.vi vi).winerr.toNat = winerr ∧ t.mem = s1.mem) ∧
    (s.pieces vi true (lines bs.length) = (s1, none) → ∃ t, exec (.bar2Access vi off n (some bs)) s = .next t ∧
      (t.vi vi).winerr.toNat = winerr ∧ t.mem = s1.mem))

/-- R328, R337, R351, R414, R415, R422, R424, R425: the mailbox carries its command out and clears BUSY with its result;
a code without a command is BADARG, and nothing is started while BUSY stands. ATTEST signs with the next leaf of its key, of a
new key where the old one is spent, of at most 1,024, and ends with OK or, where the quote cannot be written, with result 2. (The model's choices and readings here: no other event waits for a core,
log entry 97; BADARG for a node that is not held, 58; the placement of an image, and LOAD waiting for one that keeps the rules,
8 and 71; how leaves count, 72; PEND of an edited report, 102.) -/
def Obligations.MailboxSteps : Prop :=
  let ends := fun (t : State) (vi res : Nat) => (t.vi vi).mbox.busy = false ∧ (t.vi vi).mbox.res = BitVec.ofNat 8 res
  (∀ (s : State) (vi : Nat) (code : BitVec 8), s.hostUp = true → vi < 128 → (code = 0 ∨ 7 < code.toNat) →
    ((s.vi vi).mbox.busy = false → s.fe.events = [] → s.idleCore.isSome = true → (∀ c ∈ s.fe.cores, c.2.key ≠ (1, vi)) → ∃ t, exec (.mboxBadCommand vi code) s = .next t ∧ ends t vi 1 ∧ (t.vi vi).mbox.cmd = code ∧
      t.disp = s.disp) ∧
    ((s.vi vi).mbox.busy = true → exec (.mboxBadCommand vi code) s = .next s)) ∧
  (∀ (s : State) (vi : Nat), s.command vi 4 = true → s.fe.events = [] → ∃ t, exec (.clearFault vi) s = .next t ∧ ends t vi 0 ∧
    ∀ x, x ∈ t.disp.faulted ↔ x ∈ s.disp.faulted ∧ x ≠ (vi, (s.mboxArg vi 0).toNat)) ∧
  (∀ (s : State) (vi : Nat), s.command vi 2 = true → s.fe.events = [] →
    let h := (s.mboxArg vi 0).toNat
    ((∀ q ∈ (s.vi vi).images, q.handle ≠ h) → ∃ t, exec (.unload vi) s = .next t ∧ ends t vi 1 ∧ (t.vi vi).images = (s.vi vi).images) ∧
    (∀ q, ((s.vi vi).images.find? fun q => decide (q.handle = h)) = some q →
      let pinned := q.areas.any fun x => s.pagePinned x.1 x.2
      (s.imageBusy vi q = true ∨ pinned = true → exec (.unload vi) s = .next s) ∧
      (s.imageBusy vi q = false → pinned = false → ∃ t, exec (.unload vi) s = .next t ∧ ends t vi 0 ∧
        (t.vi vi).images = (s.vi vi).images.filter (fun x => decide (x.handle ≠ h)) ∧
        ∀ p ∈ t.pubs, p ∈ s.pubs ∧ p.base ∉ q.pubs))) ∧
  (∀ (s : State) (vi : Nat), s.command vi 3 = true → s.fe.events = [] →
    let a := s.mboxArg vi 0
    (65536 ≤ a.toNat → a ≠ BitVec.allOnes 64 → ∃ t, exec (.teardown vi) s = .next t ∧ ends t vi 1 ∧ t.disp = s.disp) ∧
    (a.toNat < 65536 → a.toNat ∉ (s.vi vi).tearing → ∃ t, exec (.teardown vi) s = .next t ∧
      (∀ n ∈ t.disp.nodes, n.vi = vi → n.stream = a.toNat → n.status ≠ 0) ∧
      ((∀ n ∈ s.disp.nodes, n.vi = vi → n.stream ≠ a.toNat) → ends t vi 0) ∧
      ((∃ n ∈ s.disp.nodes, n.vi = vi ∧ n.stream = a.toNat) → a.toNat ∈ (t.vi vi).tearing)) ∧
    (a = BitVec.allOnes 64 → (s.vi vi).closing = false → ∃ t, exec (.teardown vi) s = .next t ∧
      (∀ n ∈ t.disp.nodes, n.vi = vi → n.status ≠ 0) ∧ (∀ u ∈ t.disp.subs, u.vi ≠ vi) ∧
      ((∀ n ∈ s.disp.nodes, n.vi ≠ vi) → ends t vi 0))) ∧
  (∀ (s : State) (vi : Nat), s.fe.events = [] →
    let slot := (s.mboxArg vi 0).toNat
    (s.command vi 5 = true → (∀ n, s.heldNode vi slot = some n → ∃ t, exec (.endNode vi) s = .next t ∧ ends t vi 0 ∧
        t.disp = s.disp.updNode slot fun n => { n with status := 5 }) ∧
      (s.heldNode vi slot = none → ∃ t, exec (.endNode vi) s = .next t ∧ ends t vi 1 ∧ t.disp = s.disp)) ∧
    (s.command vi 6 = true → s.heldNode vi slot = none → ∃ t, exec (.resume vi) s = .next t ∧ ends t vi 1 ∧ t.disp = s.disp) ∧
    (s.command vi 6 = true → ∀ n s1 bs ws, s.heldNode vi slot = some n →
      s.feBytes vi (s.mboxArg vi 1).toNat 128 = (s1, .ok bs) → reportRegs bs = some ws → ∃ t n', exec (.resume vi) s = .next t ∧
      ends t vi 0 ∧ t.node slot = some n' ∧ n'.state = .away ∧ n'.trapped = none ∧
      ∀ (k : Nat) (u : Strand), n.saved[k]? = some u → ∃ u', n'.saved[k]? = some u' ∧
        (some u.idx ≠ n.trapped → u' = u) ∧
        (some u.idx = n.trapped → u'.ctl.pc = ws.getD 2 0 ∧ u'.ctl.trp.epc = ws.getD 2 0 ∧ u'.ctl.trp.cause = ws.getD 1 0 ∧
          u'.ctl.trp.addr = ws.getD 3 0 ∧ u'.ctl.trp.hvec = ws.getD 7 0 ∧ u'.ctl.trp.h = (ws.getD 0 0).getLsbD 0 ∧ u'.ctl.g = u.ctl.g ∧
          u'.ctl.trp.pend = some ((ws.getD 0 0).getLsbD 1) ∧ ∀ l : Fin 4, (u'.ctl.getZL l).frozen = (ws.getD 0 0).getLsbD (8 + l.val)))) ∧
  (∀ (s s1 s3 : State) (vi : Nat) (nonce : List Byte), s.command vi 7 = true → s.fe.events = [] →
    s.feBytes vi (s.mboxArg vi 0).toNat 32 = (s1, .ok nonce) →
    let fresh := decide (s.fe.idLeaf = 0) || decide (2 ^ 20 ≤ s.fe.leaf)
    let key := if fresh then s.fe.idLeaf + 1 else s.fe.idLeaf
    let leaf := if fresh then 0 else s.fe.leaf
    let q := s1.quote nonce ((key - 1) * 2 ^ 20 + leaf)
    (∀ e, fresh = false ∨ s.fe.idLeaf < 1024 →
      { s1 with fe := { s1.fe with idLeaf := key, leaf := leaf + 1 } }.fePut vi (s.mboxArg vi 1).toNat q = (s3, e) →
      ∃ t, exec (.attest vi) s = .next t ∧ t.fe.idLeaf = key ∧ t.fe.leaf = leaf + 1 ∧
        (e = none → ends t vi 0 ∧ (t.vi vi).mbox.out0 = BitVec.ofNat 64 q.length) ∧ (e.isSome = true → ends t vi 2)) ∧
    (fresh = true → 1024 ≤ s.fe.idLeaf → ∃ t, exec (.attest vi) s = .next t ∧ ends t vi 4 ∧ t.fe.leaf = s.fe.leaf ∧ t.mem = s1.mem)) ∧
  (∀ (s s1 : State) (vi : Nat) (img : Image) (lay : Layout) (bs : List Byte), s.command vi 1 = true → s.fe.events = [] →
    (s.vi vi).loading = none →
    s.feBytes vi (s.mboxArg vi 0).toNat (s.mboxArg vi 1).toNat = (s1, .ok bs) →
    let codes := (img.kernels.zip (lay.ctrlVa ++ List.replicate img.kernels.length 0)).map fun x => placeKernel x.1 x.2
    (∀ n, imageBroken img codes = some n → ∃ t, exec (.load vi img lay) s = .next t ∧ ends t vi 3 ∧
      (t.vi vi).mbox.out1 = BitVec.ofNat 64 n ∧ (t.vi vi).images = (s.vi vi).images ∧ t.disp = s.disp) ∧
    (imageBroken img codes = none → s1.layoutOk vi img lay codes = false → exec (.load vi img lay) s = .next s) ∧
    (imageBroken img codes = none → s1.layoutOk vi img lay codes = true → ∃ t pubs areas, exec (.load vi img lay) s = .next t ∧
      (t.vi vi).images = (s.vi vi).images ++ [⟨(s.vi vi).nextHandle, codes, pubs, areas⟩] ∧
      (t.vi vi).mbox.out0 = BitVec.ofNat 64 (s.vi vi).nextHandle ∧
      t.fe.meas.get 8 = shake256 (leBytes 32 (s.fe.meas.get 8).toNat ++ leBytes 32 (shake256 bs).toNat) ∧
      (img.launches = [] → ends t vi 0) ∧
      (img.launches ≠ [] → ((s.vi vi).sq 0).head.toNat ≤ ((s.vi vi).sq 0).tail.toNat →
        ((s.vi vi).sq 0).tail.toNat + img.launches.length < 2 ^ 64 →
        (t.vi vi).mbox.busy = true ∧ (t.vi vi).loading.isSome = true)))

/-- R6, R360, R363 to R365, R370, R372, R374: rails move to a point; the imposed level is the highest that the kernel has at
or below the level asked; a throttle reason stands in THR_NOW and stays in THR_STICKY, SLEW while the draw is above the envelope and
CAP while it is above the allowance, and suppressed cycles are counted; the reserve is granted within 120 W where a die
draws above its share; each tick moves the envelope by R370, here in hundredths of a watt; each period of 10 ms refills the
balance once, for every period since the last refill; a telemetry record fills its slot once its interval has passed. (The
model's choices and readings here: how far the counters move in a tick, log entry 12; the demand of placed work, that of the
turn, 43; a draw above the package limit, 60; the timers as events that wait for a core, 97.) -/
def Obligations.PowerSteps : Prop :=
  (∀ (s : State) (rail : Fin 4) (point : Nat), point < 4 → exec (.oppChange rail.val point) s =
    .next { s with pow := { s.pow with opp := s.pow.opp.set rail.val (BitVec.ofNat 2 point) rail.isLt } }) ∧
  (∀ (s : State) (level : Nat), level ≤ 2 →
    (s.me.status = .idle ∨ (s.vi s.me.st.vi).funded = true → ∃ k, exec (.impChange level) s =
        .next { s with me := { s.me with imp := BitVec.ofNat 2 k } }.opportunity ∧ k ≤ level ∧ (k = 0 ∨ s.me.st.vars.getLsbD k = true) ∧
      ∀ j, k < j → j ≤ level → s.me.st.vars.getLsbD j = false) ∧
    (s.me.status ≠ .idle → (s.vi s.me.st.vi).funded = false → exec (.impChange level) s =
      .next { s with me := { s.me with imp := 2 } }.opportunity)) ∧
  (∀ (s : State) (vi : Nat), vi < 128 →
    let v := s.vi vi
    let share : Int := (v.equota.toNat % 2 ^ 32 : Nat)
    let period := s.pow.now / 10000000 + 1
    let b := min (v.balance + (period - v.refills : Nat) * share) share
    (period ≤ v.refills → exec (.energyPeriodRefill vi) s = .next s) ∧
    (v.refills < period → s.fe.events = [] → (∀ c ∈ s.fe.cores, c.2.key ≠ (6, vi)) →
      (s.idleCore.isSome = true → (-(2 : Int) ^ 31) ≤ b → b < (2 : Int) ^ 31 → ∃ t q, exec (.energyPeriodRefill vi) s = .next t ∧
        t.vi vi = { v with equota := q, refills := period } ∧ q.toNat % 2 ^ 32 = v.equota.toNat % 2 ^ 32 ∧
        { v with equota := q }.balance = b ∧ t.me.st = s.me.st ∧ t.mem = s.mem ∧
        (s.me.status ≠ .idle → s.me.st.vi = vi → (0 < share → 0 < b) →
          t.me.imp = BitVec.ofNat 2 (cappedLevel s.me.st.vars s.me.imp.toNat)) ∧
        (s.me.st.vi ≠ vi → t.me = s.me)) ∧
      (s.idleCore = none → (∀ c ∈ s.fe.cores, ∀ node, c.2 = .fault node → s.gangFaults node = true) →
        ∃ t, exec (.energyPeriodRefill vi) s = .next t ∧ t.fe.events = [.energy vi] ∧ t.vis = s.vis ∧ t.me = s.me ∧ t.mem = s.mem))) ∧
  (∀ (s : State) (m : Meas), s.fe.errs = [] → ∃ t, exec (.rampEnvelopeTick m) s = .next t ∧
    let e := s.pow.envelope
    let watts := min 5600 m.watts
    let d := 100 * s.input.headD watts
    let up := 10 * (s.fe.ramp.toNat % 65536)
    let down := 10 * (s.fe.ramp.toNat / 2 ^ 16 % 65536)
    let floor := 1000 * (s.fe.ramp.toNat / 2 ^ 32 % 65536)
    (e ≤ d → t.pow.envelope = if up = 0 then d else min d (e + up)) ∧
    (d < e → floor < e → t.pow.envelope = if down = 0 then max d floor else max d (max floor (e - down))) ∧
    (d < e → e ≤ floor → t.pow.envelope = d) ∧ t.pow.now = s.pow.now + 100000 ∧ t.pow.draw = watts ∧
    t.pow.opp = s.pow.opp ∧ t.mem = s.mem ∧ t.ctl = s.ctl ∧
    (s.me.status = .running → s.me.st.stall = true → s.me.thrNow = 0 → s.me.st.node ∉ s.stallWires →
      t.me.st.wdC = s.me.st.wdC + s.pow.eighths ∧ t.me.st.slice = s.me.st.slice + 100)) ∧
  (∀ (s : State) (reasons : BitVec 5) (cycles : Nat), ∃ t, exec (.throttleReasonChange reasons cycles) s = .next t ∧
    (∀ k, k < 5 → t.me.thrNow.getLsbD k = if k = 2 then decide (s.pow.envelope < 100 * s.pow.draw)
      else if k = 3 then (decide (s.me.status ≠ .idle) && decide (s.allowance < s.input.headD 0)) || decide (5600 ≤ s.pow.draw)
      else reasons.getLsbD k) ∧ t.me.thrSticky = s.me.thrSticky ||| t.me.thrNow ∧
    t.me.thrCyc.toNat = min (s.me.thrCyc.toNat + cycles) (2 ^ 48 - 1) ∧ t.me.st = s.me.st ∧ t.mem = s.mem ∧ t.peers = s.peers) ∧
  (∀ (s : State) (die watts : Nat), die ≤ 24 →
    let p := { s.pow with grants := Sp.set s.pow.grants die watts 0 }
    let grows := Sp.get s.pow.grants die 0 < watts
    let above := (if die = 24 then 320 else 215) < s.pow.dies.getD die 0
    (p.granted ≤ 120 → (grows → above) → exec (.packageReserveGrant die watts) s = .next { s with pow := p }) ∧
    (120 < p.granted ∨ (grows ∧ ¬ above) → exec (.packageReserveGrant die watts) s = .next s)) ∧
  (∀ (s : State) (m : Meas),
    let gap := 1000 * max 100 (s.fe.telcfg0.toNat / 32 % 65536)
    (s.fe.telcfg0.getLsbD 0 = false ∨ s.pow.now < s.pow.telLast + gap → exec (.telemetryRecord m) s = .next s) ∧
    (s.fe.telcfg0.getLsbD 0 = true → s.pow.telLast + gap ≤ s.pow.now → s.fe.events = [] → s.idleCore.isSome = true →
      (∀ c ∈ s.fe.cores, c.2.key ≠ (7, 0)) →
      let a := s.fe.telcfg1.toNat / 64 % 2 ^ 46 * 64 + 64 * (s.fe.telIdx % 2 ^ (s.fe.telcfg0.toNat / 2 % 16))
      ∃ t, exec (.telemetryRecord m) s = .next t ∧ t.fe.telIdx = s.fe.telIdx + 1 ∧ t.me = s.me ∧ t.pow.telLast = s.pow.now ∧
        (apert a = .linear → s.pow.telTime < 2 ^ 64 → ∃ bs, bs.length = 64 ∧ t.mem = s.mem.writeN a bs ∧
          leNat (bs.take 8) = s.pow.telTime ∧ leNat ((bs.drop 8).take 4) = (s.fe.telIdx + 1) % 2 ^ 32 ∧
          leNat ((bs.drop 12).take 2) = min 5600 m.watts)))

/-- R116, R117, R378, R380 to R383, R407: packets act once and in the order of their numbers, those ahead wait and those
before are discarded; a request is answered once its reply and, where it writes, its acknowledgement have come; an acknowledged
packet leaves the retry buffer; a route fails at a timeout or with its port, and a destination without a working route is lost
until a new route restarts the pair; links of CXL and Tsuwin go up and down, a copy behind a link that went down ends, and a
lowered decoder takes the translations above it. (The model's readings here: an acknowledgement frees the packet of its own
number, log entry 52; a lost port fails its routes of every pair, and a timeout the route of its pair, 63; what a lowered
decoder takes, 65.) -/
def Obligations.FabricSteps : Prop :=
  (∀ (s : State) (p : Packet), s.input = [] →
    let q := s.peer p.src
    let ahead := (BitVec.ofNat 32 p.seq - q.expect).toNat
    (p.dst ≠ s.pkg ∨ 4096 ≤ ahead ∨ s.fab.ports = 0 → exec (.packetReceive p) s = .next s) ∧
    (p.dst = s.pkg → s.fab.ports ≠ 0 → 0 < ahead → ahead < 4096 → (∀ x ∈ q.window, x.seq % 2 ^ 32 ≠ p.seq % 2 ^ 32 ∧ x.seq % 2 ^ 32 ≠ q.expect.toNat) →
      exec (.packetReceive p) s = .next (s.setPeer { q with window := q.window ++ [p] })) ∧
    (p.dst = s.pkg → s.fab.ports ≠ 0 → p.seq % 2 ^ 32 = q.expect.toNat → q.window = [] → q.retry.length < 4096 → q.lost = false →
      let replied := fun (err : Nat) (data : List Byte) =>
        ({ q with expect := q.expect + 1, nextSeq := q.nextSeq + 1,
                  retry := q.retry ++ [Packet.mk s.pkg p.src p.vi p.cls q.nextSeq.toNat (.reply p.seq err data)] } : Peer).launch s.pow.now
      (∀ off n bs, p.body = .load off n → s.exportRead p.vi off n = .ok bs → exec (.packetReceive p) s =
        .next ((s.exportGet p.vi off n).1.setPeer (replied 0 bs))) ∧
      (∀ off bs pa type, p.body = .store off bs → s.exported p.vi off bs.length true = .ok (pa, type) →
        exec (.packetReceive p) s = .next ((s.homeWrite pa type 0 bs).setPeer (replied 0 []))) ∧
      (∀ off n c, p.body = .load off n → s.exportRead p.vi off n = .error c → exec (.packetReceive p) s =
        .next (s.setPeer (replied (replyErr c) [])))) ∧
    (∀ num bs x, p.dst = s.pkg → s.fab.ports ≠ 0 → p.seq % 2 ^ 32 = q.expect.toNat → q.window = [] → p.body = .reply num 0 bs →
      q.reqs.find? (fun r => decide (r.num = num) && (r.ack || r.reply)) = some x →
      (x.ack = true → ∃ t, exec (.packetReceive p) s = .next t ∧ t.me = s.me ∧ t.mem = s.mem ∧
        { x with reply := false, err := 0, data := bs } ∈ (t.peer p.src).reqs) ∧
      (∀ h l d ea pl sz const, x.ack = false → x.owner = .entry s.me.die s.me.clus .l h.seq → s.me.st.lqu = h :: l →
        h.stage = .submitted → h.cmd = .load d ea pl sz const → d ≠ 0 → s.me.st.pendDst.get (gIdx d) = some h.seq →
        ∃ t, exec (.packetReceive p) s = .next t ∧ t.getG d = BitVec.ofNat 64 (leNat bs) ∧
          t.me.st.lqu = { h with stage := .performed } :: l ∧ t.mem = s.mem))) ∧
  (∀ (s : State) (dst upto : Nat),
    let q := s.peer dst
    let wait := fun (lo unit dflt : Nat) => (fun n => unit * (if n = 0 then dflt else n)) (s.fe.zcfg.toNat / 2 ^ lo % 65536)
    let late := ∃ x ∈ q.sent, x.2 + wait 16 1000 100 ≤ s.pow.now
    (s.fab.ports = 0 → exec (.ackReceive dst upto) s = .next s) ∧
    (s.fab.ports ≠ 0 → q.window = [] → (∀ r ∈ q.reqs, r.num ≠ upto) → exec (.ackReceive dst upto) s = .next (s.setPeer
      (if ∃ p ∈ q.retry.take 4096, p.seq = upto then
        ({ q with retry := q.retry.filter fun p => decide (p.seq ≠ upto) } : Peer).launch s.pow.now else q))) ∧
    (∀ x, s.fab.ports ≠ 0 → q.window = [] → q.reqs.find? (fun r => decide (r.num = upto) && (r.ack || r.reply)) = some x →
      (x.reply = true → ∃ t, exec (.ackReceive dst upto) s = .next t ∧ t.me = s.me ∧ t.mem = s.mem ∧
        { x with ack := false } ∈ (t.peer dst).reqs) ∧
      (∀ h l ea pl sz v, x.reply = false → x.err = 0 → x.owner = .entry s.me.die s.me.clus .sq h.seq → s.me.st.squ = h :: l →
        h.stage = .submitted → h.cmd = .store ea pl sz v → ∃ t, exec (.ackReceive dst upto) s = .next t ∧
        t.me.st.squ = { h with stage := .performed } :: l ∧ t.ctl = s.ctl ∧ t.mem = s.mem)) ∧
    (∀ k, k < q.routes.length → k ∉ q.failed → (∀ j, j < k → j ∈ q.failed) → late →
      exec (.ackTimeout dst) s = .next (s.setPeer
        { q with failed := q.failed ++ [k], sent := (q.retry.take 4096).map fun p => (p.seq, s.pow.now), since := s.pow.now })) ∧
    (¬ late → exec (.ackTimeout dst) s = .next s) ∧
    (s.input.head? = some dst → q.lost = false → (∀ k, k < q.routes.length → k ∈ q.failed) → q.reqs = [] → s.fab.colls = [] →
      q.since + wait 32 1000000 1000 ≤ s.pow.now →
      exec .destinationLost s = .next (s.setPeer { q with retry := [], sent := [], reqs := [], lost := true })) ∧
    (s.input.head? = some dst → (∃ k, k < q.routes.length ∧ k ∉ q.failed) ∨ s.pow.now < q.since + wait 32 1000000 1000 →
      exec .destinationLost s = .next s)) ∧
  (∀ (s : State) (dst : Nat) (routes : List Route), routes.length ≤ 4 → (∀ r ∈ routes, r.port < 36) →
    let q := s.peer dst
    let anew := q.lost = true ∧ routes ≠ []
    ∃ t, exec (.routeInstall dst routes) s = .next t ∧ t.mem = s.mem ∧
      (∀ k, k < 36 → t.fab.ports.getLsbD k = (s.fab.ports.getLsbD k || decide (k ∈ s.input))) ∧
      (∀ p, p ≠ dst → t.peer p = s.peer p) ∧ (t.peer dst).routes = routes ∧
      (∀ k r, routes[k]? = some r → (k ∈ (t.peer dst).failed ↔ t.fab.ports.getLsbD r.port = false)) ∧
      (t.peer dst).lost = (if anew then false else q.lost) ∧ (t.peer dst).nextSeq = (if anew then 0 else q.nextSeq) ∧
      (t.peer dst).retry = (if anew then [] else q.retry) ∧ (t.peer dst).expect = q.expect ∧ (t.peer dst).window = q.window ∧
      (t.peer dst).reqs = q.reqs) ∧
  (∀ (s : State) (port : Nat), s.input.head? = some port → ∃ t, exec .portLockLoss s = .next t ∧
    (∀ k, k < 36 → t.fab.ports.getLsbD k = (s.fab.ports.getLsbD k && decide (k ≠ port))) ∧
    ∀ dst k r, (s.peer dst).routes[k]? = some r → (k ∈ (t.peer dst).failed ↔ k ∈ (s.peer dst).failed ∨ t.fab.ports.getLsbD r.port = false)) ∧
  (∀ (s : State) (p : Fin 8) (cap : Nat),
    let newEnd := min (cap / 2 ^ 28 * 2 ^ 28) (2 ^ 41)
    let lo := 0x200000000000 + p.val * 0x20000000000 + newEnd
    let hi := 0x200000000000 + (p.val + 1) * 0x20000000000
    ((s.cxl.get p).limit ≤ newEnd → exec (.cxlLinkUp p.val cap) s = .next { s with cxl := s.cxl.set p.val ⟨true, newEnd⟩ p.isLt }) ∧
    (newEnd < (s.cxl.get p).limit → ∃ t, exec (.cxlLinkUp p.val cap) s = .next t ∧
      (∀ c ∈ t.clusters, ∀ e ∈ c.tlb, hi ≤ e.pa ∨ e.pa + e.size ≤ lo) ∧
      (s.strands = [] → s.shadow = [] → s.fab.colls = [] → t.cxl = s.cxl.set p.val ⟨true, newEnd⟩ p.isLt)) ∧
    (s.input.head? = some p.val → s.shadow = [] → exec .cxlLinkDown s =
      .next { s with cxl := s.cxl.set p.val { s.cxl.get p with up := false } p.isLt }) ∧
    (∀ q h l, s.input.head? = some p.val → s.shadow = [q] → q.key = s.me.key → s.me.die < 24 → s.me.clus < 64 → s.me.st.kqu = h :: l →
      h.stage = .submitted → (∃ g ∈ q.grans, 0x200000000000 + p.val * 0x20000000000 ≤ g * 65536 ∧ g * 65536 < hi) →
      ∃ t, exec .cxlLinkDown s = .next t ∧ t.shadow = [] ∧ t.me.st.kqu = l ∧ (s.ctl.ksErr = 0 → t.ctl.ksErr = 2)) ∧
    exec .tsuwinLinkUp s = .next { s with tsuwin := true } ∧ exec .tsuwinLinkDown s = .next { s with tsuwin := false }) ∧
  (∀ (s : State) (p : Fin 8) (limit : Nat),
    let newEnd := min (min (limit / 2 ^ 28 * 2 ^ 28) (2 ^ 41)) (s.cxl.get p).limit
    let lo := 0x200000000000 + p.val * 0x20000000000 + newEnd
    let hi := 0x200000000000 + (p.val + 1) * 0x20000000000
    ∃ t, exec (.cxlDecoderLower p.val limit) s = .next t ∧
      (∀ c ∈ t.clusters, ∀ e ∈ c.tlb, hi ≤ e.pa ∨ e.pa + e.size ≤ lo) ∧
      (s.strands = [] → s.shadow = [] → s.fab.colls = [] → t.cxl = s.cxl.set p.val { s.cxl.get p with limit := newEnd } p.isLt))

/-- R385, R386, R389 to R393: a bucket of a running collective starts once its doorbell makes it ready; a step sends the
next packet of a chunk that has a credit, or takes the next chunk that has arrived; a whole bucket flips its result in, and the collective is
done with its last one; a gong of the current attempt aborts it, a lost peer fails it. (That a gong aborts
a collective in any state is the model's reading, log entry 50.) -/
def Obligations.CollectiveSteps : Prop :=
  (∀ (s : State) (die slot : Nat) (c : Coll), s.coll die slot = some c → c.st = .running →
    let b := c.next
    (b < c.desc.buckets → c.open.length < 4 → (b + 1) * c.desc.cpb ≤ s.doorbell c →
      let o : Owner := .bucket die slot b
      ∀ s1 ready, s.fetch c.vi o (sysLines c.src [c.desc.span b]) = (s1, ready) →
      (ready = false → exec (.bucketStart die slot) s = .next s1) ∧
      (∀ l, ready = true → s1.bucketRead c b = .ok l → exec (.bucketStart die slot) s =
        .next (((sideLines c.src [c.desc.span b]).foldl (fun s x => s.homeTouch x.1 x.2 0) (s1.forget fun q => decide (q = o))).setColl
          { c with next := b + 1, flight := c.flight ++ [⟨b, l, 0, [], none, false, false⟩] })) ∧
      (∀ e, ready = true → s1.bucketRead c b = .error e → ∃ t c', exec (.bucketStart die slot) s = .next t ∧
        t.coll die slot = some c' ∧ c'.st = .failed ∧ c'.flight = [] ∧ c'.att = c.att + 1)) ∧
    (s.doorbell c < (b + 1) * c.desc.cpb ∨ 4 ≤ c.open.length ∨ c.desc.buckets ≤ b →
      exec (.bucketStart die slot) s = .next s)) ∧
  (∀ (s : State) (die slot : Nat) (c : Coll) (q : Bucket), s.coll die slot = some c →
    c.flight.find? (fun x => decide (x.b = q.b)) = some q →
    (∀ x, c.nextSend q = some x →
      let p := c.peers.getD x.to' 0
      let off := (q.part.map fun y => y.2).getD 0
      let l := ((c.desc.slice q.vals (c.desc.sendChunk x.step)).drop off).take (if c.desc.narrow then 128 else 64)
      let q' := q.advance x.step (off + if c.desc.narrow then 128 else 64) c.desc.chunk
      (4096 ≤ (s.peer p).retry.length → exec (.collectiveStep die slot q.b) s = .next s) ∧
      ((s.peer p).retry.length < 4096 → (s.peer p).lost = false → ∃ t c', exec (.collectiveStep die slot q.b) s = .next t ∧
        (t.peer p).retry = (s.peer p).retry ++ [⟨s.pkg, p, c.rvi, c.desc.cls, (s.peer p).nextSeq.toNat,
          .coll c.desc.id c.att.toNat q.b x.step (if c.desc.narrow then l.map narrowed else l)⟩] ∧
        t.coll die slot = some c' ∧ c' = (c.setBucket q').settle)) ∧
    (∀ st l, c.nextSend q = none → c.nextRecv q = some (st, l) → ∃ t c', exec (.collectiveStep die slot q.b) s = .next t ∧
      t.coll die slot = some c' ∧ c'.flight = (c.setBucket { q with vals := c.desc.receive q.vals st l, got := q.got + 1 }).flight ∧
      (∀ x, x ∈ c'.arrived ↔ x ∈ c.arrived ∧ ¬ (x.1 = q.b ∧ x.2.1 = st)) ∧ t.mem = s.mem) ∧
    (c.nextSend q = none → c.nextRecv q = none → exec (.collectiveStep die slot q.b) s = .next s)) ∧
  (∀ (s : State) (die slot : Nat) (c : Coll) (q : Bucket) (rest : List Bucket), s.coll die slot = some c → c.open = q :: rest →
    (c.whole q = false → exec (.bucketComplete die slot) s = .next s) ∧
    (∀ run, c.whole q = true → q.shadowed = true → s.shadow.find? (fun x => decide (x.key = c.key q.b)) = some run → s.input = [] →
      s.collWaits c = false → run.bytes ≠ [] →
      (∀ b ∈ run.bytes, b.tw = false ∧ b.pub = false ∧ b.pa < windowBase ∧ s.unbacked (64 * (b.pa / 64)) = none ∧
        s.poison.contains (b.pa / 64) = false) →
      (run.bytes.map fun b => b.pa).Nodup →
      ∃ t c', exec (.bucketComplete die slot) s = .next t ∧ (∀ b ∈ run.bytes, t.mem.read b.pa = b.val) ∧
        (∀ a, (∀ b ∈ run.bytes, b.pa ≠ a) → t.mem.read a = s.mem.read a) ∧ t.coll die slot = some c' ∧ c'.done = q.b + 1 ∧
        c'.st = (if q.b + 1 = c.desc.buckets then .done else c.st) ∧ (∀ x ∈ t.shadow, x.key ≠ c.key q.b) ∧
        ∀ x, x ∈ c'.open ↔ x ∈ c.open ∧ x.b ≠ q.b)) ∧
  (∀ (s : State) (die slot : Nat) (c : Coll), s.coll die slot = some c → c.st = .running →
    (∀ b st, (b, st) ∉ c.credits → exec (.collectiveCredit die slot b st) s =
      .next (s.setColl { c with credits := c.credits ++ [(b, st)] })) ∧
    ((∃ p ∈ c.others, (s.peer p).lost = true) → ∃ t c', exec (.collectiveFail die slot 1) s = .next t ∧ t.coll die slot = some c' ∧
      c'.st = .failed ∧ c'.code = 1 ∧ c'.att = c.att + 1 ∧ c'.flight = [] ∧ c'.pins = [] ∧ t.mem = s.mem) ∧
    ((∀ p ∈ c.others, (s.peer p).lost = false) → exec (.collectiveFail die slot 1) s = .next s)) ∧
  (∀ (s : State) (src vi id att : Nat), (s.peer src).window = [] → s.fab.ports ≠ 0 →
    let s1 := s.setPeer { s.peer src with expect := (s.peer src).expect + 1 }
    (∀ c, s.fab.colls.find? (fun c => decide (c.vi = vi) && decide (c.desc.id = id)) = some c →
      (c.att.toNat = att → ∃ t c', exec (.gongReceive src vi id att) s = .next t ∧ t.coll c.die c.slot = some c' ∧ c'.st = .aborted ∧
        c'.code = 3 ∧ c'.att = c.att + 1 ∧ c'.flight = [] ∧ c'.pins = [] ∧ t.mem = s.mem ∧
        t.fab.peers = (s1.forget c.owns).fab.peers) ∧
      (c.att.toNat ≠ att → exec (.gongReceive src vi id att) s = .next s1)) ∧
    (s.fab.colls.find? (fun c => decide (c.vi = vi) && decide (c.desc.id = id)) = none → exec (.gongReceive src vi id att) s = .next s1))

/-- R397 to R403, R405, R419 to R421, R423, R425: a cluster error takes the strand back to its last commit, or fences the
cluster where the phase is unprotected or rollbacks are too many; one that meets a request on its way waits for the answer.
Corrected errors and scrubbing change no value, and an uncorrectable one poisons its line; reset clears everything but the
monotonic counters, and boot measures or holds the package; cores reboot one by one while the fallback scheduler serves the
queues in turn, and the windows open after boot. (The model's choices and readings here: what a rollback keeps of traps,
non-temporal buffers and power requests, log entry 66; the fence, 67; a poisoned cell named by the turn's tag, 79; the fused
version, 96; the message of a boot that failed, 40; what a core's restart does to its event, 97.) -/
def Obligations.ReliabilitySteps : Prop :=
  (∀ (s : State) (k : ClusterErr) (c : Snap), s.me.status ≠ .idle → s.me.st.inFlight = false → s.me.st.ckpt = some c → s.me.st.halt = [] →
    (s.me.st.unprotected = true ∨ s.me.st.openOld (errEng k) = true → ∃ t, exec (.clusterErrorRollback k) s = .next t ∧ t.me.fenced = true) ∧
    (2 ≤ s.me.st.rollbacks ∨ 16 ≤ s.recentRollbacks.length → (∀ e g, k ≠ .inputGranule e g) →
      ∃ t, exec (.clusterErrorRollback k) s = .next t ∧ t.me.fenced = true) ∧
    (s.me.st.unprotected = false → s.me.st.openOld (errEng k) = false → (∀ e g, k ≠ .inputGranule e g) → s.me.st.rollbacks < 2 →
      s.recentRollbacks.length < 16 → ∃ t, exec (.clusterErrorRollback k) s = .next t ∧ t.ctl = { c.ctl with pwrReq := s.ctl.pwrReq } ∧ t.me.st.v = c.v ∧
      t.me.st.m = c.m ∧ t.me.st.q = c.q ∧ t.me.st.spad = c.spad ∧ t.me.st.traps = c.traps ∧ t.me.st.idle = true ∧
      t.me.st.nt = s.me.st.nt ∧ t.me.st.replay = s.me.st.log ++ s.me.st.replay ∧ t.me.st.rollbacks = s.me.st.rollbacks + 1 ∧
      t.me.fenced = s.me.fenced ∧ t.tags = s.tags ∧ t.slots = s.slots ∧ (s.fe.errcfg0.getLsbD 0 = false → s.fe.events = [] → t.mem = s.mem))) ∧
  (∀ (s : State) (k : ClusterErr), s.me.status ≠ .idle → s.me.st.inFlight = true →
    (s.me.st.halt = [] → exec (.clusterErrorRollback k) s = .next (s.updSt fun t => { t with halt := [(k, s.pow.telTime)] })) ∧
    ((∃ x ∈ s.me.st.halt, x.1 = k) → exec (.clusterErrorRollback k) s = .next s)) ∧
  (∀ (s : State) (e : ErrSite) (d n : Nat), exec (.scrub d n) s = .next s ∧
    ((∀ x ∈ s.fe.errs, x.site ≠ e) → ∃ x : Merged, exec (.correctedError e) s = .next { s with fe := { s.fe with errs := s.fe.errs ++ [x] } } ∧
      x.site = e ∧ x.count = 1 ∧ x.since = s.pow.now) ∧
    (∀ pre x post, s.fe.errs = pre ++ x :: post → x.site = e → (∀ y ∈ pre, y.site ≠ e) → exec (.correctedError e) s =
      .next { s with fe := { s.fe with errs := pre ++ { x with count := x.count + 1 } :: post } }) ∧
    (∀ m x, s.fe.errs = [x] → s.fe.events = [] → s.idleCore.isSome = true → (∀ c ∈ s.fe.cores, c.2.key ≠ (4, 0)) →
      s.fe.errcfg0.getLsbD 0 = true → ∃ t, exec (.rampEnvelopeTick m) s = .next t ∧
        (x.since + 1000000000 ≤ s.pow.now + 100000 → t.fe.errs = [] ∧ t.fe.errIdx = s.fe.errIdx + 1) ∧
        (s.pow.now + 100000 < x.since + 1000000000 → t.fe.errs = [x] ∧ t.fe.errIdx = s.fe.errIdx)) ∧
    ∃ t, exec (.uncorrectableError e) s = .next t ∧ t.me.st = s.me.st ∧
      (s.fe.errcfg0.getLsbD 0 = false → s.fe.events = [] → t.mem = s.mem ∧ t.me = s.me ∧
        (∀ l, l ∈ t.poison ↔ l ∈ s.poison ∨ (e.unit ≤ 1 ∧ s.input.headD 0 = 0 ∧ l = canon e.pa / 64)) ∧
        ∀ x, x ∈ t.cellPoison ↔ x ∈ s.cellPoison ∨ (e.unit ≤ 1 ∧ s.input.headD 0 ≠ 0 ∧ x = (canon e.pa / 64, s.input.headD 0) ∧
          ∃ c ∈ s.cells, c.line = x.1 ∧ c.tag = x.2))) ∧
  (∀ (s : State) (b : BootReport), ∃ t, exec (.reset b) s = .next t ∧ t.mem = [] ∧ t.me = Cluster.reset 0 0 ∧ t.peers = [] ∧ t.vis = [] ∧
    t.disp = State.reset.disp ∧ t.fab = State.reset.fab ∧ t.tags = [] ∧ t.fe.leaf = s.fe.leaf ∧ t.fe.idLeaf = s.fe.idLeaf ∧ t.fe.fused = s.fe.fused ∧
    let good := b.sigOk0 = true ∧ b.sigOk1 = true ∧ s.fe.fused ≤ b.version0 ∧ s.fe.fused ≤ b.version1
    t.fe.windows = false ∧
    (¬ good → t.fe.bootFailed = true ∧ t.fe.booted = false ∧ t.fe.up = 0 ∧ t.mgmt.out = [[0xFF]]) ∧
    (good → t.fe.booted = true ∧ t.fe.bootFailed = false ∧ t.fe.up = BitVec.allOnes 12 ∧
      t.tsuwin = b.tsuwin ∧ t.fe.meas.get 0 = shake256 (leBytes 32 0 ++ leBytes 32 b.digest0.toNat) ∧
      t.fe.meas.get 1 = shake256 (leBytes 32 0 ++ leBytes 32 b.digest1.toNat) ∧ ∀ k : Fin 16, 1 < k.val → t.fe.meas.get k = 0)) ∧
  (∀ (s : State) (k : Nat) (r : List Nat), s.input = k :: r → s.fe.events = [] →
    (∀ e, s.fe.cores = [(k, e)] → s.fe.up = BitVec.ofNat 12 (2 ^ k) → k < 12 →
      ∃ t, exec .coreHeartbeatExpire s = .next t ∧ t.fe.events = [e] ∧ t.fe.cores = [] ∧
        ∀ vi, e = .mailbox vi → (t.vi vi).loading = none) ∧
    ((∀ c ∈ s.fe.cores, c.1 ≠ k) → s.fe.up.getLsbD k = true → ∃ t, exec .coreHeartbeatExpire s = .next t ∧ t.fe.fallback = true ∧
      (∀ j, t.fe.up.getLsbD j = (s.fe.up.getLsbD j && decide (j ≠ k))) ∧
      t.fe.reboots.toNat = min (s.fe.reboots.toNat + 1) (2 ^ 32 - 1) ∧ t = { s with fe := t.fe }) ∧
    (s.fe.up.getLsbD k = false → exec .coreHeartbeatExpire s = .next s) ∧
    (k < 12 → s.fe.booted = true → ∃ t, exec .coreRebootComplete s = .next t ∧
      (∀ j, t.fe.up.getLsbD j = (s.fe.up.getLsbD j || decide (j = k))) ∧
      (t.fe.fallback = true ↔ s.fe.fallback = true ∧ t.fe.up ≠ BitVec.allOnes 12) ∧ t = { s with fe := t.fe })) ∧
  (∀ (s : State), (s.fe.fallback = false → exec .fallbackTurn s = .next s) ∧
    (∀ k, s.fe.fallback = true → (∃ pre post, s.enabledQueues = pre ++ k :: post ∧ s.fe.turn ≤ k ∧ ∀ j ∈ pre, j < s.fe.turn) ∨
        (∃ post, s.enabledQueues = k :: post ∧ ∀ j ∈ k :: post, j < s.fe.turn) →
      let s1 := { s with fe := { s.fe with turn := k + 1 } }.sqScan (k / 64) (k % 64)
      ((∃ u ∈ s1.disp.subs, 64 * u.vi + u.queue = k) → exec .fallbackTurn s = .next s1) ∧
      ((∀ u ∈ s1.disp.subs, 64 * u.vi + u.queue ≠ k) → exec .fallbackTurn s = .next { s1 with fe := { s1.fe with
        events := s1.fe.events.filter fun e => decide (e ≠ .doorbell (k / 64) (k % 64)) } })) ∧
    (s.fe.booted = true → s.fe.windows = false → exec .barWindowsOpen s =
      .next { s with fe := { s.fe with scrub := s.fe.scrub &&& ~~~1, windows := true } }) ∧
    (s.fe.booted = false ∨ s.fe.windows = true → exec .barWindowsOpen s = .next s))

/-- R377, R419, R424 to R427: the management port takes its dynamic address and then answers, each command with one message
and a quote with messages of at most 1,024 bytes; a message that finds no idle core waits for one. The time receiver takes the
second from the messages before the edge, and locks after three seconds in a row that agree, until two do not. (The model's
choices and readings here: the layout of a reply, log entry 40; messages as events that cores handle, 97; how leaves count, 72;
what agrees, and the first edge, 73.) -/
def Obligations.ManagementSteps : Prop :=
  let stands := fun (s : State) => ∀ c ∈ s.fe.cores, ∀ node, c.2 = .fault node → s.gangFaults node = true
  (∀ (s : State) (a : BitVec 7), exec (.dynamicAddressAssign a) s = .next { s with mgmt := { s.mgmt with addr := some a } }) ∧
  (∀ (s : State) (eid : BitVec 8) (nonce : BitVec 256) (v : Word),
    ∀ x ∈ ([(.setEndpointId eid, .setEid eid), (.getEndpointId, .getEid), (.getMctpVersionSupport, .getVersions),
      (.getMessageTypeSupport, .getTypes), (.vendorReadTelemetry, .readTelemetry s.input.head?),
      (.vendorReadErrors, .readErrors s.input.head?), (.vendorRequestQuote nonce, .quote nonce), (.vendorWriteZcfg v, .writeZcfg v),
      (.announce, .announce s.input.head?), (.sync, .sync s.input.head?), (.followUp, .followUp s.input.head?)] : List (Instr × MgmtMsg)),
    (s.mgmt.addr = none ∨ s.fe.bootFailed = true → exec x.1 s = .next s) ∧
    (s.mgmt.addr.isSome = true → s.fe.bootFailed = false → s.fe.events = [] → s.idleCore = none → stands s →
      exec x.1 s = .next { s with fe := { s.fe with events := [.manage x.2] } })) ∧
  (∀ (s : State), s.mgmt.addr.isSome = true → s.fe.bootFailed = false → s.fe.events = [] → s.idleCore.isSome = true →
    (∀ c ∈ s.fe.cores, c.2.key ≠ (5, 0)) → stands s →
    let replies := fun (i : Instr) (m : List Byte) => exec i s = .next { s with mgmt := { s.mgmt with out := s.mgmt.out ++ [m] } }
    (∀ e : BitVec 8, e ≠ 0 → e ≠ 0xFF → exec (.setEndpointId e) s =
      .next { s with mgmt := { s.mgmt with eid := e, out := s.mgmt.out ++ [[0x00, 0x00, 0x01, 0x00, 0x00, e, 0x00]] } }) ∧
    (∀ e : BitVec 8, e = 0 ∨ e = 0xFF → replies (.setEndpointId e) [0x00, 0x00, 0x01, 0x02]) ∧
    replies .getEndpointId [0x00, 0x00, 0x02, 0x00, s.mgmt.eid, 0x00, 0x00] ∧
    replies .getMctpVersionSupport [0x00, 0x00, 0x04, 0x00, 0x01, 0xF1, 0xF0, 0xFF, 0x00] ∧
    replies .getMessageTypeSupport [0x00, 0x00, 0x05, 0x00, 0x01, 0x7E] ∧
    (s.input = [] → replies .vendorReadTelemetry (0x7E :: s.ringGet s.fe.telcfg0 s.fe.telcfg1 (s.fe.telIdx - 1)) ∧
      replies .vendorReadErrors (0x7E :: s.ringGet s.fe.errcfg0 s.fe.errcfg1 (s.fe.errIdx - 1))) ∧
    (∀ v, exec (.vendorWriteZcfg v) s = .next { s with fe := { s.fe with zcfg := v &&& 0x0000FFFFFFFF3FFF } }) ∧
    (∀ nonce,
      let fresh := decide (s.fe.idLeaf = 0) || decide (2 ^ 20 ≤ s.fe.leaf)
      let key := if fresh then s.fe.idLeaf + 1 else s.fe.idLeaf
      let leaf := if fresh then 0 else s.fe.leaf
      (fresh = false ∨ s.fe.idLeaf < 1024 → ∃ t msgs, exec (.vendorRequestQuote nonce) s = .next t ∧ t.mgmt.out = s.mgmt.out ++ msgs ∧
        t.fe.idLeaf = key ∧ t.fe.leaf = leaf + 1 ∧ (∀ m ∈ msgs, m.length ≤ 1024 ∧ m.head? = some 0x7E) ∧
        msgs.flatMap (fun m => m.drop 1) = s.quote (leBytes 32 nonce.toNat) ((key - 1) * 2 ^ 20 + leaf)) ∧
      (fresh = true → 1024 ≤ s.fe.idLeaf → replies (.vendorRequestQuote nonce) [0x7E])) ∧
    exec .announce s = .next { s with mgmt := { s.mgmt with announced := s.input.head? } } ∧
    exec .sync s = .next { s with mgmt := { s.mgmt with synced := s.input.head? } } ∧
    exec .followUp s = .next { s with mgmt := { s.mgmt with pending := s.input.head? } }) ∧
  (∀ (s : State),
    let ns := s.input.headD 0 % 100000
    let p := s.pow.advance ns
    let want := match s.mgmt.edge with
      | some (sec, at') => sec * 1000000000 + (p.now - at')
      | none => p.sec * 1000000000 + p.nsec
    let sec := (match s.mgmt.pending, s.mgmt.synced, s.mgmt.announced with
      | some x, _, _ => x
      | none, some x, _ => x
      | none, none, some x => x
      | none, none, none => (want + 500000000) / 1000000000) % 2 ^ 34
    let agrees := s.mgmt.edge ≠ none ∧ sec * 1000000000 ≤ want + 100 ∧ want ≤ sec * 1000000000 + 100
    (∃ t, exec .ppsEdge s = .next t ∧ t.mem = s.mem ∧ t.me = s.me ∧ t.mgmt.edge = some (sec, p.now) ∧
      t.pow.now = s.pow.now ∧ (t.mgmt.locked = true → (t.pow.advance ns).sec = sec ∧ (t.pow.advance ns).nsec = 0) ∧
      (t.mgmt.locked = false → t.pow.sec = s.pow.sec ∧ t.pow.nsec = s.pow.nsec) ∧
      (agrees → t.mgmt.bad = 0 ∧ t.mgmt.good = s.mgmt.good + 1 ∧
        (t.mgmt.locked = true ↔ s.mgmt.locked = true ∨ 3 ≤ s.mgmt.good + 1)) ∧
      (¬ agrees → t.mgmt.good = 0 ∧ t.mgmt.bad = s.mgmt.bad + 1 ∧
        (t.mgmt.locked = true ↔ s.mgmt.locked = true ∧ s.mgmt.bad + 1 < 2)) ∧
      t.mgmt.announced = none ∧ t.mgmt.synced = none ∧ t.mgmt.pending = none) ∧
    (∃ t, exec .ppsEdgeMissing s = .next t ∧ t.pow.sec = s.pow.sec ∧ t.pow.nsec = s.pow.nsec ∧ t.mgmt.good = 0 ∧
      t.mgmt.bad = s.mgmt.bad + 1 ∧ (t.mgmt.locked = true ↔ s.mgmt.locked = true ∧ s.mgmt.bad + 1 < 2) ∧ t.mem = s.mem))
end

