-- ==== Sys2Proof/Laws/Memory.lean ====
section
/-!
SUPPORT. The laws of sparse tables and memory: reading after writing, and the canonical form that every write keeps.
-/

namespace Sys2Proof.Machine

/-- A key below every key of a table reads the default. -/
theorem Sp.get_of_lt {α : Type} (m : Sp α) (k j : Nat) (d : α) (hj : j ≤ k) :
    Sp.get (m.filter fun x => decide (k < x.1)) j d = d := by
  induction m with
  | nil => rfl
  | cons x r ih =>
    by_cases h : k < x.1
    · have hx : ¬ x.1 = j := by omega
      have hx' : j < x.1 := by omega
      simp [h, Sp.get, hx, hx']
    · simpa [h] using ih

/-- Cutting a table to keys above `k` changes no entry above `k`. -/
theorem Sp.get_filter {α : Type} (m : Sp α) (k j : Nat) (d : α) (hj : k < j) :
    Sp.get (m.filter fun x => decide (k < x.1)) j d = Sp.get m j d := by
  induction m with
  | nil => rfl
  | cons x r ih =>
    obtain ⟨kx, vx⟩ := x
    by_cases h : k < kx
    · simp only [List.filter_cons, h, decide_true, if_true, Sp.get, ih]
    · have h1 : ¬ kx = j := by omega
      have h2 : ¬ j < kx := by omega
      simpa [h, Sp.get, h1, h2] using ih

variable {α : Type} [DecidableEq α]

/-- A read after a write at the same key. -/
@[simp] theorem Sp.get_set_same (m : Sp α) (k : Nat) (v d : α) : Sp.get (Sp.set m k v d) k d = v := by
  induction m with
  | nil => by_cases h : v = d <;> simp [Sp.set, Sp.get, h]
  | cons x r ih =>
    obtain ⟨kx, vx⟩ := x
    by_cases h1 : kx = k
    · by_cases h : v = d
      · simp [Sp.set, h1, h, Sp.get_of_lt]
      · simp [Sp.set, h1, h, Sp.get]
    · by_cases h2 : k < kx
      · by_cases h : v = d <;> simp [Sp.set, h1, h2, h, Sp.get]
      · simp [Sp.set, h1, h2, Sp.get, ih]

/-- A read at another key than the one written. -/
theorem Sp.get_set_other (m : Sp α) (k j : Nat) (v d d' : α) (h : j ≠ k) :
    Sp.get (Sp.set m k v d) j d' = Sp.get m j d' := by
  induction m with
  | nil =>
    have : ¬ k = j := fun e => h e.symm
    by_cases hv : v = d <;> simp [Sp.set, Sp.get, hv, this]
  | cons x r ih =>
    obtain ⟨kx, vx⟩ := x
    by_cases h1 : kx = k
    · subst h1
      have hj : ¬ kx = j := fun e => h e.symm
      by_cases hv : v = d
      · by_cases hlt : j < kx
        · simp [Sp.set, hv, Sp.get, hj, hlt, Sp.get_of_lt r kx j d' (by omega)]
        · simp [Sp.set, hv, Sp.get, hj, hlt, Sp.get_filter r kx j d' (by omega)]
      · simp [Sp.set, hv, Sp.get, hj]
    · by_cases h2 : k < kx
      · have hk : ¬ k = j := fun e => h e.symm
        by_cases hv : v = d
        · simp [Sp.set, h1, h2, hv]
        · by_cases hlt : j < k
          · have h3 : ¬ kx = j := by omega
            have h4 : j < kx := by omega
            simp [Sp.set, h1, h2, hv, Sp.get, hk, hlt, h3, h4]
          · simp [Sp.set, h1, h2, hv, Sp.get, hk, hlt]
      · simp [Sp.set, h1, h2, Sp.get, ih]

/-- A table canonical from `lo` on is canonical from any smaller bound on. -/
theorem Sp.wfFrom_mono (m : Sp α) (a b : Nat) (d : α) (h : a ≤ b) (hm : Sp.wfFrom m b d = true) :
    Sp.wfFrom m a d = true := by
  cases m with
  | nil => rfl
  | cons x r =>
    obtain ⟨k, v⟩ := x
    simp only [Sp.wfFrom, Bool.and_eq_true, decide_eq_true_eq] at hm ⊢
    exact ⟨⟨by omega, hm.1.2⟩, hm.2⟩

/-- A canonical table from `k + 1` on holds keys above `k` alone. -/
theorem Sp.filter_of_wf (m : Sp α) (lo k : Nat) (d : α) (h : k < lo) (hm : Sp.wfFrom m lo d = true) :
    (m.filter fun x => decide (k < x.1)) = m := by
  induction m generalizing lo with
  | nil => rfl
  | cons x r ih =>
    obtain ⟨kx, v⟩ := x
    simp only [Sp.wfFrom, Bool.and_eq_true, decide_eq_true_eq] at hm
    have : k < kx := by omega
    simp [this, ih (kx + 1) (by omega) hm.2]

/-- A write keeps the canonical form. -/
theorem Sp.wfFrom_set (m : Sp α) (lo k : Nat) (v d : α) (hk : lo ≤ k) (hm : Sp.wfFrom m lo d = true) :
    Sp.wfFrom (Sp.set m k v d) lo d = true := by
  induction m generalizing lo with
  | nil => by_cases h : v = d <;> simp [Sp.set, Sp.wfFrom, h, hk]
  | cons x r ih =>
    obtain ⟨kx, vx⟩ := x
    simp only [Sp.wfFrom, Bool.and_eq_true, decide_eq_true_eq] at hm
    obtain ⟨⟨hlo, hv⟩, hr⟩ := hm
    by_cases h1 : kx = k
    · subst h1
      by_cases h : v = d
      · simp only [Sp.set, h, if_true, Sp.filter_of_wf r (kx + 1) kx d (by omega) hr]
        exact Sp.wfFrom_mono r lo (kx + 1) d (by omega) hr
      · simp [Sp.set, h, Sp.wfFrom, hlo, hr]
    · by_cases h2 : k < kx
      · by_cases h : v = d
        · simp [Sp.set, h1, h2, h, Sp.wfFrom, hlo, hv, hr]
        · have : k + 1 ≤ kx := by omega
          simp [Sp.set, h1, h2, h, Sp.wfFrom, hk, hv, hr, this]
      · have := ih (kx + 1) (by omega) hr
        simp [Sp.set, h1, h2, Sp.wfFrom, hlo, hv, this]

/-- A write keeps the canonical form of memory. -/
theorem Memory.wf_write (m : Memory) (a : Nat) (v : Byte) (h : m.wf = true) : (m.write a v).wf = true :=
  Sp.wfFrom_set m 0 a v 0 (Nat.zero_le a) h

/-- A write of several bytes keeps the canonical form of memory. -/
theorem Memory.wf_writeN (m : Memory) (a : Nat) (bs : List Byte) (h : m.wf = true) : (m.writeN a bs).wf = true := by
  induction bs generalizing m a with
  | nil => exact h
  | cons b r ih => exact ih (m.write a b) (a + 1) (m.wf_write a b h)

/-- A byte read after a write at its address. -/
@[simp] theorem Memory.read_write_same (m : Memory) (a : Nat) (v : Byte) : (m.write a v).read a = v :=
  Sp.get_set_same m a v 0

/-- A byte read at another address than the one written. -/
theorem Memory.read_write_other (m : Memory) (a b : Nat) (v : Byte) (h : b ≠ a) : (m.write a v).read b = m.read b :=
  Sp.get_set_other m a b v 0 0 h

/-- A byte outside the bytes written. -/
theorem Memory.read_writeN_outside (m : Memory) (a b : Nat) (bs : List Byte) (h : b < a ∨ a + bs.length ≤ b) :
    (m.writeN a bs).read b = m.read b := by
  induction bs generalizing m a with
  | nil => rfl
  | cons x r ih =>
    simp only [List.length_cons] at h
    have hb : b ≠ a := by omega
    rw [show m.writeN a (x :: r) = (m.write a x).writeN (a + 1) r from rfl, ih (m.write a x) (a + 1) (by omega),
      m.read_write_other a b x hb]

/-- A byte among the bytes written. -/
theorem Memory.read_writeN_inside (m : Memory) (a : Nat) (bs : List Byte) (k : Nat) (h : k < bs.length) :
    (m.writeN a bs).read (a + k) = bs[k] := by
  induction bs generalizing m a k with
  | nil => simp at h
  | cons x r ih =>
    rw [show m.writeN a (x :: r) = (m.write a x).writeN (a + 1) r from rfl]
    cases k with
    | zero => rw [Memory.read_writeN_outside _ _ _ _ (by omega)]; simp
    | succ k =>
      simp only [List.length_cons] at h
      have := ih (m.write a x) (a + 1) k (by omega)
      simpa [Nat.add_assoc, Nat.add_comm 1] using this

/-- Bytes written and read back. -/
theorem Memory.readN_writeN (m : Memory) (a : Nat) (bs : List Byte) : (m.writeN a bs).readN a bs.length = bs := by
  have key : ∀ (l : List Byte) (n : Memory) (b : Nat), (∀ k (h : k < l.length), n.read (b + k) = l[k]) → n.readN b l.length = l := by
    intro l
    induction l with
    | nil => intro n b _; rfl
    | cons x r ih =>
      intro n b h
      have h0 := h 0 (by simp)
      have hr := ih n (b + 1) (fun k hk => by
        have := h (k + 1) (by simpa using hk)
        simpa [Nat.add_assoc, Nat.add_comm 1] using this)
      simp only [List.length_cons, Memory.readN, hr]
      simpa using h0
  exact key bs _ a (fun k h => m.read_writeN_inside a bs k h)

/-- Filtering keeps a table canonical. -/
theorem Sp.wfFrom_filter (m : Sp α) (lo : Nat) (d : α) (p : Nat × α → Bool) (h : Sp.wfFrom m lo d = true) :
    Sp.wfFrom (m.filter p) lo d = true := by
  induction m generalizing lo with
  | nil => rfl
  | cons x r ih =>
    obtain ⟨k, v⟩ := x
    simp only [Sp.wfFrom, Bool.and_eq_true, decide_eq_true_eq] at h
    have hr := ih (k + 1) h.2
    by_cases hp : p (k, v)
    · simp [hp, Sp.wfFrom, h.1.1, h.1.2, hr]
    · simp only [List.filter_cons, hp, Bool.false_eq_true, if_false]
      exact Sp.wfFrom_mono _ lo (k + 1) d (by omega) hr

/-- Little-endian bytes of a number that fits, and back. -/
theorem leNat_leBytes (n v : Nat) : leNat (leBytes n v) = v % 256 ^ n := by
  induction n generalizing v with
  | zero => simp [leNat, leBytes, Nat.mod_one]
  | succ n ih =>
    simp only [leNat, leBytes, ih, BitVec.toNat_ofNat]
    rw [show 256 ^ (n + 1) = 256 * 256 ^ n from Nat.pow_succ', Nat.mod_mul]

/-- The number of bytes. -/
@[simp] theorem leBytes_length (n v : Nat) : (leBytes n v).length = n := by
  induction n generalizing v with
  | zero => rfl
  | succ n ih => simp [leBytes, ih]

end Sys2Proof.Machine
end

