-- ==== Sys2Proof/Laws/Engine.lean ====
section
/-!
SUPPORT. What the shared operations of the matrix engine do: elements of banks, tiles and planes, biases and channels, and
the frame of a matrix word.
-/

namespace Sys2Proof.Machine

/-! ### Bits of fields and of bytes -/

/-- The bits of a field that is put into a number at bit `sh`. -/
theorem testBit_putField (old p sh w q : Nat) :
    (old - old / 2 ^ sh % 2 ^ w * 2 ^ sh + p % 2 ^ w * 2 ^ sh).testBit q =
      if sh ≤ q ∧ q < sh + w then p.testBit (q - sh) else old.testBit q := by
  have hs : 0 < 2 ^ sh := Nat.two_pow_pos sh
  have hw : 0 < 2 ^ w := Nat.two_pow_pos w
  have e1 : old = 2 ^ sh * (2 ^ w * (old / 2 ^ sh / 2 ^ w) + old / 2 ^ sh % 2 ^ w) + old % 2 ^ sh := by
    rw [Nat.div_add_mod, Nat.div_add_mod]
  have e2 : old - old / 2 ^ sh % 2 ^ w * 2 ^ sh + p % 2 ^ w * 2 ^ sh =
      2 ^ sh * (2 ^ w * (old / 2 ^ sh / 2 ^ w) + p % 2 ^ w) + old % 2 ^ sh := by
    have : old / 2 ^ sh % 2 ^ w * 2 ^ sh + (2 ^ sh * (2 ^ w * (old / 2 ^ sh / 2 ^ w)) + old % 2 ^ sh) = old := by
      conv => rhs; rw [e1]
      rw [Nat.mul_add, Nat.mul_comm (old / 2 ^ sh % 2 ^ w)]; omega
    rw [Nat.mul_add, Nat.mul_comm (p % 2 ^ w)]; omega
  have tb : ∀ a : Nat, a < 2 ^ w → (2 ^ sh * (2 ^ w * (old / 2 ^ sh / 2 ^ w) + a) + old % 2 ^ sh).testBit q =
      if q < sh then (old % 2 ^ sh).testBit q else if q - sh < w then a.testBit (q - sh) else (old / 2 ^ sh / 2 ^ w).testBit (q - sh - w) := by
    intro a ha
    rw [Nat.testBit_two_pow_mul_add _ (Nat.mod_lt _ hs), Nat.testBit_two_pow_mul_add _ ha]
  rw [e2, tb _ (Nat.mod_lt _ hw)]
  have h0 := tb (old / 2 ^ sh % 2 ^ w) (Nat.mod_lt _ hw)
  rw [← e1] at h0
  rw [h0]
  by_cases h1 : q < sh
  · simp [h1, Nat.not_le.2 h1]
  · by_cases h2 : q - sh < w
    · have h3 : sh ≤ q ∧ q < sh + w := by omega
      simp [h1, h2, h3, Nat.testBit_mod_two_pow]
    · have h3 : ¬ (sh ≤ q ∧ q < sh + w) := by omega
      simp [h1, h2, h3]

/-- The bits of little-endian bytes. -/
theorem testBit_leNat (bs : List Byte) (q : Nat) : (leNat bs).testBit q = (bs.getD (q / 8) 0).getLsbD (q % 8) := by
  induction bs generalizing q with
  | nil => simp [leNat]
  | cons b r ih =>
    have hb : b.toNat < 2 ^ 8 := b.isLt
    rw [leNat, show b.toNat + 256 * leNat r = 2 ^ 8 * leNat r + b.toNat by omega, Nat.testBit_two_pow_mul_add _ hb]
    by_cases h : q < 8
    · simp [h, Nat.div_eq_of_lt h, Nat.mod_eq_of_lt h, BitVec.getLsbD]
    · rw [if_neg h, ih, show q / 8 = (q - 8) / 8 + 1 by omega, show q % 8 = (q - 8) % 8 by omega]
      simp

theorem getD_leBytes (n v k : Nat) (h : k < n) : (leBytes n v).getD k 0 = BitVec.ofNat 8 (v / 2 ^ (8 * k)) := by
  induction n generalizing v k with
  | zero => omega
  | succ n ih =>
    cases k with
    | zero => simp [leBytes]
    | succ k =>
      simp only [leBytes, List.getD_cons_succ]
      rw [ih _ _ (by omega), Nat.div_div_eq_div_mul, show 8 * (k + 1) = 8 + 8 * k by omega, Nat.pow_add]

theorem putBank_get (rb : Sp Byte) (b o : Nat) (bs : List Byte) (k : Nat) :
    Sp.get (putBank rb b o bs) k 0 =
      if 65536 * b + o ≤ k ∧ k < 65536 * b + o + bs.length then bs.getD (k - (65536 * b + o)) 0 else Sp.get rb k 0 := by
  induction bs generalizing rb o with
  | nil => exact (if_neg fun h => Nat.lt_irrefl _ (Nat.lt_of_lt_of_le h.2 h.1)).symm
  | cons x r ih =>
    rw [putBank, ih]
    by_cases h0 : k = 65536 * b + o
    · subst h0
      rw [if_neg (by omega), if_pos (by simp), Sp.get_set_same]; simp
    · rw [Sp.get_set_other _ _ _ _ _ _ h0]
      by_cases h1 : 65536 * b + o + 1 ≤ k ∧ k < 65536 * b + o + 1 + r.length
      · rw [if_pos (by omega), if_pos (by simp; omega), show k - (65536 * b + o) = k - (65536 * b + (o + 1)) + 1 by omega]
        simp
      · rw [if_neg (by omega), if_neg (by simp; omega)]

/-! ### Banks -/

/-- The bits of an element of a bank, as the bits of the bank's bytes. -/
theorem bank_testBit (m : MState) (b : Nat) (f : Fmt) (i j q : Nat) :
    (m.bank b f i j).testBit q = (decide (q < (bankPos b f i j).2.2.2) &&
      (m.rbByte (bankPos b f i j).1 ((bankPos b f i j).2.1 + (q + (bankPos b f i j).2.2.1) / 8)).getLsbD ((q + (bankPos b f i j).2.2.1) % 8)) := by
  unfold MState.bank
  generalize bankPos b f i j = p
  obtain ⟨k, o, sh, w⟩ := p
  simp only [Nat.testBit_mod_two_pow]
  by_cases h : q < w
  · simp only [h, decide_true, Bool.true_and, Nat.testBit_div_two_pow, testBit_leNat, MState.rbBytes]
    have : (q + sh) / 8 < (sh + w + 7) / 8 := by omega
    simp [List.getD_eq_getElem?_getD, List.getElem?_map, List.getElem?_range this]
  · simp [h]

/-- Row, byte and bit of bit `q` of an element. -/
theorem bankPos_cases (b : Nat) (f : Fmt) (i j : Nat) :
    bankPos b f i j = (if f = .f64 then (j / 64, 512 * i + 8 * (j % 64), 0, 64)
      else (b, 512 * i + j * storeWidth f / 8, j * storeWidth f % 8, storeWidth f)) := rfl

theorem storeWidth_le (f : Fmt) (h : f ≠ .f64) : storeWidth f ≤ 32 ∧ 0 < storeWidth f := by
  cases f <;> first | exact absurd rfl h | decide

/-- An element written to a bank reads back within its width, and no other element changes (R269). -/
theorem bank_setBank (m : MState) (b : Nat) (f : Fmt) (i j p i' j' : Nat) (hi : i < 128) (hj : j < 128) (hi' : i' < 128)
    (hj' : j' < 128) :
    (m.setBank b f i j p).bank b f i' j' = if i' = i ∧ j' = j then p % 2 ^ storeWidth f else m.bank b f i' j' := by
  apply Nat.eq_of_testBit_eq
  intro q
  rw [bank_testBit]
  have hset : ∀ k o, (m.setBank b f i j p).rbByte k o =
      let P := bankPos b f i j
      let n := (P.2.2.1 + P.2.2.2 + 7) / 8
      let old := leNat (m.rbBytes P.1 P.2.1 n)
      if 65536 * P.1 + P.2.1 ≤ 65536 * k + o ∧ 65536 * k + o < 65536 * P.1 + P.2.1 + n then
        BitVec.ofNat 8 ((old - old / 2 ^ P.2.2.1 % 2 ^ P.2.2.2 * 2 ^ P.2.2.1 + p % 2 ^ P.2.2.2 * 2 ^ P.2.2.1) /
          2 ^ (8 * (65536 * k + o - (65536 * P.1 + P.2.1))))
      else m.rbByte k o := by
    intro k o
    simp only [MState.rbByte, MState.setBank]
    rw [putBank_get, leBytes_length]
    split
    · rw [getD_leBytes _ _ _ (by omega)]
    · rfl
  rw [hset]
  simp only
  have hold : ∀ k o n t, t / 8 < n → (leNat (m.rbBytes k o n)).testBit t = (m.rbByte k (o + t / 8)).getLsbD (t % 8) := by
    intro k o n t ht
    rw [testBit_leNat]
    simp [MState.rbBytes, List.getD_eq_getElem?_getD, List.getElem?_map, List.getElem?_range ht]
  by_cases hf : f = .f64
  · subst hf
    simp only [bankPos_cases, if_true]
    have hw : storeWidth .f64 = 64 := rfl
    by_cases hq : q < 64
    · by_cases he : i' = i ∧ j' = j
      · obtain ⟨rfl, rfl⟩ := he
        rw [if_pos (by omega), if_pos ⟨rfl, rfl⟩]
        simp only [hq, decide_true, Bool.true_and, BitVec.getLsbD_ofNat, Nat.testBit_div_two_pow, testBit_putField, hw, Nat.testBit_mod_two_pow]
        have : 65536 * (j' / 64) + (512 * i' + 8 * (j' % 64) + (q + 0) / 8) - (65536 * (j' / 64) + (512 * i' + 8 * (j' % 64))) = q / 8 := by omega
        rw [this, if_pos (by omega), show (q + 0) % 8 + 8 * (q / 8) - 0 = q by omega]
        simp
        omega
      · rw [if_neg (by omega), if_neg he, bank_testBit]
        simp only [bankPos_cases, if_true]
    · by_cases he : i' = i ∧ j' = j
      · rw [if_pos he, hw, Nat.testBit_mod_two_pow]; simp [hq]
      · rw [if_neg he, bank_testBit]; simp [bankPos_cases, hq]
  · simp only [bankPos_cases, if_neg hf]
    obtain ⟨hw, hw0⟩ := storeWidth_le f hf
    generalize hW : storeWidth f = w at *
    by_cases hq : q < w
    · simp only [hq, decide_true, Bool.true_and]
      have hjw : j * w ≤ 127 * w := Nat.mul_le_mul_right w (by omega)
      have hjw' : j' * w ≤ 127 * w := Nat.mul_le_mul_right w (by omega)
      by_cases he : i' = i ∧ j' = j
      · obtain ⟨rfl, rfl⟩ := he
        rw [if_pos (by omega), if_pos ⟨rfl, rfl⟩]
        have hd : 65536 * b + (512 * i' + j' * w / 8 + (q + j' * w % 8) / 8) - (65536 * b + (512 * i' + j' * w / 8)) = (q + j' * w % 8) / 8 := by omega
        rw [hd]
        simp only [BitVec.getLsbD_ofNat, Nat.testBit_div_two_pow, testBit_putField, Nat.testBit_mod_two_pow]
        have h8 : (q + j' * w % 8) % 8 + 8 * ((q + j' * w % 8) / 8) = q + j' * w % 8 := by omega
        rw [h8, if_pos (by omega), Nat.add_sub_cancel]
        simp [hq, Nat.mod_lt]
      · rw [if_neg he, bank_testBit]
        simp only [bankPos_cases, if_neg hf, hW, hq, decide_true, Bool.true_and]
        split
        · rename_i hin
          have hd : ∃ d, 65536 * b + (512 * i' + j' * w / 8 + (q + j' * w % 8) / 8) - (65536 * b + (512 * i + j * w / 8)) = d ∧
              512 * i' + j' * w / 8 + (q + j' * w % 8) / 8 = 512 * i + j * w / 8 + d ∧ d < (j * w % 8 + w + 7) / 8 := ⟨_, rfl, by omega, by omega⟩
          obtain ⟨d, e1, e2, e3⟩ := hd
          rw [e1, e2]
          have hii : i' = i := by omega
          subst hii
          have hjj : j' ≠ j := fun h => he ⟨rfl, h⟩
          simp only [BitVec.getLsbD_ofNat, Nat.testBit_div_two_pow, testBit_putField]
          have h8 : (q + j' * w % 8) % 8 < 8 := by omega
          simp only [h8, decide_true, Bool.true_and]
          have hne : ¬ (j * w % 8 ≤ (q + j' * w % 8) % 8 + 8 * d ∧ (q + j' * w % 8) % 8 + 8 * d < j * w % 8 + w) := by
            intro hx
            have a1 : j' * w + q = j * w / 8 * 8 + 8 * d + (q + j' * w % 8) % 8 := by omega
            rcases Nat.lt_or_gt_of_ne hjj with h | h
            · have : j' * w + w ≤ j * w := by rw [← Nat.succ_mul]; exact Nat.mul_le_mul_right w h
              omega
            · have : j * w + w ≤ j' * w := by rw [← Nat.succ_mul]; exact Nat.mul_le_mul_right w h
              omega
          rw [if_neg hne, hold _ _ _ _ (by omega), show ((q + j' * w % 8) % 8 + 8 * d) / 8 = d by omega,
            show ((q + j' * w % 8) % 8 + 8 * d) % 8 = (q + j' * w % 8) % 8 by omega]
        · rfl
    · by_cases he : i' = i ∧ j' = j
      · rw [if_pos he, Nat.testBit_mod_two_pow]; simp [hq]
      · rw [if_neg he, bank_testBit]; simp [bankPos_cases, hf, hW, hq]

/-! ### Tiles, planes, biases, channels -/

theorem accAt_setAcc (m : MState) (t i j : Nat) (v : Lane) (t' i' j' : Nat) (hi : i < 128) (hj : j < 128) (hi' : i' < 128)
    (hj' : j' < 128) :
    (m.setAcc t i j v).accAt t' i' j' = if t' % 4 = t % 4 ∧ i' = i ∧ j' = j then v else m.accAt t' i' j' := by
  simp only [MState.accAt, MState.setAcc]
  by_cases h : t' % 4 = t % 4 ∧ i' = i ∧ j' = j
  · obtain ⟨h1, rfl, rfl⟩ := h
    rw [if_pos ⟨h1, rfl, rfl⟩, h1, Sp.get_set_same]
  · rw [if_neg h, Sp.get_set_other _ _ _ _ _ _ (by omega)]

/-- An element written to a tile reads back within its width, and no other element of the tile changes. -/
theorem tile_setTile (m : MState) (t : Nat) (f : Fmt) (i j p i' j' : Nat) (hi : i < 128) (hj : j < 128) (hi' : i' < 128)
    (hj' : j' < 128) :
    (m.setTile t f i j p).tile t f i' j' = if i' = i ∧ j' = j then p % 2 ^ tileBits f else m.tile t f i' j' := by
  by_cases hf : f = .f64
  · subst hf
    simp only [MState.tile, MState.setTile, if_true, tileBits]
    rw [accAt_setAcc _ _ _ _ _ _ _ _ (by omega) (by omega) (by omega) (by omega),
      accAt_setAcc _ _ _ _ _ _ _ _ (by omega) (by omega) (by omega) (by omega),
      accAt_setAcc _ _ _ _ _ _ _ _ (by omega) (by omega) (by omega) (by omega),
      accAt_setAcc _ _ _ _ _ _ _ _ (by omega) (by omega) (by omega) (by omega)]
    by_cases h : i' = i ∧ j' = j
    · obtain ⟨rfl, rfl⟩ := h
      rw [if_neg (by omega), if_pos (by simp), if_pos (by simp), if_pos (by simp)]
      simp only [BitVec.toNat_ofNat]; omega
    · rw [if_neg (by omega), if_neg (by omega), if_neg (by omega), if_neg (by omega), if_neg h]
  · simp only [MState.tile, MState.setTile, if_neg hf, tileBits]
    rw [accAt_setAcc _ _ _ _ _ _ _ _ hi hj hi' hj']
    by_cases h : i' = i ∧ j' = j
    · rw [if_pos ⟨rfl, h⟩, if_pos h, BitVec.toNat_ofNat]
    · rw [if_neg fun x => h x.2, if_neg h]

theorem plane_setPlane (m : MState) (q i j : Nat) (v : Lane) (q' i' j' : Nat) (hi : i < 128) (hj : j < 128) (hi' : i' < 128)
    (hj' : j' < 128) :
    (m.setPlane q i j v).plane q' i' j' = if q' = q ∧ i' = i ∧ j' = j then v else m.plane q' i' j' := by
  simp only [MState.plane, MState.setPlane]
  by_cases h : q' = q ∧ i' = i ∧ j' = j
  · obtain ⟨rfl, rfl, rfl⟩ := h
    rw [if_pos ⟨rfl, rfl, rfl⟩, Sp.get_set_same]
  · rw [if_neg h, Sp.get_set_other _ _ _ _ _ _ (by omega)]

theorem getBias_setBias (m : MState) (t t' : Nat) (b : Option Int) :
    (m.setBias t b).getBias t' = if t' % 4 = t % 4 then b else m.getBias t' := by
  show (m.bias.set (t % 4) b (Nat.mod_lt t (by decide)))[t' % 4]'(Nat.mod_lt t' (by decide)) = _
  rw [Vector.getElem_set]
  by_cases h : t' % 4 = t % 4
  · rw [if_pos h, if_pos h.symm]
  · rw [if_neg h, if_neg fun e => h e.symm]; rfl

theorem getStag_setStag (m : MState) (t t' : Nat) (v : Lane) :
    (m.setStag t v).getStag t' = if t' % 4 = t % 4 then v else m.getStag t' := by
  show (m.stag.set (t % 4) v (Nat.mod_lt t (by decide)))[t' % 4]'(Nat.mod_lt t' (by decide)) = _
  rw [Vector.getElem_set]
  by_cases h : t' % 4 = t % 4
  · rw [if_pos h, if_pos h.symm]
  · rw [if_neg h, if_neg fun e => h e.symm]; rfl

theorem chan_setChan (m : MState) (c c' : Nat) (v : Channel) :
    (m.setChan c v).chan c' = if c' % 4 = c % 4 then v else m.chan c' := by
  show (m.chans.set (c % 4) v (Nat.mod_lt c (by decide)))[c' % 4]'(Nat.mod_lt c' (by decide)) = _
  rw [Vector.getElem_set]
  by_cases h : c' % 4 = c % 4
  · rw [if_pos h, if_pos h.symm]
  · rw [if_neg h, if_neg fun e => h e.symm]; rfl

/-! ### The frame of a matrix word -/

/-- Pops leave the blocks and the matrix engine's state; the word's pops are taken in the run (R189). -/
theorem popWord_matrix (s s1 : State) (r : Run) (mask : Nat) (h : s.popWord true r mask = some s1) :
    s1.me.st.m = s.me.st.m ∧ (s.me.st.mrun = some r → s1.me.st.mrun = some { r with popped := true }) := by
  unfold State.popWord at h
  split at h
  · cases h
    rename_i hp
    refine ⟨rfl, fun e => ?_⟩
    obtain ⟨blk, off, a, b, c, d, popped, x, y, z, w⟩ := r
    simp only at hp; subst hp; exact e
  · split at h
    · simp only [Option.some.injEq] at h
      subst h
      simp [State.updSt, Strand.setRun, Strand.progress]
    · cases h

/-- A matrix word that takes its pops and passes its check acts. -/
theorem mBegin_takes (pop : BitVec 4) (check : Run → State → Option Nat) (body : Run → State → State) (s s1 : State) (r : Run)
    (h : s.mTakes pop r s1) (hc : ∀ r0, check r0 s = none) : mBegin pop check body s = .next (body r s1) := by
  obtain ⟨r0, h1, rfl, h3⟩ := h
  have e : (if r0.popped then none else check r0 s) = none := by rw [hc, ite_self]
  unfold mBegin
  rw [h1]
  dsimp only
  rw [e]
  dsimp only
  rw [h3]

/-- A matrix word with extents likewise. -/
theorem mWord_goes (f : MFields) (check : Run → Ext → State → Option Nat) (body : Run → Ext → State → State) (s s1 : State)
    (r : Run) (x : Ext) (h : s.mGoes f r x s1) (hc : ∀ r0, check r0 x s = none) :
    mWord f check body s = .next (body r x s1) := by
  obtain ⟨⟨r0, h1, rfl, h3⟩, hx⟩ := h
  have hx0 : r0.ext f = some x := hx
  unfold mWord mBegin
  rw [h1]
  dsimp only
  rw [hx0]
  dsimp only
  rw [hc, ite_self]
  dsimp only
  rw [h3]
  simp only [hx]

/-- The run that a matrix word which takes its pops leaves. -/
theorem mTakes_run (s s1 : State) (pop : BitVec 4) (r : Run) (h : s.mTakes pop r s1) : s1.me.st.mrun = some r := by
  obtain ⟨r0, h1, rfl, h3⟩ := h
  exact (popWord_matrix s s1 r0 _ h3).2 h1

/-- A word that has executed: its changes of the engine's state, its tokens, and the next word. -/
theorem mDone_gives (s s1 : State) (pop push : BitVec 4) (r : Run) (g : MState → MState) (h : s.mTakes pop r s1) :
    (s1.updM g).mDone push false = s1.mGives push r g := by
  have h1 : ({ s1.me.st with m := g s1.me.st.m } : Strand).mrun = some r := mTakes_run s s1 pop r h
  simp only [State.mGives, State.mDone, State.updM, State.updSt, Strand.mDone, h1]
  rfl

/-- The rows that a word has completed (R286). -/
theorem mRow_more (s : State) (r : Run) (push : BitVec 4) (total : Nat) (wrote : Bool) (h : s.me.st.mrun = some r)
    (hr : r.rows + 1 < total) : (s.mRow push total wrote).me.st.mrun = some { r with rows := r.rows + 1 } := by
  have : ¬ total ≤ r.rows + 1 := by omega
  simp [State.mRow, State.updRun, State.updSt, Strand.setRun, Strand.progress, h, this]

end Sys2Proof.Machine
end

