-- ==== Sys2Proof/Laws/State.lean ====
section
/-!
SUPPORT. One law for every field and every shared update of the state: what the update leaves alone, and what it sets.
-/

namespace Sys2Proof.Machine

/-! ### Changes of the strand of `me` -/

@[simp] theorem State.updSt_peers (s : State) (f : Strand → Strand) : (s.updSt f).peers = s.peers := rfl
@[simp] theorem State.updSt_mem (s : State) (f : Strand → Strand) : (s.updSt f).mem = s.mem := rfl
@[simp] theorem State.updSt_poison (s : State) (f : Strand → Strand) : (s.updSt f).poison = s.poison := rfl
@[simp] theorem State.updSt_cellPoison (s : State) (f : Strand → Strand) : (s.updSt f).cellPoison = s.cellPoison := rfl
@[simp] theorem State.updSt_cells (s : State) (f : Strand → Strand) : (s.updSt f).cells = s.cells := rfl
@[simp] theorem State.updSt_l2 (s : State) (f : Strand → Strand) : (s.updSt f).l2 = s.l2 := rfl
@[simp] theorem State.updSt_ptrs (s : State) (f : Strand → Strand) : (s.updSt f).ptrs = s.ptrs := rfl
@[simp] theorem State.updSt_seen (s : State) (f : Strand → Strand) : (s.updSt f).seen = s.seen := rfl
@[simp] theorem State.updSt_pins (s : State) (f : Strand → Strand) : (s.updSt f).pins = s.pins := rfl
@[simp] theorem State.updSt_pubs (s : State) (f : Strand → Strand) : (s.updSt f).pubs = s.pubs := rfl
@[simp] theorem State.updSt_tags (s : State) (f : Strand → Strand) : (s.updSt f).tags = s.tags := rfl
@[simp] theorem State.updSt_tagWaits (s : State) (f : Strand → Strand) : (s.updSt f).tagWaits = s.tagWaits := rfl
@[simp] theorem State.updSt_retires (s : State) (f : Strand → Strand) : (s.updSt f).retires = s.retires := rfl
@[simp] theorem State.updSt_slots (s : State) (f : Strand → Strand) : (s.updSt f).slots = s.slots := rfl
@[simp] theorem State.updSt_shadow (s : State) (f : Strand → Strand) : (s.updSt f).shadow = s.shadow := rfl
@[simp] theorem State.updSt_cxl (s : State) (f : Strand → Strand) : (s.updSt f).cxl = s.cxl := rfl
@[simp] theorem State.updSt_tsuwin (s : State) (f : Strand → Strand) : (s.updSt f).tsuwin = s.tsuwin := rfl
@[simp] theorem State.updSt_stallWires (s : State) (f : Strand → Strand) : (s.updSt f).stallWires = s.stallWires := rfl
@[simp] theorem State.updSt_vis (s : State) (f : Strand → Strand) : (s.updSt f).vis = s.vis := rfl
@[simp] theorem State.updSt_fe (s : State) (f : Strand → Strand) : (s.updSt f).fe = s.fe := rfl
@[simp] theorem State.updSt_disp (s : State) (f : Strand → Strand) : (s.updSt f).disp = s.disp := rfl
@[simp] theorem State.updSt_pow (s : State) (f : Strand → Strand) : (s.updSt f).pow = s.pow := rfl
@[simp] theorem State.updSt_fab (s : State) (f : Strand → Strand) : (s.updSt f).fab = s.fab := rfl
@[simp] theorem State.updSt_mgmt (s : State) (f : Strand → Strand) : (s.updSt f).mgmt = s.mgmt := rfl
@[simp] theorem State.updSt_turns (s : State) (f : Strand → Strand) : (s.updSt f).turns = s.turns := rfl
@[simp] theorem State.updSt_rotor (s : State) (f : Strand → Strand) : (s.updSt f).rotor = s.rotor := rfl
@[simp] theorem State.updSt_input (s : State) (f : Strand → Strand) : (s.updSt f).input = s.input := rfl
@[simp] theorem State.updSt_free (s : State) (f : Strand → Strand) : (s.updSt f).free = s.free := rfl
@[simp] theorem State.updSt_me_die (s : State) (f : Strand → Strand) : (s.updSt f).me.die = s.me.die := rfl
@[simp] theorem State.updSt_me_clus (s : State) (f : Strand → Strand) : (s.updSt f).me.clus = s.me.clus := rfl
@[simp] theorem State.updSt_me_status (s : State) (f : Strand → Strand) : (s.updSt f).me.status = s.me.status := rfl
@[simp] theorem State.updSt_me_l1 (s : State) (f : Strand → Strand) : (s.updSt f).me.l1 = s.me.l1 := rfl
@[simp] theorem State.updSt_me_tlb (s : State) (f : Strand → Strand) : (s.updSt f).me.tlb = s.me.tlb := rfl
@[simp] theorem State.updSt_me_imp (s : State) (f : Strand → Strand) : (s.updSt f).me.imp = s.me.imp := rfl
@[simp] theorem State.updSt_me_thrNow (s : State) (f : Strand → Strand) : (s.updSt f).me.thrNow = s.me.thrNow := rfl
@[simp] theorem State.updSt_me_thrSticky (s : State) (f : Strand → Strand) : (s.updSt f).me.thrSticky = s.me.thrSticky := rfl
@[simp] theorem State.updSt_me_thrCyc (s : State) (f : Strand → Strand) : (s.updSt f).me.thrCyc = s.me.thrCyc := rfl
@[simp] theorem State.updSt_me_fenced (s : State) (f : Strand → Strand) : (s.updSt f).me.fenced = s.me.fenced := rfl
@[simp] theorem State.updSt_me_rollbackTimes (s : State) (f : Strand → Strand) : (s.updSt f).me.rollbackTimes = s.me.rollbackTimes := rfl
@[simp] theorem State.updSt_st (s : State) (f : Strand → Strand) : (s.updSt f).me.st = f s.me.st := rfl
@[simp] theorem State.updSt_ctl (s : State) (f : Strand → Strand) : (s.updSt f).ctl = (f s.me.st).ctl := rfl
@[simp] theorem State.updSt_updSt (s : State) (f g : Strand → Strand) : (s.updSt f).updSt g = s.updSt fun t => g (f t) := rfl

/-! ### Changes of the control state of `me` -/

@[simp] theorem State.updCtl_peers (s : State) (f : Ctl → Ctl) : (s.updCtl f).peers = s.peers := rfl
@[simp] theorem State.updCtl_mem (s : State) (f : Ctl → Ctl) : (s.updCtl f).mem = s.mem := rfl
@[simp] theorem State.updCtl_poison (s : State) (f : Ctl → Ctl) : (s.updCtl f).poison = s.poison := rfl
@[simp] theorem State.updCtl_cellPoison (s : State) (f : Ctl → Ctl) : (s.updCtl f).cellPoison = s.cellPoison := rfl
@[simp] theorem State.updCtl_cells (s : State) (f : Ctl → Ctl) : (s.updCtl f).cells = s.cells := rfl
@[simp] theorem State.updCtl_l2 (s : State) (f : Ctl → Ctl) : (s.updCtl f).l2 = s.l2 := rfl
@[simp] theorem State.updCtl_ptrs (s : State) (f : Ctl → Ctl) : (s.updCtl f).ptrs = s.ptrs := rfl
@[simp] theorem State.updCtl_seen (s : State) (f : Ctl → Ctl) : (s.updCtl f).seen = s.seen := rfl
@[simp] theorem State.updCtl_pins (s : State) (f : Ctl → Ctl) : (s.updCtl f).pins = s.pins := rfl
@[simp] theorem State.updCtl_pubs (s : State) (f : Ctl → Ctl) : (s.updCtl f).pubs = s.pubs := rfl
@[simp] theorem State.updCtl_tags (s : State) (f : Ctl → Ctl) : (s.updCtl f).tags = s.tags := rfl
@[simp] theorem State.updCtl_tagWaits (s : State) (f : Ctl → Ctl) : (s.updCtl f).tagWaits = s.tagWaits := rfl
@[simp] theorem State.updCtl_retires (s : State) (f : Ctl → Ctl) : (s.updCtl f).retires = s.retires := rfl
@[simp] theorem State.updCtl_slots (s : State) (f : Ctl → Ctl) : (s.updCtl f).slots = s.slots := rfl
@[simp] theorem State.updCtl_shadow (s : State) (f : Ctl → Ctl) : (s.updCtl f).shadow = s.shadow := rfl
@[simp] theorem State.updCtl_cxl (s : State) (f : Ctl → Ctl) : (s.updCtl f).cxl = s.cxl := rfl
@[simp] theorem State.updCtl_tsuwin (s : State) (f : Ctl → Ctl) : (s.updCtl f).tsuwin = s.tsuwin := rfl
@[simp] theorem State.updCtl_stallWires (s : State) (f : Ctl → Ctl) : (s.updCtl f).stallWires = s.stallWires := rfl
@[simp] theorem State.updCtl_vis (s : State) (f : Ctl → Ctl) : (s.updCtl f).vis = s.vis := rfl
@[simp] theorem State.updCtl_fe (s : State) (f : Ctl → Ctl) : (s.updCtl f).fe = s.fe := rfl
@[simp] theorem State.updCtl_disp (s : State) (f : Ctl → Ctl) : (s.updCtl f).disp = s.disp := rfl
@[simp] theorem State.updCtl_pow (s : State) (f : Ctl → Ctl) : (s.updCtl f).pow = s.pow := rfl
@[simp] theorem State.updCtl_fab (s : State) (f : Ctl → Ctl) : (s.updCtl f).fab = s.fab := rfl
@[simp] theorem State.updCtl_mgmt (s : State) (f : Ctl → Ctl) : (s.updCtl f).mgmt = s.mgmt := rfl
@[simp] theorem State.updCtl_turns (s : State) (f : Ctl → Ctl) : (s.updCtl f).turns = s.turns := rfl
@[simp] theorem State.updCtl_rotor (s : State) (f : Ctl → Ctl) : (s.updCtl f).rotor = s.rotor := rfl
@[simp] theorem State.updCtl_input (s : State) (f : Ctl → Ctl) : (s.updCtl f).input = s.input := rfl
@[simp] theorem State.updCtl_free (s : State) (f : Ctl → Ctl) : (s.updCtl f).free = s.free := rfl
@[simp] theorem State.updCtl_me_die (s : State) (f : Ctl → Ctl) : (s.updCtl f).me.die = s.me.die := rfl
@[simp] theorem State.updCtl_me_clus (s : State) (f : Ctl → Ctl) : (s.updCtl f).me.clus = s.me.clus := rfl
@[simp] theorem State.updCtl_me_status (s : State) (f : Ctl → Ctl) : (s.updCtl f).me.status = s.me.status := rfl
@[simp] theorem State.updCtl_me_l1 (s : State) (f : Ctl → Ctl) : (s.updCtl f).me.l1 = s.me.l1 := rfl
@[simp] theorem State.updCtl_me_tlb (s : State) (f : Ctl → Ctl) : (s.updCtl f).me.tlb = s.me.tlb := rfl
@[simp] theorem State.updCtl_me_imp (s : State) (f : Ctl → Ctl) : (s.updCtl f).me.imp = s.me.imp := rfl
@[simp] theorem State.updCtl_me_thrNow (s : State) (f : Ctl → Ctl) : (s.updCtl f).me.thrNow = s.me.thrNow := rfl
@[simp] theorem State.updCtl_me_thrSticky (s : State) (f : Ctl → Ctl) : (s.updCtl f).me.thrSticky = s.me.thrSticky := rfl
@[simp] theorem State.updCtl_me_thrCyc (s : State) (f : Ctl → Ctl) : (s.updCtl f).me.thrCyc = s.me.thrCyc := rfl
@[simp] theorem State.updCtl_me_fenced (s : State) (f : Ctl → Ctl) : (s.updCtl f).me.fenced = s.me.fenced := rfl
@[simp] theorem State.updCtl_me_rollbackTimes (s : State) (f : Ctl → Ctl) : (s.updCtl f).me.rollbackTimes = s.me.rollbackTimes := rfl
@[simp] theorem State.updCtl_st_vi (s : State) (f : Ctl → Ctl) : (s.updCtl f).me.st.vi = s.me.st.vi := rfl
@[simp] theorem State.updCtl_st_stream (s : State) (f : Ctl → Ctl) : (s.updCtl f).me.st.stream = s.me.st.stream := rfl
@[simp] theorem State.updCtl_st_node (s : State) (f : Ctl → Ctl) : (s.updCtl f).me.st.node = s.me.st.node := rfl
@[simp] theorem State.updCtl_st_idx (s : State) (f : Ctl → Ctl) : (s.updCtl f).me.st.idx = s.me.st.idx := rfl
@[simp] theorem State.updCtl_st_gang (s : State) (f : Ctl → Ctl) : (s.updCtl f).me.st.gang = s.me.st.gang := rfl
@[simp] theorem State.updCtl_st_vkind (s : State) (f : Ctl → Ctl) : (s.updCtl f).me.st.vkind = s.me.st.vkind := rfl
@[simp] theorem State.updCtl_st_eclass (s : State) (f : Ctl → Ctl) : (s.updCtl f).me.st.eclass = s.me.st.eclass := rfl
@[simp] theorem State.updCtl_st_vars (s : State) (f : Ctl → Ctl) : (s.updCtl f).me.st.vars = s.me.st.vars := rfl
@[simp] theorem State.updCtl_st_code (s : State) (f : Ctl → Ctl) : (s.updCtl f).me.st.code = s.me.st.code := rfl
@[simp] theorem State.updCtl_st_spadSize (s : State) (f : Ctl → Ctl) : (s.updCtl f).me.st.spadSize = s.me.st.spadSize := rfl
@[simp] theorem State.updCtl_st_v (s : State) (f : Ctl → Ctl) : (s.updCtl f).me.st.v = s.me.st.v := rfl
@[simp] theorem State.updCtl_st_m (s : State) (f : Ctl → Ctl) : (s.updCtl f).me.st.m = s.me.st.m := rfl
@[simp] theorem State.updCtl_st_q (s : State) (f : Ctl → Ctl) : (s.updCtl f).me.st.q = s.me.st.q := rfl
@[simp] theorem State.updCtl_st_spad (s : State) (f : Ctl → Ctl) : (s.updCtl f).me.st.spad = s.me.st.spad := rfl
@[simp] theorem State.updCtl_st_pendDst (s : State) (f : Ctl → Ctl) : (s.updCtl f).me.st.pendDst = s.me.st.pendDst := rfl
@[simp] theorem State.updCtl_st_zlrec (s : State) (f : Ctl → Ctl) : (s.updCtl f).me.st.zlrec = s.me.st.zlrec := rfl
@[simp] theorem State.updCtl_st_traps (s : State) (f : Ctl → Ctl) : (s.updCtl f).me.st.traps = s.me.st.traps := rfl
@[simp] theorem State.updCtl_st_seq (s : State) (f : Ctl → Ctl) : (s.updCtl f).me.st.seq = s.me.st.seq := rfl
@[simp] theorem State.updCtl_st_lqu (s : State) (f : Ctl → Ctl) : (s.updCtl f).me.st.lqu = s.me.st.lqu := rfl
@[simp] theorem State.updCtl_st_squ (s : State) (f : Ctl → Ctl) : (s.updCtl f).me.st.squ = s.me.st.squ := rfl
@[simp] theorem State.updCtl_st_kqu (s : State) (f : Ctl → Ctl) : (s.updCtl f).me.st.kqu = s.me.st.kqu := rfl
@[simp] theorem State.updCtl_st_vqu (s : State) (f : Ctl → Ctl) : (s.updCtl f).me.st.vqu = s.me.st.vqu := rfl
@[simp] theorem State.updCtl_st_mqu (s : State) (f : Ctl → Ctl) : (s.updCtl f).me.st.mqu = s.me.st.mqu := rfl
@[simp] theorem State.updCtl_st_vrun (s : State) (f : Ctl → Ctl) : (s.updCtl f).me.st.vrun = s.me.st.vrun := rfl
@[simp] theorem State.updCtl_st_mrun (s : State) (f : Ctl → Ctl) : (s.updCtl f).me.st.mrun = s.me.st.mrun := rfl
@[simp] theorem State.updCtl_st_vdry (s : State) (f : Ctl → Ctl) : (s.updCtl f).me.st.vdry = s.me.st.vdry := rfl
@[simp] theorem State.updCtl_st_mdry (s : State) (f : Ctl → Ctl) : (s.updCtl f).me.st.mdry = s.me.st.mdry := rfl
@[simp] theorem State.updCtl_st_relaxLost (s : State) (f : Ctl → Ctl) : (s.updCtl f).me.st.relaxLost = s.me.st.relaxLost := rfl
@[simp] theorem State.updCtl_st_relaxEnded (s : State) (f : Ctl → Ctl) : (s.updCtl f).me.st.relaxEnded = s.me.st.relaxEnded := rfl
@[simp] theorem State.updCtl_st_mprog (s : State) (f : Ctl → Ctl) : (s.updCtl f).me.st.mprog = s.me.st.mprog := rfl
@[simp] theorem State.updCtl_st_gates (s : State) (f : Ctl → Ctl) : (s.updCtl f).me.st.gates = s.me.st.gates := rfl
@[simp] theorem State.updCtl_st_nt (s : State) (f : Ctl → Ctl) : (s.updCtl f).me.st.nt = s.me.st.nt := rfl
@[simp] theorem State.updCtl_st_ntWait (s : State) (f : Ctl → Ctl) : (s.updCtl f).me.st.ntWait = s.me.st.ntWait := rfl
@[simp] theorem State.updCtl_st_held (s : State) (f : Ctl → Ctl) : (s.updCtl f).me.st.held = s.me.st.held := rfl
@[simp] theorem State.updCtl_st_stall (s : State) (f : Ctl → Ctl) : (s.updCtl f).me.st.stall = s.me.st.stall := rfl
@[simp] theorem State.updCtl_st_finish (s : State) (f : Ctl → Ctl) : (s.updCtl f).me.st.finish = s.me.st.finish := rfl
@[simp] theorem State.updCtl_st_wdC (s : State) (f : Ctl → Ctl) : (s.updCtl f).me.st.wdC = s.me.st.wdC := rfl
@[simp] theorem State.updCtl_st_wdE (s : State) (f : Ctl → Ctl) : (s.updCtl f).me.st.wdE = s.me.st.wdE := rfl
@[simp] theorem State.updCtl_st_wdTag (s : State) (f : Ctl → Ctl) : (s.updCtl f).me.st.wdTag = s.me.st.wdTag := rfl
@[simp] theorem State.updCtl_st_slice (s : State) (f : Ctl → Ctl) : (s.updCtl f).me.st.slice = s.me.st.slice := rfl
@[simp] theorem State.updCtl_st_ckpt (s : State) (f : Ctl → Ctl) : (s.updCtl f).me.st.ckpt = s.me.st.ckpt := rfl
@[simp] theorem State.updCtl_st_log (s : State) (f : Ctl → Ctl) : (s.updCtl f).me.st.log = s.me.st.log := rfl
@[simp] theorem State.updCtl_st_replay (s : State) (f : Ctl → Ctl) : (s.updCtl f).me.st.replay = s.me.st.replay := rfl
@[simp] theorem State.updCtl_st_locks (s : State) (f : Ctl → Ctl) : (s.updCtl f).me.st.locks = s.me.st.locks := rfl
@[simp] theorem State.updCtl_st_fills (s : State) (f : Ctl → Ctl) : (s.updCtl f).me.st.fills = s.me.st.fills := rfl
@[simp] theorem State.updCtl_st_unprotected (s : State) (f : Ctl → Ctl) : (s.updCtl f).me.st.unprotected = s.me.st.unprotected := rfl
@[simp] theorem State.updCtl_st_openSeq (s : State) (f : Ctl → Ctl) : (s.updCtl f).me.st.openSeq = s.me.st.openSeq := rfl
@[simp] theorem State.updCtl_st_rollbacks (s : State) (f : Ctl → Ctl) : (s.updCtl f).me.st.rollbacks = s.me.st.rollbacks := rfl
@[simp] theorem State.updCtl_st_halt (s : State) (f : Ctl → Ctl) : (s.updCtl f).me.st.halt = s.me.st.halt := rfl
@[simp] theorem State.updCtl_st_ctl (s : State) (f : Ctl → Ctl) : (s.updCtl f).me.st.ctl = f s.me.st.ctl := rfl
@[simp] theorem State.updCtl_ctl (s : State) (f : Ctl → Ctl) : (s.updCtl f).ctl = f s.ctl := rfl

/-! ### A matrix state that changes -/

@[simp] theorem State.updM_peers (s : State) (f : MState → MState) : (s.updM f).peers = s.peers := rfl
@[simp] theorem State.updM_mem (s : State) (f : MState → MState) : (s.updM f).mem = s.mem := rfl
@[simp] theorem State.updM_poison (s : State) (f : MState → MState) : (s.updM f).poison = s.poison := rfl
@[simp] theorem State.updM_cellPoison (s : State) (f : MState → MState) : (s.updM f).cellPoison = s.cellPoison := rfl
@[simp] theorem State.updM_cells (s : State) (f : MState → MState) : (s.updM f).cells = s.cells := rfl
@[simp] theorem State.updM_l2 (s : State) (f : MState → MState) : (s.updM f).l2 = s.l2 := rfl
@[simp] theorem State.updM_ptrs (s : State) (f : MState → MState) : (s.updM f).ptrs = s.ptrs := rfl
@[simp] theorem State.updM_seen (s : State) (f : MState → MState) : (s.updM f).seen = s.seen := rfl
@[simp] theorem State.updM_pins (s : State) (f : MState → MState) : (s.updM f).pins = s.pins := rfl
@[simp] theorem State.updM_pubs (s : State) (f : MState → MState) : (s.updM f).pubs = s.pubs := rfl
@[simp] theorem State.updM_tags (s : State) (f : MState → MState) : (s.updM f).tags = s.tags := rfl
@[simp] theorem State.updM_tagWaits (s : State) (f : MState → MState) : (s.updM f).tagWaits = s.tagWaits := rfl
@[simp] theorem State.updM_retires (s : State) (f : MState → MState) : (s.updM f).retires = s.retires := rfl
@[simp] theorem State.updM_slots (s : State) (f : MState → MState) : (s.updM f).slots = s.slots := rfl
@[simp] theorem State.updM_shadow (s : State) (f : MState → MState) : (s.updM f).shadow = s.shadow := rfl
@[simp] theorem State.updM_cxl (s : State) (f : MState → MState) : (s.updM f).cxl = s.cxl := rfl
@[simp] theorem State.updM_tsuwin (s : State) (f : MState → MState) : (s.updM f).tsuwin = s.tsuwin := rfl
@[simp] theorem State.updM_stallWires (s : State) (f : MState → MState) : (s.updM f).stallWires = s.stallWires := rfl
@[simp] theorem State.updM_vis (s : State) (f : MState → MState) : (s.updM f).vis = s.vis := rfl
@[simp] theorem State.updM_fe (s : State) (f : MState → MState) : (s.updM f).fe = s.fe := rfl
@[simp] theorem State.updM_disp (s : State) (f : MState → MState) : (s.updM f).disp = s.disp := rfl
@[simp] theorem State.updM_pow (s : State) (f : MState → MState) : (s.updM f).pow = s.pow := rfl
@[simp] theorem State.updM_fab (s : State) (f : MState → MState) : (s.updM f).fab = s.fab := rfl
@[simp] theorem State.updM_mgmt (s : State) (f : MState → MState) : (s.updM f).mgmt = s.mgmt := rfl
@[simp] theorem State.updM_turns (s : State) (f : MState → MState) : (s.updM f).turns = s.turns := rfl
@[simp] theorem State.updM_rotor (s : State) (f : MState → MState) : (s.updM f).rotor = s.rotor := rfl
@[simp] theorem State.updM_input (s : State) (f : MState → MState) : (s.updM f).input = s.input := rfl
@[simp] theorem State.updM_free (s : State) (f : MState → MState) : (s.updM f).free = s.free := rfl
@[simp] theorem State.updM_me_die (s : State) (f : MState → MState) : (s.updM f).me.die = s.me.die := rfl
@[simp] theorem State.updM_me_clus (s : State) (f : MState → MState) : (s.updM f).me.clus = s.me.clus := rfl
@[simp] theorem State.updM_me_status (s : State) (f : MState → MState) : (s.updM f).me.status = s.me.status := rfl
@[simp] theorem State.updM_me_l1 (s : State) (f : MState → MState) : (s.updM f).me.l1 = s.me.l1 := rfl
@[simp] theorem State.updM_me_tlb (s : State) (f : MState → MState) : (s.updM f).me.tlb = s.me.tlb := rfl
@[simp] theorem State.updM_me_imp (s : State) (f : MState → MState) : (s.updM f).me.imp = s.me.imp := rfl
@[simp] theorem State.updM_me_thrNow (s : State) (f : MState → MState) : (s.updM f).me.thrNow = s.me.thrNow := rfl
@[simp] theorem State.updM_me_thrSticky (s : State) (f : MState → MState) : (s.updM f).me.thrSticky = s.me.thrSticky := rfl
@[simp] theorem State.updM_me_thrCyc (s : State) (f : MState → MState) : (s.updM f).me.thrCyc = s.me.thrCyc := rfl
@[simp] theorem State.updM_me_fenced (s : State) (f : MState → MState) : (s.updM f).me.fenced = s.me.fenced := rfl
@[simp] theorem State.updM_me_rollbackTimes (s : State) (f : MState → MState) : (s.updM f).me.rollbackTimes = s.me.rollbackTimes := rfl
@[simp] theorem State.updM_st_vi (s : State) (f : MState → MState) : (s.updM f).me.st.vi = s.me.st.vi := rfl
@[simp] theorem State.updM_st_stream (s : State) (f : MState → MState) : (s.updM f).me.st.stream = s.me.st.stream := rfl
@[simp] theorem State.updM_st_node (s : State) (f : MState → MState) : (s.updM f).me.st.node = s.me.st.node := rfl
@[simp] theorem State.updM_st_idx (s : State) (f : MState → MState) : (s.updM f).me.st.idx = s.me.st.idx := rfl
@[simp] theorem State.updM_st_gang (s : State) (f : MState → MState) : (s.updM f).me.st.gang = s.me.st.gang := rfl
@[simp] theorem State.updM_st_vkind (s : State) (f : MState → MState) : (s.updM f).me.st.vkind = s.me.st.vkind := rfl
@[simp] theorem State.updM_st_eclass (s : State) (f : MState → MState) : (s.updM f).me.st.eclass = s.me.st.eclass := rfl
@[simp] theorem State.updM_st_vars (s : State) (f : MState → MState) : (s.updM f).me.st.vars = s.me.st.vars := rfl
@[simp] theorem State.updM_st_code (s : State) (f : MState → MState) : (s.updM f).me.st.code = s.me.st.code := rfl
@[simp] theorem State.updM_st_spadSize (s : State) (f : MState → MState) : (s.updM f).me.st.spadSize = s.me.st.spadSize := rfl
@[simp] theorem State.updM_st_ctl (s : State) (f : MState → MState) : (s.updM f).me.st.ctl = s.me.st.ctl := rfl
@[simp] theorem State.updM_st_v (s : State) (f : MState → MState) : (s.updM f).me.st.v = s.me.st.v := rfl
@[simp] theorem State.updM_st_q (s : State) (f : MState → MState) : (s.updM f).me.st.q = s.me.st.q := rfl
@[simp] theorem State.updM_st_spad (s : State) (f : MState → MState) : (s.updM f).me.st.spad = s.me.st.spad := rfl
@[simp] theorem State.updM_st_pendDst (s : State) (f : MState → MState) : (s.updM f).me.st.pendDst = s.me.st.pendDst := rfl
@[simp] theorem State.updM_st_zlrec (s : State) (f : MState → MState) : (s.updM f).me.st.zlrec = s.me.st.zlrec := rfl
@[simp] theorem State.updM_st_traps (s : State) (f : MState → MState) : (s.updM f).me.st.traps = s.me.st.traps := rfl
@[simp] theorem State.updM_st_seq (s : State) (f : MState → MState) : (s.updM f).me.st.seq = s.me.st.seq := rfl
@[simp] theorem State.updM_st_lqu (s : State) (f : MState → MState) : (s.updM f).me.st.lqu = s.me.st.lqu := rfl
@[simp] theorem State.updM_st_squ (s : State) (f : MState → MState) : (s.updM f).me.st.squ = s.me.st.squ := rfl
@[simp] theorem State.updM_st_kqu (s : State) (f : MState → MState) : (s.updM f).me.st.kqu = s.me.st.kqu := rfl
@[simp] theorem State.updM_st_vqu (s : State) (f : MState → MState) : (s.updM f).me.st.vqu = s.me.st.vqu := rfl
@[simp] theorem State.updM_st_mqu (s : State) (f : MState → MState) : (s.updM f).me.st.mqu = s.me.st.mqu := rfl
@[simp] theorem State.updM_st_vrun (s : State) (f : MState → MState) : (s.updM f).me.st.vrun = s.me.st.vrun := rfl
@[simp] theorem State.updM_st_mrun (s : State) (f : MState → MState) : (s.updM f).me.st.mrun = s.me.st.mrun := rfl
@[simp] theorem State.updM_st_vdry (s : State) (f : MState → MState) : (s.updM f).me.st.vdry = s.me.st.vdry := rfl
@[simp] theorem State.updM_st_mdry (s : State) (f : MState → MState) : (s.updM f).me.st.mdry = s.me.st.mdry := rfl
@[simp] theorem State.updM_st_relaxLost (s : State) (f : MState → MState) : (s.updM f).me.st.relaxLost = s.me.st.relaxLost := rfl
@[simp] theorem State.updM_st_relaxEnded (s : State) (f : MState → MState) : (s.updM f).me.st.relaxEnded = s.me.st.relaxEnded := rfl
@[simp] theorem State.updM_st_mprog (s : State) (f : MState → MState) : (s.updM f).me.st.mprog = s.me.st.mprog := rfl
@[simp] theorem State.updM_st_gates (s : State) (f : MState → MState) : (s.updM f).me.st.gates = s.me.st.gates := rfl
@[simp] theorem State.updM_st_nt (s : State) (f : MState → MState) : (s.updM f).me.st.nt = s.me.st.nt := rfl
@[simp] theorem State.updM_st_ntWait (s : State) (f : MState → MState) : (s.updM f).me.st.ntWait = s.me.st.ntWait := rfl
@[simp] theorem State.updM_st_held (s : State) (f : MState → MState) : (s.updM f).me.st.held = s.me.st.held := rfl
@[simp] theorem State.updM_st_stall (s : State) (f : MState → MState) : (s.updM f).me.st.stall = s.me.st.stall := rfl
@[simp] theorem State.updM_st_finish (s : State) (f : MState → MState) : (s.updM f).me.st.finish = s.me.st.finish := rfl
@[simp] theorem State.updM_st_wdC (s : State) (f : MState → MState) : (s.updM f).me.st.wdC = s.me.st.wdC := rfl
@[simp] theorem State.updM_st_wdE (s : State) (f : MState → MState) : (s.updM f).me.st.wdE = s.me.st.wdE := rfl
@[simp] theorem State.updM_st_wdTag (s : State) (f : MState → MState) : (s.updM f).me.st.wdTag = s.me.st.wdTag := rfl
@[simp] theorem State.updM_st_slice (s : State) (f : MState → MState) : (s.updM f).me.st.slice = s.me.st.slice := rfl
@[simp] theorem State.updM_st_ckpt (s : State) (f : MState → MState) : (s.updM f).me.st.ckpt = s.me.st.ckpt := rfl
@[simp] theorem State.updM_st_log (s : State) (f : MState → MState) : (s.updM f).me.st.log = s.me.st.log := rfl
@[simp] theorem State.updM_st_replay (s : State) (f : MState → MState) : (s.updM f).me.st.replay = s.me.st.replay := rfl
@[simp] theorem State.updM_st_locks (s : State) (f : MState → MState) : (s.updM f).me.st.locks = s.me.st.locks := rfl
@[simp] theorem State.updM_st_fills (s : State) (f : MState → MState) : (s.updM f).me.st.fills = s.me.st.fills := rfl
@[simp] theorem State.updM_st_unprotected (s : State) (f : MState → MState) : (s.updM f).me.st.unprotected = s.me.st.unprotected := rfl
@[simp] theorem State.updM_st_openSeq (s : State) (f : MState → MState) : (s.updM f).me.st.openSeq = s.me.st.openSeq := rfl
@[simp] theorem State.updM_st_rollbacks (s : State) (f : MState → MState) : (s.updM f).me.st.rollbacks = s.me.st.rollbacks := rfl
@[simp] theorem State.updM_st_halt (s : State) (f : MState → MState) : (s.updM f).me.st.halt = s.me.st.halt := rfl
@[simp] theorem State.updM_st_m (s : State) (f : MState → MState) : (s.updM f).me.st.m = f s.me.st.m := rfl

/-! ### The next word -/

@[simp] theorem State.fell_peers (s : State) : (s.fell).peers = s.peers := rfl
@[simp] theorem State.fell_mem (s : State) : (s.fell).mem = s.mem := rfl
@[simp] theorem State.fell_poison (s : State) : (s.fell).poison = s.poison := rfl
@[simp] theorem State.fell_cellPoison (s : State) : (s.fell).cellPoison = s.cellPoison := rfl
@[simp] theorem State.fell_cells (s : State) : (s.fell).cells = s.cells := rfl
@[simp] theorem State.fell_l2 (s : State) : (s.fell).l2 = s.l2 := rfl
@[simp] theorem State.fell_ptrs (s : State) : (s.fell).ptrs = s.ptrs := rfl
@[simp] theorem State.fell_seen (s : State) : (s.fell).seen = s.seen := rfl
@[simp] theorem State.fell_pins (s : State) : (s.fell).pins = s.pins := rfl
@[simp] theorem State.fell_pubs (s : State) : (s.fell).pubs = s.pubs := rfl
@[simp] theorem State.fell_tags (s : State) : (s.fell).tags = s.tags := rfl
@[simp] theorem State.fell_tagWaits (s : State) : (s.fell).tagWaits = s.tagWaits := rfl
@[simp] theorem State.fell_retires (s : State) : (s.fell).retires = s.retires := rfl
@[simp] theorem State.fell_slots (s : State) : (s.fell).slots = s.slots := rfl
@[simp] theorem State.fell_shadow (s : State) : (s.fell).shadow = s.shadow := rfl
@[simp] theorem State.fell_cxl (s : State) : (s.fell).cxl = s.cxl := rfl
@[simp] theorem State.fell_tsuwin (s : State) : (s.fell).tsuwin = s.tsuwin := rfl
@[simp] theorem State.fell_stallWires (s : State) : (s.fell).stallWires = s.stallWires := rfl
@[simp] theorem State.fell_vis (s : State) : (s.fell).vis = s.vis := rfl
@[simp] theorem State.fell_fe (s : State) : (s.fell).fe = s.fe := rfl
@[simp] theorem State.fell_disp (s : State) : (s.fell).disp = s.disp := rfl
@[simp] theorem State.fell_pow (s : State) : (s.fell).pow = s.pow := rfl
@[simp] theorem State.fell_fab (s : State) : (s.fell).fab = s.fab := rfl
@[simp] theorem State.fell_mgmt (s : State) : (s.fell).mgmt = s.mgmt := rfl
@[simp] theorem State.fell_turns (s : State) : (s.fell).turns = s.turns := rfl
@[simp] theorem State.fell_rotor (s : State) : (s.fell).rotor = s.rotor := rfl
@[simp] theorem State.fell_input (s : State) : (s.fell).input = s.input := rfl
@[simp] theorem State.fell_free (s : State) : (s.fell).free = s.free := rfl
@[simp] theorem State.fell_me_die (s : State) : (s.fell).me.die = s.me.die := rfl
@[simp] theorem State.fell_me_clus (s : State) : (s.fell).me.clus = s.me.clus := rfl
@[simp] theorem State.fell_me_status (s : State) : (s.fell).me.status = s.me.status := rfl
@[simp] theorem State.fell_me_l1 (s : State) : (s.fell).me.l1 = s.me.l1 := rfl
@[simp] theorem State.fell_me_tlb (s : State) : (s.fell).me.tlb = s.me.tlb := rfl
@[simp] theorem State.fell_me_imp (s : State) : (s.fell).me.imp = s.me.imp := rfl
@[simp] theorem State.fell_me_thrNow (s : State) : (s.fell).me.thrNow = s.me.thrNow := rfl
@[simp] theorem State.fell_me_thrSticky (s : State) : (s.fell).me.thrSticky = s.me.thrSticky := rfl
@[simp] theorem State.fell_me_thrCyc (s : State) : (s.fell).me.thrCyc = s.me.thrCyc := rfl
@[simp] theorem State.fell_me_fenced (s : State) : (s.fell).me.fenced = s.me.fenced := rfl
@[simp] theorem State.fell_me_rollbackTimes (s : State) : (s.fell).me.rollbackTimes = s.me.rollbackTimes := rfl
@[simp] theorem State.fell_st_vi (s : State) : (s.fell).me.st.vi = s.me.st.vi := rfl
@[simp] theorem State.fell_st_stream (s : State) : (s.fell).me.st.stream = s.me.st.stream := rfl
@[simp] theorem State.fell_st_node (s : State) : (s.fell).me.st.node = s.me.st.node := rfl
@[simp] theorem State.fell_st_idx (s : State) : (s.fell).me.st.idx = s.me.st.idx := rfl
@[simp] theorem State.fell_st_gang (s : State) : (s.fell).me.st.gang = s.me.st.gang := rfl
@[simp] theorem State.fell_st_vkind (s : State) : (s.fell).me.st.vkind = s.me.st.vkind := rfl
@[simp] theorem State.fell_st_eclass (s : State) : (s.fell).me.st.eclass = s.me.st.eclass := rfl
@[simp] theorem State.fell_st_vars (s : State) : (s.fell).me.st.vars = s.me.st.vars := rfl
@[simp] theorem State.fell_st_code (s : State) : (s.fell).me.st.code = s.me.st.code := rfl
@[simp] theorem State.fell_st_spadSize (s : State) : (s.fell).me.st.spadSize = s.me.st.spadSize := rfl
@[simp] theorem State.fell_st_v (s : State) : (s.fell).me.st.v = s.me.st.v := rfl
@[simp] theorem State.fell_st_m (s : State) : (s.fell).me.st.m = s.me.st.m := rfl
@[simp] theorem State.fell_st_q (s : State) : (s.fell).me.st.q = s.me.st.q := rfl
@[simp] theorem State.fell_st_spad (s : State) : (s.fell).me.st.spad = s.me.st.spad := rfl
@[simp] theorem State.fell_st_pendDst (s : State) : (s.fell).me.st.pendDst = s.me.st.pendDst := rfl
@[simp] theorem State.fell_st_zlrec (s : State) : (s.fell).me.st.zlrec = s.me.st.zlrec := rfl
@[simp] theorem State.fell_st_traps (s : State) : (s.fell).me.st.traps = s.me.st.traps := rfl
@[simp] theorem State.fell_st_seq (s : State) : (s.fell).me.st.seq = s.me.st.seq := rfl
@[simp] theorem State.fell_st_lqu (s : State) : (s.fell).me.st.lqu = s.me.st.lqu := rfl
@[simp] theorem State.fell_st_squ (s : State) : (s.fell).me.st.squ = s.me.st.squ := rfl
@[simp] theorem State.fell_st_kqu (s : State) : (s.fell).me.st.kqu = s.me.st.kqu := rfl
@[simp] theorem State.fell_st_vqu (s : State) : (s.fell).me.st.vqu = s.me.st.vqu := rfl
@[simp] theorem State.fell_st_mqu (s : State) : (s.fell).me.st.mqu = s.me.st.mqu := rfl
@[simp] theorem State.fell_st_vrun (s : State) : (s.fell).me.st.vrun = s.me.st.vrun := rfl
@[simp] theorem State.fell_st_mrun (s : State) : (s.fell).me.st.mrun = s.me.st.mrun := rfl
@[simp] theorem State.fell_st_vdry (s : State) : (s.fell).me.st.vdry = s.me.st.vdry := rfl
@[simp] theorem State.fell_st_mdry (s : State) : (s.fell).me.st.mdry = s.me.st.mdry := rfl
@[simp] theorem State.fell_st_relaxLost (s : State) : (s.fell).me.st.relaxLost = s.me.st.relaxLost := rfl
@[simp] theorem State.fell_st_relaxEnded (s : State) : (s.fell).me.st.relaxEnded = s.me.st.relaxEnded := rfl
@[simp] theorem State.fell_st_mprog (s : State) : (s.fell).me.st.mprog = s.me.st.mprog := rfl
@[simp] theorem State.fell_st_gates (s : State) : (s.fell).me.st.gates = s.me.st.gates := rfl
@[simp] theorem State.fell_st_nt (s : State) : (s.fell).me.st.nt = s.me.st.nt := rfl
@[simp] theorem State.fell_st_held (s : State) : (s.fell).me.st.held = s.me.st.held := rfl
@[simp] theorem State.fell_st_finish (s : State) : (s.fell).me.st.finish = s.me.st.finish := rfl
@[simp] theorem State.fell_st_wdE (s : State) : (s.fell).me.st.wdE = s.me.st.wdE := rfl
@[simp] theorem State.fell_st_wdTag (s : State) : (s.fell).me.st.wdTag = s.me.st.wdTag := rfl
@[simp] theorem State.fell_st_slice (s : State) : (s.fell).me.st.slice = s.me.st.slice := rfl
@[simp] theorem State.fell_st_ckpt (s : State) : (s.fell).me.st.ckpt = s.me.st.ckpt := rfl
@[simp] theorem State.fell_st_log (s : State) : (s.fell).me.st.log = s.me.st.log := rfl
@[simp] theorem State.fell_st_replay (s : State) : (s.fell).me.st.replay = s.me.st.replay := rfl
@[simp] theorem State.fell_st_locks (s : State) : (s.fell).me.st.locks = s.me.st.locks := rfl
@[simp] theorem State.fell_st_fills (s : State) : (s.fell).me.st.fills = s.me.st.fills := rfl
@[simp] theorem State.fell_st_unprotected (s : State) : (s.fell).me.st.unprotected = s.me.st.unprotected := rfl
@[simp] theorem State.fell_st_openSeq (s : State) : (s.fell).me.st.openSeq = s.me.st.openSeq := rfl
@[simp] theorem State.fell_st_rollbacks (s : State) : (s.fell).me.st.rollbacks = s.me.st.rollbacks := rfl
@[simp] theorem State.fell_st_halt (s : State) : (s.fell).me.st.halt = s.me.st.halt := rfl
@[simp] theorem State.fell_ctl (s : State) : (s.fell).ctl = { s.ctl with pc := s.ctl.pc + 4 } := rfl
@[simp] theorem State.went_peers (s : State) (a : Word) : (s.went a).peers = s.peers := rfl
@[simp] theorem State.went_mem (s : State) (a : Word) : (s.went a).mem = s.mem := rfl
@[simp] theorem State.went_poison (s : State) (a : Word) : (s.went a).poison = s.poison := rfl
@[simp] theorem State.went_cellPoison (s : State) (a : Word) : (s.went a).cellPoison = s.cellPoison := rfl
@[simp] theorem State.went_cells (s : State) (a : Word) : (s.went a).cells = s.cells := rfl
@[simp] theorem State.went_l2 (s : State) (a : Word) : (s.went a).l2 = s.l2 := rfl
@[simp] theorem State.went_ptrs (s : State) (a : Word) : (s.went a).ptrs = s.ptrs := rfl
@[simp] theorem State.went_seen (s : State) (a : Word) : (s.went a).seen = s.seen := rfl
@[simp] theorem State.went_pins (s : State) (a : Word) : (s.went a).pins = s.pins := rfl
@[simp] theorem State.went_pubs (s : State) (a : Word) : (s.went a).pubs = s.pubs := rfl
@[simp] theorem State.went_tags (s : State) (a : Word) : (s.went a).tags = s.tags := rfl
@[simp] theorem State.went_tagWaits (s : State) (a : Word) : (s.went a).tagWaits = s.tagWaits := rfl
@[simp] theorem State.went_retires (s : State) (a : Word) : (s.went a).retires = s.retires := rfl
@[simp] theorem State.went_slots (s : State) (a : Word) : (s.went a).slots = s.slots := rfl
@[simp] theorem State.went_shadow (s : State) (a : Word) : (s.went a).shadow = s.shadow := rfl
@[simp] theorem State.went_cxl (s : State) (a : Word) : (s.went a).cxl = s.cxl := rfl
@[simp] theorem State.went_tsuwin (s : State) (a : Word) : (s.went a).tsuwin = s.tsuwin := rfl
@[simp] theorem State.went_stallWires (s : State) (a : Word) : (s.went a).stallWires = s.stallWires := rfl
@[simp] theorem State.went_vis (s : State) (a : Word) : (s.went a).vis = s.vis := rfl
@[simp] theorem State.went_fe (s : State) (a : Word) : (s.went a).fe = s.fe := rfl
@[simp] theorem State.went_disp (s : State) (a : Word) : (s.went a).disp = s.disp := rfl
@[simp] theorem State.went_pow (s : State) (a : Word) : (s.went a).pow = s.pow := rfl
@[simp] theorem State.went_fab (s : State) (a : Word) : (s.went a).fab = s.fab := rfl
@[simp] theorem State.went_mgmt (s : State) (a : Word) : (s.went a).mgmt = s.mgmt := rfl
@[simp] theorem State.went_turns (s : State) (a : Word) : (s.went a).turns = s.turns := rfl
@[simp] theorem State.went_rotor (s : State) (a : Word) : (s.went a).rotor = s.rotor := rfl
@[simp] theorem State.went_input (s : State) (a : Word) : (s.went a).input = s.input := rfl
@[simp] theorem State.went_free (s : State) (a : Word) : (s.went a).free = s.free := rfl
@[simp] theorem State.went_me_die (s : State) (a : Word) : (s.went a).me.die = s.me.die := rfl
@[simp] theorem State.went_me_clus (s : State) (a : Word) : (s.went a).me.clus = s.me.clus := rfl
@[simp] theorem State.went_me_status (s : State) (a : Word) : (s.went a).me.status = s.me.status := rfl
@[simp] theorem State.went_me_l1 (s : State) (a : Word) : (s.went a).me.l1 = s.me.l1 := rfl
@[simp] theorem State.went_me_tlb (s : State) (a : Word) : (s.went a).me.tlb = s.me.tlb := rfl
@[simp] theorem State.went_me_imp (s : State) (a : Word) : (s.went a).me.imp = s.me.imp := rfl
@[simp] theorem State.went_me_thrNow (s : State) (a : Word) : (s.went a).me.thrNow = s.me.thrNow := rfl
@[simp] theorem State.went_me_thrSticky (s : State) (a : Word) : (s.went a).me.thrSticky = s.me.thrSticky := rfl
@[simp] theorem State.went_me_thrCyc (s : State) (a : Word) : (s.went a).me.thrCyc = s.me.thrCyc := rfl
@[simp] theorem State.went_me_fenced (s : State) (a : Word) : (s.went a).me.fenced = s.me.fenced := rfl
@[simp] theorem State.went_me_rollbackTimes (s : State) (a : Word) : (s.went a).me.rollbackTimes = s.me.rollbackTimes := rfl
@[simp] theorem State.went_st_vi (s : State) (a : Word) : (s.went a).me.st.vi = s.me.st.vi := rfl
@[simp] theorem State.went_st_stream (s : State) (a : Word) : (s.went a).me.st.stream = s.me.st.stream := rfl
@[simp] theorem State.went_st_node (s : State) (a : Word) : (s.went a).me.st.node = s.me.st.node := rfl
@[simp] theorem State.went_st_idx (s : State) (a : Word) : (s.went a).me.st.idx = s.me.st.idx := rfl
@[simp] theorem State.went_st_gang (s : State) (a : Word) : (s.went a).me.st.gang = s.me.st.gang := rfl
@[simp] theorem State.went_st_vkind (s : State) (a : Word) : (s.went a).me.st.vkind = s.me.st.vkind := rfl
@[simp] theorem State.went_st_eclass (s : State) (a : Word) : (s.went a).me.st.eclass = s.me.st.eclass := rfl
@[simp] theorem State.went_st_vars (s : State) (a : Word) : (s.went a).me.st.vars = s.me.st.vars := rfl
@[simp] theorem State.went_st_code (s : State) (a : Word) : (s.went a).me.st.code = s.me.st.code := rfl
@[simp] theorem State.went_st_spadSize (s : State) (a : Word) : (s.went a).me.st.spadSize = s.me.st.spadSize := rfl
@[simp] theorem State.went_st_v (s : State) (a : Word) : (s.went a).me.st.v = s.me.st.v := rfl
@[simp] theorem State.went_st_m (s : State) (a : Word) : (s.went a).me.st.m = s.me.st.m := rfl
@[simp] theorem State.went_st_q (s : State) (a : Word) : (s.went a).me.st.q = s.me.st.q := rfl
@[simp] theorem State.went_st_spad (s : State) (a : Word) : (s.went a).me.st.spad = s.me.st.spad := rfl
@[simp] theorem State.went_st_pendDst (s : State) (a : Word) : (s.went a).me.st.pendDst = s.me.st.pendDst := rfl
@[simp] theorem State.went_st_zlrec (s : State) (a : Word) : (s.went a).me.st.zlrec = s.me.st.zlrec := rfl
@[simp] theorem State.went_st_traps (s : State) (a : Word) : (s.went a).me.st.traps = s.me.st.traps := rfl
@[simp] theorem State.went_st_seq (s : State) (a : Word) : (s.went a).me.st.seq = s.me.st.seq := rfl
@[simp] theorem State.went_st_lqu (s : State) (a : Word) : (s.went a).me.st.lqu = s.me.st.lqu := rfl
@[simp] theorem State.went_st_squ (s : State) (a : Word) : (s.went a).me.st.squ = s.me.st.squ := rfl
@[simp] theorem State.went_st_kqu (s : State) (a : Word) : (s.went a).me.st.kqu = s.me.st.kqu := rfl
@[simp] theorem State.went_st_vqu (s : State) (a : Word) : (s.went a).me.st.vqu = s.me.st.vqu := rfl
@[simp] theorem State.went_st_mqu (s : State) (a : Word) : (s.went a).me.st.mqu = s.me.st.mqu := rfl
@[simp] theorem State.went_st_vrun (s : State) (a : Word) : (s.went a).me.st.vrun = s.me.st.vrun := rfl
@[simp] theorem State.went_st_mrun (s : State) (a : Word) : (s.went a).me.st.mrun = s.me.st.mrun := rfl
@[simp] theorem State.went_st_vdry (s : State) (a : Word) : (s.went a).me.st.vdry = s.me.st.vdry := rfl
@[simp] theorem State.went_st_mdry (s : State) (a : Word) : (s.went a).me.st.mdry = s.me.st.mdry := rfl
@[simp] theorem State.went_st_relaxLost (s : State) (a : Word) : (s.went a).me.st.relaxLost = s.me.st.relaxLost := rfl
@[simp] theorem State.went_st_relaxEnded (s : State) (a : Word) : (s.went a).me.st.relaxEnded = s.me.st.relaxEnded := rfl
@[simp] theorem State.went_st_mprog (s : State) (a : Word) : (s.went a).me.st.mprog = s.me.st.mprog := rfl
@[simp] theorem State.went_st_gates (s : State) (a : Word) : (s.went a).me.st.gates = s.me.st.gates := rfl
@[simp] theorem State.went_st_nt (s : State) (a : Word) : (s.went a).me.st.nt = s.me.st.nt := rfl
@[simp] theorem State.went_st_held (s : State) (a : Word) : (s.went a).me.st.held = s.me.st.held := rfl
@[simp] theorem State.went_st_finish (s : State) (a : Word) : (s.went a).me.st.finish = s.me.st.finish := rfl
@[simp] theorem State.went_st_wdE (s : State) (a : Word) : (s.went a).me.st.wdE = s.me.st.wdE := rfl
@[simp] theorem State.went_st_wdTag (s : State) (a : Word) : (s.went a).me.st.wdTag = s.me.st.wdTag := rfl
@[simp] theorem State.went_st_slice (s : State) (a : Word) : (s.went a).me.st.slice = s.me.st.slice := rfl
@[simp] theorem State.went_st_ckpt (s : State) (a : Word) : (s.went a).me.st.ckpt = s.me.st.ckpt := rfl
@[simp] theorem State.went_st_log (s : State) (a : Word) : (s.went a).me.st.log = s.me.st.log := rfl
@[simp] theorem State.went_st_replay (s : State) (a : Word) : (s.went a).me.st.replay = s.me.st.replay := rfl
@[simp] theorem State.went_st_locks (s : State) (a : Word) : (s.went a).me.st.locks = s.me.st.locks := rfl
@[simp] theorem State.went_st_fills (s : State) (a : Word) : (s.went a).me.st.fills = s.me.st.fills := rfl
@[simp] theorem State.went_st_unprotected (s : State) (a : Word) : (s.went a).me.st.unprotected = s.me.st.unprotected := rfl
@[simp] theorem State.went_st_openSeq (s : State) (a : Word) : (s.went a).me.st.openSeq = s.me.st.openSeq := rfl
@[simp] theorem State.went_st_rollbacks (s : State) (a : Word) : (s.went a).me.st.rollbacks = s.me.st.rollbacks := rfl
@[simp] theorem State.went_st_halt (s : State) (a : Word) : (s.went a).me.st.halt = s.me.st.halt := rfl
@[simp] theorem State.went_ctl (s : State) (a : Word) : (s.went a).ctl = { s.ctl with pc := a } := rfl

/-! ### General registers and predicates -/

@[simp] theorem Ctl.setG_pc (c : Ctl) (r : Reg) (v : Word) : (c.setG r v).pc = c.pc := by unfold Ctl.setG; split <;> rfl
@[simp] theorem Ctl.setG_p (c : Ctl) (r : Reg) (v : Word) : (c.setG r v).p = c.p := by unfold Ctl.setG; split <;> rfl
@[simp] theorem Ctl.setG_bt (c : Ctl) (r : Reg) (v : Word) : (c.setG r v).bt = c.bt := by unfold Ctl.setG; split <;> rfl
@[simp] theorem Ctl.setG_zl (c : Ctl) (r : Reg) (v : Word) : (c.setG r v).zl = c.zl := by unfold Ctl.setG; split <;> rfl
@[simp] theorem Ctl.setG_order (c : Ctl) (r : Reg) (v : Word) : (c.setG r v).order = c.order := by unfold Ctl.setG; split <;> rfl
@[simp] theorem Ctl.setG_sp (c : Ctl) (r : Reg) (v : Word) : (c.setG r v).sp = c.sp := by unfold Ctl.setG; split <;> rfl
@[simp] theorem Ctl.setG_ctag (c : Ctl) (r : Reg) (v : Word) : (c.setG r v).ctag = c.ctag := by unfold Ctl.setG; split <;> rfl
@[simp] theorem Ctl.setG_eb (c : Ctl) (r : Reg) (v : Word) : (c.setG r v).eb = c.eb := by unfold Ctl.setG; split <;> rfl
@[simp] theorem Ctl.setG_tok (c : Ctl) (r : Reg) (v : Word) : (c.setG r v).tok = c.tok := by unfold Ctl.setG; split <;> rfl
@[simp] theorem Ctl.setG_ksErr (c : Ctl) (r : Reg) (v : Word) : (c.setG r v).ksErr = c.ksErr := by unfold Ctl.setG; split <;> rfl
@[simp] theorem Ctl.setG_ksMore (c : Ctl) (r : Reg) (v : Word) : (c.setG r v).ksMore = c.ksMore := by unfold Ctl.setG; split <;> rfl
@[simp] theorem Ctl.setG_ksOut (c : Ctl) (r : Reg) (v : Word) : (c.setG r v).ksOut = c.ksOut := by unfold Ctl.setG; split <;> rfl
@[simp] theorem Ctl.setG_ksErrSeq (c : Ctl) (r : Reg) (v : Word) : (c.setG r v).ksErrSeq = c.ksErrSeq := by unfold Ctl.setG; split <;> rfl
@[simp] theorem Ctl.setG_copySeq (c : Ctl) (r : Reg) (v : Word) : (c.setG r v).copySeq = c.copySeq := by unfold Ctl.setG; split <;> rfl
@[simp] theorem Ctl.setG_cq (c : Ctl) (r : Reg) (v : Word) : (c.setG r v).cq = c.cq := by unfold Ctl.setG; split <;> rfl
@[simp] theorem Ctl.setG_trp (c : Ctl) (r : Reg) (v : Word) : (c.setG r v).trp = c.trp := by unfold Ctl.setG; split <;> rfl
@[simp] theorem Ctl.setG_pwrReq (c : Ctl) (r : Reg) (v : Word) : (c.setG r v).pwrReq = c.pwrReq := by unfold Ctl.setG; split <;> rfl
@[simp] theorem Ctl.setP_pc (c : Ctl) (p : BitVec 3) (b : Bool) : (c.setP p b).pc = c.pc := by unfold Ctl.setP; split <;> rfl
@[simp] theorem Ctl.setP_g (c : Ctl) (p : BitVec 3) (b : Bool) : (c.setP p b).g = c.g := by unfold Ctl.setP; split <;> rfl
@[simp] theorem Ctl.setP_bt (c : Ctl) (p : BitVec 3) (b : Bool) : (c.setP p b).bt = c.bt := by unfold Ctl.setP; split <;> rfl
@[simp] theorem Ctl.setP_zl (c : Ctl) (p : BitVec 3) (b : Bool) : (c.setP p b).zl = c.zl := by unfold Ctl.setP; split <;> rfl
@[simp] theorem Ctl.setP_order (c : Ctl) (p : BitVec 3) (b : Bool) : (c.setP p b).order = c.order := by unfold Ctl.setP; split <;> rfl
@[simp] theorem Ctl.setP_sp (c : Ctl) (p : BitVec 3) (b : Bool) : (c.setP p b).sp = c.sp := by unfold Ctl.setP; split <;> rfl
@[simp] theorem Ctl.setP_ctag (c : Ctl) (p : BitVec 3) (b : Bool) : (c.setP p b).ctag = c.ctag := by unfold Ctl.setP; split <;> rfl
@[simp] theorem Ctl.setP_eb (c : Ctl) (p : BitVec 3) (b : Bool) : (c.setP p b).eb = c.eb := by unfold Ctl.setP; split <;> rfl
@[simp] theorem Ctl.setP_tok (c : Ctl) (p : BitVec 3) (b : Bool) : (c.setP p b).tok = c.tok := by unfold Ctl.setP; split <;> rfl
@[simp] theorem Ctl.setP_ksErr (c : Ctl) (p : BitVec 3) (b : Bool) : (c.setP p b).ksErr = c.ksErr := by unfold Ctl.setP; split <;> rfl
@[simp] theorem Ctl.setP_ksMore (c : Ctl) (p : BitVec 3) (b : Bool) : (c.setP p b).ksMore = c.ksMore := by unfold Ctl.setP; split <;> rfl
@[simp] theorem Ctl.setP_ksOut (c : Ctl) (p : BitVec 3) (b : Bool) : (c.setP p b).ksOut = c.ksOut := by unfold Ctl.setP; split <;> rfl
@[simp] theorem Ctl.setP_ksErrSeq (c : Ctl) (p : BitVec 3) (b : Bool) : (c.setP p b).ksErrSeq = c.ksErrSeq := by unfold Ctl.setP; split <;> rfl
@[simp] theorem Ctl.setP_copySeq (c : Ctl) (p : BitVec 3) (b : Bool) : (c.setP p b).copySeq = c.copySeq := by unfold Ctl.setP; split <;> rfl
@[simp] theorem Ctl.setP_cq (c : Ctl) (p : BitVec 3) (b : Bool) : (c.setP p b).cq = c.cq := by unfold Ctl.setP; split <;> rfl
@[simp] theorem Ctl.setP_trp (c : Ctl) (p : BitVec 3) (b : Bool) : (c.setP p b).trp = c.trp := by unfold Ctl.setP; split <;> rfl
@[simp] theorem Ctl.setP_pwrReq (c : Ctl) (p : BitVec 3) (b : Bool) : (c.setP p b).pwrReq = c.pwrReq := by unfold Ctl.setP; split <;> rfl
@[simp] theorem State.writeG_peers (s : State) (r : Reg) (v : Word) : (s.writeG r v).peers = s.peers := rfl
@[simp] theorem State.writeG_mem (s : State) (r : Reg) (v : Word) : (s.writeG r v).mem = s.mem := rfl
@[simp] theorem State.writeG_poison (s : State) (r : Reg) (v : Word) : (s.writeG r v).poison = s.poison := rfl
@[simp] theorem State.writeG_cellPoison (s : State) (r : Reg) (v : Word) : (s.writeG r v).cellPoison = s.cellPoison := rfl
@[simp] theorem State.writeG_cells (s : State) (r : Reg) (v : Word) : (s.writeG r v).cells = s.cells := rfl
@[simp] theorem State.writeG_l2 (s : State) (r : Reg) (v : Word) : (s.writeG r v).l2 = s.l2 := rfl
@[simp] theorem State.writeG_ptrs (s : State) (r : Reg) (v : Word) : (s.writeG r v).ptrs = s.ptrs := rfl
@[simp] theorem State.writeG_seen (s : State) (r : Reg) (v : Word) : (s.writeG r v).seen = s.seen := rfl
@[simp] theorem State.writeG_pins (s : State) (r : Reg) (v : Word) : (s.writeG r v).pins = s.pins := rfl
@[simp] theorem State.writeG_pubs (s : State) (r : Reg) (v : Word) : (s.writeG r v).pubs = s.pubs := rfl
@[simp] theorem State.writeG_tags (s : State) (r : Reg) (v : Word) : (s.writeG r v).tags = s.tags := rfl
@[simp] theorem State.writeG_tagWaits (s : State) (r : Reg) (v : Word) : (s.writeG r v).tagWaits = s.tagWaits := rfl
@[simp] theorem State.writeG_retires (s : State) (r : Reg) (v : Word) : (s.writeG r v).retires = s.retires := rfl
@[simp] theorem State.writeG_slots (s : State) (r : Reg) (v : Word) : (s.writeG r v).slots = s.slots := rfl
@[simp] theorem State.writeG_shadow (s : State) (r : Reg) (v : Word) : (s.writeG r v).shadow = s.shadow := rfl
@[simp] theorem State.writeG_cxl (s : State) (r : Reg) (v : Word) : (s.writeG r v).cxl = s.cxl := rfl
@[simp] theorem State.writeG_tsuwin (s : State) (r : Reg) (v : Word) : (s.writeG r v).tsuwin = s.tsuwin := rfl
@[simp] theorem State.writeG_stallWires (s : State) (r : Reg) (v : Word) : (s.writeG r v).stallWires = s.stallWires := rfl
@[simp] theorem State.writeG_vis (s : State) (r : Reg) (v : Word) : (s.writeG r v).vis = s.vis := rfl
@[simp] theorem State.writeG_fe (s : State) (r : Reg) (v : Word) : (s.writeG r v).fe = s.fe := rfl
@[simp] theorem State.writeG_disp (s : State) (r : Reg) (v : Word) : (s.writeG r v).disp = s.disp := rfl
@[simp] theorem State.writeG_pow (s : State) (r : Reg) (v : Word) : (s.writeG r v).pow = s.pow := rfl
@[simp] theorem State.writeG_fab (s : State) (r : Reg) (v : Word) : (s.writeG r v).fab = s.fab := rfl
@[simp] theorem State.writeG_mgmt (s : State) (r : Reg) (v : Word) : (s.writeG r v).mgmt = s.mgmt := rfl
@[simp] theorem State.writeG_turns (s : State) (r : Reg) (v : Word) : (s.writeG r v).turns = s.turns := rfl
@[simp] theorem State.writeG_rotor (s : State) (r : Reg) (v : Word) : (s.writeG r v).rotor = s.rotor := rfl
@[simp] theorem State.writeG_input (s : State) (r : Reg) (v : Word) : (s.writeG r v).input = s.input := rfl
@[simp] theorem State.writeG_free (s : State) (r : Reg) (v : Word) : (s.writeG r v).free = s.free := rfl
@[simp] theorem State.writeG_me_die (s : State) (r : Reg) (v : Word) : (s.writeG r v).me.die = s.me.die := rfl
@[simp] theorem State.writeG_me_clus (s : State) (r : Reg) (v : Word) : (s.writeG r v).me.clus = s.me.clus := rfl
@[simp] theorem State.writeG_me_status (s : State) (r : Reg) (v : Word) : (s.writeG r v).me.status = s.me.status := rfl
@[simp] theorem State.writeG_me_l1 (s : State) (r : Reg) (v : Word) : (s.writeG r v).me.l1 = s.me.l1 := rfl
@[simp] theorem State.writeG_me_tlb (s : State) (r : Reg) (v : Word) : (s.writeG r v).me.tlb = s.me.tlb := rfl
@[simp] theorem State.writeG_me_imp (s : State) (r : Reg) (v : Word) : (s.writeG r v).me.imp = s.me.imp := rfl
@[simp] theorem State.writeG_me_thrNow (s : State) (r : Reg) (v : Word) : (s.writeG r v).me.thrNow = s.me.thrNow := rfl
@[simp] theorem State.writeG_me_thrSticky (s : State) (r : Reg) (v : Word) : (s.writeG r v).me.thrSticky = s.me.thrSticky := rfl
@[simp] theorem State.writeG_me_thrCyc (s : State) (r : Reg) (v : Word) : (s.writeG r v).me.thrCyc = s.me.thrCyc := rfl
@[simp] theorem State.writeG_me_fenced (s : State) (r : Reg) (v : Word) : (s.writeG r v).me.fenced = s.me.fenced := rfl
@[simp] theorem State.writeG_me_rollbackTimes (s : State) (r : Reg) (v : Word) : (s.writeG r v).me.rollbackTimes = s.me.rollbackTimes := rfl
@[simp] theorem State.writeG_st_vi (s : State) (r : Reg) (v : Word) : (s.writeG r v).me.st.vi = s.me.st.vi := by simp only [State.writeG, State.updSt_st, Strand.writeG]; split <;> rfl
@[simp] theorem State.writeG_st_stream (s : State) (r : Reg) (v : Word) : (s.writeG r v).me.st.stream = s.me.st.stream := by simp only [State.writeG, State.updSt_st, Strand.writeG]; split <;> rfl
@[simp] theorem State.writeG_st_node (s : State) (r : Reg) (v : Word) : (s.writeG r v).me.st.node = s.me.st.node := by simp only [State.writeG, State.updSt_st, Strand.writeG]; split <;> rfl
@[simp] theorem State.writeG_st_idx (s : State) (r : Reg) (v : Word) : (s.writeG r v).me.st.idx = s.me.st.idx := by simp only [State.writeG, State.updSt_st, Strand.writeG]; split <;> rfl
@[simp] theorem State.writeG_st_gang (s : State) (r : Reg) (v : Word) : (s.writeG r v).me.st.gang = s.me.st.gang := by simp only [State.writeG, State.updSt_st, Strand.writeG]; split <;> rfl
@[simp] theorem State.writeG_st_vkind (s : State) (r : Reg) (v : Word) : (s.writeG r v).me.st.vkind = s.me.st.vkind := by simp only [State.writeG, State.updSt_st, Strand.writeG]; split <;> rfl
@[simp] theorem State.writeG_st_eclass (s : State) (r : Reg) (v : Word) : (s.writeG r v).me.st.eclass = s.me.st.eclass := by simp only [State.writeG, State.updSt_st, Strand.writeG]; split <;> rfl
@[simp] theorem State.writeG_st_vars (s : State) (r : Reg) (v : Word) : (s.writeG r v).me.st.vars = s.me.st.vars := by simp only [State.writeG, State.updSt_st, Strand.writeG]; split <;> rfl
@[simp] theorem State.writeG_st_code (s : State) (r : Reg) (v : Word) : (s.writeG r v).me.st.code = s.me.st.code := by simp only [State.writeG, State.updSt_st, Strand.writeG]; split <;> rfl
@[simp] theorem State.writeG_st_spadSize (s : State) (r : Reg) (v : Word) : (s.writeG r v).me.st.spadSize = s.me.st.spadSize := by simp only [State.writeG, State.updSt_st, Strand.writeG]; split <;> rfl
@[simp] theorem State.writeG_st_v (s : State) (r : Reg) (v : Word) : (s.writeG r v).me.st.v = s.me.st.v := by simp only [State.writeG, State.updSt_st, Strand.writeG]; split <;> rfl
@[simp] theorem State.writeG_st_m (s : State) (r : Reg) (v : Word) : (s.writeG r v).me.st.m = s.me.st.m := by simp only [State.writeG, State.updSt_st, Strand.writeG]; split <;> rfl
@[simp] theorem State.writeG_st_q (s : State) (r : Reg) (v : Word) : (s.writeG r v).me.st.q = s.me.st.q := by simp only [State.writeG, State.updSt_st, Strand.writeG]; split <;> rfl
@[simp] theorem State.writeG_st_spad (s : State) (r : Reg) (v : Word) : (s.writeG r v).me.st.spad = s.me.st.spad := by simp only [State.writeG, State.updSt_st, Strand.writeG]; split <;> rfl
@[simp] theorem State.writeG_st_zlrec (s : State) (r : Reg) (v : Word) : (s.writeG r v).me.st.zlrec = s.me.st.zlrec := by simp only [State.writeG, State.updSt_st, Strand.writeG]; split <;> rfl
@[simp] theorem State.writeG_st_traps (s : State) (r : Reg) (v : Word) : (s.writeG r v).me.st.traps = s.me.st.traps := by simp only [State.writeG, State.updSt_st, Strand.writeG]; split <;> rfl
@[simp] theorem State.writeG_st_seq (s : State) (r : Reg) (v : Word) : (s.writeG r v).me.st.seq = s.me.st.seq := by simp only [State.writeG, State.updSt_st, Strand.writeG]; split <;> rfl
@[simp] theorem State.writeG_st_lqu (s : State) (r : Reg) (v : Word) : (s.writeG r v).me.st.lqu = s.me.st.lqu := by simp only [State.writeG, State.updSt_st, Strand.writeG]; split <;> rfl
@[simp] theorem State.writeG_st_squ (s : State) (r : Reg) (v : Word) : (s.writeG r v).me.st.squ = s.me.st.squ := by simp only [State.writeG, State.updSt_st, Strand.writeG]; split <;> rfl
@[simp] theorem State.writeG_st_kqu (s : State) (r : Reg) (v : Word) : (s.writeG r v).me.st.kqu = s.me.st.kqu := by simp only [State.writeG, State.updSt_st, Strand.writeG]; split <;> rfl
@[simp] theorem State.writeG_st_vqu (s : State) (r : Reg) (v : Word) : (s.writeG r v).me.st.vqu = s.me.st.vqu := by simp only [State.writeG, State.updSt_st, Strand.writeG]; split <;> rfl
@[simp] theorem State.writeG_st_mqu (s : State) (r : Reg) (v : Word) : (s.writeG r v).me.st.mqu = s.me.st.mqu := by simp only [State.writeG, State.updSt_st, Strand.writeG]; split <;> rfl
@[simp] theorem State.writeG_st_vrun (s : State) (r : Reg) (v : Word) : (s.writeG r v).me.st.vrun = s.me.st.vrun := by simp only [State.writeG, State.updSt_st, Strand.writeG]; split <;> rfl
@[simp] theorem State.writeG_st_mrun (s : State) (r : Reg) (v : Word) : (s.writeG r v).me.st.mrun = s.me.st.mrun := by simp only [State.writeG, State.updSt_st, Strand.writeG]; split <;> rfl
@[simp] theorem State.writeG_st_vdry (s : State) (r : Reg) (v : Word) : (s.writeG r v).me.st.vdry = s.me.st.vdry := by simp only [State.writeG, State.updSt_st, Strand.writeG]; split <;> rfl
@[simp] theorem State.writeG_st_mdry (s : State) (r : Reg) (v : Word) : (s.writeG r v).me.st.mdry = s.me.st.mdry := by simp only [State.writeG, State.updSt_st, Strand.writeG]; split <;> rfl
@[simp] theorem State.writeG_st_relaxLost (s : State) (r : Reg) (v : Word) : (s.writeG r v).me.st.relaxLost = s.me.st.relaxLost := by simp only [State.writeG, State.updSt_st, Strand.writeG]; split <;> rfl
@[simp] theorem State.writeG_st_relaxEnded (s : State) (r : Reg) (v : Word) : (s.writeG r v).me.st.relaxEnded = s.me.st.relaxEnded := by simp only [State.writeG, State.updSt_st, Strand.writeG]; split <;> rfl
@[simp] theorem State.writeG_st_mprog (s : State) (r : Reg) (v : Word) : (s.writeG r v).me.st.mprog = s.me.st.mprog := by simp only [State.writeG, State.updSt_st, Strand.writeG]; split <;> rfl
@[simp] theorem State.writeG_st_gates (s : State) (r : Reg) (v : Word) : (s.writeG r v).me.st.gates = s.me.st.gates := by simp only [State.writeG, State.updSt_st, Strand.writeG]; split <;> rfl
@[simp] theorem State.writeG_st_nt (s : State) (r : Reg) (v : Word) : (s.writeG r v).me.st.nt = s.me.st.nt := by simp only [State.writeG, State.updSt_st, Strand.writeG]; split <;> rfl
@[simp] theorem State.writeG_st_ntWait (s : State) (r : Reg) (v : Word) : (s.writeG r v).me.st.ntWait = s.me.st.ntWait := by simp only [State.writeG, State.updSt_st, Strand.writeG]; split <;> rfl
@[simp] theorem State.writeG_st_held (s : State) (r : Reg) (v : Word) : (s.writeG r v).me.st.held = s.me.st.held := by simp only [State.writeG, State.updSt_st, Strand.writeG]; split <;> rfl
@[simp] theorem State.writeG_st_stall (s : State) (r : Reg) (v : Word) : (s.writeG r v).me.st.stall = s.me.st.stall := by simp only [State.writeG, State.updSt_st, Strand.writeG]; split <;> rfl
@[simp] theorem State.writeG_st_finish (s : State) (r : Reg) (v : Word) : (s.writeG r v).me.st.finish = s.me.st.finish := by simp only [State.writeG, State.updSt_st, Strand.writeG]; split <;> rfl
@[simp] theorem State.writeG_st_wdC (s : State) (r : Reg) (v : Word) : (s.writeG r v).me.st.wdC = s.me.st.wdC := by simp only [State.writeG, State.updSt_st, Strand.writeG]; split <;> rfl
@[simp] theorem State.writeG_st_wdE (s : State) (r : Reg) (v : Word) : (s.writeG r v).me.st.wdE = s.me.st.wdE := by simp only [State.writeG, State.updSt_st, Strand.writeG]; split <;> rfl
@[simp] theorem State.writeG_st_wdTag (s : State) (r : Reg) (v : Word) : (s.writeG r v).me.st.wdTag = s.me.st.wdTag := by simp only [State.writeG, State.updSt_st, Strand.writeG]; split <;> rfl
@[simp] theorem State.writeG_st_slice (s : State) (r : Reg) (v : Word) : (s.writeG r v).me.st.slice = s.me.st.slice := by simp only [State.writeG, State.updSt_st, Strand.writeG]; split <;> rfl
@[simp] theorem State.writeG_st_ckpt (s : State) (r : Reg) (v : Word) : (s.writeG r v).me.st.ckpt = s.me.st.ckpt := by simp only [State.writeG, State.updSt_st, Strand.writeG]; split <;> rfl
@[simp] theorem State.writeG_st_log (s : State) (r : Reg) (v : Word) : (s.writeG r v).me.st.log = s.me.st.log := by simp only [State.writeG, State.updSt_st, Strand.writeG]; split <;> rfl
@[simp] theorem State.writeG_st_replay (s : State) (r : Reg) (v : Word) : (s.writeG r v).me.st.replay = s.me.st.replay := by simp only [State.writeG, State.updSt_st, Strand.writeG]; split <;> rfl
@[simp] theorem State.writeG_st_locks (s : State) (r : Reg) (v : Word) : (s.writeG r v).me.st.locks = s.me.st.locks := by simp only [State.writeG, State.updSt_st, Strand.writeG]; split <;> rfl
@[simp] theorem State.writeG_st_fills (s : State) (r : Reg) (v : Word) : (s.writeG r v).me.st.fills = s.me.st.fills := by simp only [State.writeG, State.updSt_st, Strand.writeG]; split <;> rfl
@[simp] theorem State.writeG_st_unprotected (s : State) (r : Reg) (v : Word) : (s.writeG r v).me.st.unprotected = s.me.st.unprotected := by simp only [State.writeG, State.updSt_st, Strand.writeG]; split <;> rfl
@[simp] theorem State.writeG_st_openSeq (s : State) (r : Reg) (v : Word) : (s.writeG r v).me.st.openSeq = s.me.st.openSeq := by simp only [State.writeG, State.updSt_st, Strand.writeG]; split <;> rfl
@[simp] theorem State.writeG_st_rollbacks (s : State) (r : Reg) (v : Word) : (s.writeG r v).me.st.rollbacks = s.me.st.rollbacks := by simp only [State.writeG, State.updSt_st, Strand.writeG]; split <;> rfl
@[simp] theorem State.writeG_st_halt (s : State) (r : Reg) (v : Word) : (s.writeG r v).me.st.halt = s.me.st.halt := by simp only [State.writeG, State.updSt_st, Strand.writeG]; split <;> rfl
@[simp] theorem State.writeG_ctl (s : State) (r : Reg) (v : Word) : (s.writeG r v).ctl = s.ctl.setG r v := by
  simp only [State.writeG, Strand.writeG, Ctl.setG, State.ctl]; split <;> rfl
@[simp] theorem State.setP_peers (s : State) (p : BitVec 3) (b : Bool) : (s.setP p b).peers = s.peers := rfl
@[simp] theorem State.setP_mem (s : State) (p : BitVec 3) (b : Bool) : (s.setP p b).mem = s.mem := rfl
@[simp] theorem State.setP_poison (s : State) (p : BitVec 3) (b : Bool) : (s.setP p b).poison = s.poison := rfl
@[simp] theorem State.setP_cellPoison (s : State) (p : BitVec 3) (b : Bool) : (s.setP p b).cellPoison = s.cellPoison := rfl
@[simp] theorem State.setP_cells (s : State) (p : BitVec 3) (b : Bool) : (s.setP p b).cells = s.cells := rfl
@[simp] theorem State.setP_l2 (s : State) (p : BitVec 3) (b : Bool) : (s.setP p b).l2 = s.l2 := rfl
@[simp] theorem State.setP_ptrs (s : State) (p : BitVec 3) (b : Bool) : (s.setP p b).ptrs = s.ptrs := rfl
@[simp] theorem State.setP_seen (s : State) (p : BitVec 3) (b : Bool) : (s.setP p b).seen = s.seen := rfl
@[simp] theorem State.setP_pins (s : State) (p : BitVec 3) (b : Bool) : (s.setP p b).pins = s.pins := rfl
@[simp] theorem State.setP_pubs (s : State) (p : BitVec 3) (b : Bool) : (s.setP p b).pubs = s.pubs := rfl
@[simp] theorem State.setP_tags (s : State) (p : BitVec 3) (b : Bool) : (s.setP p b).tags = s.tags := rfl
@[simp] theorem State.setP_tagWaits (s : State) (p : BitVec 3) (b : Bool) : (s.setP p b).tagWaits = s.tagWaits := rfl
@[simp] theorem State.setP_retires (s : State) (p : BitVec 3) (b : Bool) : (s.setP p b).retires = s.retires := rfl
@[simp] theorem State.setP_slots (s : State) (p : BitVec 3) (b : Bool) : (s.setP p b).slots = s.slots := rfl
@[simp] theorem State.setP_shadow (s : State) (p : BitVec 3) (b : Bool) : (s.setP p b).shadow = s.shadow := rfl
@[simp] theorem State.setP_cxl (s : State) (p : BitVec 3) (b : Bool) : (s.setP p b).cxl = s.cxl := rfl
@[simp] theorem State.setP_tsuwin (s : State) (p : BitVec 3) (b : Bool) : (s.setP p b).tsuwin = s.tsuwin := rfl
@[simp] theorem State.setP_stallWires (s : State) (p : BitVec 3) (b : Bool) : (s.setP p b).stallWires = s.stallWires := rfl
@[simp] theorem State.setP_vis (s : State) (p : BitVec 3) (b : Bool) : (s.setP p b).vis = s.vis := rfl
@[simp] theorem State.setP_fe (s : State) (p : BitVec 3) (b : Bool) : (s.setP p b).fe = s.fe := rfl
@[simp] theorem State.setP_disp (s : State) (p : BitVec 3) (b : Bool) : (s.setP p b).disp = s.disp := rfl
@[simp] theorem State.setP_pow (s : State) (p : BitVec 3) (b : Bool) : (s.setP p b).pow = s.pow := rfl
@[simp] theorem State.setP_fab (s : State) (p : BitVec 3) (b : Bool) : (s.setP p b).fab = s.fab := rfl
@[simp] theorem State.setP_mgmt (s : State) (p : BitVec 3) (b : Bool) : (s.setP p b).mgmt = s.mgmt := rfl
@[simp] theorem State.setP_turns (s : State) (p : BitVec 3) (b : Bool) : (s.setP p b).turns = s.turns := rfl
@[simp] theorem State.setP_rotor (s : State) (p : BitVec 3) (b : Bool) : (s.setP p b).rotor = s.rotor := rfl
@[simp] theorem State.setP_input (s : State) (p : BitVec 3) (b : Bool) : (s.setP p b).input = s.input := rfl
@[simp] theorem State.setP_free (s : State) (p : BitVec 3) (b : Bool) : (s.setP p b).free = s.free := rfl
@[simp] theorem State.setP_me_die (s : State) (p : BitVec 3) (b : Bool) : (s.setP p b).me.die = s.me.die := rfl
@[simp] theorem State.setP_me_clus (s : State) (p : BitVec 3) (b : Bool) : (s.setP p b).me.clus = s.me.clus := rfl
@[simp] theorem State.setP_me_status (s : State) (p : BitVec 3) (b : Bool) : (s.setP p b).me.status = s.me.status := rfl
@[simp] theorem State.setP_me_l1 (s : State) (p : BitVec 3) (b : Bool) : (s.setP p b).me.l1 = s.me.l1 := rfl
@[simp] theorem State.setP_me_tlb (s : State) (p : BitVec 3) (b : Bool) : (s.setP p b).me.tlb = s.me.tlb := rfl
@[simp] theorem State.setP_me_imp (s : State) (p : BitVec 3) (b : Bool) : (s.setP p b).me.imp = s.me.imp := rfl
@[simp] theorem State.setP_me_thrNow (s : State) (p : BitVec 3) (b : Bool) : (s.setP p b).me.thrNow = s.me.thrNow := rfl
@[simp] theorem State.setP_me_thrSticky (s : State) (p : BitVec 3) (b : Bool) : (s.setP p b).me.thrSticky = s.me.thrSticky := rfl
@[simp] theorem State.setP_me_thrCyc (s : State) (p : BitVec 3) (b : Bool) : (s.setP p b).me.thrCyc = s.me.thrCyc := rfl
@[simp] theorem State.setP_me_fenced (s : State) (p : BitVec 3) (b : Bool) : (s.setP p b).me.fenced = s.me.fenced := rfl
@[simp] theorem State.setP_me_rollbackTimes (s : State) (p : BitVec 3) (b : Bool) : (s.setP p b).me.rollbackTimes = s.me.rollbackTimes := rfl
@[simp] theorem State.setP_st_vi (s : State) (p : BitVec 3) (b : Bool) : (s.setP p b).me.st.vi = s.me.st.vi := rfl
@[simp] theorem State.setP_st_stream (s : State) (p : BitVec 3) (b : Bool) : (s.setP p b).me.st.stream = s.me.st.stream := rfl
@[simp] theorem State.setP_st_node (s : State) (p : BitVec 3) (b : Bool) : (s.setP p b).me.st.node = s.me.st.node := rfl
@[simp] theorem State.setP_st_idx (s : State) (p : BitVec 3) (b : Bool) : (s.setP p b).me.st.idx = s.me.st.idx := rfl
@[simp] theorem State.setP_st_gang (s : State) (p : BitVec 3) (b : Bool) : (s.setP p b).me.st.gang = s.me.st.gang := rfl
@[simp] theorem State.setP_st_vkind (s : State) (p : BitVec 3) (b : Bool) : (s.setP p b).me.st.vkind = s.me.st.vkind := rfl
@[simp] theorem State.setP_st_eclass (s : State) (p : BitVec 3) (b : Bool) : (s.setP p b).me.st.eclass = s.me.st.eclass := rfl
@[simp] theorem State.setP_st_vars (s : State) (p : BitVec 3) (b : Bool) : (s.setP p b).me.st.vars = s.me.st.vars := rfl
@[simp] theorem State.setP_st_code (s : State) (p : BitVec 3) (b : Bool) : (s.setP p b).me.st.code = s.me.st.code := rfl
@[simp] theorem State.setP_st_spadSize (s : State) (p : BitVec 3) (b : Bool) : (s.setP p b).me.st.spadSize = s.me.st.spadSize := rfl
@[simp] theorem State.setP_st_v (s : State) (p : BitVec 3) (b : Bool) : (s.setP p b).me.st.v = s.me.st.v := rfl
@[simp] theorem State.setP_st_m (s : State) (p : BitVec 3) (b : Bool) : (s.setP p b).me.st.m = s.me.st.m := rfl
@[simp] theorem State.setP_st_q (s : State) (p : BitVec 3) (b : Bool) : (s.setP p b).me.st.q = s.me.st.q := rfl
@[simp] theorem State.setP_st_spad (s : State) (p : BitVec 3) (b : Bool) : (s.setP p b).me.st.spad = s.me.st.spad := rfl
@[simp] theorem State.setP_st_pendDst (s : State) (p : BitVec 3) (b : Bool) : (s.setP p b).me.st.pendDst = s.me.st.pendDst := rfl
@[simp] theorem State.setP_st_zlrec (s : State) (p : BitVec 3) (b : Bool) : (s.setP p b).me.st.zlrec = s.me.st.zlrec := rfl
@[simp] theorem State.setP_st_traps (s : State) (p : BitVec 3) (b : Bool) : (s.setP p b).me.st.traps = s.me.st.traps := rfl
@[simp] theorem State.setP_st_seq (s : State) (p : BitVec 3) (b : Bool) : (s.setP p b).me.st.seq = s.me.st.seq := rfl
@[simp] theorem State.setP_st_lqu (s : State) (p : BitVec 3) (b : Bool) : (s.setP p b).me.st.lqu = s.me.st.lqu := rfl
@[simp] theorem State.setP_st_squ (s : State) (p : BitVec 3) (b : Bool) : (s.setP p b).me.st.squ = s.me.st.squ := rfl
@[simp] theorem State.setP_st_kqu (s : State) (p : BitVec 3) (b : Bool) : (s.setP p b).me.st.kqu = s.me.st.kqu := rfl
@[simp] theorem State.setP_st_vqu (s : State) (p : BitVec 3) (b : Bool) : (s.setP p b).me.st.vqu = s.me.st.vqu := rfl
@[simp] theorem State.setP_st_mqu (s : State) (p : BitVec 3) (b : Bool) : (s.setP p b).me.st.mqu = s.me.st.mqu := rfl
@[simp] theorem State.setP_st_vrun (s : State) (p : BitVec 3) (b : Bool) : (s.setP p b).me.st.vrun = s.me.st.vrun := rfl
@[simp] theorem State.setP_st_mrun (s : State) (p : BitVec 3) (b : Bool) : (s.setP p b).me.st.mrun = s.me.st.mrun := rfl
@[simp] theorem State.setP_st_vdry (s : State) (p : BitVec 3) (b : Bool) : (s.setP p b).me.st.vdry = s.me.st.vdry := rfl
@[simp] theorem State.setP_st_mdry (s : State) (p : BitVec 3) (b : Bool) : (s.setP p b).me.st.mdry = s.me.st.mdry := rfl
@[simp] theorem State.setP_st_relaxLost (s : State) (p : BitVec 3) (b : Bool) : (s.setP p b).me.st.relaxLost = s.me.st.relaxLost := rfl
@[simp] theorem State.setP_st_relaxEnded (s : State) (p : BitVec 3) (b : Bool) : (s.setP p b).me.st.relaxEnded = s.me.st.relaxEnded := rfl
@[simp] theorem State.setP_st_mprog (s : State) (p : BitVec 3) (b : Bool) : (s.setP p b).me.st.mprog = s.me.st.mprog := rfl
@[simp] theorem State.setP_st_gates (s : State) (p : BitVec 3) (b : Bool) : (s.setP p b).me.st.gates = s.me.st.gates := rfl
@[simp] theorem State.setP_st_nt (s : State) (p : BitVec 3) (b : Bool) : (s.setP p b).me.st.nt = s.me.st.nt := rfl
@[simp] theorem State.setP_st_ntWait (s : State) (p : BitVec 3) (b : Bool) : (s.setP p b).me.st.ntWait = s.me.st.ntWait := rfl
@[simp] theorem State.setP_st_held (s : State) (p : BitVec 3) (b : Bool) : (s.setP p b).me.st.held = s.me.st.held := rfl
@[simp] theorem State.setP_st_stall (s : State) (p : BitVec 3) (b : Bool) : (s.setP p b).me.st.stall = s.me.st.stall := rfl
@[simp] theorem State.setP_st_finish (s : State) (p : BitVec 3) (b : Bool) : (s.setP p b).me.st.finish = s.me.st.finish := rfl
@[simp] theorem State.setP_st_wdC (s : State) (p : BitVec 3) (b : Bool) : (s.setP p b).me.st.wdC = s.me.st.wdC := rfl
@[simp] theorem State.setP_st_wdE (s : State) (p : BitVec 3) (b : Bool) : (s.setP p b).me.st.wdE = s.me.st.wdE := rfl
@[simp] theorem State.setP_st_wdTag (s : State) (p : BitVec 3) (b : Bool) : (s.setP p b).me.st.wdTag = s.me.st.wdTag := rfl
@[simp] theorem State.setP_st_slice (s : State) (p : BitVec 3) (b : Bool) : (s.setP p b).me.st.slice = s.me.st.slice := rfl
@[simp] theorem State.setP_st_ckpt (s : State) (p : BitVec 3) (b : Bool) : (s.setP p b).me.st.ckpt = s.me.st.ckpt := rfl
@[simp] theorem State.setP_st_log (s : State) (p : BitVec 3) (b : Bool) : (s.setP p b).me.st.log = s.me.st.log := rfl
@[simp] theorem State.setP_st_replay (s : State) (p : BitVec 3) (b : Bool) : (s.setP p b).me.st.replay = s.me.st.replay := rfl
@[simp] theorem State.setP_st_locks (s : State) (p : BitVec 3) (b : Bool) : (s.setP p b).me.st.locks = s.me.st.locks := rfl
@[simp] theorem State.setP_st_fills (s : State) (p : BitVec 3) (b : Bool) : (s.setP p b).me.st.fills = s.me.st.fills := rfl
@[simp] theorem State.setP_st_unprotected (s : State) (p : BitVec 3) (b : Bool) : (s.setP p b).me.st.unprotected = s.me.st.unprotected := rfl
@[simp] theorem State.setP_st_openSeq (s : State) (p : BitVec 3) (b : Bool) : (s.setP p b).me.st.openSeq = s.me.st.openSeq := rfl
@[simp] theorem State.setP_st_rollbacks (s : State) (p : BitVec 3) (b : Bool) : (s.setP p b).me.st.rollbacks = s.me.st.rollbacks := rfl
@[simp] theorem State.setP_st_halt (s : State) (p : BitVec 3) (b : Bool) : (s.setP p b).me.st.halt = s.me.st.halt := rfl
@[simp] theorem State.setP_ctl (s : State) (p : BitVec 3) (b : Bool) : (s.setP p b).ctl = s.ctl.setP p b := rfl

/-! ### Interfaces, pairs, collectives, slots -/

@[simp] theorem State.setVi_peers (s : State) (n : Nat) (v : VI) : (s.setVi n v).peers = s.peers := rfl
@[simp] theorem State.setVi_mem (s : State) (n : Nat) (v : VI) : (s.setVi n v).mem = s.mem := rfl
@[simp] theorem State.setVi_poison (s : State) (n : Nat) (v : VI) : (s.setVi n v).poison = s.poison := rfl
@[simp] theorem State.setVi_cellPoison (s : State) (n : Nat) (v : VI) : (s.setVi n v).cellPoison = s.cellPoison := rfl
@[simp] theorem State.setVi_cells (s : State) (n : Nat) (v : VI) : (s.setVi n v).cells = s.cells := rfl
@[simp] theorem State.setVi_l2 (s : State) (n : Nat) (v : VI) : (s.setVi n v).l2 = s.l2 := rfl
@[simp] theorem State.setVi_ptrs (s : State) (n : Nat) (v : VI) : (s.setVi n v).ptrs = s.ptrs := rfl
@[simp] theorem State.setVi_seen (s : State) (n : Nat) (v : VI) : (s.setVi n v).seen = s.seen := rfl
@[simp] theorem State.setVi_pins (s : State) (n : Nat) (v : VI) : (s.setVi n v).pins = s.pins := rfl
@[simp] theorem State.setVi_pubs (s : State) (n : Nat) (v : VI) : (s.setVi n v).pubs = s.pubs := rfl
@[simp] theorem State.setVi_tags (s : State) (n : Nat) (v : VI) : (s.setVi n v).tags = s.tags := rfl
@[simp] theorem State.setVi_tagWaits (s : State) (n : Nat) (v : VI) : (s.setVi n v).tagWaits = s.tagWaits := rfl
@[simp] theorem State.setVi_retires (s : State) (n : Nat) (v : VI) : (s.setVi n v).retires = s.retires := rfl
@[simp] theorem State.setVi_slots (s : State) (n : Nat) (v : VI) : (s.setVi n v).slots = s.slots := rfl
@[simp] theorem State.setVi_shadow (s : State) (n : Nat) (v : VI) : (s.setVi n v).shadow = s.shadow := rfl
@[simp] theorem State.setVi_cxl (s : State) (n : Nat) (v : VI) : (s.setVi n v).cxl = s.cxl := rfl
@[simp] theorem State.setVi_tsuwin (s : State) (n : Nat) (v : VI) : (s.setVi n v).tsuwin = s.tsuwin := rfl
@[simp] theorem State.setVi_stallWires (s : State) (n : Nat) (v : VI) : (s.setVi n v).stallWires = s.stallWires := rfl
@[simp] theorem State.setVi_fe (s : State) (n : Nat) (v : VI) : (s.setVi n v).fe = s.fe := rfl
@[simp] theorem State.setVi_disp (s : State) (n : Nat) (v : VI) : (s.setVi n v).disp = s.disp := rfl
@[simp] theorem State.setVi_pow (s : State) (n : Nat) (v : VI) : (s.setVi n v).pow = s.pow := rfl
@[simp] theorem State.setVi_fab (s : State) (n : Nat) (v : VI) : (s.setVi n v).fab = s.fab := rfl
@[simp] theorem State.setVi_mgmt (s : State) (n : Nat) (v : VI) : (s.setVi n v).mgmt = s.mgmt := rfl
@[simp] theorem State.setVi_turns (s : State) (n : Nat) (v : VI) : (s.setVi n v).turns = s.turns := rfl
@[simp] theorem State.setVi_rotor (s : State) (n : Nat) (v : VI) : (s.setVi n v).rotor = s.rotor := rfl
@[simp] theorem State.setVi_input (s : State) (n : Nat) (v : VI) : (s.setVi n v).input = s.input := rfl
@[simp] theorem State.setVi_free (s : State) (n : Nat) (v : VI) : (s.setVi n v).free = s.free := rfl
@[simp] theorem State.setVi_me (s : State) (n : Nat) (v : VI) : (s.setVi n v).me = s.me := rfl
@[simp] theorem State.setVi_same (s : State) (n : Nat) (v : VI) : (s.setVi n v).vi n = v := Sp.get_set_same _ _ _ _
theorem State.setVi_other (s : State) (n k : Nat) (v : VI) (h : k ≠ n) : (s.setVi n v).vi k = s.vi k :=
  Sp.get_set_other _ _ _ _ _ _ h
@[simp] theorem State.setPeer_peers (s : State) (q : Peer) : (s.setPeer q).peers = s.peers := rfl
@[simp] theorem State.setPeer_mem (s : State) (q : Peer) : (s.setPeer q).mem = s.mem := rfl
@[simp] theorem State.setPeer_poison (s : State) (q : Peer) : (s.setPeer q).poison = s.poison := rfl
@[simp] theorem State.setPeer_cellPoison (s : State) (q : Peer) : (s.setPeer q).cellPoison = s.cellPoison := rfl
@[simp] theorem State.setPeer_cells (s : State) (q : Peer) : (s.setPeer q).cells = s.cells := rfl
@[simp] theorem State.setPeer_l2 (s : State) (q : Peer) : (s.setPeer q).l2 = s.l2 := rfl
@[simp] theorem State.setPeer_ptrs (s : State) (q : Peer) : (s.setPeer q).ptrs = s.ptrs := rfl
@[simp] theorem State.setPeer_seen (s : State) (q : Peer) : (s.setPeer q).seen = s.seen := rfl
@[simp] theorem State.setPeer_pins (s : State) (q : Peer) : (s.setPeer q).pins = s.pins := rfl
@[simp] theorem State.setPeer_pubs (s : State) (q : Peer) : (s.setPeer q).pubs = s.pubs := rfl
@[simp] theorem State.setPeer_tags (s : State) (q : Peer) : (s.setPeer q).tags = s.tags := rfl
@[simp] theorem State.setPeer_tagWaits (s : State) (q : Peer) : (s.setPeer q).tagWaits = s.tagWaits := rfl
@[simp] theorem State.setPeer_retires (s : State) (q : Peer) : (s.setPeer q).retires = s.retires := rfl
@[simp] theorem State.setPeer_slots (s : State) (q : Peer) : (s.setPeer q).slots = s.slots := rfl
@[simp] theorem State.setPeer_shadow (s : State) (q : Peer) : (s.setPeer q).shadow = s.shadow := rfl
@[simp] theorem State.setPeer_cxl (s : State) (q : Peer) : (s.setPeer q).cxl = s.cxl := rfl
@[simp] theorem State.setPeer_tsuwin (s : State) (q : Peer) : (s.setPeer q).tsuwin = s.tsuwin := rfl
@[simp] theorem State.setPeer_stallWires (s : State) (q : Peer) : (s.setPeer q).stallWires = s.stallWires := rfl
@[simp] theorem State.setPeer_vis (s : State) (q : Peer) : (s.setPeer q).vis = s.vis := rfl
@[simp] theorem State.setPeer_fe (s : State) (q : Peer) : (s.setPeer q).fe = s.fe := rfl
@[simp] theorem State.setPeer_disp (s : State) (q : Peer) : (s.setPeer q).disp = s.disp := rfl
@[simp] theorem State.setPeer_pow (s : State) (q : Peer) : (s.setPeer q).pow = s.pow := rfl
@[simp] theorem State.setPeer_mgmt (s : State) (q : Peer) : (s.setPeer q).mgmt = s.mgmt := rfl
@[simp] theorem State.setPeer_turns (s : State) (q : Peer) : (s.setPeer q).turns = s.turns := rfl
@[simp] theorem State.setPeer_rotor (s : State) (q : Peer) : (s.setPeer q).rotor = s.rotor := rfl
@[simp] theorem State.setPeer_input (s : State) (q : Peer) : (s.setPeer q).input = s.input := rfl
@[simp] theorem State.setPeer_free (s : State) (q : Peer) : (s.setPeer q).free = s.free := rfl
@[simp] theorem State.setPeer_me (s : State) (q : Peer) : (s.setPeer q).me = s.me := rfl
@[simp] theorem State.setColl_peers (s : State) (c : Coll) : (s.setColl c).peers = s.peers := rfl
@[simp] theorem State.setColl_mem (s : State) (c : Coll) : (s.setColl c).mem = s.mem := rfl
@[simp] theorem State.setColl_poison (s : State) (c : Coll) : (s.setColl c).poison = s.poison := rfl
@[simp] theorem State.setColl_cellPoison (s : State) (c : Coll) : (s.setColl c).cellPoison = s.cellPoison := rfl
@[simp] theorem State.setColl_cells (s : State) (c : Coll) : (s.setColl c).cells = s.cells := rfl
@[simp] theorem State.setColl_l2 (s : State) (c : Coll) : (s.setColl c).l2 = s.l2 := rfl
@[simp] theorem State.setColl_ptrs (s : State) (c : Coll) : (s.setColl c).ptrs = s.ptrs := rfl
@[simp] theorem State.setColl_seen (s : State) (c : Coll) : (s.setColl c).seen = s.seen := rfl
@[simp] theorem State.setColl_pins (s : State) (c : Coll) : (s.setColl c).pins = s.pins := rfl
@[simp] theorem State.setColl_pubs (s : State) (c : Coll) : (s.setColl c).pubs = s.pubs := rfl
@[simp] theorem State.setColl_tags (s : State) (c : Coll) : (s.setColl c).tags = s.tags := rfl
@[simp] theorem State.setColl_tagWaits (s : State) (c : Coll) : (s.setColl c).tagWaits = s.tagWaits := rfl
@[simp] theorem State.setColl_retires (s : State) (c : Coll) : (s.setColl c).retires = s.retires := rfl
@[simp] theorem State.setColl_slots (s : State) (c : Coll) : (s.setColl c).slots = s.slots := rfl
@[simp] theorem State.setColl_shadow (s : State) (c : Coll) : (s.setColl c).shadow = s.shadow := rfl
@[simp] theorem State.setColl_cxl (s : State) (c : Coll) : (s.setColl c).cxl = s.cxl := rfl
@[simp] theorem State.setColl_tsuwin (s : State) (c : Coll) : (s.setColl c).tsuwin = s.tsuwin := rfl
@[simp] theorem State.setColl_stallWires (s : State) (c : Coll) : (s.setColl c).stallWires = s.stallWires := rfl
@[simp] theorem State.setColl_vis (s : State) (c : Coll) : (s.setColl c).vis = s.vis := rfl
@[simp] theorem State.setColl_fe (s : State) (c : Coll) : (s.setColl c).fe = s.fe := rfl
@[simp] theorem State.setColl_disp (s : State) (c : Coll) : (s.setColl c).disp = s.disp := rfl
@[simp] theorem State.setColl_pow (s : State) (c : Coll) : (s.setColl c).pow = s.pow := rfl
@[simp] theorem State.setColl_mgmt (s : State) (c : Coll) : (s.setColl c).mgmt = s.mgmt := rfl
@[simp] theorem State.setColl_turns (s : State) (c : Coll) : (s.setColl c).turns = s.turns := rfl
@[simp] theorem State.setColl_rotor (s : State) (c : Coll) : (s.setColl c).rotor = s.rotor := rfl
@[simp] theorem State.setColl_input (s : State) (c : Coll) : (s.setColl c).input = s.input := rfl
@[simp] theorem State.setColl_free (s : State) (c : Coll) : (s.setColl c).free = s.free := rfl
@[simp] theorem State.setColl_me (s : State) (c : Coll) : (s.setColl c).me = s.me := rfl
@[simp] theorem State.setSlot_peers (s : State) (node idx n : Nat) (v : Slot) : (s.setSlot node idx n v).peers = s.peers := rfl
@[simp] theorem State.setSlot_mem (s : State) (node idx n : Nat) (v : Slot) : (s.setSlot node idx n v).mem = s.mem := rfl
@[simp] theorem State.setSlot_poison (s : State) (node idx n : Nat) (v : Slot) : (s.setSlot node idx n v).poison = s.poison := rfl
@[simp] theorem State.setSlot_cellPoison (s : State) (node idx n : Nat) (v : Slot) : (s.setSlot node idx n v).cellPoison = s.cellPoison := rfl
@[simp] theorem State.setSlot_cells (s : State) (node idx n : Nat) (v : Slot) : (s.setSlot node idx n v).cells = s.cells := rfl
@[simp] theorem State.setSlot_l2 (s : State) (node idx n : Nat) (v : Slot) : (s.setSlot node idx n v).l2 = s.l2 := rfl
@[simp] theorem State.setSlot_ptrs (s : State) (node idx n : Nat) (v : Slot) : (s.setSlot node idx n v).ptrs = s.ptrs := rfl
@[simp] theorem State.setSlot_seen (s : State) (node idx n : Nat) (v : Slot) : (s.setSlot node idx n v).seen = s.seen := rfl
@[simp] theorem State.setSlot_pins (s : State) (node idx n : Nat) (v : Slot) : (s.setSlot node idx n v).pins = s.pins := rfl
@[simp] theorem State.setSlot_pubs (s : State) (node idx n : Nat) (v : Slot) : (s.setSlot node idx n v).pubs = s.pubs := rfl
@[simp] theorem State.setSlot_tags (s : State) (node idx n : Nat) (v : Slot) : (s.setSlot node idx n v).tags = s.tags := rfl
@[simp] theorem State.setSlot_tagWaits (s : State) (node idx n : Nat) (v : Slot) : (s.setSlot node idx n v).tagWaits = s.tagWaits := rfl
@[simp] theorem State.setSlot_retires (s : State) (node idx n : Nat) (v : Slot) : (s.setSlot node idx n v).retires = s.retires := rfl
@[simp] theorem State.setSlot_shadow (s : State) (node idx n : Nat) (v : Slot) : (s.setSlot node idx n v).shadow = s.shadow := rfl
@[simp] theorem State.setSlot_cxl (s : State) (node idx n : Nat) (v : Slot) : (s.setSlot node idx n v).cxl = s.cxl := rfl
@[simp] theorem State.setSlot_tsuwin (s : State) (node idx n : Nat) (v : Slot) : (s.setSlot node idx n v).tsuwin = s.tsuwin := rfl
@[simp] theorem State.setSlot_stallWires (s : State) (node idx n : Nat) (v : Slot) : (s.setSlot node idx n v).stallWires = s.stallWires := rfl
@[simp] theorem State.setSlot_vis (s : State) (node idx n : Nat) (v : Slot) : (s.setSlot node idx n v).vis = s.vis := rfl
@[simp] theorem State.setSlot_fe (s : State) (node idx n : Nat) (v : Slot) : (s.setSlot node idx n v).fe = s.fe := rfl
@[simp] theorem State.setSlot_disp (s : State) (node idx n : Nat) (v : Slot) : (s.setSlot node idx n v).disp = s.disp := rfl
@[simp] theorem State.setSlot_pow (s : State) (node idx n : Nat) (v : Slot) : (s.setSlot node idx n v).pow = s.pow := rfl
@[simp] theorem State.setSlot_fab (s : State) (node idx n : Nat) (v : Slot) : (s.setSlot node idx n v).fab = s.fab := rfl
@[simp] theorem State.setSlot_mgmt (s : State) (node idx n : Nat) (v : Slot) : (s.setSlot node idx n v).mgmt = s.mgmt := rfl
@[simp] theorem State.setSlot_turns (s : State) (node idx n : Nat) (v : Slot) : (s.setSlot node idx n v).turns = s.turns := rfl
@[simp] theorem State.setSlot_rotor (s : State) (node idx n : Nat) (v : Slot) : (s.setSlot node idx n v).rotor = s.rotor := rfl
@[simp] theorem State.setSlot_input (s : State) (node idx n : Nat) (v : Slot) : (s.setSlot node idx n v).input = s.input := rfl
@[simp] theorem State.setSlot_free (s : State) (node idx n : Nat) (v : Slot) : (s.setSlot node idx n v).free = s.free := rfl
@[simp] theorem State.setSlot_me (s : State) (node idx n : Nat) (v : Slot) : (s.setSlot node idx n v).me = s.me := rfl
@[simp] theorem State.setSlot_same (s : State) (node idx n : Nat) (v : Slot) : (s.setSlot node idx n v).slot node idx n = v := Sp.get_set_same _ _ _ _
@[simp] theorem State.setTag_peers (s : State) (r : TagRec) : (s.setTag r).peers = s.peers := rfl
@[simp] theorem State.setTag_mem (s : State) (r : TagRec) : (s.setTag r).mem = s.mem := rfl
@[simp] theorem State.setTag_poison (s : State) (r : TagRec) : (s.setTag r).poison = s.poison := rfl
@[simp] theorem State.setTag_cellPoison (s : State) (r : TagRec) : (s.setTag r).cellPoison = s.cellPoison := rfl
@[simp] theorem State.setTag_cells (s : State) (r : TagRec) : (s.setTag r).cells = s.cells := rfl
@[simp] theorem State.setTag_l2 (s : State) (r : TagRec) : (s.setTag r).l2 = s.l2 := rfl
@[simp] theorem State.setTag_ptrs (s : State) (r : TagRec) : (s.setTag r).ptrs = s.ptrs := rfl
@[simp] theorem State.setTag_seen (s : State) (r : TagRec) : (s.setTag r).seen = s.seen := rfl
@[simp] theorem State.setTag_pins (s : State) (r : TagRec) : (s.setTag r).pins = s.pins := rfl
@[simp] theorem State.setTag_pubs (s : State) (r : TagRec) : (s.setTag r).pubs = s.pubs := rfl
@[simp] theorem State.setTag_tagWaits (s : State) (r : TagRec) : (s.setTag r).tagWaits = s.tagWaits := rfl
@[simp] theorem State.setTag_retires (s : State) (r : TagRec) : (s.setTag r).retires = s.retires := rfl
@[simp] theorem State.setTag_slots (s : State) (r : TagRec) : (s.setTag r).slots = s.slots := rfl
@[simp] theorem State.setTag_shadow (s : State) (r : TagRec) : (s.setTag r).shadow = s.shadow := rfl
@[simp] theorem State.setTag_cxl (s : State) (r : TagRec) : (s.setTag r).cxl = s.cxl := rfl
@[simp] theorem State.setTag_tsuwin (s : State) (r : TagRec) : (s.setTag r).tsuwin = s.tsuwin := rfl
@[simp] theorem State.setTag_stallWires (s : State) (r : TagRec) : (s.setTag r).stallWires = s.stallWires := rfl
@[simp] theorem State.setTag_vis (s : State) (r : TagRec) : (s.setTag r).vis = s.vis := rfl
@[simp] theorem State.setTag_fe (s : State) (r : TagRec) : (s.setTag r).fe = s.fe := rfl
@[simp] theorem State.setTag_disp (s : State) (r : TagRec) : (s.setTag r).disp = s.disp := rfl
@[simp] theorem State.setTag_pow (s : State) (r : TagRec) : (s.setTag r).pow = s.pow := rfl
@[simp] theorem State.setTag_fab (s : State) (r : TagRec) : (s.setTag r).fab = s.fab := rfl
@[simp] theorem State.setTag_mgmt (s : State) (r : TagRec) : (s.setTag r).mgmt = s.mgmt := rfl
@[simp] theorem State.setTag_turns (s : State) (r : TagRec) : (s.setTag r).turns = s.turns := rfl
@[simp] theorem State.setTag_rotor (s : State) (r : TagRec) : (s.setTag r).rotor = s.rotor := rfl
@[simp] theorem State.setTag_input (s : State) (r : TagRec) : (s.setTag r).input = s.input := rfl
@[simp] theorem State.setTag_free (s : State) (r : TagRec) : (s.setTag r).free = s.free := rfl
@[simp] theorem State.setTag_me (s : State) (r : TagRec) : (s.setTag r).me = s.me := rfl

/-! ### The register file (R197) -/

@[simp] theorem Ctl.getG_zero (c : Ctl) : c.getG 0 = 0 := by rw [Ctl.getG, if_pos rfl]

@[simp] theorem Ctl.setG_zero (c : Ctl) (v : Word) : c.setG 0 v = c := by rw [Ctl.setG, if_pos rfl]

theorem Ctl.getG_setG (c : Ctl) (d a : Reg) (v : Word) :
    (c.setG d v).getG a = if a = 0 then 0 else if a = d then v else c.getG a := by
  by_cases ha : a = 0
  · rw [if_pos ha, ha]; exact Ctl.getG_zero _
  · rw [if_neg ha]
    by_cases hd : d = 0
    · rw [if_neg fun h => ha (h.trans hd), hd, Ctl.setG_zero]
    · simp only [Ctl.getG, Ctl.setG, if_neg ha, if_neg hd, gIdx]
      show (c.g.set d.toNat v d.isLt)[a.toNat]'a.isLt = if a = d then v else c.g[a.toNat]'a.isLt
      rw [Vector.getElem_set]
      by_cases h : a = d
      · rw [if_pos h, if_pos (by rw [h])]
      · rw [if_neg h, if_neg fun (e : d.toNat = a.toNat) => h (BitVec.eq_of_toNat_eq e.symm)]

@[simp] theorem Ctl.getP_zero (c : Ctl) : c.getP 0 = true := by rw [Ctl.getP, if_pos rfl]

theorem setBit8_get (v : BitVec 8) (p q : BitVec 3) (b : Bool) :
    (setBit8 v p.toNat b).getLsbD q.toNat = if q = p then b else v.getLsbD q.toNat := by
  have key : (BitVec.ofNat 8 (2 ^ p.toNat)).getLsbD q.toNat = decide (q = p) := by revert p q; decide
  have hq : q.toNat < 8 := q.isLt
  cases b <;> simp only [setBit8, Bool.false_eq_true, if_false, if_true, BitVec.getLsbD_and, BitVec.getLsbD_or,
    BitVec.getLsbD_not, key, hq, decide_true, Bool.true_and] <;> by_cases h : q = p <;> simp only [h, decide_true, decide_false, if_true, if_false, Bool.not_true, Bool.not_false, Bool.and_true,
    Bool.and_false, Bool.or_true, Bool.or_false]

theorem Ctl.getP_setP (c : Ctl) (p q : BitVec 3) (b : Bool) :
    (c.setP p b).getP q = if q = 0 then true else if q = p then b else c.getP q := by
  by_cases hq : q = 0
  · rw [if_pos hq, hq]; exact Ctl.getP_zero _
  · rw [if_neg hq]
    by_cases hp : p = 0
    · rw [if_neg fun h => hq (h.trans hp), Ctl.setP, if_pos hp]
    · simp only [Ctl.getP, Ctl.setP, if_neg hq, if_neg hp]
      exact setBit8_get _ _ _ _

end Sys2Proof.Machine
end

