-- ==== Sys2Proof/Laws/Vector.lean ====
section
/-!
SUPPORT. What the shared operations of the vector words do: the generators, one lane and all lanes of an elementwise
word, and the frame of a word.
-/

namespace Sys2Proof.Machine

@[simp] theorem genAt_set_same (g : Sp Lane) (idx k : Nat) (v : Lane) : genAt (genSet g idx k v) idx k = v :=
  Sp.get_set_same g k v _

theorem genAt_set_other (g : Sp Lane) (idx k j : Nat) (v : Lane) (h : j ≠ k) :
    genAt (genSet g idx k v) idx j = genAt g idx j := Sp.get_set_other g k j v _ _ h

theorem cvtGen_fst (g : Sp Lane) (idx k : Nat) (x : XVal) (f : Fmt) (rd : Rnd) (o : Ovf) :
    (cvtGen g idx k x f rd o).1 = cvt x f rd o (if rd = .rsr then genDraw (genStep (genAt g idx k)) else 0) := by
  by_cases h : rd = .rsr <;> simp [cvtGen, h]

theorem cvtGen_same (g : Sp Lane) (idx k : Nat) (x : XVal) (f : Fmt) (rd : Rnd) (o : Ovf) :
    genAt (cvtGen g idx k x f rd o).2 idx k = if rd = .rsr then genStep (genAt g idx k) else genAt g idx k := by
  by_cases h : rd = .rsr <;> simp [cvtGen, h]

theorem cvtGen_other (g : Sp Lane) (idx k j : Nat) (x : XVal) (f : Fmt) (rd : Rnd) (o : Ovf) (hj : j ≠ k) :
    genAt (cvtGen g idx k x f rd o).2 idx j = genAt g idx j := by
  by_cases h : rd = .rsr <;> simp [cvtGen, h, genAt_set_other _ _ _ _ _ hj]

theorem genAfter_succ' (n : Nat) (g : Lane) : genAfter (n + 1) g = genAfter n (genStep g) := by
  induction n with
  | zero => rfl
  | succ n ih => rw [genAfter, ih]; rfl

/-- A lane of an elementwise word. -/
theorem laneElems_cvt (ew n i idx l : Nat) (f : Fmt) (rd : Rnd) (o : Ovf) (st : Nat → Nat) (val : Nat → Nat → Nat → XVal)
    (a b d : Nat) (g : Sp Lane) :
    let fn := fun a b d (g : Sp Lane) =>
      (st (cvtGen g idx l (val a b d) f rd o).1, (cvtGen g idx l (val a b d) f rd o).2)
    let cut := fun (j p : Nat) => p / 2 ^ (ew * j) % 2 ^ ew
    let r := laneElems ew n i fn a b d g
    r.1 = ((List.range n).map fun j => st (cvt (val (cut (i + j) a) (cut (i + j) b) (cut (i + j) d)) f rd o
        (drawFor rd g idx l j)) % 2 ^ ew * 2 ^ (ew * (i + j))).sum ∧
      (∀ k, genAt r.2 idx k = if rd = .rsr ∧ k = l then genAfter n (genAt g idx l) else genAt g idx k) := by
  induction n generalizing i g with
  | zero =>
    refine ⟨rfl, fun k => ?_⟩
    by_cases h : rd = .rsr ∧ k = l
    · simp [laneElems, genAfter, h]
    · simp [laneElems, h]
  | succ n ih =>
    intro fn cut r
    have hg := ih (i + 1) (fn (cut i a) (cut i b) (cut i d) g).2
    refine ⟨?_, fun k => ?_⟩
    · show _ + (laneElems ew n (i + 1) fn a b d _).1 = _
      rw [hg.1, List.range_succ_eq_map, List.map_cons, List.sum_cons, List.map_map]
      congr 1
      · simp only [cvtGen_fst, drawFor, genAfter, cut, Nat.add_zero]
      · congr 1
        apply List.map_congr_left
        intro j _
        simp only [Function.comp, Nat.add_assoc, Nat.add_comm 1 j, Nat.succ_eq_add_one, drawFor, fn, cvtGen_same]
        by_cases hr : rd = .rsr <;> simp [hr, genAfter_succ', cut]
    · show genAt (laneElems ew n (i + 1) fn a b d _).2 idx k = _
      rw [hg.2 k]
      by_cases h : rd = .rsr ∧ k = l
      · simp [h, fn, cvtGen_same, genAfter_succ']
      · simp only [h, if_false, fn]
        by_cases hk : k = l
        · subst hk; rw [cvtGen_same]; simp only [and_true] at h; simp [h]
        · rw [cvtGen_other _ _ _ _ _ _ _ _ hk]

theorem mapLanes_cvt (x : VIn) (f : Fmt) (n l : Nat) (rd : Rnd) (o : Ovf) (st : Nat → Nat) (val : Nat → Nat → Nat → XVal)
    (g : Sp Lane) :
    let fn := fun (l a b d : Nat) (g : Sp Lane) =>
      (st (cvtGen g x.idx l (val a b d) f rd o).1, (cvtGen g x.idx l (val a b d) f rd o).2)
    let r := mapLanes x f n l fn g
    r.1.length = n ∧
    (∀ j, j < n → r.1.getD j 0 = if x.sel.getLsbD (l + j) then laneFrom f fun i =>
        st (cvt (val (elemIn f i (x.a.pat (l + j))) (elemIn f i (x.b.pat (l + j))) (elemIn f i (x.d.pat (l + j)))) f rd o
          (drawFor rd g x.idx (l + j) i)) else 0) ∧
    (∀ k, genAt r.2 x.idx k = if rd = .rsr ∧ l ≤ k ∧ k < l + n ∧ x.sel.getLsbD k = true
        then genAfter (elemsPerLane f) (genAt g x.idx k) else genAt g x.idx k) := by
  induction n generalizing l g with
  | zero =>
    refine ⟨rfl, fun j hj => absurd hj (Nat.not_lt_zero j), fun k => ?_⟩
    have : ¬ (rd = .rsr ∧ l ≤ k ∧ k < l + 0 ∧ x.sel.getLsbD k = true) := by omega
    rw [if_neg this]; rfl
  | succ n ih =>
    intro fn r
    let q := if x.sel.getLsbD l then laneElems (elemWidth f) (elemsPerLane f) 0 (fn l) (x.a.pat l) (x.b.pat l) (x.d.pat l) g else (0, g)
    have hr : r = (q.1 :: (mapLanes x f n (l + 1) fn q.2).1, (mapLanes x f n (l + 1) fn q.2).2) := rfl
    obtain ⟨h1, h2, h3⟩ := ih (l + 1) q.2
    have hl := laneElems_cvt (elemWidth f) (elemsPerLane f) 0 x.idx l f rd o st val (x.a.pat l) (x.b.pat l) (x.d.pat l) g
    have hq2 : ∀ k, genAt q.2 x.idx k = if rd = .rsr ∧ k = l ∧ x.sel.getLsbD l = true then genAfter (elemsPerLane f) (genAt g x.idx l) else genAt g x.idx k := by
      intro k
      by_cases hs : x.sel.getLsbD l = true
      · simp only [q, hs, if_true, and_true]; exact hl.2 k
      · simp [q, hs]
    rw [hr]
    refine ⟨by simpa using h1, ?_, ?_⟩
    · intro j hj
      cases j with
      | zero =>
        by_cases hs : x.sel.getLsbD l = true
        · simp only [List.getD_cons_zero, Nat.add_zero, hs, if_true, q]
          rw [hl.1]; simp [laneFrom, elemIn]
        · simp [hs, q]
      | succ j =>
        have hj2 := h2 j (by omega)
        simp only [List.getD_cons_succ]
        rw [hj2]
        rw [show l + 1 + j = l + (j + 1) by omega]
        by_cases hs : x.sel.getLsbD (l + (j + 1)) = true
        · simp only [hs, if_true]
          congr 1; funext i
          have := hq2 (l + (j + 1))
          simp only [show ¬ (l + (j + 1) = l) by omega, false_and, and_false, if_false] at this
          simp [drawFor, this]
        · simp [hs]
    · intro k
      show genAt (mapLanes x f n (l + 1) fn q.2).2 x.idx k = _
      rw [h3 k, hq2 k]
      by_cases hk : k = l
      · subst hk
        simp only [show ¬ (k + 1 ≤ k) by omega, false_and, and_false, if_false, Nat.le_refl, true_and]
        simp [show k < k + (n + 1) by omega]
      · simp only [hk, false_and, and_false, if_false]
        have e : (l + 1 ≤ k ∧ k < l + 1 + n) ↔ (l ≤ k ∧ k < l + (n + 1)) := by omega
        by_cases h1 : l ≤ k ∧ k < l + (n + 1)
        · have := e.2 h1; simp [h1.1, h1.2, this.1, this.2]
        · have h2 : ¬(l + 1 ≤ k ∧ k < l + 1 + n) := fun h => h1 (e.1 h)
          rw [if_neg (fun h => h2 ⟨h.2.1, h.2.2.1⟩), if_neg (fun h => h1 ⟨h.2.1, h.2.2.1⟩)]
theorem vWord_goes (f : VFields) (form : Bool → VForm) (s : State) (r : Run) (s1 : State) (fm : VForm) (b : VIn → VOut)
    (hf : form s.me.st.vkind = { fm with body := b }) (h : s.vGoes f fm r s1) :
    Machine.vWord f form s = .next (s1.vGives f fm r (b (s1.vSees f fm r))) := by
  obtain ⟨h1, h2, s0, h3, h4, h5, rfl⟩ := h
  have h2' : vOffends f { fm with body := b } r.k s.me.st.vkind = none := h2
  have h4' : (decide (r.work.stage = 0) && !s0.me.st.vReady f { fm with body := b }) = false := by
    by_cases hs : r.work.stage = 0
    · have : s0.me.st.vReady f { fm with body := b } = true := h4 hs
      simp [this]
    · simp [hs]
  have h5' : (fm.mIdle && s0.me.st.mrun.isSome) = false := by
    cases hm : fm.mIdle
    · rfl
    · simp [h5 hm]
  simp only [Machine.vWord, h1, hf, h2', h3, h4', h5', Bool.false_eq_true, if_false]
  rfl

theorem elemwise_goes (f : VFields) (fn : VIn → Nat → Nat → Nat → Nat → Sp Lane → Nat × Sp Lane) (s : State) (r : Run) (s1 : State)
    (h : s.vGoes f (rowShape f.fmt f.fmt (lanesOf s.me.st.vkind)) r s1) :
    let x := s1.vSees f (rowShape f.fmt f.fmt (lanesOf s.me.st.vkind)) r
    let o := mapLanes x f.fmt x.w 0 (fn x) x.v.gens
    elementwise f fn s = .next (s1.vGives f (rowShape f.fmt f.fmt (lanesOf s.me.st.vkind)) r (x.gives o.1 o.2)) := by
  intro x o
  exact vWord_goes f _ s r s1 _ (fun x => x.gives (mapLanes x f.fmt x.w 0 (fn x) x.v.gens).1 (mapLanes x f.fmt x.w 0 (fn x) x.v.gens).2) rfl h

end Sys2Proof.Machine
end

