-- ==== Sys2Proof/Laws/Words.lean ====
section
/-!
SUPPORT. What each shared operation of the Uslyn-S words does, said once: retirement, guards, waits for registers, the
computing words, and the issue of commands.
-/

namespace Sys2Proof.Machine

/-! ### Retirement -/

theorem endCheck_straight (c : Ctl) (a : Word) (l : List (Fin 4))
    (h : ∀ k ∈ l, (c.getZL k).live = true → (c.getZL k).zle ≠ a) : c.endCheck a l = { c with pc := a + 4 } := by
  induction l with
  | nil => rfl
  | cons k r ih =>
    have hk := h k (by simp)
    have hn : ((c.getZL k).live && decide ((c.getZL k).zle = a)) = false := by
      cases hl : (c.getZL k).live
      · simp
      · simpa using hk hl
    rw [Ctl.endCheck]
    simp only [hn, Bool.false_eq_true, if_false]
    exact ih fun j hj => h j (by simp [hj])

/-- Where no loop ends at PC, a word that retires is followed by the word behind it. -/
theorem retire_straight (s : State) (h : s.straight) : s.retire = s.fell := by
  have e : s.me.st.ctl.endCheck s.me.st.ctl.pc s.me.st.ctl.order = { s.me.st.ctl with pc := s.me.st.ctl.pc + 4 } :=
    endCheck_straight _ _ _ h
  simp only [State.retire, State.fell, State.updSt, Strand.unstall, e]

theorem done_straight (s : State) (h : s.straight) : done s = .next s.fell := by
  rw [done, retire_straight s h]

/-- Straightness depends on the control state alone. -/
theorem straight_of_ctl {s t : State} (ho : t.ctl.order = s.ctl.order) (hz : t.ctl.zl = s.ctl.zl) (hp : t.ctl.pc = s.ctl.pc)
    (h : s.straight) : t.straight := by
  intro l hl
  have := h l (by rwa [← ho])
  simpa [Ctl.getZL, hz, hp] using this

theorem writeG_straight (s : State) (d : Reg) (v : Word) (h : s.straight) : (s.writeG d v).straight := by
  refine straight_of_ctl ?_ ?_ ?_ h <;>
    (simp only [State.writeG, State.updSt, State.ctl, Strand.writeG, Ctl.setG]; split <;> rfl)

theorem updCtl_straight (s : State) (f : Ctl → Ctl) (ho : (f s.ctl).order = s.ctl.order) (hz : (f s.ctl).zl = s.ctl.zl)
    (hp : (f s.ctl).pc = s.ctl.pc) (h : s.straight) : (s.updCtl f).straight :=
  straight_of_ctl ho hz hp h

theorem setP_straight (s : State) (p : BitVec 3) (b : Bool) (h : s.straight) : (s.setP p b).straight := by
  refine updCtl_straight s _ ?_ ?_ ?_ h <;> (simp only [Ctl.setP]; split <;> rfl)

/-! ### Guards and waits -/

theorem guarded_true (g : Guard) (s : State) (k : State → Out) (h : s.ctl.guard g = true) : guarded g s k = k s := by
  simp [guarded, h]

theorem guarded_false (g : Guard) (s : State) (k : State → Out) (h : s.ctl.guard g = false) : guarded g s k = done s := by
  simp [guarded, h]

theorem reading_bound (rs : List Reg) (s : State) (k : State → Out) (h : s.me.st.pending rs = false) : reading rs s k = k s := by
  simp [reading, h]

theorem reading_pending (rs : List Reg) (s : State) (k : State → Out) (h : s.me.st.pending rs = true) :
    reading rs s k = .next s.stalled := by
  simp [reading, h, wait]

theorem compute_ready (g : Guard) (rs : List Reg) (d : Reg) (f : State → Word) (s : State) (h : s.ready g rs) :
    compute g rs d f s = .next (s.writeG d (f s)).fell := by
  rw [compute, guarded_true _ _ _ h.1, reading_bound _ _ _ h.2.1, done_straight _ (writeG_straight _ _ _ h.2.2)]

/-! ### Accesses -/

/-- Slices hold copies: their lines and the draw counter are all that differs. -/
def onlySlices (s t : State) : Prop := t = { s with l2 := t.l2, free := t.free }

theorem l2Place_frame (s : State) (x : L2Line) (avoid : Option Nat) : onlySlices s (s.l2Place x avoid) := rfl

theorem l2Encode_frame (s : State) (x : L2Line) (code : Nat) : onlySlices s (s.l2Encode x code) := by
  unfold onlySlices State.l2Encode
  split
  · split
    · rfl
    · simp only; split <;> rfl
  · rfl

/-- All that a use of a slice does (R112). -/
theorem l2Use_frame (s : State) (a tag : Nat) (write : Bool) : onlySlices s (s.l2Use a tag write) := by
  unfold State.l2Use
  split
  · simp only
    split
    · split
      · exact l2Encode_frame ..
      · rfl
    · exact l2Place_frame ..
  · rfl

theorem l2Use_me (s : State) (a tag : Nat) (write : Bool) : (s.l2Use a tag write).me = s.me := by rw [l2Use_frame s a tag write]

theorem l2Use_mem (s : State) (a tag : Nat) (write : Bool) : (s.l2Use a tag write).mem = s.mem := by rw [l2Use_frame s a tag write]

/-! ### Each operation of the machine on the package memory keeps its canonical form -/

theorem Memory.wf_copyHalf (m : Memory) (src dst n : Nat) (h : m.wf = true) : (m.copyHalf src dst n).wf = true := by
  have fold : ∀ (l : List (Nat × Byte)) (m : Memory), m.wf = true →
      (l.foldl (fun m c => m.write (c.1 - src + dst) c.2) m).wf = true := by
    intro l
    induction l with
    | nil => exact fun _ h => h
    | cons c r ih => exact fun m h => ih _ (m.wf_write _ _ h)
  exact fold _ _ (Sp.wfFrom_filter m 0 _ _ h)

theorem baseWrite_wf (s : State) (a : Nat) (bs : List Byte) (h : s.mem.wf = true) : (s.baseWrite a bs).mem.wf = true := by
  rw [State.baseWrite, l2Use_mem]
  exact s.mem.wf_writeN a bs h

theorem l2Uses_mem (l : List L2Line) (write : Bool) (s : State) :
    (l.foldl (fun s x => s.l2Use (64 * x.line) x.tag write) s).mem = s.mem := by
  induction l generalizing s with
  | nil => rfl
  | cons x r ih => exact (ih _).trans (l2Use_mem s _ _ _)

theorem publish_wf (s : State) (p : Pub) (h : s.mem.wf = true) : (s.publish p).mem.wf = true := by
  simp only [State.publish, l2Uses_mem, State.selUse, l2Use_mem]
  exact Memory.wf_copyHalf _ _ _ _ h

theorem hostPut_wf (s : State) (a : Nat) (bs : List Byte) (h : s.mem.wf = true) : (s.hostPut a bs).mem.wf = true := by
  rw [State.hostPut]
  split
  · exact s.mem.wf_writeN _ bs h
  · exact h

theorem touchLeaf_wf (s : State) (l : Leaf) (write : Bool) (h : s.mem.wf = true) : (s.touchLeaf l write).mem.wf = true := by
  rw [State.touchLeaf]
  split
  · exact h
  · rw [l2Use_mem]
    exact s.mem.wf_writeN _ _ h

theorem ptrUse_me (s : State) (die : Option Nat) (vi lvl va e : Nat) : (s.ptrUse die vi lvl va e).1.me = s.me := by
  unfold State.ptrUse; repeat' (first | rfl | split)

theorem ptrFill_me (s : State) (die : Option Nat) (vi lvl va next : Nat) : (s.ptrFill die vi lvl va next).me = s.me := by
  unfold State.ptrFill
  split
  · rfl
  · simp only
    split
    · rfl
    · split <;> rfl

/-- A walk reads tables through their slices and fills the walker's cache; it never changes a cluster. -/
theorem walk_me (die : Option Nat) (vi va : Nat) (levels : List Nat) :
    ∀ (s : State) (table : Nat), (s.walk die vi table va levels).1.me = s.me := by
  induction levels with
  | nil => intro s table; rfl
  | cons lvl rest ih =>
    intro s table
    unfold State.walk
    simp only
    have hp := ptrUse_me s die vi lvl va (leNat (s.mem.readN (canon (table + 8 * levelIndex lvl va)) 8))
    generalize s.ptrUse die vi lvl va (leNat (s.mem.readN (canon (table + 8 * levelIndex lvl va)) 8)) = r at *
    obtain ⟨s1, q⟩ := r
    simp only at hp
    cases q with
    | some next => exact (ih s1 next).trans hp
    | none =>
      simp only
      have hu := (l2Use_me s1 (canon (table + 8 * levelIndex lvl va)) 0 false).trans hp
      split
      · exact hu
      · split
        · exact hu
        · split
          · exact ((ih _ _).trans (ptrFill_me ..)).trans hu
          · exact hu

theorem walkBy_me (s : State) (die : Option Nat) (vi va : Nat) : (s.walkBy die vi va).1.me = s.me := by
  unfold State.walkBy
  simp only
  repeat' (first | rfl | exact walk_me .. | split)

theorem touchLeaf_me (s : State) (l : Leaf) (write : Bool) : (s.touchLeaf l write).me = s.me := by
  unfold State.touchLeaf
  split
  · rfl
  · exact l2Use_me ..

/-- A translation changes the TLB, the walker's cache, the bits A and D in memory, slices and the draw counter; never a
strand. -/
theorem xlate_st (s : State) (vi va : Nat) (w : Bool) : (s.xlate vi va w).1.me.st = s.me.st := by
  unfold State.xlate
  split
  · rfl
  · have h := walkBy_me s (some s.me.die) vi va
    generalize s.walkBy (some s.me.die) vi va = r at *
    obtain ⟨s1, q⟩ := r
    simp only at h
    cases q with
    | error c => exact congrArg Cluster.st h
    | ok l =>
      simp only [State.draw]
      split <;> exact congrArg Cluster.st ((touchLeaf_me ..).trans h)

/-- The checks of an access never change a strand. -/
theorem lookup_st (s : State) (va n : Nat) (w : Bool) (tag : Option (BitVec 20)) : (s.lookup va n w tag).1.me.st = s.me.st := by
  unfold State.lookup
  split
  · rfl
  · split
    · split <;> rfl
    · split
      · rfl
      · have h := xlate_st s s.me.st.vi va w
        generalize hx : s.xlate s.me.st.vi va w = r at *
        obtain ⟨s1, q⟩ := r
        cases q with
        | error c => exact h
        | ok e => simp only; repeat' (first | exact h | split)

/-- What an access that passes its checks leaves of the strand: an earlier hold of the control sequencer ends. -/
theorem finds_st {s s1 : State} {ea : Word} {n : Nat} {w : Bool} {tag : Option (BitVec 20)} {pl : Place}
    (h : s.finds ea n w tag s1 pl) : s1.me.st = s.me.st.release .c := by
  obtain ⟨_, _, s0, h0, rfl⟩ := h
  have := lookup_st s ea.toNat n w tag
  rw [h0] at this
  simp only [State.updSt]
  exact congrArg (fun t => Strand.release t .c) this

theorem accessing_finds {s s1 : State} {ea : Word} {n : Nat} {w : Bool} {tag : Option (BitVec 20)} {pl : Place}
    (h : s.finds ea n w tag s1 pl) (k : Place → State → Out) : accessing ea n w tag s k = k pl s1 := by
  obtain ⟨h1, h2, s0, h0, rfl⟩ := h
  have : ¬ 2 ^ 56 ≤ ea.toNat := by omega
  simp only [accessing, checking, this, if_false, h2, located, h0, ne_eq, not_true]

theorem finds_straight {s s1 : State} {ea : Word} {n : Nat} {w : Bool} {tag : Option (BitVec 20)} {pl : Place}
    (h : s.finds ea n w tag s1 pl) (hs : s.straight) : s1.straight := by
  have e : s1.ctl = s.ctl := by simp only [State.ctl, finds_st h, Strand.release]
  exact straight_of_ctl (by rw [e]) (by rw [e]) (by rw [e]) hs

/-! ### Issue -/

theorem expect_ctl (t : Strand) (d : Reg) : (t.expect d).ctl = t.ctl := by
  unfold Strand.expect; split <;> rfl

theorem pushL_straight (s : State) (cmd : Cmd) (d : Reg) (tk : Word) (h : s.straight) : (s.pushL cmd d tk).straight := by
  have e : (s.pushL cmd d tk).ctl = s.ctl := expect_ctl s.me.st d
  exact straight_of_ctl (by rw [e]) (by rw [e]) (by rw [e]) h

theorem pushS_straight (s : State) (cmd : Cmd) (d : Reg) (tk : Word) (gs : List Gate) (h : s.straight) :
    (s.pushS cmd d tk gs).straight := by
  have e : (s.pushS cmd d tk gs).ctl = s.ctl := expect_ctl s.me.st d
  exact straight_of_ctl (by rw [e]) (by rw [e]) (by rw [e]) h

theorem issueL_room (cmd : Cmd) (d : Reg) (s : State) (hs : s.straight) (hr : hasRoom s.me.st.lqu) :
    issueL cmd d s = .next (s.pushL cmd d 0).fell := by
  have : queueFull s.me.st.lqu = false := hr
  simp only [issueL, this, Bool.false_eq_true, if_false]
  exact done_straight _ (pushL_straight s cmd d 0 hs)

theorem issueLs_room (cmd : Cmd) (tk : Word) (s : State) (hs : s.straight) (hr : hasRoom s.me.st.lqu) :
    issueLs cmd tk s = .next (s.pushL cmd 0 tk).fell := by
  have : queueFull s.me.st.lqu = false := hr
  simp only [issueLs, this, Bool.false_eq_true, if_false]
  exact done_straight _ (pushL_straight s cmd 0 tk hs)

theorem issueS_room (cmd : Cmd) (d : Reg) (tk : Word) (s : State) (hs : s.straight) (hr : hasRoom s.me.st.squ) :
    issueS cmd d tk s = .next (s.pushS cmd d tk []).fell := by
  have : queueFull s.me.st.squ = false := hr
  have e : s.pushS cmd d tk [] =
      s.updSt fun t => { t.expect d with squ := t.squ ++ [t.entry tk cmd], seq := t.seq + 1 } := by
    have : (s.me.st.expect d).gates = s.me.st.gates := by unfold Strand.expect; split <;> rfl
    simp [State.pushS, State.updSt, this, State.entryOf, Strand.entry, State.ctl]
  simp only [issueS, this, Bool.false_eq_true, if_false, ← e]
  exact done_straight _ (pushS_straight s cmd d tk [] hs)

theorem issueSGated_room (cmd : Cmd) (d : Reg) (gates : Nat → List Gate) (s : State) (hs : s.straight)
    (hr : hasRoom s.me.st.squ) : issueSGated cmd d gates s = .next (s.pushS cmd d 0 (gates s.me.st.seq)).fell := by
  have : queueFull s.me.st.squ = false := hr
  simp only [issueSGated, this, Bool.false_eq_true, if_false]
  exact done_straight _ (pushS_straight s cmd d 0 _ hs)

theorem issueK_room (cmd : Cmd) (tk : Word) (s : State) (hs : s.straight) (hr : hasRoom s.me.st.kqu) :
    issueK cmd tk s = .next (s.pushK cmd tk).fell := by
  have : queueFull s.me.st.kqu = false := hr
  simp only [issueK, this, Bool.false_eq_true, if_false]
  exact done_straight _ (straight_of_ctl rfl rfl rfl hs)

theorem replayed_unlogged (s : State) (k : State → Out) (h : s.unlogged) : replayed s k = k s := by
  have : (s.me.st.replay.find? fun (r : LogRec) => decide (r.waddr = s.ctl.pc)) = none := by
    rw [List.find?_eq_none]
    intro r hr
    simpa using h r hr
  simp only [replayed, this]

end Sys2Proof.Machine
end

