-- ==== Sys2Proof/Tests/Slice0.lean ====
section
/-!
SUPPORT. Tests: the word of every constructor written out field by field from the encoding tables of the spec; an
ill-formed term for every check; one small step of the instructions; and witnesses that meet the hypotheses of the
statements.
-/

set_option Elab.async false

namespace Sys2Proof.Tests

open Sys2Proof Sys2Proof.Machine

/-! ### Words, field by field, most significant first: (width, value) (R36, R38, R40, R44, R47) -/

/-- The word with the given fields. -/
def fields (l : List (Nat × Nat)) : Nat := l.foldl (fun a x => a * 2 ^ x.1 + x.2) 0

/-- The guard `?!p1` of the words below: GP 1, GN 1, GS 0. -/
def gN : Guard := ⟨1, true, false⟩

/-- A Uslyn-S word with guard `?!p1` and a body of 21 bits (R36). -/
def sWord (op : Nat) (body : List (Nat × Nat)) : Nat := fields ([(3, 1), (6, op), (1, 1), (1, 0)] ++ body)

/-- Register layout. -/
def wReg (op d a b fn : Nat) : Nat := sWord op [(5, d), (5, a), (5, b), (6, fn)]

/-- Compare layout. -/
def wCmp (op pd a b cond : Nat) : Nat := sWord op [(3, pd), (2, 0), (5, a), (5, b), (6, cond)]

/-- Branch register layout. -/
def wBr (op t sense a : Nat) : Nat := sWord op [(3, t), (1, sense), (1, 0), (5, a), (11, 0)]

/-- Memory layout with an offset, and with an index register. -/
def wMem (op d a sz x off : Nat) : Nat := sWord op [(5, d), (5, a), (2, sz), (1, x), (8, off)]

/-- The words of a list decode to what stands beside them. -/
def allDecode (nbits : Nat) (l : List (Nat × Instr)) : Bool := l.all fun x => decide (decodeTableWord nbits x.1 = some x.2)

theorem test_decode_alu : allDecode 32
    [(wReg 0x01 4 5 6 0, .add gN 4 5 6), (wReg 0x01 4 5 6 1, .sub gN 4 5 6), (wReg 0x01 4 5 6 2, .mul gN 4 5 6),
     (wReg 0x01 4 5 6 3, .mulh gN 4 5 6), (wReg 0x01 4 5 6 4, .divs gN 4 5 6), (wReg 0x01 4 5 6 5, .divn gN 4 5 6),
     (wReg 0x01 4 5 6 6, .rems gN 4 5 6), (wReg 0x01 4 5 6 7, .remn gN 4 5 6), (wReg 0x01 4 5 6 8, .and gN 4 5 6),
     (wReg 0x01 4 5 6 9, .or gN 4 5 6), (wReg 0x01 4 5 6 10, .xor gN 4 5 6), (wReg 0x01 4 5 6 11, .andn gN 4 5 6),
     (wReg 0x01 4 5 6 12, .shl gN 4 5 6), (wReg 0x01 4 5 6 13, .shr gN 4 5 6), (wReg 0x01 4 5 6 14, .sha gN 4 5 6),
     (wReg 0x01 4 5 6 15, .rot gN 4 5 6), (wReg 0x01 4 5 6 16, .min gN 4 5 6), (wReg 0x01 4 5 6 17, .max gN 4 5 6),
     (wReg 0x01 4 5 6 18, .minn gN 4 5 6), (wReg 0x01 4 5 6 19, .maxn gN 4 5 6), (wReg 0x01 4 31 0 20, .clz gN 4 31),
     (wReg 0x01 31 5 0 21, .popc gN 31 5)] = true := by decide

theorem test_decode_alu_immediate : allDecode 32
    [(sWord 0x02 [(5, 4), (5, 5), (3, 0), (8, 0xFF)], .addImm gN 4 5 0xFF),
     (sWord 0x02 [(5, 4), (5, 5), (3, 1), (8, 0x80)], .andImm gN 4 5 0x80),
     (sWord 0x02 [(5, 4), (5, 5), (3, 2), (8, 0x7F)], .orImm gN 4 5 0x7F),
     (sWord 0x02 [(5, 4), (5, 5), (3, 3), (8, 1)], .xorImm gN 4 5 1),
     (sWord 0x02 [(5, 4), (5, 5), (3, 4), (8, 63)], .shlImm gN 4 5 63),
     (sWord 0x02 [(5, 4), (5, 5), (3, 5), (8, 63)], .shrImm gN 4 5 63),
     (sWord 0x02 [(5, 4), (5, 5), (3, 6), (8, 63)], .shaImm gN 4 5 63),
     (sWord 0x02 [(5, 4), (5, 5), (3, 7), (8, 0)], .rotImm gN 4 5 0)] = true := by decide

theorem test_decode_compare_select : allDecode 32
    [(wCmp 0x03 7 5 6 0, .cmp gN 7 5 6 .eq), (wCmp 0x03 7 5 6 1, .cmp gN 7 5 6 .ne), (wCmp 0x03 7 5 6 2, .cmp gN 7 5 6 .lt),
     (wCmp 0x03 7 5 6 3, .cmp gN 7 5 6 .ge), (wCmp 0x03 7 5 6 4, .cmp gN 7 5 6 .ltn), (wCmp 0x03 7 5 6 5, .cmp gN 7 5 6 .gen),
     (sWord 0x04 [(5, 4), (5, 5), (5, 6), (3, 7), (3, 0)], .sel gN 4 5 6 7)] = true := by decide

theorem test_decode_scalar_float : allDecode 32
    [(sWord 0x05 [(5, 4), (5, 5), (5, 6), (3, 1), (3, 0)], .sfadd gN 4 5 6 .rtz),
     (sWord 0x05 [(5, 4), (5, 5), (5, 6), (3, 2), (3, 1)], .sfmul gN 4 5 6 .rdn),
     (sWord 0x05 [(5, 4), (5, 5), (5, 6), (3, 3), (3, 2)], .sffma gN 4 5 6 .rup),
     (sWord 0x05 [(5, 4), (5, 5), (5, 6), (3, 0), (3, 3)], .sfmin gN 4 5 6 .rne),
     (sWord 0x05 [(5, 4), (5, 5), (5, 6), (3, 0), (3, 4)], .sfmax gN 4 5 6 .rne),
     (wCmp 0x06 1 5 6 3, .sfcmp gN 1 5 6 .le), (wCmp 0x06 1 5 6 4, .sfcmp gN 1 5 6 .un),
     (sWord 0x07 [(5, 4), (5, 5), (1, 1), (5, 14), (3, 1), (1, 1), (1, 0)], .sfcvt gN 4 5 true .i8 .rtz .sat)] = true := by decide

theorem test_decode_branch_loop : allDecode 32
    [(sWord 0x08 [(3, 7), (18, 0x3FFFF)], .pbr gN 7 0x3FFFF), (wBr 0x09 2 0 5, .pbri gN 2 5), (wBr 0x0A 3 0 0, .br gN 3),
     (wBr 0x0B 3 1 0, .brq gN 3 true), (wBr 0x0C 4 0 0, .call gN 4), (wBr 0x0D 0 0 0, .ret gN),
     (sWord 0x0E [(2, 3), (3, 7), (5, 5), (11, 2047)], .zloop gN 3 7 5 2047),
     (sWord 0x0F [(2, 1), (3, 3), (5, 5), (9, 0), (2, 0)], .zlset gN 1 .stages 5),
     (sWord 0x0F [(2, 1), (3, 0), (5, 5), (9, 0), (2, 1)], .zlsv gN 1 5),
     (sWord 0x0F [(2, 1), (3, 0), (5, 5), (9, 0), (2, 2)], .zlrs gN 1 5)] = true := by decide

theorem test_decode_constants_accesses : allDecode 32
    [(sWord 0x10 [(5, 4), (16, 0x8001)], .movi gN 4 0x8001), (sWord 0x11 [(5, 4), (16, 0xFFFF)], .movh gN 4 0xFFFF),
     (sWord 0x12 [(5, 4), (5, 5), (11, 0x400)], .lea gN 4 5 0x400),
     (wMem 0x13 4 5 0 0 0x80, .ldOffset gN 4 5 .b 0x80), (wMem 0x13 4 5 3 1 (6 * 8), .ldIndex gN 4 5 .d 6),
     (wMem 0x14 4 5 1 0 0x7F, .stOffset gN 4 5 .h 0x7F), (wMem 0x14 4 5 2 1 (6 * 8), .stIndex gN 4 5 .w 6),
     (wMem 0x15 4 5 2 0 1, .ldcOffset gN 4 5 .w 1), (wMem 0x15 4 5 1 1 (31 * 8), .ldcIndex gN 4 5 .h 31),
     (wMem 0x16 4 5 3 0 0xFF, .stntOffset gN 4 5 .d 0xFF), (wMem 0x16 4 5 0 1 (6 * 8), .stntIndex gN 4 5 .b 6)] = true := by decide

theorem test_decode_streams_copies : allDecode 32
    [(sWord 0x17 [(2, 3), (2, 2), (1, 0), (5, 5), (2, 1), (5, 7), (4, 0)], .qld gN ⟨3, .w, 5, 1, 7⟩),
     (sWord 0x18 [(2, 2), (2, 3), (1, 0), (5, 5), (2, 3), (5, 0), (4, 0)], .qst gN ⟨2, .d, 5, 3, 0⟩),
     (sWord 0x19 [(5, 4), (5, 5), (5, 31), (5, 7), (1, 0)], .kcopy gN ⟨4, 5, 31, 7, false⟩),
     (sWord 0x1A [(5, 4), (5, 5), (5, 29), (5, 7), (1, 1)], .kcopy2d gN ⟨4, 5, 29, 7, true⟩),
     (sWord 0x1B [(5, 4), (5, 5), (5, 6), (5, 7), (1, 1)], .kfill gN ⟨4, 5, 6, 7, true⟩),
     (sWord 0x1C [(5, 4), (5, 5), (5, 6), (5, 7), (1, 0)], .kgather gN ⟨4, 5, 6, 7, false⟩),
     (sWord 0x1D [(5, 4), (5, 5), (5, 6), (5, 7), (1, 0)], .kscatter gN ⟨4, 5, 6, 7, false⟩),
     (sWord 0x1E [(5, 4), (5, 5), (5, 6), (5, 7), (1, 0)], .kpair gN ⟨4, 5, 6, 7, false⟩),
     (wReg 0x1F 4 5 0 0, .kwait gN 4 5), (wReg 0x20 4 0 0 0, .kstat gN 4), (wReg 0x21 0 0 0 0, .done gN)] = true := by decide

/-- An atomic word with guard `?!p1`: the layout has no GS bit. -/
def wAtom (op : Nat) : Nat := fields [(3, 1), (6, op), (1, 1), (5, 20), (5, 5), (5, 6), (2, 3), (1, 1), (2, 3), (2, 2)]

/-- Its operands. -/
def atomOps : AtomOps := ⟨20, 5, 6, 3, true, .sys, .rel⟩

theorem test_decode_atomics : allDecode 32
    [(wAtom 0x22, .aadd ⟨1, true⟩ atomOps), (wAtom 0x23, .aand ⟨1, true⟩ atomOps), (wAtom 0x24, .aor ⟨1, true⟩ atomOps),
     (wAtom 0x25, .axor ⟨1, true⟩ atomOps), (wAtom 0x26, .amin ⟨1, true⟩ atomOps), (wAtom 0x27, .amax ⟨1, true⟩ atomOps),
     (wAtom 0x28, .aminn ⟨1, true⟩ atomOps), (wAtom 0x29, .amaxn ⟨1, true⟩ atomOps), (wAtom 0x2A, .axchg ⟨1, true⟩ atomOps),
     (wAtom 0x2B, .acas ⟨1, true⟩ atomOps)] = true := by decide

theorem test_decode_slots_order : allDecode 32
    [(sWord 0x2C [(5, 5), (10, 1023), (2, 3), (1, 0), (3, 0)], .fadd gN 5 1023 .sys),
     (sWord 0x2C [(5, 5), (10, 9), (2, 1), (1, 0), (3, 1)], .fset gN 5 9 .die),
     (sWord 0x2C [(5, 5), (10, 9), (2, 2), (1, 0), (3, 2)], .wait gN 5 9 .pkg),
     (sWord 0x2C [(5, 5), (10, 9), (2, 0), (1, 0), (3, 3)], .barv gN 5 9 .cl),
     (sWord 0x2C [(5, 5), (10, 9), (2, 1), (1, 0), (3, 4)], .barw gN 5 9 .die),
     (sWord 0x2C [(5, 30), (10, 9), (2, 0), (1, 0), (3, 5)], .barinit gN 30 9),
     (sWord 0x2D [(5, 0), (3, 0), (2, 0), (2, 0), (2, 0), (5, 0), (2, 0)], .mark gN),
     (sWord 0x2D [(5, 0), (3, 1), (2, 0), (2, 0), (2, 2), (5, 0), (2, 0)], .sbar gN .m),
     (sWord 0x2D [(5, 0), (3, 2), (2, 3), (2, 3), (2, 0), (5, 0), (2, 0)], .fence gN .sys .ar),
     (sWord 0x2D [(5, 0), (3, 3), (2, 2), (2, 0), (2, 0), (5, 0), (2, 0)], .drainnt gN .pkg),
     (sWord 0x2D [(5, 0), (3, 4), (2, 0), (2, 0), (2, 0), (5, 0), (2, 0)], .cinv gN),
     (sWord 0x2D [(5, 5), (3, 5), (2, 0), (2, 0), (2, 0), (5, 7), (2, 0)], .kpub gN 5 7)] = true := by decide

theorem test_decode_tags_execution : allDecode 32
    [(sWord 0x2E [(5, 4), (5, 0), (5, 0), (2, 0), (1, 0), (3, 0)], .talloc gN 4),
     (sWord 0x2E [(5, 0), (5, 5), (5, 0), (2, 0), (1, 0), (3, 1)], .tretire gN 5),
     (sWord 0x2E [(5, 0), (5, 5), (5, 0), (2, 0), (1, 0), (3, 2)], .tset gN 5),
     (sWord 0x2E [(5, 4), (5, 0), (5, 0), (2, 0), (1, 0), (3, 3)], .tget gN 4),
     (sWord 0x2E [(5, 4), (5, 5), (5, 6), (2, 3), (1, 0), (3, 4)], .ldx gN 4 5 6 .d),
     (sWord 0x2E [(5, 4), (5, 5), (5, 0), (2, 0), (1, 0), (3, 5)], .tstat gN 4 5),
     (sWord 0x2F [(1, 1), (20, 0xFFFFF)], .fork gN true 0xFFFFF), (sWord 0x2F [(1, 0), (20, 3)], .fork gN false 3),
     -- EMASK bits [11:7]: K, M, V, S, L
     (sWord 0x30 [(5, 0), (4, 0), (5, 0b10010), (4, 0), (3, 0)], .rdv gN ⟨false, true, false, false, true⟩),
     (sWord 0x30 [(5, 5), (4, 15), (5, 0), (4, 0), (3, 1)], .ebset gN 5 15), (sWord 0x30 [(5, 5), (4, 3), (5, 0), (4, 0), (3, 2)], .ebget gN 5 3),
     (sWord 0x30 [(5, 5), (4, 13), (5, 0), (4, 0), (3, 3)], .tkset gN 5 13), (sWord 0x30 [(5, 5), (4, 1), (5, 0), (4, 0), (3, 4)], .tkget gN 5 1),
     (sWord 0x30 [(5, 5), (4, 0), (5, 0), (4, 0), (3, 5)], .strid gN 5)] = true := by decide

theorem test_decode_system : allDecode 32
    [(sWord 0x31 [(5, 4), (5, 5), (5, 6), (3, 0), (3, 0)], .launch gN 4 5 6), (sWord 0x31 [(5, 4), (5, 0), (5, 0), (3, 0), (3, 1)], .yield gN 4),
     (sWord 0x31 [(5, 4), (5, 5), (5, 0), (3, 0), (3, 2)], .prio gN 4 5), (sWord 0x31 [(5, 4), (5, 0), (5, 0), (3, 0), (3, 3)], .nodeid gN 4),
     (sWord 0x32 [(5, 4), (16, 0x0010)], .csrr gN 4 0x0010), (sWord 0x33 [(5, 5), (16, 0xFFFF)], .csrw gN 5 0xFFFF),
     (sWord 0x34 [(5, 5), (16, 0x0007)], .csrs gN 5 0x0007),
     (sWord 0x35 [(3, 0), (2, 0), (16, 0)], .nop gN), (sWord 0x35 [(3, 1), (2, 0), (16, 0xABCD)], .trap gN 0xABCD),
     (sWord 0x35 [(3, 2), (2, 0), (16, 0)], .eret gN), (sWord 0x35 [(3, 3), (2, 0), (16, 1)], .brk gN 1),
     (sWord 0x36 [(5, 0), (6, 63), (7, 0), (3, 0)], .swpt gN 63), (sWord 0x36 [(5, 5), (6, 6), (7, 0), (3, 1)], .pwrq gN 5 6),
     (sWord 0x36 [(5, 5), (6, 2), (7, 0), (3, 2)], .pwreq gN 5 2),
     (sWord 0x37 [(5, 4), (5, 5), (5, 0), (3, 0), (3, 0)], .qarm gN 4 5), (sWord 0x37 [(5, 4), (5, 5), (5, 6), (3, 0), (3, 1)], .qpost gN 4 5 6),
     (sWord 0x37 [(5, 4), (5, 5), (5, 6), (3, 0), (3, 2)], .qwait gN 4 5 6), (sWord 0x37 [(5, 4), (5, 5), (5, 0), (3, 0), (3, 3)], .qabort gN 4 5),
     (sWord 0x37 [(5, 4), (5, 5), (5, 0), (3, 0), (3, 4)], .qstat gN 4 5),
     -- R40: NOP without a guard is 0x1A80_0000; a stage predicate sets GS
     (0x1A800000, .nop ⟨0, false, false⟩), (fields [(3, 2), (6, 0x35), (1, 0), (1, 1), (21, 0)], .nop ⟨2, false, true⟩)] = true := by decide

/-! ### Vector words: descriptors are KIND, IDX, STR (R45) -/

/-- A Uslyn-V word: OP, POP, PUSH, DD, DA, DB, MASK, FMT, FMT2, RND, OVF, a reserved bit, MOD (R44). -/
def vW (op pop push dd da db mask fmt fmt2 rnd ovf mod : Nat) : Nat :=
  fields [(8, op), (4, pop), (4, push), (15, dd), (15, da), (15, db), (4, mask), (5, fmt), (5, fmt2), (3, rnd), (1, ovf), (1, 0), (16, mod)]

/-- `V8`, stride 0. -/
def dV8 : Nat := fields [(1, 0), (8, 8), (6, 0)]
/-- `V2`, stride 1. -/
def dV2 : Nat := fields [(1, 0), (8, 2), (6, 1)]
/-- `V4`, stride -1. -/
def dV4 : Nat := fields [(1, 0), (8, 4), (6, 63)]
/-- `lq3`. -/
def dLq3 : Nat := fields [(1, 1), (8, 3), (6, 0)]
/-- `sq1`. -/
def dSq1 : Nat := fields [(1, 1), (8, 5), (6, 0)]
/-- `moq`. -/
def dMoq : Nat := fields [(1, 1), (8, 8), (6, 0)]
/-- No operand. -/
def dNone : Nat := fields [(1, 1), (8, 9), (6, 0)]
/-- The scalar in MOD. -/
def dScal : Nat := fields [(1, 1), (8, 10), (6, 0)]

theorem test_decode_vector_arithmetic : allDecode 96
    [(vW 0x01 5 7 dSq1 dV2 dScal 3 3 3 4 1 0x3F80, .vadd ⟨5, 7, .sq 1, .row 2 1, .scalar, 3, .f16, .f16, .rsr, .sat, 0x3F80⟩),
     (vW 0x02 0 0 dV8 dLq3 dMoq 8 11 11 1 0 0, .vsub ⟨0, 0, .row 8 0, .lq 3, .moq, 8, .i32, .i32, .rtz, .wrap, 0⟩),
     (vW 0x03 0 0 dV8 dV4 dV2 8 4 4 2 0 0, .vmul ⟨0, 0, .row 8 0, .row 4 63, .row 2 1, 8, .bf16, .bf16, .rdn, .wrap, 0⟩),
     (vW 0x04 1 2 dV8 dV4 dV2 0 2 2 3 1 0, .vfma ⟨1, 2, .row 8 0, .row 4 63, .row 2 1, 0, .f19, .f19, .rup, .sat, 0⟩),
     (vW 0x05 8 4 dV8 dV4 dV2 7 12 12 0 0 0, .vfms ⟨8, 4, .row 8 0, .row 4 63, .row 2 1, 7, .i16, .i16, .rne, .wrap, 0⟩),
     (vW 0x06 0 0 dV8 dV4 dV2 8 13 13 0 0 0, .vmin ⟨0, 0, .row 8 0, .row 4 63, .row 2 1, 8, .n16, .n16, .rne, .wrap, 0⟩),
     (vW 0x07 0 0 dV8 dV4 dV2 8 15 15 0 0 0, .vmax ⟨0, 0, .row 8 0, .row 4 63, .row 2 1, 8, .n8, .n8, .rne, .wrap, 0⟩),
     (vW 0x08 0 0 dV8 dV4 dNone 8 14 14 0 1 0, .vabs ⟨0, 0, .row 8 0, .row 4 63, .none, 8, .i8, .i8, .rne, .sat, 0⟩),
     (vW 0x09 0 0 dSq1 dLq3 dNone 8 0 0 0 0 0, .vneg ⟨0, 0, .sq 1, .lq 3, .none, 8, .f32, .f32, .rne, .wrap, 0⟩),
     (vW 0x0A 0 0 dV8 dV4 dV2 8 0 0 0 0 0, .vclamp ⟨0, 0, .row 8 0, .row 4 63, .row 2 1, 8, .f32, .f32, .rne, .wrap, 0⟩),
     (vW 0x0B 0 0 dV8 dV4 dNone 8 0 0 3 0 0, .vexp2 ⟨0, 0, .row 8 0, .row 4 63, .none, 8, .f32, .f32, .rup, .wrap, 0⟩),
     (vW 0x0C 0 0 dV8 dV4 dNone 8 3 3 0 0 0, .vlog2 ⟨0, 0, .row 8 0, .row 4 63, .none, 8, .f16, .f16, .rne, .wrap, 0⟩),
     (vW 0x0D 0 0 dV8 dV4 dNone 8 4 4 0 0 0, .vrcp ⟨0, 0, .row 8 0, .row 4 63, .none, 8, .bf16, .bf16, .rne, .wrap, 0⟩),
     (vW 0x0E 0 0 dV8 dV4 dNone 8 0 0 0 0 0, .vrsqrt ⟨0, 0, .row 8 0, .row 4 63, .none, 8, .f32, .f32, .rne, .wrap, 0⟩),
     (vW 0x0F 0 0 dV8 dV4 dNone 8 0 0 0 0 0, .vtanh ⟨0, 0, .row 8 0, .row 4 63, .none, 8, .f32, .f32, .rne, .wrap, 0⟩),
     (vW 0x10 0 0 dV8 dV4 dNone 8 0 0 4 0 0, .vsig ⟨0, 0, .row 8 0, .row 4 63, .none, 8, .f32, .f32, .rsr, .wrap, 0⟩)] = true := by decide

theorem test_decode_vector_others : allDecode 96
    [(vW 0x11 0 0 dV8 dV4 dScal 8 11 11 0 0 0xFFFF, .vand ⟨0, 0, .row 8 0, .row 4 63, .scalar, 8, .i32, .i32, .rne, .wrap, 0xFFFF⟩),
     (vW 0x12 0 0 dV8 dV4 dV2 8 11 11 0 0 0, .vor ⟨0, 0, .row 8 0, .row 4 63, .row 2 1, 8, .i32, .i32, .rne, .wrap, 0⟩),
     (vW 0x13 0 0 dV8 dV4 dV2 8 11 11 0 0 0, .vxor ⟨0, 0, .row 8 0, .row 4 63, .row 2 1, 8, .i32, .i32, .rne, .wrap, 0⟩),
     (vW 0x14 0 0 dV8 dV4 dV2 8 12 12 0 0 0, .vshl ⟨0, 0, .row 8 0, .row 4 63, .row 2 1, 8, .i16, .i16, .rne, .wrap, 0⟩),
     (vW 0x15 0 0 dV8 dV4 dScal 8 15 15 0 0 7, .vshr ⟨0, 0, .row 8 0, .row 4 63, .scalar, 8, .n8, .n8, .rne, .wrap, 7⟩),
     (vW 0x16 0 0 dV8 dV4 dV2 8 14 14 0 0 0, .vsha ⟨0, 0, .row 8 0, .row 4 63, .row 2 1, 8, .i8, .i8, .rne, .wrap, 0⟩),
     (vW 0x17 0 0 dV8 dV4 dV2 8 22 0 1 1 1, .vcvt ⟨0, 0, .row 8 0, .row 4 63, .row 2 1, 8, .dx8, .f32, .rtz, .sat, 1⟩),
     (vW 0x18 0 0 dSq1 dV4 dNone 8 14 14 0 0 0, .vpack ⟨0, 0, .sq 1, .row 4 63, .none, 8, .i8, .i8, .rne, .wrap, 0⟩),
     (vW 0x19 0 0 dV8 dLq3 dNone 8 16 16 0 0 0, .vunpack ⟨0, 0, .row 8 0, .lq 3, .none, 8, .i4, .i4, .rne, .wrap, 0⟩),
     -- VCMP: COND [15:13], VMD [12:10], CQ [9:8]
     (vW 0x1A 0 0 0 dV4 dV2 8 0 0 0 0 0x9600, .vcmp ⟨0, 0, .row 0 0, .row 4 63, .row 2 1, 8, .f32, .f32, .rne, .wrap, 0x9600⟩),
     (vW 0x1B 0 0 dV8 dV4 dV2 3 0 0 0 0 0, .vsel ⟨0, 0, .row 8 0, .row 4 63, .row 2 1, 3, .f32, .f32, .rne, .wrap, 0⟩),
     -- VMOP: FN [15:12], MD [11:9], MA [8:6], MB [5:3], CQ [2:1]
     (vW 0x1C 0 0 0 dNone dNone 8 0 0 0 0 0x1298, .vmop ⟨0, 0, .row 0 0, .none, .none, 8, .f32, .f32, .rne, .wrap, 0x1298⟩),
     (vW 0x1D 0 0 dV8 dNone dV2 8 0 0 0 0 1, .vperm ⟨0, 0, .row 8 0, .none, .row 2 1, 8, .f32, .f32, .rne, .wrap, 1⟩),
     (vW 0x1E 0 0 dV8 dV4 dNone 8 0 0 0 0 0x7F, .vbcast ⟨0, 0, .row 8 0, .row 4 63, .none, 8, .f32, .f32, .rne, .wrap, 0x7F⟩),
     (vW 0x1F 0 0 dV8 dV4 dNone 8 11 11 0 1 2, .vred ⟨0, 0, .row 8 0, .row 4 63, .none, 8, .i32, .i32, .rne, .sat, 2⟩),
     (vW 0x20 0 0 dV8 dV4 dNone 8 0 0 0 0 0, .vscan ⟨0, 0, .row 8 0, .row 4 63, .none, 8, .f32, .f32, .rne, .wrap, 0⟩),
     -- VDEFER: DTAG [15:8], REST [7:5], CQ [4]
     (vW 0x21 0 0 0 dV4 dV2 2 0 0 0 0 0xAB30, .vdefer ⟨0, 0, .row 0 0, .row 4 63, .row 2 1, 2, .f32, .f32, .rne, .wrap, 0xAB30⟩),
     -- VDRAIN: VMD [15:13], FULL [12], CQ [11]
     (vW 0x22 0 0 dV8 dNone dNone 8 0 0 0 0 0xB800, .vdrain ⟨0, 0, .row 8 0, .none, .none, 8, .f32, .f32, .rne, .wrap, 0xB800⟩),
     (vW 0x23 0 0 dV8 dScal dNone 8 0 0 0 0 0xC000, .vmov ⟨0, 0, .row 8 0, .scalar, .none, 8, .f32, .f32, .rne, .wrap, 0xC000⟩),
     -- VREP: REB [15:12], LEN [11:0]
     (vW 0x24 0 0 0 0 0 0 0 0 0 0 0xF003, .vrep ⟨0, 0, .row 0 0, .row 0 0, .row 0 0, 0, .f32, .f32, .rne, .wrap, 0xF003⟩),
     (vW 0x25 0 0 dV8 dV4 dV2 8 0 0 2 0 0x3FF, .vsacc ⟨0, 0, .row 8 0, .row 4 63, .row 2 1, 8, .f32, .f32, .rdn, .wrap, 0x3FF⟩),
     (vW 0x26 0 0 0 dV4 dNone 8 0 0 0 0 2, .vseed ⟨0, 0, .row 0 0, .row 4 63, .none, 8, .f32, .f32, .rne, .wrap, 2⟩)] = true := by decide

/-! ### Matrix words (R47, R48) -/

/-- The common part of a Uslyn-M word with a MOD16 payload. -/
def mW (op pop push fa fb fd rnd ovf acc acc2 sa sb dk spar ta tb ebb mx nx kx xsel mod : Nat) : Nat :=
  fields [(8, op), (4, pop), (4, push), (5, fa), (5, fb), (5, fd), (3, rnd), (1, ovf), (2, acc), (2, acc2), (4, sa), (4, sb), (3, dk),
    (4, spar), (1, ta), (1, tb), (4, ebb), (4, 0), (7, mx), (7, nx), (7, kx), (3, xsel), (8, 0), (16, mod), (80, 0)]

theorem test_decode_matrix : allDecode 192
    [(fields [(8, 0x01), (4, 3), (4, 5), (40, 0), (4, 9), (25, 0), (3, 1), (8, 0), (3, 5), (2, 2), (56, 0xABCDEF0123456),
        (24, 0xFFFFC0), (11, 2047)], .nset 3 5 (some 9) 5 2 0xABCDEF0123456 0xFFFFC0 2047),
     (fields [(8, 0x01), (80, 0), (8, 0), (3, 0), (2, 1), (56, 64), (24, 128), (11, 0)], .nset 0 0 none 0 1 64 128 0),
     (fields [(8, 0x02), (4, 1), (4, 2), (80, 0), (4, 10), (92, 0)], .ngo 1 2 10),
     (fields [(8, 0x0B), (8, 0), (80, 0), (4, 7), (12, 4095), (80, 0)], .mrep 7 4095),
     (mW 0x03 15 7 14 14 11 0 1 2 1 6 4 0 0 1 1 3 127 63 15 5 0x1800,
       .mmac ⟨15, 7, .i8, .i8, .i32, .rne, .sat, 2, 1, .acc2, .rb false, .acc, .dense, true, true, 3, 127, 63, 15, 5, 0x1800⟩),
     (mW 0x03 0 0 5 5 0 3 0 0 0 0 8 0 1 0 0 0 0 0 3 0 0,
       .mmac ⟨0, 0, .f8e4, .f8e4, .f32, .rup, .wrap, 0, 0, .lq 0, .ch true, .acc, .s24, false, false, 0, 0, 0, 3, 0, 0⟩),
     (mW 0x04 0 0 22 24 0 4 0 0 0 5 7 0 0 0 0 0 31 31 31 0 0x0800,
       .mmacq ⟨0, 0, .dx8, .dx4, .f32, .rsr, .wrap, 0, 0, .rb true, .ch false, .acc, .dense, false, false, 0, 31, 31, 31, 0, 0x0800⟩),
     (mW 0x05 0 0 0 0 0 1 0 3 0 3 7 0 0 0 0 0 15 15 0 0 0x33FF,
       .msacc ⟨0, 0, .f32, .f32, .f32, .rtz, .wrap, 3, 0, .lq 3, .ch false, .acc, .dense, false, false, 0, 15, 15, 0, 0, 0x33FF⟩),
     (mW 0x06 0 0 3 0 3 0 0 0 0 8 0 7 0 1 0 0 3 7 0 0 0,
       .mloadr ⟨0, 0, .f16, .f32, .f16, .rne, .wrap, 0, 0, .ch true, .lq 0, .rb true, .dense, true, false, 0, 3, 7, 0, 0, 0⟩),
     (mW 0x07 0 0 0 0 0 0 0 0 0 2 0 0 0 0 0 0 0 0 0 0 0,
       .mloads ⟨0, 0, .f32, .f32, .f32, .rne, .wrap, 0, 0, .lq 2, .lq 0, .acc, .dense, false, false, 0, 0, 0, 0, 0, 0⟩),
     (mW 0x08 0 0 0 0 0 0 0 3 0 0 0 0 0 0 0 0 127 127 0 0 0x1000,
       .mzero ⟨0, 0, .f32, .f32, .f32, .rne, .wrap, 3, 0, .lq 0, .lq 0, .acc, .dense, false, false, 0, 127, 127, 0, 0, 0x1000⟩),
     (mW 0x09 0 0 0 0 3 2 1 1 0 0 0 5 0 1 0 0 3 3 0 0 0,
       .mstore ⟨0, 0, .f32, .f32, .f16, .rdn, .sat, 1, 0, .lq 0, .lq 0, .moq, .dense, true, false, 0, 3, 3, 0, 0, 0⟩),
     (mW 0x09 0 0 11 0 14 0 1 1 0 0 0 0 0 0 0 0 3 3 0 0 0x0308,
       .mstore ⟨0, 0, .i32, .f32, .i8, .rne, .sat, 1, 0, .lq 0, .lq 0, .acc, .dense, false, false, 0, 3, 3, 0, 0, 0x0308⟩),
     (mW 0x0A 0 0 0 0 4 4 0 1 0 0 0 6 0 0 0 0 3 3 0 0 0x0040,
       .mact ⟨0, 0, .f32, .f32, .bf16, .rsr, .wrap, 1, 0, .lq 0, .lq 0, .rb false, .dense, false, false, 0, 3, 3, 0, 0, 0x0040⟩),
     (mW 0x10 0 0 3 0 0 0 0 1 0 4 1 0 0 0 0 0 3 7 7 0 0x0800,
       .relax ⟨0, 0, .f16, .f32, .f32, .rne, .wrap, 1, 0, .rb false, .lq 1, .acc, .dense, false, false, 0, 3, 7, 7, 0, 0x0800⟩),
     (mW 0x14 0 0 0 0 0 0 0 1 2 5 6 0 0 0 0 0 3 7 7 0 0x0400,
       .relaxb ⟨0, 0, .f32, .f32, .f32, .rne, .wrap, 1, 2, .rb true, .acc2, .acc, .dense, false, false, 0, 3, 7, 7, 0, 0x0400⟩),
     -- MXSET: REG [15:10], SRC [9]; MXREAD: REG [15:10]
     (mW 0x11 0 0 0 0 0 0 0 0 0 7 0 0 0 0 0 0 9 9 0 0 0x4E00,
       .mxset ⟨0, 0, .f32, .f32, .f32, .rne, .wrap, 0, 0, .ch false, .lq 0, .acc, .dense, false, false, 0, 9, 9, 0, 0, 0x4E00⟩),
     (mW 0x12 0 1 0 0 0 0 0 0 0 0 0 1 0 0 0 0 2 0 0 0 0x2400,
       .mxread ⟨0, 1, .f32, .f32, .f32, .rne, .wrap, 0, 0, .lq 0, .lq 0, .sq 0, .dense, false, false, 0, 2, 0, 0, 0, 0x2400⟩),
     (mW 0x13 0 0 5 0 0 0 0 0 0 2 0 7 0 0 0 0 9 0 0 0 0,
       .mpatch ⟨0, 0, .f8e4, .f32, .f32, .rne, .wrap, 0, 0, .lq 2, .lq 0, .rb true, .dense, false, false, 0, 9, 0, 0, 0, 0⟩)] = true := by decide

/-! ### An ill-formed term for every check -/

/-- The empty guard. -/
def g0 : Guard := ⟨0, false, false⟩

/-- Every term of the list is refused for the reason beside it. -/
def allRefused (l : List (Instr × Reject)) : Bool := l.all fun x => decide (illFormed x.1 = some x.2) && !wellFormed x.1

/-- `vadd.f32 v8, v4-1, v2+1`, and the fields of other forms from it. -/
def vf : VFields := ⟨0, 0, .row 8 0, .row 4 63, .row 2 1, 8, .f32, .f32, .rne, .wrap, 0⟩

/-- `mmac.f32` of lq0 and lq1 onto acc0, one row, column and product. -/
def mf : MFields := ⟨0, 0, .f32, .f32, .f32, .rne, .wrap, 0, 0, .lq 0, .lq 1, .acc, .dense, false, false, 0, 0, 0, 0, 0, 0⟩

theorem test_wellformed_bases : wellFormed (.vadd vf) = true ∧ wellFormed (.mmac mf) = true ∧ wellFormed (.nop g0) = true := by decide

theorem test_refuses_control : allRefused
    [(.nop ⟨0, true, false⟩, .reservedGuard), (.aadd ⟨0, true⟩ atomOps, .reservedGuard), (.shlImm g0 1 1 64, .unlistedValue),
     (.shrImm g0 1 1 255, .unlistedValue), (.shaImm g0 1 1 64, .unlistedValue), (.rotImm g0 1 1 64, .unlistedValue),
     (.cmp g0 0 1 1 .eq, .unlistedValue), (.sfcmp g0 0 1 1 .eq, .unlistedValue), (.sfadd g0 1 1 1 .rsr, .formatClass),
     (.sfmul g0 1 1 1 .rsr, .formatClass), (.sffma g0 1 1 1 .rsr, .formatClass), (.sfmin g0 1 1 1 .rsr, .formatClass),
     (.sfmax g0 1 1 1 .rsr, .formatClass), (.sfcvt g0 1 1 true .f16 .rsr .wrap, .formatClass), (.zloop g0 0 0 1 0, .unlistedValue),
     (.kcopy g0 ⟨1, 2, 31, 0, true⟩, .combination), (.kcopy2d g0 ⟨1, 2, 31, 0, false⟩, .combination),
     (.kfill g0 ⟨1, 2, 31, 0, true⟩, .combination), (.kgather g0 ⟨1, 2, 31, 0, true⟩, .combination),
     (.kscatter g0 ⟨1, 2, 31, 0, true⟩, .combination), (.kpair g0 ⟨1, 2, 30, 0, true⟩, .combination),
     (.barinit g0 31 0, .combination), (.fence g0 .cl .rlx, .unlistedValue), (.rdv g0 ⟨false, false, false, false, false⟩, .unlistedValue),
     (.nset 0 8 none 0 0 0 0 0, .reservedBits), (.nset 0 0 none 6 0 0 0 0, .unlistedValue), (.ngo 0 8 1, .reservedBits),
     (.ngo 0 0 0, .unlistedValue), (.mrep 0 0, .unlistedValue)] = true := by decide

theorem test_refuses_vector : allRefused
    [(.vadd { vf with push := 8 }, .reservedBits), (.vadd { vf with mask := 9 }, .reservedCode), (.vadd { vf with dd := .lq 0 }, .operandKind),
     (.vadd { vf with da := .sq 0 }, .operandKind), (.vadd { vf with db := .none }, .operandKind),
     (.vadd { vf with da := .scalar, db := .scalar }, .combination), (.vadd { vf with fmt := .f64, fmt2 := .f64 }, .combination),
     (.vadd { vf with fmt := .f8e4, fmt2 := .f8e4 }, .formatClass), (.vadd { vf with fmt2 := .f16 }, .formatClass),
     (.vmin { vf with rnd := .rtz }, .formatClass), (.vmin { vf with ovf := .sat }, .formatClass),
     (.vadd { vf with fmt := .i32, fmt2 := .i32, rnd := .rsr }, .formatClass), (.vadd { vf with mod := 1 }, .reservedBits),
     (.vcvt { vf with mod := 1 }, .combination), (.vcvt { vf with fmt := .dx8, mod := 1, db := .none }, .operandKind),
     (.vcmp { vf with dd := .row 0 0, mod := 0xA000 }, .unlistedValue),
     (.vcmp { vf with dd := .row 0 0, fmt := .i32, fmt2 := .i32, mod := 0x8000 }, .combination),
     (.vcmp { vf with dd := .row 0 0, mod := 0x0300 }, .unlistedValue),
     (.vmop { vf with dd := .row 0 0, da := .none, db := .none, mod := 0xB000 }, .unlistedValue),
     (.vmop { vf with dd := .row 0 0, da := .none, db := .none, mod := 0x0006 }, .unlistedValue),
     (.vmop { vf with dd := .row 0 0, da := .none, db := .none, mask := 0 }, .combination),
     (.vmop { vf with dd := .row 0 0, db := .none }, .operandKind), (.vmop { vf with da := .none, db := .none }, .operandKind),
     (.vmop { vf with da := .none, db := .none, mod := 0x9200 }, .unusedField),
     (.vmop { vf with dd := .row 0 0, da := .none, db := .none, mod := 0x5040 }, .unusedField),
     (.vmop { vf with dd := .row 0 0, da := .none, db := .none, mod := 0x4008 }, .unusedField),
     (.vperm { vf with mod := 1 }, .operandKind), (.vred { vf with db := .none, mod := 3 }, .unlistedValue),
     (.vdrain { vf with da := .none, db := .none, mask := 0 }, .combination),
     (.vseed { vf with dd := .row 0 0, db := .none, mod := 3 }, .unlistedValue), (.vrep { vf with mod := 1 }, .unusedField),
     (.vrep ⟨0, 0, .row 0 0, .row 0 0, .row 0 0, 0, .f32, .f32, .rne, .wrap, 0xF000⟩, .unlistedValue)] = true := by decide

/-- The fields that MLOADS, MZERO and the like leave zero. -/
def mz : MFields := { mf with sb := .lq 0 }

theorem test_refuses_matrix_fields : allRefused
    [(.mmac { mf with push := 8 }, .reservedBits), (.mzero { mz with fa := .f16 }, .unusedField), (.mzero { mz with fb := .f16 }, .unusedField),
     (.mzero { mz with fd := .f16 }, .unusedField), (.mzero { mz with rnd := .rtz }, .unusedField), (.mloads { mz with acc := 1 }, .unusedField),
     (.mmac { mf with acc2 := 1 }, .unusedField), (.mzero { mz with sa := .lq 1 }, .operandKind), (.mzero mf, .operandKind),
     (.mzero { mz with dk := .moq }, .operandKind), (.mzero { mz with spar := .s24 }, .unusedField), (.mzero { mz with ta := true }, .unusedField),
     (.mzero { mz with tb := true }, .unusedField), (.mzero { mz with xsel := 4 }, .unusedField), (.mloads { mz with mx := 1 }, .unusedField),
     (.mloads { mz with nx := 1 }, .unusedField), (.mzero { mz with kx := 1 }, .unusedField), (.mmac { mf with mod := 1 }, .reservedBits),
     (.mloads { mz with ebb := 1 }, .unusedField), (.mmacq { mf with acc := 1 }, .unusedField), (.mmac { mf with ebb := 14, xsel := 4 }, .combination)] = true := by decide

theorem test_refuses_matrix_forms : allRefused
    [(.mmac { mf with spar := .s24 }, .combination), (.mmac { mf with fa := .i8, fb := .i8, fd := .i32, spar := .s24 }, .combination),
     (.mmac { mf with fa := .i8, fb := .i8, fd := .i32, spar := .cvb, ta := true }, .combination),
     (.mmac { mf with fa := .dx8, fb := .dx8 }, .combination), (.mmacq { mf with kx := 31 }, .combination),
     (.mmacq { mf with fa := .dx8, fb := .dx8 }, .combination), (.mmacq { mf with fa := .dx8, fb := .dx8, kx := 63 }, .combination),
     (.mmac { mf with fa := .f64 }, .combination), (.mmac { mf with fa := .i8 }, .combination), (.mmac { mf with fd := .i32 }, .combination),
     (.mmac { mf with fa := .i8, fb := .i8 }, .combination), (.mmac { mf with rnd := .rsr }, .combination),
     (.mmac { mf with fa := .f64, fb := .f64, fd := .f64, acc := 1 }, .combination), (.mmac { mf with mod := 0xC000 }, .unlistedValue),
     (.mmac { mf with mod := 0x4000 }, .combination), (.msacc { mf with rnd := .rsr }, .combination),
     (.mloadr { mz with dk := .rb false, fd := .f16 }, .formatClass), (.mloadr { mz with dk := .rb true, fa := .f64, fd := .f64 }, .combination),
     (.mstore { mz with fa := .f16 }, .formatClass), (.mstore { mz with dk := .moq, mod := 8 }, .combination),
     (.mstore { mz with fa := .f64, acc := 1 }, .combination), (.mact { mz with fa := .f16 }, .formatClass),
     (.mact { mz with mod := 0x0050 }, .unlistedValue), (.mact { mz with fd := .f16 }, .combination),
     (.mact { mz with dk := .rb true, fd := .f64 }, .combination), (.mact { mz with dk := .moq, fa := .f64, acc := 1 }, .combination),
     (.relax { mz with sa := .rb false, fa := .i8 }, .formatClass), (.relax { mz with sa := .rb false, mod := 0x4000 }, .unlistedValue),
     (.relax { mz with sa := .rb false, sb := .acc2 }, .combination), (.relax { mz with sa := .rb false, kx := 1 }, .combination),
     (.relaxb { mz with sa := .rb false, rnd := .rsr }, .combination), (.mxset { mz with mod := 0x2000 }, .unlistedValue),
     (.mxread { mz with dk := .sq 0, mod := 0x5000 }, .unlistedValue), (.mpatch { mz with dk := .rb true, fa := .f64 }, .combination)] = true := by
  decide

/-- Whether a decoder refuses for this reason. -/
def refuses (r : Except Reject Instr) (why : Reject) : Bool :=
  match r with
  | .ok _ => false
  | .error e => decide (e = why)

/-- R51: patterns that no table assigns are refused by name. -/
theorem test_decode_refuses : (refuses (decodeS 0) .unassignedOpcode && refuses (decodeS (sWord 0x3F [(21, 0)])) .unassignedOpcode &&
    refuses (decodeS (wReg 0x01 1 1 1 22)) .unlistedValue && refuses (decodeV 0) .unassignedOpcode &&
    refuses (decodeV (vW 0x01 0 0 dV8 dV4 dV2 9 0 0 0 0 0)) .reservedCode && refuses (decodeM 0) .unassignedOpcode) = true := by decide

/-- The words that chapters 4 to 10 of the spec work out for compact lines without a guard. -/
theorem test_decode_worked_control : allDecode 32
    [(0x080500FF, .movi g0 5 0xFF), (0x0885FFFF, .movh g0 5 0xFFFF), (0x09883600, .ldOffset g0 8 6 .d 0), (0x0A082F48, .stIndex g0 8 5 .d 9),
     (0x098D3601, .ldOffset g0 13 6 .d 1), (0x16800000, .mark g0), (0x16802000, .sbar g0 .sr), (0x16802080, .sbar g0 .sw),
     (0x16802100, .sbar g0 .m), (0x16805600, .fence g0 .pkg .ar), (0x16807000, .drainnt g0 .pkg), (0x16808000, .cinv g0),
     (0x1687A024, .kpub g0 7 9), (0x16040160, .fadd g0 4 5 .pkg), (0x16060321, .fset g0 6 12 .pkg), (0x160700E2, .wait g0 7 3 .pkg),
     (0x16050293, .barv g0 5 10 .die), (0x16080324, .barw g0 8 12 .pkg), (0x16020285, .barinit g0 2 10), (0x171A0000, .talloc g0 26),
     (0x17006001, .tretire g0 12), (0x17001802, .tset g0 3), (0x17070003, .tget g0 7), (0x170F2B34, .ldx g0 15 5 12 .d),
     (0x171B6005, .tstat g0 27 12), (0x18000600, .rdv g0 ⟨false, false, true, true, false⟩), (0x18053001, .ebset g0 5 3),
     (0x18062002, .ebget g0 6 2), (0x1804D003, .tkset g0 4 13), (0x18076004, .tkget g0 7 6), (0x18010005, .strid g0 1),
     (0x008531C0, .add g0 5 6 7), (0x010530FC, .addImm g0 5 6 0xFC), (0x01020C03, .shlImm g0 2 1 3), (0x00853014, .clz g0 5 6),
     (0x01881902, .cmp g0 2 3 4 .lt), (0x020531D8, .sel g0 5 6 7 3), (0x028531CA, .sffma g0 5 6 7 .rtz), (0x030410C2, .sfcmp g0 1 2 3 .lt),
     (0x03884D66, .sfcvt g0 8 9 true .i32 .rtz .sat), (0x04040006, .pbr g0 1 6), (0x0407FFFD, .pbr g0 1 0x3FFFD), (0x04904800, .pbri g0 4 9),
     (0x25040000, .br ⟨1, false, false⟩ 1), (0x058A0000, .brq g0 2 true), (0x05880000, .brq g0 2 false), (0x060C0000, .call g0 3),
     (0x06800000, .ret g0), (0x07082005, .zloop g0 1 0 4 5), (0x078A2800, .zlset g0 1 .zlc 5), (0x07903001, .zlsv g0 2 6),
     (0x07903002, .zlrs g0 2 6), (0x20A531C0, .add ⟨1, false, true⟩ 5 6 7)] = true := by decide

/-- The words that chapters 12 to 19 of the spec work out. -/
theorem test_decode_worked_system : allDecode 32
    [(0x18842980, .launch g0 4 5 6), (0x18870001, .yield g0 7), (0x18831002, .prio g0 3 2), (0x18810003, .nodeid g0 1),
     (0x11065118, .aadd ⟨0, false⟩ ⟨3, 5, 2, 0, true, .pkg, .rlx⟩), (0x11086019, .aadd ⟨0, false⟩ ⟨4, 6, 0, 0, true, .pkg, .acq⟩),
     (0x0A0B4C0E, .stOffset g0 11 9 .w 14), (0x188C02C0, .launch g0 12 0 11), (0x1A800000, .nop g0), (0x1A840005, .trap g0 5),
     (0x1A880000, .eret g0), (0x1A8C0007, .brk g0 7), (0x191B0001, .csrr g0 27 1), (0x198D0007, .csrw g0 13 7), (0x1A050008, .csrs g0 5 8),
     (0x5A840001, .trap ⟨2, false, false⟩ 1), (0x07808001, .zlsv g0 0 16), (0x1B000C00, .swpt g0 3), (0x1B050801, .pwrq g0 5 2),
     (0x1B060402, .pwreq g0 6 1), (0x1B943000, .qarm g0 20 6), (0x1B95A001, .qpost g0 21 20 0), (0x1B96A102, .qwait g0 22 20 4),
     (0x1B97A003, .qabort g0 23 20), (0x1B98A004, .qstat g0 24 20), (0x0A033E00, .stOffset g0 3 7 .d 0)] = true ∧
  allDecode 96
    [(0x03000180_03021404_00003F00, .vmul ⟨0, 0, .row 3 0, .row 3 0, .scalar, 8, .f32, .f32, .rne, .wrap, 0x3F00⟩),
     (0x1A000000_04000A04_00004900, .vcmp ⟨0, 0, .row 0 0, .row 4 0, .row 5 0, 8, .f32, .f32, .rne, .wrap, 0x4900⟩),
     (0x21000000_0A001600_80000770, .vdefer ⟨0, 0, .row 0 0, .row 10 0, .row 11 0, 1, .f32, .f32, .rne, .wrap, 0x0770⟩),
     (0x24000000_00000000_00003002, .vrep ⟨0, 0, .row 0 0, .row 0 0, .row 0 0, 0, .f32, .f32, .rne, .wrap, 0x3002⟩)] = true ∧
  allDecode 192
    [(0x10000000_00900000_040C1800_00000000_00000000_00000000, .relax { mf with sa := .rb false, sb := .ch true, mx := 2, nx := 3, kx := 3 }),
     (0x01000000_00000000_00000000_00001800_00800A00_00008002, .nset 0 0 none 0 0 0x30000100140 16 2),
     (0x02000000_00000000_00000000_10000000_00000000_00000000, .ngo 0 0 1),
     (0x14000000_088E0000_040C1800_04000000_00000000_00000000,
       .relaxb { mf with acc := 1, sa := .rb false, sb := .ch false, mx := 2, nx := 3, kx := 3, mod := 0x0400 })] = true := by decide

/-! ### A small state -/

/-- The code of `base`: 64 words of zero bytes from 0x1000 on. -/
def code0 : Code := { Code.empty with ctrlVa := 0x1000, ctrl := List.replicate 256 0 }

/-- Its strand: strand 0 of a gang of 2 on node 0, PC at 0x1008, 64 KiB of scratchpad. -/
def strand0 : Strand := { Strand.launch with gang := 2, spadSize := 65536, code := code0, ctl := { Ctl.launch with pc := 0x1008 } }

/-- Cluster 0 of die 0 runs that strand. -/
def base : State := { State.reset with me := { Cluster.reset 0 0 with status := .running, st := strand0 } }

/-- With general registers. -/
def withG (l : List (Reg × Word)) (s : State) : State := l.foldl (fun s x => s.writeG x.1 x.2) s

/-- Something of the next state. -/
def after' {α : Type} (o : Out) (f : State → α) : Option α :=
  match o with
  | .next t => some (f t)
  | _ => none

/-- Whether the instruction, with G5 and G6 as given, leaves `v` in G4. -/
def gives (i : Instr) (a b v : Word) : Bool := decide (after' (exec i (withG [(5, a), (6, b)] base)) (fun t => t.getG 4) = some v)

/-- Whether it leaves `v` in P2. -/
def sets (i : Instr) (a b : Word) (v : Bool) : Bool := decide (after' (exec i (withG [(5, a), (6, b)] base)) (fun t => t.ctl.getP 2) = some v)

/-! ### Values of the integer and float words: R200, R203, R204, R219 to R221, by hand -/

/-- -1. -/
def ones : Word := BitVec.allOnes 64

theorem test_alu : (gives (.add g0 4 5 6) ones 2 1 && gives (.sub g0 4 5 6) 0 1 ones && gives (.mul g0 4 5 6) 3 ones (-3) &&
    gives (.mulh g0 4 5 6) ones 1 ones && gives (.mulh g0 4 5 6) (2 ^ 63) (2 ^ 63) (2 ^ 62) && gives (.and g0 4 5 6) 12 10 8 &&
    gives (.or g0 4 5 6) 12 10 14 && gives (.xor g0 4 5 6) 12 10 6 && gives (.andn g0 4 5 6) 12 10 4 && gives (.min g0 4 5 6) ones 1 ones &&
    gives (.max g0 4 5 6) ones 1 1 && gives (.minn g0 4 5 6) ones 1 1 && gives (.maxn g0 4 5 6) ones 1 ones &&
    gives (.clz g0 4 5) 0 0 64 && gives (.clz g0 4 5) 1 0 63 && gives (.popc g0 4 5) ones 0 64) = true := by decide +kernel

theorem test_division : (gives (.divs g0 4 5 6) (2 ^ 63) ones (2 ^ 63) && gives (.divs g0 4 5 6) (-7) 2 (-3) && gives (.divs g0 4 5 6) 7 0 ones &&
    gives (.divn g0 4 5 6) ones 2 (2 ^ 63 - 1) && gives (.divn g0 4 5 6) 7 0 ones && gives (.rems g0 4 5 6) (-7) 2 ones &&
    gives (.rems g0 4 5 6) (2 ^ 63) ones 0 && gives (.rems g0 4 5 6) 7 0 7 && gives (.remn g0 4 5 6) 7 4 3 &&
    gives (.remn g0 4 5 6) 7 0 7) = true := by decide +kernel

theorem test_shifts : (gives (.shl g0 4 5 6) 1 65 2 && gives (.shr g0 4 5 6) ones 63 1 && gives (.sha g0 4 5 6) (2 ^ 63) 63 ones &&
    gives (.rot g0 4 5 6) 1 1 (2 ^ 63) && gives (.rot g0 4 5 6) 5 64 5 && gives (.shlImm g0 4 5 63) 1 0 (2 ^ 63) &&
    gives (.shrImm g0 4 5 4) 0xF0 0 0xF && gives (.shaImm g0 4 5 4) (-16) 0 ones && gives (.rotImm g0 4 5 4) 0x1F 0 (0xF000000000000001)) = true := by
  decide +kernel

theorem test_immediates : (gives (.addImm g0 4 5 0xFF) 0 0 ones && gives (.andImm g0 4 5 0x80) ones 0 (-128) && gives (.orImm g0 4 5 0x7F) 0x80 0 0xFF &&
    gives (.xorImm g0 4 5 0xFF) 0 0 ones && gives (.movi g0 4 0x8000) 0 0 (-32768) && gives (.lea g0 4 5 0x400) 1024 0 0 &&
    gives (.sel g0 4 5 6 0) 7 8 7 && gives (.sel g0 4 5 6 1) 7 8 8) = true := by decide +kernel

/-- The four words that chapter 4 works out: 0x00FF, 0xFFFF, 0xFFF8, 0x0000. -/
theorem test_movh : after' (exec (.movh g0 5 0xFFFF) (withG [(5, 0xFF)] base)) (fun t => t.getG 5) = some 0xFFFFFF ∧
    after' (exec (.movh g0 5 0) (withG [(5, 0x000000FFFFFFFFF8)] base)) (fun t => t.getG 5) = some 0x00FFFFFFFFF80000 := by decide +kernel

theorem test_compare : (sets (.cmp g0 2 5 6 .eq) 1 1 true && sets (.cmp g0 2 5 6 .ne) 1 1 false && sets (.cmp g0 2 5 6 .lt) ones 1 true &&
    sets (.cmp g0 2 5 6 .ge) ones 1 false && sets (.cmp g0 2 5 6 .ltn) ones 1 false && sets (.cmp g0 2 5 6 .gen) ones 1 true &&
    sets (.sfcmp g0 2 5 6 .eq) 0x80000000 0 true && sets (.sfcmp g0 2 5 6 .lt) 0x7FC00000 0 false && sets (.sfcmp g0 2 5 6 .un) 0x7FC00000 0 true &&
    sets (.sfcmp g0 2 5 6 .le) 0x3F800000 0x3F800000 true && sets (.sfcmp g0 2 5 6 .ne) 0x7FC00000 0 true) = true := by decide +kernel

theorem test_float : (gives (.sfadd g0 4 5 6 .rne) 0xFFFFFFFF3F800000 0x3F800000 0x40000000 && gives (.sfadd g0 4 5 6 .rne) 0x7F800000 0xFF800000 0x7FC00000 &&
    gives (.sfmul g0 4 5 6 .rne) 0x7F800000 0 0x7FC00000 && gives (.sfmul g0 4 5 6 .rne) 0x40400000 0xBF800000 0xC0400000 &&
    -- G4 holds 0 before: the sum is 3 × 0.5 + 0
    gives (.sffma g0 4 5 6 .rne) 0x40400000 0x3F000000 0x3FC00000 && gives (.sfmin g0 4 5 6 .rne) 0x80000000 0 0x80000000 &&
    gives (.sfmin g0 4 5 6 .rne) 0x7FC00000 0x3F800000 0x3F800000 && gives (.sfmax g0 4 5 6 .rne) 0x80000000 0 0 &&
    -- 1 + 2^-24 lies half way between two F32 values
    gives (.sfadd g0 4 5 6 .rne) 0x3F800000 0x33800000 0x3F800000 && gives (.sfadd g0 4 5 6 .rup) 0x3F800000 0x33800000 0x3F800001) = true := by decide +kernel

theorem test_convert : (gives (.sfcvt g0 4 5 true .i8 .rne .sat) 0x43960000 0 127 && gives (.sfcvt g0 4 5 true .i8 .rne .wrap) 0x43960000 0 44 &&
    gives (.sfcvt g0 4 5 true .i32 .rne .wrap) 0x40200000 0 2 && gives (.sfcvt g0 4 5 true .i32 .rtz .sat) 0xC0200000 0 (-2) &&
    gives (.sfcvt g0 4 5 false .i8 .rne .wrap) 0xFF 0 0xBF800000 && gives (.sfcvt g0 4 5 false .n8 .rne .wrap) 0xFF 0 0x437F0000 &&
    gives (.sfcvt g0 4 5 true .f16 .rne .wrap) 0x3F800000 0 0x3C00 && gives (.sfcvt g0 4 5 true .f64 .rne .wrap) 0x3F800000 0 0x3FF0000000000000) = true := by
  decide +kernel

/-! ### Registers, guards, control flow -/

theorem test_g0_discards : after' (exec (.movi g0 0 7) base) (fun t => (t.getG 0, t.ctl.pc)) = some (0, 0x100C) := by decide +kernel

theorem test_guard_false : after' (exec (.movi ⟨1, false, false⟩ 4 7) base) (fun t => (t.getG 4, t.ctl.pc)) = some (0, 0x100C) := by decide +kernel

theorem test_pending_waits : after' (exec (.addImm g0 4 5 1) (base.updSt fun t => { t with pendDst := t.pendDst.set 5 (some 0) })) (fun t =>
    (t.getG 4, t.ctl.pc, t.me.st.stall)) = some (0, 0x1008, true) := by decide +kernel

/-- `base` with BT2 at an address. -/
def aimed (a : Word) : State := base.updCtl fun c => { c with bt := c.bt.set 2 a }

theorem test_branch : after' (exec (.pbr g0 2 0x3FFFD) base) (fun t => t.ctl.getBT 2) = some 0xFFC ∧
    after' (exec (.pbri g0 2 5) (withG [(5, 3)] base)) (fun t => t.ctl.getBT 2) = some 3 ∧
    after' (exec (.br g0 2) (aimed 0x1000)) (fun t => t.ctl.pc) = some 0x1000 ∧
    after' (exec (.call g0 2) (aimed 0x10FC)) (fun t => (t.ctl.pc, t.getG 31)) = some (0x10FC, 0x100C) ∧
    after' (exec (.ret g0) (withG [(31, 0x1010)] base)) (fun t => t.ctl.pc) = some 0x1010 := by decide +kernel

theorem test_branch_traps : after' (exec (.br g0 2) (aimed 0x1002)) (fun t => t.ctl.trp.cause) = some 17 ∧
    after' (exec (.br g0 2) (aimed 0x1100)) (fun t => t.ctl.trp.cause) = some 18 ∧
    after' (exec (.call g0 2) (aimed 0x1100)) (fun t => (t.getG 31, t.ctl.pc, t.me.status)) = some (0, 0x1008, .leaving) := by decide +kernel

theorem test_brq : after' (exec (.brq g0 2 true) ((aimed 0x1000).updCtl fun c => { c with cq := [true, false] })) (fun t => (t.ctl.pc, t.ctl.cq)) =
      some (0x1000, [false]) ∧
    after' (exec (.brq g0 2 true) ((aimed 0x1000).updCtl fun c => { c with cq := [false] })) (fun t => (t.ctl.pc, t.ctl.cq)) = some (0x100C, []) ∧
    after' (exec (.brq g0 2 true) (aimed 0x1000)) (fun t => (t.ctl.pc, t.me.st.stall)) = some (0x1008, true) := by decide +kernel

theorem test_zloop : after' (exec (.zloop g0 1 0 5 3) (withG [(5, 4)] base)) (fun t => (t.ctl.getZL 1, t.ctl.order, t.ctl.pc)) =
      some (⟨0x100C, 0x1014, 3, 0, true, false⟩, [1], 0x100C) ∧
    after' (exec (.zloop g0 1 0 5 3) base) (fun t => ((t.ctl.getZL 1).armed, t.ctl.pc)) = some (false, 0x1018) ∧
    after' (exec (.zloop g0 1 3 5 3) (withG [(5, 4)] base)) (fun t => ((t.ctl.getZL 1).zlc, t.ctl.sp)) = some (5, 1) := by decide +kernel

/-- A set that ends at PC with `n` iterations left. -/
def ending (n : BitVec 32) (stages : BitVec 3) : State :=
  base.updCtl fun c => { c with zl := c.zl.set 0 ⟨0x1000, 0x1008, n, stages, true, false⟩, order := [0], sp := 1 }

theorem test_loop_back : after' (exec (.nop g0) (ending 1 0)) (fun t => (t.ctl.pc, (t.ctl.getZL 0).zlc)) = some (0x1000, 0) ∧
    after' (exec (.nop g0) (ending 0 0)) (fun t => (t.ctl.pc, t.ctl.order)) = some (0x100C, []) ∧
    after' (exec (.nop g0) (ending 1 2)) (fun t => t.ctl.sp) = some 2 := by decide +kernel

theorem test_zlset : after' (exec (.zlset g0 1 .zlc 5) (withG [(5, 9)] base)) (fun t => (t.ctl.getZL 1).zlc) = some 9 ∧
    after' (exec (.zlset g0 1 .zls 5) (withG [(5, 2)] base)) (fun t => t.ctl.trp.cause) = some 20 := by decide +kernel

theorem test_traps : after' (exec (.trap g0 5) base) (fun t => (t.ctl.trp.cause, t.ctl.trp.epc)) = some (0x5001A, 0x100C) ∧
    after' (exec (.illegalEncoding 0) base) (fun t => (t.ctl.trp.cause, t.ctl.trp.epc)) = some (1, 0x1008) ∧
    after' (exec (.brk g0 7) base) (fun t => t.ctl.trp.cause) = some 0x7001B := by decide +kernel

/-- TRP_HVEC names 0x1040 and TRP_HEN the cause USER. -/
def handled : State := base.updCtl fun c => { c with trp := { c.trp with hvec := 0x1041, hen := 2 ^ 26 } }

theorem test_handler : after' (exec (.trap g0 5) handled) (fun t => (t.ctl.pc, t.ctl.trp.h, t.me.status)) = some (0x1040, true, .running) ∧
    after' (exec (.eret g0) (handled.updCtl fun c => { c with trp := { c.trp with h := true, epc := 0x1010 } })) (fun t => (t.ctl.pc, t.ctl.trp.h)) =
      some (0x1010, false) ∧
    after' (exec (.eret g0) base) (fun t => t.ctl.trp.cause) = some 23 := by decide +kernel

theorem test_csr : after' (exec (.csrw g0 5 0x0009) (withG [(5, ones)] base)) (fun t => t.ctl.trp.scr0) = some ones ∧
    after' (exec (.csrr g0 4 0x0009) (base.updCtl fun c => { c with trp := { c.trp with scr0 := 3 } })) (fun t => t.getG 4) = some 3 ∧
    after' (exec (.csrr g0 4 0x8000) base) (fun t => t.ctl.trp.cause) = some 23 := by decide +kernel

theorem test_tokens : after' (exec (.tkset g0 5 13) (withG [(5, 65535)] base)) (fun t => t.ctl.getTok 13) = some 65535 ∧
    after' (exec (.tkset g0 5 13) (withG [(5, 65536)] base)) (fun t => t.ctl.trp.cause) = some 0xD000F ∧
    after' (exec (.tkset g0 5 12) (withG [(5, 1)] base)) (fun t => t.ctl.trp.cause) = some 0xC000F ∧
    after' (exec (.ebset g0 5 15) (withG [(5, 9)] base)) (fun t => t.ctl.getEB 15) = some 9 := by decide +kernel

/-! ### Witnesses: states and operands that meet the hypotheses of the statements about Uslyn-S words -/

/-- Whether a word issues here: `State.ready`, computed. -/
def issuable (s : State) (g : Guard) (rs : List Reg) : Bool :=
  s.ctl.guard g && !s.me.st.pending rs && s.ctl.order.all fun l => !(s.ctl.getZL l).live || decide ((s.ctl.getZL l).zle ≠ s.ctl.pc)

theorem ready_of (s : State) (g : Guard) (rs : List Reg) (h : issuable s g rs = true) : s.ready g rs := by
  simp only [issuable, Bool.and_eq_true, Bool.not_eq_true', List.all_eq_true, Bool.or_eq_true, decide_eq_true_eq] at h
  refine ⟨h.1.1, h.1.2, fun l hl hv => ?_⟩
  rcases h.2 l hl with h | h
  · rw [hv] at h; cases h
  · exact h

theorem test_meets_IntegerWords : base.ready g0 [5, 6] ∧ base.ready g0 [0, 31] ∧ base.ready g0 [5] ∧ base.ready g0 [] :=
  ⟨ready_of _ _ _ (by decide +kernel), ready_of _ _ _ (by decide +kernel), ready_of _ _ _ (by decide +kernel), ready_of _ _ _ (by decide +kernel)⟩

theorem test_meets_CompareAndFloat : base.ready g0 [5, 6] ∧ base.ready g0 [5, 6, 4] ∧ base.ready g0 [5] :=
  ⟨ready_of _ _ _ (by decide +kernel), ready_of _ _ _ (by decide +kernel), ready_of _ _ _ (by decide +kernel)⟩

/-- The lowest and the highest target of the control area, each way a BRQ can go, and RET. -/
theorem test_meets_Branches : base.ready g0 [] ∧ base.ready g0 [5] ∧
    ((aimed 0x1000).ctl.guard g0 = true ∧ (aimed 0x1000).enters ((aimed 0x1000).ctl.getBT 2)) ∧
    (aimed 0x10FC).enters ((aimed 0x10FC).ctl.getBT 2) ∧
    ((aimed 0x1000).updCtl fun c => { c with cq := [true] }).ctl.cq = true :: [] ∧
    ((aimed 0x1000).updCtl fun c => { c with cq := [true] }).enters 0x1000 ∧
    ((aimed 0x1000).updCtl fun c => { c with cq := [false] }).ctl.atEnd 0x1008 = false ∧
    ((withG [(31, 0x1010)] base).me.st.pending [31] = false ∧ (withG [(31, 0x1010)] base).enters ((withG [(31, 0x1010)] base).getG 31)) := by
  refine ⟨ready_of _ _ _ (by decide +kernel), ready_of _ _ _ (by decide +kernel), ?_⟩
  unfold State.enters; decide +kernel

/-- One iteration and the greatest trip counts, plain and staged; and none. -/
theorem test_meets_LoopArms : (∀ n ∈ [1, 2 ^ 32 - 1], let s := withG [(5, BitVec.ofNat 64 n)] base
      s.ctl.guard g0 = true ∧ s.me.st.pending [5] = false ∧ (s.getG 5).toNat = n ∧ n ≠ 0 ∧ s.ctl.atEnd s.ctl.pc = false ∧ n < 2 ^ 32) ∧
    (withG [(5, 2 ^ 32 - 6)] base).ctl.stagedOther 1 = false ∧ 2 ^ 32 - 6 + (7 : BitVec 3).toNat < 2 ^ 32 + 2 ∧
    (base.getG 5).toNat = 0 ∧ base.enters (base.ctl.pc + 4 * (BitVec.setWidth 64 (3 : BitVec 11)) + 4) := by
  unfold State.enters; decide +kernel

/-- An access of the scratchpad's first and last doubleword passes its checks, and so does one of a cached page. -/
theorem looks_spad (s : State) (off n : Nat) (w : Bool) (h : off + n ≤ s.me.st.spadSize) (h1 : off < 2 ^ 19) :
    s.lookup (spadBase + off) n w none = (s, .ok (.spad off)) := by
  have a : ¬ 2 ^ 56 ≤ spadBase + off := by simp only [spadBase]; omega
  simp only [State.lookup, a, if_false, Nat.le_add_right, if_true, Nat.add_sub_cancel_left, h]

theorem finds_spad (s : State) (off n : Nat) (w : Bool) (h : off + n ≤ s.me.st.spadSize) (h1 : off < 2 ^ 19) (h2 : (spadBase + off) % n = 0) :
    s.finds (BitVec.ofNat 64 (spadBase + off)) n w none (s.updSt fun t => t.release .c) (.spad off) := by
  have e : (BitVec.ofNat 64 (spadBase + off)).toNat = spadBase + off := by
    simp only [BitVec.toNat_ofNat, spadBase]; omega
  exact ⟨by rw [e]; simp only [spadBase]; omega, by rw [e]; exact h2, s, by rw [e]; exact looks_spad s off n w h h1, rfl⟩

/-- `base` with a page of 64 KiB at virtual 0x20000 and physical 0x40000 in the TLB: its type, and whether it may be written. -/
def paged (type : Nat) (w : Bool) : State :=
  { base with me := { base.me with tlb := [⟨0, 0x20000, 0x10000, w, w, type, 0x40000⟩] } }

theorem finds_page (type off n : Nat) (w : Bool) (tag : Option (BitVec 20)) (s : State) (hs : s.me.tlb = [⟨0, 0x20000, 0x10000, true, true, type, 0x40000⟩])
    (hv : s.me.st.vi = 0) (h1 : off < 0x10000) (h2 : (0x20000 + off) % n = 0) (ht : tag = none ∨ type = tTw) :
    s.finds (BitVec.ofNat 64 (0x20000 + off)) n w tag (s.updSt fun t => t.release .c) (.mem (0x40000 + off) type) := by
  have e : (BitVec.ofNat 64 (0x20000 + off)).toNat = 0x20000 + off := by simp only [BitVec.toNat_ofNat]; omega
  refine ⟨by rw [e]; omega, by rw [e]; exact h2, s, ?_, rfl⟩
  rw [e]
  have a : ¬ 2 ^ 56 ≤ 0x20000 + off := by omega
  have b : ¬ spadBase ≤ 0x20000 + off := by simp only [spadBase]; omega
  have c : ¬ rsvdBase ≤ 0x20000 + off := by simp only [rsvdBase]; omega
  have d : (0x20000 + off) / 0x10000 * 0x10000 = 0x20000 := by omega
  have x : s.xlate s.me.st.vi (0x20000 + off) w = (s, .ok ⟨0, 0x20000, 0x10000, true, true, type, 0x40000⟩) := by
    simp only [State.xlate, hs, hv]
    rw [List.find?_cons_of_pos]
    simp [TlbEntry.hits, d]
  simp only [State.lookup, a, b, c, if_false, x]
  rcases ht with rfl | rfl
  · simp
  · simp [tTw, tSys]

/-- The base register of the witnesses below: the top doubleword of the scratchpad, or the page. -/
def atSpad : State := withG [(5, 0x00FFFFFFFFF8FFF8), (6, 0)] base

theorem test_meets_LoadsIssue : (atSpad.ready g0 [5] ∧ hasRoom atSpad.me.st.lqu ∧ atSpad.finds (offsetAddr (atSpad.getG 5) 0 .d) 8 false none
      (atSpad.updSt fun t => t.release .c) (.spad 0xFFF8)) ∧
    (atSpad.ready g0 [5, 6] ∧ atSpad.finds (atSpad.getG 5 + atSpad.getG 6) 8 false none (atSpad.updSt fun t => t.release .c) (.spad 0xFFF8)) ∧
    (let s := withG [(5, 0x2FFF8), (6, 3)] (paged tTw true)
     s.ready g0 [5, 6] ∧ tagValueOk (s.getG 6) = true ∧ hasRoom s.me.st.lqu ∧
      s.finds (s.getG 5) 8 false (some ((s.getG 6).setWidth 20)) (s.updSt fun t => t.release .c) (.mem 0x4FFF8 tTw)) := by
  refine ⟨⟨?_, ?_, ?_⟩, ⟨?_, ?_⟩, ?_, ?_, ?_, ?_⟩
  · exact ready_of _ _ _ (by decide +kernel)
  · unfold hasRoom; decide +kernel
  · exact finds_spad atSpad 0xFFF8 8 false (by decide +kernel) (by decide) (by decide)
  · exact ready_of _ _ _ (by decide +kernel)
  · exact finds_spad atSpad 0xFFF8 8 false (by decide +kernel) (by decide) (by decide)
  · exact ready_of _ _ _ (by decide +kernel)
  · decide +kernel
  · unfold hasRoom; decide +kernel
  · exact finds_page tTw 0xFFF8 8 false (some 3) _ rfl rfl (by decide) (by decide) (.inr rfl)

theorem test_meets_StoresIssue : (atSpad.ready g0 [5, 6, 7] ∧ hasRoom atSpad.me.st.squ ∧ atSpad.finds (offsetAddr (atSpad.getG 5) 0 .d) 8 true none
      (atSpad.updSt fun t => t.release .c) (.spad 0xFFF8) ∧ ∀ pa t, Place.spad 0xFFF8 = .mem pa t → t = tPub ∨ t = tTw ∨ t = tSync) ∧
    (let s := withG [(5, 0x20000), (6, 0)] (paged tDev true)
     s.ready g0 [5, 7] ∧ s.ready g0 [5, 6, 7] ∧ tDev ≠ tPub ∧ tDev ≠ tTw ∧ tDev ≠ tSync ∧ s.me.st.nt.length < 8 ∧
      s.finds (offsetAddr (s.getG 5) 0 .d) 8 true none (s.updSt fun t => t.release .c) (.mem 0x40000 tDev) ∧
      s.finds (s.getG 5 + s.getG 6) 8 true none (s.updSt fun t => t.release .c) (.mem 0x40000 tDev)) := by
  refine ⟨⟨?_, ?_, ?_, ?_⟩, ?_, ?_, by decide, by decide, by decide, by decide +kernel, ?_, ?_⟩
  · exact ready_of _ _ _ (by decide +kernel)
  · unfold hasRoom; decide +kernel
  · exact finds_spad atSpad 0xFFF8 8 true (by decide +kernel) (by decide) (by decide)
  · intro pa t h; cases h
  · exact ready_of _ _ _ (by decide +kernel)
  · exact ready_of _ _ _ (by decide +kernel)
  · exact finds_page tDev 0 8 true none _ rfl rfl (by decide) (by decide) (.inl rfl)
  · exact finds_page tDev 0 8 true none _ rfl rfl (by decide) (by decide) (.inl rfl)

/-- Every register of the four fields at the ends of their ranges, and the staged set. -/
theorem test_meets_LoopSetWords_zlset : (let s := withG [(5, 0x00FFFFFFFFFFFFFC)] base
      s.ready g0 [5] ∧ (s.getG 5).toNat % 4 = 0 ∧ (s.getG 5).toNat < 2 ^ 56 ∧ (s.ctl.getZL (zlIdx 1)).live = false) ∧
    (base.ready g0 [5] ∧ (base.getG 5).toNat % 4 = 0 ∧ (base.getG 5).toNat < 2 ^ 56) ∧
    ((withG [(5, 0xFFFFFFFF)] base).getG 5).toNat < 2 ^ 32 ∧ ((withG [(5, 7)] base).getG 5).toNat ≤ 7 ∧
    ((withG [(5, 7)] base).ctl.getZL (zlIdx 1)).armed = false ∧ ((ending 1 2).ctl.getZL (zlIdx 0)).staged = true ∧ (ending 1 2).getG 5 = 0 := by
  refine ⟨⟨ready_of _ _ _ (by decide +kernel), by decide +kernel⟩, ⟨ready_of _ _ _ (by decide +kernel), by decide +kernel⟩, by decide +kernel⟩

/-- The register of a record, at the lowest granule of the scratchpad. -/
def atRecord : State := withG [(5, 0x00FFFFFFFFF80000)] base

theorem test_meets_LoopSetWords_record (w : Bool) : atRecord.ready g0 [5] ∧ hasRoom atRecord.me.st.squ ∧ hasRoom atRecord.me.st.lqu ∧
    atRecord.me.st.zlrec = none ∧
    atRecord.findsAll (atRecord.getG 5) w [.spad 0, .spad 8, .spad 16, .spad 24] (atRecord.updSt fun t => t.release .c) := by
  have e : atRecord.getG 5 = 0x00FFFFFFFFF80000 := by decide +kernel
  have l := fun (off : Nat) (h : off + 8 ≤ 65536) => looks_spad atRecord off 8 w h (by omega)
  refine ⟨ready_of _ _ _ (by decide +kernel), by unfold hasRoom; decide +kernel, by unfold hasRoom; decide +kernel, rfl, ?_⟩
  rw [e]
  exact ⟨by decide, by decide, _, l 0 (by decide), by decide, by decide, _, l 8 (by decide), by decide, by decide, _, l 16 (by decide),
    by decide, by decide, _, l 24 (by decide), rfl⟩

/-- A ZLRS whose four doublewords have come, of a set that is not armed and of one that is, the second staged. -/
def loaded (c : Word) : State := base.updSt fun t => { t with zlrec := some (0, [0x1000, 0x1010, c, 0]) }

theorem test_meets_LoopSetWords_install : (loaded 5).ready g0 [5] ∧ (loaded 5).me.st.zlrec = some (0, [0x1000, 0x1010, 5, 0]) ∧
    zlRecordOk [0x1000, 0x1010, 5, 0] = true ∧ (zlOfRecord [0x1000, 0x1010, 5, 0]).armed = false ∧
    zlRecordOk [0x1000, 0x1010, 0x50A00000005, 0] = true ∧ (zlOfRecord [0x1000, 0x1010, 0x50A00000005, 0]).armed = true ∧
    (zlOfRecord [0x1000, 0x1010, 0x50A00000005, 0]).stages ≠ 0 ∧ (loaded 0x50A00000005).ctl.stagedOther 0 = false ∧
    (zlOfRecord [0x1000, 0x1010, 0x50A00000005, 0]).zle ≠ (loaded 0x50A00000005).ctl.pc :=
  ⟨ready_of _ _ _ (by decide +kernel), rfl, by decide, by decide, by decide, by decide, by decide, by decide +kernel, by decide +kernel⟩

/-- A copy of each shape at its highest parameter registers, a stream, KPUB, and KWAIT with its bound met and not met. -/
theorem test_meets_CopyWords : base.ready g0 [5, 6, 31, 7] ∧ base.ready g0 [5, 6, 29, 7, 30, 31] ∧ hasRoom base.me.st.kqu ∧ base.ready g0 [5, 7] ∧
    hasRoom base.me.st.lqu ∧ hasRoom base.me.st.squ ∧ base.unlogged ∧ base.ready g0 [] ∧ base.ctl.ksOut.toNat ≤ (base.getG 5).toNat ∧
    (base.getG 5).toNat < (base.updCtl fun c => { c with ksOut := 1 }).ctl.ksOut.toNat := by
  refine ⟨ready_of _ _ _ (by decide +kernel), ready_of _ _ _ (by decide +kernel), ?_, ready_of _ _ _ (by decide +kernel), ?_, ?_, ?_,
    ready_of _ _ _ (by decide +kernel), by decide +kernel, by decide +kernel⟩
  · unfold hasRoom; decide +kernel
  · unfold hasRoom; decide +kernel
  · unfold hasRoom; decide +kernel
  · exact fun r hr => nomatch hr

/-- An atomic on the last doubleword of a DEV page. -/
def atPage : State := withG [(5, 0x2FFF0), (6, 1)] (paged tDev true)

/-- Its operands: offset 1, 64 bits. -/
def pageAtom (ord : Order) : AtomOps := ⟨7, 5, 6, 1, true, .pkg, ord⟩

theorem test_meets_AtomicsIssue (ord : Order) : atPage.ctl.pguard ⟨0, false⟩ = true ∧ atPage.me.st.pending [5, 6, 7] = false ∧ atPage.straight ∧
    atPage.unlogged ∧ (atPage.getG (pageAtom ord).a).toNat % atomBytes (pageAtom ord) = 0 ∧
    (atPage.atomicAddr (pageAtom ord)).toNat < spadBase ∧
    atPage.finds (atPage.atomicAddr (pageAtom ord)) (atomBytes (pageAtom ord)) true none (atPage.updSt fun t => t.release .c) (.mem 0x4FFF8 tDev) ∧
    hasRoom atPage.me.st.squ := by
  have e : atPage.atomicAddr (pageAtom ord) = 0x2FFF8 := by cases ord <;> decide +kernel
  refine ⟨by decide +kernel, by decide +kernel, (ready_of atPage g0 [] (by decide +kernel)).2.2, (fun r hr => nomatch hr), ?_, ?_, ?_, ?_⟩
  · cases ord <;> decide +kernel
  · rw [e]; decide
  · rw [e]; exact finds_page tDev 0xFFF8 8 true none _ rfl rfl (by decide) (by decide) (.inl rfl)
  · unfold hasRoom; decide +kernel

/-- The greatest amounts, clusters and goals that the gang of 2 allows, and a counter that the slot has reached, and one that it has not. -/
theorem test_meets_SignalsAndWaits : base.ready g0 [5] ∧ base.ready g0 [5, 6] ∧ base.unlogged ∧ hasRoom base.me.st.squ ∧ base.me.st.gang = 2 ∧
    (0x1FFFF < 2 ^ 22 ∧ 0x1FFFF / 2 ^ 16 < 2) ∧ (let v := 0x3F * 2 ^ 27 + 1535 * 2 ^ 16 + 65535; v < 2 ^ 41 ∧ v / 2 ^ 16 % 2 ^ 11 < 1536 ∧
      v / 2 ^ 27 ≠ base.pkg) ∧ 3 < 2 ^ base.me.st.gang ∧ (1 < 64 ∧ 1 < base.me.st.gang) ∧ 65535 < 2 ^ 16 ∧
    (∀ v ∈ [0, 1], v < 2 ^ 32) ∧ (base.slot 0 0 9).value = 0 ∧ 255 < 256 := by
  refine ⟨ready_of _ _ _ (by decide +kernel), ready_of _ _ _ (by decide +kernel), (fun r hr => nomatch hr), ?_, rfl, by decide, ?_, by decide +kernel, by decide +kernel, by decide,
    by decide, by decide +kernel, by decide⟩
  · unfold hasRoom; decide +kernel
  · decide +kernel

theorem test_meets_OrderWords : base.ready g0 [] ∧ hasRoom base.me.st.lqu ∧ hasRoom base.me.st.squ ∧ hasRoom base.me.st.kqu := by
  refine ⟨ready_of _ _ _ (by decide +kernel), ?_, ?_, ?_⟩ <;> (unfold hasRoom; decide +kernel)

/-- The base tag and the highest tag value. -/
theorem test_meets_TagWords : base.ready g0 [5] ∧ base.ready g0 [] ∧ base.unlogged ∧ hasRoom base.me.st.squ ∧ tagValueOk 0 = true ∧
    tagValueOk 0xFBFFF = true ∧ (0xFBFFF : Word).toNat % 65536 ≠ 0 := by
  refine ⟨ready_of _ _ _ (by decide +kernel), ready_of _ _ _ (by decide +kernel), (fun r hr => nomatch hr), ?_, by decide, by decide, by decide⟩
  unfold hasRoom; decide +kernel

/-- `base` on a V-cluster. -/
def onV : State := base.updSt fun t => { t with vkind := true }

theorem test_meets_ForkQueues : base.ready g0 [] ∧ base.me.st.vqu.length < Config.queueDepth ∧ base.me.st.vkind = false ∧
    base.me.st.mqu.length < Config.queueDepth ∧ onV.ready g0 [] ∧ onV.me.st.vkind = true :=
  ⟨ready_of _ _ _ (by decide +kernel), by decide +kernel, rfl, by decide +kernel, ready_of _ _ _ (by decide +kernel), rfl⟩

/-- An L entry at issue number 0 with a command, at a stage. -/
def entry (cmd : Cmd) (st : Stage) : Entry := { seq := 0, waddr := 0x1004, tag := 0, tk := 0, cmd := cmd, stage := st, done := 0 }

theorem test_meets_Rendezvous : base.ready g0 [] ∧ (base.me.st.firstTrap EMask.all engOrder = none ∧ ∀ e ∈ engOrder, named EMask.all e = true → base.me.st.engineIdle e = true) ∧
    (let s := base.updSt fun t => { t with lqu := [entry .cinv .queued] }
     s.ready g0 [] ∧ s.me.st.firstTrap EMask.all engOrder = none ∧ ∃ e ∈ engOrder, named EMask.all e = true ∧ s.me.st.engineIdle e = false) ∧
    (let s := base.updSt fun t => { t with traps := [TrapRec.defer .tagStale .sq 0x1004] }
     s.ready g0 [] ∧ s.me.st.firstTrap EMask.all engOrder = some (TrapRec.defer .tagStale .sq 0x1004)) := by
  refine ⟨ready_of _ _ _ (by decide +kernel), by decide +kernel, ⟨ready_of _ _ _ (by decide +kernel), by decide +kernel, by decide +kernel⟩,
    ready_of _ _ _ (by decide +kernel), by decide +kernel⟩

/-- A V-cluster, and a queue that it has and one that it has not. -/
theorem test_meets_ControlRegisters_vector : onV.ready g0 [] ∧ onV.me.st.vkind = true ∧ (0 : BitVec 4) ∉ [1, 3, 5, 6, 7, 12, 14] ∧
    (14 : BitVec 4) ∈ [1, 3, 5, 6, 7, 12, 14] := ⟨ready_of _ _ _ (by decide +kernel), rfl, by decide, by decide⟩

theorem test_meets_ControlRegisters : base.ready g0 [5] ∧ base.ready g0 [] ∧ base.ctl.guard g0 = true ∧ base.me.st.vkind = false ∧
    ((withG [(5, 65535)] base).getG 5).toNat ≤ 65535 ∧ (base.ctl.getTok 13).toNat + 65535 ≤ 65535 :=
  ⟨ready_of _ _ _ (by decide +kernel), ready_of _ _ _ (by decide +kernel), by decide +kernel, rfl, by decide +kernel, by decide +kernel⟩

/-- Each of the three transfer traps; an address beyond 56 bits and a misaligned one; a queue that software may not push, a
count that is too large and one that overflows. -/
theorem test_meets_WordTraps : (aimed 0x1002).ctl.guard g0 = true ∧ ((aimed 0x1002).ctl.getBT 2).toNat % 4 ≠ 0 ∧
    ((aimed 0x1100).me.st.code.holds ((aimed 0x1100).ctl.getBT 2) = false) ∧
    (let s := (aimed 0x1000).updCtl fun c => { c with zl := (ending 1 0).ctl.zl, order := [0], cq := [true] }
     s.me.st.code.holds (s.ctl.getBT 2) = true ∧ s.ctl.atEnd s.ctl.pc = true ∧ s.ctl.cq.head? = some true) ∧
    (base.me.st.pending [31] = false ∧ (withG [(31, 0x1002)] (aimed 0x1002)).getG 31 = (aimed 0x1002).ctl.getBT 2) ∧
    base.me.st.pending [5, 4] = false ∧ 2 ^ 56 ≤ (offsetAddr ((withG [(5, 2 ^ 56)] base).getG 5) 0 .d).toNat ∧
    (offsetAddr ((withG [(5, 7)] base).getG 5) 0 .d).toNat % sizeBytes .d ≠ 0 ∧ (12 : BitVec 4).toNat < 13 ∧ onV.me.st.vkind = true ∧
    65535 < ((withG [(5, 65536)] base).getG 5).toNat ∧
    65535 < ((base.updCtl fun c => { c with tok := c.tok.set 13 1 }).ctl.getTok 13).toNat + 65535 := by decide +kernel

theorem test_meets_ScheduleWords : base.ready g0 [5, 6] ∧ base.ready g0 [5] ∧ base.ready g0 [] ∧ base.unlogged ∧ hasRoom base.me.st.squ ∧
    ((withG [(5, 15)] base).getG 5).toNat < 16 ∧ ((withG [(5, 63)] base).getG 5).toNat ≤ 63 ∧ base.me.st.firstTrap EMask.all engOrder = none ∧
    ∀ e ∈ engOrder, base.me.st.engineIdle e = true := by
  refine ⟨ready_of _ _ _ (by decide +kernel), ready_of _ _ _ (by decide +kernel), ready_of _ _ _ (by decide +kernel), (fun r hr => nomatch hr), ?_, by decide +kernel,
    by decide +kernel, by decide +kernel, by decide +kernel⟩
  unfold hasRoom; decide +kernel

/-- MPROG, a register that takes every bit, one that takes none, and TRP_EPC with an address and with a bit that is to be 0. -/
theorem test_meets_CsrWords : base.ready g0 [5] ∧ base.ready g0 [] ∧ base.csr 0x0010 = some 0 ∧ base.csr 0x0009 = some 0 ∧ base.csr 0x0001 = some 0 ∧
    ((0 ^^^ ones) &&& ~~~(csrWritable 0x0009) = 0 ∧ ones &&& csrZero 0x0009 = 0) ∧
    ¬ ((0 ^^^ ones) &&& ~~~(csrWritable 0x0001) = 0 ∧ ones &&& csrZero 0x0001 = 0) ∧ base.csr 0x0002 = some 0 ∧
    ((0 ^^^ 0x1000) &&& ~~~(csrWritable 0x0002) = 0 ∧ (0x1000 : Word) &&& csrZero 0x0002 = 0) ∧
    ¬ ((0 ^^^ 2) &&& ~~~(csrWritable 0x0002) = 0 ∧ (2 : Word) &&& csrZero 0x0002 = 0) :=
  ⟨ready_of _ _ _ (by decide +kernel), ready_of _ _ _ (by decide +kernel), by decide +kernel, by decide +kernel, by decide +kernel, by decide +kernel, by decide +kernel,
    by decide +kernel, by decide +kernel, by decide +kernel⟩

/-- A number that no CSR has, and the ends of the host's numbers. -/
theorem test_meets_CsrWords_faults : base.ctl.guard g0 = true ∧ base.me.st.pending [5] = false ∧ base.csr 0x7FFF = none ∧
    (0x7FFF : BitVec 16).toNat < 0x8000 ∧ 0x8000 ≤ (0x8000 : BitVec 16).toNat ∧ 0x8000 ≤ (0xFFFF : BitVec 16).toNat := by decide +kernel

/-- A switch table whose row 63 names a word for each level. -/
def switching : State := base.updSt fun t => { t with code := { t.code with switch := [(63, [0x1010, 0x1020, 0x1030])] } }

theorem test_meets_PowerWords : switching.ctl.guard g0 = true ∧ switching.enters (switching.me.st.code.switchTo 63 switching.grant) ∧
    base.ready g0 [] ∧ base.unlogged ∧ (6 : BitVec 6).toNat ≤ 6 ∧ (2 : BitVec 6).toNat ≤ 2 :=
  ⟨by decide +kernel, by unfold State.enters; decide +kernel, ready_of _ _ _ (by decide +kernel), (fun r hr => nomatch hr), by decide, by decide⟩

/-- The handle of slot 63 of die 23, and a QWAIT that goes on and one that waits for the S entry before it. -/
theorem test_meets_CollectiveWords : base.ready g0 [5] ∧ base.ready g0 [5, 6] ∧ base.unlogged ∧ hasRoom base.me.st.squ ∧ handleOk (2 ^ 31 + 23 * 64 + 63) = true ∧
    ((∀ e ∈ base.me.st.squ, e.stage = .performed) ∧ base.collPast (2 ^ 31 + 23 * 64 + 63) 0 = true) ∧
    ¬ ∀ e ∈ (base.updSt fun t => { t with squ := [entry (.drainnt .pkg) .queued] }).me.st.squ, e.stage = .performed := by
  refine ⟨ready_of _ _ _ (by decide +kernel), ready_of _ _ _ (by decide +kernel), (fun r hr => nomatch hr), ?_, by decide +kernel, by decide +kernel, by decide +kernel⟩
  unfold hasRoom; decide +kernel

theorem test_meets_TrapWords : base.ctl.guard g0 = true ∧ base.ctl.atEnd base.ctl.pc = false ∧ (ending 1 0).ctl.atEnd (ending 1 0).ctl.pc = true := by
  decide +kernel

theorem test_meets_TrapEntry : handled.me.st.userHandles .user = true ∧ base.me.st.userHandles .illEnc = false ∧ base.me.status = .running ∧
    handled.me.st.userHandles .brk = false := by decide +kernel

theorem test_meets_TrapReturn : base.ctl.guard g0 = true ∧ base.ctl.trp.h = false ∧
    (let s := handled.updCtl fun c => { c with trp := { c.trp with h := true, epc := 0x10FC } }
     s.ctl.trp.h = true ∧ s.ctl.trp.epc.toNat % 4 = 0 ∧ s.me.st.code.holds s.ctl.trp.epc = true) ∧
    (let at' := fun (a : Word) => handled.updCtl fun c => { c with trp := { c.trp with h := true, epc := a } }
     (at' 0x1002).ctl.trp.h = true ∧ (at' 0x1002).ctl.trp.epc.toNat % 4 ≠ 0 ∧ (at' 0x1100).ctl.trp.epc.toNat % 4 = 0 ∧
     (at' 0x1100).me.st.code.holds (at' 0x1100).ctl.trp.epc = false) := by decide +kernel

/-! ### Vector words -/

/-- Block parameters: EB0 to EB3 hold 0, 1, 16,777,215 and 16,777,216, EB4 the ninth granule of the scratchpad, the others 0. -/
def params : Vector Word 16 := #v[0, 1, 16777215, 16777216, 0x00FFFFFFFFF80200, 0, 0, 0, 0, 0, 0, 0, 0, 0, 0, 0]

/-- A block of four words, at its first word. -/
def blockRun : Run := Run.start { seq := 0, waddr := 0x1004, first := 0, len := 4, eb := params, tag := 0 }

/-- `base` with a vector block begun: rows 2 and 4 hold 1.0 and 2.0, VM1 selects lanes 0 and 1, lq0 holds two rows of bytes,
and tokens wait in the queues 0 to 2. -/
def atV : State := base.updSt fun t =>
  { t with vrun := some blockRun, ctl := { t.ctl with tok := Vector.replicate 16 2 },
           v := { t.v with rows := [(512, 0x3F800000), (513, 0x3F800000), (1024, 0x40000000), (1025, 0x3F800000)], vm := t.v.vm.set 1 3 },
           q := { t.q with lq := t.q.lq.set 0 (List.replicate 2048 1), moq := List.replicate 2048 2 } }

/-- The same on a V-cluster. -/
def atVV : State := atV.updSt fun t => { t with vkind := true }

/-- `State.vGoes`, computed. -/
def vgo (s : State) (f : VFields) (fm : VForm) : Bool :=
  match s.me.st.vrun with
  | some r => (vOffends f fm r.k s.me.st.vkind).isNone && (match s.popWord false r (vPop f.pop) with
    | some s1 => (decide (r.work.stage ≠ 0) || s1.me.st.vReady f fm) && (!fm.mIdle || s1.me.st.mrun.isNone)
    | none => false)
  | none => false

theorem goes_of (s : State) (f : VFields) (fm : VForm) (h : vgo s f fm = true) : ∃ r s1, s.vGoes f fm r s1 := by
  unfold vgo at h
  split at h
  case h_2 => cases h
  case h_1 r hr =>
    rw [Bool.and_eq_true] at h
    split at h
    case h_2 => cases h.2
    case h_1 s1 h1 =>
      have h2 := h.2
      simp only [Bool.and_eq_true, Bool.or_eq_true, decide_eq_true_eq, Bool.not_eq_true', Option.isNone_iff_eq_none] at h2
      exact ⟨r, _, hr, by simpa using h.1, s1, h1, fun hk => h2.1.resolve_left (fun hn => hn hk),
        fun hm => h2.2.resolve_left (by simp [hm]), rfl⟩

/-- Rows, a queue and the scalar as sources; a row pair of F64 at the last rows; tokens popped. -/
theorem test_meets_VectorElements : vgo atV vf (rowShape .f32 .f32 64) = true ∧
    (let f := { vf with da := .lq 0, db := .moq, pop := 7, fmt := .i8 }
     vgo atV f (rowShape f.fmt f.fmt 64) = true) ∧
    (let f := { vf with dd := .row 254 0, da := .row 0 0, db := .scalar, fmt := .f64 }
     vgo atV f (rowShape f.fmt f.fmt 64) = true) ∧ vgo atVV { vf with mask := 1 } (rowShape .f32 .f32 256) = true := by decide +kernel

/-- Also VBCAST of the last lane and VPERM's two modes, the second on a V-cluster. -/
theorem test_meets_VectorBits : vgo atV { vf with mod := 63 } (rowShape .f32 .f32 (lanesOf atV.me.st.vkind)) = true ∧
    (63 : BitVec 16).toNat % 256 < lanesOf atV.me.st.vkind ∧ (0 : BitVec 16).getLsbD 0 = false ∧ (1 : BitVec 16).getLsbD 0 = true ∧
    vgo atVV { vf with mod := 1 } (rowShape .f32 .f32 (lanesOf atVV.me.st.vkind)) = true := by decide +kernel

theorem test_meets_VectorConversions :
    (let f := { vf with fmt := .i8, fmt2 := .f32, rnd := .rsr, mod := 1 }
     vgo atV f { rowShape f.fmt2 f.fmt 64 with nb := 1, bb := 256 } = true) ∧
    (let f := { vf with fmt := .f6e3, dd := .sq 0 }
     vgo atV f { rowShape .f32 .f32 64 with na := packRows f.fmt, bd := packBytes f.fmt 64 } = true ∧ (packRows f.fmt) * 64 = 256 ∧
     fmtWidth f.fmt * 256 ≤ 8 * packBytes f.fmt 64) ∧
    (let f := { vf with fmt := .i16, dd := .row 254 0, da := .lq 0 }
     vgo atV f { rowShape .f32 .f32 64 with nd := packRows f.fmt, ba := packBytes f.fmt 64 } = true) := by decide +kernel

/-- A code that pushes and one that does not; every function of VMOP is its four bits. -/
theorem test_meets_VectorMasks :
    (let f := { vf with mod := 0x0500 }
     vgo atV f { rowShape f.fmt f.fmt 64 with hasD := false, pushes := true } = true ∧ f.mod.toNat / 256 % 4 ≠ 0) ∧
    vgo atV vf { rowShape .f32 .f32 64 with hasD := false, pushes := false } = true ∧
    vgo atV { vf with mod := 0x8002 } { rowShape .f32 .f32 64 with hasD := false, pushes := true } = true ∧
    vgo atV { vf with mod := 0xA000 } { rowShape .f32 .f32 64 with hasD := true, pushes := false } = true ∧
    ∀ n : Fin 11, (BitVec.ofNat 16 (n.val * 4096)).toNat / 4096 = n.val := by decide +kernel

/-- The functions of VRED, a push of VDEFER and VDRAIN, and VSEED of the vector and of the last matrix generators. -/
theorem test_meets_VectorAcrossLanes : vgo atV vf (rowShape .f32 .f32 64) = true ∧ vgo atV { vf with mod := 2, fmt := .f64, dd := .row 0 0 } (rowShape .f64 .f64 64) = true ∧
    vgo atV { vf with mod := 0x10 } { rowShape .f32 .f32 64 with hasD := false, pushes := true } = true ∧
    vgo atV { vf with mod := 0x1800 } { rowShape .f32 .f32 64 with nd := 3, pushes := true } = true ∧
    vgo atV vf { rowShape .f32 .f32 64 with hasD := false, mIdle := false } = true ∧
    vgo atV { vf with mod := 2 } { rowShape .f32 .f32 64 with hasD := false, mIdle := true } = true ∧ atV.me.st.vkind = false := by decide +kernel

/-- A vector word reaches a next state. -/
theorem test_meets_VectorFrame : (after' (exec (.vadd vf) atV) fun t => (t.me.st.v.lane 8 0, t.me.st.v.lane 8 1, t.me.st.v.lane 8 2)) =
    some (0x40400000, 0x40000000, 0) := by decide +kernel

/-- An offending row, tokens that have not come, bytes that have not come. -/
theorem test_meets_VectorWaits :
    vOffends { vf with dd := .row 255 0, fmt := .f64, da := .row 0 0 } (rowShape .f64 .f64 64) 0 false = some 65 ∧ atV.me.st.traps = [] ∧
    vOffends { vf with pop := 1 } (rowShape .f32 .f32 64) 0 false = none ∧ blockRun.work.stage = 0 ∧
    ((atV.updCtl fun c => { c with tok := Vector.replicate 16 0 }).popWord false blockRun (vPop 1)).isNone = true ∧
    (let f := { vf with da := .lq 1, pop := 1 }
     vOffends f (rowShape .f32 .f32 64) 0 false = none ∧
     ((atV.popWord false blockRun (vPop 1)).map fun s1 => s1.me.st.vReady f (rowShape .f32 .f32 64)) = some false) := by decide +kernel

/-- VSEED of column generators, whose matrix engine is busy, with its source still to take and taken; words that offend in
their own way: VBCAST beyond the lanes, VPERM's second mode off a V-cluster, VSEED of columns on one, VPACK and VUNPACK beyond
the last row. -/
theorem test_meets_VectorWaits_own :
    (let s := atV.updSt fun t => { t with mrun := some blockRun }
     let f := { vf with mod := 2 }
     let fm := { rowShape .f32 .f32 64 with hasD := false, mIdle := true }
     s.me.st.vrun = some blockRun ∧ vOffends f fm 0 false = none ∧ ({ blockRun with work := { blockRun.work with stage := 1 } }).work.stage ≠ 0 ∧
     ((s.popWord false blockRun (vPop 0)).map fun s1 => s1.me.st.vReady f fm && s1.me.st.mrun.isSome) = some true) ∧
    (vOffends { vf with mod := 64 } { rowShape .f32 .f32 64 with bad := some 0 } 0 false).isSome = true ∧
    (vOffends { vf with mod := 1 } { rowShape .f32 .f32 64 with bad := some 0 } 0 false).isSome = true ∧
    (vOffends { vf with mod := 1 } { rowShape .f32 .f32 256 with hasD := false, bad := some 0 } 0 true).isSome = true ∧
    (vOffends { vf with fmt := .i4, da := .row 255 0 } { rowShape .f32 .f32 64 with na := packRows .i4 } 0 false).isSome = true ∧
    (vOffends { vf with fmt := .i4, dd := .row 255 0 } { rowShape .f32 .f32 64 with nd := packRows .i4 } 0 false).isSome = true := by decide +kernel

/-- Repeat counts of 0, 1, the largest and one beyond it; the last word of a body with repetitions left and with none, and
one within it; a row that is not the last and one that is. -/
theorem test_meets_EngineWalk : atV.me.st.run false = some blockRun ∧ (4095 : Nat) < 4096 ∧ (blockRun.eb 0).toNat = 0 ∧ (blockRun.eb 1).toNat = 1 ∧
    (blockRun.eb 2).toNat = 16777215 ∧ 16777215 < (blockRun.eb 3).toNat ∧
    (let r := { blockRun with off := 2, repLen := 2, repStart := 1, repCount := 2 }
     r.repLen ≠ 0 ∧ r.off + 1 = r.repStart + r.repLen ∧ r.k + 1 < r.repCount) ∧
    (let r := { blockRun with off := 2, repLen := 2, repStart := 1, repCount := 2, k := 1 }
     r.repLen ≠ 0 ∧ r.off + 1 = r.repStart + r.repLen ∧ r.repCount ≤ r.k + 1) ∧
    (let r := { blockRun with off := 1, repLen := 2, repStart := 1, repCount := 2 }
     r.off + 1 ≠ r.repStart + r.repLen) ∧ blockRun.rows + 1 < 2 ∧ 1 ≤ blockRun.rows + 1 := by decide +kernel

/-! ### Matrix words -/

/-- `base` with a matrix block begun whose word stands at row `rows` with work `w`: tokens wait, lq0 and lq1 hold bytes,
channels 0 and 2 point at the scratchpad, and tile 0, row 0 holds 1.0 and 2.0. -/
def atM (rows : Nat) (w : Work) : State := base.updSt fun t =>
  let c : Channel := { active := Vector.replicate 6 ⟨0x00FFFFFFFFF80000, 64, 1⟩, shadow := Vector.replicate 6 ⟨0, 0, 1⟩, idx := Vector.replicate 6 0 }
  let c := { c with active := (Vector.replicate 6 ⟨0, 0, 1⟩).set 0 ⟨0x00FFFFFFFFF80000, 64, 4⟩ }
  { t with mrun := some { blockRun with rows := rows, work := w }, ctl := { t.ctl with tok := Vector.replicate 16 2 },
           m := { t.m with chans := (t.m.chans.set 0 c).set 2 c, acc := [(0, 0x3F800000), (1, 0x40000000)] },
           q := { t.q with lq := (t.q.lq.set 0 (List.replicate 3000 1)).set 1 (List.replicate 256 2) } }

/-- The run of `atM` behind its pops. -/
def popped (s : State) : Run := { s.me.st.mrun.getD blockRun with popped := true }

/-- The state behind the pops, where they can be taken. -/
def took (s : State) (pop : BitVec 4) : Option State := (s.popWord true (s.me.st.mrun.getD blockRun) (mPop pop))

theorem takes_of (s : State) (pop : BitVec 4) (h : s.me.st.mrun.isSome = true) (h1 : (took s pop).isSome = true) :
    ∃ s1, took s pop = some s1 ∧ s.mTakes pop (popped s) s1 := by
  obtain ⟨r0, hr⟩ := Option.isSome_iff_exists.1 h
  obtain ⟨s1, hs⟩ := Option.isSome_iff_exists.1 h1
  exact ⟨s1, hs, r0, hr, by simp [popped, hr], by simpa [took, hr] using hs⟩

/-- `State.mGoes`, computed: the extents and a test of the state behind the pops. -/
def mgo (s : State) (f : MFields) (x : Ext) (p : State → Run → Bool) : Bool :=
  s.me.st.mrun.isSome && decide ((popped s).ext f = some x) && (match took s f.pop with
    | some s1 => p s1 (popped s)
    | none => false)

theorem mgoes_of (s : State) (f : MFields) (x : Ext) (p : State → Run → Bool) (h : mgo s f x p = true) :
    ∃ r s1, s.mGoes f r x s1 ∧ p s1 r = true := by
  simp only [mgo, Bool.and_eq_true, decide_eq_true_eq] at h
  have hs : (took s f.pop).isSome = true := by
    cases ht : took s f.pop
    · rw [ht] at h; cases h.2
    · rfl
  obtain ⟨s1, h1, h2⟩ := takes_of s f.pop h.1.1 hs
  exact ⟨popped s, s1, ⟨h2, h.1.2⟩, by have h3 := h.2; rw [h1] at h3; exact h3⟩

/-- A row of elements, some bytes. -/
def isElems (x : Row) : Bool := match x with
  | .elems _ _ => true
  | _ => false

def isBytes (x : Got) : Bool := match x with
  | .bytes _ _ => true
  | _ => false

def noBytes (x : Got) : Bool := match x with
  | .bytes _ [] => true
  | _ => false

/-- The highest level of a channel, every channel, 2,112 bytes for the map buffer, a tile and the planes. -/
theorem test_meets_MatrixSetup : (5 : BitVec 3).toNat ≤ 5 ∧ (took (atM 0 Work.none) 7).isSome = true ∧ (atM 0 Work.none).me.st.mrun.isSome = true ∧
    mgo (atM 0 Work.none) mf ⟨1, 1, 1⟩ (fun s1 r => isBytes (s1.readBytes r (.lq 0) 2112 16)) = true ∧
    mgo (atM 0 Work.none) { mf with mx := 127, nx := 127 } ⟨128, 128, 1⟩ (fun _ _ => true) = true ∧
    mgo (atM 0 Work.none) { mf with xsel := 3, ebb := 1, mod := 0x1000 } ⟨1, 1, 1⟩ (fun _ _ => true) = false ∧
    mgo (atM 0 Work.none) { mf with xsel := 1, ebb := 1, mod := 0x1000 } ⟨1, 1, 1⟩ (fun _ _ => true) = true := by decide +kernel

/-- MLOADR from a queue, a channel and a tile, across and down; MSTORE to a queue, to a channel and with a header that has
been taken; MACT to a queue, to the tile, at its last row, and to a bank. -/
theorem test_meets_MatrixLoadsStores :
    (let f := { mf with dk := .rb false, mx := 3, nx := 7, fa := .f16, fd := .f16 }
     mgo (atM 3 Work.none) f ⟨4, 8, 1⟩ (fun s1 r => decide (r.rows < 4) && isElems (s1.readRow r f.sa f.fa 0 r.rows 8)) &&
     mgo (atM 7 Work.none) { f with sa := .ch false, ta := true } ⟨4, 8, 1⟩ (fun s1 r => decide (r.rows < 8) && isElems (s1.readRow r (.ch false) f.fa 0 r.rows 4)) &&
     mgo (atM 0 Work.none) { f with sa := .acc2, fa := .f32 } ⟨4, 8, 1⟩ (fun s1 r => isElems (s1.readRow r .acc2 .f32 0 r.rows 8))) = true ∧
    (let f := { mf with dk := .sq 0, mx := 3, nx := 7, mod := 0x0200 }
     mgo (atM 0 Work.none) f ⟨4, 8, 1⟩ (fun s1 _ => (s1.putQueue f.dk (rowPack f.fd (List.replicate 8 0))).isSome) &&
     let row := rowPack f.fd (List.replicate 8 0)
     mgo (atM 0 Work.none) { f with dk := .acc } ⟨4, 8, 1⟩ (fun s1 r =>
       match s1.reserveRows r none (s1.me.st.m.chan 2) 4 row.length (rowAlign f.fd) with
       | .bytes s2 [] => noBytes (s2.writeAt r (s1.me.st.m.chan 2).addr row (rowAlign f.fd))
       | _ => false) &&
     mgo (atM 1 { Work.none with hdr := [0] }) { f with dk := .acc, mod := 0x0208 } ⟨4, 8, 1⟩ (fun s1 r => decide (r.work.hdr ≠ []) &&
       noBytes (s1.writeAt r (s1.me.st.m.chan 2).addr row (rowAlign f.fd))) &&
     mgo (atM 3 Work.none) { f with dk := .acc, mod := 0x10 } ⟨4, 8, 1⟩ (fun _ r => decide (r.rows < 4) && decide (r.rows + 1 = 4)) &&
     mgo (atM 0 Work.none) { f with dk := .rb true, mod := 0x10 } ⟨4, 8, 1⟩ (fun _ r => decide (r.rows < 4))) = true := by decide +kernel

/-- An MMAC that holds B: at its start, and at a row that it has read ahead or reads now; on an integer tile of another
bias; MMACQ onto the planes and to a queue; MSACC with its exponents. -/
theorem test_meets_MatrixProducts :
    (let w : Work := { Work.none with b := [[0x3F800000, 0], [0, 0x3F800000]] }
     let f := { mf with mx := 3, nx := 1, kx := 1 }
     mgo (atM 0 w) f ⟨4, 2, 2⟩ (fun _ r => decide (r.work.b.length = bRows f ⟨4, 2, 2⟩) && decide (r.work.stage = 0) && decide (bsrc f ≠ 1) && !(readsAhead f)) &&
     mgo (atM 3 { w with stage := 1 }) f ⟨4, 2, 2⟩ (fun s1 r => decide (r.rows < 4) && decide (r.work.stage ≠ 0) && isElems (aRow f ⟨4, 2, 2⟩ r r.rows s1)) &&
     mgo (atM 0 { w with stage := 1, a := [[0, 1], [0, 1], [2, 3], [4, 5]] }) { f with sa := .acc2, acc2 := 1 } ⟨4, 2, 2⟩ (fun _ r =>
       decide (r.work.a.length = aRows { f with sa := .acc2 } ⟨4, 2, 2⟩) && readsAhead { f with sa := .acc2 }) &&
     mgo (atM 0 { w with hdr := [1, 1] }) { f with mod := 0x1000, fd := .i32, fa := .i8, fb := .i8 } ⟨4, 2, 2⟩ (fun _ r => decide (r.work.hdr.length = 2))) = true ∧
    ((atM 0 Work.none).me.st.m.getBias 0 = none ∧ ((atM 0 Work.none).updM fun m => m.setBias 0 (some 3)).me.st.m.getBias 0 = some 3) ∧
    (let w : Work := { Work.none with b := List.replicate 32 [1, 1], a := List.replicate 4 (List.replicate 32 1) }
     let f := { mf with mx := 3, nx := 1, kx := 31, fa := .dx8, fb := .dx8 }
     mgo (atM 0 w) f ⟨4, 2, 32⟩ (fun s1 r => (depthBad f true ⟨4, 2, 32⟩).isNone && decide (r.work.b.length = bRows f ⟨4, 2, 32⟩) &&
       isElems (aRow f ⟨4, 2, 32⟩ r r.rows s1)) &&
     mgo (atM 15 w) { f with dk := .sq 0 } ⟨4, 2, 32⟩ (fun s1 r => decide (r.work.a.length = aRows f ⟨4, 2, 32⟩) &&
       (s1.putQueue (.sq 0) (List.replicate 8 0)).isSome)) = true ∧
    mgo (atM 0 { Work.none with a := [[1]], b := [[1]] }) { mf with mx := 3, nx := 3 } ⟨4, 4, 1⟩ (fun _ r => decide (r.work.a ≠ []) && decide (r.work.b ≠ [])) = true := by
  decide +kernel

/-- A group of one whose injections come from its tile; a register from bound registers; a register of 256 bytes and one of
more; a record of a patch inside the matrix and the ends of its coordinates. -/
theorem test_meets_RelaxationWords :
    (let f := { mf with sa := .rb false, sb := .acc2, acc2 := 1, mx := 3, nx := 1, kx := 1, fa := .f16 }
     mgo (atM 0 Work.none) f ⟨4, 2, 2⟩ (fun s1 r => (relaxCheck f r ⟨4, 2, 2⟩ (atM 0 Work.none)).isNone && decide (s1.me.st.m.rx.members = 1) &&
       (injectStep f r ⟨4, 2, 2⟩ s1).isNone)) = true ∧
    mgo (atM 0 Work.none) { mf with ebb := 1, mod := 0x0400 } ⟨1, 1, 1⟩ (fun _ r => !mxBad 1 (r.eb 1)) = true ∧
    (let f := { mf with dk := .sq 0, mx := 63, mod := 0x2000 }
     mgo (atM 0 Work.none) f ⟨64, 1, 1⟩ (fun s1 r => decide (r.work.stage = 0) && decide ((s1.me.st.m.mxBytes (mxReg f) 0 ⟨64, 1, 1⟩).length = 256)) &&
     mgo (atM 0 Work.none) { f with mx := 64 } ⟨65, 1, 1⟩ (fun s1 r => decide (r.work.stage = 0) && decide (256 < (s1.me.st.m.mxBytes (mxReg f) 0 ⟨65, 1, 1⟩).length) &&
       (s1.putQueue f.dk ((s1.me.st.m.mxBytes (mxReg f) 0 ⟨65, 1, 1⟩).take 256)).isSome)) = true ∧
    (let f := { mf with dk := .rb true, mx := 9, fa := .f8e4 }
     mgo (atM 0 Work.none) f ⟨10, 1, 1⟩ (fun s1 r => isBytes (s1.readPart r (.lq 0) 0 8 8 false) && decide (s1.me.st.m.struct = none)) &&
     mgo (atM 0 { Work.none with stage := 9 }) f ⟨10, 1, 1⟩ (fun s1 r => isBytes (s1.readPart r (.lq 0) 72 8 8 true) && decide (10 * 1 ≤ r.work.stage + 1))) = true := by
  decide +kernel

/-- The one iteration of a solve that starts cold, with no acceleration. -/
theorem test_meets_RelaxationWords_once : (let s := (atM 0 Work.none).updSt fun t => { t with m := { t.m with rx := { t.m.rx with xlim := 1 } } }
    let f := { mf with sa := .rb false, sb := .acc2, acc2 := 1, mx := 3, nx := 1, kx := 1, fa := .f16 }
    mgo s f ⟨4, 2, 2⟩ (fun s1 r => (relaxCheck f r ⟨4, 2, 2⟩ s).isNone && decide (s1.me.st.m.rx.members = 1) && (injectStep f r ⟨4, 2, 2⟩ s1).isNone &&
      decide (s1.me.st.m.rx.accel = 0 ∧ s1.me.st.m.rx.xlim = 1) &&
      !({ f := f, back := false, r := r, x := ⟨4, 2, 2⟩, m := s1.me.st.m, idx := 0, die := 0 } : Member).warm)) = true := by decide +kernel

/-! ### Encodings and the step -/

theorem test_meets_EncodeDecodeControl : wellFormed (.add ⟨7, true, true⟩ 31 0 31) = true ∧ (encodeS (.add ⟨7, true, true⟩ 31 0 31)).isSome = true := by decide

theorem test_meets_EncodeDecodeEngines : (wellFormed (.vadd { vf with pop := 15, push := 7, mask := 8 }) = true ∧
    (encodeV (.vadd { vf with pop := 15, push := 7, mask := 8 })).isSome = true) ∧ wellFormed (.mmac { mf with pop := 15, push := 7 }) = true ∧
    (encodeM (.mmac { mf with pop := 15, push := 7 })).isSome = true := by decide

/-- Whether a decoder answers with this instruction. -/
def decodesTo (x : Except Reject Instr) (i : Instr) : Bool := match x with
  | .ok j => decide (j = i)
  | .error _ => false

/-- A control turn at a word, at bytes that are none, a vector turn, a matrix turn, and a step without a word. -/
theorem test_meets_StepRunsDecoded :
    (let s := base.placeControl 0x75A00085
     s.nextTurn = .control ∧ s.me.status = .running ∧ s.stallWires.contains s.me.st.node = false ∧ s.me.st.finish = false ∧ s.me.st.halt = [] ∧
     s.me.st.code.holds s.ctl.pc = true ∧ (decodeSBytes (s.me.st.code.ctrl.drop (s.ctl.pc.toNat - s.me.st.code.ctrlVa))).isOk = true ∧
     4 ≤ (s.me.st.code.ctrl.drop (s.ctl.pc.toNat - s.me.st.code.ctrlVa)).length) ∧
    (refuses (decodeSBytes (base.me.st.code.ctrl.drop 8)) .unassignedOpcode && decide ({ base with turns := [.control] }.nextTurn = .control)) = true ∧
    (let s := base.placeVector 0x040004010000040C00000000
     s.nextTurn = .vword ∧ (s.me.st.vrun.map fun r => decide (r.off < r.blk.len) && (decodeVBytes (s.me.st.code.varea.drop ((r.blk.first + r.off) * 12))).isOk) = some true) ∧
    (let s := base.placeMatrix 0x110000000000004000000000100000000000000000000000
     s.nextTurn = .mword ∧ (s.me.st.mrun.map fun r => decide (r.off < r.blk.len) && (decodeMBytes (s.me.st.code.marea.drop ((r.blk.first + r.off) * 24))).isOk) = some true) ∧
    ({ base with turns := [.event .tallocServe [1]] }.nextTurn = .event .tallocServe [1] ∧ encode .tallocServe = none) := by decide +kernel

/-- The step of a control word reaches a next state: PC stands at the next word. -/
theorem test_step_runs : after' (step (withG [(5, 3)] (base.placeControl 17049601))) (fun t => t.ctl.pc) = some 0x100C := by decide +kernel

theorem test_meets_GuardFalse : guardOf (.add ⟨1, false, false⟩ 4 5 6) = some ⟨1, false, false⟩ ∧ base.ctl.guard ⟨1, false, false⟩ = false ∧
    base.ctl.guard ⟨0, true, false⟩ = false ∧ guardOf (.fork ⟨1, false, false⟩ true 0) = some ⟨1, false, false⟩ ∧ base.me.st.vkind = false ∧
    base.straight := ⟨rfl, by decide +kernel, by decide +kernel, rfl, rfl, (ready_of base g0 [] (by decide +kernel)).2.2⟩

/-- A set with iterations left, one without, and one of seven stages. -/
theorem test_meets_LoopBack :
    (let s := ending 1 7
     s.ctl.order = [] ++ 0 :: [] ∧ (s.ctl.getZL 0).live = true ∧ (s.ctl.getZL 0).zle = s.ctl.pc ∧ (s.ctl.getZL 0).zlc ≠ 0 ∧
     (s.ctl.getZL 0).stages ≠ 0 ∧ s.ctl.stagedOther 0 = false) ∧
    (let s := ending 0 0
     s.ctl.order = [] ++ 0 :: [] ∧ (s.ctl.getZL 0).live = true ∧ (s.ctl.getZL 0).zle = s.ctl.pc ∧ (s.ctl.getZL 0).zlc = 0) := by decide +kernel

/-- A step from a state whose memory is in its form. -/
theorem test_meets_StepKeepsMemory : State.reset.memWf ∧ (after' (step State.reset) fun _ => 0) = some 0 := by
  unfold State.memWf; decide +kernel

/-! ### The access side -/

/-- `s` with one entry in a queue. -/
def queued (s : State) (e : Eng) (h : Entry) : State := s.updSt fun t => match e with
  | .l => { t with lqu := [h] }
  | .k => { t with kqu := [h] }
  | _ => { t with squ := [h] }

/-- An entry that can begin, one whose tokens have not come, one whose mask its engine may not name; a block for each
engine; an entry that has been performed; a block behind its last word, and one with a line to flip in. -/
theorem test_meets_EntriesMove :
    (let h := { entry .cinv .queued with tk := 0x00020100 }
     let s := (queued base .l h).updCtl fun c => { c with tok := c.tok.set 8 1 }
     let s1 := s.passGates
     s1.me.st.queue .l = [h] ∧ h.stage = .queued ∧ s1.flows = true ∧ s1.me.st.halted .l = false ∧ s1.me.st.blocked h = false ∧
     (tkOk .l s1.me.st.vkind h.tk && h.cmd.regsOk) = true ∧ s1.ctl.tokensReady (popMask h.tk) = true ∧
     (queued base .l h).passGates.ctl.tokensReady (popMask h.tk) = false) ∧
    (let h := { entry .cinv .queued with tk := 0x8000 }
     let s1 := (queued base .l h).passGates
     (tkOk .l s1.me.st.vkind h.tk && h.cmd.regsOk) = false ∧ s1.flows = true ∧ s1.me.st.halted .l = false ∧ s1.me.st.blocked h = false) ∧
    (base.flows = true ∧ base.me.st.vrun = none ∧ base.me.st.mrun = none) ∧
    (let h := { entry .marker .performed with tk := 0x04000000 }
     (queued base .k h).me.st.queue .k = [h] ∧ h.stage = .performed ∧ (queued base .k h).passGates.orphan = none) ∧
    (let r := { blockRun with off := 4 }
     r.blk.len ≤ r.off ∧ r.shadow = [] ∧ (base.updSt fun t => { t with mrun := some r }).mReplies = false) ∧
    ({ base with input := [] }.input = [] ∧ flipHome 0x40000 ≠ 24) := by decide +kernel

/-- `paged` of a type without a place in the L1. -/
def direct : State := paged tPub true

/-- A load of the scratchpad's last doubleword, and of a page; its refusal at a poisoned line; CINV and a marker; a store to
each; a stream at its first element and behind its last; a non-temporal buffer with all of its line. -/
theorem test_meets_AccessesPerform :
    ((queued base .l (entry (.load 5 0x00FFFFFFFFF8FFF8 (.spad 65528) .d false) .begun)).me.st.running .l =
      some (entry (.load 5 0x00FFFFFFFFF8FFF8 (.spad 65528) .d false) .begun) ∧ (base.lockWindow [65528 / 16384]).isSome = true) ∧
    (cached tPub = false ∧ tPub ≠ tSys ∧ base.homeErr 0 0x40000 tPub 8 0 false = none ∧
      ({ base with poison := [0x1000] }.homeErr 0 0x40000 tPub 8 0 false).isSome = true) ∧
    ((queued base .l (entry .cinv .begun)).me.st.running .l = some (entry .cinv .begun) ∧ (queued base .l (entry .marker .begun)).me.st.running .l =
      some (entry .marker .begun)) ∧
    ((queued base .sq (entry (.store 0x20000 (.mem 0x40000 tPub) .d 7) .begun)).me.st.running .sq = some (entry (.store 0x20000 (.mem 0x40000 tPub) .d 7) .begun) ∧
      usesCell tPub 0 = false ∧ base.homeErr 0 0x40000 tPub 8 0 true = none) ∧
    (let h := entry (.qld 3 .h spadBase 2 2 1 0) .begun
     let s := queued base .l h
     s.me.st.running .l = some h ∧ s.heldNow .l = false ∧ h.done < (2 : Word).toNat * (1 : Word).toNat ∧ (s.me.st.q.lq.get 3).length + 2 ≤ Config.queueBytes ∧
     (match (s.lookup spadBase 2 false none) with
      | (x, .ok pl) => (match (x.updSt fun t => t.release .l).access .l h pl 2 false 0 none with
        | .now _ (.ok _) => true
        | _ => false)
      | _ => false) = true ∧ (2 : Word).toNat * (1 : Word).toNat ≤ { h with done := 2 }.done) ∧
    (let h := entry (.qst 0 .h spadBase 2 2 1 0) .begun
     let s := (queued base .sq h).updSt fun t => { t with q := { t.q with sq := t.q.sq.set 0 [1, 2, 3, 4] } }
     s.me.st.running .sq = some h ∧ s.heldNow .sq = false ∧ 2 ≤ (s.me.st.q.sq.get 0).length ∧
     (match (s.lookup spadBase 2 true none) with
      | (x, .ok pl) => (match (x.updSt fun t => t.release .sq).access .sq h pl 2 false 0 (some (s.me.st.q.storeHead 0 2)) with
        | .now _ (.ok []) => true
        | _ => false)
      | _ => false) = true) ∧
    (let b : NtBuf := ⟨0x1000, tPub, 0x20000, 0, (List.range 64).map fun k => (k, (1, false)), 0, 0, 0x1004, false⟩
     let s := base.updSt fun t => { t with nt := [b] }
     s.me.st.nt[0]? = some b ∧ s.ntDue 0 b = true ∧ b.type ≠ tSys ∧ s.me.l1Line b.line = none ∧ s.homeErr 0 (64 * b.line) b.type b.bytes.length 0 true = none) := by
  decide +kernel

/-- A cached load that hits and one that misses, with a way for its line and with its line refused; stores of the types that the
L1 takes: through a line and past the L1, into a line and into a new one; a line that a load constant holds. -/
theorem test_meets_AccessesPerform_cached :
    (let line : L1Line := ⟨0x1000, 0, .shared, List.replicate 64 7⟩
     let with1 := fun (l : List L1Line) (s : State) => { s with me := { s.me with l1 := l } }
     let h := fun (type : Nat) => entry (.load 5 0x20000 (.mem 0x40000 type) .d false) .begun
     let w := fun (type : Nat) => entry (.store 0x20000 (.mem 0x40000 type) .d 7) .begun
     ([tDev, tPriv, tCxl, tConst].all fun type => cached type && decide ((queued base .l (h type)).me.st.running .l = some (h type)) &&
       decide ((with1 [line] (queued base .l (h type))).me.l1Line (canon 0x40000 / 64) = some line) && decide (line.st ≠ .constant) &&
       (let s := queued base .l (h type)
        (s.me.l1Line 0x1000).isNone && (s.homeErr 0 (canon 0x40000) type 64 0 false).isNone && (s.me.freeBank (l1Set 0x1000)).isSome &&
        ({ s with poison := [0x1000] }.homeErr 0 (canon 0x40000) type 64 0 false).isSome)) = true ∧
     ([tDev, tCxl, tPriv].all fun type => let s := queued base .sq (w type)
       decide (s.me.st.running .sq = some (w type)) && (s.homeErr 0 (canon 0x40000) type 8 0 true).isNone && (s.me.l1Line 0x1000).isNone &&
       decide ((with1 [line] s).me.l1Line 0x1000 = some line) && (s.me.freeBank (l1Set 0x1000)).isSome &&
       decide ((with1 [{ line with st := .constant }] s).me.l1Line 0x1000 = some { line with st := .constant })) = true) := by decide +kernel

/-- An atomic on a page; FADD to a strand and BARV to the last strand; FSET; BARINIT with and without a goal. -/
theorem test_meets_AtomicsPerform :
    (let h := entry (.atomic .cas 5 0x20000 (.mem 0x40000 tDev) true 1 2 .pkg .rlx) .begun
     let s := queued base .sq h
     s.me.st.running .sq = some h ∧ tDev ≠ tSys ∧ s.me.l1Line (canon 0x40000 / 64) = none ∧ usesCell tDev h.tag = false ∧ s.homeErr 0 0x40000 tDev 8 h.tag true = none) ∧
    ((queued base .sq (entry (.fadd 1023 0x1FFFF .pkg) .begun)).me.st.running .sq = some (entry (.fadd 1023 0x1FFFF .pkg) .begun) ∧
      Scope.pkg ≠ .sys ∧ base.strandDone 0 1 = false ∧ base.strandDone 0 63 = false ∧ (base.slot 0 0 5).fanout = 0) ∧
    (queued base .sq (entry (.fset 0 3 .cl) .begun)).me.st.running .sq = some (entry (.fset 0 3 .cl) .begun) ∧
    ((0x10000 : Word).toNat % 65536 = 0 ∧ (base.slot 0 0 5).value.toNat < (1 : Word).toNat % 65536) := by decide +kernel

/-! ### The package -/
/-- Whether a check passed. -/
def okay {α β : Type} (x : Except α β) : Bool := x.isOk

/-- A copy run of `me` with one byte to flip in. -/
def flips : CopyRun := { key := base.me.key, bytes := [⟨0x40000, 0, false, false, 7, 0x20000⟩], grans := [], vi := 0, pages := [], regions := [], window := [], reads := 0 }

/-- A fill at its first byte, at its largest length and beyond it; a running copy; a region without writers. -/
theorem test_meets_CopiesRun : ([(let h := entry (.copy .fill false 0 0 (2 ^ 24 + 1) 0 0) .begun
     decide ((queued base .k h).me.st.running .k = some h) && !copyLimits .fill (2 ^ 24 + 1)),
    (let h := entry (.copy .fill false 0x00FFFFFFFFF80000 0 65536 0 0) .begun
     let s := queued base .k h
     decide (s.me.st.running .k = some h) && decide (0x00FFFFFFFFF80000 % 65536 + 65536 ≤ 65536) && decide (spadBase ≤ 0x00FFFFFFFFF80000 / 65536 * 65536) &&
     (match s.lookup 0x00FFFFFFFFF80000 65536 true none with
      | (s1, .ok (.spad off)) => decide (off = 0) && (List.range 24).all (fun d => decide (s1.shadowLines d ≤ 262144)) && decide (pinsUsed s1.me.die s1.pins ≤ 16384)
      | _ => false) && decide (s.me.st.locks = []) && !s.heldNow .k && decide (0x00FFFFFFFFF80000 + 65536 ≤ 2 ^ 64)),
    (let h := entry (.copy .fill false 0x20000 7 1 0 0) .submitted
     let s := { queued base .k h with shadow := [flips] }
     decide (s.me.st.kqu = [h]) && decide (s.shadow.find? (fun x => decide (x.key = s.me.key)) = some flips) && decide (s.me.l1 = []) && !s.copyReplies h.seq && decide (h.done = 0) &&
     decide (s.input = []) && decide ((flips.bytes.map fun b => b.pa).Nodup) && flips.bytes.all fun b => !b.tw && !b.pub && decide (b.pa < windowBase) && decide (flipHome (64 * (b.pa / 64)) < 24) && (s.unbacked (64 * (b.pa / 64))).isNone &&
       !s.poison.contains (b.pa / 64)),
    (let h := entry (.kpub 0x20000) .begun
     let s := { queued (paged tPub true) .k h with pubs := [⟨0, true, 0, 0, 0x40000, 0x10000, []⟩] }
     decide (s.me.st.running .k = some h) && decide (s.me.st.nt = []) && decide (s.me.st.squ = []) && s.mem.wf && decide (h.done = 0) && !s.heldNow .k &&
     (match s.lookup 0x20000 1 false none with
      | (s1, .ok (.mem pa type)) => decide (type = tPub) && s1.mem.wf && (match s1.pubOf (canon pa) with
        | some p => decide (p.writers = 0) && decide (p.waits = []) && !s.aborting && s1.pubs.all fun q => decide (q.base ≠ p.base) || decide (q = p)
        | none => false)
      | _ => false))]).all id = true := by decide +kernel

/-- `base` with TSYS-free interface 0 as given. -/
def withVi (v : VI) (s : State) : State := { s with vis := [(0, v)] }

/-- A TALLOC that is served and one that has waited; a store that waits for a cell; a TRETIRE of a live tag and of none; a
notice and its last acknowledgement. -/
theorem test_meets_TagsServe : (let v := { VI.zero with tagq := 0x100000008 }
    let live : TagRec := ⟨0, 5, .live, 3, 0, 0⟩
    [(let h := entry (.talloc 7) .begun
      let s := (withVi v (queued base .sq h)).updSt fun t => { t with pendDst := t.pendDst.set 7 (some 0) }
      decide (s.me.st.squ = [h]) && decide (s.tagWaits = []) && decide (s.input = []) && decide (s.me.status ≠ .idle) &&
      decide (s.freeTag s.me.die = some 1) && decide (s.tagsLive 0 < s.tagQuota 0) && decide (s.me.st.pendDst.get (gIdx 7) = some h.seq)),
     (let h := entry (.talloc 7) .submitted
      let s := (withVi v (queued base .sq h)).updSt fun t => { t with pendDst := t.pendDst.set 7 (some 0), wdTag := 80 }
      decide (s.me.st.squ = [h]) && decide (s.tagLimit 0 = some 80) && decide (80 ≤ s.me.st.wdTag) && decide (s.me.st.pendDst.get (gIdx 7) = some h.seq)),
     (let h := { entry (.store 0x20000 (.mem 0x40000 tTw) .d 7) .begun with tag := 5 }
      let s := (withVi v (queued { base with fe := { base.fe with cellcfg := [] } } .sq h)).updSt fun t => { t with wdTag := 80 }
      decide (s.me.st.running .sq = some h) && decide (s.tagLimit 0 = some 80) && s.cellStalls 0x40000 tTw 5),
     (let h := entry (.tretire 0x30005) .begun
      let s := { queued base .sq h with tags := [live] }
      decide (s.me.st.squ = [h]) && decide (s.tagRec (tagDie 0x30005) (tagIdx 0x30005) = live) && decide (live.gen.toNat = (0x30005 : BitVec 20).toNat / 65536) &&
      decide ((s.tagRec (tagDie 0x20005) (tagIdx 0x20005)).gen.toNat ≠ (0x20005 : BitVec 20).toNat / 65536)),
     (let s := { base with retires := [⟨0, 5, 0, none, [], []⟩] }
      decide (s.retires[0]? = some ⟨0, 5, 0, none, [], []⟩) && !s.tagBusy 5 23),
     ((List.range 24).all fun d => (List.range 24).contains d)]).all id = true := by decide +kernel

/-- A TALLOC that has waited, served by its own allocator as another arrives, and none where the quota is spent. -/
theorem test_meets_TagsServe_waiters : (let h := entry (.talloc 7) .submitted
    let w : TagWait := ⟨0, 0, 0, 0, 0⟩
    let b : State := { base with tagWaits := [w, { w with idx := 1 }] }
    let s := (withVi { VI.zero with tagq := 0x100000008 } (queued b .sq h)).updSt fun t => { t with pendDst := t.pendDst.set 7 (some 0) }
    [decide (s.input = []) && decide (s.tagWaits.find? (fun w => decide (w.die = s.me.die)) = some w) && decide (s.freeTag 0 = some 1) &&
       decide (s.tagsLive w.vi < s.tagQuota w.vi) && decide (s.me.status ≠ .idle) && decide (w.node = s.me.st.node ∧ w.idx = s.me.st.idx) &&
       decide (s.me.st.squ = [h]) && decide (s.me.st.pendDst.get (gIdx 7) = some h.seq),
     (let s : State := { s with vis := [] }
      decide (s.tagQuota w.vi ≤ s.tagsLive w.vi)),
     decide ((queued base .sq (entry (.talloc 7) .begun)).me.st.running .sq = some (entry (.talloc 7) .begun))]).all id = true := by decide +kernel

/-- Tables of interface 0: one page of 1 GiB at virtual 0, physical 0x40000000. -/
def tables : State := { withVi { VI.zero with ptb := 0x1000001 } base with
  mem := (((Memory.writeN [] 0x1000000 (leBytes 8 0x1001001)).writeN 0x1001000 (leBytes 8 0x1002001)).writeN 0x1002000 (leBytes 8 0x40000007)) }

/-- `tables` with A and D set in the leaf and a second page of 1 GiB, read-only, of type CONST at virtual 0x40000000; the
lines of the tables and those that the witnesses read stand in their slice. -/
def warm : State := { tables with
  mem := [(0x1000000, 0x01), (0x1000001, 0x10), (0x1000003, 0x01), (0x1001000, 0x01), (0x1001001, 0x20), (0x1001003, 0x01),
    (0x1002000, 0x1F), (0x1002003, 0x40), (0x1002008, 0xEB), (0x100200B, 0x80)],
  l2 := [⟨0x40000, 0, 1, 0, 0, false⟩, ⟨0x40040, 0, 1, 1, 0, false⟩, ⟨0x40080, 0, 1, 2, 0, false⟩, ⟨0x1FFFFFF, 0, 0, 3, 0, false⟩,
    ⟨0x1000080, 0, 0, 4, 0, false⟩, ⟨0x1000081, 0, 0, 5, 0, false⟩] }

def openFault : Held := ⟨.trInvalid, 0x20000, false, .l, false, false⟩

theorem test_meets_TranslationSteps : ([tables.ptrs.isEmpty && decide (0x3FFFFFFF < rsvdBase), (match tables.walkVi 0 0x3FFFFFFF with
      | .ok l => decide (l.size = 2 ^ 30) && decide (l.entryPa = 0x1002000) && decide (l.touched true ≠ l.entry)
      | .error _ => false),
     (match tables.walkVi 0 0x40000000 with
      | .ok _ => false
      | .error c => decide (c = .trInvalid)),
     (let s := base.updSt fun t => { t with held := [{ openFault with declined := true }, openFault] }
      let s : State := { s with fe := { s.fe with cores := [(11, .fault 0)] } }
      decide (s.me.st.held = [{ openFault with declined := true }] ++ openFault :: []) && decide (s.me.status ≠ .idle) && decide (s.fe.events = []) &&
      s.fe.cores.any (fun x => decide (x.2 = .fault s.me.st.node)) && s.pool.mayRemap [] && s.pool.mayRemap [(0x40000000, 5)] && openFault.open' && !({ openFault with declined := true }).open'),
     decide (0x40000000 % 8 = 0) && decide (apert 0x40000000 = .linear),
     (let s := { base with stallWires := [0] }.updSt fun t => { t with held := [{ openFault with serviced := true }] }
      decide (s.me.st.node ∈ s.stallWires) && decide (s.me.status ≠ .idle) && s.gangClusters.all fun c => !c.st.refetching && c.st.held.all fun h => !h.open'),
     !base.hostUp && { base with tsuwin := true, fe := { base.fe with windows := true } }.hostUp &&
       decide (({ base with fe := { base.fe with sdctl := 1 } }).fe.sdctl.getLsbD 0 = true) && !base.fe.sdctl.getLsbD 0,
     (List.range 4).all fun n => decide (((0x18 &&& ~~~6) ||| BitVec.ofNat 64 (2 * n) ||| 1 : Word).toNat / 8 % 4 = 3) &&
       decide (((0x10 &&& ~~~6) ||| BitVec.ofNat 64 (2 * n) ||| 1 : Word).toNat / 8 % 4 ≠ 3),
     (let s := { queued base .l { entry (.load 5 0x20000 (.mem 0x40000 tDev) .d false) .begun with seq := 3 } with fe := { base.fe with sdctl := 7, sdMarks := [(0, 0, 4)] } }
      s.fe.sdMarks.any fun m => s.strands.any fun t => decide (t.node = m.1) && decide (t.idx = m.2.1) && s.sdOwes s.fe.sdctl t m.2.2)]).all id = true := by decide +kernel

/-- A node of one strand in slot 0 of graph 0. -/
def node0 : Node :=
  { slot := 0, vi := 0, stream := 0, graph := 0, gidx := 0, state := .placed, kernel := 0x1000, prio := 0, vkind := false, gang := 1,
    spad := 64, eclass := 0, vars := 1, preds := [], left := 0, regs := [], tok := [], opnd := [], status := 0, cookie := 9, entered := 0,
    passed := 0, reserving := none, finished := [], trapped := none, saved := [], places := [(0, 0)], order := 0 }

def graph0 (released : Bool) : Graph := ⟨0, 0, 0, 1, released, false⟩

def withNode (n : Node) (released : Bool) (s : State) : State := { s with disp := { s.disp with nodes := [n], graphs := [graph0 released] } }

/-- A stalled word at its bound and below it; an entry without progress; a slice that is due and an interface without
funds; a gang that has left, held and not; a strand at DONE, idle and with a trap; a group of one whose member stands ready. -/
theorem test_meets_StrandSteps : (let wd := { VI.zero with wdog := 0x10001, vicfg := 3 }
    [(let s := (withVi wd base).updSt fun t => { t with stall := true, wdC := 80 }
      decide (s.me.status = .running) && decide (s.me.st.node ∉ s.stallWires) && decide (80 * ((s.vi 0).wdog.toNat % 65536) ≤ s.me.st.wdC)),
     (let s := (withVi wd base).updSt fun t => { t with stall := true, wdC := 79 }
      decide (s.me.st.wdC < 80 * ((s.vi 0).wdog.toNat % 65536))),
     (let h := entry .cinv .begun
      let s := (withVi wd (queued base .l h)).updSt fun t => { t with wdE := Vector.replicate 5 80 }
      decide (s.me.st.queue .l = [h]) && decide (80 * ((s.vi 0).wdog.toNat / 65536 % 65536) ≤ s.me.st.wdE.get (engIdx .l)) && decide (s.me.st.traps = [])),
     (let s := (withNode { node0 with slot := 1, state := .ready } true (withVi { wd with slice := 1, vicls := [(0, 1)] } base)).updSt fun t => { t with slice := 1 }
      s.switchable && (s.vi 0).sliced && decide ((s.vi 0).slice.toNat % 2 ^ 24 ≤ s.me.st.slice) && s.waitedFor (fun n => !s.filler n)),
     (let s := withVi { wd with equota := 0x00000001 } base
      s.switchable && !(s.vi 0).funded),
     (let s := withNode { node0 with gang := 1 } true { base with me := { base.me with status := .leaving } }
      decide (s.node s.me.st.node = some { node0 with gang := 1 }) && decide (node0.slot ∉ s.stallWires) && s.overflowFree &&
        (s.gangClusters.any fun c => decide (c.status = .leaving)) &&
        s.gangClusters.all fun c => decide (c.status = .finished) || (decide (c.status = .leaving) && c.st.quiet)),
     (let s := withNode { node0 with trapped := some 0 } true { withVi { VI.zero with tvec := 1 } base with me := { base.me with status := .leaving } }
      decide (s.node s.me.st.node = some { node0 with trapped := some 0 }) && decide ((s.vi 0).tvec.toNat % 2 = 1)),
     (let s := base.updSt fun t => { t with finish := true }
      decide (s.me.status = .running) && s.me.st.finish && decide (s.me.st.traps = []) && s.me.st.idle && decide (s.me.st.nt = [])),
     (let s := base.updSt fun t => { t with finish := true, traps := [TrapRec.defer .tagStale .sq 0x1004] }
      decide (s.me.st.firstTrap EMask.all engOrder = some (TrapRec.defer .tagStale .sq 0x1004))),
     (let w := (encodeM (.relax { mf with sa := .rb false, sb := .acc2, acc2 := 1, mx := 3, nx := 1, kx := 1, fa := .f16 })).getD 0
      let s := (base.placeMatrix w).updSt fun t => { t with mrun := t.mrun.map fun r => { r with work := { r.work with stage := 7 } } }
      let cs := s.groupClusters
      s.me.atStage 7 && cs.all (fun c => c.atStage 7) && decide (cs.length = s.me.st.m.rx.members) && groupOk cs (cs.filterMap Cluster.member) && cs.contains s.me &&
        (let bad := s.updSt fun t => { t with m := { t.m with rx := { t.m.rx with xmode := 0x100000 } } }
         let four := s.updSt fun t => { t with m := { t.m with rx := { t.m.rx with xmode := 0x1000 } } }
         bad.me.atStage 7 && !groupOk bad.groupClusters (bad.groupClusters.filterMap Cluster.member) && four.me.atStage 7 &&
           decide (bad.groupClusters.length = bad.me.st.m.rx.members) && decide (four.groupClusters.length < four.me.st.m.rx.members)))]).all id = true := by decide +kernel

/-- A submission that fits and one that does not; a graph that is to be released and one that has been; a candidate that is
launched and one that returns; completions of each kind, and a gang that has not finished. -/
theorem test_meets_GraphSteps : (let u : Submission := ⟨0, 0x1000, 1, 9, 0, true⟩
    let on := withVi { VI.zero with vicfg := 1, vicls := [(3, 5)] } base
    [(let s := { base with disp := { base.disp with subs := [u] } }
      decide (s.disp.subs = u :: []) && s.nodesFit u.count && !s.nodesFit 262145 && u.bad),
     (let s := withNode { node0 with state := .accepted } false base
      decide ((s.disp.graphs.find? fun g => decide (g.vi = 0) && decide (g.stream = 0)) = some (graph0 false)) && !(graph0 false).released &&
      decide ((0, 0) ∉ s.disp.faulted) && (graph0 true).released),
     (let n := { node0 with slot := 2, state := .ready }
      let s := withNode n true on
      decide (s.candidates = n :: []) && !s.reservedAgainst n && s.powerAdmits n && decide (choosePlaces (s.freeClusters n) n.gang (s.opndHome n) = some [(3, 0)]) &&
      decide ([(3, 0)].Nodup) && decide (n.state ≠ .away)),
     (let n := { node0 with slot := 2, state := .away, gang := 2, saved := [strand0, { strand0 with idx := 1 }], finished := [1] }
      let s := withNode n true on
      decide (s.candidates = n :: []) && !s.reservedAgainst n && s.powerAdmits n && decide (choosePlaces (s.freeClusters n) n.gang (s.opndHome n) = some [(3, 0), (3, 2)]) && decide (n.saved.length = 2)),
     (let n := { node0 with finished := [0] }
      let s := withNode n true base
      decide (s.node 0 = some n) && s.nodesFit 1 && decide (n.finished.length = n.gang) && decide (n.state = .placed)),
     (let n := { node0 with status := 5, state := .held }
      let s := withNode n true base
      decide (s.node 0 = some n) && decide (n.state ≠ .placed) && s.disp.graphs.any fun g => decide (g.id = n.graph) && g.released),
     decide (node0.status = 0) && decide (node0.finished.length < node0.gang)]).all id = true := by decide +kernel

/-- `s` behind boot: its windows are open, its host link and every core are up. -/
def openW (s : State) : State := { s with tsuwin := true, fe := { s.fe with windows := true, booted := true, up := BitVec.allOnes 12 } }

theorem test_meets_HostRegisters : (let two := { base with vis := [(0, { VI.zero with vicls := [(0, 1)] }), (1, { VI.zero with vicfg := 1, vicls := [(0, 3)] })] }
    [!base.hostUp && (openW base).hostUp,
     decide ((0x100000001 : Word).toNat % 2 ^ 32 ≠ 0),
     base.l2.isEmpty && decide (base.shadowLines 23 = 0),
     decide ((base.vi 0).loading = none),
     (let q : StreamQ := ⟨0x4000, true, true, 10, 0, 0⟩
      let e := leBytes 8 0x2000 ++ leBytes 8 0x00000005000000FF ++ leBytes 8 1 ++ List.replicate 40 0
      let s := openW (withVi { VI.zero with vicfg := 1, sqs := [(63, q)] } { base with tsuwin := true, mem := Memory.writeN [] (hostBase + 0x4000) e })
      decide ((s.vi 0).sq 63 = q) && !(s.vi 0).closing && (s.vi 0).enabled && !s.fe.fallback && s.disp.subs.isEmpty && s.fe.events.isEmpty && s.idleCore.isSome &&
      s.fe.cores.isEmpty && decide (q.head.toNat < (1 : Word).toNat) &&
      decide (s.hostGet (q.base.toNat + 64 * (q.head.toNat % 2 ^ q.lsize.toNat)) 64 = some e) && decide (fieldOf (leNat e) 128 32 = (q.head.toNat + 1) % 2 ^ 32)),
     decide (base.fe.visel.toNat = 0) && (warm.haddrOk 0 0x3FFFFFF8).2 && !(warm.haddrOk 0 0x80000000).2,
     (let s := openW base
      !(s.vi 0).enabled && !s.setsClash 0 false []),
     (two.setsClash 0 false (two.vi 0).vicls && !(two.vi 0).enabled && (two.vi 1).enabled && decide ((1 : Word).getLsbD 1 = (two.vi 1).sliced) &&
      decide ((2 : Word).getLsbD 1 ≠ (two.vi 1).sliced)),
     !base.fe.anyEnabled && decide (23 < 24),
     [false, true].all fun w => match warm.pageOf 0 0x3FFFFFF8 w with
      | (s1, .ok (pa, type)) => decide (type ≠ tSys) && (s1.homeErr 0 pa type 8 0 w).isNone && decide (0x3FFFFFF8 % 64 + 8 ≤ 64)
      | _ => false,
     (let host := fun (o : Owner) => match o with
        | .host _ => true
        | _ => false
      let r : Req := ⟨0, .host 0, 0, windowBase, 8, true, true, 0, []⟩
      !warm.awaits host && { warm with fab := { warm.fab with peers := [{ warm.peer 3 with reqs := [r] }] } }.awaits host),
     [false, true].all fun w => (warm.pieces 0 w (linePieces 0x7FFFFFF8 16 2)).2.isNone]).all id = true := by decide +kernel

/-- Interface 0 of `warm` with a command in its mailbox, which core 11 holds. -/
def asked (code : BitVec 8) (a0 a1 : Word) (f : VI → VI) (s : State) : State :=
  let v := s.vi 0
  withVi (f { v with mbox := { v.mbox with cmd := code, busy := true, arg := (v.mbox.arg.set 0 a0).set 1 a1 } })
    { s with fe := { s.fe with cores := [(11, .mailbox 0)] } }

/-- A record of a `.launch` line: kernel 0, one strand, 64 KiB, variant 0. -/
def record : List Byte := leBytes 16 ((2 ^ 109 + 64 * 2 ^ 96) : Nat) ++ List.replicate 112 0

/-- Each command with each of its outcomes. -/
theorem test_meets_MailboxSteps : (let held := { node0 with state := .held, trapped := some 0, saved := [strand0] }
    [decide (7 < (8 : BitVec 8).toNat) && !((openW base).vi 127).mbox.busy && (openW base).idleCore.isSome && (asked 8 0 0 id (openW base)).hostUp &&
       ((asked 8 0 0 id base).vi 0).mbox.busy && (openW base).fe.events.isEmpty,
     (asked 4 5 0 id base).command 0 4,
     (let q : Loaded := ⟨1, [{ Code.empty with entry := 0x1000 }], [0x40000], [(0x50000, 0x10000)]⟩
      let s := asked 2 1 0 (fun v => { v with images := [q] }) base
      s.command 0 2 && decide (((s.vi 0).images.find? fun q => decide (q.handle = 1)) = some q) && !s.imageBusy 0 q && (withNode node0 true s).imageBusy 0 q &&
      !(q.areas.any fun x => s.pagePinned x.1 x.2) && (q.areas.any fun x => { s with pins := [⟨0, 5, 1⟩] }.pagePinned x.1 x.2) &&
      (s.vi 0).images.all fun q => decide (q.handle ≠ 2)),
     (asked 3 65536 0 id base).command 0 3 && decide ((65536 : Word) ≠ BitVec.allOnes 64) && decide (65535 ∉ ((asked 3 65535 0 id base).vi 0).tearing) &&
      !((asked 3 (BitVec.allOnes 64) 0 id base).vi 0).closing && (withNode node0 true base).disp.nodes.any fun n => decide (n.vi = 0) && decide (n.stream = 0),
     (asked 5 0 0 id base).command 0 5 && ((asked 5 0 0 id (withNode held true base)).heldNode 0 0).isSome && ((asked 6 0 0 id base).heldNode 0 0).isNone,
     (let s := asked 6 0 0x2000 id (withNode held true warm)
      s.command 0 6 && (s.heldNode 0 0).isSome && (match s.feBytes 0 (s.mboxArg 0 1).toNat 128 with
       | (_, .ok bs) => (reportRegs bs).isSome
       | _ => false)),
     (let s := asked 7 0x2000 0x4000 id warm
      let spent : State := { s with fe := { s.fe with idLeaf := 1024, leaf := 2 ^ 20 } }
      let last : State := { spent with fe := { spent.fe with leaf := 2 ^ 20 - 1 } }
      s.command 0 7 && decide (s.fe.idLeaf = 0) && okay (s.feBytes 0 (s.mboxArg 0 0).toNat 32).2 && decide (2 ^ 20 ≤ spent.fe.leaf ∧ 1024 ≤ spent.fe.idLeaf) &&
        decide (last.fe.idLeaf ≠ 0 ∧ last.fe.leaf < 2 ^ 20))]).all id = true := by decide +kernel

/-- An image of one kernel, whose one control word is DONE, with its code where `warm` maps read-only CONST bytes, and the same
with a `.launch` line. -/
def image (launches : List (List Byte × List Byte)) : Image := ⟨[⟨[0x4B0000], [], [], 0, [], [], [], [], []⟩], [], [], launches⟩

def layout (records : Nat) : Layout := ⟨[0x40000000], [], [], records⟩

/-- Its code as it is placed. -/
def codes : List Code := ((image []).kernels.zip ((layout 0).ctrlVa ++ List.replicate 1 0)).map fun x => placeKernel x.1 x.2

/-- LOAD of an image that breaks a rule, of a layout that does, and of one with and without a launch. -/
theorem test_meets_MailboxSteps_load : ((asked 1 0x2000 64 id warm).command 0 1 && (asked 1 0x2000 64 id warm).fe.events.isEmpty &&
      okay ((asked 1 0x2000 64 id warm).feBytes 0 0x2000 64).2 && ((asked 1 0x2000 64 id warm).vi 0).loading.isNone &&
      decide ((((asked 1 0x2000 64 id warm).vi 0).sq 0).tail.toNat + 1 < 2 ^ 64) && (imageBroken (image []) codes).isNone && (imageBroken (image [(record, [])]) codes).isNone &&
      (imageBroken { image [] with kernels := (image []).kernels.map fun k => { k with entry := 5 } } codes).isSome) = true := by decide +kernel

theorem test_meets_MailboxSteps_layout : (warm.layoutOk 0 (image [(record, [])]) (layout 0x4000) codes &&
    (let none : Image := ⟨[], [], [], []⟩
     (asked 1 0 0 id base).command 0 1 && okay ((asked 1 0 0 id base).feBytes 0 0 0).2 && (imageBroken none []).isNone &&
       base.layoutOk 0 none ⟨[], [], [], 0⟩ [] && !base.layoutOk 0 none ⟨[], [], [], 1⟩ [])) = true := by decide +kernel

/-- Rails, levels, an interface of each kind, a period that has come and one that has not, ticks above and below the envelope,
a throttled cluster, a grant of each kind, and telemetry on, off and before its interval has passed. -/
theorem test_meets_PowerSteps : ([(let s := { base with me := { base.me with st := { base.me.st with vars := 5 } } }
      (s.vi 0).funded && decide (s.me.status ≠ .idle) && !(withVi { VI.zero with equota := 1 } base |>.vi 0).funded && s.me.st.vars.getLsbD 2 && !s.me.st.vars.getLsbD 1),
     (let v := { VI.zero with equota := 0xFFFFFF9C00000064 }
      let share : Int := (v.equota.toNat % 2 ^ 32 : Nat)
      decide (v.balance = -100) && decide ((-(2 : Int) ^ 31) ≤ min (v.balance + share) share) && decide (min (v.balance + share) share < (2 : Int) ^ 31)),
     decide (base.pow.now / 10000000 + 1 ≤ { VI.zero with refills := 1 }.refills) && decide (VI.zero.refills < base.pow.now / 10000000 + 1) &&
       base.idleCore.isNone && (openW base).idleCore.isSome,
     base.fe.errs.isEmpty && decide (base.pow.envelope ≤ 100 * base.input.headD 5) &&
       (let s : State := { base with pow := { base.pow with envelope := 501 } }
        let f : State := { base with fe := { base.fe with ramp := 2 ^ 32 }, pow := { base.pow with envelope := 501 } }
        decide (100 * s.input.headD 5 < s.pow.envelope) && decide (1000 * (s.fe.ramp.toNat / 2 ^ 32 % 65536) < s.pow.envelope) &&
          decide (f.pow.envelope ≤ 1000 * (f.fe.ramp.toNat / 2 ^ 32 % 65536))),
     (let s := base.updSt fun t => { t with stall := true }
      decide (s.me.status = .running) && decide (s.me.thrNow = 0) && decide (s.me.st.node ∉ s.stallWires)),
     (let p := { base.pow with dies := List.replicate 24 216 ++ [320] }
      decide ({ p with grants := Sp.set p.grants 23 120 0 }.granted ≤ 120) && decide (120 < { p with grants := Sp.set p.grants 23 121 0 }.granted) &&
       decide (Sp.get p.grants 23 0 < 120 ∧ 215 < p.dies.getD 23 0) && decide (Sp.get p.grants 24 0 < 1 ∧ ¬ 320 < p.dies.getD 24 0)),
     (let s := openW { base with fe := { base.fe with telcfg0 := 0x1F, telcfg1 := 0x40000 }, pow := { base.pow with now := 100000 } }
      let a := s.fe.telcfg1.toNat / 64 % 2 ^ 46 * 64 + 64 * (s.fe.telIdx % 2 ^ (s.fe.telcfg0.toNat / 2 % 16))
      let gap := 1000 * max 100 (s.fe.telcfg0.toNat / 32 % 65536)
      s.fe.telcfg0.getLsbD 0 && decide (apert a = .linear) && decide (s.pow.telTime < 2 ^ 64) && s.idleCore.isSome && decide (s.pow.telLast + gap ≤ s.pow.now) &&
        decide (99999 < s.pow.telLast + gap) && !base.fe.telcfg0.getLsbD 0)]).all id = true := by decide +kernel

/-- The pair with package 3, two routes to it. -/
def far : Peer := { base.peer 3 with routes := [⟨0, 1⟩, ⟨35, 2⟩] }

def paired (q : Peer) (s : State) : State := { s with fab := { s.fab with peers := [q] } }

def pk (seq : Nat) (b : Payload) : Packet := ⟨3, base.pkg, 0, 0, seq, b⟩

/-- Packets out of the window, ahead in it, and next; acknowledgements; a timeout with a route left, and before it is late; a
lost destination; routes; ports and links. -/
theorem test_meets_FabricSteps : (let s := paired far { base with fab := { base.fab with exports := [(2047, ⟨true, true, false, 0, 0x40000000⟩)] } }
    let p := pk 0 (.load (2047 * 2 ^ 26) 8)
    [decide (4096 ≤ (BitVec.ofNat 32 4096 - (s.peer 3).expect).toNat) && decide ((BitVec.ofNat 32 4095 - (s.peer 3).expect).toNat = 4095) && decide (p.dst = s.pkg),
     decide (p.seq % 2 ^ 32 = (s.peer 3).expect.toNat) && (s.peer 3).window.isEmpty && decide ((s.peer 3).retry.length < 4096) && !(s.peer 3).lost,
     okay (s.exportRead 0 (2047 * 2 ^ 26) 8) && okay (s.exported 0 (2047 * 2 ^ 26) 8 true) && !okay (s.exportRead 1 (2047 * 2 ^ 26) 8),
     (let q : Peer := { far with retry := [p], sent := [(0, 0)], failed := [0] }
      let s := paired q { base with pow := { base.pow with now := 100000 } }
      decide (1 < q.routes.length) && !q.failed.contains 1 && (List.range 1).all (fun j => q.failed.contains j) &&
        ((s.peer 3).sent.any fun x => decide (x.2 + 1000 * 100 ≤ s.pow.now)) && !(q.sent.any fun x => decide (x.2 + 1000 * 100 ≤ 99999))),
     (let q : Peer := { far with failed := [0, 1] }
      let s := paired q { base with input := [3], pow := { base.pow with now := 1000000000 } }
      decide (s.input.head? = some 3) && !(s.peer 3).lost && (List.range 2).all (fun k => (s.peer 3).failed.contains k) && (s.peer 3).reqs.isEmpty &&
        s.fab.colls.isEmpty && decide ((s.peer 3).since + 1000000 * 1000 ≤ s.pow.now) && decide (999999999 < (s.peer 3).since + 1000000 * 1000)),
     ((s.peer 3).routes.all fun r => decide (r.port < 36)) && decide ((s.peer 3).routes[1]? = some ⟨35, 2⟩) && ({ far with lost := true }).lost,
     ({ base with me := Cluster.reset 0 0 }).strands.isEmpty && base.shadow.isEmpty && decide ((base.cxl.get 7).limit ≤ 2 ^ 28) &&
       (let s : State := { base with cxl := base.cxl.set 7 ⟨true, 2 ^ 41⟩ }
        decide (2 ^ 28 < (s.cxl.get 7).limit)) && decide ({ base with input := [7] }.input.head? = some (7 : Fin 8).val)]).all id = true := by decide +kernel

/-- A request to package 3 that waits for both of its answers, for either one and for none. -/
def waitsFor (o : Owner) (ack reply : Bool) : Req := ⟨5, o, 0, windowBase, 8, ack, reply, 0, []⟩

/-- The reply to a load and the acknowledgement of a store, as the last answer and as the first; a copy behind a CXL link. -/
theorem test_meets_FabricSteps_answers : (let l := entry (.load 7 0x20000 (.mem windowBase tSys) .d false) .submitted
    let w := entry (.store 0x20000 (.mem windowBase tSys) .d 7) .submitted
    let k := entry (.copy .copy false 0x20000 0x30000 64 0 0) .submitted
    let loads := fun (ack : Bool) => (paired { far with reqs := [waitsFor (.entry 0 0 .l 0) ack true] } (queued base .l l)).updSt fun t =>
      { t with pendDst := t.pendDst.set 7 (some 0) }
    let stores := fun (reply : Bool) => paired { far with reqs := [waitsFor (.entry 0 0 .sq 0) true reply] } (queued base .sq w)
    let p := pk 0 (.reply 5 0 [1, 2, 3, 4, 5, 6, 7, 8])
    let run : CopyRun := { flips with grans := [0x200000000000 / 65536] }
    [decide (p.seq % 2 ^ 32 = ((loads false).peer 3).expect.toNat) && decide ((loads false).fab.ports ≠ 0) && ((loads false).peer 3).window.isEmpty,
     [false, true].all fun ack => decide (((loads ack).peer 3).reqs.find? (fun r => decide (r.num = 5) && (r.ack || r.reply)) = some (waitsFor (.entry 0 0 .l 0) ack true)) &&
       decide ((loads ack).me.st.lqu = [l]) && decide ((loads ack).me.st.pendDst.get (gIdx 7) = some l.seq),
     [false, true].all fun reply => decide (((stores reply).peer 3).reqs.find? (fun r => decide (r.num = 5) && (r.ack || r.reply)) = some (waitsFor (.entry 0 0 .sq 0) true reply)) &&
       decide ((stores reply).me.st.squ = [w]),
     (let s : State := { queued base .k k with shadow := [run], input := [0] }
      decide (s.input.head? = some (0 : Fin 8).val) && decide (s.shadow = [run]) && decide (run.key = s.me.key) && decide (s.me.st.kqu = [k]) &&
        (run.grans.any fun g => decide (0x200000000000 ≤ g * 65536 ∧ g * 65536 < 0x220000000000)))]).all id = true := by decide +kernel

/-- A collective of two packages at rank 0 (a ring sum of four F32 elements, two buckets), its doorbell in slot memory. -/
def coll0 : Coll :=
  { die := 0, slot := 63, st := .running, att := 1, code := 0, done := 0, vi := 0, node := 0, idx := 0,
    desc := { op := 0, tree := false, narrow := false, cls := 0, fmt := .f32, parts := 2, rank := 0, att := 1, id := 7, buckets := 2, cpb := 1,
              blen := 4, src := 0x20000, dst := 0x20000, peers := 0, door := 0 },
    peers := [base.pkg, 3], rvi := 0, src := [⟨0x20000, 0x2FFFF, .mem 0x40000 tDev⟩], dst := [⟨0x20000, 0x2FFFF, .mem 0x40000 tDev⟩], pages := [],
    door := syncBase + 0x100000, flight := [], next := 0, pins := [], credits := [(0, 1)], arrived := [], gongs := [] }

def bucket0 : Bucket := { b := 0, vals := [0, 0, 0, 0], got := 0, sent := [], part := none, shadowed := false, ended := false }

def withColl (c : Coll) (s : State) : State := { s with fab := { s.fab with colls := [c] } }

/-- A bucket that starts, one whose source fails, and one that waits; a packet that goes, the rest of a chunk, a chunk that
has arrived, and neither; a whole bucket; a lost peer; a gong of this attempt, of another and for no collective. -/
theorem test_meets_CollectiveSteps : (let s := withColl coll0 { base with mem := Memory.writeN [] (canon (syncBase + 0x100000)) (leBytes 8 1) }
    [(s.coll 0 63).isSome && decide (coll0.next < coll0.desc.buckets) && decide (coll0.open.length < 4) && decide (1 * coll0.desc.cpb ≤ s.doorbell coll0) &&
       okay (s.bucketRead coll0 0) && decide (s.doorbell coll0 < 2 * coll0.desc.cpb),
     (let s := { s with poison := [0x1000] }
      match s.bucketRead coll0 0 with
      | .ok _ => false
      | .error e => decide (e ≠ 7)),
     (let c := { coll0 with flight := [bucket0], next := 1 }
      (c.flight.find? (fun x => decide (x.b = 0))).isSome && (c.nextSend bucket0).isSome && decide ((s.peer 3).retry.length < 4096) && !(s.peer 3).lost &&
        (c.nextSend { bucket0 with part := some (1, 1) }).isSome),
     (let c := { coll0 with flight := [bucket0], credits := [] }
      (c.nextSend bucket0).isNone && (c.nextRecv bucket0).isNone && !c.whole bucket0),
     (let c := { coll0 with flight := [bucket0], credits := [], arrived := [(0, 1, [1, 2])] }
      (c.nextSend bucket0).isNone && (c.nextRecv bucket0).isSome),
     (let q : Bucket := { bucket0 with got := 2, sent := [1, 2], shadowed := true }
      let c := { coll0 with flight := [q] }
      let run : CopyRun := { flips with key := c.key 0 }
      let s := { withColl c base with shadow := [run] }
      c.whole q && decide (c.open = [q]) && (s.shadow.find? (fun x => decide (x.key = c.key q.b))).isSome && decide (s.input = []) && !s.collWaits c &&
        decide ((run.bytes.map fun b => b.pa).Nodup) && decide (run.bytes ≠ []) && (run.bytes.all fun b =>
        !b.tw && !b.pub && decide (b.pa < windowBase) && (s.unbacked (64 * (b.pa / 64))).isNone && !s.poison.contains (b.pa / 64))),
     !coll0.credits.contains (1, 1) && decide (coll0.others = [3]) && !(s.peer 3).lost &&
       ({ s with fab := { s.fab with peers := [{ s.peer 3 with lost := true }] } }.peer 3).lost,
     decide (s.fab.colls.find? (fun c => decide (c.vi = 0) && decide (c.desc.id = 7)) = some coll0) && decide (coll0.att.toNat = 1) && (s.peer 3).window.isEmpty &&
       (s.fab.colls.find? (fun c => decide (c.vi = 0) && decide (c.desc.id = 8))).isNone]).all id = true := by decide +kernel

/-- A strand with a commit, protected and not; a location with a corrected error, due and not; the error ring on and off; a
report of boot of each kind; a core that is up and down, with an event and without; the fallback's turns before and behind its
last queue, with an entry and without; the windows. -/
theorem test_meets_ReliabilitySteps : (let t := base.me.st
    let c : Snap := ⟨t.ctl, t.v, t.m, t.q, t.spad, [], []⟩
    let s := base.updSt fun t => { t with ckpt := some c, rollbacks := 1 }
    let q : StreamQ := ⟨0x4000, true, true, 10, 0, 0⟩
    let e := leBytes 8 0x2000 ++ leBytes 8 0x00000005000000FF ++ leBytes 8 1 ++ List.replicate 40 0
    let f : State := { withVi { VI.zero with vicfg := 1, sqs := [(3, q), (63, { q with tail := 1 })] } { base with tsuwin := true, mem := Memory.writeN [] (hostBase + 0x4000) e } with
      fe := { base.fe with fallback := true, up := 0xFFE, booted := true } }
    let up := fun (s : State) => { s with fe := { s.fe with up := 0xFFF } }
    let site : ErrSite := ⟨0, 0, 0, 0x40000⟩
    let seen : Merged := ⟨site, 1, 0, 0, 0⟩
    [decide (s.me.status ≠ .idle) && !s.me.st.inFlight && decide (s.me.st.ckpt = some c) && !s.me.st.unprotected && !s.me.st.openOld .v && decide (s.me.st.rollbacks < 2) &&
       decide (s.recentRollbacks.length < 16) && decide (s.me.st.halt = []),
     (s.updSt fun t => { t with unprotected := true }).me.st.unprotected && (s.updSt fun t => { t with vrun := some blockRun, openSeq := 1 }).me.st.openOld (errEng (.residue false)),
     (let s : State := openW { base with fe := { base.fe with errs := [seen], errcfg0 := 0x1F, errcfg1 := 0x40000 } }
      s.fe.errcfg0.getLsbD 0 && decide (s.fe.errs = [seen]) && s.idleCore.isSome && s.fe.cores.isEmpty && s.fe.events.isEmpty &&
        decide (seen.since + 1000000000 ≤ 999900000 + 100000) && decide (s.pow.now + 100000 < seen.since + 1000000000) && !base.fe.errcfg0.getLsbD 0 && base.fe.errs.isEmpty),
     (let b : BootReport := ⟨1, 2, true, true, 3, 3, [], true, []⟩
      b.sigOk0 && b.sigOk1 && decide (base.fe.fused ≤ b.version0 ∧ base.fe.fused ≤ b.version1) && !({ b with sigOk1 := false }).sigOk1 && decide (¬ 4 ≤ b.version0)),
     (let s : State := { base with fe := { base.fe with cores := [(11, .mailbox 0)], up := BitVec.ofNat 12 (2 ^ 11) }, input := [11] }
      decide (s.fe.cores = [(11, .mailbox 0)]) && decide (s.fe.up = BitVec.ofNat 12 (2 ^ 11)) && s.fe.events.isEmpty && decide (s.input = 11 :: [])),
     (up f).fe.up.getLsbD 11 && !f.fe.up.getLsbD 0 && f.fe.booted && f.fe.cores.isEmpty,
     decide (f.enabledQueues = [] ++ 3 :: [63]) && decide (f.fe.turn ≤ 3) &&
       (let g : State := { f with fe := { f.fe with turn := 64 } }
        g.enabledQueues.all fun j => decide (j < g.fe.turn)) && ((f.sqScan 0 63).disp.subs.any fun u => decide (64 * u.vi + u.queue = 63)) &&
       (f.sqScan 0 3).disp.subs.isEmpty,
     f.fe.booted && !f.fe.windows && !base.fe.booted]).all id = true := by decide +kernel

/-- A cluster error while an atomic is on its way, another one behind it and the same again; the third rollback and the
sixteenth. -/
theorem test_meets_ReliabilitySteps_halt : (let h := entry (.atomic .cas 5 0x20000 (.mem windowBase tSys) true 1 2 .pkg .rlx) .submitted
    let s := queued base .sq h
    let k := ClusterErr.residue false
    let halted := s.updSt fun t => { t with halt := [(k, 0)] }
    let many : State := { base with me := { base.me with rollbackTimes := List.replicate 15 base.pow.now } }
    s.me.st.inFlight && decide (s.me.status ≠ .idle) && decide (s.me.st.halt = []) && (halted.me.st.halt.any fun x => decide (x.1 = k)) &&
      decide (2 ≤ ({ base.me.st with rollbacks := 2 }).rollbacks) && decide (16 ≤ many.recentRollbacks.length)) = true := by decide +kernel

/-- The port without and with its address, with a core for it and without, the ends of the endpoint's range, and the receiver's
edges with each message, in time and late. -/
theorem test_meets_ManagementSteps : (let s : State := openW { base with mgmt := { base.mgmt with addr := some 0x7F } }
    [(let full : State := { s with fe := { s.fe with up := 0 } }
      full.mgmt.addr.isSome && !full.fe.bootFailed && full.fe.events.isEmpty && full.idleCore.isNone && full.fe.cores.isEmpty),
     (let fresh := fun (s : State) => decide (s.fe.idLeaf = 0) || decide (2 ^ 20 ≤ s.fe.leaf)
      let keys := fun (key leaf : Nat) => ({ s with fe := { s.fe with idLeaf := key, leaf := leaf } } : State)
      fresh s && decide (s.fe.idLeaf < 1024) && !fresh (keys 1024 0) && fresh (keys 1024 (2 ^ 20)) && decide (1024 ≤ (keys 1024 (2 ^ 20)).fe.idLeaf)),
     decide (base.mgmt.addr = none) && s.mgmt.addr.isSome && !s.fe.bootFailed && s.idleCore.isSome && base.idleCore.isNone &&
       decide ((1 : BitVec 8) ≠ 0 ∧ (0xFE : BitVec 8) ≠ 0xFF) && decide (s.input = []) && decide (s.fe.leaf < 2 ^ 20),
     (let m : Mgmt := { s.mgmt with pending := some 5 }
      let n : Mgmt := { s.mgmt with synced := some 6 }
      decide (m.pending = some 5) && decide (n.pending = none ∧ n.synced = some 6) && decide (s.mgmt.pending = none ∧ s.mgmt.synced = none ∧ s.mgmt.announced = none)),
     (let s : State := { s with mgmt := { s.mgmt with edge := some (7, 0) } }
      let want := fun (d : Nat) => 7 * 1000000000 + ((s.pow.advance d).now - 0)
      decide (8 * 1000000000 ≤ want 999999900 + 100 ∧ want 999999900 ≤ 8 * 1000000000 + 100) && !decide (8 * 1000000000 ≤ want 999999899 + 100))]).all id = true := by decide +kernel

end Sys2Proof.Tests
end

section
/-!
SUPPORT. What the walk of the front end, the homes and the firmware pool leave alone, said once for each shared operation:
a step outside the clusters reads and fills memory and slices, and a core that handles an event changes counters and
results of an interface, never its configuration, its nodes or its life.
-/

namespace Sys2Proof.Machine

/-! ### Accesses of the front end and of the homes -/

/-- A state without what an access at the homes may change: memory, poison, the slices, the walkers' caches, the draws. -/
def State.around (s : State) : State := { s with mem := [], poison := [], l2 := [], ptrs := [], free := 0 }

theorem vis_of_around {s t : State} (h : t.around = s.around) : t.vis = s.vis :=
  show t.around.vis = s.around.vis by rw [h]
theorem me_of_around {s t : State} (h : t.around = s.around) : t.me = s.me :=
  show t.around.me = s.around.me by rw [h]
theorem fe_of_around {s t : State} (h : t.around = s.around) : t.fe = s.fe :=
  show t.around.fe = s.around.fe by rw [h]
theorem disp_of_around {s t : State} (h : t.around = s.around) : t.disp = s.disp :=
  show t.around.disp = s.around.disp by rw [h]
theorem pow_of_around {s t : State} (h : t.around = s.around) : t.pow = s.pow :=
  show t.around.pow = s.around.pow by rw [h]
theorem fab_of_around {s t : State} (h : t.around = s.around) : t.fab = s.fab :=
  show t.around.fab = s.around.fab by rw [h]
theorem tsuwin_of_around {s t : State} (h : t.around = s.around) : t.tsuwin = s.tsuwin :=
  show t.around.tsuwin = s.around.tsuwin by rw [h]
theorem vi_of_around {s t : State} (h : t.around = s.around) (k : Nat) : t.vi k = s.vi k := by
  rw [State.vi, State.vi, vis_of_around h]

@[simp] theorem l2Use_around (s : State) (a tag : Nat) (write : Bool) : (s.l2Use a tag write).around = s.around := by
  rw [l2Use_frame s a tag write]; rfl

@[simp] theorem baseWrite_around (s : State) (a : Nat) (bs : List Byte) : (s.baseWrite a bs).around = s.around := l2Use_around ..

theorem baseWrite_mem (s : State) (a : Nat) (bs : List Byte) : (s.baseWrite a bs).mem = s.mem.writeN a bs := l2Use_mem ..

@[simp] theorem hostPut_around (s : State) (a : Nat) (bs : List Byte) : (s.hostPut a bs).around = s.around := by
  rw [State.hostPut]; split <;> rfl

@[simp] theorem ringPut_around (s : State) (a : Nat) (bs : List Byte) : (s.ringPut a bs).around = s.around := by
  rw [State.ringPut]
  split
  · exact baseWrite_around ..
  · exact baseWrite_around ..
  · exact hostPut_around ..
  · rfl

@[simp] theorem touchLeaf_around (s : State) (l : Leaf) (write : Bool) : (s.touchLeaf l write).around = s.around := by
  rw [State.touchLeaf]
  split
  · rfl
  · exact l2Use_around ..

/-- A walk of the front end reads the tables through their slices and uses no cache (R68). -/
theorem walk_around (vi va : Nat) (levels : List Nat) :
    ∀ (s : State) (table : Nat), (s.walk none vi table va levels).1.around = s.around := by
  induction levels with
  | nil => intro s table; rfl
  | cons lvl rest ih =>
    intro s table
    simp only [State.walk, State.ptrUse, State.ptrFill]
    split
    · exact l2Use_around ..
    · split
      · exact l2Use_around ..
      · split
        · exact (ih _ _).trans (l2Use_around ..)
        · exact l2Use_around ..

theorem walkBy_around (s : State) (vi va : Nat) : (s.walkBy none vi va).1.around = s.around := by
  simp only [State.walkBy]
  split
  · rfl
  · split
    · rfl
    · split
      · exact walk_around ..
      · rfl

@[simp] theorem pageOf_around (s : State) (vi va : Nat) (write : Bool) : (s.pageOf vi va write).1.around = s.around := by
  have hw := walkBy_around s vi va
  unfold State.pageOf
  split
  · rfl
  · split
    · rfl
    · split
      · rfl
      · split
        · next h => rw [h] at hw; exact hw
        · next h => rw [h] at hw; exact (touchLeaf_around ..).trans hw

/-- The lookup of a page, as an equation that a caller has at hand. -/
theorem around_of_pageOf {s s1 : State} {vi va : Nat} {write : Bool} {r : Except Cause (Nat × Nat)}
    (h : s.pageOf vi va write = (s1, r)) : s1.around = s.around := by
  have := pageOf_around s vi va write
  rwa [h] at this

@[simp] theorem selRead_around (s : State) (pa type : Nat) : (s.selRead pa type).around = s.around := by
  rw [State.selRead]
  split
  · exact l2Use_around ..
  · rfl

theorem selRead_mem (s : State) (pa type : Nat) : (s.selRead pa type).mem = s.mem := by
  rw [State.selRead]
  split
  · exact l2Use_mem ..
  · rfl

@[simp] theorem homeTouch_around (s : State) (pa type : Nat) (tag : BitVec 20) : (s.homeTouch pa type tag).around = s.around :=
  (l2Use_around ..).trans (selRead_around ..)

theorem homeTouch_mem (s : State) (pa type : Nat) (tag : BitVec 20) : (s.homeTouch pa type tag).mem = s.mem :=
  (l2Use_mem ..).trans (selRead_mem ..)

/-- The base tag selects no cell (R162). -/
@[simp] theorem usesCell_base (type : Nat) : usesCell type 0 = false := by simp [usesCell, tagId]

/-- A write under the base tag goes to base memory (R118). -/
theorem homeWrite_base (s : State) (pa type : Nat) (bs : List Byte) :
    s.homeWrite pa type 0 bs = (s.selRead pa type).baseWrite (s.storage pa type true) bs := by
  simp only [State.homeWrite, usesCell_base, Bool.false_eq_true, if_false]

@[simp] theorem homeWrite_around (s : State) (pa type : Nat) (bs : List Byte) :
    (s.homeWrite pa type 0 bs).around = s.around := by
  rw [homeWrite_base]
  exact (baseWrite_around ..).trans (selRead_around ..)

theorem homeWrite_mem (s : State) (pa type : Nat) (bs : List Byte) :
    (s.homeWrite pa type 0 bs).mem = s.mem.writeN (s.storage pa type true) bs := by
  rw [homeWrite_base, baseWrite_mem, selRead_mem]

theorem feRead_around (fuel : Nat) : ∀ (s : State) (vi va n : Nat) (acc : List Byte),
    (s.feRead vi va n fuel acc).1.around = s.around := by
  induction fuel with
  | zero => intros; rfl
  | succ fuel ih =>
    intro s vi va n acc
    unfold State.feRead
    split
    · rfl
    · simp only
      split
      · next h => exact around_of_pageOf h
      · next h =>
        have hp := around_of_pageOf h
        split
        · exact hp
        · split
          · exact hp
          · exact ((ih _ _ _ _ _).trans (homeTouch_around ..)).trans hp

theorem feBytes_around (s : State) (vi va n : Nat) : (s.feBytes vi va n).1.around = s.around := feRead_around ..

theorem feWrite_around (fuel : Nat) : ∀ (s : State) (vi va : Nat) (bs : List Byte),
    (s.feWrite vi va bs fuel).1.around = s.around := by
  induction fuel with
  | zero => intros; rfl
  | succ fuel ih =>
    intro s vi va bs
    unfold State.feWrite
    split
    · rfl
    · simp only
      split
      · next h => exact around_of_pageOf h
      · next h =>
        have hp := around_of_pageOf h
        split
        · exact hp
        · split
          · exact hp
          · exact ((ih _ _ _ _).trans (homeWrite_around ..)).trans hp

theorem fePut_around (s : State) (vi va : Nat) (bs : List Byte) : (s.fePut vi va bs).1.around = s.around := feWrite_around ..

theorem sqRead_around (s : State) (vi : Nat) (x : StreamQ) (n : Nat) : (s.sqRead vi x n).1.around = s.around := by
  have hb := feBytes_around s vi (x.base.toNat + 64 * (x.head.toNat % 2 ^ x.lsize.toNat)) n
  simp only [State.sqRead]
  split
  · rfl
  · split
    · next h => rw [h] at hb; exact hb
    · next h => rw [h] at hb; exact hb

@[simp] theorem notify_around (s : State) (vi k : Nat) : (s.notify vi k).around = s.around := by
  simp only [State.notify]
  split
  · exact hostPut_around ..
  · rfl

/-! ### Interfaces -/

theorem vi_setVi (s : State) (n k : Nat) (v : VI) : (s.setVi n v).vi k = if k = n then v else s.vi k := by
  by_cases h : k = n
  · rw [h, if_pos rfl, State.setVi_same]
  · rw [if_neg h, State.setVi_other _ _ _ _ h]

@[simp] theorem VI.sq_setSq (v : VI) (q : Nat) (x : StreamQ) : (v.setSq q x).sq q = x := Sp.get_set_same ..

@[simp] theorem VI.lq_setLq (v : VI) (q : Nat) (x : LaunchQ) : (v.setLq q x).lq q = x := Sp.get_set_same ..

/-! ### The firmware pool (R419) -/

/-- An interface without what firmware cores change as they handle events: the index of its completion ring, its mailbox, and
its balance with the count of its refills. -/
def VI.configured (v : VI) : VI := { v with crIdx := 0, mbox := VI.zero.mbox, equota := 0, refills := 0 }

theorem enabled_of_configured {v w : VI} (h : v.configured = w.configured) : v.enabled = w.enabled :=
  show v.configured.enabled = w.configured.enabled by rw [h]
theorem closing_of_configured {v w : VI} (h : v.configured = w.configured) : v.closing = w.closing :=
  show v.configured.closing = w.configured.closing by rw [h]
theorem sqs_of_configured {v w : VI} (h : v.configured = w.configured) : v.sqs = w.sqs :=
  show v.configured.sqs = w.configured.sqs by rw [h]

/-- Between two states firmware cores have handled events: nodes and configurations stand, and a submission that has come is
one of an enabled interface that is not being torn down (R337, R411). -/
structure Served (s t : State) : Prop where
  nodes : t.disp.nodes = s.disp.nodes
  configured : ∀ k, (t.vi k).configured = (s.vi k).configured
  subs : ∀ u ∈ t.disp.subs, u ∈ s.disp.subs ∨ ((s.vi u.vi).enabled = true ∧ (s.vi u.vi).closing = false)

theorem Served.of_disp {s t : State} (hd : t.disp = s.disp) (hv : ∀ k, (t.vi k).configured = (s.vi k).configured) :
    Served s t := ⟨by rw [hd], hv, fun u hu => .inl (by rwa [hd] at hu)⟩

/-- A step that leaves dispatcher and interfaces alone. -/
theorem Served.of_eq {s t : State} (hd : t.disp = s.disp) (hv : t.vis = s.vis) : Served s t :=
  .of_disp hd fun k => by rw [State.vi, State.vi, hv]

theorem Served.refl (s : State) : Served s s := .of_eq rfl rfl

theorem Served.trans {s t u : State} (h1 : Served s t) (h2 : Served t u) : Served s u := by
  refine ⟨h2.nodes.trans h1.nodes, fun k => (h2.configured k).trans (h1.configured k), fun x hx => ?_⟩
  rcases h2.subs x hx with h | ⟨he, hc⟩
  · exact h1.subs x h
  · exact .inr ⟨enabled_of_configured (h1.configured x.vi) ▸ he, closing_of_configured (h1.configured x.vi) ▸ hc⟩

/-- A step before which only other parts of the state have changed. -/
theorem Served.from {s s' t : State} (h : Served s' t) (hd : s'.disp = s.disp) (hv : s'.vis = s.vis) : Served s t :=
  (Served.of_eq hd hv).trans h

/-- A step that replaces an interface by one of the same configuration. -/
theorem Served.of_setVi {s t : State} {n : Nat} {v : VI} (hd : t.disp = s.disp) (hv : t.vis = (s.setVi n v).vis)
    (hc : v.configured = (s.vi n).configured) : Served s t :=
  .of_disp hd fun k => by
    have e : t.vi k = (s.setVi n v).vi k := by rw [State.vi, hv]; rfl
    rw [e, vi_setVi]
    split
    · next h => rw [h, hc]
    · rfl

theorem sqScan_served (s : State) (vi q : Nat) : Served s (s.sqScan vi q) := by
  unfold State.sqScan
  simp only
  split
  · exact .refl s
  · next hg =>
    have ha := sqRead_around s vi ((s.vi vi).sq q) 64
    simp only [Bool.or_eq_true, Bool.not_eq_true', not_or, Bool.not_eq_false, Bool.not_eq_true] at hg
    obtain ⟨⟨⟨⟨_, he⟩, hc⟩, _⟩, _⟩ := hg
    split
    · next h => rw [h] at ha; exact .of_eq (disp_of_around ha) (vis_of_around ha)
    · next s1 bs h =>
      rw [h] at ha
      have h1 : Served s s1 := .of_eq (disp_of_around ha) (vis_of_around ha)
      split
      · exact h1
      · refine ⟨h1.nodes, h1.configured, fun u hu => ?_⟩
        simp only [List.mem_append, List.mem_singleton] at hu
        rcases hu with hu | rfl
        · exact h1.subs u hu
        · exact .inr ⟨he, hc⟩

theorem notify_served (s : State) (vi k : Nat) : Served s (s.notify vi k) :=
  .of_eq (disp_of_around (notify_around ..)) (vis_of_around (notify_around ..))

theorem report_served (s : State) (time vi kind status strand cookie node gidx : Nat) (trp : List Word) (vector : Nat) :
    Served s (s.report time vi kind status strand cookie node gidx trp vector) := by
  unfold State.report
  simp only
  split
  · exact .refl s
  · have hput : ∀ a bs, Served s ((s.hostPut a bs).setVi vi { s.vi vi with crIdx := (s.vi vi).crIdx + 1 }) := fun a bs => by
      have ha := hostPut_around s a bs
      refine .of_setVi (n := vi) (v := { s.vi vi with crIdx := (s.vi vi).crIdx + 1 }) ?_ ?_ rfl
      · exact disp_of_around (s := s) (t := s.hostPut a bs) ha
      · rw [State.setVi, State.setVi, vis_of_around ha]
    exact .trans (hput _ _) (notify_served _ _ _)

theorem mboxResult_served (s : State) (vi res : Nat) : Served s (s.mboxResult vi res) := by
  unfold State.mboxResult
  simp only
  have hput : ∀ v : VI, v.configured = (s.vi vi).configured → Served s (s.setVi vi v) := fun v hv =>
    .of_setVi (n := vi) (v := v) rfl rfl hv
  split
  · refine .trans ?_ (notify_served _ _ _)
    exact hput _ rfl
  · exact hput _ rfl

theorem mgmtOuts_served (l : List (List Byte)) : ∀ s : State, Served s (l.foldl (fun s m => s.mgmtOut (vendorReply m)) s) := by
  induction l with
  | nil => exact fun s => .refl s
  | cons m r ih => exact fun s => (ih (s.mgmtOut (vendorReply m))).from rfl rfl

theorem nextLeaf_served {s s1 : State} {leaf : Nat} (h : s.nextLeaf = some (s1, leaf)) : Served s s1 := by
  unfold State.nextLeaf at h
  simp only at h
  split at h
  · cases h; exact .of_eq rfl rfl
  · split at h
    · cases h; exact .of_eq rfl rfl
    · cases h

theorem sendQuote_served (s : State) (nonce : BitVec 256) : Served s (s.sendQuote nonce) := by
  unfold State.sendQuote
  split
  · exact .of_eq rfl rfl
  · next h => exact (nextLeaf_served h).trans (mgmtOuts_served _ _)

theorem manage_served (s : State) (m : MgmtMsg) : Served s (s.manage m) := by
  cases m with
  | setEid eid => simp only [State.manage]; split <;> exact .of_eq rfl rfl
  | quote nonce => exact sendQuote_served s nonce
  | _ => exact .of_eq rfl rfl

theorem recap_vis (s : State) (vi : Nat) : (s.recap vi).vis = s.vis := by rw [State.recap]; split <;> rfl
theorem recap_disp (s : State) (vi : Nat) : (s.recap vi).disp = s.disp := by rw [State.recap]; split <;> rfl

/-- A change of the balance is one of its register alone. -/
theorem setBalance_cases (v : VI) (x : Int) : ∃ q, v.setBalance x = { v with equota := q } := ⟨_, rfl⟩

theorem refill_configured (v : VI) (x : Int) (n : Nat) :
    ({ v.setBalance x with refills := n } : VI).configured = v.configured := by
  obtain ⟨q, h⟩ := setBalance_cases v x
  rw [h]; rfl

/-- What a refill that is due does (R372). -/
theorem refillBalance_due (s : State) (vi : Nat) (h : ¬ s.pow.periods ≤ (s.vi vi).refills) :
    s.refillBalance vi = (s.setVi vi { (s.vi vi).setBalance (min ((s.vi vi).balance +
      (s.pow.periods - (s.vi vi).refills : Nat) * ((s.vi vi).equota.toNat % 2 ^ 32 : Nat)) ((s.vi vi).equota.toNat % 2 ^ 32 : Nat))
        with refills := s.pow.periods }).recap vi := by
  rw [State.refillBalance, if_neg h]

theorem refillBalance_early (s : State) (vi : Nat) (h : s.pow.periods ≤ (s.vi vi).refills) : s.refillBalance vi = s := by
  rw [State.refillBalance, if_pos h]

theorem refillBalance_served (s : State) (vi : Nat) : Served s (s.refillBalance vi) := by
  by_cases h : s.pow.periods ≤ (s.vi vi).refills
  · rw [refillBalance_early s vi h]; exact .refl s
  · rw [refillBalance_due s vi h]
    exact .of_setVi (n := vi) (recap_disp ..) (recap_vis ..) (refill_configured _ _ _)

theorem errPut_served (s : State) (bits : Nat) : Served s (s.errPut bits) := by
  have hput : ∀ a bs, Served s (s.ringPut a bs) := fun a bs =>
    .of_eq (disp_of_around (ringPut_around s a bs)) (vis_of_around (ringPut_around s a bs))
  unfold State.errPut
  split
  · exact (hput _ _).trans (.of_eq rfl rfl)
  · exact .refl s

/-- What a core does as it handles an event, whichever it is. -/
theorem handle_served (s : State) (core : Nat) (e : Event) : Served s (s.handle core e) := by
  cases e with
  | doorbell vi q => exact sqScan_served s vi q
  | mailbox vi =>
    simp only [State.handle]
    split
    · exact .of_eq rfl rfl
    · exact mboxResult_served s vi 1
  | fault node =>
    simp only [State.handle]
    split
    · exact .of_eq rfl rfl
    · exact .refl s
  | record time vi kind status strand cookie node gidx trp note =>
    exact report_served s time vi kind status strand cookie node gidx trp note
  | error bits => exact errPut_served s bits
  | manage m => exact manage_served s m
  | energy vi => exact refillBalance_served s vi
  | telemetry => exact .of_eq rfl rfl

theorem takeEvents_served (fuel : Nat) : ∀ s : State, Served s (s.takeEvents fuel) := by
  induction fuel with
  | zero => exact fun s => .refl s
  | succ fuel ih =>
    intro s
    unfold State.takeEvents
    split
    · next k e _ _ =>
      refine .trans ?_ (ih _)
      exact (handle_served _ k e).from rfl rfl
    · exact .refl s

theorem pool_served (s : State) : Served s s.pool := (takeEvents_served _ _).from rfl rfl

theorem raise_disp (s : State) (e : Event) : (s.raise e).disp = s.disp := (apply_ite State.disp _ _ _).trans (ite_self _)
theorem raise_vis (s : State) (e : Event) : (s.raise e).vis = s.vis := (apply_ite State.vis _ _ _).trans (ite_self _)

theorem post_served (s : State) (e : Event) : Served s (s.post e) := (pool_served _).from (raise_disp s e) (raise_vis s e)

theorem handled_served (s : State) (e : Event) : Served s (s.handled e) := (pool_served _).from rfl rfl

theorem mboxDone_served (s : State) (vi res : Nat) : Served s (s.mboxDone vi res) :=
  (mboxResult_served s vi res).trans (handled_served _ _)

/-! ### One event that finds an empty queue (R419) -/

/-- With no event waiting, an event that comes is the only one. -/
theorem raise_empty (s : State) (e : Event) (h : s.fe.events = []) :
    s.raise e = { s with fe := { s.fe with events := [e] } } := by
  have hroom : ¬ eventRoom ≤ 0 := by decide
  cases e <;> simp [State.raise, h, hroom]

/-- A core that is idle stays so while cores give up events. -/
theorem idleCore_sub {s t : State} (hup : t.fe.up = s.fe.up) (hsub : ∀ c ∈ t.fe.cores, c ∈ s.fe.cores)
    (h : s.idleCore.isSome = true) : t.idleCore.isSome = true := by
  simp only [State.idleCore, List.find?_isSome, Bool.and_eq_true, Bool.not_eq_true', List.any_eq_false] at h ⊢
  obtain ⟨k, hk, hu, hn⟩ := h
  exact ⟨k, hk, by rwa [hup], fun c hc => hn c (hsub c hc)⟩

/-- The pool with one event that no core holds the key of, and a core idle: the core handles it at once. -/
theorem post_idle (s : State) (e : Event) (hev : s.fe.events = []) (hidle : s.idleCore.isSome = true)
    (hkey : ∀ c ∈ s.fe.cores, c.2.key ≠ e.key) (hfb : s.fe.fallback = false ∨ e.key.1 ≠ 0) :
    ∃ k cores, (∀ c ∈ cores, c ∈ s.fe.cores) ∧
      s.post e = State.handle { s with fe := { s.fe with events := [], cores := cores } } k e := by
  obtain ⟨cores, hsub, hpool⟩ : ∃ cores, (∀ c ∈ cores, c ∈ s.fe.cores) ∧
      s.post e = State.takeEvents { s with fe := { s.fe with events := [e], cores := cores } } 1 := by
    rw [State.post, raise_empty s e hev, State.pool]
    exact ⟨_, fun c hc => (List.mem_filter.1 hc).1, rfl⟩
  have hi : State.idleCore { s with fe := { s.fe with events := [e], cores := cores } } |>.isSome :=
    idleCore_sub (s := s) rfl hsub hidle
  obtain ⟨k, hk⟩ := Option.isSome_iff_exists.1 hi
  have hheld : (cores.any fun c => decide (c.2.key = e.key)) = false := by
    simpa using fun a b hc => hkey (a, b) (hsub _ hc)
  have hold : State.oldestEvent { s with fe := { s.fe with events := [e], cores := cores } } = some e := by
    refine List.find?_cons_of_pos ?_
    simp only [hheld, Bool.not_false, Bool.true_and, Bool.not_eq_true', Bool.and_eq_false_iff]
    rcases hfb with hfb | hfb
    · exact .inl hfb
    · cases e with
      | doorbell vi q => exact absurd rfl hfb
      | _ => exact .inr rfl
  refine ⟨k, cores, hsub, ?_⟩
  rw [hpool, State.takeEvents, hk, hold]
  simp [State.takeEvents]

/-- An event of a timer that neither waits nor is held. -/
theorem expire_idle (s : State) (e : Event) (hev : s.fe.events = []) (hkey : ∀ c ∈ s.fe.cores, c.2.key ≠ e.key) :
    s.expire e = s.post e := by
  have hh : s.holds e = false := by
    simpa [State.holds] using fun a b hc h => hkey (a, b) hc (by rw [h])
  simp [State.expire, hev, hh]

end Sys2Proof.Machine
end

section
/-!
SUPPORT. The steps of power (R6, R360 to R374), each said once, and the statement about them.
-/

namespace Sys2Proof.Machine

/-! ### Levels (R367, R372) -/

/-- The imposed level is the highest at or below the one asked that the kernel has (R367). -/
theorem cappedLevel_highest (vars : BitVec 3) (l : Nat) (hl : l ≤ 2) :
    cappedLevel vars l ≤ l ∧ (cappedLevel vars l = 0 ∨ vars.getLsbD (cappedLevel vars l) = true) ∧
      ∀ j, cappedLevel vars l < j → j ≤ l → vars.getLsbD j = false := by
  unfold cappedLevel
  split
  · next h => exact ⟨h.1, .inr h.2, fun j h1 h2 => by omega⟩
  · next h2 =>
    have no2 : 2 ≤ l → vars.getLsbD 2 = false := fun h => by simpa [h] using h2
    split
    · next h =>
      refine ⟨h.1, .inr h.2, fun j h3 h4 => ?_⟩
      obtain rfl : j = 2 := by omega
      exact no2 h4
    · next h1 =>
      have no1 : 1 ≤ l → vars.getLsbD 1 = false := fun h => by simpa [h] using h1
      refine ⟨Nat.zero_le l, .inl rfl, fun j h3 h4 => ?_⟩
      obtain rfl | rfl : j = 1 ∨ j = 2 := by omega
      · exact no1 h4
      · exact no2 h4

theorem exec_impChange (level : Nat) (s : State) : exec (.impChange level) s = execImpChange level s := rfl

theorem impChange_funded (s : State) (level : Nat) (h : level ≤ 2) (hs : s.me.status = .idle ∨ (s.vi s.me.st.vi).funded = true) :
    exec (.impChange level) s =
      .next { s with me := { s.me with imp := BitVec.ofNat 2 (cappedLevel s.me.st.vars level) } }.opportunity := by
  have hspent : (decide (s.me.status ≠ .idle) && !(s.vi s.me.st.vi).funded) = false := by rcases hs with h | h <;> simp [h]
  rw [exec_impChange, execImpChange, if_neg (by omega), hspent]
  rfl

theorem impChange_spent (s : State) (level : Nat) (h : level ≤ 2) (hi : s.me.status ≠ .idle)
    (hf : (s.vi s.me.st.vi).funded = false) :
    exec (.impChange level) s = .next { s with me := { s.me with imp := 2 } }.opportunity := by
  have hspent : (decide (s.me.status ≠ .idle) && !(s.vi s.me.st.vi).funded) = true := by simp [hi, hf]
  rw [exec_impChange, execImpChange, if_neg (by omega), hspent]
  rfl

/-! ### Balances (R372) -/

/-- The balance that a value within 32 bits leaves, and the share beside it. -/
theorem setBalance_reads (v : VI) (x : Int) (hlo : -(2 : Int) ^ 31 ≤ x) (hhi : x < (2 : Int) ^ 31) :
    (v.setBalance x).balance = x ∧ (v.setBalance x).equota.toNat % 2 ^ 32 = v.equota.toNat % 2 ^ 32 := by
  have hx : (if x < -(2 : Int) ^ 31 then -(2 : Int) ^ 31 else if (2 : Int) ^ 31 - 1 < x then (2 : Int) ^ 31 - 1 else x) = x := by
    rw [if_neg (by omega), if_neg (by omega)]
  have hw : (wrapNat x 32 : Int) = x % (2 : Int) ^ 32 := Int.toNat_of_nonneg (Int.emod_nonneg _ (by decide))
  have hr : (v.setBalance x).equota = BitVec.ofNat 64 (v.equota.toNat % 2 ^ 32 + wrapNat x 32 * 2 ^ 32) := by
    rw [VI.setBalance, hx]
  generalize wrapNat x 32 = w at hw hr
  have hq : (v.setBalance x).equota.toNat = v.equota.toNat % 2 ^ 32 + w * 2 ^ 32 := by
    rw [hr, BitVec.toNat_ofNat]
    exact Nat.mod_eq_of_lt (by omega)
  have hhigh : (v.setBalance x).equota.toNat / 2 ^ 32 = w := by omega
  constructor
  · rw [VI.balance, hhigh, sextNat]
    split <;> omega
  · omega

/-- A refill that is due: the interface's register, and what is left alone. The levels change with a balance above 0 alone. -/
theorem refillBalance_gives (s : State) (vi : Nat) (hdue : (s.vi vi).refills < s.pow.periods)
    (share b : Int) (hshare : share = ((s.vi vi).equota.toNat % 2 ^ 32 : Nat))
    (hb : b = min ((s.vi vi).balance + (s.pow.periods - (s.vi vi).refills : Nat) * share) share)
    (hlo : -(2 : Int) ^ 31 ≤ b) (hhi : b < (2 : Int) ^ 31) :
    ∃ q, (s.refillBalance vi).vi vi = { s.vi vi with equota := q, refills := s.pow.periods } ∧
      q.toNat % 2 ^ 32 = (s.vi vi).equota.toNat % 2 ^ 32 ∧ ({ s.vi vi with equota := q } : VI).balance = b ∧
      (s.refillBalance vi).me.st = s.me.st ∧ (s.refillBalance vi).mem = s.mem ∧
      (s.me.status ≠ .idle → s.me.st.vi = vi → (0 < share → 0 < b) →
        (s.refillBalance vi).me.imp = BitVec.ofNat 2 (cappedLevel s.me.st.vars s.me.imp.toNat)) ∧
      (s.me.st.vi ≠ vi → (s.refillBalance vi).me = s.me) := by
  subst hshare
  obtain ⟨q, hq⟩ := setBalance_cases (s.vi vi) b
  obtain ⟨hbal, hmod⟩ := setBalance_reads (s.vi vi) b hlo hhi
  rw [refillBalance_due s vi (by omega), ← hb, hq]
  rw [hq] at hbal hmod
  have hmod' : q.toNat % 2 ^ 32 = (s.vi vi).equota.toNat % 2 ^ 32 := hmod
  obtain ⟨v, hv⟩ : ∃ v : VI, v = { s.vi vi with equota := q, refills := s.pow.periods } := ⟨_, rfl⟩
  rw [← hv]
  have hvi : (s.setVi vi v).vi vi = v := State.setVi_same ..
  have hrecap : ((s.setVi vi v).recap vi).vi vi = v := by
    rw [State.vi, recap_vis]; exact hvi
  refine ⟨q, hrecap.trans hv, hmod, hbal, ?_, ?_, ?_, ?_⟩
  · rw [State.recap]; split
    · exact (apply_ite Cluster.st _ _ _).trans (ite_self _)
    · rfl
  · rw [State.recap]; split <;> rfl
  · intro hrun hme hpos
    have hfund : v.funded = true := by
      have hb' : v.balance = b := by rw [hv]; exact hbal
      have hq' : v.equota = q := by rw [hv]
      by_cases h0 : q.toNat % 2 ^ 32 = 0
      · rw [VI.funded, hq', h0]; rfl
      · have : 0 < b := hpos (by rw [← hmod']; omega)
        simp [VI.funded, hb', this]
    rw [State.recap, hvi, if_pos hfund]
    exact congrArg Cluster.imp (if_pos ⟨hrun, hme⟩)
  · intro hme
    rw [State.recap]; split
    · exact if_neg fun h => hme h.2
    · rfl

theorem exec_energyPeriodRefill (vi : Nat) (s : State) : exec (.energyPeriodRefill vi) s = execEnergyPeriodRefill vi s := rfl

/-- The timer expires while no event waits (R419). -/
theorem energyPeriodRefill_posts (s : State) (vi : Nat) (hvi : vi < 128) (hdue : (s.vi vi).refills < s.pow.periods)
    (hev : s.fe.events = []) (hkey : ∀ c ∈ s.fe.cores, c.2.key ≠ (6, vi)) :
    exec (.energyPeriodRefill vi) s = .next (s.post (.energy vi)) := by
  rw [exec_energyPeriodRefill, execEnergyPeriodRefill, if_neg (by omega), expire_idle s (.energy vi) hev hkey]

/-- With every core busy on what stands, an event waits alone. -/
theorem post_busy (s : State) (e : Event) (hev : s.fe.events = []) (hidle : s.idleCore = none)
    (hstand : ∀ c ∈ s.fe.cores, ∀ node, c.2 = .fault node → s.gangFaults node = true) :
    s.post e = { s with fe := { s.fe with events := [e] } } := by
  have hpool : State.pool { s with fe := { s.fe with events := [e] } } =
      State.takeEvents { s with fe := { s.fe with events := [e] } } 1 := by
    have hall : ({ s with fe := { s.fe with events := [e] } } : State).fe.cores.filter (fun c => match c.2 with
        | .fault node => State.gangFaults { s with fe := { s.fe with events := [e] } } node
        | _ => true) = s.fe.cores := by
      refine List.filter_eq_self.2 fun c hc => ?_
      split
      · next node h => exact hstand c hc node h
      · rfl
    exact congrArg (fun cores => State.takeEvents { s with fe := { s.fe with events := [e], cores := cores } } 1) hall
  have hi : State.idleCore { s with fe := { s.fe with events := [e] } } = none := hidle
  rw [State.post, raise_empty s e hev, hpool, State.takeEvents, hi]

/-! ### The tick of the ramp limiter (R370) -/

/-- A cluster's watchdogs count in a register of their own. -/
theorem tickEngines_wdE (n : Nat) (l : List Eng) :
    ∀ t : Strand, ∃ w, l.foldl (fun t e => t.tickEngine n e) t = { t with wdE := w } := by
  induction l with
  | nil => exact fun t => ⟨t.wdE, rfl⟩
  | cons e r ih =>
    intro t
    obtain ⟨w, hw⟩ : ∃ w, t.tickEngine n e = { t with wdE := w } := by
      simp only [Strand.tickEngine]
      split
      · exact ⟨_, rfl⟩
      · exact ⟨t.wdE, rfl⟩
    obtain ⟨w', hw'⟩ := ih (t.tickEngine n e)
    exact ⟨w', by rw [List.foldl_cons, hw', hw]⟩

/-- What a strand's tick changes (R356, R359, R161). -/
theorem tick_counts (t : Strand) (tagged : Bool) (n : Nat) : ∃ w g, t.tick tagged n =
    { t with wdC := if t.stall then t.wdC + n else t.wdC, slice := t.slice + 100, wdTag := g, wdE := w } := by
  obtain ⟨w, hw⟩ := tickEngines_wdE n (if tagged then [Eng.l, .v, .m, .k] else engOrder)
    { t with wdC := if t.stall then t.wdC + n else t.wdC, slice := t.slice + 100, wdTag := if tagged then t.wdTag + n else t.wdTag }
  exact ⟨w, _, hw⟩

theorem tickCluster_ctl (s : State) (c : Cluster) : (s.tickCluster c).st.ctl = c.st.ctl := by
  simp only [State.tickCluster]
  split
  · rfl
  · obtain ⟨w, g, h⟩ := tick_counts c.st (s.tagStalled c.st) (if c.thrNow = 0 then s.pow.eighths
      else (Config.freeWord (s.free + c.key)).toNat % (s.pow.eighths + 1))
    have e := congrArg Strand.ctl h
    exact e

/-- A stalled strand whose cluster runs unthrottled (R359). -/
theorem tickCluster_stalled (s : State) (c : Cluster) (hrun : c.status = .running) (hstall : c.st.stall = true)
    (hthr : c.thrNow = 0) (hwire : c.st.node ∉ s.stallWires) :
    (s.tickCluster c).st.wdC = c.st.wdC + s.pow.eighths ∧ (s.tickCluster c).st.slice = c.st.slice + 100 := by
  obtain ⟨w, g, h⟩ := tick_counts c.st (s.tagStalled c.st) s.pow.eighths
  have hc : ¬ (c.status = .idle ∨ s.stallWires.contains c.st.node = true) := by simp [hrun, hwire]
  simp only [State.tickCluster, if_neg hc, if_pos hthr, h, hstall, if_true, and_self]

/-- Energy is charged to interfaces alone (R372). -/
theorem charge_vis (l : List (Nat × Nat)) : ∀ s : State, ∃ v, s.charge l = { s with vis := v } := by
  induction l with
  | nil => exact fun s => ⟨s.vis, rfl⟩
  | cons x r ih =>
    intro s
    rw [State.charge, List.foldl_cons]
    split
    · next t _ =>
      obtain ⟨v, hv⟩ := ih (s.setVi t.vi ((s.vi t.vi).setBalance ((s.vi t.vi).balance - x.2)))
      exact ⟨v, hv⟩
    · exact ih s

/-- What follows a tick where no corrected error waits for its record: charges, and levels where a balance is spent. -/
theorem afterTick_frame (s : State) (l : List (Nat × Nat)) (h : s.fe.errs = []) :
    (s.charge l).relaxSpent.flushErrs.pow = s.pow ∧ (s.charge l).relaxSpent.flushErrs.mem = s.mem ∧
      (s.charge l).relaxSpent.flushErrs.me.st = s.me.st := by
  obtain ⟨v, hv⟩ := charge_vis l s
  have hnone : ∀ u : State, u.fe.errs = [] → u.flushErrs.pow = u.pow ∧ u.flushErrs.mem = u.mem ∧ u.flushErrs.me = u.me := by
    intro u hu
    simp [State.flushErrs, hu]
  obtain ⟨hp, hm, hme⟩ := hnone (s.charge l).relaxSpent (by rw [hv]; exact h)
  rw [hp, hm, hme, hv]
  exact ⟨rfl, rfl, (apply_ite Cluster.st _ _ _).trans (ite_self _)⟩

theorem clampWatts_eq (n : Nat) : clampWatts n = min 5600 n := by
  rw [clampWatts]; split <;> simp only [packageWatts] at * <;> omega

/-- The measures of a tick, in a power whose time has advanced. -/
def Power.measured (p : Power) (draw demand envelope ballast : Nat) (dies : List Nat) (energy : Word) : Power :=
  { p with draw := draw, dies := dies, demand := demand, envelope := envelope, energy := energy, ballast := ballast }

theorem advance_opp (p : Power) (ns : Nat) : (p.advance ns).opp = p.opp := rfl

theorem measured_opp (p : Power) (draw demand envelope ballast : Nat) (dies : List Nat) (energy : Word) :
    (p.measured draw demand envelope ballast dies energy).opp = p.opp := rfl

/-- `execRampEnvelopeTick` on power, from the state `u` in which the counters of the clusters have moved. -/
def State.tickPower (s u : State) (m : Meas) : State :=
  let demand := 100 * s.input.headD (clampWatts m.watts)
  let p := { u.pow.advance 100000 with
    draw := clampWatts m.watts, dies := m.dies.map clampWatts, demand := demand,
    envelope := envelopeNext s.fe.ramp s.pow.envelope demand, energy := s.pow.energy + BitVec.ofNat 64 (clampWatts m.watts) }
  { u with pow := { p with ballast := { u with pow := p }.ballasts m.ball } }

/-- The state in which the counters of the clusters have moved. -/
def State.tickClusters (s : State) : State := { s.mapClusters s.tickCluster with free := s.free + 2048 }

theorem exec_rampEnvelopeTick (m : Meas) (s : State) : exec (.rampEnvelopeTick m) s =
    .next (((s.tickPower s.tickClusters m).charge m.energy).relaxSpent).flushErrs := rfl

theorem tickPower_eq (s u : State) (m : Meas) : ∃ ballast dies energy, s.tickPower u m = { u with
    pow := (u.pow.advance 100000).measured (clampWatts m.watts) (100 * s.input.headD (clampWatts m.watts))
      (envelopeNext s.fe.ramp s.pow.envelope (100 * s.input.headD (clampWatts m.watts))) ballast dies energy } :=
  ⟨_, _, _, rfl⟩

theorem tickPower_frame (s u : State) (m : Meas) :
    (s.tickPower u m).pow.envelope = envelopeNext s.fe.ramp s.pow.envelope (100 * s.input.headD (clampWatts m.watts)) ∧
    (s.tickPower u m).pow.now = u.pow.now + 100000 ∧ (s.tickPower u m).pow.draw = clampWatts m.watts ∧
    (s.tickPower u m).pow.opp = u.pow.opp := by
  obtain ⟨ballast, dies, energy, h⟩ := tickPower_eq s u m
  rw [h]
  exact ⟨rfl, rfl, rfl, (measured_opp ..).trans (advance_opp u.pow 100000)⟩

/-- The tick, with what it leaves of power, memory and the strand of `me`. -/
theorem rampEnvelopeTick_next (s : State) (m : Meas) (h : s.fe.errs = []) : ∃ t, exec (.rampEnvelopeTick m) s = .next t ∧
    t.pow.envelope = envelopeNext s.fe.ramp s.pow.envelope (100 * s.input.headD (min 5600 m.watts)) ∧
    t.pow.now = s.pow.now + 100000 ∧ t.pow.draw = min 5600 m.watts ∧ t.pow.opp = s.pow.opp ∧ t.mem = s.mem ∧
    t.me.st = (s.tickCluster s.me).st := by
  rw [← clampWatts_eq]
  obtain ⟨hp, hm, hst⟩ := afterTick_frame (s.tickPower s.tickClusters m) m.energy h
  obtain ⟨henvelope, hnow, hdraw, hopp⟩ := tickPower_frame s s.tickClusters m
  rw [← hp] at henvelope hnow hdraw hopp
  exact ⟨_, exec_rampEnvelopeTick m s, henvelope, hnow, hdraw, hopp, hm, hst⟩

theorem envelopeNext_up (ramp : Word) (e d : Nat) (h : e ≤ d) :
    envelopeNext ramp e d = if 10 * (ramp.toNat % 65536) = 0 then d else min d (e + 10 * (ramp.toNat % 65536)) := by
  simp only [envelopeNext, if_pos h]

theorem envelopeNext_down (ramp : Word) (e d : Nat) (h : d < e) (hf : 1000 * (ramp.toNat / 2 ^ 32 % 65536) < e) :
    envelopeNext ramp e d = if 10 * (ramp.toNat / 2 ^ 16 % 65536) = 0 then max d (1000 * (ramp.toNat / 2 ^ 32 % 65536))
      else max d (max (1000 * (ramp.toNat / 2 ^ 32 % 65536)) (e - 10 * (ramp.toNat / 2 ^ 16 % 65536))) := by
  rw [Nat.mul_comm 1000] at *
  simp only [envelopeNext, if_neg (Nat.not_le.2 h), if_pos hf]
  split <;> simp

theorem envelopeNext_floor (ramp : Word) (e d : Nat) (h : d < e) (hf : e ≤ 1000 * (ramp.toNat / 2 ^ 32 % 65536)) :
    envelopeNext ramp e d = d := by
  rw [Nat.mul_comm 1000] at hf
  simp only [envelopeNext, if_neg (Nat.not_le.2 h), if_neg (Nat.not_lt.2 hf)]

/-! ### Throttle reasons (R363, R364) -/

theorem addCyc_toNat (c : BitVec 48) (n : Nat) : (addCyc c n).toNat = min (c.toNat + n) (2 ^ 48 - 1) := by
  simp only [addCyc]
  split <;> simp only [BitVec.toNat_ofNat] <;> omega

/-- The bits of THR_NOW: SLEW and CAP as they hold, the others as the controllers find them. -/
theorem reasons_bits (r : BitVec 5) (slew cap : Bool) (k : Nat) (hk : k < 5) :
    ((r &&& 0b10011) ||| BitVec.ofNat 5 (4 * slew.toNat + 8 * cap.toNat)).getLsbD k =
      if k = 2 then slew else if k = 3 then cap else r.getLsbD k := by
  have hm : ∀ k < 5, (0b10011 : BitVec 5).getLsbD k = (decide (k ≠ 2) && decide (k ≠ 3)) := by decide
  have hv : ∀ k < 5, ∀ slew cap : Bool, (BitVec.ofNat 5 (4 * slew.toNat + 8 * cap.toNat)).getLsbD k =
      ((decide (k = 2) && slew) || (decide (k = 3) && cap)) := by decide
  rw [BitVec.getLsbD_or, BitVec.getLsbD_and, hm k hk, hv k hk]
  by_cases h2 : k = 2
  · simp [h2]
  · by_cases h3 : k = 3
    · simp [h3]
    · simp [h2, h3]

theorem exec_throttleReasonChange (r : BitVec 5) (cycles : Nat) (s : State) :
    exec (.throttleReasonChange r cycles) s = execThrottleReasonChange r cycles s := rfl

/-! ### The reserve (R6) -/

theorem exec_packageReserveGrant (die watts : Nat) (s : State) :
    exec (.packageReserveGrant die watts) s = execPackageReserveGrant die watts s := rfl

theorem dieShare_eq (die : Nat) (h : die ≤ 24) : dieShare die = if die = 24 then 320 else 215 := by
  simp only [dieShare]; split <;> split <;> omega

/-! ### Telemetry (R374) -/

theorem leBytes_take (n v k : Nat) (h : k ≤ n) : (leBytes n v).take k = leBytes k v := by
  induction k generalizing n v with
  | zero => rfl
  | succ k ih =>
    obtain ⟨m, rfl⟩ : ∃ m, n = m + 1 := ⟨n - 1, by omega⟩
    simp only [leBytes, List.take_succ_cons, ih m (v / 256) (by omega)]

theorem leBytes_drop (n v k : Nat) : (leBytes n v).drop k = leBytes (n - k) (v / 256 ^ k) := by
  induction k generalizing n v with
  | zero => simp
  | succ k ih =>
    cases n with
    | zero => simp [leBytes]
    | succ n => simp only [leBytes, List.drop_succ_cons, ih, Nat.add_sub_add_right, Nat.pow_succ', Nat.div_div_eq_div_mul]

/-- A field of whole bytes of a record. -/
theorem leNat_field (n v k j : Nat) (h : k + j ≤ n) : leNat (((leBytes n v).drop k).take j) = v / 256 ^ k % 256 ^ j := by
  rw [leBytes_drop, leBytes_take _ _ _ (by omega), leNat_leBytes]

/-- The first fields of a telemetry record: the time, the sequence number, the draw. -/
theorem telRecord_fields (s : State) (m : Meas) (h : s.pow.telTime < 2 ^ 64) :
    s.telRecord m % 2 ^ 64 = s.pow.telTime ∧ s.telRecord m / 2 ^ 64 % 2 ^ 32 = (s.fe.telIdx + 1) % 2 ^ 32 ∧
      s.telRecord m / 2 ^ 96 % 2 ^ 16 = min 5600 m.watts := by
  simp only [State.telRecord, clampWatts_eq m.watts]
  generalize ((List.range 4).map fun k => clampWatts (m.rails.getD k 0) * 2 ^ (16 * k)).foldl (· + ·) 0 = rails
  generalize s.pow.lockedSince.toNat = locked
  generalize s.pow.thrSince.toNat = thr
  generalize s.pow.energy.toNat / 10 = energy
  generalize m.tmax % 65536 = tmax
  generalize s.pow.envelope / 100 % 65536 = env
  generalize s.fillers % 65536 = fillers
  generalize s.pow.ballast % 65536 = ballast
  generalize s.pow.oppWord = opp
  omega

theorem telInterval_eq (s : State) : s.telInterval = 1000 * max 100 (s.fe.telcfg0.toNat / 32 % 65536) := by
  simp only [State.telInterval]; split <;> omega

theorem exec_telemetryRecord (m : Meas) (s : State) : exec (.telemetryRecord m) s = execTelemetryRecord m s := rfl

/-- With no event waiting, a core that has handled one changes the cores alone. -/
theorem handled_quiet (s : State) (e : Event) (h : s.fe.events = []) :
    ∃ cores, s.handled e = { s with fe := { s.fe with cores := cores } } := by
  simp only [State.handled, State.pool, h, List.length_nil, State.takeEvents]
  exact ⟨_, rfl⟩

/-- The timer of telemetry with a core for it: the record goes to its slot, and the next interval begins. -/
theorem telWrite_gives (s : State) (m : Meas) (h : s.fe.events = []) :
    (s.telWrite m).fe.telIdx = s.fe.telIdx + 1 ∧ (s.telWrite m).me = s.me ∧ (s.telWrite m).pow.telLast = s.pow.now ∧
      (s.telWrite m).mem = (s.ringPut (ringSlot s.fe.telcfg0 s.fe.telcfg1 s.fe.telIdx) (leBytes 64 (s.telRecord m))).mem := by
  simp only [State.telWrite]
  have ha := ringPut_around s (ringSlot s.fe.telcfg0 s.fe.telcfg1 s.fe.telIdx) (leBytes 64 (s.telRecord m))
  generalize s.ringPut (ringSlot s.fe.telcfg0 s.fe.telcfg1 s.fe.telIdx) (leBytes 64 (s.telRecord m)) = u at *
  obtain ⟨cores, hc⟩ := handled_quiet (State.telStart { u with fe := { u.fe with telIdx := s.fe.telIdx + 1 } }) .telemetry
    (by rw [← h, ← fe_of_around ha]; rfl)
  rw [hc]
  exact ⟨rfl, me_of_around (t := u) ha, congrArg Power.now (pow_of_around (t := u) ha), rfl⟩

/-- A record that is due while no event waits and a core is idle. -/
theorem telemetryRecord_writes (s : State) (m : Meas) (hon : s.fe.telcfg0.getLsbD 0 = true)
    (hdue : s.pow.telLast + s.telInterval ≤ s.pow.now) (hev : s.fe.events = []) (hidle : s.idleCore.isSome = true)
    (hkey : ∀ c ∈ s.fe.cores, c.2.key ≠ (7, 0)) :
    ∃ cores, exec (.telemetryRecord m) s = .next (State.telWrite { s with fe := { s.fe with events := [], cores := cores } } m) := by
  obtain ⟨k, cores, _, hpost⟩ := post_idle s .telemetry hev hidle hkey (.inr (by decide))
  refine ⟨cores ++ [(k, .telemetry)], ?_⟩
  have hx : s.expire .telemetry = { s with fe := { s.fe with events := [], cores := cores ++ [(k, .telemetry)] } } := by
    rw [expire_idle s .telemetry hev hkey, hpost]; rfl
  have hh : State.holds { s with fe := { s.fe with events := [], cores := cores ++ [(k, .telemetry)] } } .telemetry = true := by
    simp [State.holds]
  rw [exec_telemetryRecord, execTelemetryRecord, if_pos (by simp [hon, hdue]), hx]
  simp only [hh, if_true]

/-- Settles O56: each kind of step by the lemma that says it once; a tick and a record by what follows them (charges, the write
of the ring's slot), which leaves what the statement reads. -/
theorem powerSteps : Obligations.PowerSteps := by
  unfold Obligations.PowerSteps
  refine ⟨?opp, ?imp, ?refill, ?ramp, ?throttle, ?reserve, ?telemetry⟩
  case opp =>
    intro s rail point hp
    show execOppChange rail.val point s = _
    rw [execOppChange, dif_pos rail.isLt, if_pos hp]
  case imp =>
    intro s level hl
    exact ⟨fun h => ⟨_, impChange_funded s level hl h, cappedLevel_highest _ _ hl⟩, impChange_spent s level hl⟩
  case refill =>
    intro s vi hvi v share period b
    refine ⟨fun h => ?_, fun hdue hev hkey => ⟨fun hidle hlo hhi => ?_, fun hidle hstand => ?_⟩⟩
    · rw [exec_energyPeriodRefill, execEnergyPeriodRefill, if_pos (.inr h)]
    · obtain ⟨k, cores, _, hpost⟩ := post_idle s (.energy vi) hev hidle hkey (.inr (Nat.succ_ne_zero 5))
      obtain ⟨q, hq⟩ := refillBalance_gives { s with fe := { s.fe with events := [], cores := cores } } vi hdue share b rfl rfl hlo hhi
      exact ⟨_, q, by rw [energyPeriodRefill_posts s vi hvi hdue hev hkey, hpost]; rfl, hq⟩
    · rw [energyPeriodRefill_posts s vi hvi hdue hev hkey, post_busy s (.energy vi) hev hidle hstand]
      exact ⟨_, rfl, rfl, rfl, rfl, rfl⟩
  case ramp =>
    intro s m herrs
    obtain ⟨t, ht, he, hnow, hdraw, hopp, hmem, hst⟩ := rampEnvelopeTick_next s m herrs
    refine ⟨t, ht, fun h => ?_, fun h hf => ?_, fun h hf => ?_, hnow, hdraw, hopp, hmem, ?_, fun hrun hstall hthr hwire => ?_⟩
    · rw [he]; exact envelopeNext_up _ _ _ h
    · rw [he]; exact envelopeNext_down _ _ _ h hf
    · rw [he]; exact envelopeNext_floor _ _ _ h hf
    · rw [State.ctl, hst]; exact tickCluster_ctl s s.me
    · rw [hst]; exact tickCluster_stalled s s.me hrun hstall hthr hwire
  case throttle =>
    intro s reasons cycles
    refine ⟨_, exec_throttleReasonChange reasons cycles s, fun k hk => ?_, rfl, addCyc_toNat _ _, rfl, rfl, rfl⟩
    exact reasons_bits reasons s.slewHolds (s.capHolds (s.input.headD 0)) k hk
  case reserve =>
    intro s die watts hd p grows above
    rw [exec_packageReserveGrant, execPackageReserveGrant]
    have habove : dieShare die < s.pow.dies.getD die 0 ↔ above := by rw [dieShare_eq die hd]
    have hgrows : watts ≤ Sp.get s.pow.grants die 0 ↔ ¬ grows := Nat.not_lt.symm
    constructor
    · intro hg hga
      have hor : watts ≤ Sp.get s.pow.grants die 0 ∨ dieShare die < s.pow.dies.getD die 0 := by
        by_cases hgrow : grows
        · exact .inr (habove.2 (hga hgrow))
        · exact .inl (hgrows.2 hgrow)
      exact if_pos ⟨hd, hg, hor⟩
    · rintro h
      refine if_neg fun ⟨_, hg, hor⟩ => ?_
      rw [hgrows, habove] at hor
      rcases h with h | h
      · exact absurd hg (Nat.not_le.2 h)
      · exact hor.elim (fun hno => hno h.1) h.2
  case telemetry =>
    intro s m gap
    have hgap : s.telInterval = gap := telInterval_eq s
    constructor
    · intro h
      have hoff : (s.fe.telcfg0.getLsbD 0 && decide (s.pow.telLast + s.telInterval ≤ s.pow.now)) = false := by
        rcases h with h | h
        · rw [h, Bool.false_and]
        · rw [hgap, decide_eq_false (Nat.not_le.2 h), Bool.and_false]
      rw [exec_telemetryRecord, execTelemetryRecord, hoff]
      rfl
    · intro hon hdue hev hidle hkey a
      obtain ⟨cores, hx⟩ := telemetryRecord_writes s m hon (by rw [hgap]; exact hdue) hev hidle hkey
      obtain ⟨hidx, hme, hlast, hmem⟩ := telWrite_gives { s with fe := { s.fe with events := [], cores := cores } } m rfl
      refine ⟨_, hx, hidx, hme, hlast, fun hap htime => ?_⟩
      have hput : ∀ (u : State) bs, (u.ringPut a bs).mem = u.mem.writeN a bs := fun u bs => by
        rw [State.ringPut, hap]; exact baseWrite_mem u a bs
      refine ⟨_, leBytes_length _ _, hmem.trans (hput _ _), ?_⟩
      obtain ⟨h1, h2, h3⟩ := telRecord_fields { s with fe := { s.fe with events := [], cores := cores } } m htime
      refine ⟨?_, ?_, ?_⟩
      · exact (leNat_field 64 _ 0 8 (by decide)).trans (by rw [Nat.pow_zero, Nat.div_one]; exact h1)
      · exact (leNat_field 64 _ 8 4 (by decide)).trans h2
      · exact (leNat_field 64 _ 12 2 (by decide)).trans h3

end Sys2Proof.Machine
end

section
/-!
SUPPORT. What a host write does, for each kind of register (R409 to R411, R417, R418), and the statement about them.
-/

namespace Sys2Proof.Machine

/-! ### A host write reaches its register -/

theorem exec_registerWrite (tgt : RegTarget) (v : Word) (s : State) :
    exec (.registerWrite tgt v) s = .next (s.hostWrite tgt v) := rfl
theorem exec_w1cClear (tgt : RegTarget) (v : Word) (s : State) : exec (.w1cClear tgt v) s = .next (s.hostWrite tgt v) := rfl
theorem exec_viEnable (v : Word) (s : State) : exec (.viEnable v) s = .next (s.hostWrite (.ctl 0x8100) (v ||| 1)) := rfl
theorem exec_viDisable (v : Word) (s : State) : exec (.viDisable v) s = .next (s.hostWrite (.ctl 0x8100) (v &&& ~~~1)) := rfl
theorem exec_viclsWrite (die : Nat) (v : Word) (s : State) :
    exec (.viclsWrite die v) s = .next (s.hostWrite (.ctl (0x8120 + die % 24)) v) := rfl
theorem exec_cellcfgWrite (die : Nat) (v : Word) (s : State) :
    exec (.cellcfgWrite die v) s = .next (s.hostWrite (.ctl (0x8040 + die % 24)) v) := rfl
theorem exec_sqDoorbell (vi q : Nat) (v : Word) (s : State) :
    exec (.sqDoorbell vi q v) s = .next (s.hostWrite (.page (vi % 128) (0x110 + 32 * (q % 64))) v) := rfl
theorem exec_sqEnable (vi q : Nat) (v : Word) (s : State) :
    exec (.sqEnable vi q v) s = .next (s.hostWrite (.page (vi % 128) (0x108 + 32 * (q % 64))) (v ||| 1)) := rfl
theorem exec_launchQueueEnable (vi q : Nat) (v : Word) (s : State) : exec (.launchQueueEnable vi q v) s =
    .next (if s.fe.visel.toNat = vi then s.hostWrite (.ctl (0x8140 + 8 * (q % 16))) (v ||| 1) else s) := rfl
theorem exec_bar2Access (vi off n : Nat) (data : Option (List Byte)) (s : State) :
    exec (.bar2Access vi off n data) s = execBar2Access vi off n data s := rfl

/-- While the windows are closed or the link is down (R2). -/
theorem hostWrite_down {s : State} (h : s.hostUp = false) (tgt : RegTarget) (v : Word) : s.hostWrite tgt v = s :=
  if_neg (Bool.eq_false_iff.1 h)

theorem hostRead_down {s : State} (h : s.hostUp = false) (tgt : RegTarget) : s.hostRead tgt = BitVec.allOnes 64 :=
  if_neg (Bool.eq_false_iff.1 h)

section
variable {s : State} (h : s.hostUp = true)
include h

theorem hostWrite_ctl (n : Nat) (v : Word) : s.hostWrite (.ctl n) v = s.ctlWrite n v := if_pos h
theorem hostWrite_page (vi off : Nat) (v : Word) : s.hostWrite (.page vi off) v = s.pageWrite vi off v := if_pos h
theorem hostWrite_export (k : Nat) (v : Word) : s.hostWrite (.exportEntry k) v = s.exportEntryWrite k v := if_pos h
theorem hostRead_ctl (n : Nat) : s.hostRead (.ctl n) = s.ctlRead n := if_pos h
theorem hostRead_page (vi off : Nat) : s.hostRead (.page vi off) = s.pageRead vi off := if_pos h
theorem hostRead_export (k : Nat) : s.hostRead (.exportEntry k) = (Sp.get s.fab.exports k Exp.none).word := if_pos h

end

/-! ### Registers that only hold bits (R410, R418) -/

/-- A write after which the register reads the written bits that it has, and that changes no memory, no cluster and nothing of
the dispatcher. -/
structure KeepsBits (s : State) (tgt : RegTarget) (v mask : Word) (t : State) : Prop where
  write : s.hostWrite tgt v = t
  read : t.hostRead tgt = v &&& mask
  mem : t.mem = s.mem
  me : t.me = s.me
  disp : t.disp = s.disp

theorem KeepsBits.exec {s t : State} {tgt : RegTarget} {v mask : Word} (h : KeepsBits s tgt v mask t) :
    ∃ t, Machine.exec (.registerWrite tgt v) s = .next t ∧ t.hostRead tgt = v &&& mask ∧ t.mem = s.mem ∧ t.me = s.me ∧
      t.disp = s.disp :=
  ⟨t, by rw [exec_registerWrite, h.write], h.read, h.mem, h.me, h.disp⟩

theorem ctlWrite_pkg {n : Nat} (h : n < 0x8040) (s : State) (v : Word) : s.ctlWrite n v = s.pkgWrite n v := if_pos h

/-- A register of the package. -/
theorem KeepsBits.of_pkg {s t : State} {n : Nat} {v mask : Word} (hup : s.hostUp = true) (hn : n < 0x8040)
    (hw : s.pkgWrite n v = t) (hfe : t.hostUp = s.hostUp) (hr : t.ctlRead n = v &&& mask) (hm : t.mem = s.mem) (hme : t.me = s.me)
    (hd : t.disp = s.disp) : KeepsBits s (.ctl n) v mask t :=
  ⟨by rw [hostWrite_ctl hup, ctlWrite_pkg hn, hw], by rw [hostRead_ctl (hfe.trans hup), hr], hm, hme, hd⟩

/-- The lowest bits of a register. -/
theorem and_low_bits (v : Word) {k : Nat} (hk : k ≤ 64) : v &&& BitVec.ofNat 64 (2 ^ k - 1) = BitVec.ofNat 64 (v.toNat % 2 ^ k) := by
  have hlt : 2 ^ k - 1 < 2 ^ 64 := Nat.lt_of_lt_of_le (Nat.sub_lt (Nat.two_pow_pos k) Nat.one_pos) (Nat.pow_le_pow_right (by decide) hk)
  refine BitVec.eq_of_toNat_eq ?_
  rw [BitVec.toNat_and, BitVec.toNat_ofNat, Nat.mod_eq_of_lt hlt, Nat.and_two_pow_sub_one_eq_mod, BitVec.toNat_ofNat,
    Nat.mod_eq_of_lt (Nat.lt_of_le_of_lt (Nat.mod_le ..) v.isLt)]

/-- A narrower register reads the lowest bits. -/
theorem setWidth_eq_and (v : Word) {k : Nat} (hk : k ≤ 64) : ((v.setWidth k).setWidth 64 : Word) = v &&& BitVec.ofNat 64 (2 ^ k - 1) := by
  rw [and_low_bits v hk]
  exact BitVec.eq_of_toNat_eq (by simp)

theorem pkg_keepsBits (row : Nat × Nat) (s : State) (v : Word) (hup : s.hostUp = true)
    (hrow : row ∈ [(0x8000, 0x7F), (0x8002, 0x00FFFFFFFFFF0000), (0x8004, 0x0000FFFFFFFF3FFF), (0x8005, 0xFFFFFF),
      (0x8006, 0x0000FFFFFFFFFFFF), (0x8007, 0xFFFFFF01), (0x8008, 0xFF), (0x800A, 0x1FFFFF), (0x800B, 0x000FFFFFFFFFFFFF),
      (0x800C, 0x1FFFFF), (0x800D, 0x000FFFFFFFFFFFFF)]) :
    ∃ t, KeepsBits s (.ctl row.1) v (BitVec.ofNat 64 row.2) t := by
  simp only [List.mem_cons, List.not_mem_nil, or_false] at hrow
  rcases hrow with rfl | rfl | rfl | rfl | rfl | rfl | rfl | rfl | rfl | rfl | rfl
  · exact ⟨_, .of_pkg hup (by decide) rfl rfl (setWidth_eq_and v (k := 7) (by decide)) rfl rfl rfl⟩
  all_goals exact ⟨_, .of_pkg hup (by decide) rfl rfl rfl rfl rfl rfl⟩

theorem ctlWrite_iface {n : Nat} (h1 : 0x8100 ≤ n) (h2 : n < 0x8120) (s : State) (v : Word) :
    s.ctlWrite n v = s.ifaceWrite n v := by
  rw [State.ctlWrite, if_neg (by omega), if_neg (by omega), if_neg (by omega), if_neg (by omega), if_pos h2]

/-- A register of the interface that SYS_VISEL names: `w` is the interface once it is written. -/
theorem KeepsBits.of_iface {s : State} {n : Nat} {v mask : Word} (w : VI) (hup : s.hostUp = true) (h1 : 0x8100 ≤ n)
    (h2 : n < 0x8120) (hw : s.ifaceWrite n v = s.setVi s.fe.visel.toNat w)
    (hr : ∀ t : State, t.vi t.fe.visel.toNat = w → t.ctlRead n = v &&& mask) :
    KeepsBits s (.ctl n) v mask (s.setVi s.fe.visel.toNat w) :=
  ⟨by rw [hostWrite_ctl hup, ctlWrite_iface h1 h2, hw],
    by rw [hostRead_ctl (s := s.setVi s.fe.visel.toNat w) hup]; exact hr _ (State.setVi_same ..), rfl, rfl, rfl⟩

theorem iface_keepsBits (row : Nat × Nat) (s : State) (v : Word) (hup : s.hostUp = true)
    (hrow : row ∈ [(0x8101, 0x000FFFFFFFFFF801), (0x8103, 0xFF01), (0x8104, 0xFFFFFF), (0x8105, 0xFFFFFFFF),
      (0x8107, 0xFFFF0001), (0x8108, 0xFF)]) :
    ∃ t, KeepsBits s (.ctl row.1) v (BitVec.ofNat 64 row.2) t := by
  simp only [List.mem_cons, List.not_mem_nil, or_false] at hrow
  rcases hrow with rfl | rfl | rfl | rfl | rfl | rfl
  · exact ⟨_, .of_iface _ hup (by decide) (by decide) rfl fun t ht => congrArg VI.ptb ht⟩
  · exact ⟨_, .of_iface _ hup (by decide) (by decide) rfl fun t ht => congrArg VI.tvec ht⟩
  · exact ⟨_, .of_iface _ hup (by decide) (by decide) rfl fun t ht => congrArg VI.slice ht⟩
  · exact ⟨_, .of_iface _ hup (by decide) (by decide) rfl fun t ht => congrArg VI.wdog ht⟩
  · exact ⟨_, .of_iface _ hup (by decide) (by decide) rfl fun t ht => congrArg VI.filler ht⟩
  · exact ⟨_, .of_iface _ hup (by decide) (by decide) rfl fun t ht => congrArg VI.zbind ht⟩

/-- A register of a register page: `w` is the interface once it is written. -/
theorem KeepsBits.of_page {s : State} {vi off : Nat} {v mask : Word} (w : VI) (hup : s.hostUp = true)
    (hw : s.pageWrite vi off v = s.setVi vi w) (hr : ∀ t : State, t.vi vi = w → t.pageRead vi off = v &&& mask) :
    KeepsBits s (.page vi off) v mask (s.setVi vi w) :=
  ⟨by rw [hostWrite_page hup, hw], by rw [hostRead_page (s := s.setVi vi w) hup]; exact hr _ (State.setVi_same ..), rfl, rfl, rfl⟩

theorem pageWrite_arg {s : State} {vi : Nat} (hvi : vi < 128) {k : Nat} (hk : k < 4) (v : Word) :
    s.pageWrite vi (0x1008 + 8 * k) v =
      s.setVi vi { s.vi vi with mbox := { (s.vi vi).mbox with arg := (s.vi vi).mbox.arg.set k v hk } } := by
  have hoff : (0x1008 + 8 * k - 0x1008) / 8 = k := by omega
  rw [State.pageWrite.eq_def, if_neg (by omega), if_neg (by omega), if_pos (by omega), hoff, State.argWrite, dif_pos hk]

theorem pageWrite_note {s : State} {vi : Nat} (hvi : vi < 128) {k half : Nat} (hk : k < 256) (hh : half < 2) (v : Word) :
    s.pageWrite vi (0x2000 + 16 * k + 8 * half) v = s.setVi vi { s.vi vi with
      notes := Sp.set (s.vi vi).notes k ((Sp.get (s.vi vi).notes k ⟨0, 0, false⟩).write half v) ⟨0, 0, false⟩ } := by
  have hkey : (0x2000 + 16 * k + 8 * half - 0x2000) / 16 = k := by omega
  have hhalf : (0x2000 + 16 * k + 8 * half - 0x2000) / 8 % 2 = half := by omega
  rw [State.pageWrite.eq_def, if_neg (by omega), if_neg (by omega), if_neg (by omega), if_pos (by omega), hkey, hhalf]

theorem pageRead_note (s : State) (vi : Nat) {k half : Nat} (hk : k < 256) (hh : half < 2) :
    s.pageRead vi (0x2000 + 16 * k + 8 * half) = if half = 0 then (Sp.get (s.vi vi).notes k ⟨0, 0, false⟩).addr.setWidth 64
      else BitVec.ofNat 64 ((Sp.get (s.vi vi).notes k ⟨0, 0, false⟩).data.toNat +
        (Sp.get (s.vi vi).notes k ⟨0, 0, false⟩).en.toNat * 2 ^ 32) := by
  have hkey : (0x2000 + 16 * k + 8 * half - 0x2000) / 16 = k := by omega
  have hhalf : (0x2000 + 16 * k + 8 * half) / 8 % 2 = half := by omega
  rw [State.pageRead.eq_def, if_neg (by omega), if_neg (by omega), if_pos (by omega), hkey, hhalf]

theorem toNat_getLsbD (v : Word) (i : Nat) : (v.getLsbD i).toNat = v.toNat / 2 ^ i % 2 := by
  rw [BitVec.getLsbD, Nat.testBit_eq_decide_div_mod_eq]
  rcases Nat.mod_two_eq_zero_or_one (v.toNat / 2 ^ i) with h | h <;> rw [h] <;> rfl

/-- The data of a notification with its enable bit. -/
theorem noteData_eq_and (v : Word) :
    BitVec.ofNat 64 ((v.setWidth 32).toNat + (v.getLsbD 32).toNat * 2 ^ 32) = v &&& BitVec.ofNat 64 (2 ^ 33 - 1) := by
  rw [and_low_bits v (by decide), toNat_getLsbD, BitVec.toNat_setWidth]
  congr 1
  omega

theorem note_keepsBits (s : State) (vi k half : Nat) (v : Word) (hup : s.hostUp = true) (hvi : vi < 128) (hk : k < 256)
    (hh : half < 2) : ∃ t, KeepsBits s (.page vi (0x2000 + 16 * k + 8 * half)) v
      (BitVec.ofNat 64 (if half = 0 then 2 ^ 52 - 1 else 2 ^ 33 - 1)) t := by
  refine ⟨_, .of_page _ hup (pageWrite_note hvi hk hh v) fun t ht => ?_⟩
  rw [pageRead_note t vi hk hh, ht, Sp.get_set_same]
  by_cases h0 : half = 0
  · rw [if_pos h0, if_pos h0, Note.write, if_pos h0]
    exact setWidth_eq_and v (by decide)
  · rw [if_neg h0, if_neg h0, Note.write, if_neg h0]
    exact noteData_eq_and v

theorem arg_keepsBits (s : State) (vi k : Nat) (v : Word) (hup : s.hostUp = true) (hvi : vi < 128) (hk : k < 4) :
    ∃ t, KeepsBits s (.page vi (0x1008 + 8 * k)) v (BitVec.ofNat 64 (2 ^ 64 - 1)) t := by
  refine ⟨_, .of_page _ hup (pageWrite_arg hvi hk v) fun t ht => ?_⟩
  have hall : v &&& BitVec.ofNat 64 (2 ^ 64 - 1) = v := by
    rw [and_low_bits v (Nat.le_refl 64), Nat.mod_eq_of_lt v.isLt, BitVec.ofNat_toNat, BitVec.setWidth_eq]
  have hread : t.pageRead vi (0x1008 + 8 * k) = (t.vi vi).mbox.arg[k] := by
    match k, hk with
    | 0, _ | 1, _ | 2, _ | 3, _ => rfl
  rw [hall, hread, ht]
  exact Vector.getElem_set_self hk

theorem page_keepsBits (row : Nat × Nat) (s : State) (vi : Nat) (v : Word) (hup : s.hostUp = true) (hvi : vi < 128)
    (hrow : row ∈ [(0x0008, 0x00FFFFFFC0000000), (0x0900, 0x000FFFFFFFFFFF80), (0x0908, 0x1FFF), (0x1008, 2 ^ 64 - 1),
      (0x1010, 2 ^ 64 - 1), (0x1018, 2 ^ 64 - 1), (0x1020, 2 ^ 64 - 1), (0x2000, 0x000FFFFFFFFFFFFF), (0x2008, 0x1FFFFFFFF),
      (0x2FF8, 0x1FFFFFFFF), (0x0100, 0x00FFFFFFFFFFFFC0)]) :
    ∃ t, KeepsBits s (.page vi row.1) v (BitVec.ofNat 64 row.2) t := by
  simp only [List.mem_cons, List.not_mem_nil, or_false] at hrow
  rcases hrow with rfl | rfl | rfl | rfl | rfl | rfl | rfl | rfl | rfl | rfl | rfl
  · exact ⟨_, .of_page _ hup (if_neg (by omega)) fun t ht => congrArg VI.winBase ht⟩
  · exact ⟨_, .of_page _ hup (if_neg (by omega)) fun t ht => congrArg VI.crBase ht⟩
  · exact ⟨_, .of_page _ hup (if_neg (by omega)) fun t ht => congrArg VI.crCfg ht⟩
  · exact arg_keepsBits s vi 0 v hup hvi (by decide)
  · exact arg_keepsBits s vi 1 v hup hvi (by decide)
  · exact arg_keepsBits s vi 2 v hup hvi (by decide)
  · exact arg_keepsBits s vi 3 v hup hvi (by decide)
  · exact note_keepsBits s vi 0 0 v hup hvi (by decide) (by decide)
  · exact note_keepsBits s vi 0 1 v hup hvi (by decide) (by decide)
  · exact note_keepsBits s vi 255 1 v hup hvi (by decide) (by decide)
  · refine ⟨_, .of_page _ hup (if_neg (by omega)) fun t ht => ?_⟩
    exact congrArg StreamQ.base ((congrArg (fun x => VI.sq x 0) ht).trans (VI.sq_setSq ..))

/-! ### Counters that a written 1 clears, and the occupancy of a slice (R114, R152, R410) -/

/-- A clear of a counter that a 1 in the low half clears. -/
theorem clears_of_low {v : Word} (h : v.toNat % 2 ^ 32 ≠ 0) : clears v = true := decide_eq_true h

theorem pageWrite_winerr {s : State} {vi : Nat} (hvi : vi < 128) {v : Word} (h : v.toNat % 2 ^ 32 ≠ 0) :
    s.pageWrite vi 0x0010 v = s.setVi vi { s.vi vi with winerr := 0 } :=
  (if_neg (by omega) : _ = if clears v then _ else s).trans (if_pos (clears_of_low h))

theorem pageWrite_dropped {s : State} {vi : Nat} (hvi : vi < 128) {v : Word} (h : v.toNat % 2 ^ 32 ≠ 0) :
    s.pageWrite vi 0x0018 v = s.setVi vi { s.vi vi with dropped := 0 } :=
  (if_neg (by omega) : _ = if clears v then _ else s).trans (if_pos (clears_of_low h))

theorem ctlWrite_syncdrop {d : Nat} (hd : d < 24) (s : State) {v : Word} (h : v.toNat % 2 ^ 32 ≠ 0) :
    s.ctlWrite (0x80A0 + d) v = { s with fe := { s.fe with syncdrop := Sp.set s.fe.syncdrop d 0 0 } } := by
  rw [State.ctlWrite, if_neg (by omega), if_neg (by omega), if_neg (by omega), if_pos (by omega), Nat.add_sub_cancel_left,
    State.syncdropWrite, if_pos (clears_of_low h)]

theorem ctlRead_l2Occ {d : Nat} (hd : d < 24) (s : State) : s.ctlRead (0x8060 + d) = s.l2Occ d := by
  rw [State.ctlRead.eq_def, if_neg (by omega), if_pos (by omega), Nat.add_sub_cancel_left]

/-- A slice with no line of its own and no shadow line is empty (R114). -/
theorem l2Occ_empty {s : State} {d : Nat} (hl : ∀ x ∈ s.l2, homeDie (64 * x.line) ≠ d) (hs : s.shadowLines d = 0) :
    s.l2Occ d = 0 := by
  have hnone : (s.l2.filter fun x => decide (homeDie (64 * x.line) = d)) = [] :=
    List.filter_eq_nil_iff.2 fun x hx => by rw [decide_eq_false (hl x hx)]; decide
  rw [State.l2Occ, State.l2Lines, State.l2SlotsUsed, hnone, hs]
  rfl

/-! ### Export entries (R378) -/

/-- Bitwise and, apart on the bits from `k` up and on those below. -/
theorem and_apart {k a b c d : Nat} (hb : b < 2 ^ k) (hd : d < 2 ^ k) :
    (2 ^ k * a + b) &&& (2 ^ k * c + d) = 2 ^ k * (a &&& c) + (b &&& d) := by
  refine Nat.eq_of_testBit_eq fun i => ?_
  rw [Nat.testBit_and, Nat.testBit_two_pow_mul_add a hb, Nat.testBit_two_pow_mul_add c hd,
    Nat.testBit_two_pow_mul_add _ (Nat.lt_of_le_of_lt Nat.and_le_left hb)]
  split <;> rw [Nat.testBit_and]

/-- The bits that an entry of R378 has: V, W and CXL, its interface, its page. -/
theorem and_exportMask (n : Nat) : n &&& (7 + 0x7F0 + (2 ^ 52 - 2 ^ 26)) =
    2 ^ 26 * (n / 2 ^ 26 % 2 ^ 26) + (2 ^ 4 * (n / 2 ^ 4 % 2 ^ 7) + n % 2 ^ 3) := by
  have hlow : n % 2 ^ 26 &&& 0x7F7 = 2 ^ 4 * (n % 2 ^ 26 / 2 ^ 4 % 2 ^ 7) + n % 2 ^ 4 % 2 ^ 3 := by
    have h := and_apart (k := 4) (a := n % 2 ^ 26 / 2 ^ 4) (b := n % 2 ^ 26 % 2 ^ 4) (c := 2 ^ 7 - 1) (d := 2 ^ 3 - 1) (by omega) (by omega)
    rw [Nat.and_two_pow_sub_one_eq_mod, Nat.and_two_pow_sub_one_eq_mod, Nat.div_add_mod] at h
    exact h.trans (by omega)
  have h := and_apart (k := 26) (a := n / 2 ^ 26) (b := n % 2 ^ 26) (c := 2 ^ 26 - 1) (d := 0x7F7) (by omega) (by omega)
  rw [Nat.and_two_pow_sub_one_eq_mod, Nat.div_add_mod, hlow] at h
  exact h.trans (by omega)

/-- An entry reads back the bits that it has. -/
theorem exp_word_ofWord (v : Word) : (Exp.ofWord v).word = v &&& BitVec.ofNat 64 (7 + 0x7F0 + (2 ^ 52 - 2 ^ 26)) := by
  refine BitVec.eq_of_toNat_eq ?_
  rw [BitVec.toNat_and, BitVec.toNat_ofNat, Nat.mod_eq_of_lt (by decide), and_exportMask]
  simp only [Exp.ofWord, Exp.word, BitVec.toNat_ofNat, toNat_getLsbD]
  omega

theorem export_keepsBits (s : State) (k : Nat) (v : Word) (hup : s.hostUp = true) (hk : k < 2048) :
    ∃ t, KeepsBits s (.exportEntry k) v (BitVec.ofNat 64 (7 + 0x7F0 + (2 ^ 52 - 2 ^ 26))) t := by
  refine ⟨_, (hostWrite_export hup k v).trans (if_pos hk), ?_, rfl, rfl, rfl⟩
  have hread := hostRead_export (s := { s with fab := { s.fab with exports := Sp.set s.fab.exports k (Exp.ofWord v) Exp.none } }) hup k
  rw [hread, Sp.get_set_same, exp_word_ofWord]

/-! ### Stream queues (R411) -/

theorem pageWrite_sq {s : State} {vi q k off : Nat} (hvi : vi < 128) (hq : q < 64) (hk : k < 4) (hoff : off = 0x100 + 32 * q + 8 * k)
    (v : Word) : s.pageWrite vi off v = s.sqField vi q k v := by
  have hqueue : (off - 0x100) / 32 = q := by omega
  have hfield : (off - 0x100) / 8 % 4 = k := by omega
  rw [State.pageWrite.eq_def, if_neg (by omega), if_pos (by omega), hqueue, hfield]

/-- Setting bit 0 leaves the bits above it. -/
theorem or_one_div (v : Word) {k : Nat} (hk : 1 ≤ k) : (v ||| 1).toNat / 2 ^ k = v.toNat / 2 ^ k := by
  have h1 : (1 : Word).toNat >>> k = 0 := by
    rw [Nat.shiftRight_eq_div_pow]
    exact Nat.div_eq_of_lt (Nat.one_lt_two_pow (by omega))
  rw [BitVec.toNat_or, ← Nat.shiftRight_eq_div_pow, ← Nat.shiftRight_eq_div_pow, Nat.shiftRight_or_distrib, h1, Nat.or_zero]

theorem or_one_bit0 (v : Word) : (v ||| 1).getLsbD 0 = true := by
  rw [BitVec.getLsbD_or]; exact Bool.or_true _

theorem or_one_bit1 (v : Word) : (v ||| 1).getLsbD 1 = v.getLsbD 1 := by
  rw [BitVec.getLsbD_or]; exact Bool.or_false _

/-- SQ_CFG with EN 1, where no LOAD goes on through the queue. -/
theorem sqWrite_enables {s : State} {vi q : Nat} {v : Word} (hload : q = 0 → (s.vi vi).loading = none) :
    s.sqWrite vi q (v ||| 1) = (s.dropSub vi q).setVi vi ((s.vi vi).setSq q { (s.vi vi).sq q with
      en := true, host := v.getLsbD 1, lsize := BitVec.ofNat 4 (v.toNat / 4), head := 0, tail := 0 }) := by
  have hno : ¬ (q = 0 ∧ (s.vi vi).loading.isSome = true) := fun h => by
    rw [hload h.1] at h; exact Bool.false_ne_true h.2
  have hsize : (v ||| 1).toNat / 4 = v.toNat / 4 := or_one_div v (k := 2) (by decide)
  rw [State.sqWrite]
  simp only [or_one_bit0, or_one_bit1, hsize, if_true, if_neg hno]

/-- An entry in host memory that the scan of its queue takes. -/
theorem sqScan_takes {s : State} {vi q : Nat} {bs : List Byte} (hen : ((s.vi vi).sq q).en = true)
    (hhost : ((s.vi vi).sq q).host = true) (hvi : (s.vi vi).enabled = true) (hclosing : (s.vi vi).closing = false)
    (hno : ∀ u ∈ s.disp.subs, ¬ (u.vi = vi ∧ u.queue = q)) (hlt : ((s.vi vi).sq q).head.toNat < ((s.vi vi).sq q).tail.toNat)
    (hget : s.hostGet (((s.vi vi).sq q).base.toNat + 64 * (((s.vi vi).sq q).head.toNat % 2 ^ ((s.vi vi).sq q).lsize.toNat)) 64 = some bs)
    (hstamp : fieldOf (leNat bs) 128 32 = (((s.vi vi).sq q).head.toNat + 1) % 2 ^ 32) :
    ∃ bad, (s.sqScan vi q).disp.subs = s.disp.subs ++ [⟨vi, BitVec.ofNat 64 (fieldOf (leNat bs) 0 64), fieldOf (leNat bs) 64 12 + 1,
      BitVec.ofNat 32 (fieldOf (leNat bs) 96 32), q, bad⟩] := by
  have hwaits : (s.disp.subs.any fun u => decide (u.vi = vi) && decide (u.queue = q)) = false := by
    simpa using hno
  have hread : s.sqRead vi ((s.vi vi).sq q) 64 = (s, some bs) := by
    rw [State.sqRead, if_pos hhost, hget]
  refine ⟨decide (fieldOf (leNat bs) 76 20 ≠ 0) || decide (fieldOf (leNat bs) 160 352 ≠ 0), ?_⟩
  rw [State.sqScan]
  simp only [hen, hvi, hclosing, hwaits, decide_eq_false (Nat.not_le.2 hlt), hread, hstamp, Bool.not_true, Bool.or_self,
    Bool.false_eq_true, if_false, ne_eq, not_true_eq_false]

/-- TAIL moves up to the value, and the doorbell waits for a core. -/
theorem doorbellWrite_open {s : State} {vi q : Nat} (h : (s.vi vi).closing = false) (v : Word) :
    s.doorbellWrite vi q v = (s.setVi vi ((s.vi vi).setSq q { (s.vi vi).sq q with
      tail := if ((s.vi vi).sq q).tail.toNat < v.toNat then v else ((s.vi vi).sq q).tail })).post (.doorbell vi q) := by
  rw [State.doorbellWrite]
  simp only [h, Bool.false_eq_true, if_false]
  split <;> rfl

/-- The doorbell of an entry in host memory, with a core idle and nothing else waiting. -/
theorem doorbell_submits {s : State} {vi q : Nat} {y : StreamQ} {bs : List Byte} (hen : y.en = true) (hhost : y.host = true)
    (hvi : (s.vi vi).enabled = true) (hclosing : (s.vi vi).closing = false) (hfb : s.fe.fallback = false) (hev : s.fe.events = [])
    (hidle : s.idleCore.isSome = true) (hkey : ∀ c ∈ s.fe.cores, c.2.key ≠ (Event.doorbell vi q).key)
    (hno : ∀ u ∈ s.disp.subs, ¬ (u.vi = vi ∧ u.queue = q)) (hlt : y.head.toNat < y.tail.toNat)
    (hget : s.hostGet (y.base.toNat + 64 * (y.head.toNat % 2 ^ y.lsize.toNat)) 64 = some bs)
    (hstamp : fieldOf (leNat bs) 128 32 = (y.head.toNat + 1) % 2 ^ 32) :
    ∃ bad, ((s.setVi vi ((s.vi vi).setSq q y)).post (.doorbell vi q)).disp.subs = s.disp.subs ++
      [⟨vi, BitVec.ofNat 64 (fieldOf (leNat bs) 0 64), fieldOf (leNat bs) 64 12 + 1, BitVec.ofNat 32 (fieldOf (leNat bs) 96 32), q,
        bad⟩] := by
  obtain ⟨k, cores, -, hpost⟩ := post_idle (s.setVi vi ((s.vi vi).setSq q y)) (.doorbell vi q) hev hidle hkey (.inl hfb)
  rw [hpost]
  have hq : ∀ f : Front, State.vi { s.setVi vi ((s.vi vi).setSq q y) with fe := f } vi = (s.vi vi).setSq q y := fun f =>
    State.setVi_same ..
  have hsq : ∀ f : Front, (State.vi { s.setVi vi ((s.vi vi).setSq q y) with fe := f } vi).sq q = y := fun f => by
    rw [hq, VI.sq_setSq]
  refine sqScan_takes ?_ ?_ ?_ ?_ hno ?_ ?_ ?_
  · rw [hsq]; exact hen
  · rw [hsq]; exact hhost
  · rw [hq]; exact hvi
  · rw [hq]; exact hclosing
  · rw [hsq]; exact hlt
  · rw [hsq]; exact hget
  · rw [hsq]; exact hstamp

theorem sq_of_configured {v w : VI} (h : v.configured = w.configured) (q : Nat) : v.sq q = w.sq q := by
  rw [VI.sq, VI.sq, sqs_of_configured h]

theorem sqEnable_next {s : State} {vi q : Nat} (v : Word) (hup : s.hostUp = true) (hvi : vi < 128) (hq : q < 64)
    (hload : q = 0 → (s.vi vi).loading = none) : exec (.sqEnable vi q v) s =
      .next ((s.dropSub vi q).setVi vi ((s.vi vi).setSq q { (s.vi vi).sq q with
        en := true, host := v.getLsbD 1, lsize := BitVec.ofNat 4 (v.toNat / 4), head := 0, tail := 0 })) := by
  rw [exec_sqEnable, hostWrite_page hup, Nat.mod_eq_of_lt hvi, Nat.mod_eq_of_lt hq,
    pageWrite_sq (k := 1) hvi hq (by decide) (by omega)]
  exact congrArg _ (sqWrite_enables hload)

theorem sqDoorbell_next {s : State} {vi q : Nat} (v : Word) (hup : s.hostUp = true) (hvi : vi < 128) (hq : q < 64)
    (hclosing : (s.vi vi).closing = false) : exec (.sqDoorbell vi q v) s =
      .next ((s.setVi vi ((s.vi vi).setSq q { (s.vi vi).sq q with
        tail := if ((s.vi vi).sq q).tail.toNat < v.toNat then v else ((s.vi vi).sq q).tail })).post (.doorbell vi q)) := by
  rw [exec_sqDoorbell, hostWrite_page hup, Nat.mod_eq_of_lt hvi, Nat.mod_eq_of_lt hq,
    pageWrite_sq (k := 2) hvi hq (by decide) (by omega)]
  exact congrArg _ (doorbellWrite_open hclosing v)

/-- A core that serves the doorbell at once leaves the queue's registers. -/
theorem sq_post (s : State) (vi q : Nat) (y : StreamQ) (e : Event) :
    (((s.setVi vi ((s.vi vi).setSq q y)).post e).vi vi).sq q = y := by
  have h := (post_served (s.setVi vi ((s.vi vi).setSq q y)) e).configured vi
  rw [sq_of_configured h, State.setVi_same, VI.sq_setSq]

/-! ### Launch queues (R334) -/

theorem ctlWrite_lq {q : Nat} (hq : q < 16) (s : State) (v : Word) :
    s.ctlWrite (0x8140 + 8 * q) v = s.lqWrite s.fe.visel.toNat q v := by
  have hqueue : (0x8140 + 8 * q - 0x8140) / 8 = q := by omega
  have hfield : (0x8140 + 8 * q - 0x8140) % 8 = 0 := by omega
  rw [State.ctlWrite, if_neg (by omega), if_neg (by omega), if_neg (by omega), if_neg (by omega), if_neg (by omega),
    if_neg (by omega), if_pos (by omega), hqueue, hfield]
  rfl

/-- EN 1 where HADDR may be written. -/
theorem lqWrite_enables {s s1 : State} {vi q : Nat} {v : Word} (h : s.haddrOk vi ((s.vi vi).lq q).haddr = (s1, true)) :
    ((s.lqWrite vi q (v ||| 1)).vi vi).lq q = { (s.vi vi).lq q with
      en := true, lsize := BitVec.ofNat 4 (v.toNat / 2), head := 0, tail := 0, drop := [] } := by
  have hsize : (v ||| 1).toNat / 2 = v.toNat / 2 := or_one_div v (k := 1) (by decide)
  rw [State.lqWrite]
  simp only [or_one_bit0, hsize, if_true, h]
  rw [vi_of_around (fePut_around _ _ _ _), State.setVi_same, VI.lq_setLq]

/-- EN 1 where HADDR may not be written. -/
theorem lqWrite_refuses {s s1 : State} {vi q : Nat} {v : Word} (h : s.haddrOk vi ((s.vi vi).lq q).haddr = (s1, false)) :
    s.lqWrite vi q (v ||| 1) = (s.setVi vi ((s.vi vi).setLq q { (s.vi vi).lq q with
      lsize := BitVec.ofNat 4 (v.toNat / 2) })).cfgErr := by
  have hsize : (v ||| 1).toNat / 2 = v.toNat / 2 := or_one_div v (k := 1) (by decide)
  rw [State.lqWrite]
  simp only [or_one_bit0, hsize, if_true, h]

theorem launchQueueEnable_elsewhere {s : State} {vi : Nat} (q : Nat) (v : Word) (h : s.fe.visel.toNat ≠ vi) :
    exec (.launchQueueEnable vi q v) s = .next s := by
  rw [exec_launchQueueEnable, if_neg h]

theorem launchQueueEnable_next {s : State} {vi q : Nat} (v : Word) (hup : s.hostUp = true) (hq : q < 16)
    (h : s.fe.visel.toNat = vi) : exec (.launchQueueEnable vi q v) s = .next (s.lqWrite vi q (v ||| 1)) := by
  rw [exec_launchQueueEnable, if_pos h, hostWrite_ctl hup, Nat.mod_eq_of_lt hq, ctlWrite_lq hq, h]

/-! ### Cluster sets and the cell store (R164, R417) -/

theorem ctlWrite_vicls {d : Nat} (hd : d < 24) (s : State) (v : Word) : s.ctlWrite (0x8120 + d) v = s.viclsWrite d v := by
  rw [State.ctlWrite, if_neg (by omega), if_neg (by omega), if_neg (by omega), if_neg (by omega), if_neg (by omega),
    if_pos (by omega), Nat.add_sub_cancel_left]

theorem ctlWrite_cellcfg {d : Nat} (hd : d < 24) (s : State) (v : Word) : s.ctlWrite (0x8040 + d) v = s.cellcfgWrite d v := by
  rw [State.ctlWrite, if_neg (by omega), if_pos (by omega), Nat.add_sub_cancel_left]

theorem viclsWrite_next {s : State} {d : Nat} (v : Word) (hup : s.hostUp = true) (hd : d < 24) :
    exec (.viclsWrite d v) s = .next (s.viclsWrite d v) := by
  rw [exec_viclsWrite, hostWrite_ctl hup, Nat.mod_eq_of_lt hd, ctlWrite_vicls hd]

theorem cellcfgWrite_next {s : State} {d : Nat} (v : Word) (hup : s.hostUp = true) (hd : d < 24) :
    exec (.cellcfgWrite d v) s = .next (s.cellcfgWrite d v) := by
  rw [exec_cellcfgWrite, hostWrite_ctl hup, Nat.mod_eq_of_lt hd, ctlWrite_cellcfg hd]

/-- When a write of SYS_VICLS is refused. -/
theorem viclsWrite_cases {s : State} {d : Nat} (hd : d < 24) (v : Word) :
    s.viclsWrite d v =
      if ((s.vi s.fe.visel.toNat).enabled = true ∧ Sp.get (s.vi s.fe.visel.toNat).vicls d 0 ≠ v) ∨
          s.setsClash s.fe.visel.toNat (s.vi s.fe.visel.toNat).sliced (Sp.set (s.vi s.fe.visel.toNat).vicls d v 0) = true then s.cfgErr
      else s.setVi s.fe.visel.toNat { s.vi s.fe.visel.toNat with vicls := Sp.set (s.vi s.fe.visel.toNat).vicls d v 0 } := by
  rw [State.viclsWrite, if_neg (Nat.not_le.2 hd)]
  simp only [Bool.or_eq_true, Bool.and_eq_true, decide_eq_true_eq]

/-- An interface that is off is written as a whole, unless its clusters would be shared. -/
theorem vicfgWrite_off {s : State} {v : Word} (h : (s.vi s.fe.visel.toNat).enabled = false) :
    s.vicfgWrite (v ||| 1) = if s.setsClash s.fe.visel.toNat (v.getLsbD 1) (s.vi s.fe.visel.toNat).vicls = true then s.cfgErr
      else { s.setVi s.fe.visel.toNat { s.vi s.fe.visel.toNat with vicfg := (v ||| 1) &&& 0xFF } with
        fe := { s.fe with anyEnabled := true } } := by
  rw [State.vicfgWrite]
  simp only [h, or_one_bit0, or_one_bit1, Bool.false_eq_true, if_false, Bool.or_true]
  rfl

theorem hostWrite_vicfg {s : State} (hup : s.hostUp = true) (v : Word) : s.hostWrite (.ctl 0x8100) v = s.vicfgWrite v := by
  rw [hostWrite_ctl hup, ctlWrite_iface (by decide) (by decide)]; rfl

theorem viEnable_next {s : State} (v : Word) (hup : s.hostUp = true) : exec (.viEnable v) s = .next (s.vicfgWrite (v ||| 1)) := by
  rw [exec_viEnable, hostWrite_vicfg hup]

theorem viDisable_next {s : State} (v : Word) (hup : s.hostUp = true) :
    exec (.viDisable v) s = .next (s.vicfgWrite (v &&& ~~~1)) := by
  rw [exec_viDisable, hostWrite_vicfg hup]

/-- Clearing bit 0 clears it and leaves bit 1. -/
theorem and_not_one_bit0 (v : Word) : (v &&& ~~~1).getLsbD 0 = false := by
  rw [BitVec.getLsbD_and]; exact Bool.and_false _

theorem and_not_one_bit1 (v : Word) : (v &&& ~~~1).getLsbD 1 = v.getLsbD 1 := by
  rw [BitVec.getLsbD_and]; exact Bool.and_true _

/-- EN 0 of an interface that is on: SLICED as it stands starts the tear-down, another is an error. -/
theorem vicfgWrite_disables {s : State} {v : Word} (h : (s.vi s.fe.visel.toNat).enabled = true)
    (hs : v.getLsbD 1 = (s.vi s.fe.visel.toNat).sliced) :
    ∃ w : Word, w.getLsbD 0 = true ∧ s.vicfgWrite (v &&& ~~~1) = ((s.setVi s.fe.visel.toNat
      { s.vi s.fe.visel.toNat with vicfg := w }).setVi s.fe.visel.toNat
        { s.vi s.fe.visel.toNat with vicfg := w, disabling := true }).tearDown s.fe.visel.toNat none := by
  refine ⟨((v &&& ~~~1) &&& 0xFE) ||| 1, or_one_bit0 _, ?_⟩
  rw [State.vicfgWrite]
  simp only [h, and_not_one_bit0, and_not_one_bit1, hs, State.setVi_same, ne_eq, not_true_eq_false, Bool.false_eq_true, if_true, if_false]

theorem vicfgWrite_resliced {s : State} {v : Word} (h : (s.vi s.fe.visel.toNat).enabled = true)
    (hs : v.getLsbD 1 ≠ (s.vi s.fe.visel.toNat).sliced) : s.vicfgWrite (v &&& ~~~1) = s.cfgErr := by
  rw [State.vicfgWrite, if_pos h, if_pos (by rwa [and_not_one_bit1])]

/-! ### Tear-downs (R337, R417) -/

/-- What a tear-down follows: the interfaces and the dispatcher. -/
def State.front (s : State) : Sp VI × Disp := (s.vis, s.disp)

theorem vi_of_front {s t : State} (h : t.front = s.front) (k : Nat) : t.vi k = s.vi k := by
  rw [State.vi, State.vi, show t.vis = s.vis from congrArg Prod.fst h]
theorem disp_of_front {s t : State} (h : t.front = s.front) : t.disp = s.disp := congrArg Prod.snd h
theorem front_of_around {s t : State} (h : t.around = s.around) : t.front = s.front := by
  rw [State.front, State.front, vis_of_around h, disp_of_around h]

/-- A fold of steps that each leave the interfaces and the dispatcher alone. -/
theorem foldl_front {α : Type} (f : State → α → State) (hf : ∀ s a, (f s a).front = s.front) (l : List α) :
    ∀ s, (l.foldl f s).front = s.front := by
  induction l with
  | nil => exact fun s => rfl
  | cons a r ih => exact fun s => (ih (f s a)).trans (hf s a)

theorem onPeer_front (s : State) (k : Nat) {f : State → State} (hf : ∀ s, (f s).front = s.front) : (s.onPeer k f).front = s.front := by
  rw [State.onPeer]
  split
  · exact hf _
  · rfl

theorem onCluster_front (s : State) (die clus : Nat) {f : State → State} (hf : ∀ s, (f s).front = s.front) :
    (s.onCluster die clus f).front = s.front := by
  rw [State.onCluster]
  split
  · exact hf s
  · split
    · exact onPeer_front s _ hf
    · rfl

theorem selUse_front (s : State) (b : Nat) (write : Bool) : (s.selUse b write).front = s.front :=
  front_of_around (l2Use_around ..)

theorem copyRelease_front (s : State) (q : CopyRun) (die : Nat) : (s.copyRelease q die).front = s.front :=
  foldl_front (fun s b => s.selUse b true) (fun s b => selUse_front s b true) q.regions _

theorem l1CopyDrop_front (s : State) (x : Nat × List ShadowByte) : (s.l1CopyDrop x).front = s.front := by
  rw [State.l1CopyDrop]
  split
  · simp only
    split
    · exact foldl_front _ (fun s o => front_of_around (baseWrite_around ..)) _ s
    · rfl
  · rfl

theorem copyFail_front (s : State) (h : Entry) (code : Nat) : (s.copyFail h code).front = s.front := rfl

/-- A copy that fails or ends ABORTED. -/
theorem copyEnd_front (s : State) (h : Entry) (q : CopyRun) {code : Nat} (hc : code ≠ 0) : (s.copyEnd h q code).front = s.front := by
  rw [State.copyEnd, if_neg hc, copyFail_front]
  exact (foldl_front _ l1CopyDrop_front _ _).trans (copyRelease_front s q s.me.die)

theorem abortCopy_front (s : State) : s.abortCopy.front = s.front := by
  rw [State.abortCopy]
  split
  · split
    · exact copyEnd_front s _ _ (by decide)
    · split <;> rfl
  · split <;> rfl
  · rfl

theorem abortOrphan_front (s : State) : s.abortOrphan.front = s.front := by
  rw [State.abortOrphan]
  split
  · exact copyRelease_front s _ _
  · rfl

theorem stopScope_front (s : State) (vi : Nat) (stream : Option Nat) : (s.stopScope vi stream).front = s.front :=
  foldl_front (fun (s : State) (c : Cluster) => s.onCluster c.die c.clus fun s => s.abortCopy.abortOrphan)
    (fun s _ => onCluster_front s _ _ fun s => (abortOrphan_front _).trans (abortCopy_front s)) _ s

theorem retireStream_front (s : State) (vi stream : Nat) : (s.retireStream vi stream).front = s.front :=
  foldl_front (fun (s : State) (r : TagRec) => (s.setTag { r with st := .retiring }).addRetire ⟨r.die, r.idx, vi, none, [], []⟩)
    (fun _ _ => rfl) _ s

/-- How far a tear-down of an interface has come: EN, whether it goes on, and whether EN falls with its end. -/
def VI.life (v : VI) : Bool × Bool × Bool := (v.enabled, v.closing, v.disabling)

theorem life_of_configured {v w : VI} (h : v.configured = w.configured) : v.life = w.life :=
  show v.configured.life = w.configured.life by rw [h]

/-- No graph of an interface waits to be accepted. -/
def State.quiet (s : State) (vi : Nat) : Prop := ∀ u ∈ s.disp.subs, u.vi ≠ vi

/-- Firmware cores take nothing from an interface that is off or being torn down. -/
theorem Served.quiet {s t : State} (h : Served s t) {vi : Nat} (hq : s.quiet vi)
    (hoff : (s.vi vi).enabled = true → (s.vi vi).closing = true) : t.quiet vi := fun u hu hvi => by
  rcases h.subs u hu with hu | ⟨he, hc⟩
  · exact hq u hu hvi
  · rw [hvi] at he hc
    rw [hoff he] at hc
    exact Bool.noConfusion hc

/-- A step of the tear-down of an interface: nodes and the interface's life stand. -/
structure Tearing (vi : Nat) (s t : State) : Prop where
  nodes : t.disp.nodes = s.disp.nodes
  life : (t.vi vi).life = (s.vi vi).life

theorem Tearing.trans {vi : Nat} {s t u : State} (h1 : Tearing vi s t) (h2 : Tearing vi t u) : Tearing vi s u :=
  ⟨h2.nodes.trans h1.nodes, h2.life.trans h1.life⟩

theorem Tearing.of_front {vi : Nat} {s t : State} (h : t.front = s.front) : Tearing vi s t :=
  ⟨by rw [disp_of_front h], by rw [vi_of_front h]⟩

theorem Served.tearing {s t : State} (h : Served s t) (vi : Nat) : Tearing vi s t :=
  ⟨h.nodes, life_of_configured (h.configured vi)⟩

/-- The interface is replaced by one of the same life. -/
theorem Tearing.of_setVi {vi : Nat} (s : State) {v : VI} (h : v.life = (s.vi vi).life) : Tearing vi s (s.setVi vi v) :=
  ⟨rfl, by rw [State.setVi_same, h]⟩

theorem foldl_tearing {α : Type} {vi : Nat} (f : State → α → State) (hf : ∀ s a, Tearing vi s (f s a)) (l : List α) :
    ∀ s, Tearing vi s (l.foldl f s) := by
  induction l with
  | nil => exact fun s => ⟨rfl, rfl⟩
  | cons a r ih => exact fun s => (hf s a).trans (ih (f s a))

theorem tearQueue_tearing (s : State) (vi : Nat) (stream : Option Nat) (q : Nat) : Tearing vi s (s.tearQueue vi stream q) := by
  cases stream with
  | none => exact .of_setVi s rfl
  | some k => exact .of_setVi s rfl

/-- Where no submission of a closing interface waits, none does after a LOAD with nothing left to submit has gone on. -/
theorem loadEnds_empty {s : State} {vi last : Nat} (h : (s.vi vi).loading = some ⟨[], last⟩) (hq : s.quiet vi)
    (hc : (s.vi vi).closing = true) : Tearing vi s (s.loadEnds vi) ∧ (s.loadEnds vi).quiet vi := by
  rw [State.loadEnds]
  simp only [h, List.length_nil, State.feedLoad]
  split
  · have hset : Tearing vi s (s.setVi vi { s.vi vi with loading := none }) := .of_setVi s rfl
    have hdone := mboxDone_served (s.setVi vi { s.vi vi with loading := none }) vi 0
    refine ⟨hset.trans (hdone.tearing vi), hdone.quiet hq fun _ => ?_⟩
    rw [State.setVi_same]; exact hc
  · exact ⟨⟨rfl, rfl⟩, hq⟩

theorem closing_of_life {v w : VI} (h : v.life = w.life) : v.closing = w.closing := congrArg (fun x => x.2.1) h
theorem enabled_of_life {v w : VI} (h : v.life = w.life) : v.enabled = w.enabled := congrArg Prod.fst h
theorem disabling_of_life {v w : VI} (h : v.life = w.life) : v.disabling = w.disabling := congrArg (fun x => x.2.2) h

/-- One dropped submission: its entry is consumed and its records are counted. -/
def State.dropEntry (vi : Nat) (s : State) (u : Submission) : State :=
  s.setVi vi (((s.vi vi).setSq u.queue { (s.vi vi).sq u.queue with head := ((s.vi vi).sq u.queue).head + 1 }).drops u.count)

/-- `dropWaiting`, its part about submissions. -/
def State.dropEntries (s : State) (vi : Nat) : State :=
  (s.disp.subs.filter fun u => decide (u.vi = vi)).foldl (State.dropEntry vi)
    { s with disp := { s.disp with subs := s.disp.subs.filter fun u => decide (u.vi ≠ vi) } }

/-- `dropWaiting`, its part about a LOAD that goes on. -/
def State.dropLoad (s : State) (vi : Nat) : State :=
  match (s.vi vi).loading with
  | some l => (s.setVi vi { (s.vi vi).drops (l.graphs.foldl (fun n g => n + g.2) 0) with
      loading := some ⟨[], ((s.vi vi).sq 0).head.toNat⟩ }).loadEnds vi
  | none => s

theorem dropWaiting_eq (s : State) (vi : Nat) : s.dropWaiting vi = (s.dropEntries vi).dropLoad vi := rfl

theorem dropEntry_foldl_disp (vi : Nat) (l : List Submission) : ∀ s : State, (l.foldl (State.dropEntry vi) s).disp = s.disp := by
  induction l with
  | nil => exact fun _ => rfl
  | cons u r ih => exact fun s => ih (s.dropEntry vi u)

theorem dropEntries_quiet (s : State) (vi : Nat) : (s.dropEntries vi).quiet vi := fun u hu => by
  rw [State.dropEntries, dropEntry_foldl_disp] at hu
  exact of_decide_eq_true (List.mem_filter.1 hu).2

theorem dropEntries_tearing (s : State) (vi : Nat) : Tearing vi s (s.dropEntries vi) := by
  have h := foldl_tearing (State.dropEntry vi) (fun s u => .of_setVi (vi := vi) s rfl) (s.disp.subs.filter fun u => decide (u.vi = vi))
    { s with disp := { s.disp with subs := s.disp.subs.filter fun u => decide (u.vi ≠ vi) } }
  exact ⟨h.nodes, h.life⟩

theorem dropLoad_quiet {s : State} {vi : Nat} (hc : (s.vi vi).closing = true) (hq : s.quiet vi) :
    Tearing vi s (s.dropLoad vi) ∧ (s.dropLoad vi).quiet vi := by
  rw [State.dropLoad]
  split
  · next l _ =>
    have hset : ∀ v : VI, v.life = (s.vi vi).life → v.loading = some ⟨[], ((s.vi vi).sq 0).head.toNat⟩ →
        Tearing vi s ((s.setVi vi v).loadEnds vi) ∧ ((s.setVi vi v).loadEnds vi).quiet vi := fun v hv hl => by
      have hput : Tearing vi s (s.setVi vi v) := .of_setVi s hv
      have hload := loadEnds_empty (s := s.setVi vi v) (by rw [State.setVi_same, hl]) hq (by rw [closing_of_life hput.life, hc])
      exact ⟨hput.trans hload.1, hload.2⟩
    exact hset _ rfl rfl
  · exact ⟨⟨rfl, rfl⟩, hq⟩

theorem dropWaiting_quiet {s : State} {vi : Nat} (hc : (s.vi vi).closing = true) :
    Tearing vi s (s.dropWaiting vi) ∧ (s.dropWaiting vi).quiet vi := by
  have h1 := dropEntries_tearing s vi
  have h2 := dropLoad_quiet (s := s.dropEntries vi) (by rw [closing_of_life h1.life, hc]) (dropEntries_quiet s vi)
  rw [dropWaiting_eq]
  exact ⟨h1.trans h2.1, h2.2⟩

/-- A tear-down of the whole interface has ended when no node of it is left (R337). -/
theorem scopeEmpty_iff (s : State) (vi : Nat) : s.scopeEmpty vi none = true ↔ ¬ ∃ n ∈ s.disp.nodes, n.vi = vi := by
  simp [State.scopeEmpty]

/-- `endTearDown`, its part about tags. -/
def State.retireEnded (s : State) (vi : Nat) : State :=
  let s1 := ((s.vi vi).tearing.filter fun k => s.scopeEmpty vi (some k)).foldl (fun s k => s.retireStream vi k) s
  if (s.vi vi).closing && s.scopeEmpty vi none then
    ((s1.tags.filter fun r => decide (r.st = .live) && decide (r.vi = vi)).map fun r => r.stream).eraseDups.foldl
      (fun s k => s.retireStream vi k) s1
  else s1

theorem retireEnded_front (s : State) (vi : Nat) : (s.retireEnded vi).front = s.front := by
  have hfold : ∀ (l : List Nat) (s : State), (l.foldl (fun s k => s.retireStream vi k) s).front = s.front :=
    foldl_front _ fun s k => retireStream_front s vi k
  rw [State.retireEnded]
  split
  · exact (hfold _ _).trans (hfold _ _)
  · exact hfold _ _

/-- `endTearDown`, its part about the interface. -/
def VI.tornDown (v : VI) (whole : Bool) (ended : List Nat) : VI :=
  { v with tearing := v.tearing.filter fun k => !ended.contains k,
           closing := v.closing && !whole,
           vicfg := if whole ∧ v.disabling then v.vicfg &&& ~~~1 else v.vicfg,
           disabling := v.disabling && !whole }

/-- The end of a tear-down sets the interface, and may then complete TEARDOWN. -/
theorem endTearDown_served (s : State) (vi : Nat) : ∃ ended : List Nat,
    Served ((s.retireEnded vi).setVi vi (((s.retireEnded vi).vi vi).tornDown ((s.vi vi).closing && s.scopeEmpty vi none) ended))
      (s.endTearDown vi) := by
  refine ⟨(s.vi vi).tearing.filter fun k => s.scopeEmpty vi (some k), ?_⟩
  show Served _ (if _ then State.mboxDone ((s.retireEnded vi).setVi vi _) vi 0 else _)
  split
  · exact mboxDone_served _ vi 0
  · exact .refl _

/-- The life of an interface whose EN falls with its tear-down. -/
theorem tornDown_life {v : VI} (h : v.life = (true, true, true)) (whole : Bool) (ended : List Nat) :
    (v.tornDown whole ended).life = (!whole, !whole, !whole) := by
  have he : v.vicfg.getLsbD 0 = true := enabled_of_life (w := { VI.zero with vicfg := 1, closing := true, disabling := true }) h
  have hc : v.closing = true := congrArg (fun x => x.2.1) h
  have hd : v.disabling = true := congrArg (fun x => x.2.2) h
  cases whole with
  | true => simp only [VI.life, VI.enabled, VI.tornDown, hc, hd, and_self, if_true, and_not_one_bit0, Bool.not_true, Bool.and_false]
  | false => simp only [VI.life, VI.enabled, VI.tornDown, hc, hd, he, Bool.false_eq_true, false_and, if_false, Bool.not_false,
      Bool.and_true]

/-- The end of a tear-down that EN falls with: it falls unless a node is left. -/
theorem endTearDown_disables {s : State} {vi : Nat} (hlife : (s.vi vi).life = (true, true, true)) (hq : s.quiet vi) :
    (s.endTearDown vi).disp.nodes = s.disp.nodes ∧ (s.endTearDown vi).quiet vi ∧
      (((s.endTearDown vi).vi vi).enabled = true ↔ ∃ n ∈ s.disp.nodes, n.vi = vi) := by
  have hfront := retireEnded_front s vi
  have hclosing : (s.vi vi).closing = true := congrArg (fun x => x.2.1) hlife
  obtain ⟨ended, hserved⟩ := endTearDown_served s vi
  rw [vi_of_front hfront, hclosing, Bool.true_and] at hserved
  have hnow : State.vi ((s.retireEnded vi).setVi vi ((s.vi vi).tornDown (s.scopeEmpty vi none) ended)) vi =
      (s.vi vi).tornDown (s.scopeEmpty vi none) ended := State.setVi_same ..
  have hdown := tornDown_life hlife (s.scopeEmpty vi none) ended
  have hclose : ((s.vi vi).tornDown (s.scopeEmpty vi none) ended).closing = !s.scopeEmpty vi none :=
    congrArg (fun x => x.2.1) hdown
  have henabled : ((s.vi vi).tornDown (s.scopeEmpty vi none) ended).enabled = !s.scopeEmpty vi none := congrArg Prod.fst hdown
  refine ⟨?_, ?_, ?_⟩
  · rw [hserved.nodes, State.setVi_disp, disp_of_front hfront]
  · refine hserved.quiet ?_ ?_
    · rw [State.quiet, State.setVi_disp, disp_of_front hfront]; exact hq
    · rw [hnow, hclose, henabled]; exact id
  · rw [enabled_of_configured (hserved.configured vi), hnow, henabled, Bool.not_eq_true', ← Bool.not_eq_true, scopeEmpty_iff, Classical.not_not]

/-- `tearDown` of a whole interface up to the fall of its queues: its strands stop, its nodes end with status 6. -/
def State.stopAll (s : State) (vi : Nat) : State :=
  let s1 := s.stopScope vi none
  let graphs := (s1.disp.nodes.filter (Node.inScope vi none)).map fun n => n.graph
  let s2 := { s1 with disp := { s1.disp with
    nodes := s1.disp.nodes.map fun (n : Node) => if Node.inScope vi none n then { n with status := 6 } else n,
    graphs := s1.disp.graphs.map fun (g : Graph) => if graphs.contains g.id then { g with released := true } else g } }
  ((s2.vi vi).lqs.map fun q => q.1).foldl (fun s q => s.tearQueue vi none q) s2

theorem tearDown_none (s : State) (vi : Nat) : s.tearDown vi none =
    (((s.stopAll vi).setVi vi { (s.stopAll vi).vi vi with closing := true }).dropWaiting vi).endTearDown vi := rfl

theorem stopAll_keeps (s : State) (vi : Nat) : ((s.stopAll vi).vi vi).life = (s.vi vi).life ∧
    (s.stopAll vi).disp.nodes = s.disp.nodes.map fun n => if Node.inScope vi none n then { n with status := 6 } else n := by
  have hfront := stopScope_front s vi none
  have hq := foldl_tearing (fun (s : State) q => s.tearQueue vi none q) (fun s q => tearQueue_tearing s vi none q)
  refine ⟨(hq _ _).life.trans (congrArg VI.life (vi_of_front hfront vi)), (hq _ _).nodes.trans ?_⟩
  rw [disp_of_front hfront]

/-- The interface's own nodes and no others have ended with a status. -/
theorem stopAll_nodes (s : State) (vi : Nat) :
    (∀ n ∈ (s.stopAll vi).disp.nodes, n.vi = vi → n.status ≠ 0) ∧
      ((∃ n ∈ (s.stopAll vi).disp.nodes, n.vi = vi) ↔ ∃ n ∈ s.disp.nodes, n.vi = vi) := by
  have hvi : ∀ n : Node, (if Node.inScope vi none n then { n with status := 6 } else n : Node).vi = n.vi := fun n => by split <;> rfl
  rw [(stopAll_keeps s vi).2]
  simp only [List.mem_map]
  constructor
  · rintro _ ⟨n, hn, rfl⟩ h
    have hin : Node.inScope vi none n = true := by simpa [Node.inScope] using (hvi n).symm.trans h
    rw [if_pos hin]; exact Nat.succ_ne_zero 5
  · constructor
    · rintro ⟨_, ⟨n, hn, rfl⟩, h⟩
      exact ⟨n, hn, (hvi n).symm.trans h⟩
    · rintro ⟨n, hn, h⟩
      exact ⟨_, ⟨n, hn, rfl⟩, (hvi n).trans h⟩

/-- The tear-down of a whole interface that EN falls with (R417). -/
theorem tearDown_disables {s : State} {vi : Nat} (he : (s.vi vi).enabled = true) (hd : (s.vi vi).disabling = true) :
    (s.tearDown vi none).quiet vi ∧ (∀ n ∈ (s.tearDown vi none).disp.nodes, n.vi = vi → n.status ≠ 0) ∧
      (((s.tearDown vi none).vi vi).enabled = true ↔ ∃ n ∈ s.disp.nodes, n.vi = vi) := by
  obtain ⟨hlife, -⟩ := stopAll_keeps s vi
  obtain ⟨hstatus, hsame⟩ := stopAll_nodes s vi
  have hclosing : (((s.stopAll vi).setVi vi { (s.stopAll vi).vi vi with closing := true }).vi vi).life = (true, true, true) := by
    rw [State.setVi_same]
    exact Prod.ext ((enabled_of_life hlife).trans he) (Prod.ext rfl ((disabling_of_life hlife).trans hd))
  obtain ⟨hdrop, hquiet⟩ := dropWaiting_quiet (s := (s.stopAll vi).setVi vi { (s.stopAll vi).vi vi with closing := true }) (vi := vi)
    (congrArg (fun x => x.2.1) hclosing)
  obtain ⟨hnodes, hq, hen⟩ := endTearDown_disables (hdrop.life.trans hclosing) hquiet
  rw [← tearDown_none] at hnodes hq hen
  rw [hdrop.nodes, State.setVi_disp] at hnodes hen
  exact ⟨hq, by rw [hnodes]; exact hstatus, hen.trans hsame⟩

/-- VI_DISABLE of an interface that is on, with SLICED as it stands. -/
theorem viDisable_tearsDown {s : State} (v : Word) (hup : s.hostUp = true) (he : (s.vi s.fe.visel.toNat).enabled = true)
    (hs : v.getLsbD 1 = (s.vi s.fe.visel.toNat).sliced) : ∃ t, exec (.viDisable v) s = .next t ∧ t.quiet s.fe.visel.toNat ∧
      (∀ n ∈ t.disp.nodes, n.vi = s.fe.visel.toNat → n.status ≠ 0) ∧
      ((t.vi s.fe.visel.toNat).enabled = true ↔ ∃ n ∈ s.disp.nodes, n.vi = s.fe.visel.toNat) := by
  obtain ⟨w, hw, heq⟩ := vicfgWrite_disables he hs
  refine ⟨_, (viDisable_next v hup).trans (congrArg _ heq), ?_⟩
  exact tearDown_disables (s := (s.setVi _ _).setVi _ _) (by rw [State.setVi_same]; exact hw) (by rw [State.setVi_same])

/-! ### BAR2 (R409) -/

/-- A host write that waits for its answer. -/
def Owner.isHost (o : Owner) : Bool :=
  match o with
  | .host _ => true
  | _ => false

theorem awaits_around {s t : State} (h : t.around = s.around) (p : Owner → Bool) : t.awaits p = s.awaits p := by
  rw [State.awaits, State.awaits, fab_of_around h]

theorem bar2_down {s : State} {vi off n : Nat} (hup : s.hostUp = false) (hvi : vi < 128) (hoff : off + n ≤ 2 ^ 30)
    (data : Option (List Byte)) : exec (.bar2Access vi off n data) s =
      .next (if data.isNone then { s with fe := { s.fe with bar2 := List.replicate n 0xFF } } else s) := by
  rw [exec_bar2Access, execBar2Access.eq_def, if_neg (by omega), hup]
  rfl

/-- The pieces that a BAR2 access has found for the lines that it covers. -/
theorem bar2_read_up {s s1 : State} {vi off n : Nat} {l : Option (List Piece)} (hup : s.hostUp = true) (hvi : vi < 128)
    (hoff : off + n ≤ 2 ^ 30)
    (hp : s.pieces vi false (linePieces ((s.vi vi).winBase.toNat + off) n (n / 64 + 2)) = (s1, l)) :
    exec (.bar2Access vi off n none) s = .next (l.elim (s1.bar2Fault vi n true) (s1.bar2Read vi n)) := by
  rw [exec_bar2Access, execBar2Access, if_neg (by omega), hup]
  simp only [Bool.not_true, Bool.false_eq_true, if_false, Option.isSome_none, Option.isNone_none, hp]
  cases l <;> rfl

theorem bar2_write_up {s s1 : State} {vi off n : Nat} {bs : List Byte} {l : Option (List Piece)} (hup : s.hostUp = true)
    (hvi : vi < 128) (hoff : off + n ≤ 2 ^ 30)
    (hp : s.pieces vi true (linePieces ((s.vi vi).winBase.toNat + off) bs.length (bs.length / 64 + 2)) = (s1, l)) :
    exec (.bar2Access vi off n (some bs)) s =
      .next (l.elim (s1.bar2Fault vi n false) fun l => s1.bar2Write vi l bs) := by
  rw [exec_bar2Access, execBar2Access, if_neg (by omega), hup]
  simp only [Bool.not_true, Bool.false_eq_true, if_false, Option.isSome_some, Option.isNone_some, hp]
  cases l <;> rfl

/-- An access within one line is one piece. -/
theorem linePieces_one {va n : Nat} (h0 : 0 < n) (hline : va % 64 + n ≤ 64) : linePieces va n (n / 64 + 2) = [(va, n)] := by
  have hc : (if n < 64 - va % 64 then n else 64 - va % 64) = n := by split <;> omega
  rw [linePieces]
  simp only [hc, if_neg (Nat.pos_iff_ne_zero.1 h0), Nat.sub_self]
  rw [linePieces, if_pos rfl]

/-- One piece of memory of this package. -/
theorem pieces_one {s s1 : State} {vi va n pa type : Nat} {write : Bool} (hpage : s.pageOf vi va write = (s1, .ok (pa, type)))
    (htype : type ≠ tSys) (herr : s1.homeErr vi pa type n 0 write = none) :
    s.pieces vi write [(va, n)] = (s1, some [⟨pa, type, n⟩]) := by
  have hp : s1.pieceErr vi ⟨pa, type, n⟩ write = none := (if_pos htype).trans herr
  rw [State.pieces]
  simp only [hpage, hp, Option.isSome_none, Bool.false_eq_true, if_false]
  rfl

/-- The lookups of an access leave everything but slices and draws. -/
theorem pieces_around (vi : Nat) (write : Bool) (l : List (Nat × Nat)) : ∀ s : State, (s.pieces vi write l).1.around = s.around := by
  induction l with
  | nil => exact fun s => rfl
  | cons x r ih =>
    intro s
    rw [State.pieces]
    split
    · next h => exact around_of_pageOf h
    · next h =>
      simp only
      split
      · exact around_of_pageOf h
      · exact (ih _).trans (around_of_pageOf h)

theorem around_of_pieces {s s1 : State} {vi : Nat} {write : Bool} {l : List (Nat × Nat)} {r : Option (List Piece)}
    (h : s.pieces vi write l = (s1, r)) : s1.around = s.around := by
  have := pieces_around vi write l s
  rwa [h] at this

theorem pieceFar_local (s : State) {p : Piece} (h : p.type ≠ tSys) : s.pieceFar p = none := if_neg fun hp => h hp.1

/-- A read waits for the writes before it. -/
theorem bar2Read_waits {s : State} (h : s.awaits Owner.isHost = true) (vi n : Nat) (l : List Piece) : s.bar2Read vi n l = s :=
  if_pos h

theorem bar2Read_one {s : State} {vi pa type n : Nat} (h : s.awaits Owner.isHost = false) (htype : type ≠ tSys) :
    s.bar2Read vi n [⟨pa, type, n⟩] = State.forget { s.homeTouch pa type 0 with
      fe := { (s.homeTouch pa type 0).fe with bar2 := s.homeRead pa type n 0 } } fun o => decide (o = Owner.bar2 vi) := by
  have hfar : s.pieceFar ⟨pa, type, n⟩ = none := pieceFar_local s htype
  refine (if_neg (show ¬ s.awaits Owner.isHost = true by rw [h]; decide)).trans ?_
  simp only [List.filter_cons, hfar, Option.isSome_none, Bool.false_eq_true, if_false, List.filter_nil, List.map_nil, State.fetch,
    State.piecesRead, State.pieceRead, if_pos htype, State.homeGet, List.nil_append]

theorem bar2Write_one {s : State} {vi pa type : Nat} (bs : List Byte) (htype : type ≠ tSys) :
    s.bar2Write vi [⟨pa, type, bs.length⟩] bs = s.homeWrite pa type 0 bs := by
  have hfar : s.pieceFar ⟨pa, type, bs.length⟩ = none := pieceFar_local s htype
  rw [State.bar2Write]
  simp only [List.any_cons, List.any_nil, hfar, Option.any_none, Bool.or_self, Bool.false_eq_true, if_false, State.piecesWrite,
    State.pieceWrite, if_pos htype, List.take_length]

/-- WINERR counts, and saturates. -/
theorem winFault_winerr (s : State) (vi : Nat) : ((s.winFault vi).vi vi).winerr.toNat =
    if (s.vi vi).winerr.toNat = 2 ^ 32 - 1 then 2 ^ 32 - 1 else (s.vi vi).winerr.toNat + 1 := by
  have hlt := (s.vi vi).winerr.isLt
  have hall : (s.vi vi).winerr = BitVec.allOnes 32 ↔ (s.vi vi).winerr.toNat = 2 ^ 32 - 1 :=
    ⟨fun h => by rw [h]; rfl, fun h => BitVec.eq_of_toNat_eq h⟩
  rw [State.winFault, State.setVi_same]
  simp only [hall]
  split
  · assumption
  · rw [BitVec.toNat_add]
    exact Nat.mod_eq_of_lt (by change _ + 1 < _; omega)

theorem bar2Fault_counts (s : State) (vi n : Nat) (read : Bool) : ((s.bar2Fault vi n read).vi vi).winerr.toNat =
    (if (s.vi vi).winerr.toNat = 2 ^ 32 - 1 then 2 ^ 32 - 1 else (s.vi vi).winerr.toNat + 1) ∧ (s.bar2Fault vi n read).mem = s.mem := by
  rw [← winFault_winerr s vi]
  cases read <;> exact ⟨rfl, rfl⟩

/-- A read of bytes of one line of memory. -/
theorem bar2_reads_line {s s1 : State} {vi off n pa type : Nat} (hup : s.hostUp = true) (hvi : vi < 128) (hoff : off + n ≤ 2 ^ 30)
    (hn : 0 < n) (hline : ((s.vi vi).winBase.toNat + off) % 64 + n ≤ 64) (htype : type ≠ tSys)
    (hpage : s.pageOf vi ((s.vi vi).winBase.toNat + off) false = (s1, .ok (pa, type)))
    (herr : s1.homeErr vi pa type n 0 false = none) :
    (s.awaits Owner.isHost = true → exec (.bar2Access vi off n none) s = .next s1) ∧
    (s.awaits Owner.isHost = false → ∃ t, exec (.bar2Access vi off n none) s = .next t ∧ t.fe.bar2 = s1.homeRead pa type n 0 ∧
      t.mem = s1.mem ∧ t.me = s.me ∧ t.vis = s.vis) := by
  have hpieces : s.pieces vi false (linePieces ((s.vi vi).winBase.toNat + off) n (n / 64 + 2)) = (s1, some [⟨pa, type, n⟩]) := by
    rw [linePieces_one hn hline, pieces_one hpage htype herr]
  have haround := around_of_pageOf hpage
  have hread := bar2_read_up hup hvi hoff hpieces
  refine ⟨fun hwaits => ?_, fun hnow => ?_⟩
  · exact hread.trans (congrArg _ (bar2Read_waits ((awaits_around haround _).trans hwaits) vi n _))
  · have hget := bar2Read_one (vi := vi) (pa := pa) (n := n) ((awaits_around haround Owner.isHost).trans hnow) htype
    have htouch := homeTouch_around s1 pa type 0
    refine ⟨_, hread.trans (congrArg _ hget), rfl, homeTouch_mem s1 pa type 0, ?_, ?_⟩
    · exact (me_of_around htouch).trans (me_of_around haround)
    · exact (vis_of_around htouch).trans (vis_of_around haround)

/-- A write of bytes of one line of memory. -/
theorem bar2_writes_line {s s1 : State} {vi off pa type : Nat} {bs : List Byte} (hup : s.hostUp = true) (hvi : vi < 128)
    (hoff : off + bs.length ≤ 2 ^ 30) (hn : 0 < bs.length) (hline : ((s.vi vi).winBase.toNat + off) % 64 + bs.length ≤ 64)
    (htype : type ≠ tSys) (hpage : s.pageOf vi ((s.vi vi).winBase.toNat + off) true = (s1, .ok (pa, type)))
    (herr : s1.homeErr vi pa type bs.length 0 true = none) :
    ∃ t, exec (.bar2Access vi off bs.length (some bs)) s = .next t ∧ t.mem = s1.mem.writeN (s1.storage pa type true) bs ∧
      t.me = s.me ∧ t.vis = s.vis := by
  have hpieces : s.pieces vi true (linePieces ((s.vi vi).winBase.toNat + off) bs.length (bs.length / 64 + 2)) =
      (s1, some [⟨pa, type, bs.length⟩]) := by
    rw [linePieces_one hn hline, pieces_one hpage htype herr]
  have haround := around_of_pageOf hpage
  have hput := homeWrite_around s1 pa type bs
  refine ⟨_, (bar2_write_up hup hvi hoff hpieces).trans (congrArg _ (bar2Write_one bs htype)), homeWrite_mem s1 pa type bs, ?_, ?_⟩
  · exact (me_of_around hput).trans (me_of_around haround)
  · exact (vis_of_around hput).trans (vis_of_around haround)

/-! ### The statement, clause by clause -/

/-- The registers of the package, and those of the interface that SYS_VISEL names. -/
theorem ctl_keepsBits (row : Nat × Nat) (s : State) (v : Word) (hup : s.hostUp = true)
    (hrow : row ∈ [(0x8000, 0x7F), (0x8002, 0x00FFFFFFFFFF0000), (0x8004, 0x0000FFFFFFFF3FFF), (0x8005, 0xFFFFFF),
      (0x8006, 0x0000FFFFFFFFFFFF), (0x8007, 0xFFFFFF01), (0x8008, 0xFF), (0x800A, 0x1FFFFF), (0x800B, 0x000FFFFFFFFFFFFF),
      (0x800C, 0x1FFFFF), (0x800D, 0x000FFFFFFFFFFFFF)] ++ [(0x8101, 0x000FFFFFFFFFF801), (0x8103, 0xFF01), (0x8104, 0xFFFFFF),
      (0x8105, 0xFFFFFFFF), (0x8107, 0xFFFF0001), (0x8108, 0xFF)]) :
    ∃ t, KeepsBits s (.ctl row.1) v (BitVec.ofNat 64 row.2) t :=
  (List.mem_append.1 hrow).elim (pkg_keepsBits row s v hup) (iface_keepsBits row s v hup)

/-- Settles O54: a write reaches its register by the lemma of its page; a doorbell that finds a core idle is scanned in its own
step; a tear-down follows EN, `closing` and `disabling` of the interface through its parts; a BAR2 access is the list of its
pieces, whose lookups change slices and draws alone. -/
theorem hostRegisters : Obligations.HostRegisters := by
  unfold Obligations.HostRegisters
  refine ⟨?down, ?ctl, ?page, ?l2Occ, ?w1c, ?exports, ?streamQueues, ?launchQueues, ?interfaces, ?clusterSets, ?bar2Down, ?bar2Line,
    ?bar2Fault⟩
  case down =>
    intro s tgt v h
    rw [exec_registerWrite, exec_w1cClear, hostWrite_down h]
    exact ⟨rfl, rfl, hostRead_down h tgt⟩
  case ctl =>
    intro row hrow s v hup
    obtain ⟨t, ht⟩ := ctl_keepsBits row s v hup hrow
    exact ht.exec
  case page =>
    intro row hrow s vi v hup hvi
    obtain ⟨t, ht⟩ := page_keepsBits row s vi v hup hvi hrow
    exact ht.exec
  case l2Occ =>
    intro s d hup hd hl hs
    rw [hostRead_ctl hup, ctlRead_l2Occ hd, l2Occ_empty hl hs]
  case w1c =>
    intro s vi d v hup hvi hd hv
    simp only [exec_w1cClear, hostWrite_page hup, hostWrite_ctl hup]
    exact ⟨congrArg _ (pageWrite_winerr hvi hv), congrArg _ (pageWrite_dropped hvi hv), congrArg _ (ctlWrite_syncdrop hd s hv)⟩
  case exports =>
    intro s k v hup hk
    obtain ⟨t, ht⟩ := export_keepsBits s k v hup hk
    obtain ⟨t, hx, hr, hm, hme, -⟩ := ht.exec
    exact ⟨t, hx, hr, hm, hme⟩
  case streamQueues =>
    intro s vi q v hup hvi hq x
    refine ⟨sqEnable_next v hup hvi hq, fun hclosing => ⟨_, sqDoorbell_next v hup hvi hq hclosing, sq_post .., ?_⟩⟩
    intro bs hen hhost henabled hfb hev hidle hkey hno hlt hget hstamp
    refine doorbell_submits hen hhost henabled hclosing hfb hev hidle (fun c hc => (hkey c hc).2) hno ?_ hget hstamp
    split
    · next h => exact hlt.elim (fun hlt => Nat.lt_trans hlt h) id
    · next h => exact hlt.elim id fun hlt => Nat.lt_of_lt_of_le hlt (Nat.le_of_not_lt h)
  case launchQueues =>
    intro s vi q v hup hvi hq x lsize
    refine ⟨launchQueueEnable_elsewhere q v, fun h s1 hok => ?_, fun h s1 hbad => ?_⟩
    · exact ⟨_, launchQueueEnable_next v hup hq h, lqWrite_enables hok⟩
    · rw [launchQueueEnable_next v hup hq h, lqWrite_refuses hbad]
  case interfaces =>
    intro s v hup vi x
    refine ⟨fun hoff hfree => ?_, fun hoff hclash => ?_, fun hon hs => viDisable_tearsDown v hup hon hs, fun hon hs => ?_⟩
    · rw [viEnable_next v hup, vicfgWrite_off hoff, if_neg (Bool.eq_false_iff.1 hfree)]
    · rw [viEnable_next v hup, vicfgWrite_off hoff, if_pos hclash]
    · rw [viDisable_next v hup, vicfgWrite_resliced hon hs]
  case clusterSets =>
    intro s die v hup hd vi x set
    refine ⟨fun hfree hclash => ?_, fun hbad => ?_, fun hnone => ?_, fun hany => ?_⟩
    · rw [viclsWrite_next v hup hd, viclsWrite_cases hd, if_neg]
      rintro (⟨hon, hne⟩ | hc)
      · exact hfree.elim (fun h => Bool.false_ne_true (h.symm.trans hon)) hne
      · exact Bool.false_ne_true (hclash.symm.trans hc)
    · rw [viclsWrite_next v hup hd, viclsWrite_cases hd, if_pos hbad]
    · have hmay : ¬ (s.fe.anyEnabled = true ∨ 24 ≤ die) := by
        rw [hnone]; exact fun h => h.elim Bool.false_ne_true (Nat.not_le.2 hd)
      rw [cellcfgWrite_next v hup hd, State.cellcfgWrite, if_neg hmay]
      rfl
    · rw [cellcfgWrite_next v hup hd, State.cellcfgWrite, if_pos (.inl hany)]
  case bar2Down =>
    exact fun s vi off n bs hup hvi hoff => ⟨bar2_down hup hvi hoff none, bar2_down hup hvi hoff (some bs)⟩
  case bar2Line =>
    intro s s1 vi off n pa type hup hvi hoff hn va hline htype
    refine ⟨fun hpage herr => ?_, fun bs hlen hpage herr => ?_⟩
    · exact bar2_reads_line hup hvi hoff hn hline htype hpage herr
    · subst hlen
      exact bar2_writes_line hup hvi hoff hn hline htype hpage herr
  case bar2Fault =>
    intro s s1 vi off n bs hup hvi hoff lines winerr
    refine ⟨fun hp => ?_, fun hp => ?_⟩
    · obtain ⟨hcount, hmem⟩ := bar2Fault_counts s1 vi n true
      rw [vi_of_around (around_of_pieces hp)] at hcount
      exact ⟨_, bar2_read_up hup hvi hoff hp, rfl, hcount, hmem⟩
    · obtain ⟨hcount, hmem⟩ := bar2Fault_counts s1 vi n false
      rw [vi_of_around (around_of_pieces hp)] at hcount
      exact ⟨_, bar2_write_up hup hvi hoff hp, hcount, hmem⟩

end Sys2Proof.Machine
end

section
/-!
SUPPORT. A word of Uslyn-S under a false guard (R19, R36): whatever the word, its arm asks for the guard first and retires the
word where it is false.
-/

namespace Sys2Proof.Machine

/-- A choice whose condition fails retires the word. -/
theorem ite_done_of_false {c : Bool} (s : State) (a : Out) (h : c = false) : (if c then a else done s) = done s := by
  rw [h]; rfl

/-- A FORK of V's blocks, or of M's on an M-cluster, stands under its guard as other words do (R182). -/
theorem fork_false {g : Guard} {m : Bool} {blk : BitVec 20} {s : State} (hk : m = true → s.me.st.vkind = false)
    (h : s.ctl.guard g = false) : exec (.fork g m blk) s = done s := by
  have hlegal : (m && s.me.st.vkind) = false := by
    cases m
    · rfl
    · exact hk rfl
  exact (if_neg (Bool.eq_false_iff.1 hlegal)).trans (guarded_false g s _ h)

/-- Under a false guard each word retires: every arm but FORK's is `guarded` or `pguarded` as a whole. -/
theorem exec_guard_false {i : Instr} {g : Guard} {s : State} (hg : guardOf i = some g) (h : s.ctl.guard g = false)
    (hfork : ∀ g' blk, i = .fork g' true blk → s.me.st.vkind = false) : exec i s = done s := by
  cases i <;> simp only [guardOf, Option.some.injEq, reduceCtorEq] at hg
  case fork g' m blk =>
    subst hg
    exact fork_false (fun hm => hfork g' blk (by rw [hm])) h
  all_goals
    subst hg
    exact ite_done_of_false s _ h

/-- Settles O41: the word and a NOP both retire, and a word that retires falls through where no loop ends. -/
theorem guardFalse : Obligations.GuardFalse := by
  intro i g s hg h hfork
  have hdone := exec_guard_false hg h hfork
  refine ⟨hdone.trans (exec_guard_false (i := .nop g) rfl h (fun _ _ e => by cases e)).symm, fun hs => ?_⟩
  rw [hdone, done_straight s hs]

end Sys2Proof.Machine
end

section
/-!
SUPPORT. Every step keeps the package memory in its canonical form (R31, R57): equal memories are equal data where no stored map
holds a default byte. Few functions of the state write memory, and each by `baseWrite` and its like. So a function that leaves
memory alone has a lemma `f_mem`, an equation, and one that may write has a lemma `f_canon`, which carries canonical form
through it; each cites the lemmas of the functions it calls. This part: the predicate, folds, the wrappers in front of a word,
and the words that end at once.

Where `grind` stands with `-ring -linarith -lia`, its arithmetic would only cost time. These lemmas are elaborated one after
another (`Elab.async`): each waits for those that it cites, and as threads that wait for one another they would need more
memory than one after another.
-/

set_option Elab.async false

namespace Sys2Proof.Machine

/-! ### The predicate -/

/-- Memory in canonical form: `Memory.wf` as a proposition, so that `State.memWf s` is `s.mem.Canon`. -/
def Memory.Canon (m : Memory) : Prop := m.wf = true

/-- What an arm answers has its memory in canonical form; a stop and a refusal answer no state. -/
def outCanon : Out → Prop
  | .next t => t.mem.Canon
  | _ => True

/-- The state that a window access leaves at its source has its memory in canonical form. -/
def Sent.Canon : Sent → Prop
  | .now t _ => t.mem.Canon
  | .away t => t.mem.Canon
  | .full => True

/-- The state after one access of an entry has its memory in canonical form. -/
def Acc.Canon : Acc → Prop
  | .now t _ => t.mem.Canon
  | .away t => t.mem.Canon
  | .stay => True

/-- The state after a command's index list was read, or was not, has its memory in canonical form. -/
def ListGot.Canon : ListGot → Prop
  | .list t _ _ => t.mem.Canon
  | .fault t _ _ => t.mem.Canon
  | .stale t _ => t.mem.Canon
  | .failed t _ => t.mem.Canon
  | .later t => t.mem.Canon

/-- The state after PEERS was read, or was not, has its memory in canonical form. -/
def PeersGot.Canon : PeersGot → Prop
  | .peers t _ _ => t.mem.Canon
  | .fault t _ _ => t.mem.Canon
  | .failed t _ => t.mem.Canon
  | .later t => t.mem.Canon

/-- The state after an access of the access unit has its memory in canonical form. -/
def Got.Canon : Got → Prop
  | .bytes t _ => t.mem.Canon
  | .later t => t.mem.Canon
  | .stop t => t.mem.Canon

/-- The state after an operand row was asked for has its memory in canonical form. -/
def Row.Canon : Row → Prop
  | .elems t _ => t.mem.Canon
  | .later t => t.mem.Canon
  | .stop t => t.mem.Canon

/-- The state after a granule's refill has its memory in canonical form. -/
def Refill.Canon : Refill → Prop
  | .filled t => t.mem.Canon
  | .later t => t.mem.Canon
  | .lost => True

/-! ### Writes of memory, folds over states, and what stands in front of a word -/

@[simp] theorem outCanon_next (t : State) : outCanon (.next t) = t.mem.Canon := rfl

@[simp] theorem baseWrite_canon {s : State} (hm : s.mem.Canon) (a : Nat) (bs : List Byte) : (s.baseWrite a bs).mem.Canon :=
  baseWrite_wf s a bs hm

@[simp] theorem publish_canon {s : State} (hm : s.mem.Canon) (p : Pub) : (s.publish p).mem.Canon :=
  publish_wf s p hm

@[simp] theorem hostPut_canon {s : State} (hm : s.mem.Canon) (a : Nat) (bs : List Byte) : (s.hostPut a bs).mem.Canon :=
  hostPut_wf s a bs hm

@[simp] theorem touchLeaf_canon {s : State} (hm : s.mem.Canon) (l : Leaf) (write : Bool) : (s.touchLeaf l write).mem.Canon :=
  touchLeaf_wf s l write hm

/-- From a lemma about the first part of a function's answer to the state that a match names. -/
theorem canon_of_fst {α : Type} {p : State × α} {t : State} {x : α} (h : p = (t, x)) (hp : p.1.mem.Canon) : t.mem.Canon := by
  rw [h] at hp
  exact hp

theorem foldl_canon {α : Type} {f : State → α → State} (hf : ∀ t x, t.mem.Canon → (f t x).mem.Canon) (l : List α) {s : State}
    (hm : s.mem.Canon) : (l.foldl f s).mem.Canon :=
  List.foldlRecOn (motive := fun t : State => t.mem.Canon) l f hm fun t ht x _ => hf t x ht

theorem foldl_mem {α : Type} {f : State → α → State} (hf : ∀ t x, (f t x).mem = t.mem) (l : List α) (s : State) :
    (l.foldl f s).mem = s.mem :=
  List.foldlRecOn (motive := fun t : State => t.mem = s.mem) l f rfl fun t ht x _ => (hf t x).trans ht

@[simp] theorem done_canon {s : State} (hm : s.mem.Canon) : outCanon (done s) := hm

@[simp] theorem wait_canon {s : State} (hm : s.mem.Canon) : outCanon (wait s) := hm

theorem guarded_canon {s : State} (hm : s.mem.Canon) {g : Guard} {k : State → Out} (hk : outCanon (k s)) :
    outCanon (guarded g s k) := by
  unfold guarded
  split
  · exact hk
  · exact done_canon hm

theorem pguarded_canon {s : State} (hm : s.mem.Canon) {g : PGuard} {k : State → Out} (hk : outCanon (k s)) :
    outCanon (pguarded g s k) := by
  unfold pguarded
  split
  · exact hk
  · exact done_canon hm

theorem reading_canon {s : State} (hm : s.mem.Canon) {rs : List Reg} {k : State → Out} (hk : outCanon (k s)) :
    outCanon (reading rs s k) := by
  unfold reading
  split
  · exact wait_canon hm
  · exact hk

theorem replayed_canon {s : State} (hm : s.mem.Canon) {k : State → Out} (hk : outCanon (k s)) : outCanon (replayed s k) := by
  unfold replayed
  split
  · exact done_canon hm
  · exact hk

theorem loggedOr_canon {s : State} {a k : State → Out} (ha : outCanon (a s)) (hk : outCanon (k s)) :
    outCanon (loggedOr s a k) := by
  unfold loggedOr
  split
  · exact ha
  · exact hk

theorem compute_canon {s : State} (hm : s.mem.Canon) (g : Guard) (rs : List Reg) (d : Reg) (f : State → Word) :
    outCanon (compute g rs d f s) :=
  guarded_canon hm <| reading_canon hm <| done_canon hm

/-! ### Retiring, trapping and queueing a word -/

@[simp] theorem retire_mem (s : State) : s.retire.mem = s.mem := rfl

@[simp] theorem retireTo_mem (s : State) (target : Word) : (s.retireTo target).mem = s.mem := rfl

@[simp] theorem stalled_mem (s : State) : s.stalled.mem = s.mem := rfl

@[simp] theorem raise_mem (s : State) (e : Event) : (s.raise e).mem = s.mem := by
  unfold State.raise
  grind

@[simp] theorem leaveGang_mem (s : State) : s.leaveGang.mem = s.mem := rfl

@[simp] theorem trapEntry_mem (s : State) (r : TrapRec) : (s.trapEntry r).mem = s.mem := by
  unfold State.trapEntry
  grind [State.updSt_mem, leaveGang_mem]

@[simp] theorem trap_canon {s : State} (hm : s.mem.Canon) (c : Cause) : outCanon (trap c s) := by
  unfold trap
  grind [outCanon, trapEntry_mem]

@[simp] theorem trapAt_canon {s : State} (hm : s.mem.Canon) (c : Cause) (a : Word) : outCanon (trapAt c a s) := by
  unfold trapAt
  grind [outCanon, trapEntry_mem]

@[simp] theorem trapInfo_canon {s : State} (hm : s.mem.Canon) (c : Cause) (i : BitVec 16) : outCanon (trapInfo c i s) := by
  unfold trapInfo
  grind [outCanon, trapEntry_mem]

@[simp] theorem deliver_canon {s : State} (hm : s.mem.Canon) (r : TrapRec) : outCanon (deliver r s) := by
  unfold deliver
  simp [hm]

@[simp] theorem issueL_canon {s : State} (hm : s.mem.Canon) (cmd : Cmd) (d : Reg) : outCanon (issueL cmd d s) := by
  unfold issueL
  grind [State.updSt_mem, done_canon, wait_canon]

@[simp] theorem issueLs_canon {s : State} (hm : s.mem.Canon) (cmd : Cmd) (tk : Word) : outCanon (issueLs cmd tk s) := by
  unfold issueLs
  grind [State.updSt_mem, done_canon, wait_canon]

@[simp] theorem issueS_canon {s : State} (hm : s.mem.Canon) (cmd : Cmd) (d : Reg) (tk : Word) :
    outCanon (issueS cmd d tk s) := by
  unfold issueS
  grind [State.updSt_mem, done_canon, wait_canon]

@[simp] theorem issueK_canon {s : State} (hm : s.mem.Canon) (cmd : Cmd) (tk : Word) : outCanon (issueK cmd tk s) := by
  unfold issueK
  grind [State.updSt_mem, done_canon, wait_canon]

/-! ### Transfers of control and loops -/

@[simp] theorem jump_mem (s : State) (t : Word) : (s.jump t).mem = s.mem := rfl

@[simp] theorem transfer_canon {s : State} (hm : s.mem.Canon) {a : Word} {k : State → Out} (hk : outCanon (k s)) :
    outCanon (transfer a s k) := by
  unfold transfer
  grind [trap_canon]

@[simp] theorem execBrq_canon {s : State} (hm : s.mem.Canon) (g : Guard) (t : BitVec 3) (sense : Bool) :
    outCanon (execBrq g t sense s) := by
  refine guarded_canon hm <| ?_
  grind [State.updCtl_mem, done_canon, jump_mem, outCanon, transfer_canon, trap_canon, wait_canon]

@[simp] theorem execZloop_canon {s : State} (hm : s.mem.Canon) (g : Guard) (l : BitVec 2) (stages : BitVec 3) (a : Reg)
    (last : BitVec 11) :
    outCanon (execZloop g l stages a last s) := by
  refine guarded_canon hm <| reading_canon hm <| ?_
  grind -ring -linarith -lia [State.updCtl_mem, outCanon, retireTo_mem, transfer_canon, trap_canon]

@[simp] theorem execZlset_canon {s : State} (hm : s.mem.Canon) (g : Guard) (l : BitVec 2) (f : ZlField) (a : Reg) :
    outCanon (execZlset g l f a s) := by
  refine guarded_canon hm <| reading_canon hm <| ?_
  grind [State.updCtl_mem, done_canon, trap_canon]

end Sys2Proof.Machine
end

section
/-!
SUPPORT. Canonical form through the memory system: slices, translation, homes, requests, and the words and entries that access
memory (`f_mem`, `f_canon`).
-/

set_option Elab.async false

namespace Sys2Proof.Machine

/-! ### The L2 slices -/

@[simp] theorem draw_mem (s : State) : s.draw.2.mem = s.mem := rfl

@[simp] theorem l2Evict_mem (s : State) (p : L2Line → Bool) : (s.l2Evict p).mem = s.mem := rfl

@[simp] theorem l2Place_mem (s : State) (x : L2Line) (avoid : Option Nat) : (s.l2Place x avoid).mem = s.mem := rfl

@[simp] theorem l2Put_mem (s : State) (x : L2Line) : (s.l2Put x).mem = s.mem := rfl

@[simp] theorem l2Encode_mem (s : State) (x : L2Line) (code : Nat) : (s.l2Encode x code).mem = s.mem := by
  unfold State.l2Encode
  grind [draw_mem, l2Evict_mem, l2Place_mem, l2Put_mem]

theorem l2Range_mem (s : State) (a n : Nat) (write : Bool) : (s.l2Range a n write).mem = s.mem := by
  unfold State.l2Range
  split
  · rfl
  · exact foldl_mem (fun _ _ => l2Use_mem ..) _ s

@[simp] theorem selUse_mem (s : State) (base : Nat) (write : Bool) : (s.selUse base write).mem = s.mem := l2Use_mem ..

@[simp] theorem l2Yield_mem (s : State) : s.l2Yield.mem = s.mem := rfl

/-! ### Address translation and the checks of an access -/

@[simp] theorem ptrUse_mem (s : State) (die : Option Nat) (vi lvl va e : Nat) : (s.ptrUse die vi lvl va e).1.mem = s.mem := by
  unfold State.ptrUse
  repeat' split
  all_goals simp

@[simp] theorem ptrFill_mem (s : State) (die : Option Nat) (vi lvl va next : Nat) :
    (s.ptrFill die vi lvl va next).mem = s.mem := by
  unfold State.ptrFill
  grind [draw_mem]

@[simp] theorem walk_mem (s : State) (die : Option Nat) (vi table va : Nat) (levels : List Nat) :
    (s.walk die vi table va levels).1.mem = s.mem := by
  fun_induction State.walk <;> grind -ring -linarith -lia [l2Use_mem, ptrFill_mem, ptrUse_mem]

@[simp] theorem walkBy_mem (s : State) (die : Option Nat) (vi va : Nat) : (s.walkBy die vi va).1.mem = s.mem := by
  unfold State.walkBy
  grind -ring -linarith -lia [walk_mem]

@[simp] theorem xlate_canon {s : State} (hm : s.mem.Canon) (vi va : Nat) (write : Bool) :
    (s.xlate vi va write).1.mem.Canon := by
  unfold State.xlate
  grind [draw_mem, touchLeaf_canon, walkBy_mem]

@[simp] theorem lookup_canon {s : State} (hm : s.mem.Canon) (va n : Nat) (write : Bool) (tag : Option (BitVec 20)) :
    (s.lookup va n write tag).1.mem.Canon := by
  fun_cases State.lookup s va n write tag <;> grind only [xlate_canon]

@[simp] theorem hold_mem (s : State) (c : Cause) (va : Word) (write : Bool) (e : Eng) : (s.hold c va write e).mem = s.mem := by
  unfold State.hold
  grind [State.updSt_mem, raise_mem]

@[simp] theorem faultWord_canon {s : State} (hm : s.mem.Canon) (c : Cause) (va : Word) (write : Bool)
    (tag : Option (BitVec 20)) :
    outCanon (faultWord c va write tag s) := by
  unfold faultWord
  grind [State.updSt_mem, hold_mem, outCanon, stalled_mem, trapEntry_mem]

@[simp] theorem located_canon {s : State} (hm : s.mem.Canon) {ea : Word} {n : Nat} {write : Bool} {tag : Option (BitVec 20)}
    {k : Place → State → Out} (hk : ∀ pl t, t.mem.Canon → outCanon (k pl t)) :
    outCanon (located ea n write tag s k) := by
  have hl := lookup_canon hm ea.toNat n write tag
  unfold located
  split
  · next h => exact hk _ _ (canon_of_fst h hl)
  · next h => exact faultWord_canon (canon_of_fst h hl) ..

@[simp] theorem checking_canon {s : State} (hm : s.mem.Canon) {ea : Word} {n : Nat} {write : Bool} {tag : Option (BitVec 20)}
    {k : Place → State → Out} (hk : ∀ pl t, t.mem.Canon → outCanon (k pl t)) :
    outCanon (checking ea n write tag s k) := by
  unfold checking
  split
  · exact trapAt_canon hm ..
  · split
    · exact trapAt_canon hm ..
    · exact located_canon hm hk

@[simp] theorem accessing_canon {s : State} (hm : s.mem.Canon) {ea : Word} {n : Nat} {write : Bool} {tag : Option (BitVec 20)}
    {k : Place → State → Out} (hk : ∀ pl t, t.mem.Canon → outCanon (k pl t)) :
    outCanon (accessing ea n write tag s k) :=
  checking_canon hm fun pl _ ht => hk pl _ ht

theorem accessingAll_canon {write : Bool} {k : List Place → State → Out} (hk : ∀ pls t, t.mem.Canon → outCanon (k pls t))
    (n : Nat) :
    ∀ {s : State} (_ : s.mem.Canon) (ea : Word) (acc : List Place), outCanon (accessingAll ea n write acc s k) := by
  induction n with
  | zero => exact fun hm _ _ => hk _ _ hm
  | succ n ih => exact fun hm ea acc => checking_canon hm fun pl t hm => ih hm _ _

/-! ### A line at its home and in the L1 -/

/-- Reads of several lines at their homes. -/
theorem homeTouches_mem (tag : BitVec 20) (l : List (Nat × Nat)) (s : State) :
    (l.foldl (fun s x => s.homeTouch x.1 x.2 tag) s).mem = s.mem :=
  foldl_mem (fun _ _ => homeTouch_mem ..) l s

@[simp] theorem homeGet_mem (s : State) (pa type n : Nat) (tag : BitVec 20) : (s.homeGet pa type n tag).1.mem = s.mem :=
  homeTouch_mem ..

@[simp] theorem cellPut_mem (s : State) (a tag : Nat) (bs : List Byte) : (s.cellPut a tag bs).mem = s.mem := by
  unfold State.cellPut
  grind

@[simp] theorem cellWrite_mem (s : State) (a tag : Nat) (bs : List Byte) : (s.cellWrite a tag bs).mem = s.mem := by
  unfold State.cellWrite
  grind [cellPut_mem, l2Use_mem]

@[simp] theorem homeWrite_canon {s : State} (hm : s.mem.Canon) (pa type : Nat) (tag : BitVec 20) (bs : List Byte) :
    (s.homeWrite pa type tag bs).mem.Canon := by
  unfold State.homeWrite
  grind [baseWrite_canon, cellWrite_mem, selRead_mem]

@[simp] theorem l1Flush_canon {s : State} (hm : s.mem.Canon) (l : L1Line) : (s.l1Flush l).mem.Canon := by
  unfold State.l1Flush
  split <;> simp [hm]

@[simp] theorem l1Evict_canon {s : State} (hm : s.mem.Canon) (line : Nat) : (s.l1Evict line).mem.Canon := by
  unfold State.l1Evict
  grind [l1Flush_canon]

@[simp] theorem acquired_mem (s : State) (sc : Scope) : (s.acquired sc).mem = s.mem := by
  unfold State.acquired
  split <;> rfl

@[simp] theorem l1CleanAll_canon {s : State} (hm : s.mem.Canon) : s.l1CleanAll.mem.Canon :=
  foldl_canon (fun _ l hm => l1Flush_canon hm l) s.me.l1 hm

@[simp] theorem l1Fill_canon {s : State} (hm : s.mem.Canon) (line : Nat) (st : L1St) (data : List Byte) :
    (s.l1Fill line st data).mem.Canon := by
  unfold State.l1Fill
  grind -ring -linarith -lia [draw_mem, l1Evict_canon]

@[simp] theorem l1Load_canon {s : State} (hm : s.mem.Canon) (pa type n : Nat) (const : Bool) :
    (s.l1Load pa type n const).1.mem.Canon := by
  unfold State.l1Load
  grind [homeGet_mem, l1Fill_canon]

@[simp] theorem l1Store_canon {s : State} (hm : s.mem.Canon) (pa type : Nat) (bs : List Byte) :
    (s.l1Store pa type bs).1.mem.Canon := by
  unfold State.l1Store
  grind [homeGet_mem, homeWrite_canon, l1Fill_canon]

theorem lockWindow_mem {s t : State} {l : List Nat} (h : s.lockWindow l = some t) : t.mem = s.mem := by
  unfold State.lockWindow at h
  grind [State.updSt_mem]

@[simp] theorem performRead_canon {s : State} (hm : s.mem.Canon) (pl : Place) (n : Nat) (const : Bool) (tag : BitVec 20) :
    (s.performRead pl n const tag).1.mem.Canon := by
  unfold State.performRead
  repeat' split
  all_goals simp [hm]

@[simp] theorem performWrite_canon {s : State} (hm : s.mem.Canon) (pl : Place) (tag : BitVec 20) (bs : List Byte) :
    (s.performWrite pl tag bs).1.mem.Canon := by
  unfold State.performWrite
  repeat' split
  all_goals simp [hm]

/-! ### Requests to other packages -/

@[simp] theorem sendSeq_mem (s : State) (dst vi cls : Nat) (body : Payload) : (s.sendSeq dst vi cls body).mem = s.mem := by
  unfold State.sendSeq
  grind [State.setPeer_mem]

@[simp] theorem exportGet_mem (s : State) (rvi off n : Nat) : (s.exportGet rvi off n).1.mem = s.mem := by
  unfold State.exportGet
  split <;> simp

@[simp] theorem exportWrite_canon {s : State} (hm : s.mem.Canon) (rvi off : Nat) (bs : List Byte) :
    (s.exportWrite rvi off bs).1.mem.Canon := by
  unfold State.exportWrite
  split <;> simp [hm]

@[simp] theorem homeAtomic_canon {s : State} (hm : s.mem.Canon) (vi pa type : Nat) (tag : BitVec 20) (op : AOp) (n v c : Nat) :
    (s.homeAtomic vi pa type tag op n v c).1.mem.Canon := by
  unfold State.homeAtomic
  grind [homeWrite_canon]

@[simp] theorem exportAtomic_canon {s : State} (hm : s.mem.Canon) (rvi off n : Nat) (op : AOp) (v c : Nat) :
    (s.exportAtomic rvi off n op v c).1.mem.Canon := by
  unfold State.exportAtomic
  split <;> simp [hm]

@[simp] theorem ownServe_canon {s : State} (hm : s.mem.Canon) (rvi : Nat) (body : Payload) :
    (s.ownServe rvi body).1.mem.Canon := by
  unfold State.ownServe
  grind [exportAtomic_canon, exportGet_mem, exportWrite_canon]

@[simp] theorem issue_mem (s : State) (dst vi cls : Nat) (o : Owner) (va : Word) (pa n : Nat) (body : Payload) :
    (s.issue dst vi cls o va pa n body).mem = s.mem := by
  unfold State.issue
  grind [State.setPeer_mem, sendSeq_mem]

@[simp] theorem requestAt_canon {s : State} (hm : s.mem.Canon) (va : Word) (dst cls : Nat) (e : Eng) (seq : Nat)
    (body : Payload) :
    (s.requestAt va dst cls e seq body).Canon := by
  unfold State.requestAt
  grind [Sent.Canon, issue_mem, ownServe_canon]

@[simp] theorem request_canon {s : State} (hm : s.mem.Canon) (dst cls : Nat) (e : Eng) (seq : Nat) (body : Payload) :
    (s.request dst cls e seq body).Canon :=
  requestAt_canon hm ..

@[simp] theorem forget_mem (s : State) (p : Owner → Bool) : (s.forget p).mem = s.mem := rfl

@[simp] theorem fetch_mem (s : State) (vi : Nat) (o : Owner) (l : List Nat) : (s.fetch vi o l).1.mem = s.mem := by
  fun_induction State.fetch <;> grind [issue_mem]

/-! ### Entries of the queues -/

@[simp] theorem passGates_mem (s : State) : s.passGates.mem = s.mem := by
  unfold State.passGates
  grind [State.updSt_mem]

@[simp] theorem updHead_mem (s : State) (e : Eng) (f : Entry → Entry) : (s.updHead e f).mem = s.mem := rfl

@[simp] theorem performed_mem (s : State) (e : Eng) : (s.performed e).mem = s.mem := rfl

@[simp] theorem beginEntry_mem (s : State) (e : Eng) : (s.beginEntry e).mem = s.mem := by
  unfold State.beginEntry
  grind [State.updSt_mem, passGates_mem]

@[simp] theorem completeEntry_mem (s : State) (e : Eng) : (s.completeEntry e).mem = s.mem := by
  unfold State.completeEntry
  grind [State.updSt_mem]

@[simp] theorem faultEntry_mem (s : State) (e : Eng) (h : Entry) (c : Cause) (va : Word) (write : Bool)
    (tag : Option (BitVec 20)) :
    (s.faultEntry e h c va write tag).mem = s.mem := by
  unfold State.faultEntry
  split <;> simp

@[simp] theorem refused_mem (s : State) (c : Cause) (e : Eng) (h : Entry) (va : Word) (tag : BitVec 20) :
    (s.refused c e h va tag).mem = s.mem :=
  rfl

@[simp] theorem onPeer_canon {s : State} (hm : s.mem.Canon) (k : Nat) {f : State → State}
    (hf : ∀ t, t.mem.Canon → (f t).mem.Canon) :
    (s.onPeer k f).mem.Canon := by
  unfold State.onPeer
  split
  · exact hf _ hm
  · exact hm

theorem onPeer_mem (s : State) (k : Nat) {f : State → State} (hf : ∀ t, (f t).mem = t.mem) : (s.onPeer k f).mem = s.mem := by
  unfold State.onPeer
  split
  · exact hf _
  · rfl

@[simp] theorem onCluster_canon {s : State} (hm : s.mem.Canon) (a b : Nat) {f : State → State}
    (hf : ∀ t, t.mem.Canon → (f t).mem.Canon) :
    (s.onCluster a b f).mem.Canon := by
  unfold State.onCluster
  grind [onPeer_canon]

@[simp] theorem onStrand_canon {s : State} (hm : s.mem.Canon) (a b : Nat) {f : State → State}
    (hf : ∀ t, t.mem.Canon → (f t).mem.Canon) :
    (s.onStrand a b f).mem.Canon := by
  unfold State.onStrand
  grind [onPeer_canon]

theorem onStrand_mem (s : State) (a b : Nat) {f : State → State} (hf : ∀ t, (f t).mem = t.mem) :
    (s.onStrand a b f).mem = s.mem := by
  unfold State.onStrand
  grind [onPeer_mem]

@[simp] theorem mapClusters_mem (s : State) (f : Cluster → Cluster) : (s.mapClusters f).mem = s.mem := rfl

/-! ### Loads and stores -/

@[simp] theorem issueLoad_canon {s : State} (hm : s.mem.Canon) (d : Reg) (ea : Word) (sz : Size) (const : Bool) :
    outCanon (issueLoad d ea sz const s) :=
  accessing_canon hm fun _ _ hm => issueL_canon hm ..

@[simp] theorem issueStore_canon {s : State} (hm : s.mem.Canon) (ea : Word) (sz : Size) (v : Word) :
    outCanon (issueStore ea sz v s) :=
  accessing_canon hm fun _ _ hm => issueS_canon hm ..

@[simp] theorem issueStnt_canon {s : State} (hm : s.mem.Canon) (ea : Word) (sz : Size) (v : Word) :
    outCanon (issueStnt ea sz v s) := by
  unfold issueStnt
  grind [State.updSt_mem, accessing_canon, done_canon, issueS_canon, wait_canon]

@[simp] theorem writeRuns_canon {s : State} (hm : s.mem.Canon) (pa type : Nat) (rs : List (Nat × List Byte)) :
    (s.writeRuns pa type rs).mem.Canon :=
  foldl_canon (fun _ _ hm => homeWrite_canon hm ..) rs hm

@[simp] theorem dropNt_mem (s : State) (k : Nat) : (s.dropNt k).mem = s.mem := rfl

@[simp] theorem ntSend_canon {s : State} (hm : s.mem.Canon) (b : NtBuf) (rs : List (Nat × List Byte)) :
    (s.ntSend b rs).1.mem.Canon := by
  fun_induction State.ntSend <;> grind [Sent.Canon, State.updSt_mem, request_canon]

@[simp] theorem ntSent_mem (s : State) (k : Nat) (b : NtBuf) (left : List (Nat × List Byte)) :
    (s.ntSent k b left).mem = s.mem := by
  unfold State.ntSent
  split <;> rfl

@[simp] theorem ntWrite_canon {s : State} (hm : s.mem.Canon) (k : Nat) (b : NtBuf) : (s.ntWrite k b).mem.Canon := by
  unfold State.ntWrite
  grind [State.updSt_mem, dropNt_mem, homeWrite_canon, ntSend_canon, ntSent_mem, writeRuns_canon]

@[simp] theorem execNtBufferWrite_canon {s : State} (hm : s.mem.Canon) (b : Nat) : outCanon (execNtBufferWrite b s) := by
  unfold execNtBufferWrite
  grind [ntWrite_canon, outCanon]

@[simp] theorem issueZlrs_canon {s : State} (hm : s.mem.Canon) (l : BitVec 2) (ea : Word) : outCanon (issueZlrs l ea s) := by
  refine accessingAll_canon (fun _ t hm => ?_) 4 hm ..
  split
  · exact wait_canon hm
  · exact hm

@[simp] theorem execZlrs_canon {s : State} (hm : s.mem.Canon) (g : Guard) (l : BitVec 2) (a : Reg) :
    outCanon (execZlrs g l a s) := by
  refine guarded_canon hm <| reading_canon hm <| ?_
  grind [State.updCtl_mem, State.updSt_mem, done_canon, issueZlrs_canon, trap_canon, wait_canon]

@[simp] theorem access_canon {s : State} (hm : s.mem.Canon) (e : Eng) (h : Entry) (pl : Place) (n : Nat) (const : Bool)
    (tag : BitVec 20) (w : Option (List Byte)) :
    (s.access e h pl n const tag w).Canon := by
  unfold State.access
  grind [Acc.Canon, Sent.Canon, lockWindow_mem, performRead_canon, performWrite_canon, request_canon, updHead_mem]

@[simp] theorem noted_mem (s : State) (e : Eng) (h : Entry) (va : Word) (tag : BitVec 20) (r : Except Cause (List Byte)) :
    (s.noted e h va tag r).mem = s.mem := by
  unfold State.noted
  split <;> rfl

@[simp] theorem advance_mem (s : State) (e : Eng) (total : Nat) : (s.advance e total).mem = s.mem := rfl

@[simp] theorem accDone_canon {s : State} (hm : s.mem.Canon) (e : Eng) (h : Entry) (r : Except Cause (List Byte)) :
    (s.accDone e h r).mem.Canon := by
  unfold State.accDone
  repeat' split
  all_goals simp [hm]

@[simp] theorem accessStep_canon {s : State} (hm : s.mem.Canon) (e : Eng) (h : Entry) (pl : Place) (n : Nat) (const : Bool)
    (tag : BitVec 20) (w : Option (List Byte)) :
    (s.accessStep e h pl n const tag w).mem.Canon := by
  unfold State.accessStep
  grind [Acc.Canon, accDone_canon, access_canon]

@[simp] theorem execLoadPerformed_canon {s : State} (hm : s.mem.Canon) : outCanon (execLoadPerformed s) := by
  unfold execLoadPerformed
  repeat' split
  all_goals simp [hm]

@[simp] theorem qldElement_canon {s : State} (hm : s.mem.Canon) (h : Entry) (q : BitVec 2) (n : Nat) (va : Word) :
    (s.qldElement h q n va).mem.Canon := by
  unfold State.qldElement
  grind [State.updSt_mem, accessStep_canon, faultEntry_mem, lookup_canon]

@[simp] theorem qstElement_canon {s : State} (hm : s.mem.Canon) (h : Entry) (q : BitVec 2) (n : Nat) (va : Word) :
    (s.qstElement h q n va).mem.Canon := by
  unfold State.qstElement
  grind [Acc.Canon, State.updSt_mem, accDone_canon, access_canon, faultEntry_mem, lookup_canon]

@[simp] theorem execStreamElement_canon {s : State} (hm : s.mem.Canon) (store : Bool) :
    outCanon (execStreamElement store s) := by
  unfold execStreamElement
  grind [outCanon, performed_mem, qldElement_canon, qstElement_canon]

/-! ### Atomics, slots and barriers -/

@[simp] theorem issueSGated_canon {s : State} (hm : s.mem.Canon) (cmd : Cmd) (d : Reg) (gates : Nat → List Gate) :
    outCanon (issueSGated cmd d gates s) := by
  unfold issueSGated
  grind [State.updSt_mem, done_canon, wait_canon]

@[simp] theorem issueAtomic_canon {s : State} (hm : s.mem.Canon) (op : AOp) (o : AtomOps) : outCanon (issueAtomic op o s) := by
  unfold issueAtomic
  generalize (if o.d64 then 8 else 4 : Nat) = n
  dsimp only
  split
  · exact trapAt_canon hm ..
  · split
    · exact trapAt_canon hm ..
    · split
      · exact trapAt_canon hm ..
      · refine located_canon hm fun _ t ht => issueSGated_canon ?_ ..
        exact ht

@[simp] theorem atomic_canon {s : State} (hm : s.mem.Canon) (op : AOp) (g : PGuard) (o : AtomOps) :
    outCanon (atomic op g o s) :=
  pguarded_canon hm <| replayed_canon hm <| reading_canon hm <| issueAtomic_canon hm ..

@[simp] theorem atomicStep_canon {s : State} (hm : s.mem.Canon) (h : Entry) (op : AOp) (pa type n v c : Nat) :
    (s.atomicStep h op pa type n v c).mem.Canon := by
  unfold State.atomicStep
  grind [Sent.Canon, accDone_canon, homeAtomic_canon, l1Evict_canon, request_canon, updHead_mem]

@[simp] theorem execAtomicExecute_canon {s : State} (hm : s.mem.Canon) : outCanon (execAtomicExecute s) := by
  unfold execAtomicExecute
  repeat' split
  all_goals simp [hm]

@[simp] theorem dropSync_mem (s : State) (die k : Nat) : (s.dropSync die k).mem = s.mem := rfl

@[simp] theorem setPhases_mem (s : State) (node n : Nat) (mask : Nat) (phase : BitVec 8) (rounds : Nat) (js : List Nat) :
    (s.setPhases node n mask phase rounds js).mem = s.mem := by
  fun_induction State.setPhases <;> grind [State.setSlot_mem, dropSync_mem]

@[simp] theorem completeSlot_mem (s : State) (node idx n : Nat) : (s.completeSlot node idx n).mem = s.mem := by
  unfold State.completeSlot
  grind [State.setSlot_mem, setPhases_mem]

@[simp] theorem addSlot_mem (s : State) (node idx n amount : Nat) : (s.addSlot node idx n amount).mem = s.mem := by
  unfold State.addSlot
  split <;> simp

@[simp] theorem slotArgs_canon {s : State} (hm : s.mem.Canon) {okBits okTarget : Bool} {k : State → Out} (hk : outCanon (k s)) :
    outCanon (slotArgs okBits okTarget s k) := by
  unfold slotArgs
  split
  · exact trap_canon hm _
  · split
    · exact trap_canon hm _
    · exact hk

@[simp] theorem execWait_canon {s : State} (hm : s.mem.Canon) (g : Guard) (a : Reg) (slot : BitVec 10) (sc : Scope) :
    outCanon (execWait g a slot sc s) := by
  refine guarded_canon hm <| reading_canon hm <| ?_
  grind [acquired_mem, done_canon, slotArgs_canon, wait_canon]

@[simp] theorem execBarw_canon {s : State} (hm : s.mem.Canon) (g : Guard) (a : Reg) (slot : BitVec 10) (sc : Scope) :
    outCanon (execBarw g a slot sc s) := by
  refine guarded_canon hm <| reading_canon hm <| ?_
  grind [acquired_mem, done_canon, slotArgs_canon, wait_canon]

@[simp] theorem execSlotUpdate_canon {s : State} (hm : s.mem.Canon) : outCanon (execSlotUpdate s) := by
  unfold execSlotUpdate
  grind -ring -linarith -lia [Sent.Canon, State.setSlot_mem, State.updSt_mem, accDone_canon, addSlot_mem, completeSlot_mem,
    outCanon, performed_mem, request_canon, setPhases_mem, updHead_mem]

@[simp] theorem issueMarker_canon {s : State} (hm : s.mem.Canon) (qs : List Eng) (gates : Nat → List Gate) :
    outCanon (issueMarker qs gates s) := by
  unfold issueMarker
  grind [State.updSt_mem, done_canon, wait_canon]

/-! ### Tags -/

@[simp] theorem execTset_canon {s : State} (hm : s.mem.Canon) (g : Guard) (a : Reg) : outCanon (execTset g a s) := by
  refine guarded_canon hm <| reading_canon hm <| ?_
  grind [State.updCtl_mem, done_canon, trap_canon]

@[simp] theorem execLdx_canon {s : State} (hm : s.mem.Canon) (g : Guard) (d a b : Reg) (sz : Size) :
    outCanon (execLdx g d a b sz s) := by
  refine guarded_canon hm <| reading_canon hm ?_
  split
  · exact trap_canon hm _
  · exact accessing_canon hm fun _ _ hm => issueL_canon hm ..

@[simp] theorem execTretire_canon {s : State} (hm : s.mem.Canon) (g : Guard) (a : Reg) : outCanon (execTretire g a s) := by
  refine guarded_canon hm <| replayed_canon hm <| reading_canon hm ?_
  dsimp only
  split
  · exact trap_canon hm _
  · exact issueSGated_canon hm ..

@[simp] theorem execTstat_canon {s : State} (hm : s.mem.Canon) (g : Guard) (d a : Reg) : outCanon (execTstat g d a s) := by
  refine guarded_canon hm <| replayed_canon hm <| reading_canon hm ?_
  split
  · exact issueS_canon hm ..
  · exact trap_canon hm _

@[simp] theorem tallocArrive_mem (s : State) : s.tallocArrive.mem = s.mem := by
  unfold State.tallocArrive
  repeat' split
  all_goals simp

@[simp] theorem tallocBind_mem (s : State) (v : Word) : (s.tallocBind v).mem = s.mem := by
  unfold State.tallocBind
  grind [State.updSt_mem, performed_mem]

@[simp] theorem tallocServe_mem (s : State) (die : Nat) : (s.tallocServe die).mem = s.mem := by
  unfold State.tallocServe
  grind [State.setTag_mem, onStrand_mem, tallocBind_mem]

@[simp] theorem execTallocServe_canon {s : State} (hm : s.mem.Canon) : outCanon (execTallocServe s) := by
  unfold execTallocServe
  grind [outCanon, tallocArrive_mem, tallocServe_mem]

@[simp] theorem execTagWaitTimeout_canon {s : State} (hm : s.mem.Canon) : outCanon (execTagWaitTimeout s) := by
  unfold execTagWaitTimeout
  repeat' split
  all_goals simp [hm]

@[simp] theorem execCellFullTimeout_canon {s : State} (hm : s.mem.Canon) : outCanon (execCellFullTimeout s) := by
  unfold execCellFullTimeout
  grind [State.updSt_mem, accDone_canon, outCanon]

@[simp] theorem addRetire_mem (s : State) (r : Retire) : (s.addRetire r).mem = s.mem := rfl

@[simp] theorem execRetireStart_canon {s : State} (hm : s.mem.Canon) : outCanon (execRetireStart s) := by
  unfold execRetireStart
  grind [State.setTag_mem, State.updSt_mem, addRetire_mem, outCanon, performed_mem, updHead_mem]

@[simp] theorem freeCells_mem (s : State) (id die : Nat) : (s.freeCells id die).mem = s.mem := rfl

@[simp] theorem execRetireNotice_canon {s : State} (hm : s.mem.Canon) (k die : Nat) : outCanon (execRetireNotice k die s) := by
  unfold execRetireNotice
  grind [freeCells_mem, outCanon]

@[simp] theorem execRetireComplete_canon {s : State} (hm : s.mem.Canon) (k : Nat) : outCanon (execRetireComplete k s) := by
  unfold execRetireComplete
  split
  · split
    · dsimp only
      split
      · refine onStrand_canon ?_ _ _ fun t ht => ?_
        · exact hm
        · split <;> exact ht
      · exact hm
    · exact hm
  · exact hm

/-! ### Copies and kernel publication -/

@[simp] theorem issueCopy_canon {s : State} (hm : s.mem.Canon) (op : KOp) (g : Guard) (o : CopyOps) :
    outCanon (issueCopy op g o s) :=
  guarded_canon hm <| reading_canon hm <| issueK_canon hm ..

@[simp] theorem execKpub_canon {s : State} (hm : s.mem.Canon) (g : Guard) (a t : Reg) : outCanon (execKpub g a t s) := by
  refine guarded_canon hm <| reading_canon hm <| ?_
  grind [State.updSt_mem, issueK_canon, loggedOr_canon, wait_canon]

@[simp] theorem execKwait_canon {s : State} (hm : s.mem.Canon) (g : Guard) (d a : Reg) : outCanon (execKwait g d a s) := by
  refine guarded_canon hm <| reading_canon hm <| ?_
  grind [State.updCtl_mem, State.writeG_mem, done_canon, wait_canon]

@[simp] theorem mapAll_canon {s : State} (hm : s.mem.Canon) (l : List Gran) (write : Bool) (tag : Option (BitVec 20))
    (acc : List Mapped) :
    (s.mapAll l write tag acc).1.mem.Canon := by
  fun_induction State.mapAll <;> grind [lookup_canon]

@[simp] theorem putBytes_mem (s : State) (m : List Mapped) (tag : BitVec 20) (va : Word) (bs : List Byte)
    (acc : List ShadowByte) :
    (s.putBytes m tag va bs acc).1.mem = s.mem := by
  fun_induction State.putBytes <;> grind -ring -linarith -lia [State.updSt_mem]

/-- What a copy writes at once, stretch after stretch. -/
theorem putAll_mem (dst : List Mapped) (tag : BitVec 20) (l : List (Word × List Byte)) (p : State × List ShadowByte) :
    (l.foldl (fun p x => p.1.putBytes dst tag x.1 x.2 p.2) p).1.mem = p.1.mem :=
  List.foldlRecOn (motive := fun q : State × List ShadowByte => q.1.mem = p.1.mem) l _ rfl
    fun _ hq _ _ => (putBytes_mem ..).trans hq

@[simp] theorem flipRuns_canon {s : State} (hm : s.mem.Canon) (x : Nat × List ShadowByte) : (s.flipRuns x).mem.Canon := by
  refine foldl_canon (fun t r ht => ?_) _ hm
  grind [cellWrite_mem, baseWrite_canon]

@[simp] theorem flipLine_canon {s : State} (hm : s.mem.Canon) (x : Nat × List ShadowByte) : (s.flipLine x).1.mem.Canon := by
  unfold State.flipLine
  grind [flipRuns_canon]

@[simp] theorem flipLines_canon {s : State} (hm : s.mem.Canon) (l : List (Nat × List ShadowByte)) (st : Nat) :
    (s.flipLines l st).1.mem.Canon := by
  fun_induction State.flipLines <;> grind [flipLine_canon]

@[simp] theorem flipPub_canon {s : State} (hm : s.mem.Canon) (l : List ShadowByte) : (s.flipPub l).1.mem.Canon := by
  unfold State.flipPub
  grind [flipLines_canon]

@[simp] theorem l1CopyDrop_canon {s : State} (hm : s.mem.Canon) (x : Nat × List ShadowByte) : (s.l1CopyDrop x).mem.Canon := by
  have hkeep : ∀ (l : List Nat) (a : Nat → Nat) (f : Nat → List Byte),
      (l.foldl (fun s o => s.baseWrite (a o) (f o)) s).mem.Canon :=
    fun l a f => foldl_canon (fun _ _ hm => baseWrite_canon hm ..) l hm
  unfold State.l1CopyDrop
  split
  · dsimp only
    split
    · exact hkeep ..
    · exact hm
  · exact hm

/-- Lines that a copy has written leave the L1. -/
@[simp] theorem l1CopyDrops_canon {s : State} (hm : s.mem.Canon) (l : List (Nat × List ShadowByte)) :
    (l.foldl State.l1CopyDrop s).mem.Canon :=
  foldl_canon (fun _ x ht => l1CopyDrop_canon ht x) l hm

@[simp] theorem copyFail_mem (s : State) (h : Entry) (code : Nat) : (s.copyFail h code).mem = s.mem := rfl

theorem countWriters_mem (s : State) (regions : List Nat) (up : Bool) : (s.countWriters regions up).mem = s.mem :=
  foldl_mem (fun _ _ => selUse_mem ..) regions _

@[simp] theorem l1Clean_canon {s : State} (hm : s.mem.Canon) (line : Nat) : (s.l1Clean line).mem.Canon := by
  unfold State.l1Clean
  grind [l1Flush_canon]

/-- Lines that a copy will read go home. -/
@[simp] theorem l1Cleans_canon {s : State} (hm : s.mem.Canon) (l : List (Nat × Nat)) :
    (l.foldl (fun s x => s.l1Clean (x.1 / 64)) s).mem.Canon :=
  foldl_canon (fun _ _ ht => l1Clean_canon ht _) l hm

@[simp] theorem copyRunStart_mem (s5 : State) (h : Entry) (pat : Word) (moves : List Move) (src dst : List Mapped)
    (st dt : BitVec 20) :
    (s5.copyRunStart h pat moves src dst st dt).mem = s5.mem := by
  have ht := homeTouches_mem st
  have hp := putAll_mem dst dt
  unfold State.copyRunStart
  grind [State.updSt_mem, copyFail_mem, countWriters_mem, l2Yield_mem, updHead_mem]

@[simp] theorem copyReserve_canon {s : State} (hm : s.mem.Canon) (h : Entry) (pat : Word) (moves : List Move)
    (src dst : List Mapped) (st dt : BitVec 20) (lock : List Nat) :
    (s.copyReserve h pat moves src dst st dt lock).mem.Canon := by
  unfold State.copyReserve
  grind [l1Cleans_canon, copyFail_mem, copyRunStart_mem, fetch_mem, lockWindow_mem]

@[simp] theorem readList_canon {s : State} (hm : s.mem.Canon) (o : Owner) (h : Entry) (op : KOp) (gd ga gb : Word) :
    (s.readList o h op gd ga gb).Canon := by
  have ht := homeTouches_mem h.tag
  unfold State.readList
  grind [ListGot.Canon, fetch_mem, mapAll_canon]

@[simp] theorem copyCheck_canon {s : State} (hm : s.mem.Canon) (h : Entry) (op : KOp) (x : Bool) (pat : Word)
    (moves : List Move) (tags : Word) (lock : List Nat) :
    (s.copyCheck h op x pat moves tags lock).mem.Canon := by
  unfold State.copyCheck
  grind [State.updSt_mem, copyReserve_canon, faultEntry_mem, mapAll_canon]

@[simp] theorem copySubmit_canon {s : State} (hm : s.mem.Canon) (h : Entry) (op : KOp) (x : Bool) (gd ga gb gb1 tags : Word) :
    (s.copySubmit h op x gd ga gb gb1 tags).mem.Canon := by
  unfold State.copySubmit
  grind [ListGot.Canon, State.updSt_mem, copyCheck_canon, copyFail_mem, faultEntry_mem, readList_canon]

@[simp] theorem copyAborted_mem (s : State) (h : Entry) : (s.copyAborted h).mem = s.mem := rfl

@[simp] theorem copyLoaded_mem (s : State) (h : Entry) : (s.copyLoaded h).mem = s.mem := by
  unfold State.copyLoaded
  split <;> rfl

@[simp] theorem execCopySubmit_canon {s : State} (hm : s.mem.Canon) : outCanon (execCopySubmit s) := by
  unfold execCopySubmit
  repeat' split
  all_goals simp [hm]

@[simp] theorem sendRuns_canon {s : State} (hm : s.mem.Canon) (seq : Nat) (l : List (Nat × List Byte)) (st : Nat) :
    (s.sendRuns seq l st).1.mem.Canon := by
  fun_induction State.sendRuns <;> grind [Sent.Canon, request_canon]

@[simp] theorem copyRelease_mem (s : State) (q : CopyRun) (die : Nat) : (s.copyRelease q die).mem = s.mem := countWriters_mem ..

@[simp] theorem copyEnd_canon {s : State} (hm : s.mem.Canon) (h : Entry) (q : CopyRun) (code : Nat) :
    (s.copyEnd h q code).mem.Canon := by
  unfold State.copyEnd
  split <;> simp [hm]

@[simp] theorem flipSome_canon {s : State} (hm : s.mem.Canon) (q : CopyRun) (seq : Nat) (homes : List Nat) (st : Nat) :
    (s.flipSome q seq homes st).1.mem.Canon := by
  unfold State.flipSome
  grind [flipLines_canon, sendRuns_canon]

@[simp] theorem setRunBytes_mem (s : State) (key : Nat) (bytes : List ShadowByte) : (s.setRunBytes key bytes).mem = s.mem := rfl

@[simp] theorem orphanFlip_canon {s : State} (hm : s.mem.Canon) (q : CopyRun) (homes : List Nat) :
    (s.orphanFlip q homes).mem.Canon := by
  unfold State.orphanFlip
  grind [l1CopyDrops_canon, copyRelease_mem, flipPub_canon, flipSome_canon, setRunBytes_mem]

@[simp] theorem execCopyComplete_canon {s : State} (hm : s.mem.Canon) (homes : List Nat) :
    outCanon (execCopyComplete homes s) := by
  unfold execCopyComplete
  grind -ring -linarith -lia [copyEnd_canon, flipPub_canon, flipSome_canon, orphanFlip_canon, outCanon, setRunBytes_mem,
    updHead_mem]

@[simp] theorem kpubArrive_mem (s : State) (p : Pub) : (s.kpubArrive p).mem = s.mem := rfl

@[simp] theorem kpubWait_canon {s : State} (hm : s.mem.Canon) (h : Entry) (base : Nat) : (s.kpubWait h base).mem.Canon := by
  unfold State.kpubWait
  grind [State.updSt_mem, performed_mem, publish_canon]

@[simp] theorem execKpubFlip_canon {s : State} (hm : s.mem.Canon) : outCanon (execKpubFlip s) := by
  unfold execKpubFlip
  split
  · next h _ =>
    cases h.cmd with
    | kpub ea =>
      grind [State.updSt_mem, faultEntry_mem, copyAborted_mem, kpubArrive_mem, kpubWait_canon, lookup_canon, outCanon,
        updHead_mem]
    | kpubLogged => rw [outCanon, performed_mem]; exact hm
    | _ => exact hm
  · exact hm

end Sys2Proof.Machine
end

section
/-!
SUPPORT. Canonical form through the words of execution and the engines: traps, collectives, Uslyn-V and Uslyn-M (`f_mem`,
`f_canon`).
-/

set_option Elab.async false

namespace Sys2Proof.Machine

/-! ### Traps, yields and control registers -/

@[simp] theorem execFork_canon {s : State} (hm : s.mem.Canon) (g : Guard) (m : Bool) (blk : BitVec 20) :
    outCanon (execFork g m blk s) := by
  unfold execFork
  grind [State.updSt_mem, done_canon, guarded_canon, trap_canon, wait_canon]

@[simp] theorem commitIdle_mem (s : State) : s.commitIdle.mem = s.mem := rfl

@[simp] theorem execRdv_canon {s : State} (hm : s.mem.Canon) (g : Guard) (em : EMask) : outCanon (execRdv g em s) := by
  refine guarded_canon hm <| ?_
  repeat' split
  all_goals simp [hm]

@[simp] theorem execTkset_canon {s : State} (hm : s.mem.Canon) (g : Guard) (x : Reg) (n : BitVec 4) :
    outCanon (execTkset g x n s) := by
  refine guarded_canon hm <| reading_canon hm <| ?_
  grind [State.updCtl_mem, done_canon, trapInfo_canon]

@[simp] theorem strandEnds_canon {s : State} (hm : s.mem.Canon) : s.strandEnds.mem.Canon := by
  unfold State.strandEnds
  grind [l1CleanAll_canon]

@[simp] theorem execStrandFinish_canon {s : State} (hm : s.mem.Canon) : outCanon (execStrandFinish s) := by
  unfold execStrandFinish
  grind -ring -linarith -lia [State.updSt_mem, deliver_canon, outCanon, strandEnds_canon]

@[simp] theorem execEngineEntryBegin_canon {s : State} (hm : s.mem.Canon) (e : Eng) : outCanon (execEngineEntryBegin e s) := by
  unfold execEngineEntryBegin
  repeat' split
  all_goals simp [hm]

@[simp] theorem raise_canon {s : State} (hm : s.mem.Canon) (c : Cause) (imm : BitVec 16) : outCanon (raise c imm s) := by
  unfold raise
  grind [trapInfo_canon, trap_canon]

@[simp] theorem returned_mem (s : State) : s.returned.mem = s.mem := by
  rw [State.returned, State.updSt_mem, retireTo_mem, State.updCtl_mem]

@[simp] theorem execEret_canon {s : State} (hm : s.mem.Canon) (g : Guard) : outCanon (execEret g s) := by
  refine guarded_canon hm <| ?_
  grind [outCanon, returned_mem, trap_canon]

@[simp] theorem execSwpt_canon {s : State} (hm : s.mem.Canon) (g : Guard) (k : BitVec 6) : outCanon (execSwpt g k s) := by
  refine guarded_canon hm <| ?_
  grind [jump_mem, outCanon, trap_canon]

@[simp] theorem execPwrq_canon {s : State} (hm : s.mem.Canon) (g : Guard) (x : Reg) (k : BitVec 6) :
    outCanon (execPwrq g x k s) := by
  refine guarded_canon hm <| ?_
  grind [State.writeG_mem, done_canon, trap_canon]

@[simp] theorem execPwreq_canon {s : State} (hm : s.mem.Canon) (g : Guard) (x : Reg) (k : BitVec 6) :
    outCanon (execPwreq g x k s) := by
  refine guarded_canon hm <| replayed_canon hm <| ?_
  grind [State.updCtl_mem, State.updSt_mem, State.writeG_mem, done_canon, trap_canon]

@[simp] theorem setCsr_mem (s : State) (n : Nat) (v : Word) : (s.setCsr n v).mem = s.mem := by
  unfold State.setCsr
  split <;> rfl

@[simp] theorem onCsr_canon {s : State} (hm : s.mem.Canon) {n : BitVec 16} {k : Word → State → Out}
    (hk : ∀ v, outCanon (k v s)) :
    outCanon (onCsr n s k) := by
  unfold onCsr
  split
  · exact trap_canon hm _
  · split
    · exact trap_canon hm _
    · exact hk _

@[simp] theorem writeCsr_canon {s : State} (hm : s.mem.Canon) (n : BitVec 16) (old v : Word) :
    outCanon (writeCsr n old v s) := by
  unfold writeCsr
  repeat' split
  all_goals simp [hm]

/-! ### The front end -/

@[simp] theorem pageOf_canon {s : State} (hm : s.mem.Canon) (vi va : Nat) (write : Bool) :
    (s.pageOf vi va write).1.mem.Canon := by
  unfold State.pageOf
  grind [touchLeaf_canon, walkBy_mem]

@[simp] theorem feRead_canon {s : State} (hm : s.mem.Canon) (vi va n fuel : Nat) (acc : List Byte) :
    (s.feRead vi va n fuel acc).1.mem.Canon := by
  fun_induction State.feRead <;> grind -ring -linarith -lia [homeGet_mem, pageOf_canon]

@[simp] theorem feBytes_canon {s : State} (hm : s.mem.Canon) (vi va n : Nat) : (s.feBytes vi va n).1.mem.Canon :=
  feRead_canon hm ..

@[simp] theorem feWrite_canon {s : State} (hm : s.mem.Canon) (vi va : Nat) (bs : List Byte) (fuel : Nat) :
    (s.feWrite vi va bs fuel).1.mem.Canon := by
  fun_induction State.feWrite <;> grind -ring -linarith -lia [homeWrite_canon, pageOf_canon]

@[simp] theorem fePut_canon {s : State} (hm : s.mem.Canon) (vi va : Nat) (bs : List Byte) : (s.fePut vi va bs).1.mem.Canon :=
  feWrite_canon hm ..

@[simp] theorem notify_canon {s : State} (hm : s.mem.Canon) (vi k : Nat) : (s.notify vi k).mem.Canon := by
  unfold State.notify
  grind [hostPut_canon]

@[simp] theorem report_canon {s : State} (hm : s.mem.Canon) (time vi kind status strand cookie node gidx : Nat)
    (trp : List Word) (vector : Nat) :
    (s.report time vi kind status strand cookie node gidx trp vector).mem.Canon := by
  unfold State.report
  grind [State.setVi_mem, hostPut_canon, notify_canon]

@[simp] theorem winFault_mem (s : State) (vi : Nat) : (s.winFault vi).mem = s.mem := rfl

@[simp] theorem ringPut_canon {s : State} (hm : s.mem.Canon) (a : Nat) (bs : List Byte) : (s.ringPut a bs).mem.Canon := by
  unfold State.ringPut
  grind [baseWrite_canon, hostPut_canon]

@[simp] theorem errPut_canon {s : State} (hm : s.mem.Canon) (bits : Nat) : (s.errPut bits).mem.Canon := by
  unfold State.errPut
  split <;> simp [hm]

@[simp] theorem updNode_mem (s : State) (slot : Nat) (f : Node → Node) : (s.updNode slot f).mem = s.mem := rfl

/-! ### Queues and collectives -/

theorem ring_mem (s : State) (c : Coll) : (s.ring c).mem = s.mem := foldl_mem (fun _ _ => sendSeq_mem ..) c.others s

@[simp] theorem collStop_mem (s : State) (c : Coll) (st : CollSt) (code : Nat) : (s.collStop c st code).mem = s.mem := rfl

@[simp] theorem collFail_mem (s : State) (c : Coll) (code : Nat) : (s.collFail c code).mem = s.mem := ring_mem ..

@[simp] theorem gongArrives_mem (s : State) (vi id att : Nat) : (s.gongArrives vi id att).mem = s.mem := by
  unfold State.gongArrives
  repeat' split
  all_goals simp

@[simp] theorem collsEnd_mem (s : State) (node : Nat) : (s.collsEnd node).mem = s.mem := by
  unfold State.collsEnd
  exact foldl_mem (fun t c => by split <;> grind [collStop_mem, ring_mem]) _ s

@[simp] theorem onHandle_canon {s : State} (hm : s.mem.Canon) {a : Reg} {k : State → Out} (hk : outCanon (k s)) :
    outCanon (onHandle a s k) := by
  unfold onHandle
  split
  · exact hk
  · exact trap_canon hm _

@[simp] theorem execQwait_canon {s : State} (hm : s.mem.Canon) (g : Guard) (d a b : Reg) : outCanon (execQwait g d a b s) := by
  refine guarded_canon hm <| reading_canon hm <| onHandle_canon hm <| ?_
  split <;> simp [hm]

@[simp] theorem bindResult_mem (s : State) (h : Entry) (d : Reg) (v : Word) : (s.bindResult h d v).mem = s.mem := rfl

@[simp] theorem collFault_mem (s : State) (h : Entry) (d : Reg) (v : Word) (c : Cause) (va : Word) (write : Bool) :
    (s.collFault h d v c va write).mem = s.mem := by
  unfold State.collFault
  split <;> simp

@[simp] theorem qarmStep_canon {s : State} (hm : s.mem.Canon) (h : Entry) (d : Reg) (addr : Word) :
    (s.qarmStep h d addr).mem.Canon := by
  fun_cases State.qarmStep <;> grind -ring -linarith -lia [State.updSt_mem, bindResult_mem, collFault_mem, lookup_canon,
    refused_mem]

@[simp] theorem postMaps_canon {s : State} (hm : s.mem.Canon) (d : Desc) (k : Nat) : (s.postMaps d k).1.mem.Canon := by
  unfold State.postMaps
  grind [mapAll_canon]

@[simp] theorem postRun_mem (s : State) (h : Entry) (d : Reg) (c : Coll) (k : Nat) (peers : List Nat) (pm : List Mapped)
    (m : Place × List Mapped × List Mapped) :
    (s.postRun h d c k peers pm m).mem = s.mem := by
  unfold State.postRun
  grind [State.setColl_mem, bindResult_mem]

@[simp] theorem readPeers_canon {s : State} (hm : s.mem.Canon) (d : Desc) : (s.readPeers d).Canon := by
  unfold State.readPeers
  grind [PeersGot.Canon, fetch_mem, mapAll_canon]

@[simp] theorem qpostStep_canon {s : State} (hm : s.mem.Canon) (h : Entry) (d : Reg) (handle first : Word) :
    (s.qpostStep h d handle first).mem.Canon := by
  unfold State.qpostStep
  grind -ring -linarith -lia [PeersGot.Canon, State.updSt_mem, bindResult_mem, collFault_mem, postMaps_canon, postRun_mem,
    readPeers_canon, refused_mem]

@[simp] theorem qabortStep_canon {s : State} (hm : s.mem.Canon) (h : Entry) (d : Reg) (handle : Word) :
    (s.qabortStep h d handle).mem.Canon := by
  unfold State.qabortStep
  grind -ring -linarith -lia [State.setColl_mem, bindResult_mem, collStop_mem, ring_mem, updHead_mem]

@[simp] theorem qstatStep_canon {s : State} (hm : s.mem.Canon) (h : Entry) (d : Reg) (handle : Word) :
    (s.qstatStep h d handle).mem.Canon := by
  unfold State.qstatStep
  grind [bindResult_mem]

@[simp] theorem asOwner_mem (s : State) (c : Coll) : (s.asOwner c).mem = s.mem := rfl

@[simp] theorem onOwner_mem (s : State) (c : Coll) (f : Strand → Strand) : (s.onOwner c f).mem = s.mem := rfl

@[simp] theorem bucketStart_mem (s : State) (c : Coll) (b : Nat) : (s.bucketStart c b).mem = s.mem := by
  have ht := homeTouches_mem 0
  unfold State.bucketStart
  grind [State.setColl_mem, collFail_mem, fetch_mem, forget_mem]

@[simp] theorem execBucketStart_canon {s : State} (hm : s.mem.Canon) (die slot : Nat) :
    outCanon (execBucketStart die slot s) := by
  unfold execBucketStart
  grind [bucketStart_mem, outCanon]

@[simp] theorem sendChunk_canon {s : State} (hm : s.mem.Canon) (c : Coll) (q : Bucket) (x : Send) :
    (s.sendChunk c q x).mem.Canon := by
  unfold State.sendChunk
  grind [State.setColl_mem, sendSeq_mem]

@[simp] theorem execCollectiveStep_canon {s : State} (hm : s.mem.Canon) (die slot bucket : Nat) :
    outCanon (execCollectiveStep die slot bucket s) := by
  unfold execCollectiveStep
  repeat' split
  all_goals simp [hm]

@[simp] theorem execCollectiveCredit_canon {s : State} (hm : s.mem.Canon) (die slot bucket step : Nat) :
    outCanon (execCollectiveCredit die slot bucket step s) := by
  unfold execCollectiveCredit
  repeat' split
  all_goals simp [hm]

@[simp] theorem bucketShadow_canon {s : State} (hm : s.mem.Canon) (c : Coll) (q : Bucket) : (s.bucketShadow c q).mem.Canon := by
  unfold State.bucketShadow
  grind [State.setColl_mem, collFail_mem, fetch_mem, forget_mem, l2Yield_mem, onOwner_mem]

@[simp] theorem collSend_canon {s : State} (hm : s.mem.Canon) (c : Coll) (l : List (Nat × List Byte)) :
    (s.collSend c l).1.mem.Canon := by
  fun_induction State.collSend <;> grind [exportWrite_canon, issue_mem]

@[simp] theorem bucketEnd_canon {s : State} (hm : s.mem.Canon) (c : Coll) (q : Bucket) : (s.bucketEnd c q).mem.Canon := by
  unfold State.bucketEnd
  grind [State.setColl_mem]

@[simp] theorem bucketLast_canon {s : State} (hm : s.mem.Canon) (c : Coll) (q : Bucket) (bytes : List ShadowByte) :
    (s.bucketLast c q bytes).mem.Canon := by
  unfold State.bucketLast
  grind [bucketEnd_canon, collFail_mem, flipPub_canon]

@[simp] theorem bucketFlip_canon {s : State} (hm : s.mem.Canon) (c : Coll) (q : Bucket) (bytes : List ShadowByte)
    (homes : List Nat) :
    (s.bucketFlip c q bytes homes).mem.Canon := by
  unfold State.bucketFlip
  grind -ring -linarith -lia [bucketLast_canon, collFail_mem, collSend_canon, flipLines_canon]

@[simp] theorem execBucketComplete_canon {s : State} (hm : s.mem.Canon) (die slot : Nat) :
    outCanon (execBucketComplete die slot s) := by
  unfold execBucketComplete
  grind [bucketFlip_canon, bucketLast_canon, bucketShadow_canon, outCanon]

@[simp] theorem execCollectiveFail_canon {s : State} (hm : s.mem.Canon) (die slot code : Nat) :
    outCanon (execCollectiveFail die slot code s) := by
  unfold execCollectiveFail
  grind [collFail_mem, outCanon]

/-! ### Blocks of the engines -/

@[simp] theorem dry_mem (s : State) (m : Bool) : (s.dry m).mem = s.mem := rfl

@[simp] theorem repeatWord_canon {s : State} (hm : s.mem.Canon) (m : Bool) (reb : BitVec 4) (len : Nat) :
    outCanon (repeatWord m reb len s) := by
  unfold repeatWord
  repeat' split
  all_goals simp [hm]

theorem popWord_mem {s t : State} {m : Bool} {r : Run} {mask : Nat} (h : s.popWord m r mask = some t) : t.mem = s.mem := by
  unfold State.popWord at h
  grind [State.updSt_mem]

/-! ### Words of Uslyn-V -/

@[simp] theorem vWord_canon {s : State} (hm : s.mem.Canon) (f : VFields) (form : Bool → VForm) : outCanon (vWord f form s) := by
  unfold vWord
  grind [State.updSt_mem, dry_mem, outCanon, popWord_mem]

@[simp] theorem elementwise_canon {s : State} (hm : s.mem.Canon) (f : VFields)
    (fn : VIn → Nat → Nat → Nat → Nat → Sp Lane → Nat × Sp Lane) :
    outCanon (elementwise f fn s) :=
  vWord_canon hm ..

@[simp] theorem arith_canon {s : State} (hm : s.mem.Canon) (f : VFields) (rd : Rnd) (o : Ovf) (op : Val → Val → Val → Val) :
    outCanon (arith f rd o op s) :=
  elementwise_canon hm ..

@[simp] theorem funcWord_canon {s : State} (hm : s.mem.Canon) (f : VFields) (fn : Val → XVal) : outCanon (funcWord f fn s) :=
  elementwise_canon hm ..

@[simp] theorem bitwise_canon {s : State} (hm : s.mem.Canon) (f : VFields) (op : Nat → Nat → Nat) : outCanon (bitwise f op s) :=
  elementwise_canon hm ..

@[simp] theorem execVcmp_canon {s : State} (hm : s.mem.Canon) (f : VFields) : outCanon (execVcmp f s) := by
  unfold execVcmp
  exact vWord_canon hm ..

@[simp] theorem execVmop_canon {s : State} (hm : s.mem.Canon) (f : VFields) : outCanon (execVmop f s) := by
  unfold execVmop
  exact vWord_canon hm ..

@[simp] theorem execVbcast_canon {s : State} (hm : s.mem.Canon) (f : VFields) : outCanon (execVbcast f s) := by
  unfold execVbcast
  exact vWord_canon hm ..

@[simp] theorem execVperm_canon {s : State} (hm : s.mem.Canon) (f : VFields) : outCanon (execVperm f s) := by
  unfold execVperm
  exact vWord_canon hm ..

@[simp] theorem execVseed_canon {s : State} (hm : s.mem.Canon) (f : VFields) : outCanon (execVseed f s) := by
  unfold execVseed
  exact vWord_canon hm ..

/-! ### Words of Uslyn-M and rows through the access unit -/

@[simp] theorem updRun_mem (s : State) (f : Run → Run) : (s.updRun f).mem = s.mem := rfl

theorem mEncAt_mem (s : State) (r : Run) (va : Word) : (s.mEncAt r va).mem = s.mem := s.updSt_mem _

theorem mEnc_mem (s : State) (r : Run) : (s.mEnc r).mem = s.mem := s.updSt_mem _

@[simp] theorem usesCells_mem (s : State) (home : Nat) : (s.usesCells home).mem = s.mem := rfl

@[simp] theorem chanChunk_mem (s : State) (pl : Place) (n : Nat) (tag : BitVec 20) : (s.chanChunk pl n tag).1.mem = s.mem := by
  unfold State.chanChunk
  repeat' split
  all_goals simp

@[simp] theorem chanParts_mem (s : State) (r : Run) (m : List Mapped) (va : Word) (n fuel : Nat) (acc : List Byte) :
    (s.chanParts r m va n fuel acc).1.mem = s.mem := by
  fun_induction State.chanParts <;> grind -ring -linarith -lia [State.updSt_mem, chanChunk_mem]

@[simp] theorem chanFault_canon {s : State} (hm : s.mem.Canon) (r : Run) (c : Cause) (va : Word) (write : Bool) :
    (s.chanFault r c va write).Canon := by
  unfold State.chanFault
  grind [Got.Canon, State.updSt_mem, hold_mem]

@[simp] theorem readAt_canon {s : State} (hm : s.mem.Canon) (r : Run) (va : Word) (n align : Nat) :
    (s.readAt r va n align).Canon := by
  unfold State.readAt
  grind -ring -linarith -lia [Got.Canon, State.updSt_mem, chanFault_canon, chanParts_mem, fetch_mem, forget_mem, lockWindow_mem,
    mEncAt_mem, mapAll_canon]

@[simp] theorem readChan_canon {s : State} (hm : s.mem.Canon) (r : Run) (c n align : Nat) : (s.readChan r c n align).Canon := by
  unfold State.readChan
  grind [Got.Canon, State.updM_mem, readAt_canon]

@[simp] theorem readBytes_canon {s : State} (hm : s.mem.Canon) (r : Run) (src : MSrc) (n align : Nat) :
    (s.readBytes r src n align).Canon := by
  unfold State.readBytes
  grind [Got.Canon, State.updSt_mem, dry_mem, readChan_canon]

@[simp] theorem readRow_canon {s : State} (hm : s.mem.Canon) (r : Run) (src : MSrc) (f : Fmt) (acc2 i n : Nat) :
    (s.readRow r src f acc2 i n).Canon := by
  unfold State.readRow
  grind [Got.Canon, Row.Canon, readBytes_canon]

@[simp] theorem writeAt_canon {s : State} (hm : s.mem.Canon) (r : Run) (va : Word) (bs : List Byte) (align : Nat) :
    (s.writeAt r va bs align).Canon := by
  unfold State.writeAt
  grind -ring -linarith -lia [Got.Canon, State.updSt_mem, chanFault_canon, mEncAt_mem, mapAll_canon, putBytes_mem, updRun_mem]

@[simp] theorem mBegin_canon {s : State} (hm : s.mem.Canon) {pop : BitVec 4} {check : Run → State → Option Nat}
    {body : Run → State → State} (hb : ∀ r t, t.mem.Canon → (body r t).mem.Canon) :
    outCanon (mBegin pop check body s) := by
  unfold mBegin
  grind [State.updSt_mem, popWord_mem, dry_mem, outCanon]

@[simp] theorem mWord_canon {s : State} (hm : s.mem.Canon) {f : MFields} {check : Run → Ext → State → Option Nat}
    {body : Run → Ext → State → State} (hb : ∀ r x t, t.mem.Canon → (body r x t).mem.Canon) :
    outCanon (mWord f check body s) := by
  refine mBegin_canon hm fun r t ht => ?_
  split
  · exact hb _ _ _ ht
  · exact ht

@[simp] theorem mDone_mem (s : State) (push : BitVec 4) (wrote : Bool) : (s.mDone push wrote).mem = s.mem := rfl

@[simp] theorem mRow_mem (s : State) (push : BitVec 4) (total : Nat) (wrote : Bool) :
    (s.mRow push total wrote).mem = s.mem := by
  unfold State.mRow
  grind [mDone_mem, updRun_mem]

theorem putQueue_mem {s t : State} {dk : MDst} {bs : List Byte} (h : s.putQueue dk bs = some t) : t.mem = s.mem := by
  unfold State.putQueue at h
  grind [State.updSt_mem]

/-! ### Tiles, products and matrix stores -/

@[simp] theorem execNset_canon {s : State} (hm : s.mem.Canon) (pop push : BitVec 4) (add : Option (BitVec 4)) (level : BitVec 3)
    (chan : BitVec 2) (base : BitVec 56) (stride : BitVec 24) (cnt : BitVec 11) :
    outCanon (execNset pop push add level chan base stride cnt s) := by
  unfold execNset
  grind [State.updM_mem, mBegin_canon, mDone_mem]

@[simp] theorem execNgo_canon {s : State} (hm : s.mem.Canon) (pop push chmask : BitVec 4) :
    outCanon (execNgo pop push chmask s) := by
  unfold execNgo
  grind [State.updM_mem, mBegin_canon, mDone_mem]

@[simp] theorem updWork_mem (s : State) (f : Work → Work) : (s.updWork f).mem = s.mem := rfl

@[simp] theorem bStep_canon {s : State} (hm : s.mem.Canon) (f : MFields) (x : Ext) (r : Run) : (bStep f x r s).mem.Canon := by
  unfold bStep
  grind [Row.Canon, readRow_canon, updWork_mem]

@[simp] theorem aRow_canon {s : State} (hm : s.mem.Canon) (f : MFields) (x : Ext) (r : Run) (i : Nat) :
    (aRow f x r i s).Canon := by
  unfold aRow
  grind [Row.Canon, mEnc_mem, readRow_canon]

@[simp] theorem aStep_canon {s : State} (hm : s.mem.Canon) (f : MFields) (x : Ext) (r : Run) : (aStep f x r s).mem.Canon := by
  unfold aStep
  grind [Row.Canon, aRow_canon, updWork_mem]

@[simp] theorem headerStep_canon {s : State} (hm : s.mem.Canon) (f : MFields) (r : Run) (x : Ext) :
    (headerStep f r x s).mem.Canon := by
  unfold headerStep
  grind [Got.Canon, mEnc_mem, readAt_canon, updWork_mem]

@[simp] theorem mmacStart_mem (s : State) (f : MFields) (x : Ext) (r : Run) : (mmacStart f x r s).mem = s.mem := by
  unfold mmacStart
  grind [State.updM_mem, mEnc_mem, updWork_mem]

@[simp] theorem mmacStep_canon {s : State} (hm : s.mem.Canon) (f : MFields) (r : Run) (x : Ext) :
    (mmacStep f r x s).mem.Canon := by
  unfold mmacStep
  grind [Row.Canon, State.updM_mem, aRow_canon, aStep_canon, bStep_canon, headerStep_canon, mEnc_mem, mRow_mem, mmacStart_mem]

@[simp] theorem mmacqStep_canon {s : State} (hm : s.mem.Canon) (f : MFields) (r : Run) (x : Ext) :
    (mmacqStep f r x s).mem.Canon := by
  unfold mmacqStep
  grind -ring -linarith -lia [Row.Canon, State.updM_mem, aRow_canon, aStep_canon, bStep_canon, dry_mem, mRow_mem, putQueue_mem]

@[simp] theorem msaccStep_canon {s : State} (hm : s.mem.Canon) (f : MFields) (r : Run) (x : Ext) :
    (msaccStep f r x s).mem.Canon := by
  unfold msaccStep
  grind [Got.Canon, State.updM_mem, mDone_mem, mEnc_mem, readBytes_canon, updWork_mem]

@[simp] theorem mloadrStep_canon {s : State} (hm : s.mem.Canon) (f : MFields) (r : Run) (x : Ext) :
    (mloadrStep f r x s).mem.Canon := by
  unfold mloadrStep
  grind [Row.Canon, State.updM_mem, mRow_mem, readRow_canon]

@[simp] theorem execMloads_canon {s : State} (hm : s.mem.Canon) (f : MFields) : outCanon (execMloads f s) := by
  unfold execMloads
  grind [Got.Canon, State.updM_mem, mBegin_canon, mDone_mem, readBytes_canon]

@[simp] theorem execMzero_canon {s : State} (hm : s.mem.Canon) (f : MFields) : outCanon (execMzero f s) := by
  unfold execMzero
  grind [State.updM_mem, mDone_mem, mWord_canon]

@[simp] theorem reserveRows_canon {s : State} (hm : s.mem.Canon) (r : Run) (hdr : Option Word) (c : Channel)
    (n bytes align : Nat) :
    (s.reserveRows r hdr c n bytes align).Canon := by
  unfold State.reserveRows
  grind [Got.Canon, chanFault_canon, l2Yield_mem, updWork_mem]

@[simp] theorem storeHead_canon {s : State} (hm : s.mem.Canon) (f : MFields) (r : Run) (ch : Nat) (bw : Int) :
    (storeHead f r ch bw s).mem.Canon := by
  unfold storeHead
  grind [Got.Canon, updWork_mem, writeAt_canon]

@[simp] theorem mstoreMem_canon {s : State} (hm : s.mem.Canon) (f : MFields) (r : Run) (rows : Nat) (bw : Int) (bs : List Byte)
    (g : Sp Lane) :
    (mstoreMem f r rows bw bs g s).mem.Canon := by
  unfold mstoreMem
  grind [Got.Canon, State.updM_mem, mRow_mem, reserveRows_canon, storeHead_canon, writeAt_canon]

@[simp] theorem mstoreStep_canon {s : State} (hm : s.mem.Canon) (f : MFields) (r : Run) (x : Ext) :
    (mstoreStep f r x s).mem.Canon := by
  unfold mstoreStep
  grind [State.updM_mem, dry_mem, mEnc_mem, mRow_mem, mstoreMem_canon, putQueue_mem]

@[simp] theorem mactStep_mem (s : State) (f : MFields) (r : Run) (x : Ext) : (mactStep f r x s).mem = s.mem := by
  unfold mactStep
  grind -ring -linarith -lia [State.updM_mem, dry_mem, mRow_mem, putQueue_mem]

@[simp] theorem mFlipLine_canon {s : State} (hm : s.mem.Canon) (r : Run) (x : Nat × List ShadowByte) :
    (s.mFlipLine r x).mem.Canon := by
  unfold State.mFlipLine
  grind [State.updSt_mem, flipLine_canon]

@[simp] theorem mFlipLines_canon {s : State} (hm : s.mem.Canon) (r : Run) (l : List (Nat × List ShadowByte)) :
    (l.foldl (fun s x => s.mFlipLine r x) s).mem.Canon :=
  foldl_canon (fun _ _ ht => mFlipLine_canon ht ..) l hm

@[simp] theorem mSend_canon {s : State} (hm : s.mem.Canon) (r : Run) (l : List ShadowByte)
    (runs left : List (Nat × List Byte)) :
    (s.mSend r l runs left).1.mem.Canon := by
  fun_induction State.mSend <;> grind [Sent.Canon, State.updSt_mem, requestAt_canon]

@[simp] theorem mFlipHome_canon {s : State} (hm : s.mem.Canon) (r : Run) : (s.mFlipHome r).mem.Canon := by
  have hl := mFlipLines_canon hm r
  unfold State.mFlipHome
  grind [mSend_canon, updRun_mem]

@[simp] theorem execEntryComplete_canon {s : State} (hm : s.mem.Canon) (e : Eng) : outCanon (execEntryComplete e s) := by
  unfold execEntryComplete
  repeat' split
  all_goals simp [hm]

/-! ### Relaxation words -/

@[simp] theorem onClusters_mem (s : State) (p : Cluster → Bool) (f : Strand → Strand) : (s.onClusters p f).mem = s.mem := rfl

@[simp] theorem execRelaxGroupStart_canon {s : State} (hm : s.mem.Canon) : outCanon (execRelaxGroupStart s) := by
  unfold execRelaxGroupStart
  grind [onClusters_mem, outCanon]

theorem injectStep_canon {s t : State} (hm : s.mem.Canon) {f : MFields} {r : Run} {x : Ext} (h : injectStep f r x s = some t) :
    t.mem.Canon := by
  unfold injectStep at h
  grind [Row.Canon, readRow_canon, updWork_mem]

@[simp] theorem groupEnd_mem (s : State) (gs : List Member) : (s.groupEnd gs).mem = s.mem := by
  unfold State.groupEnd
  split <;> rfl

@[simp] theorem relaxStep_canon {s : State} (hm : s.mem.Canon) (back : Bool) (f : MFields) (r : Run) (x : Ext) :
    (relaxStep back f r x s).mem.Canon := by
  unfold relaxStep
  grind [State.updSt_mem, groupEnd_mem, injectStep_canon]

@[simp] theorem readPart_canon {s : State} (hm : s.mem.Canon) (r : Run) (src : MSrc) (off n align : Nat) (last : Bool) :
    (s.readPart r src off n align last).Canon := by
  unfold State.readPart
  grind [Got.Canon, State.updM_mem, readAt_canon, readBytes_canon]

@[simp] theorem mxRowStep_canon {s : State} (hm : s.mem.Canon) (f : MFields) (r : Run) (x : Ext) :
    (mxRowStep f r x s).mem.Canon := by
  unfold mxRowStep
  grind [Got.Canon, State.updM_mem, mDone_mem, readPart_canon, updWork_mem]

@[simp] theorem structStep_canon {s : State} (hm : s.mem.Canon) (f : MFields) (r : Run) : (structStep f r s).mem.Canon := by
  unfold structStep
  grind [Got.Canon, State.updM_mem, mDone_mem, mEnc_mem, readPart_canon, updWork_mem]

@[simp] theorem execMxset_canon {s : State} (hm : s.mem.Canon) (f : MFields) : outCanon (execMxset f s) := by
  unfold execMxset
  grind [State.updM_mem, mDone_mem, mWord_canon, mxRowStep_canon, structStep_canon]

@[simp] theorem mxreadStep_mem (s : State) (f : MFields) (r : Run) (x : Ext) : (mxreadStep f r x s).mem = s.mem := by
  unfold mxreadStep
  grind [mDone_mem, putQueue_mem, updWork_mem]

@[simp] theorem mpatchStep_canon {s : State} (hm : s.mem.Canon) (f : MFields) (r : Run) (x : Ext) :
    (mpatchStep f r x s).mem.Canon := by
  unfold mpatchStep
  grind [Got.Canon, State.updM_mem, State.updSt_mem, mDone_mem, readPart_canon, updWork_mem]

end Sys2Proof.Machine
end

section
/-!
SUPPORT. Canonical form through the package: management, the scheduler, power, the fabric, errors and the host (`f_mem`,
`f_canon`).
-/

set_option Elab.async false

namespace Sys2Proof.Machine

/-! ### Management words -/

theorem nextLeaf_mem {s s1 : State} {leaf : Nat} (h : s.nextLeaf = some (s1, leaf)) : s1.mem = s.mem := by
  unfold State.nextLeaf at h
  grind

@[simp] theorem mgmtOut_mem (s : State) (m : List Byte) : (s.mgmtOut m).mem = s.mem := rfl

@[simp] theorem sendQuote_canon {s : State} (hm : s.mem.Canon) (nonce : BitVec 256) : (s.sendQuote nonce).mem.Canon := by
  have hf : ∀ (l : List (List Byte)) (t : State),
      (l.foldl (fun s m => s.mgmtOut (vendorReply m)) t).mem = t.mem :=
    foldl_mem fun _ _ => mgmtOut_mem ..
  unfold State.sendQuote
  grind [mgmtOut_mem, nextLeaf_mem]

@[simp] theorem manage_canon {s : State} (hm : s.mem.Canon) (m : MgmtMsg) : (s.manage m).mem.Canon := by
  unfold State.manage
  repeat' split
  all_goals simp [hm]

@[simp] theorem recap_mem (s : State) (vi : Nat) : (s.recap vi).mem = s.mem := by
  unfold State.recap
  split <;> rfl

@[simp] theorem refillBalance_mem (s : State) (vi : Nat) : (s.refillBalance vi).mem = s.mem := by
  unfold State.refillBalance
  grind [State.setVi_mem, recap_mem]

/-! ### The scheduler: queues, nodes and launches -/

@[simp] theorem readArgs_canon {s : State} (hm : s.mem.Canon) (vi a : Nat) : (s.readArgs vi a).1.mem.Canon := by
  unfold State.readArgs
  grind [feBytes_canon]

@[simp] theorem freeNode_mem (s : State) : s.freeNode.2.mem = s.mem := rfl

@[simp] theorem acceptRecord_canon {s : State} (hm : s.mem.Canon) (vi graph stream gidx : Nat) (cookie : BitVec 32)
    (device bad : Bool) (rec' : Option Record) :
    (s.acceptRecord vi graph stream gidx cookie device bad rec').mem.Canon := by
  unfold State.acceptRecord
  grind [freeNode_mem, readArgs_canon]

@[simp] theorem readRecords_canon {s : State} (hm : s.mem.Canon) (vi a n : Nat) (acc : List (Option Record)) :
    (s.readRecords vi a n acc).1.mem.Canon := by
  fun_induction State.readRecords <;> grind [feBytes_canon]

@[simp] theorem acceptAll_canon {s : State} (hm : s.mem.Canon) (vi graph stream : Nat) (cookie : BitVec 32) (device bad : Bool)
    (l : List (Option Record)) (k : Nat) :
    (s.acceptAll vi graph stream cookie device bad l k).mem.Canon := by
  fun_induction State.acceptAll <;> grind [acceptRecord_canon]

@[simp] theorem acceptGraph_canon {s : State} (hm : s.mem.Canon) (vi : Nat) (cookie : BitVec 32) (device bad : Bool)
    (l : List (Option Record)) :
    (s.acceptGraph vi cookie device bad l).mem.Canon := by
  unfold State.acceptGraph
  grind [acceptAll_canon]

@[simp] theorem sqRead_canon {s : State} (hm : s.mem.Canon) (vi : Nat) (x : StreamQ) (n : Nat) :
    (s.sqRead vi x n).1.mem.Canon := by
  unfold State.sqRead
  grind -ring -linarith -lia [feBytes_canon]

@[simp] theorem sqScan_canon {s : State} (hm : s.mem.Canon) (vi q : Nat) : (s.sqScan vi q).mem.Canon := by
  unfold State.sqScan
  grind -ring -linarith -lia [sqRead_canon]

@[simp] theorem mboxResult_canon {s : State} (hm : s.mem.Canon) (vi res : Nat) : (s.mboxResult vi res).mem.Canon := by
  unfold State.mboxResult
  grind [State.setVi_mem, notify_canon]

@[simp] theorem handle_canon {s : State} (hm : s.mem.Canon) (core : Nat) (e : Event) : (s.handle core e).mem.Canon := by
  unfold State.handle
  repeat' split
  all_goals simp [hm]

@[simp] theorem takeEvents_canon {s : State} (hm : s.mem.Canon) (fuel : Nat) : (s.takeEvents fuel).mem.Canon := by
  fun_induction State.takeEvents <;> grind [handle_canon]

@[simp] theorem pool_canon {s : State} (hm : s.mem.Canon) : s.pool.mem.Canon := by
  unfold State.pool
  grind [takeEvents_canon]

@[simp] theorem post_canon {s : State} (hm : s.mem.Canon) (e : Event) : (s.post e).mem.Canon := by
  unfold State.post
  grind [pool_canon, raise_mem]

@[simp] theorem expire_canon {s : State} (hm : s.mem.Canon) (e : Event) : (s.expire e).mem.Canon := by
  unfold State.expire
  grind [pool_canon, post_canon]

@[simp] theorem completion_canon {s : State} (hm : s.mem.Canon) (n : Node) (status : Nat) :
    (s.completion n status).mem.Canon := by
  unfold State.completion
  grind [post_canon, report_canon]

@[simp] theorem handled_canon {s : State} (hm : s.mem.Canon) (e : Event) : (s.handled e).mem.Canon := pool_canon hm ..

@[simp] theorem errRecordAt_canon {s : State} (hm : s.mem.Canon) (time kind unit die clus pa count node : Nat) :
    (s.errRecordAt time kind unit die clus pa count node).mem.Canon :=
  post_canon hm ..

@[simp] theorem errRecord_canon {s : State} (hm : s.mem.Canon) (kind unit die clus pa count node : Nat) :
    (s.errRecord kind unit die clus pa count node).mem.Canon :=
  errRecordAt_canon hm ..

@[simp] theorem mergedRecord_canon {s : State} (hm : s.mem.Canon) (x : Merged) : (s.mergedRecord x).mem.Canon :=
  post_canon hm ..

@[simp] theorem flushErrs_canon {s : State} (hm : s.mem.Canon) : s.flushErrs.mem.Canon :=
  foldl_canon (fun _ x ht => mergedRecord_canon ht x) _ hm

@[simp] theorem mboxDone_canon {s : State} (hm : s.mem.Canon) (vi res : Nat) : (s.mboxDone vi res).mem.Canon := by
  unfold State.mboxDone
  grind [handled_canon, mboxResult_canon]

@[simp] theorem feedLoad_canon {s : State} (hm : s.mem.Canon) (vi fuel : Nat) : (s.feedLoad vi fuel).mem.Canon := by
  fun_induction State.feedLoad <;> grind [State.setVi_mem, fePut_canon, hostPut_canon, post_canon]

@[simp] theorem loadEnds_canon {s : State} (hm : s.mem.Canon) (vi : Nat) : (s.loadEnds vi).mem.Canon := by
  unfold State.loadEnds
  grind [State.setVi_mem, feedLoad_canon, mboxDone_canon]

@[simp] theorem scanOn_canon {s : State} (hm : s.mem.Canon) (vi q : Nat) : (s.scanOn vi q).mem.Canon := by
  unfold State.scanOn
  grind [raise_mem, sqScan_canon]

@[simp] theorem execNodeAccept_canon {s : State} (hm : s.mem.Canon) : outCanon (execNodeAccept s) := by
  unfold execNodeAccept
  grind [State.setVi_mem, acceptGraph_canon, loadEnds_canon, outCanon, readRecords_canon, scanOn_canon]

@[simp] theorem lqHead_canon {s : State} (hm : s.mem.Canon) (vi q : Nat) : (s.lqHead vi q).mem.Canon := by
  unfold State.lqHead
  grind [State.setVi_mem, fePut_canon]

@[simp] theorem lqScan_canon {s : State} (hm : s.mem.Canon) (vi q fuel : Nat) : (s.lqScan vi q fuel).mem.Canon := by
  fun_induction State.lqScan <;> grind -ring -linarith -lia [State.setVi_mem, acceptGraph_canon, feBytes_canon, lqHead_canon]

@[simp] theorem lqScanAll_canon {s : State} (hm : s.mem.Canon) (vi q : Nat) : (s.lqScanAll vi q).mem.Canon := lqScan_canon hm ..

@[simp] theorem scanEvery_canon {s : State} (hm : s.mem.Canon) : s.scanEvery.mem.Canon :=
  foldl_canon (fun _ v ht => foldl_canon (fun _ _ hu => lqScanAll_canon hu ..) v.2.lqs ht) s.vis hm

@[simp] theorem execLaunch_canon {s : State} (hm : s.mem.Canon) (g : Guard) (d a b : Reg) :
    outCanon (execLaunch g d a b s) := by
  refine guarded_canon hm <| replayed_canon hm <| reading_canon hm ?_
  split
  · exact trap_canon hm _
  · exact issueSGated_canon hm ..

@[simp] theorem launchStep_canon {s : State} (hm : s.mem.Canon) (h : Entry) (d : Reg) (q : BitVec 4) (tail : Word) :
    (s.launchStep h d q tail).mem.Canon := by
  unfold State.launchStep
  grind [State.setVi_mem, bindResult_mem, lqScanAll_canon]

@[simp] theorem execPrio_canon {s : State} (hm : s.mem.Canon) (g : Guard) (d a : Reg) : outCanon (execPrio g d a s) := by
  refine guarded_canon hm <| replayed_canon hm <| reading_canon hm ?_
  split
  · exact trap_canon hm _
  · exact issueS_canon hm ..

@[simp] theorem prioStep_mem (s : State) (h : Entry) (d : Reg) (v : Word) : (s.prioStep h d v).mem = s.mem := rfl

@[simp] theorem opportunity_mem (s : State) : s.opportunity.mem = s.mem := rfl

@[simp] theorem execGraphRelease_canon {s : State} (hm : s.mem.Canon) (vi stream : Nat) :
    outCanon (execGraphRelease vi stream s) := by
  unfold execGraphRelease
  repeat' split
  all_goals simp [hm]

theorem passAll_mem (s : State) (vkind : Bool) (l : List Nat) : (s.passAll vkind l).mem = s.mem := by
  refine foldl_mem (fun t k => ?_) l s
  split
  · split
    · rfl
    · rfl
  · rfl

@[simp] theorem repartition_canon {s : State} (hm : s.mem.Canon) (size : Nat) (launch : Bool) :
    (s.repartition size launch).mem.Canon :=
  foldl_canon (fun _ l ht => l1Flush_canon ht l) _ hm

@[simp] theorem enterStrand_canon {s : State} (hm : s.mem.Canon) (t : Strand) (launch : Bool) (st : Status) :
    (s.enterStrand t launch st).mem.Canon := by
  unfold State.enterStrand
  grind [repartition_canon]

@[simp] theorem ensure_mem (s : State) (d c : Nat) : (s.ensure d c).mem = s.mem := by
  unfold State.ensure
  split <;> rfl

theorem enterAll_canon (launch : Bool) (fin : List Nat) (l : List (Strand × (Nat × Nat))) :
    ∀ {s : State} (_ : s.mem.Canon), (s.enterAll l launch fin).mem.Canon := by
  induction l with
  | nil => exact id
  | cons x r ih => exact fun hm => ih (onCluster_canon ((ensure_mem ..).symm ▸ hm) _ _ fun _ ht => enterStrand_canon ht ..)

@[simp] theorem zeroSlots_mem (s : State) (node : Nat) : (s.zeroSlots node).mem = s.mem := rfl

@[simp] theorem drawByte_mem (s : State) : s.drawByte.1.mem = s.mem := rfl

@[simp] theorem refetchAt_canon {s : State} (hm : s.mem.Canon) (pl : Place) (va : Word) (tag : BitVec 20) :
    (s.refetchAt pl va tag).1.mem.Canon := by
  unfold State.refetchAt
  grind [State.updSt_mem, drawByte_mem, exportGet_mem, performRead_canon]

@[simp] theorem refetchByte_canon {s : State} (hm : s.mem.Canon) (va : Word) (tag : BitVec 20) :
    (s.refetchByte va tag).1.mem.Canon := by
  unfold State.refetchByte
  grind [State.updSt_mem, drawByte_mem, hold_mem, lookup_canon, refetchAt_canon]

@[simp] theorem refetch_canon {s : State} (hm : s.mem.Canon) (l : List (Word × BitVec 20)) (acc : List Byte) :
    (s.refetch l acc).1.mem.Canon := by
  fun_induction State.refetch <;> grind [refetchByte_canon]

@[simp] theorem refetchQueue_canon {s : State} (hm : s.mem.Canon) (k : Fin 4) : (s.refetchQueue k).mem.Canon := by
  unfold State.refetchQueue
  grind [State.updSt_mem, refetch_canon]

@[simp] theorem refetchAll_canon {s : State} (hm : s.mem.Canon) : s.refetchAll.mem.Canon := by
  rw [State.refetchAll, State.updSt_mem]
  exact foldl_canon (fun _ q ht => refetchQueue_canon ht q) (List.finRange 4) hm

@[simp] theorem place_canon {s : State} (hm : s.mem.Canon) (n : Node) (places : List (Nat × Nat)) :
    (s.place n places).mem.Canon := by
  have hf : ∀ t : State, t.mem.Canon → (places.foldl (fun s p => s.onCluster p.1 p.2 State.refetchAll) t).mem.Canon :=
    fun t ht => foldl_canon (fun _ p hu => onCluster_canon hu p.1 p.2 fun _ hv => refetchAll_canon hv) places ht
  unfold State.place
  grind [enterAll_canon, updNode_mem, zeroSlots_mem]

@[simp] theorem primePart_canon {s : State} (hm : s.mem.Canon) (vi va n : Nat) : (s.primePart vi va n).mem.Canon := by
  unfold State.primePart
  grind [l2Range_mem, pageOf_canon]

@[simp] theorem prime_canon {s : State} (hm : s.mem.Canon) (n : Node) : (s.prime n).mem.Canon := by
  unfold State.prime
  grind [primePart_canon]

@[simp] theorem execPlacement_canon {s : State} (hm : s.mem.Canon) : outCanon (execPlacement s) := by
  unfold execPlacement
  grind [outCanon, passAll_mem, place_canon, prime_canon]

@[simp] theorem freeNodeClusters_mem (s : State) (slot : Nat) : (s.freeNodeClusters slot).mem = s.mem := rfl

theorem retireStream_mem (s : State) (vi stream : Nat) : (s.retireStream vi stream).mem = s.mem :=
  foldl_mem (fun _ _ => (addRetire_mem ..).trans (State.setTag_mem ..)) _ s

@[simp] theorem endTearDown_canon {s : State} (hm : s.mem.Canon) (vi : Nat) : (s.endTearDown vi).mem.Canon := by
  have hf : ∀ (l : List Nat) (t : State),
      (l.foldl (fun s k => s.retireStream vi k) t).mem = t.mem :=
    foldl_mem fun _ _ => retireStream_mem ..
  unfold State.endTearDown
  grind [mboxDone_canon, State.setVi_mem]

@[simp] theorem completeNode_canon {s : State} (hm : s.mem.Canon) (n : Node) (status : Nat) :
    (s.completeNode n status).mem.Canon := by
  unfold State.completeNode
  grind [collsEnd_mem, completion_canon, endTearDown_canon, freeNodeClusters_mem, opportunity_mem, scanEvery_canon]

@[simp] theorem execNodeComplete_canon {s : State} (hm : s.mem.Canon) (node : Nat) : outCanon (execNodeComplete node s) := by
  unfold execNodeComplete
  grind [completeNode_canon, outCanon]

/-! ### Switching and the stall wire -/

@[simp] theorem execPageWalk_canon {s : State} (hm : s.mem.Canon) (va : BitVec 64) (write : Bool) :
    outCanon (execPageWalk va write s) := by
  unfold execPageWalk
  grind [outCanon, xlate_canon]

@[simp] theorem writePtes_canon {s : State} (hm : s.mem.Canon) (l : List (Nat × BitVec 64)) : (s.writePtes l).mem.Canon := by
  refine foldl_canon (fun t x ht => ?_) l hm
  split
  · exact baseWrite_canon ht ..
  · exact ht

@[simp] theorem execFaultService_canon {s : State} (hm : s.mem.Canon) (serviced : Bool) (writes : List (Nat × BitVec 64)) :
    outCanon (execFaultService serviced writes s) := by
  unfold execFaultService
  grind [State.updSt_mem, handled_canon, outCanon, pool_canon, writePtes_canon]

@[simp] theorem execStallWireRelease_canon {s : State} (hm : s.mem.Canon) : outCanon (execStallWireRelease s) := by
  unfold execStallWireRelease
  dsimp only
  split
  · refine foldl_canon (fun t c ht => ?_) _ ?_
    · split
      · exact onCluster_canon ht _ _ fun _ hu => refetchAll_canon hu
      · exact ht
    · exact hm
  · exact hm

@[simp] theorem sdFlush_canon {s : State} (hm : s.mem.Canon) (v : Word) : (s.sdFlush v).mem.Canon :=
  foldl_canon (fun _ l ht => l1Flush_canon ht l) _ hm

@[simp] theorem sdStart_canon {s : State} (hm : s.mem.Canon) (v : Word) : (s.sdStart v).mem.Canon := by
  unfold State.sdStart
  grind [mapClusters_mem, sdFlush_canon]

@[simp] theorem sdWrite_canon {s : State} (hm : s.mem.Canon) (v : Word) : (s.sdWrite v).mem.Canon := by
  unfold State.sdWrite
  grind [sdStart_canon]

@[simp] theorem shootdown_canon {s : State} (hm : s.mem.Canon) (scope : Nat) (v : Word) : outCanon (shootdown scope v s) := by
  unfold shootdown
  split <;> simp [hm]

@[simp] theorem execShootdownComplete_canon {s : State} (hm : s.mem.Canon) : outCanon (execShootdownComplete s) := by
  unfold execShootdownComplete
  grind [outCanon]

@[simp] theorem execControlWatchdogExpire_canon {s : State} (hm : s.mem.Canon) : outCanon (execControlWatchdogExpire s) := by
  unfold execControlWatchdogExpire
  grind [State.updSt_mem, outCanon, trapEntry_mem]

@[simp] theorem execEngineWatchdogExpire_canon {s : State} (hm : s.mem.Canon) (e : Eng) :
    outCanon (execEngineWatchdogExpire e s) := by
  unfold execEngineWatchdogExpire
  grind [State.updSt_mem, outCanon]

@[simp] theorem execYield_canon {s : State} (hm : s.mem.Canon) (g : Guard) (d : Reg) : outCanon (execYield g d s) := by
  refine guarded_canon hm <| ?_
  repeat' split
  all_goals simp [hm]

@[simp] theorem execSliceEnd_canon {s : State} (hm : s.mem.Canon) : outCanon (execSliceEnd s) := by
  unfold execSliceEnd
  grind [leaveGang_mem, outCanon]

@[simp] theorem trapReport_canon {s : State} (hm : s.mem.Canon) (n : Node) (saved : List Strand) :
    (s.trapReport n saved).mem.Canon := by
  unfold State.trapReport
  repeat' split
  all_goals simp [hm]

@[simp] theorem switchOut_canon {s : State} (hm : s.mem.Canon) (n : Node) : (s.switchOut n).mem.Canon := by
  have hf : ∀ l : List Cluster, (l.foldl (fun s c => s.onCluster c.die c.clus State.l1CleanAll) s).mem.Canon :=
    fun l => foldl_canon (fun _ c ht => onCluster_canon ht _ _ fun _ hu => l1CleanAll_canon hu) l hm
  unfold State.switchOut
  grind [freeNodeClusters_mem, opportunity_mem, trapReport_canon, updNode_mem]

@[simp] theorem execSwitchOutComplete_canon {s : State} (hm : s.mem.Canon) : outCanon (execSwitchOutComplete s) := by
  unfold execSwitchOutComplete
  grind [outCanon, switchOut_canon]

/-! ### Power -/

theorem charge_mem (s : State) (l : List (Nat × Nat)) : (s.charge l).mem = s.mem := foldl_mem (fun t x => by split <;> rfl) l s

@[simp] theorem relaxSpent_mem (s : State) : s.relaxSpent.mem = s.mem := rfl

@[simp] theorem execRampEnvelopeTick_canon {s : State} (hm : s.mem.Canon) (m : Meas) : outCanon (execRampEnvelopeTick m s) := by
  unfold execRampEnvelopeTick
  grind -ring -linarith -lia [charge_mem, flushErrs_canon, mapClusters_mem, outCanon, relaxSpent_mem]

@[simp] theorem execEnergyPeriodRefill_canon {s : State} (hm : s.mem.Canon) (vi : Nat) :
    outCanon (execEnergyPeriodRefill vi s) := by
  unfold execEnergyPeriodRefill
  grind [expire_canon, outCanon]

@[simp] theorem execImpChange_canon {s : State} (hm : s.mem.Canon) (level : Nat) : outCanon (execImpChange level s) := by
  unfold execImpChange
  grind [opportunity_mem, outCanon]

@[simp] theorem execOppChange_canon {s : State} (hm : s.mem.Canon) (rail point : Nat) :
    outCanon (execOppChange rail point s) := by
  unfold execOppChange
  grind [outCanon]

@[simp] theorem execThrottleReasonChange_canon {s : State} (hm : s.mem.Canon) (reasons : BitVec 5) (cycles : Nat) :
    outCanon (execThrottleReasonChange reasons cycles s) := by
  unfold execThrottleReasonChange
  simp [hm]

@[simp] theorem execPackageReserveGrant_canon {s : State} (hm : s.mem.Canon) (die watts : Nat) :
    outCanon (execPackageReserveGrant die watts s) := by
  unfold execPackageReserveGrant
  grind [outCanon]

@[simp] theorem telStart_mem (s : State) : s.telStart.mem = s.mem := rfl

@[simp] theorem telWrite_canon {s : State} (hm : s.mem.Canon) (m : Meas) : (s.telWrite m).mem.Canon := by
  unfold State.telWrite
  grind [handled_canon, ringPut_canon, telStart_mem]

@[simp] theorem execTelemetryRecord_canon {s : State} (hm : s.mem.Canon) (m : Meas) : outCanon (execTelemetryRecord m s) := by
  unfold execTelemetryRecord
  grind [expire_canon, outCanon, telWrite_canon]

/-! ### Packets, links and destinations -/

@[simp] theorem answer_canon {s : State} (hm : s.mem.Canon) (e : Eng) (seq : Nat) (va : Word) (r : Except Cause (List Byte)) :
    (s.answer e seq va r).mem.Canon := by
  unfold State.answer
  grind -ring -linarith -lia [State.updSt_mem, accDone_canon, copyRelease_mem, updHead_mem]

@[simp] theorem collAnswer_mem (s : State) (die slot : Nat) (r : Except Cause (List Byte)) :
    (s.collAnswer die slot r).mem = s.mem := by
  unfold State.collAnswer
  grind [collFail_mem]

@[simp] theorem hostAnswer_mem (s : State) (vi : Nat) (r : Except Cause (List Byte)) : (s.hostAnswer vi r).mem = s.mem := by
  unfold State.hostAnswer
  split <;> rfl

@[simp] theorem settle_canon {s : State} (hm : s.mem.Canon) (dst : Nat) (x : Req) : (s.settle dst x).mem.Canon := by
  have hp : ∀ q : Peer, (s.setPeer q).mem.Canon := fun _ => hm
  unfold State.settle
  split
  · exact onCluster_canon (hp _) _ _ fun _ ht => answer_canon ht ..
  · rw [collAnswer_mem]; exact hp _
  · rw [hostAnswer_mem]; exact hp _
  · exact hm

@[simp] theorem progressReq_canon {s : State} (hm : s.mem.Canon) (dst num : Nat) (f : Req → Req) :
    (s.progressReq dst num f).mem.Canon := by
  unfold State.progressReq
  grind [State.setPeer_mem, settle_canon]

@[simp] theorem replied_canon {s : State} (hm : s.mem.Canon) (src num err : Nat) (data : List Byte) :
    (s.replied src num err data).mem.Canon := by
  unfold State.replied
  grind [progressReq_canon]

@[simp] theorem sysFadd_mem (s : State) (vi vc slot amount : Nat) : (s.sysFadd vi vc slot amount).mem = s.mem := by
  unfold State.sysFadd
  repeat' split
  all_goals simp

@[simp] theorem reply_mem (s : State) (p : Packet) (r : Except Cause (List Byte)) : (s.reply p r).mem = s.mem := by
  unfold State.reply
  grind [sendSeq_mem]

@[simp] theorem collData_canon {s : State} (hm : s.mem.Canon) (vi id att bucket step : Nat) (vals : List Lane) :
    (s.collData vi id att bucket step vals).mem.Canon := by
  unfold State.collData
  repeat' split
  all_goals simp [hm]

@[simp] theorem deliverPacket_canon {s : State} (hm : s.mem.Canon) (p : Packet) : (s.deliverPacket p).mem.Canon := by
  unfold State.deliverPacket
  grind [collData_canon, exportAtomic_canon, exportGet_mem, exportWrite_canon, gongArrives_mem, replied_canon, reply_mem,
    sysFadd_mem]

@[simp] theorem deliverWindow_canon {s : State} (hm : s.mem.Canon) (src fuel : Nat) : (s.deliverWindow src fuel).mem.Canon := by
  fun_induction State.deliverWindow <;> grind [State.setPeer_mem, deliverPacket_canon]

@[simp] theorem receive_canon {s : State} (hm : s.mem.Canon) (p : Packet) : (s.receive p).mem.Canon := by
  unfold State.receive
  grind [State.setPeer_mem, deliverWindow_canon]

@[simp] theorem execPacketReceive_canon {s : State} (hm : s.mem.Canon) (p : Packet) : outCanon (execPacketReceive p s) := by
  unfold execPacketReceive
  grind -ring -linarith -lia [State.setPeer_mem, outCanon, receive_canon]

@[simp] theorem execAckReceive_canon {s : State} (hm : s.mem.Canon) (dst upto : Nat) :
    outCanon (execAckReceive dst upto s) := by
  unfold execAckReceive
  grind [State.setPeer_mem, deliverWindow_canon, outCanon, progressReq_canon]

@[simp] theorem execAckTimeout_canon {s : State} (hm : s.mem.Canon) (dst : Nat) : outCanon (execAckTimeout dst s) := by
  unfold execAckTimeout
  grind [State.setPeer_mem, outCanon]

@[simp] theorem execPortLockLoss_canon {s : State} (hm : s.mem.Canon) : outCanon (execPortLockLoss s) := by
  unfold execPortLockLoss
  grind [outCanon]

@[simp] theorem loseReqs_canon {s : State} (hm : s.mem.Canon) (dst : Nat) (l : List Req) : (s.loseReqs dst l).mem.Canon :=
  foldl_canon (fun _ _ ht => progressReq_canon ht ..) l hm

@[simp] theorem execDestinationLost_canon {s : State} (hm : s.mem.Canon) : outCanon (execDestinationLost s) := by
  have hf : ∀ (l : List Coll) (t : State),
      (l.foldl (fun s c => s.collFail c 1) t).mem = t.mem :=
    foldl_mem fun _ _ => collFail_mem ..
  unfold execDestinationLost
  grind [State.setPeer_mem, loseReqs_canon, outCanon]

@[simp] theorem execRouteInstall_canon {s : State} (hm : s.mem.Canon) (dst : Nat) (routes : List Route) :
    outCanon (execRouteInstall dst routes s) := by
  unfold execRouteInstall
  grind [State.setPeer_mem, outCanon]

/-! ### Errors, rollback and refills -/

@[simp] theorem abortCopy_canon {s : State} (hm : s.mem.Canon) : s.abortCopy.mem.Canon := by
  unfold State.abortCopy
  repeat' split
  all_goals simp [hm]

@[simp] theorem abortOrphan_mem (s : State) : s.abortOrphan.mem = s.mem := by
  unfold State.abortOrphan
  grind [copyRelease_mem]

@[simp] theorem stopScope_canon {s : State} (hm : s.mem.Canon) (vi : Nat) (stream : Option Nat) :
    (s.stopScope vi stream).mem.Canon :=
  foldl_canon (fun _ c ht => onCluster_canon ht _ _ fun _ hu => by grind [abortCopy_canon, abortOrphan_mem]) _ hm

@[simp] theorem tearQueue_mem (s : State) (vi : Nat) (stream : Option Nat) (q : Nat) :
    (s.tearQueue vi stream q).mem = s.mem := by
  unfold State.tearQueue
  split <;> rfl

@[simp] theorem dropWaiting_canon {s : State} (hm : s.mem.Canon) (vi : Nat) : (s.dropWaiting vi).mem.Canon := by
  unfold State.dropWaiting
  dsimp only
  split
  · refine loadEnds_canon ?_ _
    rw [State.setVi_mem]
    refine foldl_canon (fun _ _ ht => ?_) _ ?_
    · exact ht
    · exact hm
  · refine foldl_canon (fun _ _ ht => ?_) _ ?_
    · exact ht
    · exact hm

@[simp] theorem tearDown_canon {s : State} (hm : s.mem.Canon) (vi : Nat) (stream : Option Nat) :
    (s.tearDown vi stream).mem.Canon := by
  have hf : ∀ (l : List Nat) (t : State), (l.foldl (fun s q => s.tearQueue vi stream q) t).mem = t.mem :=
    foldl_mem fun _ _ => tearQueue_mem ..
  unfold State.tearDown
  grind [State.setVi_mem, stopScope_canon, dropWaiting_canon, endTearDown_canon]

@[simp] theorem execUncorrectableError_canon {s : State} (hm : s.mem.Canon) (e : ErrSite) :
    outCanon (execUncorrectableError e s) := by
  unfold execUncorrectableError
  grind [errRecord_canon, outCanon]

@[simp] theorem setPort_mem (s : State) (p : Nat) (f : CxlPort → CxlPort) : (s.setPort p f).mem = s.mem := by
  unfold State.setPort
  split <;> rfl

@[simp] theorem unmapAbove_canon {s : State} (hm : s.mem.Canon) (port lo : Nat) : (s.unmapAbove port lo).mem.Canon := by
  rw [State.unmapAbove, mapClusters_mem]
  exact foldl_canon (fun _ _ ht => baseWrite_canon ht ..) _ hm

@[simp] theorem endCopies_canon {s : State} (hm : s.mem.Canon) (port lo code : Nat) : (s.endCopies port lo code).mem.Canon :=
  foldl_canon (fun _ q ht => onCluster_canon ht _ _ fun _ hu => by grind [copyRelease_mem, copyEnd_canon]) _ hm

@[simp] theorem execCxlLinkDown_canon {s : State} (hm : s.mem.Canon) : outCanon (execCxlLinkDown s) := by
  unfold execCxlLinkDown
  grind [endCopies_canon, outCanon, setPort_mem]

@[simp] theorem lowerEnd_canon {s : State} (hm : s.mem.Canon) (port newEnd : Nat) (f : CxlPort → CxlPort) :
    (s.lowerEnd port newEnd f).mem.Canon := by
  unfold State.lowerEnd
  grind [endCopies_canon, setPort_mem, unmapAbove_canon]

@[simp] theorem execCxlDecoderLower_canon {s : State} (hm : s.mem.Canon) (port limit : Nat) :
    outCanon (execCxlDecoderLower port limit s) := by
  unfold execCxlDecoderLower
  split
  · exact hm
  · exact lowerEnd_canon hm ..

@[simp] theorem execCxlLinkUp_canon {s : State} (hm : s.mem.Canon) (port cap : Nat) : outCanon (execCxlLinkUp port cap s) := by
  unfold execCxlLinkUp
  split
  · exact hm
  · dsimp only
    split
    · exact lowerEnd_canon hm ..
    · rw [outCanon, setPort_mem]; exact hm

@[simp] theorem reOwn_mem (s : State) (seq key : Nat) : (s.reOwn seq key).mem = s.mem := rfl

@[simp] theorem leaveCopy_mem (s : State) : s.leaveCopy.mem = s.mem := by
  unfold State.leaveCopy
  repeat' split
  all_goals simp

@[simp] theorem refillGran_canon {s : State} (hm : s.mem.Canon) (h : Entry) (g : Nat) : (s.refillGran h g).Canon := by
  unfold State.refillGran
  split
  · next op _ gd ga gb _ _ _ =>
    have hl := readList_canon hm s.refillOwner h op gd ga gb
    dsimp only
    split
    · next hx => rw [hx] at hl; exact hl
    · next hx =>
      rw [hx] at hl
      split
      · next hx =>
        have hs := canon_of_fst hx (mapAll_canon hl ..)
        split
        · next hx => exact canon_of_fst hx (by rw [fetch_mem]; exact hs)
        · next hx =>
          have hu := canon_of_fst hx (by rw [fetch_mem]; exact hs)
          split
          · rw [Refill.Canon]
            refine foldl_canon (fun t x ht => ?_) _ hu
            exact ht
          · trivial
      · trivial
    · trivial
  · trivial

@[simp] theorem refill_canon {s : State} (hm : s.mem.Canon) (fills : List (Nat × Option Entry)) (k : ClusterErr) :
    (s.refill fills k).Canon := by
  unfold State.refill
  grind [Refill.Canon, refillGran_canon]

@[simp] theorem refillErrs_canon {s : State} (hm : s.mem.Canon) (fills : List (Nat × Option Entry))
    (l : List (ClusterErr × Nat)) :
    (s.refillErrs fills l).Canon := by
  fun_induction State.refillErrs <;> grind [Refill.Canon, refill_canon]

@[simp] theorem rejudge_mem (s : State) : s.rejudge.mem = s.mem := rfl

@[simp] theorem fence_canon {s : State} (hm : s.mem.Canon) (recoverable : Bool) : (s.fence recoverable).mem.Canon := by
  unfold State.fence
  grind [errRecord_canon, leaveGang_mem, rejudge_mem, tearDown_canon]

@[simp] theorem restoreMe_mem (s : State) (c : Snap) : (s.restoreMe c).mem = s.mem := by
  unfold State.restoreMe
  grind [State.updSt_mem, forget_mem, leaveCopy_mem]

@[simp] theorem errRecords_canon {s : State} (hm : s.mem.Canon) (kind : Nat) (l : List (ClusterErr × Nat)) :
    (s.errRecords kind l).mem.Canon :=
  foldl_canon (fun _ _ ht => errRecordAt_canon ht ..) l hm

@[simp] theorem rollback_canon {s : State} (hm : s.mem.Canon) (c : Snap) (l : List (ClusterErr × Nat)) :
    (s.rollback c l).mem.Canon := by
  unfold State.rollback
  grind [Refill.Canon, State.updSt_mem, errRecords_canon, fence_canon, forget_mem, pool_canon, refillErrs_canon, restoreMe_mem]

@[simp] theorem execClusterErrorRollback_canon {s : State} (hm : s.mem.Canon) (k : ClusterErr) :
    outCanon (execClusterErrorRollback k s) := by
  unfold execClusterErrorRollback
  grind [State.updSt_mem, outCanon, rollback_canon]

@[simp] theorem restart_mem (s : State) (e : Event) : (s.restart e).mem = s.mem := by
  unfold State.restart
  split <;> rfl

@[simp] theorem execCoreHeartbeatExpire_canon {s : State} (hm : s.mem.Canon) : outCanon (execCoreHeartbeatExpire s) := by
  have hf : ∀ (l : List Event) (t : State), (l.foldl State.restart t).mem = t.mem := foldl_mem restart_mem
  unfold execCoreHeartbeatExpire
  grind [pool_canon, outCanon]

@[simp] theorem execCoreRebootComplete_canon {s : State} (hm : s.mem.Canon) : outCanon (execCoreRebootComplete s) := by
  unfold execCoreRebootComplete
  grind [outCanon, pool_canon]

@[simp] theorem fallbackServe_canon {s : State} (hm : s.mem.Canon) (k : Nat) : (s.fallbackServe k).mem.Canon := by
  unfold State.fallbackServe
  grind -ring -linarith -lia [sqScan_canon]

@[simp] theorem execFallbackTurn_canon {s : State} (hm : s.mem.Canon) : outCanon (execFallbackTurn s) := by
  unfold execFallbackTurn
  grind [fallbackServe_canon, outCanon]

/-! ### The host registers -/

@[simp] theorem cfgErr_mem (s : State) : s.cfgErr.mem = s.mem := rfl

@[simp] theorem viclsWrite_mem (s : State) (die : Nat) (mask : Word) : (s.viclsWrite die mask).mem = s.mem := by
  unfold State.viclsWrite
  grind [State.setVi_mem, cfgErr_mem]

@[simp] theorem vicfgWrite_canon {s : State} (hm : s.mem.Canon) (w : Word) : (s.vicfgWrite w).mem.Canon := by
  unfold State.vicfgWrite
  grind [State.setVi_mem, cfgErr_mem, tearDown_canon]

@[simp] theorem haddrOk_canon {s : State} (hm : s.mem.Canon) (vi : Nat) (a : Word) : (s.haddrOk vi a).1.mem.Canon := by
  unfold State.haddrOk
  grind [pageOf_canon]

@[simp] theorem lqWrite_canon {s : State} (hm : s.mem.Canon) (vi q : Nat) (w : Word) : (s.lqWrite vi q w).mem.Canon := by
  unfold State.lqWrite
  grind [State.setVi_mem, cfgErr_mem, fePut_canon, haddrOk_canon]

@[simp] theorem dropSub_mem (s : State) (vi q : Nat) : (s.dropSub vi q).mem = s.mem := rfl

@[simp] theorem sqWrite_canon {s : State} (hm : s.mem.Canon) (vi q : Nat) (w : Word) : (s.sqWrite vi q w).mem.Canon := by
  unfold State.sqWrite
  grind [State.setVi_mem, dropSub_mem, loadEnds_canon]

@[simp] theorem doorbellWrite_canon {s : State} (hm : s.mem.Canon) (vi q : Nat) (w : Word) :
    (s.doorbellWrite vi q w).mem.Canon := by
  unfold State.doorbellWrite
  grind [State.setVi_mem, post_canon]

@[simp] theorem mboxWrite_canon {s : State} (hm : s.mem.Canon) (vi : Nat) (code : BitVec 8) :
    (s.mboxWrite vi code).mem.Canon := by
  unfold State.mboxWrite
  grind [State.setVi_mem, post_canon]

@[simp] theorem pkgWrite_canon {s : State} (hm : s.mem.Canon) (n : Nat) (w : Word) : (s.pkgWrite n w).mem.Canon := by
  unfold State.pkgWrite
  repeat' split
  all_goals simp [hm]

@[simp] theorem cellcfgWrite_mem (s : State) (die : Nat) (w : Word) : (s.cellcfgWrite die w).mem = s.mem := by
  unfold State.cellcfgWrite
  split <;> rfl

@[simp] theorem syncdropWrite_mem (s : State) (die : Nat) (w : Word) : (s.syncdropWrite die w).mem = s.mem := by
  unfold State.syncdropWrite
  split <;> rfl

@[simp] theorem ifaceWrite_canon {s : State} (hm : s.mem.Canon) (n : Nat) (w : Word) : (s.ifaceWrite n w).mem.Canon := by
  unfold State.ifaceWrite
  repeat' split
  all_goals simp [hm]

@[simp] theorem lqField_canon {s : State} (hm : s.mem.Canon) (q k : Nat) (w : Word) : (s.lqField q k w).mem.Canon := by
  unfold State.lqField
  split <;> simp [hm]

@[simp] theorem ctlWrite_canon {s : State} (hm : s.mem.Canon) (n : Nat) (w : Word) : (s.ctlWrite n w).mem.Canon := by
  unfold State.ctlWrite
  grind [cellcfgWrite_mem, ifaceWrite_canon, lqField_canon, pkgWrite_canon, syncdropWrite_mem, viclsWrite_mem]

@[simp] theorem sqField_canon {s : State} (hm : s.mem.Canon) (vi q k : Nat) (w : Word) : (s.sqField vi q k w).mem.Canon := by
  unfold State.sqField
  split <;> simp [hm]

@[simp] theorem argWrite_mem (s : State) (vi k : Nat) (w : Word) : (s.argWrite vi k w).mem = s.mem := by
  unfold State.argWrite
  split <;> rfl

@[simp] theorem pageWrite_canon {s : State} (hm : s.mem.Canon) (vi off : Nat) (w : Word) :
    (s.pageWrite vi off w).mem.Canon := by
  unfold State.pageWrite
  grind [State.setVi_mem, argWrite_mem, mboxWrite_canon, sqField_canon]

@[simp] theorem exportEntryWrite_mem (s : State) (k : Nat) (w : Word) : (s.exportEntryWrite k w).mem = s.mem := by
  unfold State.exportEntryWrite
  split <;> rfl

@[simp] theorem hostWrite_canon {s : State} (hm : s.mem.Canon) (tgt : RegTarget) (w : Word) :
    (s.hostWrite tgt w).mem.Canon := by
  unfold State.hostWrite
  grind [ctlWrite_canon, exportEntryWrite_mem, pageWrite_canon]

@[simp] theorem execLaunchQueueEnable_canon {s : State} (hm : s.mem.Canon) (vi q : Nat) (v : BitVec 64) :
    outCanon (execLaunchQueueEnable vi q v s) := by
  unfold execLaunchQueueEnable
  split <;> simp [hm]

@[simp] theorem execMboxBadCommand_canon {s : State} (hm : s.mem.Canon) (vi : Nat) (code : BitVec 8) :
    outCanon (execMboxBadCommand vi code s) := by
  unfold execMboxBadCommand
  grind [hostWrite_canon, outCanon]

/-! ### The host: interfaces and windows -/

@[simp] theorem mapped_canon {s : State} (hm : s.mem.Canon) (img : Image) (lay : Layout) : (s.mapped img lay).mem.Canon := by
  unfold State.mapped
  grind [writePtes_canon]

@[simp] theorem placeBytes_canon {s : State} (hm : s.mem.Canon) (vi va : Nat) (bs : List Byte) (fuel : Nat) :
    (s.placeBytes vi va bs fuel).mem.Canon := by
  fun_induction State.placeBytes <;> grind -ring -linarith -lia [homeWrite_canon]

@[simp] theorem placeAll_canon {s : State} (hm : s.mem.Canon) (vi va : Nat) (bs : List Byte) :
    (s.placeAll vi va bs).mem.Canon :=
  placeBytes_canon hm ..

@[simp] theorem placeRegion_canon {s : State} (hm : s.mem.Canon) (r : Region) (pa : Nat) : (s.placeRegion r pa).mem.Canon := by
  unfold State.placeRegion
  split
  · exact hm
  · refine foldl_canon (fun t x ht => ?_) r.bytes hm
    split
    · exact baseWrite_canon (baseWrite_canon ht ..) ..
    · exact homeWrite_canon ht ..

@[simp] theorem placeStreams_canon {s : State} (hm : s.mem.Canon) (vi : Nat) (codes : List Code)
    (l : List (List Byte × List Byte)) (streams : List Nat) (va args : Nat) :
    (s.placeStreams vi codes l streams va args).1.mem.Canon := by
  fun_induction State.placeStreams <;> grind [placeAll_canon]

@[simp] theorem extend_mem (s : State) (k : Nat) (data : List Byte) : (s.extend k data).mem = s.mem := by
  unfold State.extend
  split <;> rfl

@[simp] theorem install_canon {s : State} (hm : s.mem.Canon) (vi : Nat) (img : Image) (lay : Layout) (codes : List Code)
    (digest : BitVec 256) :
    (s.install vi img lay codes digest).mem.Canon := by
  have hr : ∀ (l : List (Region × Nat)) (t : State), t.mem.Canon → (l.foldl (fun s x => s.placeRegion x.1 x.2) t).mem.Canon :=
    fun l _ => foldl_canon (fun _ x ht => placeRegion_canon ht x.1 x.2) l
  have hc : ∀ t : State, t.mem.Canon → (codes.foldl (fun s c => s.placeAll vi c.ctrlVa c.bytes) t).mem.Canon :=
    fun _ => foldl_canon (fun _ c ht => placeAll_canon ht ..) codes
  unfold State.install
  grind [mapped_canon, placeStreams_canon, State.setVi_mem, extend_mem, loadEnds_canon]

@[simp] theorem mboxOut1_mem (s : State) (vi n : Nat) : (s.mboxOut1 vi n).mem = s.mem := rfl

@[simp] theorem execLoad_canon {s : State} (hm : s.mem.Canon) (vi : Nat) (img : Image) (lay : Layout) :
    outCanon (execLoad vi img lay s) := by
  unfold execLoad
  grind [feBytes_canon, install_canon, mboxDone_canon, mboxOut1_mem, outCanon]

@[simp] theorem execUnload_canon {s : State} (hm : s.mem.Canon) (vi : Nat) : outCanon (execUnload vi s) := by
  unfold execUnload
  grind [State.setVi_mem, mboxDone_canon, outCanon]

@[simp] theorem execTeardown_canon {s : State} (hm : s.mem.Canon) (vi : Nat) : outCanon (execTeardown vi s) := by
  unfold execTeardown
  grind [mboxDone_canon, outCanon, tearDown_canon]

@[simp] theorem execClearFault_canon {s : State} (hm : s.mem.Canon) (vi : Nat) : outCanon (execClearFault vi s) := by
  unfold execClearFault
  grind [mboxDone_canon, outCanon]

@[simp] theorem execEndNode_canon {s : State} (hm : s.mem.Canon) (vi : Nat) : outCanon (execEndNode vi s) := by
  unfold execEndNode
  grind [mboxDone_canon, outCanon, updNode_mem]

@[simp] theorem execResume_canon {s : State} (hm : s.mem.Canon) (vi : Nat) : outCanon (execResume vi s) := by
  unfold execResume
  grind [feBytes_canon, mboxDone_canon, opportunity_mem, outCanon, updNode_mem]

@[simp] theorem execAttest_canon {s : State} (hm : s.mem.Canon) (vi : Nat) : outCanon (execAttest vi s) := by
  unfold execAttest
  split
  · exact hm
  · grind [feBytes_canon, mboxDone_canon, nextLeaf_mem, fePut_canon, State.setVi_mem, outCanon]

@[simp] theorem bar2Fault_mem (s : State) (vi n : Nat) (read : Bool) : (s.bar2Fault vi n read).mem = s.mem := by
  unfold State.bar2Fault
  split <;> rfl

@[simp] theorem pieces_canon {s : State} (hm : s.mem.Canon) (vi : Nat) (write : Bool) (l : List (Nat × Nat)) :
    (s.pieces vi write l).1.mem.Canon := by
  fun_induction State.pieces <;> grind [pageOf_canon]

@[simp] theorem pieceWrite_canon {s : State} (hm : s.mem.Canon) (vi : Nat) (p : Piece) (bs : List Byte) :
    (s.pieceWrite vi p bs).mem.Canon := by
  unfold State.pieceWrite
  repeat' split
  all_goals simp [hm]

@[simp] theorem piecesWrite_canon {s : State} (hm : s.mem.Canon) (vi : Nat) (l : List Piece) (bs : List Byte) :
    (s.piecesWrite vi l bs).mem.Canon := by
  fun_induction State.piecesWrite <;> grind [pieceWrite_canon]

@[simp] theorem pieceRead_mem (s : State) (vi : Nat) (p : Piece) : (s.pieceRead vi p).1.mem = s.mem := by
  unfold State.pieceRead
  repeat' split
  all_goals simp

@[simp] theorem piecesRead_mem (s : State) (vi : Nat) (l : List Piece) (acc : List Byte) :
    (s.piecesRead vi l acc).1.mem = s.mem := by
  fun_induction State.piecesRead <;> grind [pieceRead_mem]

@[simp] theorem bar2Read_mem (s : State) (vi n : Nat) (l : List Piece) : (s.bar2Read vi n l).mem = s.mem := by
  unfold State.bar2Read
  grind [bar2Fault_mem, fetch_mem, forget_mem, piecesRead_mem]

@[simp] theorem bar2Write_canon {s : State} (hm : s.mem.Canon) (vi : Nat) (l : List Piece) (bs : List Byte) :
    (s.bar2Write vi l bs).mem.Canon := by
  unfold State.bar2Write
  grind [piecesWrite_canon]

@[simp] theorem execBar2Access_canon {s : State} (hm : s.mem.Canon) (vi off n : Nat) (data : Option (List (BitVec 8))) :
    outCanon (execBar2Access vi off n data s) := by
  unfold execBar2Access
  grind [bar2Fault_mem, bar2Read_mem, bar2Write_canon, outCanon, pieces_canon]

@[simp] theorem execReset_canon (b : BootReport) : outCanon (execReset b s) := by
  have hf : ∀ (l : List (Nat × Nat)) (t : State),
      (l.foldl (fun s x => s.setPort x.1 fun _ => ⟨true, decoderEnd x.2⟩) t).mem = t.mem :=
    foldl_mem fun _ _ => setPort_mem ..
  have hr : State.reset.mem.Canon := rfl
  unfold execReset
  grind [mgmtOut_mem, extend_mem, outCanon]

@[simp] theorem execBarWindowsOpen_canon {s : State} (hm : s.mem.Canon) : outCanon (execBarWindowsOpen s) := by
  unfold execBarWindowsOpen
  split <;> simp [hm]

@[simp] theorem onPort_canon {s : State} (hm : s.mem.Canon) (m : MgmtMsg) : outCanon (onPort m s) := by
  unfold onPort
  grind [outCanon, post_canon]

@[simp] theorem lockHeld_mem (s : State) : s.lockHeld.mem = s.mem := rfl

@[simp] theorem execPpsEdge_canon {s : State} (hm : s.mem.Canon) : outCanon (execPpsEdge s) := by
  unfold execPpsEdge
  grind [lockHeld_mem, outCanon]

/-! ### An entry performed -/

@[simp] theorem storeStep_canon {s : State} (hm : s.mem.Canon) (h : Entry) : (s.storeStep h).mem.Canon := by
  unfold State.storeStep
  repeat' split
  all_goals simp [hm]

@[simp] theorem execStorePerformed_canon {s : State} (hm : s.mem.Canon) : outCanon (execStorePerformed s) := by
  unfold execStorePerformed
  grind [outCanon, storeStep_canon]

/-! ### Which cluster runs -/

@[simp] theorem focus_mem (s : State) (k : Nat) : (s.focus k).mem = s.mem := by
  unfold State.focus
  split <;> rfl

@[simp] theorem takeTurn_mem (s : State) : s.takeTurn.mem = s.mem := by
  unfold State.takeTurn
  split <;> rfl

@[simp] theorem otherTurn_mem (s : State) (t : Turn) : (s.otherTurn t).mem = s.mem := by
  unfold State.otherTurn
  grind [focus_mem]

end Sys2Proof.Machine
end

section
/-!
SUPPORT. Every instruction and every step answers a state whose memory is in canonical form (R31, R57).
-/

set_option Elab.async false

namespace Sys2Proof.Machine

/-- Whatever an instruction answers has its memory in canonical form: each arm by the lemma of its operation. -/
theorem exec_canon {s : State} (hm : s.mem.Canon) (i : Instr) : outCanon (exec i s) := by
  cases i <;> dsimp only [exec]
  case add | sub | mul | mulh | divs | divn | rems | remn | and | or | xor | andn | shl | shr | sha | rot | min | max | minn |
      maxn | clz | popc | addImm | andImm | orImm | xorImm | shlImm | shrImm | shaImm | rotImm | sel | movi | movh | lea | tget
      | kstat | ebget | tkget | strid | nodeid | sfadd | sfmul | sffma | sfmin | sfmax | sfcvt =>
    exact compute_canon hm ..
  case cmp | pbri | ebset | sfcmp => exact guarded_canon hm <| reading_canon hm <| done_canon hm
  case pbr | nop => exact guarded_canon hm <| done_canon hm
  case br | call => exact guarded_canon hm <| transfer_canon hm <| by exact hm
  case ret => exact guarded_canon hm <| reading_canon hm <| transfer_canon hm <| by exact hm
  case ldOffset | ldIndex | ldcOffset | ldcIndex => exact guarded_canon hm <| reading_canon hm <| issueLoad_canon hm ..
  case stOffset | stIndex => exact guarded_canon hm <| reading_canon hm <| issueStore_canon hm ..
  case stntOffset | stntIndex => exact guarded_canon hm <| reading_canon hm <| issueStnt_canon hm ..
  case zlsv => exact guarded_canon hm <| reading_canon hm <| accessingAll_canon (fun _ _ ht => issueS_canon ht ..) 4 hm ..
  case qld => exact guarded_canon hm <| reading_canon hm <| issueLs_canon hm ..
  case qst => exact guarded_canon hm <| reading_canon hm <| issueS_canon hm ..
  case aadd | aand | aor | axor | amin | amax | aminn | amaxn | axchg | acas => exact atomic_canon hm ..
  case fadd | fset | barv =>
    exact guarded_canon hm <| replayed_canon hm <| reading_canon hm <| slotArgs_canon hm <| issueSGated_canon hm ..
  case barinit => exact guarded_canon hm <| replayed_canon hm <| reading_canon hm <| slotArgs_canon hm <| issueS_canon hm ..
  case mark | sbar | fence => exact guarded_canon hm <| issueMarker_canon hm ..
  case drainnt => exact guarded_canon hm <| issueS_canon hm ..
  case cinv => exact guarded_canon hm <| issueL_canon hm ..
  case talloc => exact guarded_canon hm <| replayed_canon hm <| issueS_canon hm ..
  case kcopy | kcopy2d | kfill | kgather | kscatter | kpair => exact issueCopy_canon hm ..
  case done => exact guarded_canon hm <| by exact hm
  case trap | brk => exact guarded_canon hm <| raise_canon hm ..
  case illegalEncoding => exact trap_canon hm ..
  case csrr => exact guarded_canon hm <| onCsr_canon hm fun _ => done_canon hm
  case csrw | csrs => exact guarded_canon hm <| reading_canon hm <| onCsr_canon hm fun _ => writeCsr_canon hm ..
  case qarm => exact guarded_canon hm <| replayed_canon hm <| reading_canon hm <| issueSGated_canon hm ..
  case qpost | qabort =>
    exact guarded_canon hm <| replayed_canon hm <| reading_canon hm <| onHandle_canon hm <| issueSGated_canon hm ..
  case qstat => exact guarded_canon hm <| replayed_canon hm <| reading_canon hm <| onHandle_canon hm <| issueS_canon hm ..
  case vadd | vsub | vmul | vfma | vfms | vmin | vmax | vabs | vneg | vclamp => exact arith_canon hm ..
  case vexp2 | vlog2 | vrcp | vrsqrt | vtanh | vsig => exact funcWord_canon hm ..
  case vand | vor | vxor | vshl | vshr | vsha | vmov => exact bitwise_canon hm ..
  case vcvt | vpack | vunpack | vsel | vred | vscan | vdefer | vdrain => exact vWord_canon hm ..
  case vsacc => exact elementwise_canon hm ..
  case vrep | mrep => exact repeatWord_canon hm ..
  case mmac => exact mWord_canon hm fun _ _ _ ht => mmacStep_canon ht ..
  case mmacq => exact mWord_canon hm fun _ _ _ ht => mmacqStep_canon ht ..
  case msacc => exact mWord_canon hm fun _ _ _ ht => msaccStep_canon ht ..
  case mloadr => exact mWord_canon hm fun _ _ _ ht => mloadrStep_canon ht ..
  case mstore => exact mWord_canon hm fun _ _ _ ht => mstoreStep_canon ht ..
  case mact => exact mWord_canon hm fun _ _ _ ht => by rw [mactStep_mem]; exact ht
  case relax | relaxb => exact mWord_canon hm fun _ _ _ ht => relaxStep_canon ht ..
  case mxread => exact mWord_canon hm fun _ _ _ ht => by rw [mxreadStep_mem]; exact ht
  case mpatch => exact mWord_canon hm fun _ _ _ ht => mpatchStep_canon ht ..
  case shootdownPage | shootdownRange | shootdownVi | shootdownAll => exact shootdown_canon hm ..
  case gongReceive => exact receive_canon hm ..
  case correctedError | scrub | tsuwinLinkDown | tsuwinLinkUp | dynamicAddressAssign | ppsEdgeMissing => exact hm
  case registerWrite | w1cClear | cellcfgWrite | viclsWrite | viEnable | viDisable | sqDoorbell | sqEnable =>
    exact hostWrite_canon hm ..
  case setEndpointId | getEndpointId | getMctpVersionSupport | getMessageTypeSupport | vendorReadTelemetry | vendorReadErrors |
      vendorRequestQuote | vendorWriteZcfg | announce | sync | followUp =>
    exact onPort_canon hm ..
  -- The other arms are operations of their own, each with its lemma.
  all_goals simp [hm]

/-- A step executes an instruction, or brings another cluster to the front. -/
theorem step_canon {s : State} (hm : s.mem.Canon) : outCanon (step s) := by
  have ht : s.takeTurn.mem.Canon := by rw [takeTurn_mem]; exact hm
  unfold step
  split
  · exact exec_canon ht _
  · rw [outCanon, otherTurn_mem]
    exact ht

/-- Settles O44: whatever a step answers has its memory in canonical form, a next state in particular. -/
theorem stepKeepsMemory : Obligations.StepKeepsMemory := by
  intro s t hm hstep
  have h := step_canon hm
  rw [hstep] at h
  exact h

end Sys2Proof.Machine
end

section
/-!
SUPPORT. Where the words that transfer control, the scalar accesses and TKSET trap (R75, R83, R190, R206, R207, R215), each said
once for the operation that the words share, and the statement about them.
-/

namespace Sys2Proof.Machine

/-- A word whose guard holds and whose registers are bound goes on (R19, R198). -/
theorem reads_of_guard {g : Guard} {rs : List Reg} {s : State} {k : State → Out} (hg : s.ctl.guard g = true)
    (hb : s.me.st.pending rs = false) : guarded g s (fun s => reading rs s k) = k s := by
  rw [guarded_true _ _ _ hg, reading_bound _ _ _ hb]

/-! ### Transfers (R206, R215) -/

/-- Why a transfer to `t` traps, in the order of the checks (R206, R215). -/
def State.transferCause (s : State) (t : Word) : Option Cause :=
  if t.toNat % 4 ≠ 0 then some .brAlign
  else if s.me.st.code.holds t = false then some .brRange
  else if s.ctl.atEnd s.ctl.pc then some .zlEnd
  else none

theorem transfer_traps {s : State} {t : Word} {c : Cause} (h : s.transferCause t = some c) (k : State → Out) :
    transfer t s k = trap c s := by
  rw [State.transferCause] at h
  rw [transfer, State.badTarget]
  split at h
  · next halign => cases h; rw [if_pos halign]
  · next halign =>
    rw [if_neg halign]
    split at h
    · next hrange => cases h; rw [hrange]; rfl
    · next hrange =>
      rw [Bool.not_eq_false] at hrange
      rw [hrange]
      split at h
      · next hend => cases h; exact if_pos hend
      · cases h

theorem exec_br {g : Guard} {s : State} (hg : s.ctl.guard g = true) (t : BitVec 3) :
    exec (.br g t) s = transfer (s.ctl.getBT t) s fun s => .next (s.jump (s.ctl.getBT t)) :=
  if_pos hg

theorem exec_call {g : Guard} {s : State} (hg : s.ctl.guard g = true) (t : BitVec 3) :
    exec (.call g t) s =
      transfer (s.ctl.getBT t) s fun s => .next ((s.writeG 31 (s.ctl.pc + 4)).retireTo (s.ctl.getBT t)) :=
  if_pos hg

theorem exec_ret {g : Guard} {s : State} (hg : s.ctl.guard g = true) (hb : s.me.st.pending [31] = false) :
    exec (.ret g) s = transfer (s.getG 31) s fun s => .next (s.retireTo (s.getG 31)) :=
  reads_of_guard hg hb

/-- A BRQ whose sense is that of the queue's head is taken (R207). -/
theorem exec_brq_taken {g : Guard} {s : State} (hg : s.ctl.guard g = true) (t : BitVec 3) {sense : Bool}
    (hq : s.ctl.cq.head? = some sense) :
    exec (.brq g t sense) s = transfer (s.ctl.getBT t) s fun s => .next ((s.updCtl Ctl.popCq).jump (s.ctl.getBT t)) := by
  obtain ⟨rest, hcq⟩ := List.head?_eq_some_iff.1 hq
  refine (if_pos hg).trans ?_
  simp only [hcq, if_true]

/-! ### Scalar accesses (R75, R83) -/

theorem accessing_beyond {ea : Word} (h : 2 ^ 56 ≤ ea.toNat) (n : Nat) (write : Bool) (tag : Option (BitVec 20)) (s : State)
    (k : Place → State → Out) : accessing ea n write tag s k = trapAt .trNc ea s :=
  if_pos h

theorem accessing_misaligned {ea : Word} {n : Nat} (hin : ea.toNat < 2 ^ 56) (h : ea.toNat % n ≠ 0) (write : Bool)
    (tag : Option (BitVec 20)) (s : State) (k : Place → State → Out) :
    accessing ea n write tag s k = trapAt .misalign ea s :=
  (if_neg (Nat.not_le.2 hin)).trans (if_pos h)

/-- An answer that the checks give before translation is that of each offset form, a load or a store. -/
theorem offsetForms_of_accessing {g : Guard} {a d : Reg} {s : State} (sz : Size) (off : BitVec 8) {o : Out}
    (hg : s.ctl.guard g = true) (hb : s.me.st.pending [a, d] = false)
    (h : ∀ write k, accessing (offsetAddr (s.getG a) off sz) (sizeBytes sz) write none s k = o) :
    exec (.ldOffset g d a sz off) s = o ∧ exec (.ldcOffset g d a sz off) s = o ∧
      exec (.stOffset g d a sz off) s = o ∧ exec (.stntOffset g d a sz off) s = o := by
  have ha : s.me.st.pending [a] = false := by
    simp only [Strand.pending, List.any_cons, List.any_nil, Bool.or_false, Bool.or_eq_false_iff] at hb ⊢
    exact hb.1
  exact ⟨(reads_of_guard hg ha).trans (h ..), (reads_of_guard hg ha).trans (h ..),
    (reads_of_guard hg hb).trans (h ..), (reads_of_guard hg hb).trans (h ..)⟩

/-! ### TKSET (R188, R190) -/

theorem tkset_argument {g : Guard} {x : Reg} {n : BitVec 4} {s : State} (hg : s.ctl.guard g = true)
    (hb : s.me.st.pending [x] = false)
    (h : n.toNat < 13 ∨ (n = 14 ∧ s.me.st.vkind = true) ∨ 65535 < (s.getG x).toNat) :
    exec (.tkset g x n) s = trapInfo .tokArg (n.setWidth 16) s :=
  (reads_of_guard hg hb).trans (if_pos h)

/-- The queues of TKSET are cv, cm and ck, and cm on an M-cluster alone (R188). -/
theorem tkset_overflow {g : Guard} {x : Reg} {n : BitVec 4} {s : State} (hg : s.ctl.guard g = true)
    (hb : s.me.st.pending [x] = false) (hn : n = 13 ∨ n = 15 ∨ (n = 14 ∧ s.me.st.vkind = false))
    (hv : (s.getG x).toNat ≤ 65535) (h : 65535 < (s.ctl.getTok n).toNat + (s.getG x).toNat) :
    exec (.tkset g x n) s = trapInfo .tokOvf (n.setWidth 16) s := by
  have hok : ¬ (n.toNat < 13 ∨ (n = 14 ∧ s.me.st.vkind = true) ∨ 65535 < (s.getG x).toNat) := by
    rintro (hlow | ⟨rfl, hkind⟩ | hbig)
    · rcases hn with rfl | rfl | ⟨rfl, -⟩ <;> exact absurd hlow (by decide)
    · simp [hkind] at hn
    · exact absurd hv (Nat.not_le.2 hbig)
  exact (reads_of_guard hg hb).trans <| (if_neg hok).trans (if_pos h)

/-- Settles O17: each word is its shared operation, and the operation traps by the order of its checks. -/
theorem wordTraps : Obligations.WordTraps := by
  unfold Obligations.WordTraps
  refine ⟨?transfers, ?accesses, ?tkset⟩
  case transfers =>
    intro s g t hg T bad c hbad
    have hk : ∀ k, transfer T s k = trap c s := transfer_traps hbad
    refine ⟨(exec_br hg t).trans (hk _), (exec_call hg t).trans (hk _), fun hb hret => ?_, fun sense hq => ?_⟩
    · rw [exec_ret hg hb, hret]
      exact hk _
    · exact (exec_brq_taken hg t hq).trans (hk _)
  case accesses =>
    intro s g d a sz off hg hb ea same
    exact ⟨fun h => offsetForms_of_accessing sz off hg hb fun _ _ => accessing_beyond h ..,
      fun hin h => offsetForms_of_accessing sz off hg hb fun _ _ => accessing_misaligned hin h ..⟩
  case tkset =>
    intro s g x n hg hb v
    exact ⟨tkset_argument hg hb, tkset_overflow hg hb⟩

end Sys2Proof.Machine
end

section
/-!
SUPPORT. The walker of a cluster (R61, R66 to R68): what a walk changes, that it does not see the TLB, that it finds what the
tables name where the walker has cached nothing, and what PAGE_WALK makes of it.
-/

namespace Sys2Proof.Machine

/-! ### What a walk changes -/

/-- A state without what a walk may change: the draws, the slices, the cached pointers. -/
def State.unwalked (s : State) : State := { s with free := 0, l2 := [], ptrs := [] }

theorem eq_of_unwalked {s t : State} (h : t.unwalked = s.unwalked) : t = { s with free := t.free, l2 := t.l2, ptrs := t.ptrs } := by
  have ht : t = { t.unwalked with free := t.free, l2 := t.l2, ptrs := t.ptrs } := rfl
  rw [h] at ht
  exact ht

theorem mem_of_unwalked {s t : State} (h : t.unwalked = s.unwalked) : t.mem = s.mem := by rw [eq_of_unwalked h]
theorem pubs_of_unwalked {s t : State} (h : t.unwalked = s.unwalked) : t.pubs = s.pubs := by rw [eq_of_unwalked h]

theorem l2Use_unwalked (s : State) (a tag : Nat) (write : Bool) : (s.l2Use a tag write).unwalked = s.unwalked := by
  rw [l2Use_frame s a tag write]; rfl

theorem l2Use_ptrs (s : State) (a tag : Nat) (write : Bool) : (s.l2Use a tag write).ptrs = s.ptrs := by
  rw [l2Use_frame s a tag write]

theorem ptrUse_unwalked (s : State) (die : Option Nat) (vi lvl va e : Nat) : (s.ptrUse die vi lvl va e).1.unwalked = s.unwalked := by
  unfold State.ptrUse
  split
  · rfl
  · split
    · rfl
    · split <;> rfl

theorem ptrFill_unwalked (s : State) (die : Option Nat) (vi lvl va next : Nat) :
    (s.ptrFill die vi lvl va next).unwalked = s.unwalked := by
  simp only [State.ptrFill]
  split
  · rfl
  · split
    · rfl
    · split <;> rfl

theorem walk_unwalked (die : Option Nat) (vi va : Nat) (levels : List Nat) : ∀ (s : State) (table : Nat),
    (s.walk die vi table va levels).1.unwalked = s.unwalked := by
  induction levels with
  | nil => intro s table; rfl
  | cons lvl rest ih =>
    intro s table
    have hp := ptrUse_unwalked s die vi lvl va (leNat (s.mem.readN (canon (table + 8 * levelIndex lvl va)) 8))
    simp only [State.walk]
    generalize s.ptrUse die vi lvl va (leNat (s.mem.readN (canon (table + 8 * levelIndex lvl va)) 8)) = r at *
    obtain ⟨s1, _ | next⟩ := r
    · have hu := (l2Use_unwalked s1 (canon (table + 8 * levelIndex lvl va)) 0 false).trans hp
      simp only
      split
      · exact hu
      · split
        · exact hu
        · split
          · exact ((ih _ _).trans (ptrFill_unwalked ..)).trans hu
          · exact hu
    · exact (ih s1 next).trans hp

/-- The tables of an interface are walked from its root, or not at all (R62). -/
theorem walkBy_cases (s : State) (vi : Nat) : (∃ root, ∀ die va, s.walkBy die vi va = s.walk die vi root va [4, 3, 2, 1, 0]) ∨
    ∃ c, ∀ die va, s.walkBy die vi va = (s, .error c) := by
  simp only [State.walkBy]
  split
  · exact .inr ⟨_, fun _ _ => rfl⟩
  · split
    · exact .inr ⟨_, fun _ _ => rfl⟩
    · split
      · exact .inl ⟨_, fun _ _ => rfl⟩
      · exact .inr ⟨_, fun _ _ => rfl⟩

theorem walkBy_unwalked (s : State) (die : Option Nat) (vi va : Nat) : (s.walkBy die vi va).1.unwalked = s.unwalked := by
  obtain ⟨root, h⟩ | ⟨c, h⟩ := walkBy_cases s vi
  · rw [h]; exact walk_unwalked ..
  · rw [h]

/-! ### A walk does not see the TLB -/

/-- The state with other translations in the TLB of `me`. -/
def State.withTlb (s : State) (tlb : List TlbEntry) : State := { s with me := { s.me with tlb := tlb } }

section
variable (s : State) (tlb : List TlbEntry)

theorem l2Place_withTlb (x : L2Line) (avoid : Option Nat) :
    (s.withTlb tlb).l2Place x avoid = (s.l2Place x avoid).withTlb tlb := rfl

theorem l2Encode_withTlb (x : L2Line) (code : Nat) : (s.withTlb tlb).l2Encode x code = (s.l2Encode x code).withTlb tlb := by
  have hp : (s.withTlb tlb).l2Partner x = s.l2Partner x := rfl
  simp only [State.l2Encode, hp]
  split
  · split
    · rfl
    · simp only [apply_ite (State.withTlb · tlb)]
      rfl
  · rfl

theorem l2Use_withTlb (a tag : Nat) (write : Bool) : (s.withTlb tlb).l2Use a tag write = (s.l2Use a tag write).withTlb tlb := by
  have hb : (s.withTlb tlb).lineBytes (a / 64) tag = s.lineBytes (a / 64) tag := rfl
  have hl : (s.withTlb tlb).l2 = s.l2 := rfl
  simp only [State.l2Use, hb, hl]
  split
  · split
    · split
      · exact l2Encode_withTlb ..
      · rfl
    · exact l2Place_withTlb ..
  · rfl

theorem ptrUse_withTlb (die : Option Nat) (vi lvl va e : Nat) :
    (s.withTlb tlb).ptrUse die vi lvl va e = ((s.ptrUse die vi lvl va e).1.withTlb tlb, (s.ptrUse die vi lvl va e).2) := by
  have hp : (s.withTlb tlb).ptrs = s.ptrs := rfl
  simp only [State.ptrUse, hp]
  split
  · rfl
  · split
    · rfl
    · split <;> rfl

theorem ptrFill_withTlb (die : Option Nat) (vi lvl va next : Nat) :
    (s.withTlb tlb).ptrFill die vi lvl va next = (s.ptrFill die vi lvl va next).withTlb tlb := by
  have hp : (s.withTlb tlb).ptrs = s.ptrs := rfl
  have hd : (s.withTlb tlb).draw = (s.draw.1, s.draw.2.withTlb tlb) := rfl
  simp only [State.ptrFill, hp, hd]
  split
  · rfl
  · split
    · rfl
    · split <;> rfl

end

theorem walk_withTlb (tlb : List TlbEntry) (die : Option Nat) (vi va : Nat) (levels : List Nat) : ∀ (s : State) (table : Nat),
    (s.withTlb tlb).walk die vi table va levels =
      ((s.walk die vi table va levels).1.withTlb tlb, (s.walk die vi table va levels).2) := by
  induction levels with
  | nil => intro s table; rfl
  | cons lvl rest ih =>
    intro s table
    have hm : (s.withTlb tlb).mem = s.mem := rfl
    simp only [State.walk, hm, ptrUse_withTlb]
    generalize s.ptrUse die vi lvl va (leNat (s.mem.readN (canon (table + 8 * levelIndex lvl va)) 8)) = r
    obtain ⟨s1, _ | next⟩ := r
    · simp only [l2Use_withTlb, ptrFill_withTlb, ih]
      split
      · rfl
      · split
        · rfl
        · split <;> rfl
    · exact ih s1 next

theorem walkBy_withTlb (s : State) (tlb : List TlbEntry) (die : Option Nat) (vi va : Nat) :
    (s.withTlb tlb).walkBy die vi va = ((s.walkBy die vi va).1.withTlb tlb, (s.walkBy die vi va).2) := by
  have hv : (s.withTlb tlb).vi vi = s.vi vi := rfl
  simp only [State.walkBy, hv]
  split
  · rfl
  · split
    · rfl
    · split
      · exact walk_withTlb ..
      · rfl

/-! ### A walker that has cached nothing of an interface (R68) -/

/-- No pointer of an interface at one of some levels stands in a die's walker. -/
def State.uncached (s : State) (die vi : Nat) (levels : List Nat) : Prop :=
  ∀ p ∈ s.ptrs, p.die = die → p.vi = vi → p.lvl ∉ levels

theorem ptrUse_uncached {s : State} {die vi lvl : Nat} {rest : List Nat} (h : s.uncached die vi (lvl :: rest)) (va e : Nat) :
    s.ptrUse (some die) vi lvl va e = (s, none) := by
  have hnone : (s.ptrs.find? fun p => p.hits die vi lvl va) = none := by
    rw [List.find?_eq_none]
    intro p hp hhit
    simp only [Ptr.hits, Bool.and_eq_true, decide_eq_true_eq] at hhit
    obtain ⟨⟨⟨hdie, hvi⟩, hlvl⟩, -⟩ := hhit
    exact h p hp hdie hvi (by simp [hlvl])
  simp only [State.ptrUse, hnone]

/-- A pointer that stands in a walker after a fill stood there before, or is that of the level filled. -/
theorem mem_ptrFill {s : State} {die vi lvl va next : Nat} {p : Ptr} (hp : p ∈ (s.ptrFill (some die) vi lvl va next).ptrs) :
    p ∈ s.ptrs ∨ p.lvl = lvl := by
  have hold : ∀ {l : List Ptr} {new : Ptr}, (∀ q ∈ l, q ∈ s.ptrs.filter fun p => !p.hits die vi lvl va) → new.lvl = lvl →
      p ∈ l ++ [new] → p ∈ s.ptrs ∨ p.lvl = lvl := by
    intro l new hl hnew hmem
    rcases List.mem_append.1 hmem with h | h
    · exact .inl (List.mem_filter.1 (hl p h)).1
    · exact .inr (List.mem_singleton.1 h ▸ hnew)
  simp only [State.ptrFill] at hp
  split at hp
  · exact hold (fun _ h => h) rfl hp
  · split at hp
    · exact hold (fun _ h => List.mem_of_mem_erase h) rfl hp
    · exact hold (fun _ h => h) rfl hp

/-- The walk behind a pointer entry: the pointer that it fills is of a level that does not come again. -/
theorem ptrFill_uncached {s : State} {die vi lvl : Nat} {rest : List Nat} (h : s.uncached die vi (lvl :: rest))
    (hlvl : lvl ∉ rest) (va next : Nat) : (s.ptrFill (some die) vi lvl va next).uncached die vi rest := by
  intro p hp hdie hvi hmem
  rcases mem_ptrFill hp with hold | rfl
  · exact h p hold hdie hvi (List.mem_cons_of_mem _ hmem)
  · exact hlvl hmem

/-- Where it has cached nothing, a walker finds what a walk without a cache finds in the same memory. -/
theorem walk_uncached (die vi va : Nat) (levels : List Nat) : ∀ (s t : State) (table : Nat), s.uncached die vi levels →
    levels.Nodup → t.mem = s.mem → t.pubs = s.pubs →
    (s.walk (some die) vi table va levels).2 = (t.walk none vi table va levels).2 := by
  induction levels with
  | nil => intros; rfl
  | cons lvl rest ih =>
    intro s t table hs hnodup hmem hpubs
    obtain ⟨hlvl, hrest⟩ := List.nodup_cons.1 hnodup
    have huse : ∀ e, t.ptrUse none vi lvl va e = (t, none) := fun _ => rfl
    simp only [State.walk, ptrUse_uncached hs, huse, hmem]
    generalize leNat (s.mem.readN (canon (table + 8 * levelIndex lvl va)) 8) = e
    generalize canon (table + 8 * levelIndex lvl va) = a
    have hsu := l2Use_unwalked s a 0 false
    have htu := l2Use_unwalked t a 0 false
    have hpubs' : (t.l2Use a 0 false).pubs = (s.l2Use a 0 false).pubs := by
      rw [pubs_of_unwalked htu, pubs_of_unwalked hsu, hpubs]
    rw [hpubs']
    split
    · rfl
    · split
      · rfl
      · split
        · have hsf := (ptrFill_unwalked (s.l2Use a 0 false) (some die) vi lvl va (nextTable e)).trans hsu
          have hcached : (s.l2Use a 0 false).uncached die vi (lvl :: rest) := by
            rw [State.uncached, l2Use_ptrs]; exact hs
          refine ih _ _ _ (ptrFill_uncached hcached hlvl va _) hrest ?_ ?_
          · rw [mem_of_unwalked hsf, ← hmem]; exact mem_of_unwalked htu
          · rw [pubs_of_unwalked hsf, ← hpubs]; exact pubs_of_unwalked htu
        · rfl

theorem walkBy_uncached {s : State} {die vi : Nat} (h : ∀ p ∈ s.ptrs, p.die = die → p.vi ≠ vi) (va : Nat) :
    (s.walkBy (some die) vi va).2 = s.walkVi vi va := by
  rw [State.walkVi]
  obtain ⟨root, hw⟩ | ⟨c, hw⟩ := walkBy_cases s vi
  · rw [hw, hw]
    exact walk_uncached die vi va _ s s root (fun p hp hdie hvi => absurd hvi (h p hp hdie)) (by decide) rfl rfl
  · rw [hw, hw]

/-! ### Translations (R66, R67) -/

theorem mem_fillTlb_self (tlb : List TlbEntry) (e : TlbEntry) (victim : Nat) : e ∈ fillTlb tlb e victim := by
  simp only [fillTlb]; split <;> simp

theorem mem_of_mem_fillTlb {tlb : List TlbEntry} {e x : TlbEntry} {victim : Nat} (h : x ∈ fillTlb tlb e victim) :
    x = e ∨ x ∈ tlb := by
  simp only [fillTlb] at h
  split at h <;> rcases List.mem_append.1 h with h | h
  · exact .inr (List.mem_filter.1 h).1
  · exact .inl (List.mem_singleton.1 h)
  · exact .inr (List.mem_filter.1 (List.mem_of_mem_eraseIdx h)).1
  · exact .inl (List.mem_singleton.1 h)

/-- Memory once a walk has set A, and D for a write, at the leaf it found (R66). -/
def State.leafMem (s : State) (l : Leaf) (write : Bool) : Memory :=
  if l.touched write = l.entry then s.mem else s.mem.writeN l.entryPa (leBytes 8 (l.touched write))

theorem touchLeaf_eq (s : State) (l : Leaf) (write : Bool) :
    ∃ free l2, s.touchLeaf l write = { s with free := free, l2 := l2, mem := s.leafMem l write } := by
  simp only [State.touchLeaf, State.leafMem]
  split
  · exact ⟨s.free, s.l2, rfl⟩
  · exact ⟨_, _, l2Use_frame ..⟩

/-- A translation that stands in no TLB entry and that no table gives. -/
theorem xlate_error {s s1 : State} {vi va : Nat} {write : Bool} {c : Cause} (hmiss : ∀ e ∈ s.me.tlb, e.hits vi va write = false)
    (h : s.walkBy (some s.me.die) vi va = (s1, .error c)) : s.xlate vi va write = (s1, .error c) := by
  have hnone : (s.me.tlb.find? fun e => e.hits vi va write) = none := by simpa using hmiss
  simp only [State.xlate, hnone, h]

/-- A translation that a walk gives: it stands in the TLB, and is noted. -/
theorem xlate_ok {s s1 : State} {vi va : Nat} {write : Bool} {l : Leaf} (hmiss : ∀ e ∈ s.me.tlb, e.hits vi va write = false)
    (h : s.walkBy (some s.me.die) vi va = (s1, .ok l)) : ∃ free l2 seen victim, s.xlate vi va write = ({ s1 with
      me := { s1.me with tlb := fillTlb s1.me.tlb (l.tlb vi va write) victim }, free := free, l2 := l2, seen := seen,
      mem := s1.leafMem l write }, .ok (l.tlb vi va write)) := by
  have hnone : (s.me.tlb.find? fun e => e.hits vi va write) = none := by simpa using hmiss
  simp only [State.xlate, hnone, h]
  split
  · obtain ⟨free, l2, ht⟩ := touchLeaf_eq s1 l write
    exact ⟨free, l2, _, _, by rw [ht]⟩
  · obtain ⟨free, l2, ht⟩ := touchLeaf_eq s1.draw.2 l write
    exact ⟨free, l2, _, _, by rw [ht]; rfl⟩

/-! ### PAGE_WALK -/

/-- The TLB entries of `me` but those that translate an address of its interface. -/
def State.otherPages (s : State) (va : Nat) : List TlbEntry :=
  s.me.tlb.filter fun e => !(decide (e.vi = s.me.st.vi) && decide (va / e.size * e.size = e.va))

theorem otherPages_miss (s : State) (va : Nat) (write : Bool) : ∀ e ∈ s.otherPages va, e.hits s.me.st.vi va write = false := by
  intro e he
  have h := (List.mem_filter.1 he).2
  rw [Bool.not_eq_true'] at h
  rw [TlbEntry.hits, h, Bool.false_and]

theorem pageWalk_ok {s t : State} {va : Word} {write : Bool} {e : TlbEntry} (hva : va.toNat < rsvdBase)
    (h : (s.withTlb (s.otherPages va.toNat)).xlate s.me.st.vi va.toNat write = (t, .ok e)) :
    exec (.pageWalk va write) s = .next t := by
  have hx : execPageWalk va write s = .next t := by
    rw [execPageWalk, if_neg (Nat.not_le.2 hva)]
    rw [State.withTlb, State.otherPages] at h
    simp only [h]
  exact hx

theorem pageWalk_error {s t : State} {va : Word} {write : Bool} {c : Cause} (hva : va.toNat < rsvdBase)
    (h : (s.withTlb (s.otherPages va.toNat)).xlate s.me.st.vi va.toNat write = (t, .error c)) :
    exec (.pageWalk va write) s = .next { t with me := s.me } := by
  have hx : execPageWalk va write s = .next { t with me := s.me } := by
    rw [execPageWalk, if_neg (Nat.not_le.2 hva)]
    rw [State.withTlb, State.otherPages] at h
    simp only [h]
  exact hx

/-- PAGE_WALK finds what the die's walker finds in the state, and changes what that walk changes. -/
theorem walkBy_otherPages (s : State) (va : Nat) : ∃ free l2 ptrs,
    (s.withTlb (s.otherPages va)).walkBy (some s.me.die) s.me.st.vi va =
      ({ s with me := { s.me with tlb := s.otherPages va }, free := free, l2 := l2, ptrs := ptrs },
        (s.walkBy (some s.me.die) s.me.st.vi va).2) := by
  have hw := eq_of_unwalked (walkBy_unwalked s (some s.me.die) s.me.st.vi va)
  rw [walkBy_withTlb]
  generalize s.walkBy (some s.me.die) s.me.st.vi va = r at hw ⊢
  exact ⟨r.1.free, r.1.l2, r.1.ptrs, Prod.ext (congrArg (State.withTlb · (s.otherPages va)) hw) rfl⟩

theorem pageWalk_finds {s : State} {va : Word} {l : Leaf} (hva : va.toNat < rsvdBase)
    (h : (s.walkBy (some s.me.die) s.me.st.vi va.toNat).2 = .ok l) (write : Bool) :
    ∃ tlb free l2 ptrs seen, exec (.pageWalk va write) s = .next { s with
        me := { s.me with tlb := tlb }, free := free, l2 := l2, ptrs := ptrs, seen := seen, mem := s.leafMem l write } ∧
      l.tlb s.me.st.vi va.toNat write ∈ tlb ∧ ∀ x ∈ tlb, x = l.tlb s.me.st.vi va.toNat write ∨ x ∈ s.me.tlb := by
  obtain ⟨free, l2, ptrs, hw⟩ := walkBy_otherPages s va.toNat
  rw [h] at hw
  obtain ⟨free', l2', seen, victim, hx⟩ := xlate_ok (write := write) (otherPages_miss s va.toNat write) hw
  refine ⟨_, free', l2', ptrs, seen, pageWalk_ok hva hx, mem_fillTlb_self .., fun x hmem => ?_⟩
  exact (mem_of_mem_fillTlb hmem).imp_right fun h => (List.mem_filter.1 h).1

theorem pageWalk_fails {s : State} {va : Word} {c : Cause} (hva : va.toNat < rsvdBase)
    (h : (s.walkBy (some s.me.die) s.me.st.vi va.toNat).2 = .error c) (write : Bool) :
    ∃ free l2 ptrs, exec (.pageWalk va write) s = .next { s with free := free, l2 := l2, ptrs := ptrs } := by
  obtain ⟨free, l2, ptrs, hw⟩ := walkBy_otherPages s va.toNat
  rw [h] at hw
  exact ⟨free, l2, ptrs, pageWalk_error hva (xlate_error (otherPages_miss s va.toNat write) hw)⟩

end Sys2Proof.Machine
end

section
/-!
SUPPORT. Serviced faults and their stall wire (R76, R355), shootdowns (R69, R70), and the statement about translation.
-/

namespace Sys2Proof.Machine

/-! ### The core that holds a fault (R419) -/

/-- A fault that waits on a cluster stands for its gang. -/
theorem gangFaults_of_held {s : State} {h : Held} (hrun : s.me.status ≠ .idle) (hmem : h ∈ s.me.st.held) (hopen : h.open' = true) :
    s.gangFaults s.me.st.node = true := by
  have hany : s.me.st.held.any Held.open' = true := List.any_eq_true.2 ⟨h, hmem, hopen⟩
  exact List.any_eq_true.2 ⟨s.me, List.mem_cons_self, by simp [hrun, hany]⟩

/-- With no event waiting the pool only frees cores, and a core keeps a fault that stands. -/
theorem pool_quiet (s : State) (h : s.fe.events = []) : ∃ cores, s.pool = { s with fe := { s.fe with cores := cores } } ∧
    ∀ k node, (k, Event.fault node) ∈ s.fe.cores → s.gangFaults node = true → (k, Event.fault node) ∈ cores := by
  simp only [State.pool, h, List.length_nil, State.takeEvents]
  exact ⟨_, rfl, fun k node hmem hfault => List.mem_filter.2 ⟨hmem, hfault⟩⟩

/-! ### The answer to a fault (R76) -/

/-- The answer goes to the first fault that waits. -/
theorem answerHeld_first (ok : Bool) {pre : List Held} {h : Held} (post : List Held) (hpre : ∀ x ∈ pre, x.open' = false)
    (hopen : h.open' = true) :
    answerHeld ok (pre ++ h :: post) = pre ++ { h with serviced := ok, declined := !ok } :: post := by
  induction pre with
  | nil => exact if_pos hopen
  | cons x r ih =>
    have hx : x.open' = false := hpre x List.mem_cons_self
    refine (if_neg (Bool.eq_false_iff.1 hx)).trans ?_
    exact congrArg (x :: ·) (ih fun y hy => hpre y (List.mem_cons_of_mem _ hy))

/-- One page-table word at its home. -/
def State.writePte (s : State) (x : Nat × BitVec 64) : State :=
  if x.1 % 8 = 0 ∧ (apert x.1 = .linear ∨ apert x.1 = .interleaved) then s.baseWrite (canon x.1) (leBytes 8 x.2.toNat) else s

theorem writePtes_eq_foldl (s : State) (l : List (Nat × BitVec 64)) : s.writePtes l = l.foldl State.writePte s := rfl

/-- Bytes that poison no line and cure none: a write of less than a line changes memory and its slice. -/
theorem baseWrite_eq (s : State) (a : Nat) (bs : List Byte) (h : bs.length ≠ 64) :
    ∃ free l2, s.baseWrite a bs = { s with mem := s.mem.writeN a bs, l2 := l2, free := free } := by
  rw [State.baseWrite, if_neg h]
  exact ⟨_, _, l2Use_frame ..⟩

theorem writePte_eq (s : State) (x : Nat × BitVec 64) : ∃ mem l2 free, s.writePte x = { s with mem := mem, l2 := l2, free := free } ∧
    ∀ b, (b < canon x.1 ∨ canon x.1 + 8 ≤ b) → mem.read b = s.mem.read b := by
  rw [State.writePte]
  split
  · obtain ⟨free, l2, h⟩ := baseWrite_eq s (canon x.1) (leBytes 8 x.2.toNat) (by simp)
    exact ⟨_, l2, free, h, fun b hb => s.mem.read_writeN_outside _ b _ (by simpa using hb)⟩
  · exact ⟨s.mem, s.l2, s.free, rfl, fun _ _ => rfl⟩

theorem writePtes_eq (l : List (Nat × BitVec 64)) : ∀ s : State, ∃ mem l2 free,
    s.writePtes l = { s with mem := mem, l2 := l2, free := free } ∧
    ∀ b, (∀ w ∈ l, b < canon w.1 ∨ canon w.1 + 8 ≤ b) → mem.read b = s.mem.read b := by
  induction l with
  | nil => exact fun s => ⟨s.mem, s.l2, s.free, rfl, fun _ _ => rfl⟩
  | cons x r ih =>
    intro s
    obtain ⟨mem, l2, free, hx, hread⟩ := writePte_eq s x
    obtain ⟨mem', l2', free', hr, hread'⟩ := ih (s.writePte x)
    refine ⟨mem', l2', free', ?_, fun b hb => ?_⟩
    · rw [writePtes_eq_foldl, List.foldl_cons, ← writePtes_eq_foldl, hr, hx]
    · rw [hread' b fun w hw => hb w (List.mem_cons_of_mem _ hw), hx]
      exact hread b (hb x List.mem_cons_self)

/-- An aligned word in stacked DRAM reads back. -/
theorem writePtes_readN (s : State) {a : Nat} (v : BitVec 64) (halign : a % 8 = 0) (hlinear : apert a = .linear) :
    (s.writePtes [(a, v)]).mem.readN a 8 = leBytes 8 v.toNat := by
  have hcanon : canon a = a := by
    refine if_neg fun h => ?_
    have hlow : ¬ a < dramTop := by simp only [ilBase, dramTop] at *; omega
    simp [apert, hlow, h] at hlinear
  have hw : s.writePtes [(a, v)] = s.baseWrite a (leBytes 8 v.toNat) := by
    rw [writePtes_eq_foldl, List.foldl_cons, List.foldl_nil, State.writePte, if_pos ⟨halign, .inl hlinear⟩, hcanon]
  rw [hw, baseWrite_mem]
  simpa using s.mem.readN_writeN a (leBytes 8 v.toNat)

/-- FAULT_SERVICE by the core that holds the fault, where the tables may take the words. -/
theorem faultService_answers {s : State} {ok : Bool} {ws : List (Nat × Word)} (hopen : s.me.st.held.any Held.open' = true)
    (hholds : s.pool.holds (.fault s.me.st.node) = true) (hmay : ok = true → s.pool.mayRemap ws = true) :
    exec (.faultService ok ws) s = .next (((if ok then s.pool.writePtes ws else s.pool).updSt fun t =>
      { t with held := answerHeld ok t.held }).handled (.fault s.me.st.node)) := by
  have hgo : (s.me.st.held.any Held.open' && s.pool.holds (.fault s.me.st.node) && !(ok && !s.pool.mayRemap ws)) = true := by
    cases ok
    · simp [hopen, hholds]
    · simp [hopen, hholds, hmay rfl]
  exact if_pos hgo

section
variable {s : State} {pre post : List Held} {h : Held} (hheld : s.me.st.held = pre ++ h :: post)
  (hpre : ∀ x ∈ pre, x.open' = false) (hopen : h.open' = true) (hrun : s.me.status ≠ .idle) (hquiet : s.fe.events = [])
  (hcore : ∃ k, (k, Event.fault s.me.st.node) ∈ s.fe.cores)
include hheld hopen hrun hquiet hcore

/-- The core of a fault that stands still holds it as the pool goes on. -/
theorem pool_keeps_fault : ∃ cores, s.pool = { s with fe := { s.fe with cores := cores } } ∧
    s.pool.holds (.fault s.me.st.node) = true ∧ s.me.st.held.any Held.open' = true := by
  have hmem : h ∈ s.me.st.held := by rw [hheld]; simp
  obtain ⟨k, hk⟩ := hcore
  obtain ⟨cores, hpool, hkeeps⟩ := pool_quiet s hquiet
  refine ⟨cores, hpool, ?_, List.any_eq_true.2 ⟨h, hmem, hopen⟩⟩
  rw [hpool]
  exact List.any_eq_true.2 ⟨_, hkeeps k _ hk (gangFaults_of_held hrun hmem hopen), by simp⟩

include hpre

/-- The pager declines: nothing but the answer and the cores changes. -/
theorem faultService_declines (ws : List (Nat × Word)) : ∃ cores, exec (.faultService false ws) s =
    .next ({ s with fe := { s.fe with cores := cores } }.updSt fun t =>
      { t with held := pre ++ { h with serviced := false, declined := true } :: post }) := by
  obtain ⟨cores, hpool, hholds, hany⟩ := pool_keeps_fault hheld hopen hrun hquiet hcore
  have hans := answerHeld_first false post hpre hopen
  rw [← hheld] at hans
  rw [faultService_answers hany hholds (fun h => absurd h Bool.false_ne_true), hpool]
  obtain ⟨cores', hdone⟩ := handled_quiet (State.updSt { s with fe := { s.fe with cores := cores } } fun t =>
    { t with held := answerHeld false t.held }) (.fault s.me.st.node) hquiet
  refine ⟨cores', congrArg Host.Outcome.next (hdone.trans ?_)⟩
  simp only [State.updSt, hans]
  rfl

/-- The front end services the fault: its words stand at their homes as well. -/
theorem faultService_services {ws : List (Nat × Word)} (hmay : s.pool.mayRemap ws = true) : ∃ mem l2 free cores,
    exec (.faultService true ws) s = .next ({ s with mem := mem, l2 := l2, free := free, fe := { s.fe with cores := cores } }.updSt fun t =>
      { t with held := pre ++ { h with serviced := true, declined := false } :: post }) ∧
    (∀ b, (∀ w ∈ ws, b < canon w.1 ∨ canon w.1 + 8 ≤ b) → mem.read b = s.mem.read b) ∧
    ∀ a v, ws = [(a, v)] → a % 8 = 0 → apert a = .linear → mem.readN a 8 = leBytes 8 v.toNat := by
  obtain ⟨cores, hpool, hholds, hany⟩ := pool_keeps_fault hheld hopen hrun hquiet hcore
  have hans := answerHeld_first true post hpre hopen
  rw [← hheld] at hans
  rw [faultService_answers hany hholds (fun _ => hmay), hpool]
  obtain ⟨mem, l2, free, hw, hread⟩ := writePtes_eq ws { s with fe := { s.fe with cores := cores } }
  have hword : ∀ a v, ws = [(a, v)] → a % 8 = 0 → apert a = .linear → mem.readN a 8 = leBytes 8 v.toNat := by
    rintro a v rfl halign hlinear
    have := writePtes_readN { s with fe := { s.fe with cores := cores } } v halign hlinear
    rwa [hw] at this
  rw [if_pos rfl, hw]
  obtain ⟨cores', hdone⟩ := handled_quiet (State.updSt { s with
    mem := mem, l2 := l2, free := free, fe := { s.fe with cores := cores } } fun t =>
    { t with held := answerHeld true t.held }) (.fault s.me.st.node) hquiet
  refine ⟨mem, l2, free, cores', congrArg Host.Outcome.next (hdone.trans ?_), hread, hword⟩
  simp only [State.updSt, hans]
  rfl

end

/-! ### The stall wire (R355) -/

theorem foldl_refetch_none {l : List Cluster} (hl : ∀ c ∈ l, c.st.refetching = false) (s : State) :
    l.foldl (fun s c => if c.st.refetching then s.onCluster c.die c.clus State.refetchAll else s) s = s := by
  induction l with
  | nil => rfl
  | cons c r ih =>
    rw [List.foldl_cons, hl c List.mem_cons_self]
    exact ih fun x hx => hl x (List.mem_cons_of_mem _ hx)

/-- The wire falls once every fault of the gang has its answer; where no refetch waits, only the answers that a pager declined
stay. -/
theorem stallWireRelease_answered {s : State} (hwire : s.me.st.node ∈ s.stallWires) (hrun : s.me.status ≠ .idle)
    (hdone : ∀ c ∈ s.gangClusters, c.st.refetching = false ∧ ∀ h ∈ c.st.held, h.open' = false) :
    ∃ t, exec .stallWireRelease s = .next t ∧ t.stallWires = s.stallWires.filter (fun n => decide (n ≠ s.me.st.node)) ∧
      t.me.st = { s.me.st with held := s.me.st.held.filter fun h => h.declined } ∧ t.mem = s.mem := by
  have hopen : (s.gangClusters.any fun c => c.st.held.any Held.open') = false := by
    simp only [List.any_eq_false, Bool.not_eq_true]
    exact fun c hc => (hdone c hc).2
  have hgo : (s.stallWires.contains s.me.st.node && !s.gangClusters.any fun c => c.st.held.any Held.open') = true := by
    simp [hwire, hopen]
  have hme : s.inGang s.me = true := by simp [State.inGang, hrun]
  refine ⟨_, (if_pos hgo).trans (congrArg Host.Outcome.next (foldl_refetch_none (fun c hc => (hdone c hc).1) _)), rfl, ?_, rfl⟩
  exact congrArg Cluster.st (if_pos hme)

/-! ### Shootdowns (R69, R70) -/

/-- What a shootdown word of a scope writes to SYS_SDCTL: the scope, and GO. -/
def sdOrder (scope : Nat) (v : Word) : Word := (v &&& ~~~6) ||| BitVec.ofNat 64 (2 * scope) ||| 1

theorem sdOrder_go (scope : Nat) (v : Word) : (sdOrder scope v).getLsbD 0 = true := by simp [sdOrder]

theorem shootdown_down {s : State} (h : s.hostUp = false) (scope : Nat) (v : Word) : shootdown scope v s = .next s := by
  rw [shootdown, h]; rfl

theorem shootdown_up {s : State} (h : s.hostUp = true) (scope : Nat) (v : Word) :
    shootdown scope v s = .next (s.sdWrite (sdOrder scope v)) := by
  rw [shootdown, h]; rfl

theorem sdWrite_ignored {s : State} {w : Word} (hgo : w.getLsbD 0 = true)
    (h : s.fe.sdctl.getLsbD 0 = true ∨ w.toNat / 8 % 4 = 3) : s.sdWrite w = s := by
  refine if_pos ?_
  rcases h with h | h <;> simp [h, hgo]

/-- A write with GO starts a shootdown from the state in which the register holds it. -/
theorem sdWrite_starts {s : State} {w : Word} (hgo : w.getLsbD 0 = true) (hidle : s.fe.sdctl.getLsbD 0 = false)
    (hsize : w.toNat / 8 % 4 ≠ 3) : ∃ ctl, ctl.getLsbD 0 = true ∧
      s.sdWrite w = State.sdStart { s with fe := { s.fe with sdctl := ctl } } w := by
  refine ⟨(w &&& sdMask) ||| if w.getLsbD 12 then 0 else s.fe.sdctl &&& 0x1000, ?_, ?_⟩
  · have hmask : sdMask.getLsbD 0 = true := by decide
    rw [BitVec.getLsbD_or, BitVec.getLsbD_and, hgo, hmask]
    rfl
  · have hwrite : ¬ (s.fe.sdctl.getLsbD 0 || (w.getLsbD 0 && decide (w.toNat / 8 % 4 = 3))) = true := by
      rw [hidle, decide_eq_false hsize, Bool.and_false]; decide
    exact (if_neg hwrite).trans (if_pos hgo)

theorem l1Flush_around (s : State) (l : L1Line) : (s.l1Flush l).around = s.around := by
  rw [State.l1Flush]
  split
  · exact homeWrite_around ..
  · rfl

theorem l1Flushes_around (l : List L1Line) : ∀ s : State, (l.foldl State.l1Flush s).around = s.around := by
  induction l with
  | nil => exact fun _ => rfl
  | cons x r ih => exact fun s => (ih _).trans (l1Flush_around s x)

/-- FLUSH leaves the front end and the strands alone. -/
theorem sdFlush_frame (s : State) (v : Word) : (s.sdFlush v).fe = s.fe ∧ (s.sdFlush v).me.st = s.me.st := by
  have h := l1Flushes_around (s.clusters.flatMap fun c => c.l1.filter (s.sdLine v)) s
  have hfe := fe_of_around h
  have hst := congrArg Cluster.st (me_of_around h)
  exact ⟨hfe, hst⟩

/-- The part of the start of a shootdown that comes before translations go. -/
def State.sdFlushed (s : State) (v : Word) : State := if v.getLsbD 13 then s.sdFlush v else s

theorem sdFlushed_frame (s : State) (v : Word) : (s.sdFlushed v).fe = s.fe ∧ (s.sdFlushed v).me.st = s.me.st := by
  rw [State.sdFlushed]
  split
  · exact sdFlush_frame s v
  · exact ⟨rfl, rfl⟩

/-- The clusters once a shootdown has started: only translations go, behind the flush. -/
theorem sdStart_clusters (s : State) (v : Word) : (s.sdStart v).clusters = (s.sdFlushed v).clusters.map fun c =>
    { c with tlb := c.tlb.filter fun e => !s.sdCovers v e.vi e.va e.size } := rfl

theorem sdStart_me (s : State) (v : Word) : (s.sdStart v).me = { (s.sdFlushed v).me with
    tlb := (s.sdFlushed v).me.tlb.filter fun e => !s.sdCovers v e.vi e.va e.size } := rfl

theorem sdStart_mem (s : State) (v : Word) : (s.sdStart v).mem = (s.sdFlushed v).mem := rfl

/-- No translation of the scope stands in any TLB. -/
theorem sdStart_uncovers (s : State) (v : Word) : ∀ c ∈ (s.sdStart v).clusters, ∀ e ∈ c.tlb, s.sdCovers v e.vi e.va e.size = false := by
  intro c hc e he
  rw [sdStart_clusters] at hc
  obtain ⟨c', -, rfl⟩ := List.mem_map.1 hc
  simpa using (List.mem_filter.1 he).2

/-- The start may set PINNED; GO stays as the write has set it. -/
theorem sdStart_go (s : State) (v : Word) : (s.sdStart v).fe.sdctl.getLsbD 0 = s.fe.sdctl.getLsbD 0 := by
  have hctl : (s.sdStart v).fe.sdctl = if s.sdPinned v then (s.sdFlushed v).fe.sdctl ||| 0x1000 else (s.sdFlushed v).fe.sdctl := rfl
  rw [hctl, (sdFlushed_frame s v).1]
  split
  · rw [BitVec.getLsbD_or]; exact Bool.or_false _
  · rfl

/-- A shootdown word that finds the register free and asks for a page size. -/
theorem shootdown_starts {s : State} {scope : Nat} {v : Word} (hup : s.hostUp = true) (hidle : s.fe.sdctl.getLsbD 0 = false)
    (hsize : (sdOrder scope v).toNat / 8 % 4 ≠ 3) : ∃ t, shootdown scope v s = .next t ∧ t.fe.sdctl.getLsbD 0 = true ∧
      (∀ c ∈ t.clusters, ∀ e ∈ c.tlb, s.sdCovers (sdOrder scope v) e.vi e.va e.size = false) ∧ t.me.st = s.me.st ∧
      ((sdOrder scope v).getLsbD 13 = false → t.mem = s.mem ∧ t.me.l1 = s.me.l1 ∧
        ∀ e ∈ s.me.tlb, s.sdCovers (sdOrder scope v) e.vi e.va e.size = false → e ∈ t.me.tlb) := by
  obtain ⟨ctl, hctl, hstart⟩ := sdWrite_starts (sdOrder_go scope v) hidle hsize
  refine ⟨_, (shootdown_up hup scope v).trans (congrArg Host.Outcome.next hstart), ?_, sdStart_uncovers _ _, ?_, fun hflush => ?_⟩
  · rw [sdStart_go]; exact hctl
  · rw [sdStart_me]; exact (sdFlushed_frame _ _).2
  · rw [sdStart_mem, sdStart_me, State.sdFlushed, hflush]
    exact ⟨rfl, rfl, fun e he hout => List.mem_filter.2 ⟨he, congrArg Bool.not hout⟩⟩

/-- Whether a strand that the start of a shootdown marked still owes an access of its scope. -/
def State.sdOwed (s : State) : Bool :=
  s.fe.sdMarks.any fun m => s.strands.any fun t =>
    decide (t.node = m.1) && decide (t.idx = m.2.1) && s.sdOwes s.fe.sdctl t m.2.2

theorem sdOwed_iff (s : State) : s.sdOwed = true ↔
    ∃ m ∈ s.fe.sdMarks, ∃ t ∈ s.strands, t.node = m.1 ∧ t.idx = m.2.1 ∧ s.sdOwes s.fe.sdctl t m.2.2 = true := by
  simp only [State.sdOwed, List.any_eq_true, Bool.and_eq_true, decide_eq_true_eq, and_assoc]

theorem shootdownComplete_owed {s : State} (h : s.sdOwed = true) : exec .shootdownComplete s = .next s := by
  have hno : ¬ (s.fe.sdctl.getLsbD 0 && !s.sdOwed) = true := by simp [h]
  exact if_neg hno

theorem shootdownComplete_paid {s : State} (hgo : s.fe.sdctl.getLsbD 0 = true) (h : s.sdOwed = false) :
    exec .shootdownComplete s = .next { s with fe := { s.fe with sdctl := s.fe.sdctl &&& ~~~1, sdMarks := [] } } := by
  have hend : (s.fe.sdctl.getLsbD 0 && !s.sdOwed) = true := by simp [hgo, h]
  exact if_pos hend

/-- Settles O51: each kind of step by the lemma that says it once; the four shootdown words are one operation at four scopes. -/
theorem translationSteps : Obligations.TranslationSteps := by
  unfold Obligations.TranslationSteps
  refine ⟨?walk, ?service, ?wire, ?shootdown, ?complete⟩
  case walk =>
    intro s va write hva vi walk
    refine ⟨fun h => walkBy_uncached h _, fun l hl => ?_, fun c hc => pageWalk_fails hva hc write⟩
    obtain ⟨tlb, free, l2, ptrs, seen, hx, hmem, hold⟩ := pageWalk_finds hva hl write
    exact ⟨tlb, free, l2, ptrs, seen, _, hx, hmem, rfl, rfl, rfl, rfl, rfl, rfl, hold⟩
  case service =>
    intro s pre post h ws hheld hpre hopen hrun hquiet hcore
    exact ⟨faultService_declines hheld hpre hopen hrun hquiet hcore ws, faultService_services hheld hpre hopen hrun hquiet hcore⟩
  case wire => exact fun s => stallWireRelease_answered
  case shootdown =>
    have busy : ∀ (s : State) (scope : Nat) (v : Word),
        s.fe.sdctl.getLsbD 0 = true ∨ (sdOrder scope v).toNat / 8 % 4 = 3 → shootdown scope v s = .next s := by
      intro s scope v h
      cases hup : s.hostUp with
      | false => exact shootdown_down hup scope v
      | true => rw [shootdown_up hup, sdWrite_ignored (sdOrder_go scope v) h]
    intro row hrow s v w
    simp only [List.mem_cons, List.not_mem_nil, or_false] at hrow
    rcases hrow with rfl | rfl | rfl | rfl <;>
      exact ⟨fun h => shootdown_down h _ v, busy s _ v, fun hup hidle hsize => shootdown_starts hup hidle hsize⟩
  case complete =>
    intro s hgo owes
    refine ⟨fun h => shootdownComplete_paid hgo ?_, fun h => shootdownComplete_owed ((sdOwed_iff s).2 h)⟩
    rw [Bool.eq_false_iff, Ne, sdOwed_iff]
    exact fun ⟨m, hm, t, ht, hto⟩ => h m hm t ht hto

end Sys2Proof.Machine
end

section
/-!
SUPPORT. The words that order the access side: atomics behind the gates of their order suffix (R129, R143, R144), and the words
that place markers and gates or join a queue (R124, R125, R130 to R134); and the statements about them.
-/

namespace Sys2Proof.Machine

/-! ### The state that the checks of an access leave -/

section
variable {s s1 : State} {ea : Word} {n : Nat} {w : Bool} {tag : Option (BitVec 20)} {pl : Place} (h : s.finds ea n w tag s1 pl)
include h

/-- An access that checked its own address before the checks of its place goes on where these pass. -/
theorem located_finds (k : Place → State → Out) :
    located ea n w tag s (fun pl s => k pl (s.updSt fun t => t.release .c)) = k pl s1 := by
  obtain ⟨_, _, s0, hlook, rfl⟩ := h
  rw [located, hlook]

theorem finds_getG (r : Reg) : s1.getG r = s.getG r := by
  rw [State.getG, State.ctl, finds_st h]; rfl

theorem finds_seq : s1.me.st.seq = s.me.st.seq := by
  rw [finds_st h]; rfl

theorem finds_squ : s1.me.st.squ = s.me.st.squ := by
  rw [finds_st h]; rfl

end

/-! ### Atomics (R129, R143, R144) -/

/-- The atomic words are one operation at ten functions. -/
theorem exec_atomicRow {row : (PGuard → AtomOps → Instr) × AOp} (hrow : row ∈ atomicRows) (g : PGuard) (o : AtomOps) (s : State) :
    exec (row.1 g o) s = atomic row.2 g o s := by
  simp only [atomicRows, List.mem_cons, List.not_mem_nil, or_false] at hrow
  rcases hrow with rfl | rfl | rfl | rfl | rfl | rfl | rfl | rfl | rfl | rfl <;> rfl

/-- An atomic whose guard holds, whose result no log holds and whose registers are bound is issued (R19, R198, R398). -/
theorem atomic_ready {op : AOp} {g : PGuard} {o : AtomOps} {s : State} (hg : s.ctl.pguard g = true) (hlog : s.unlogged)
    (hb : s.me.st.pending (if op = .cas then [o.a, o.b, o.d] else [o.a, o.b]) = false) :
    atomic op g o s = issueAtomic op o s :=
  (if_pos hg).trans ((replayed_unlogged s _ hlog).trans (reading_bound _ s _ hb))

/-- The entry of an atomic at address `ea` with place `pl`, its operands as they stand, and the gates of its order. -/
def queueAtomic (op : AOp) (o : AtomOps) (ea : Word) (pl : Place) (s : State) : Out :=
  issueSGated (.atomic op o.d ea pl o.d64 (s.getG o.b) (s.getG o.d) o.sc o.ord) o.d (orderGates o.ord) s

/-- Outside the window an aligned atomic goes on to the checks of its place, and then joins S (R144). -/
theorem issueAtomic_aligned (op : AOp) {o : AtomOps} {s : State} (hin : (s.atomicAddr o).toNat < 2 ^ 56)
    (halign : (s.getG o.a).toNat % atomBytes o = 0) (hout : (s.atomicAddr o).toNat < spadBase) :
    issueAtomic op o s = located (s.atomicAddr o) (atomBytes o) true none s fun pl s0 =>
      queueAtomic op o (s.atomicAddr o) pl (s0.updSt fun t => t.release .c) := by
  have hbase : ¬ (s.getG o.a).toNat % atomBytes o ≠ 0 := not_not_intro halign
  unfold State.atomicAddr atomBytes at *
  simp only [issueAtomic, if_neg (Nat.not_le.2 hin), if_neg hbase, if_neg (Nat.not_le.2 hout), queueAtomic]

/-- Where the place is found and S has room, the atomic stands at the tail of S with the gates of its order. -/
theorem issueAtomic_finds (op : AOp) {o : AtomOps} {s s1 : State} {pl : Place} (hs : s.straight)
    (halign : (s.getG o.a).toNat % atomBytes o = 0) (hout : (s.atomicAddr o).toNat < spadBase)
    (hfinds : s.finds (s.atomicAddr o) (atomBytes o) true none s1 pl) (hroom : hasRoom s.me.st.squ) :
    issueAtomic op o s =
      .next (s1.pushS (.atomic op o.d (s.atomicAddr o) pl o.d64 (s.getG o.b) (s.getG o.d) o.sc o.ord) o.d 0
        (orderGates o.ord s.me.st.seq)).fell := by
  have hroom1 : hasRoom s1.me.st.squ := by rw [finds_squ hfinds]; exact hroom
  rw [issueAtomic_aligned op hfinds.1 halign hout, located_finds hfinds (queueAtomic op o _), queueAtomic,
    issueSGated_room _ _ _ _ (finds_straight hfinds hs) hroom1, finds_getG hfinds, finds_getG hfinds, finds_seq hfinds]

/-- Settles O10: the ten words are one operation, which issues where its checks pass. -/
theorem atomicsIssue : Obligations.AtomicsIssue := by
  intro row hrow s s1 pl g o hg hb hs hlog halign hout hfinds hroom n gates
  have hgates : gates = orderGates o.ord n := rfl
  rw [exec_atomicRow hrow, atomic_ready hg hlog hb, issueAtomic_finds row.2 hs halign hout hfinds hroom, hgates]

/-! ### Markers (R124, R125, R130, R131) -/

/-- Adding one entry to each queue of a list that names none twice. -/
theorem foldl_setQueue_append (x : Entry) (qs : List Eng) (hqs : qs.Nodup) (t : Strand) :
    qs.foldl (fun u e => u.setQueue e (u.queue e ++ [x])) t =
      { t with lqu := if .l ∈ qs then t.lqu ++ [x] else t.lqu, squ := if .sq ∈ qs then t.squ ++ [x] else t.squ,
               kqu := if .k ∈ qs then t.kqu ++ [x] else t.kqu } := by
  induction qs generalizing t with
  | nil => rfl
  | cons e qs ih =>
    obtain ⟨he, hqs⟩ := List.nodup_cons.1 hqs
    rw [List.foldl_cons, ih hqs]
    cases e <;> simp [Strand.setQueue, Strand.queue, he]

/-- With room in each queue of the list, a marker stands at their tails and the gates behind it. -/
theorem issueMarker_room {qs : List Eng} (hqs : qs.Nodup) (gates : Nat → List Gate) {s : State} (hs : s.straight)
    (hroom : ∀ e ∈ qs, hasRoom (s.me.st.queue e)) :
    issueMarker qs gates s = .next (s.marked qs (gates (s.me.st.seq + 1))).fell := by
  have hfull : ¬ (qs.any fun e => queueFull (s.me.st.queue e)) = true := by
    rw [List.any_eq_true]
    rintro ⟨e, he, hfull⟩
    exact absurd (hroom e he) (by rw [hasRoom, hfull]; decide)
  refine (if_neg hfull).trans ?_
  simp only [foldl_setQueue_append _ qs hqs]
  exact done_straight (s.marked qs (gates (s.me.st.seq + 1))) (straight_of_ctl rfl rfl rfl hs)

/-- A word that is a marker under its guard places it in the queues of its list, once the guard holds. -/
theorem guarded_issueMarker {g : Guard} {qs : List Eng} (hqs : qs.Nodup) (gates : Nat → List Gate) {s : State}
    (h : s.ready g []) (hroom : ∀ e ∈ qs, hasRoom (s.me.st.queue e)) :
    guarded g s (issueMarker qs gates) = .next (s.marked qs (gates (s.me.st.seq + 1))).fell := by
  obtain ⟨hg, -, hs⟩ := h
  rw [guarded_true g s _ hg, issueMarker_room hqs gates hs hroom]

/-- Settles O12: MARK, SBAR and FENCE are one marker with their own queues and gates; DRAINNT and CINV are plain entries. -/
theorem orderWords : Obligations.OrderWords := by
  unfold Obligations.OrderWords
  refine ⟨?mark, ?barriers, ?drainnt, ?cinv⟩
  case mark =>
    intro s g h hl hsq
    exact guarded_issueMarker (by decide) _ h (by simp [Strand.queue, hl, hsq])
  case barriers =>
    intro s g h hl hsq hk n
    have marker (gates : Nat → List Gate) :
        guarded g s (issueMarker [.l, .sq, .k] gates) = .next (s.marked [.l, .sq, .k] (gates n)).fell :=
      guarded_issueMarker (by decide) gates h (by simp [Strand.queue, hl, hsq, hk])
    exact ⟨fun stm => marker fun n => [sbarGate stm n], fun sc ord => marker (fenceGates sc ord)⟩
  case drainnt =>
    intro s g sc ⟨hg, _, hs⟩ hroom
    exact (guarded_true g s _ hg).trans (issueS_room _ 0 0 s hs hroom)
  case cinv =>
    intro s g ⟨hg, _, hs⟩ hroom
    exact (guarded_true g s _ hg).trans (issueL_room _ 0 s hs hroom)

end Sys2Proof.Machine
end

section
/-!
SUPPORT. The words of the barrier slots (R147 to R153): a signal whose checks pass joins S, a wait goes on or stays where it is;
and the statement about them.
-/

namespace Sys2Proof.Machine

/-! ### Signals join S (R147, R149, R153) -/

/-- A word that a log may answer, whose guard holds, whose result no log holds and whose registers are bound, goes on (R398). -/
theorem guarded_replayed_reading {g : Guard} {rs : List Reg} {s : State} (h : s.ready g rs) (hlog : s.unlogged)
    (k : State → Out) : guarded g s (fun s => replayed s fun s => reading rs s k) = k s := by
  obtain ⟨hg, hb, -⟩ := h
  rw [guarded_true g s _ hg, replayed_unlogged s _ hlog, reading_bound rs s k hb]

/-- A slot word whose arguments pass both checks of R149 goes on. -/
theorem slotArgs_pass {bits target : Bool} (hbits : bits = true) (htarget : target = true) (s : State) (k : State → Out) :
    slotArgs bits target s k = k s := by
  rw [hbits, htarget]; rfl

/-- A signal whose arguments pass joins S behind its release gate (R153). -/
theorem slotArgs_signal {s : State} (hs : s.straight) (hroom : hasRoom s.me.st.squ) {bits target : Bool}
    (hbits : bits = true) (htarget : target = true) (cmd : State → Cmd) :
    slotArgs bits target s (fun s => issueSGated (cmd s) 0 (fun n => [releaseGate n]) s) =
      .next (s.pushS (cmd s) 0 0 [releaseGate s.me.st.seq]).fell := by
  rw [slotArgs_pass hbits htarget, issueSGated_room _ _ _ s hs hroom]

/-! ### Waits (R151, R153) -/

@[simp] theorem acquired_st (s : State) (sc : Scope) : (s.acquired sc).me.st = s.me.st := by
  unfold State.acquired
  split <;> rfl

theorem acquired_ctl (s : State) (sc : Scope) : (s.acquired sc).ctl = s.ctl :=
  congrArg Strand.ctl (acquired_st s sc)

theorem acquired_straight {s : State} (sc : Scope) (h : s.straight) : (s.acquired sc).straight := by
  have hctl := acquired_ctl s sc
  exact straight_of_ctl (by rw [hctl]) (by rw [hctl]) (by rw [hctl]) h

/-- A wait whose argument passes its check goes on with the acquire of its scope where `reached` holds, and stalls elsewhere. -/
theorem waiting_on_slot {g : Guard} {rs : List Reg} {s : State} (h : s.ready g rs) {bits : State → Bool} (hbits : bits s = true)
    (reached : State → Prop) [∀ s, Decidable (reached s)] (sc : Scope) :
    (guarded g s fun s => reading rs s fun s => slotArgs (bits s) true s fun s =>
      if reached s then done (s.acquired sc) else wait s) = if reached s then .next (s.acquired sc).fell else .next s.stalled := by
  obtain ⟨hg, hb, hs⟩ := h
  rw [guarded_true g s _ hg, reading_bound rs s _ hb, slotArgs_pass hbits rfl, done_straight _ (acquired_straight sc hs), wait]

/-- Settles O11: each slot word is its checks of R149 before the issue of a signal, or before the test of a wait. -/
theorem signalsAndWaits : Obligations.SignalsAndWaits := by
  unfold Obligations.SignalsAndWaits
  refine ⟨?signals, ?barinit, ?waits⟩
  case signals =>
    intro s g a slot sc h hlog hroom v
    have ⟨_, _, hs⟩ := h
    have joins (bits target : Bool) (cmd : State → Cmd) (hbits : bits = true) (htarget : target = true) :=
      slotArgs_signal hs hroom hbits htarget cmd
    refine ⟨fun hsc hv hgang => ?_, fun hsc hv htile hpkg => ?_, fun hmask => ?_, fun hv hgang => ?_⟩
    · exact (guarded_replayed_reading h hlog _).trans (joins _ _ _ (by simpa [hsc] using hv) (by simpa [hsc] using hgang))
    · exact (guarded_replayed_reading h hlog _).trans
        (joins _ _ _ (by simpa [hsc] using hv) (by simpa [hsc] using And.intro htile hpkg))
    · exact (guarded_replayed_reading h hlog _).trans (joins _ _ _ rfl (decide_eq_true hmask))
    · exact (guarded_replayed_reading h hlog _).trans (joins _ _ _ (decide_eq_true hv) (decide_eq_true hgang))
  case barinit =>
    intro s g a slot h hlog hroom hgoal hmask
    have ⟨_, _, hs⟩ := h
    calc exec (.barinit g a slot) s
      _ = _ := guarded_replayed_reading h hlog _
      _ = issueS _ 0 0 s := slotArgs_pass (decide_eq_true hgoal) (decide_eq_true hmask) s _
      _ = _ := issueS_room _ 0 0 s hs hroom
  case waits =>
    intro s g a slot sc h v x
    exact ⟨fun hv => waiting_on_slot h (bits := fun s => decide ((s.getG a).toNat < 2 ^ 32)) (decide_eq_true hv)
        (fun s => (s.getG a).toNat ≤ (s.slot s.me.st.node s.me.st.idx slot.toNat).value.toNat) sc,
      fun hv => waiting_on_slot h (bits := fun s => decide ((s.getG a).toNat < 256)) (decide_eq_true hv)
        (fun s => (s.slot s.me.st.node s.me.st.idx slot.toNat).phase.toNat = (s.getG a).toNat) sc⟩

end Sys2Proof.Machine
end

section
/-!
SUPPORT. Slots as tables of counters (R147 to R152): what an addition, a completed round and its fan-out leave at each slot of a
node.
-/

namespace Sys2Proof.Machine

/-! ### One slot is set -/

theorem slotKey_inj {node j j' n n' : Nat} (hn : n < 1024) (hn' : n' < 1024) (h : slotKey node j' n' = slotKey node j n) :
    j' = j ∧ n' = n := by
  unfold slotKey at h
  omega

/-- A slot read after one of its node has been set. -/
theorem setSlot_slot (s : State) (node j : Nat) {n : Nat} (v : Slot) (hn : n < 1024) (j' : Nat) {n' : Nat} (hn' : n' < 1024) :
    (s.setSlot node j n v).slot node j' n' = if j' = j ∧ n' = n then v else s.slot node j' n' := by
  split
  · next h => rw [h.1, h.2, State.setSlot_same]
  · next h => exact Sp.get_set_other _ _ _ _ _ _ fun hkey => h (slotKey_inj hn hn' hkey)

/-! ### The fan-out of a phase (R150, R152) -/

/-- What the fan-out does at strand `j`: PHASE is set there, or the dropped updates are counted. -/
def State.fanOutAt (s : State) (node n mask : Nat) (phase : BitVec 8) (rounds j : Nat) : State :=
  if mask / 2 ^ j % 2 = 0 then s
  else if s.strandDone node j then s.dropSync (s.strandDie node j) rounds
  else s.setSlot node j n { s.slot node j n with phase := phase }

theorem setPhases_cons (s : State) (node n mask : Nat) (phase : BitVec 8) (rounds j : Nat) (js : List Nat) :
    s.setPhases node n mask phase rounds (j :: js) =
      (s.fanOutAt node n mask phase rounds j).setPhases node n mask phase rounds js := rfl

theorem fanOutAt_me (s : State) (node n mask : Nat) (phase : BitVec 8) (rounds j : Nat) :
    (s.fanOutAt node n mask phase rounds j).me = s.me := by
  unfold State.fanOutAt
  split
  · rfl
  · split <;> rfl

theorem fanOutAt_disp (s : State) (node n mask : Nat) (phase : BitVec 8) (rounds j : Nat) :
    (s.fanOutAt node n mask phase rounds j).disp = s.disp := by
  unfold State.fanOutAt
  split
  · rfl
  · split <;> rfl

theorem setPhases_me (s : State) (node n mask : Nat) (phase : BitVec 8) (rounds : Nat) (js : List Nat) :
    (s.setPhases node n mask phase rounds js).me = s.me := by
  induction js generalizing s with
  | nil => rfl
  | cons j js ih => rw [setPhases_cons, ih, fanOutAt_me]

/-- Whether a strand takes the phase of a fan-out: the mask names it, and it has not completed. -/
def State.takesPhase (s : State) (node mask j : Nat) : Bool := mask.testBit j && !s.strandDone node j

theorem takesPhase_eq_true (s : State) (node mask j : Nat) :
    s.takesPhase node mask j = true ↔ mask / 2 ^ j % 2 ≠ 0 ∧ s.strandDone node j = false := by
  simp [State.takesPhase, Nat.testBit_eq_decide_div_mod_eq]

theorem takesPhase_fanOutAt (s : State) (node n mask : Nat) (phase : BitVec 8) (rounds j i : Nat) :
    (s.fanOutAt node n mask phase rounds j).takesPhase node mask i = s.takesPhase node mask i := by
  simp only [State.takesPhase, State.strandDone, fanOutAt_disp]

theorem fanOutAt_slot (s : State) (node mask : Nat) {n : Nat} (phase : BitVec 8) (rounds j : Nat) (hn : n < 1024) (i : Nat) :
    (s.fanOutAt node n mask phase rounds j).slot node i n =
      if i = j ∧ s.takesPhase node mask i = true then { s.slot node i n with phase := phase } else s.slot node i n := by
  simp only [takesPhase_eq_true]
  unfold State.fanOutAt
  by_cases hnamed : mask / 2 ^ j % 2 = 0
  · rw [if_pos hnamed, if_neg]
    rintro ⟨rfl, hbit, -⟩
    exact hbit hnamed
  · rw [if_neg hnamed]
    cases hdone : s.strandDone node j
    · rw [if_neg Bool.false_ne_true, setSlot_slot s node j _ hn i hn]
      by_cases hi : i = j
      · subst hi
        simp [hnamed, hdone]
      · simp [hi]
    · rw [if_pos rfl, if_neg]
      · rfl
      · rintro ⟨rfl, -, hlive⟩
        exact absurd (hdone.symm.trans hlive) (by decide)

/-- R150: a fan-out over a list of strands sets PHASE at those of them that take it, and nothing else there. -/
theorem setPhases_slot (s : State) (node mask : Nat) {n : Nat} (phase : BitVec 8) (rounds : Nat) (hn : n < 1024) (js : List Nat)
    (i : Nat) :
    (s.setPhases node n mask phase rounds js).slot node i n =
      if i ∈ js ∧ s.takesPhase node mask i = true then { s.slot node i n with phase := phase } else s.slot node i n := by
  induction js generalizing s with
  | nil => rw [if_neg fun h => List.not_mem_nil h.1]; rfl
  | cons j js ih =>
    rw [setPhases_cons, ih, takesPhase_fanOutAt, fanOutAt_slot s node mask phase rounds j hn]
    by_cases htakes : s.takesPhase node mask i = true
    · by_cases hj : i = j
      · subst hj
        simp [htakes]
      · simp [htakes, hj]
    · simp [htakes]

/-! ### The rounds of a slot (R150) -/

/-- R150: a slot after its completion test: VALUE keeps the rest, and PHASE counts the rounds. -/
def Slot.rounds (v : Slot) : Slot :=
  if v.goal.toNat = 0 ∨ v.value.toNat < v.goal.toNat then v
  else { v with value := BitVec.ofNat 32 (v.value.toNat % v.goal.toNat),
                phase := v.phase + BitVec.ofNat 8 (v.value.toNat / v.goal.toNat) }

theorem rounds_of_lt {v : Slot} (h : v.goal.toNat = 0 ∨ v.value.toNat < v.goal.toNat) : v.rounds = v := if_pos h

/-- The slot that is tested holds its rounds, also where the fan-out of their phase reaches it. -/
theorem completeSlot_same (s : State) (node j : Nat) {n : Nat} (hn : n < 1024) :
    (s.completeSlot node j n).slot node j n = (s.slot node j n).rounds := by
  unfold State.completeSlot Slot.rounds
  dsimp only
  split
  · rfl
  · split
    · exact State.setSlot_same ..
    · rw [setPhases_slot _ _ _ _ _ hn, State.setSlot_same, ite_self]

/-- A slot without a fan-out leaves every other slot of the node as it was. -/
theorem completeSlot_other (s : State) (node j : Nat) {n j' n' : Nat} (hn : n < 1024) (hn' : n' < 1024)
    (hfan : (s.slot node j n).fanout = 0) (hne : ¬ (j' = j ∧ n' = n)) :
    (s.completeSlot node j n).slot node j' n' = s.slot node j' n' := by
  simp only [State.completeSlot, if_pos hfan]
  split
  · rfl
  · rw [setSlot_slot _ _ _ _ hn _ hn', if_neg hne]

theorem completeSlot_me (s : State) (node j n : Nat) : (s.completeSlot node j n).me = s.me := by
  unfold State.completeSlot
  dsimp only
  split
  · rfl
  · split
    · rfl
    · exact setPhases_me ..

/-- R150: a slot after an addition to VALUE, which wraps at 32 bits, and the rounds that this completes. -/
def Slot.plus (v : Slot) (amount : Nat) : Slot := { v with value := v.value + BitVec.ofNat 32 amount }.rounds

/-- At a strand that has not completed, FADD and BARV add, and the completion test follows (R150, R152). -/
theorem addSlot_live {s : State} {node j : Nat} (hlive : s.strandDone node j = false) (n amount : Nat) :
    s.addSlot node j n amount =
      (s.setSlot node j n { s.slot node j n with value := (s.slot node j n).value + BitVec.ofNat 32 amount }).completeSlot
        node j n := by
  unfold State.addSlot
  rw [hlive, if_neg Bool.false_ne_true]

theorem addSlot_same {s : State} {node j n : Nat} (hlive : s.strandDone node j = false) (hn : n < 1024) (amount : Nat) :
    (s.addSlot node j n amount).slot node j n = (s.slot node j n).plus amount := by
  rw [addSlot_live hlive, completeSlot_same _ _ _ hn, State.setSlot_same, Slot.plus]

theorem addSlot_other {s : State} {node j n j' n' : Nat} (hlive : s.strandDone node j = false) (hn : n < 1024) (hn' : n' < 1024)
    (amount : Nat) (hfan : (s.slot node j n).fanout = 0) (hne : ¬ (j' = j ∧ n' = n)) :
    (s.addSlot node j n amount).slot node j' n' = s.slot node j' n' := by
  rw [addSlot_live hlive, completeSlot_other _ _ _ hn hn' (by rw [State.setSlot_same]; exact hfan) hne,
    setSlot_slot _ _ _ _ hn _ hn', if_neg hne]

theorem addSlot_me {s : State} {node j : Nat} (hlive : s.strandDone node j = false) (n amount : Nat) :
    (s.addSlot node j n amount).me = s.me := by
  rw [addSlot_live hlive, completeSlot_me, State.setSlot_me]

/-- The addition and its rounds as numbers. -/
theorem Slot.plus_eq (v : Slot) (amount : Nat) :
    let x := (v.value.toNat + amount) % 2 ^ 32
    let goal := v.goal.toNat
    v.plus amount = if goal = 0 ∨ x < goal then { v with value := BitVec.ofNat 32 x }
      else { v with value := BitVec.ofNat 32 (x % goal), phase := v.phase + BitVec.ofNat 8 (x / goal) } := by
  intro x goal
  have hx : (BitVec.ofNat 32 x).toNat = x := Nat.mod_mod ..
  have hword : v.value + BitVec.ofNat 32 amount = BitVec.ofNat 32 x := by
    apply BitVec.eq_of_toNat_eq
    rw [hx, BitVec.toNat_add, BitVec.toNat_ofNat, Nat.add_mod_mod]
  simp only [Slot.plus, Slot.rounds, hword, hx, goal]

end Sys2Proof.Machine
end

section
/-!
SUPPORT. Atomics at their home and slot updates at their engine (R142 to R152), from the step that performs them to the state
that the strand sees; and the statement about them.
-/

namespace Sys2Proof.Machine

/-! ### The head entry has been performed -/

theorem updHead_sq (t : Strand) (f : Entry → Entry) : ∃ q w, t.updHead .sq f = { t with squ := q, wdE := w } := by
  unfold Strand.updHead
  split
  · exact ⟨_, _, rfl⟩
  · exact ⟨t.squ, t.wdE, rfl⟩

/-- Performing the head of S changes that queue and its watchdogs alone. -/
theorem performed_sq_st (s : State) :
    ∃ q w, (s.performed .sq).me.st = { s.me.st with squ := q, wdE := w, wdTag := 0 } := by
  obtain ⟨q, w, h⟩ := updHead_sq s.me.st fun h => { h with stage := .performed }
  exact ⟨q, w, congrArg (Strand.unstallTag · .sq) h⟩

theorem performed_sq_ctl (s : State) : (s.performed .sq).ctl = s.ctl := by
  obtain ⟨_, _, h⟩ := performed_sq_st s
  rw [State.ctl, h]; rfl

theorem performed_sq_spad (s : State) : (s.performed .sq).me.st.spad = s.me.st.spad := by
  obtain ⟨_, _, h⟩ := performed_sq_st s
  rw [h]

/-! ### The result of an atomic (R144) -/

theorem bind_ctl (t : Strand) (d : Reg) (seq : Nat) (v : Word) :
    (t.bind d seq v).ctl = if d ≠ 0 ∧ t.pendDst.get (gIdx d) = some seq then t.ctl.setG d v else t.ctl := by
  unfold Strand.bind
  split <;> rfl

theorem bind_spad (t : Strand) (d : Reg) (seq : Nat) (v : Word) : (t.bind d seq v).spad = t.spad := by
  unfold Strand.bind
  split <;> rfl

theorem setG_p (c : Ctl) (d : Reg) (v : Word) : (c.setG d v).p = c.p := by
  unfold Ctl.setG
  split <;> rfl

/-- The strand once the old value of the atomic `h` has reached it: bound and logged. -/
def State.atomicDone (s : State) (h : Entry) (d : Reg) (v : Word) : State :=
  (s.updSt fun t => (t.bind d h.seq v).logged h.waddr (some (d, v))).performed .sq

/-- An atomic that its home has performed binds the old value, and acquires where its order says so. -/
theorem accDone_atomic {h : Entry} {op : AOp} {d : Reg} {ea : Word} {pl : Place} {d64 : Bool} {v c : Word} {sc : Scope}
    {ord : Order} (hcmd : h.cmd = .atomic op d ea pl d64 v c sc ord) (s : State) (bs : List Byte) :
    s.accDone .sq h (.ok bs) =
      if ord = .acq ∨ ord = .ar then (s.atomicDone h d (BitVec.ofNat 64 (leNat bs))).acquired sc
      else s.atomicDone h d (BitVec.ofNat 64 (leNat bs)) := by
  rw [State.accDone, hcmd]; rfl

/-- What every order of an atomic leaves: the caches are all that an acquire touches. -/
theorem accDone_atomic_frame {h : Entry} {op : AOp} {d : Reg} {ea : Word} {pl : Place} {d64 : Bool} {v c : Word} {sc : Scope}
    {ord : Order} (hcmd : h.cmd = .atomic op d ea pl d64 v c sc ord) (s : State) (bs : List Byte) :
    (s.accDone .sq h (.ok bs)).mem = s.mem ∧
      (s.accDone .sq h (.ok bs)).ctl = (s.me.st.bind d h.seq (BitVec.ofNat 64 (leNat bs))).ctl ∧
      (s.accDone .sq h (.ok bs)).me.st.spad = s.me.st.spad := by
  have hmem (v : Word) : (s.atomicDone h d v).mem = s.mem := rfl
  have hctl (v : Word) : (s.atomicDone h d v).ctl = (s.me.st.bind d h.seq v).ctl := performed_sq_ctl _
  have hspad (v : Word) : (s.atomicDone h d v).me.st.spad = s.me.st.spad := (performed_sq_spad _).trans (bind_spad ..)
  rw [accDone_atomic hcmd]
  split
  · exact ⟨(acquired_mem ..).trans (hmem _), (acquired_ctl ..).trans (hctl _),
      (congrArg Strand.spad (acquired_st ..)).trans (hspad _)⟩
  · exact ⟨hmem _, hctl _, hspad _⟩

/-! ### The home of an atomic (R142, R143) -/

theorem l1Evict_absent {s : State} {line : Nat} (h : s.me.l1Line line = none) : s.l1Evict line = s := by
  rw [State.l1Evict, h]

/-- A write that selects no cell goes to base memory (R118, R162). -/
theorem homeWrite_noCell (s : State) (pa : Nat) {type : Nat} {tag : BitVec 20} (hcell : usesCell type tag = false)
    (bs : List Byte) :
    s.homeWrite pa type tag bs = (s.selRead pa type).baseWrite (s.storage pa type true) bs := by
  simp only [State.homeWrite, hcell, Bool.false_eq_true, if_false]

theorem homeWrite_noCell_mem (s : State) (pa : Nat) {type : Nat} {tag : BitVec 20} (hcell : usesCell type tag = false)
    (bs : List Byte) : (s.homeWrite pa type tag bs).mem = s.mem.writeN (s.storage pa type true) bs := by
  rw [homeWrite_noCell s pa hcell, baseWrite_mem, selRead_mem]

theorem homeWrite_noCell_me (s : State) (pa : Nat) {type : Nat} {tag : BitVec 20} (hcell : usesCell type tag = false)
    (bs : List Byte) : (s.homeWrite pa type tag bs).me = s.me := by
  rw [homeWrite_noCell s pa hcell]
  exact me_of_around ((baseWrite_around ..).trans (selRead_around ..))

/-- An atomic of base memory that its home takes: one step reads the location and writes the new value, and the old value
goes to the strand. -/
theorem atomicStep_noCell {s : State} (h : Entry) (op : AOp) {pa type n : Nat} (v c : Nat) (hsys : type ≠ tSys)
    (hl1 : s.me.l1Line (canon pa / 64) = none) (hcell : usesCell type h.tag = false)
    (herr : s.homeErr s.me.st.vi pa type n h.tag true = none) :
    let x := leNat (s.mem.readN (s.storage pa type true) n)
    s.atomicStep h op pa type n v c =
      (s.homeWrite pa type h.tag (leBytes n (atomNew op n x v c))).accDone .sq h (.ok (leBytes n x)) := by
  simp only [State.atomicStep, l1Evict_absent hl1, if_neg hsys, State.cellStalls, hcell, Bool.false_and, Bool.false_eq_true,
    if_false, State.homeAtomic, herr]

/-! ### The numbers of an atomic -/

theorem leNat_readN_lt (m : Memory) (a n : Nat) : leNat (m.readN a n) < 256 ^ n := by
  induction n generalizing a with
  | zero => exact Nat.one_pos
  | succ n ih =>
    have hbyte := (m.read a).isLt
    have hrest := ih (a + 1)
    simp only [Memory.readN, leNat, Nat.pow_succ]
    omega

/-- The bytes of a number that memory held give it back. -/
theorem leNat_leBytes_readN (m : Memory) (a n : Nat) : leNat (leBytes n (leNat (m.readN a n))) = leNat (m.readN a n) := by
  rw [leNat_leBytes, Nat.mod_eq_of_lt (leNat_readN_lt m a n)]

/-! ### The steps -/

theorem execAtomicExecute_running {s : State} {h : Entry} {op : AOp} {d : Reg} {ea : Word} {pa type : Nat} {d64 : Bool}
    {v c : Word} {sc : Scope} {ord : Order} (hrun : s.me.st.running .sq = some h)
    (hcmd : h.cmd = .atomic op d ea (.mem pa type) d64 v c sc ord) :
    let n := if d64 then 8 else 4
    exec .atomicExecute s = .next (s.atomicStep h op pa type n (v.toNat % 2 ^ (8 * n)) (c.toNat % 2 ^ (8 * n))) := by
  show execAtomicExecute s = _
  simp only [execAtomicExecute, hrun, hcmd]

/-- The state once a slot update that leaves `u` has been performed and logged. -/
def State.slotDone (u : State) (h : Entry) : State := (u.updSt fun t => t.logged h.waddr none).performed .sq

theorem slotDone_slot (u : State) (h : Entry) (node j n : Nat) : (u.slotDone h).slot node j n = u.slot node j n := rfl

theorem slotDone_mem (u : State) (h : Entry) : (u.slotDone h).mem = u.mem := rfl

theorem slotDone_ctl (u : State) (h : Entry) : (u.slotDone h).ctl = u.ctl := performed_sq_ctl _

theorem execSlotUpdate_add {s : State} {h : Entry} {n : BitVec 10} {arg : Word} {sc : Scope} {barv : Bool}
    (hrun : s.me.st.running .sq = some h) (hcmd : h.cmd = if barv then .barv n arg sc else .fadd n arg sc)
    (hown : barv = false → sc ≠ .sys) :
    exec .slotUpdate s = .next ((s.addSlot s.me.st.node (if barv then arg.toNat else arg.toNat / 2 ^ 16) n.toNat
      (if barv then 1 else arg.toNat % 2 ^ 16)).slotDone h) := by
  show execSlotUpdate s = _
  cases barv
  · simp only [execSlotUpdate, hrun, hcmd, Bool.false_eq_true, if_false, if_neg (hown rfl), State.slotDone]
  · simp only [execSlotUpdate, hrun, hcmd, if_true, State.slotDone]

theorem execSlotUpdate_fset {s : State} {h : Entry} {n : BitVec 10} {mask : Word} {sc : Scope}
    (hrun : s.me.st.running .sq = some h) (hcmd : h.cmd = .fset n mask sc) :
    exec .slotUpdate s = .next ((s.setPhases s.me.st.node n.toNat mask.toNat
      (s.slot s.me.st.node s.me.st.idx n.toNat).phase 1 (List.range 64)).slotDone h) := by
  show execSlotUpdate s = _
  simp only [execSlotUpdate, hrun, hcmd, State.slotDone]

theorem execSlotUpdate_barinit {s : State} {h : Entry} {n : BitVec 10} {goal fan : Word}
    (hrun : s.me.st.running .sq = some h) (hcmd : h.cmd = .barinit n goal fan) :
    exec .slotUpdate s = .next (((s.setSlot s.me.st.node s.me.st.idx n.toNat
      { s.slot s.me.st.node s.me.st.idx n.toNat with goal := goal.setWidth 16, fanout := fan }).completeSlot
        s.me.st.node s.me.st.idx n.toNat).slotDone h) := by
  show execSlotUpdate s = _
  simp only [execSlotUpdate, hrun, hcmd, State.slotDone]

/-- Settles O48: an atomic is its one step at the home, and a slot update is the table's change and the end of its entry. -/
theorem atomicsPerform : Obligations.AtomicsPerform := by
  unfold Obligations.AtomicsPerform
  refine ⟨?atomic, ?add, ?fset, ?barinit⟩
  case atomic =>
    intro s h op d ea pa type d64 v c sc ord hrun hcmd hsys hl1 hcell n w a x y herr new
    have hnew : new = atomNew op n x y (c.toNat % 2 ^ w) := by cases op <;> rfl
    let u := s.homeWrite pa type h.tag (leBytes n new)
    have hu : u.me = s.me := homeWrite_noCell_me s pa hcell _
    obtain ⟨hmem, hctl, hspad⟩ := accDone_atomic_frame hcmd u (leBytes n x)
    rw [leNat_leBytes_readN, hu, bind_ctl] at hctl
    rw [hu] at hspad
    have hg (r : Reg) : (u.accDone .sq h (.ok (leBytes n x))).getG r =
        Ctl.getG (if d ≠ 0 ∧ s.me.st.pendDst.get (gIdx d) = some h.seq then s.ctl.setG d (BitVec.ofNat 64 x) else s.ctl) r :=
      congrArg (Ctl.getG · r) hctl
    refine ⟨u.accDone .sq h (.ok (leBytes n x)), ?step, ?mem, ?result, ?others, hspad, ?preds⟩
    case step =>
      rw [execAtomicExecute_running hrun hcmd, atomicStep_noCell h op _ _ hsys hl1 hcell herr, ← hnew]
    case mem => exact hmem.trans (homeWrite_noCell_mem s pa hcell _)
    case result =>
      intro hd hpend
      rw [hg, if_pos ⟨hd, hpend⟩, Ctl.getG_setG, if_neg hd, if_pos rfl]
    case others =>
      intro r hr
      rw [hg]
      split
      · rw [Ctl.getG_setG, if_neg hr]
        split
        · next h0 => rw [h0]; exact (Ctl.getG_zero _).symm
        · rfl
      · rfl
    case preds =>
      rw [hctl]
      split
      · exact setG_p ..
      · rfl
  case add =>
    intro s h n arg sc barv hrun hcmd hown j k old x goal hlive hj
    refine ⟨_, execSlotUpdate_add hrun hcmd hown, ?_, ?_, ?_, ?_⟩
    · rw [slotDone_slot, addSlot_same hlive n.isLt, Slot.plus_eq]
    · intro hfan j' n' _ hn' hne
      rw [slotDone_slot]
      exact addSlot_other hlive n.isLt hn' _ hfan (Decidable.not_and_iff_or_not.2 hne)
    · rw [slotDone_mem, addSlot_mem]
    · rw [slotDone_ctl]
      exact congrArg (fun m : Cluster => m.st.ctl) (addSlot_me hlive ..)
  case fset =>
    intro s h n mask sc hrun hcmd k
    refine ⟨_, execSlotUpdate_fset hrun hcmd, setPhases_mem .., fun j hj => ?_⟩
    have htakes : (j ∈ List.range 64 ∧ s.takesPhase k mask.toNat j = true) ↔
        (mask.getLsbD j = true ∧ s.strandDone k j = false) := by
      simp [hj, State.takesPhase, BitVec.getLsbD]
    rw [slotDone_slot, setPhases_slot _ _ _ _ _ n.isLt]
    exact ite_congr (propext htakes) (fun _ => rfl) fun _ => rfl
  case barinit =>
    intro s h n goal fan hrun hcmd k old hgoal
    refine ⟨_, execSlotUpdate_barinit hrun hcmd, completeSlot_mem .., ?_⟩
    rw [slotDone_slot, completeSlot_same _ _ _ n.isLt, State.setSlot_same]
    exact rounds_of_lt (by simpa using hgoal)

end Sys2Proof.Machine
end

section
/-!
SUPPORT. The words of the context tags (R157, R158, R166, R170) at issue, and the statement about them.
-/

namespace Sys2Proof.Machine

/-- A word that a log may answer goes on where its guard holds and no log holds its result (R398). -/
theorem guarded_replayed {g : Guard} {rs : List Reg} {s : State} (h : s.ready g rs) (hlog : s.unlogged) (k : State → Out) :
    guarded g s (fun s => replayed s k) = k s := by
  rw [guarded_true g s _ h.1, replayed_unlogged s k hlog]

/-- Settles O13: TSET and TGET retire at once, and the three words of the allocators join S where their value passes. -/
theorem tagWords : Obligations.TagWords := by
  unfold Obligations.TagWords
  refine ⟨?tset, fun s g d h => compute_ready g [] d _ s h, ?talloc, ?tretire, ?tstat⟩
  case tset =>
    intro s g a ⟨hg, hb, hs⟩ hok
    show execTset g a s = _
    rw [execTset, guarded_true g s _ hg, reading_bound [a] s _ hb, if_pos hok, done_straight _ (updCtl_straight s _ rfl rfl rfl hs)]
  case talloc =>
    intro s g d h hlog hroom
    have ⟨_, _, hs⟩ := h
    exact (guarded_replayed h hlog _).trans (issueS_room _ d 0 s hs hroom)
  case tretire =>
    intro s g a h hlog hroom hok hid
    have ⟨_, _, hs⟩ := h
    have hpass : ¬ ((!tagValueOk (s.getG a)) = true ∨ (s.getG a).toNat % 65536 = 0) := by simp [hok, hid]
    calc exec (.tretire g a) s
      _ = _ := guarded_replayed_reading h hlog _
      _ = issueSGated _ 0 (fun n => [releaseGate n]) s := if_neg hpass
      _ = _ := issueSGated_room _ 0 _ s hs hroom
  case tstat =>
    intro s g d a h hlog hroom hok
    have ⟨_, _, hs⟩ := h
    calc exec (.tstat g d a) s
      _ = _ := guarded_replayed_reading h hlog _
      _ = issueS _ d 0 s := if_pos hok
      _ = _ := issueS_room _ d 0 s hs hroom

end Sys2Proof.Machine
end

section
/-!
SUPPORT. What the steps of the allocators read and write (R159, R166, R168): the record of an index, what an act on one strand
keeps of the package, and the entry at the head of S.
-/

namespace Sys2Proof.Machine

/-! ### The record of an index (R159) -/

/-- The record of an index stands under that index. -/
theorem tagRec_key (s : State) (die idx : Nat) : (s.tagRec die idx).die = die ∧ (s.tagRec die idx).idx = idx := by
  unfold State.tagRec
  split
  · next r hr => simpa using List.find?_some hr
  · exact ⟨rfl, rfl⟩

/-- Records are read from the allocators' table alone. -/
theorem tagRec_of_tags {s t : State} (h : t.tags = s.tags) (die idx : Nat) : t.tagRec die idx = s.tagRec die idx := by
  rw [State.tagRec, State.tagRec, h]

/-- Replacing each element that passes a test by one that passes it makes that one the first that does. -/
theorem find?_map_replace {α : Type} (p : α → Bool) {a : α} (ha : p a = true) (l : List α) (hl : l.any p = true) :
    (l.map fun x => if p x then a else x).find? p = some a := by
  induction l with
  | nil => exact absurd hl Bool.false_ne_true
  | cons x l ih =>
    cases hx : p x with
    | true => simp [hx, ha]
    | false =>
      have hl : l.any p = true := by simpa [hx] using hl
      simpa [hx] using ih hl

/-- A record that has been replaced is the one that is read. -/
theorem setTag_tagRec (s : State) (r : TagRec) : (s.setTag r).tagRec r.die r.idx = r := by
  have hfound : (s.setTag r).tags.find? (fun q => decide (q.die = r.die) && decide (q.idx = r.idx)) = some r := by
    simp only [State.setTag]
    split
    · next hany => simpa using find?_map_replace (fun q => decide (q.die = r.die) && decide (q.idx = r.idx)) (by simp) s.tags hany
    · next hnone =>
      have hnone : s.tags.find? (fun q => decide (q.die = r.die) && decide (q.idx = r.idx)) = none := by simpa using hnone
      simp [List.find?_append, hnone]
  rw [State.tagRec, hfound]

theorem setTag_tagRec_at (s : State) {r : TagRec} {die idx : Nat} (hkey : r.die = die ∧ r.idx = idx) :
    (s.setTag r).tagRec die idx = r := by
  obtain ⟨rfl, rfl⟩ := hkey
  exact setTag_tagRec s r

/-! ### What an act on one strand keeps of the package -/

/-- A part of the state that no cluster holds. -/
def OfPackage {α : Type} (p : State → α) : Prop := ∀ s m ps, p { s with me := m, peers := ps } = p s

theorem ofPackage_tags : OfPackage State.tags := fun _ _ _ => rfl

theorem ofPackage_tagWaits : OfPackage State.tagWaits := fun _ _ _ => rfl

theorem ofPackage_mem : OfPackage State.mem := fun _ _ _ => rfl

theorem ofPackage_retires : OfPackage State.retires := fun _ _ _ => rfl

theorem updSt_package {α : Type} {p : State → α} (hp : OfPackage p) (s : State) (f : Strand → Strand) : p (s.updSt f) = p s :=
  hp s _ s.peers

theorem performed_package {α : Type} {p : State → α} (hp : OfPackage p) (s : State) (e : Eng) : p (s.performed e) = p s :=
  updSt_package hp s _

theorem onPeer_package {α : Type} {p : State → α} (hp : OfPackage p) (s : State) (k : Nat) {f : State → State}
    (hf : ∀ t, p (f t) = p t) : p (s.onPeer k f) = p s := by
  unfold State.onPeer
  split
  · exact (hp _ _ _).trans ((hf _).trans (hp s _ _))
  · rfl

/-- What an act keeps of the package it also keeps on another strand. -/
theorem onStrand_package {α : Type} {p : State → α} (hp : OfPackage p) (s : State) (node idx : Nat) {f : State → State}
    (hf : ∀ t, p (f t) = p t) : p (s.onStrand node idx f) = p s := by
  unfold State.onStrand
  dsimp only
  split
  · exact hf s
  · split
    · exact onPeer_package hp s _ hf
    · rfl

/-- The strand that runs on `me` is found there. -/
theorem onStrand_me {s : State} {node idx : Nat} (hnode : node = s.me.st.node) (hidx : idx = s.me.st.idx)
    (hst : s.me.status ≠ .idle) (f : State → State) : s.onStrand node idx f = f s := by
  unfold State.onStrand
  rw [if_pos (by simp [hnode, hidx, hst])]

/-! ### The head of S -/

theorem updHead_squ {s : State} {h : Entry} {r : List Entry} (hsq : s.me.st.squ = h :: r) (f : Entry → Entry) :
    (s.updHead .sq f).me.st.squ = f h :: r := by
  simp only [State.updHead, State.updSt_st, Strand.updHead, Strand.queue, hsq]; rfl

theorem performed_squ {s : State} {h : Entry} {r : List Entry} (hsq : s.me.st.squ = h :: r) :
    (s.performed .sq).me.st.squ = { h with stage := .performed } :: r :=
  updHead_squ hsq fun h => { h with stage := .performed }

theorem performed_sq_traps (s : State) : (s.performed .sq).me.st.traps = s.me.st.traps := by
  obtain ⟨_, _, h⟩ := performed_sq_st s
  rw [h]

/-- The head of S runs once it has begun. -/
theorem running_sq {t : Strand} {h : Entry} {r : List Entry} (hsq : t.squ = h :: r) (hst : h.stage = .begun) :
    t.running .sq = some h := by
  simp only [Strand.running, Strand.queue, hsq, if_pos hst]

theorem running_sq_submitted {t : Strand} {h : Entry} {r : List Entry} (hsq : t.squ = h :: r) (hst : h.stage = .submitted) :
    t.running .sq = none := by
  simp [Strand.running, Strand.queue, hsq, hst]

theorem bind_squ (t : Strand) (d : Reg) (seq : Nat) (v : Word) : (t.bind d seq v).squ = t.squ := by
  unfold Strand.bind
  split <;> rfl

theorem bind_traps (t : Strand) (d : Reg) (seq : Nat) (v : Word) : (t.bind d seq v).traps = t.traps := by
  unfold Strand.bind
  split <;> rfl

/-- The first deferred record of an engine stands as it came (R52). -/
theorem record_traps_nil {t : Strand} (h : t.traps = []) (r : TrapRec) : (t.record r).traps = [r] := by
  simp [Strand.record, h]

end Sys2Proof.Machine
end

section
/-!
SUPPORT. The steps of the allocators and of the homes (R159 to R168), each said once, and the statement about them.
-/

namespace Sys2Proof.Machine

/-! ### A TALLOC reaches its allocator -/

/-- The strand of `me` as one whose TALLOC waits (R168). -/
def State.ownTagWait (s : State) : TagWait := ⟨s.me.die, s.me.st.node, s.me.st.idx, s.me.st.vi, s.me.st.stream⟩

/-- The TALLOC that arrives at the allocator of its die with the head of S, if one does. -/
def State.tallocArrivals (s : State) : List TagWait :=
  match s.me.st.running .sq with
  | some h => (match h.cmd with
    | .talloc _ => [s.ownTagWait]
    | _ => [])
  | none => []

section
variable {s : State} {h : Entry} {d : Reg} (hrun : s.me.st.running .sq = some h) (hcmd : h.cmd = .talloc d)
include hrun hcmd

theorem tallocArrivals_head : s.tallocArrivals = [s.ownTagWait] := by
  simp only [State.tallocArrivals, hrun, hcmd]

theorem tallocArrive_head :
    s.tallocArrive = { s.updHead .sq fun h => { h with stage := .submitted } with tagWaits := s.tagWaits ++ s.tallocArrivals } := by
  simp only [State.tallocArrive, tallocArrivals_head hrun hcmd, hrun, hcmd, State.ownTagWait]

end

theorem tallocArrive_none {s : State} (hrun : s.me.st.running .sq = none) : s.tallocArrive = s := by
  simp only [State.tallocArrive, hrun]

/-- The head of S arrives, or nothing does. -/
theorem tallocArrive_cases (s : State) :
    s.tallocArrive = { s.updHead .sq fun h => { h with stage := .submitted } with tagWaits := s.tagWaits ++ s.tallocArrivals } ∨
      s.tallocArrivals = [] ∧ s.tallocArrive = s := by
  cases hrun : s.me.st.running .sq with
  | none => exact .inr ⟨by simp only [State.tallocArrivals, hrun], tallocArrive_none hrun⟩
  | some h =>
    by_cases hcmd : ∃ d, h.cmd = .talloc d
    · obtain ⟨d, hcmd⟩ := hcmd
      exact .inl (tallocArrive_head hrun hcmd)
    · refine .inr ⟨?_, ?_⟩
      · simp only [State.tallocArrivals, hrun]
        split
        · next d h => exact absurd ⟨d, h⟩ hcmd
        · rfl
      · simp only [State.tallocArrive, hrun]
        split
        · next d h => exact absurd ⟨d, h⟩ hcmd
        · rfl

/-- Outside `me` an arrival only joins those that wait. -/
theorem tallocArrive_frame (s : State) :
    s.tallocArrive = { s with me := s.tallocArrive.me, tagWaits := s.tagWaits ++ s.tallocArrivals } := by
  obtain h | ⟨hnone, h⟩ := tallocArrive_cases s
  · rw [h]; rfl
  · rw [h, hnone, List.append_nil]

theorem tallocArrive_tags (s : State) : s.tallocArrive.tags = s.tags := by rw [tallocArrive_frame]

theorem tallocArrive_tagWaits (s : State) : s.tallocArrive.tagWaits = s.tagWaits ++ s.tallocArrivals := by
  rw [tallocArrive_frame]

theorem tallocArrive_freeTag (s : State) : s.tallocArrive.freeTag = s.freeTag := by rw [tallocArrive_frame]; rfl

theorem tallocArrive_tagsLive (s : State) : s.tallocArrive.tagsLive = s.tagsLive := by rw [tallocArrive_frame]; rfl

theorem tallocArrive_tagQuota (s : State) : s.tallocArrive.tagQuota = s.tagQuota := by rw [tallocArrive_frame]; rfl

/-- In `me` an arrival changes the head of S alone. -/
theorem tallocArrive_me (s : State) :
    ∃ q w, s.tallocArrive.me = { s.me with st := { s.me.st with squ := q, wdE := w } } := by
  obtain h | ⟨-, h⟩ := tallocArrive_cases s
  · obtain ⟨q, w, hst⟩ := updHead_sq s.me.st fun h => { h with stage := .submitted }
    exact ⟨q, w, by rw [h, State.updHead, State.updSt, hst]⟩
  · exact ⟨s.me.st.squ, s.me.st.wdE, by rw [h]⟩

theorem tallocArrive_ctl (s : State) : s.tallocArrive.ctl = s.ctl := by
  obtain ⟨_, _, hme⟩ := tallocArrive_me s
  rw [State.ctl, hme]
  rfl

theorem tallocArrive_squ {s : State} {h : Entry} {r : List Entry} {d : Reg} (hsq : s.me.st.squ = h :: r) (hst : h.stage = .begun)
    (hcmd : h.cmd = .talloc d) : s.tallocArrive.me.st.squ = { h with stage := .submitted } :: r := by
  rw [tallocArrive_head (running_sq hsq hst) hcmd]
  exact updHead_squ hsq _

/-! ### The result of a TALLOC (R168, R170) -/

section
variable {s : State} {h : Entry} {r : List Entry} {d : Reg} (hsq : s.me.st.squ = h :: r) (hcmd : h.cmd = .talloc d)
include hsq hcmd

theorem tallocBind_head (v : Word) :
    s.tallocBind v = (s.updSt fun t => (t.bind d h.seq v).logged h.waddr (some (d, v))).performed .sq := by
  simp only [State.tallocBind, hsq, hcmd]

theorem tallocBind_squ (v : Word) : (s.tallocBind v).me.st.squ = { h with stage := .performed } :: r := by
  rw [tallocBind_head hsq hcmd]
  exact performed_squ ((bind_squ s.me.st d h.seq v).trans hsq)

theorem tallocBind_traps (v : Word) : (s.tallocBind v).me.st.traps = s.me.st.traps := by
  rw [tallocBind_head hsq hcmd, performed_sq_traps]
  exact bind_traps s.me.st d h.seq v

theorem tallocBind_getG (hd : d ≠ 0) (hpend : s.me.st.pendDst.get (gIdx d) = some h.seq) (v : Word) :
    (s.tallocBind v).getG d = v := by
  have hctl : (s.tallocBind v).ctl = (s.me.st.bind d h.seq v).ctl := by
    rw [tallocBind_head hsq hcmd, performed_sq_ctl]; rfl
  rw [State.getG, hctl, bind_ctl, if_pos ⟨hd, hpend⟩, Ctl.getG_setG, if_neg hd, if_pos rfl]

end

theorem tallocBind_package {α : Type} {p : State → α} (hp : OfPackage p) (s : State) (v : Word) : p (s.tallocBind v) = p s := by
  unfold State.tallocBind
  split
  · split
    · exact (performed_package hp _ _).trans (updSt_package hp s _)
    · rfl
  · rfl

/-! ### An allocator serves (R168, R170) -/

/-- The record of an index that the TALLOC `w` is given (R159). -/
def TagRec.granted (r : TagRec) (w : TagWait) : TagRec := { r with st := .live, vi := w.vi, stream := w.stream }

/-- The package once the allocator of `die` has given its index `i` to the TALLOC `w`. -/
def State.tagGranted (s : State) (w : TagWait) (die i : Nat) : State :=
  { s.setTag ((s.tagRec die i).granted w) with tagWaits := s.tagWaits.erase w }

/-- The value of the tag that stands at an index (R156). -/
def TagRec.value (r : TagRec) (die i : Nat) : Word := BitVec.ofNat 64 (die * 2048 + i + r.gen.toNat * 65536)

section
variable {s : State} {w : TagWait} {die : Nat} (hw : s.tagWaits.find? (fun w => decide (w.die = die)) = some w)
include hw

/-- The oldest TALLOC of the die takes the lowest free index, and its result goes to the strand that waits. -/
theorem tallocServe_grants {i : Nat} (hfree : s.freeTag die = some i) (hquota : s.tagsLive w.vi < s.tagQuota w.vi) :
    s.tallocServe die =
      (s.tagGranted w die i).onStrand w.node w.idx fun u => u.tallocBind ((s.tagRec die i).value die i) := by
  simp only [State.tallocServe, hw, hfree, if_neg (Nat.not_le.2 hquota)]
  rfl

theorem tallocServe_refuses (hnone : s.freeTag die = none ∨ s.tagQuota w.vi ≤ s.tagsLive w.vi) : s.tallocServe die = s := by
  simp only [State.tallocServe, hw]
  split
  · rfl
  · next i hfree =>
    rw [if_pos (hnone.resolve_left (by simp [hfree]))]

end

/-- The package once the head of S has arrived, if it is a TALLOC, and the allocator of the die of `me` has served. -/
def State.tallocStep (s : State) : State := s.tallocArrive.tallocServe s.me.die

/-- TALLOC_SERVE where no die is presented is a step of the allocator of `me`. -/
theorem execTallocServe_own {s : State} (hin : s.input = []) : exec .tallocServe s = .next s.tallocStep := by
  show execTallocServe s = _
  rw [execTallocServe, hin]; rfl

theorem tallocStep_mem (s : State) : s.tallocStep.mem = s.mem := (tallocServe_mem ..).trans (tallocArrive_mem s)

section
variable {s : State} {w : TagWait} (hw : s.tallocArrive.tagWaits.find? (fun w => decide (w.die = s.me.die)) = some w)
include hw

theorem tallocStep_refuses (hnone : s.freeTag s.me.die = none ∨ s.tagQuota w.vi ≤ s.tagsLive w.vi) :
    s.tallocStep = s.tallocArrive := by
  rw [← tallocArrive_freeTag, ← tallocArrive_tagsLive, ← tallocArrive_tagQuota] at hnone
  exact tallocServe_refuses hw hnone

variable {i : Nat} (hfree : s.freeTag s.me.die = some i) (hquota : s.tagsLive w.vi < s.tagQuota w.vi)
include hfree hquota

theorem tallocStep_grants :
    s.tallocStep = (s.tallocArrive.tagGranted w s.me.die i).onStrand w.node w.idx fun u =>
      u.tallocBind ((s.tagRec s.me.die i).value s.me.die i) := by
  rw [← tallocArrive_freeTag] at hfree
  rw [← tallocArrive_tagsLive, ← tallocArrive_tagQuota] at hquota
  rw [← tagRec_of_tags (tallocArrive_tags s)]
  exact tallocServe_grants hw hfree hquota

theorem tallocStep_tagRec :
    s.tallocStep.tagRec s.me.die i =
      { s.tagRec s.me.die i with die := s.me.die, idx := i, st := .live, vi := w.vi, stream := w.stream } := by
  have hkey := tagRec_key s s.me.die i
  rw [tallocStep_grants hw hfree hquota,
    tagRec_of_tags (onStrand_package ofPackage_tags _ _ _ fun u => tallocBind_package ofPackage_tags u _),
    State.tagGranted, tagRec_of_tags (tallocArrive_tags s)]
  refine (setTag_tagRec_at (r := (s.tagRec s.me.die i).granted w) s.tallocArrive hkey).trans ?_
  rw [TagRec.granted, hkey.1, hkey.2]

theorem tallocStep_tagWaits : s.tallocStep.tagWaits = s.tallocArrive.tagWaits.erase w := by
  rw [tallocStep_grants hw hfree hquota,
    onStrand_package ofPackage_tagWaits _ _ _ fun u => tallocBind_package ofPackage_tagWaits u _]
  rfl

/-- The strand of `me` that waits has its result in the step that serves it (R170). -/
theorem tallocStep_binds {h : Entry} {r : List Entry} {d : Reg} (hidle : s.me.status ≠ .idle) (hnode : w.node = s.me.st.node)
    (hidx : w.idx = s.me.st.idx) (hsq : s.tallocArrive.me.st.squ = h :: r) (hcmd : h.cmd = .talloc d) (hd : d ≠ 0)
    (hpend : s.me.st.pendDst.get (gIdx d) = some h.seq) :
    s.tallocStep.getG d = (s.tagRec s.me.die i).value s.me.die i ∧
      s.tallocStep.me.st.squ = { h with stage := .performed } :: r := by
  let u := s.tallocArrive.tagGranted w s.me.die i
  obtain ⟨_, _, hme⟩ : ∃ q x, u.me = { s.me with st := { s.me.st with squ := q, wdE := x } } := tallocArrive_me s
  have hstep : s.tallocStep = u.tallocBind ((s.tagRec s.me.die i).value s.me.die i) := by
    rw [tallocStep_grants hw hfree hquota]
    exact onStrand_me (s := u) (by rw [hme]; exact hnode) (by rw [hme]; exact hidx) (by rw [hme]; exact hidle) _
  have hpend' : u.me.st.pendDst.get (gIdx d) = some h.seq := by rw [hme]; exact hpend
  rw [hstep]
  exact ⟨tallocBind_getG (s := u) hsq hcmd hd hpend' _, tallocBind_squ (s := u) hsq hcmd _⟩

end

/-! ### Stalls that have lasted for the interval (R160, R165, R168) -/

/-- The TALLOC `h` of `me` has waited for the interval: it waits no longer, and its record is made. -/
def State.tagWaitEnded (s : State) (h : Entry) : State :=
  { s with tagWaits := s.tagWaits.filter fun w => !(decide (w.node = s.me.st.node) && decide (w.idx = s.me.st.idx)) }.updSt fun t =>
    t.record (TrapRec.defer .tagWait .sq h.waddr)

theorem execTagWaitTimeout_lasted {s : State} {h : Entry} {r : List Entry} {d : Reg} {lim : Nat} (hsq : s.me.st.squ = h :: r)
    (hlim : s.tagLimit s.me.st.vi = some lim) (hcmd : h.cmd = .talloc d) (hst : h.stage = .submitted)
    (hlast : lim ≤ s.me.st.wdTag) :
    exec .tagWaitTimeout s = .next ((s.tagWaitEnded h).tallocBind 0) := by
  show execTagWaitTimeout s = _
  simp only [execTagWaitTimeout, hsq, hlim, hcmd, if_pos (And.intro hst hlast), State.tagWaitEnded]

theorem execCellFullTimeout_store {s : State} {h : Entry} {ea : Word} {pa type : Nat} {sz : Size} {v : Word} {lim : Nat}
    (hrun : s.me.st.running .sq = some h) (hlim : s.tagLimit s.me.st.vi = some lim) (hlast : lim ≤ s.me.st.wdTag)
    (hcmd : h.cmd = .store ea (.mem pa type) sz v) (hstall : s.cellStalls pa type h.tag = true) :
    exec .cellFullTimeout s = .next (s.accDone .sq h (.error .cellFull)) := by
  show execCellFullTimeout s = _
  simp only [execCellFullTimeout, hrun, hlim, if_neg (Nat.not_lt.2 hlast), hcmd, hstall, if_true]

theorem accDone_store_refused {h : Entry} {ea : Word} {pl : Place} {sz : Size} {v : Word} (hcmd : h.cmd = .store ea pl sz v)
    (s : State) (c : Cause) :
    s.accDone .sq h (.error c) = (s.updSt fun t => t.record (accessTrap c .sq h.waddr ea h.tag)).performed .sq := by
  rw [State.accDone, hcmd]; rfl

/-! ### Retirement (R166) -/

section
variable {s : State} {h : Entry} {r : List Entry} {t : BitVec 20} (hrun : s.me.st.running .sq = some h) (hcmd : h.cmd = .tretire t)
include hrun hcmd

theorem execRetireStart_live
    (hlive : let x := s.tagRec (tagDie t) (tagIdx t); x.st = .live ∧ x.vi = s.me.st.vi ∧ x.gen.toNat = t.toNat / 65536) :
    let x := s.tagRec (tagDie t) (tagIdx t)
    exec .retireStart s =
      .next (((s.setTag { x with st := .retiring }).updHead .sq fun h => { h with stage := .submitted }).addRetire
        ⟨x.die, x.idx, x.vi, some (s.me.st.node, s.me.st.idx), [], []⟩) := by
  show execRetireStart s = _
  simp only [execRetireStart, hrun, hcmd, if_pos hlive]

theorem execRetireStart_stale
    (hstale : let x := s.tagRec (tagDie t) (tagIdx t); ¬ (x.st = .live ∧ x.vi = s.me.st.vi ∧ x.gen.toNat = t.toNat / 65536)) :
    exec .retireStart s =
      .next ((s.updSt fun u => u.record (accessTrap .tagStale .sq h.waddr 0 t)).performed .sq) := by
  show execRetireStart s = _
  simp only [execRetireStart, hrun, hcmd, if_neg hstale]

end

theorem setAt_getElem? {α : Type} {l : List α} {k : Nat} {x : α} (h : l[k]? = some x) (v : α) : (setAt l k v)[k]? = some v := by
  induction l generalizing k with
  | nil => simp at h
  | cons y l ih =>
    cases k with
    | zero => rfl
    | succ k => exact ih (by simpa using h)

/-- A retirement whose notice has reached home `d`. -/
def Retire.notice (r : Retire) (d : Nat) : Retire :=
  { r with noticed := if r.noticed.contains d then r.noticed else r.noticed ++ [d] }

theorem mem_notice (r : Retire) (d : Nat) : d ∈ (r.notice d).noticed := by
  unfold Retire.notice
  dsimp only
  split
  · next h => simpa using h
  · simp

/-- A home that no running command holds up frees the tag's cells and acknowledges in the step of the notice. -/
theorem execRetireNotice_acks {s : State} {k d : Nat} {r : Retire} (hr : s.retires[k]? = some r) (hd : d < 24)
    (hack : r.acks.contains d = false) (hbusy : s.tagBusy (r.die * 2048 + r.idx) d = false) :
    exec (.retireNotice k d) s =
      .next ({ s with retires := setAt s.retires k { r.notice d with acks := r.acks ++ [d] } }.freeCells
        (r.die * 2048 + r.idx) d) := by
  show execRetireNotice k d s = _
  have hfirst : ¬ (r.acks.contains d = true ∨ 24 ≤ d) := by rw [hack]; simpa using hd
  simp only [execRetireNotice, hr, if_neg hfirst, hbusy, Bool.false_eq_true, if_false]
  rfl

/-- The package once the `k`th retirement, `r`, is over. -/
def State.retired (s : State) (k : Nat) (r : Retire) : State :=
  let x := s.tagRec r.die r.idx
  { s.setTag { x with st := .free, gen := x.gen + 1 } with retires := s.retires.eraseIdx k }

/-- With every acknowledgement a retirement is over, and the strand that owns it is told (R166). -/
theorem execRetireComplete_all {s : State} {k : Nat} {r : Retire} (hr : s.retires[k]? = some r)
    (hall : ∀ d, d < 24 → r.acks.contains d = true) :
    ∃ u, exec (.retireComplete k) s = .next u ∧
      ∀ {α : Type} (p : State → α), OfPackage p → p u = p (s.retired k r) := by
  have hacks : (List.range 24).all r.acks.contains = true := List.all_eq_true.2 fun d hd => hall d (List.mem_range.1 hd)
  show ∃ u, execRetireComplete k s = .next u ∧ _
  simp only [execRetireComplete, hr, if_pos hacks]
  split
  · refine ⟨_, rfl, fun p hp => onStrand_package hp _ _ _ fun u => ?_⟩
    split
    · exact (performed_package hp _ _).trans (updSt_package hp u _)
    · rfl
  · exact ⟨_, rfl, fun _ _ => rfl⟩

/-- Settles O50: each kind of step by the lemma that says it once. -/
theorem tagsServe : Obligations.TagsServe := by
  unfold Obligations.TagsServe
  refine ⟨?own, ?waiters, ?timeout, ?cellFull, ?start, ?notice, ?complete⟩
  case own =>
    intro s h r d i hsq hst hcmd hnone hin hidle hfree hquota hd hpend x
    have hrun := running_sq hsq hst
    have hwaits : s.tallocArrive.tagWaits = [s.ownTagWait] := by
      rw [tallocArrive_tagWaits, hnone, tallocArrivals_head hrun hcmd]; rfl
    have hw : s.tallocArrive.tagWaits.find? (fun w => decide (w.die = s.me.die)) = some s.ownTagWait := by
      rw [hwaits]
      exact List.find?_cons_of_pos (decide_eq_true rfl)
    obtain ⟨hresult, hsquDone⟩ := tallocStep_binds hw hfree hquota hidle rfl rfl (tallocArrive_squ hsq hst hcmd) hcmd hd hpend
    refine ⟨_, execTallocServe_own hin, hresult, tallocStep_tagRec hw hfree hquota, ?waits, ?performed, tallocStep_mem s⟩
    case waits => rw [tallocStep_tagWaits hw hfree hquota, hwaits, List.erase_cons_head]
    case performed =>
      intro e r' he
      obtain ⟨rfl, -⟩ := List.cons.inj (hsquDone.symm.trans he)
      rfl
  case waiters =>
    intro s w hin hwait joins
    have hjoins : joins = s.tallocArrivals := rfl
    have hw : s.tallocArrive.tagWaits.find? (fun w => decide (w.die = s.me.die)) = some w := by
      rw [tallocArrive_tagWaits, List.find?_append, hwait]; rfl
    rw [execTallocServe_own hin, hjoins]
    refine ⟨?granted, ?refused⟩
    case granted =>
      intro i hfree hquota x
      refine ⟨_, rfl, tallocStep_tagRec hw hfree hquota, ?waits, tallocStep_mem s, ?result⟩
      case waits =>
        rw [tallocStep_tagWaits hw hfree hquota, tallocArrive_tagWaits,
          List.erase_append_left _ (List.mem_of_find?_eq_some hwait)]
      case result =>
        intro h r d hidle hnode hidx hsq hst hcmd hd hpend
        have harrive := tallocArrive_none (running_sq_submitted hsq hst)
        exact tallocStep_binds hw hfree hquota hidle hnode hidx (by rw [harrive]; exact hsq) hcmd hd hpend
    case refused =>
      intro hnone
      rw [tallocStep_refuses hw hnone]
      exact ⟨_, rfl, tallocArrive_tags s, tallocArrive_tagWaits s, tallocArrive_ctl s, tallocArrive_mem s⟩
  case timeout =>
    intro s h r d lim hsq hlim hcmd hst hlast hd hpend
    have hsq' : (s.tagWaitEnded h).me.st.squ = h :: r := hsq
    exact ⟨_, execTagWaitTimeout_lasted hsq hlim hcmd hst hlast, tallocBind_getG hsq' hcmd hd hpend 0, tallocBind_squ hsq' hcmd 0,
      fun htraps => (tallocBind_traps hsq' hcmd 0).trans (record_traps_nil htraps _), tallocBind_package ofPackage_tags _ 0⟩
  case cellFull =>
    intro s h ea pa type sz v lim hrun hlim hlast hcmd hstall
    rw [execCellFullTimeout_store hrun hlim hlast hcmd hstall, accDone_store_refused hcmd]
  case start =>
    intro s h r t hsq hst hcmd x
    have hrun := running_sq hsq hst
    constructor
    · intro hlive
      refine ⟨_, execRetireStart_live hrun hcmd hlive, ?marked, rfl, ?submitted⟩
      case marked => exact setTag_tagRec s { x with st := .retiring }
      case submitted => exact updHead_squ (s := s.setTag { x with st := .retiring }) hsq _
    · intro hstale
      refine ⟨_, execRetireStart_stale hrun hcmd hstale, ?tags, ?retires, ?performed, fun htraps => ?recorded⟩
      case tags => rfl
      case retires => rfl
      case performed => exact performed_squ (s := s.updSt fun u => u.record (accessTrap .tagStale .sq h.waddr 0 t)) hsq
      case recorded => exact (performed_sq_traps _).trans (record_traps_nil htraps _)
  case notice =>
    intro s k d r hr hd hack hbusy
    exact ⟨_, execRetireNotice_acks hr hd hack hbusy,
      ⟨_, setAt_getElem? hr _, rfl, mem_notice r d, rfl⟩, rfl, rfl⟩
  case complete =>
    intro s k r hr hall x
    obtain ⟨u, hexec, hkeeps⟩ := execRetireComplete_all hr hall
    refine ⟨u, hexec, hkeeps _ ofPackage_retires, ?_, hkeeps _ ofPackage_mem⟩
    rw [tagRec_of_tags (hkeeps _ ofPackage_tags)]
    exact setTag_tagRec_at s (tagRec_key s r.die r.idx)

end Sys2Proof.Machine
end

section
/-!
SUPPORT. The words that hand a block to V or M and that wait for the engines (R178, R182, R183, R190 to R192), and the statements
about them.
-/

namespace Sys2Proof.Machine

/-! ### Blocks join their queue (R182, R183) -/

/-- A FORK of an engine that the cluster has stands under its guard. -/
theorem execFork_legal {g : Guard} {m : Bool} {blk : BitVec 20} {s : State} (hg : s.ctl.guard g = true)
    (hlegal : m = true → s.me.st.vkind = false) :
    execFork g m blk s =
      if m then
        if Config.queueDepth ≤ s.me.st.mqu.length then wait s
        else done (s.updSt fun t => { t with mqu := t.mqu ++ [t.forkBlock t.code.mblocks blk.toNat], seq := t.seq + 1 })
      else
        if Config.queueDepth ≤ s.me.st.vqu.length then wait s
        else done (s.updSt fun t => { t with vqu := t.vqu ++ [t.forkBlock t.code.vblocks blk.toNat], seq := t.seq + 1 }) := by
  have hpass : ¬ (m && s.me.st.vkind) = true := by
    cases m
    · exact Bool.false_ne_true
    · simp [hlegal rfl]
  rw [execFork, if_neg hpass, guarded_true g s _ hg]

/-- Settles O14: a block whose queue has room joins it, and the word falls through. -/
theorem forkQueues : Obligations.ForkQueues := by
  intro s g blk ⟨hg, _, hs⟩ b
  refine ⟨fun hroom => ?vector, fun hkind hroom => ?matrix, fun hkind => ?illegal⟩
  case vector =>
    calc exec (.fork g false blk) s
      _ = _ := execFork_legal hg (fun h => absurd h Bool.false_ne_true)
      _ = done _ := if_neg (Nat.not_le.2 hroom)
      _ = _ := done_straight _ (straight_of_ctl rfl rfl rfl hs)
  case matrix =>
    calc exec (.fork g true blk) s
      _ = _ := execFork_legal hg (fun _ => hkind)
      _ = done _ := if_neg (Nat.not_le.2 hroom)
      _ = _ := done_straight _ (straight_of_ctl rfl rfl rfl hs)
  case illegal => exact if_pos hkind

/-! ### Waiting for the engines (R190 to R192) -/

/-- Every engine that an RDV names is idle. -/
def Strand.namedIdle (t : Strand) (em : EMask) : Bool := engOrder.all fun e => !named em e || t.engineIdle e

theorem namedIdle_iff (t : Strand) (em : EMask) :
    t.namedIdle em = true ↔ ∀ e ∈ engOrder, named em e = true → t.engineIdle e = true := by
  rw [Strand.namedIdle, List.all_eq_true]
  constructor
  · intro hall e he hnamed
    have hidle := hall e he
    rw [hnamed] at hidle
    exact hidle
  · intro hidle e he
    show (!named em e || t.engineIdle e) = true
    cases hnamed : named em e
    · rfl
    · exact hidle e he hnamed

/-- An RDV without a record to deliver goes on or stays, by whether the engines it names are idle. -/
theorem exec_rdv_noTrap {g : Guard} {em : EMask} {s : State} (hg : s.ctl.guard g = true)
    (hnone : s.me.st.firstTrap em engOrder = none) :
    exec (.rdv g em) s = if s.me.st.namedIdle em then .next s.retire.commitIdle else wait s := by
  show execRdv g em s = _
  rw [execRdv, guarded_true g s _ hg, hnone]
  rfl

/-- An RDV with a record to deliver delivers it. -/
theorem exec_rdv_trap {g : Guard} {em : EMask} {s : State} {r : TrapRec} (hg : s.ctl.guard g = true)
    (hsome : s.me.st.firstTrap em engOrder = some r) : exec (.rdv g em) s = deliver r s := by
  show execRdv g em s = _
  rw [execRdv, guarded_true g s _ hg, hsome]

/-- Settles O15: the first record decides; without one, whether every named engine is idle. -/
theorem rendezvous : Obligations.Rendezvous := by
  intro s g em ⟨hg, _, hs⟩
  refine ⟨fun hnone hidle => ?goes, fun hnone hbusy => ?waits, fun r hsome => exec_rdv_trap hg hsome⟩
  case goes =>
    rw [exec_rdv_noTrap hg hnone, if_pos ((namedIdle_iff _ em).2 hidle), retire_straight s hs]
  case waits =>
    obtain ⟨e, he, hnamed, hnot⟩ := hbusy
    have hbusy : ¬ s.me.st.namedIdle em = true := fun h =>
      Bool.eq_false_iff.1 hnot ((namedIdle_iff _ em).1 h e he hnamed)
    rw [exec_rdv_noTrap hg hnone, if_neg hbusy, wait]

end Sys2Proof.Machine
end

section
/-!
SUPPORT. What an engine's step on its block does to the block (R184, R189, R286): where a repeat word leaves it, where the word
behind stands, and what the last row of a matrix word pushes or keeps; and the statement about the walk.
-/

namespace Sys2Proof.Machine

/-! ### Repeat words (R184, R265) -/

/-- A repeat word that its engine stands at: a count that is too large ends the block, any other moves in it. -/
theorem repeatWord_running {m : Bool} {s : State} {r : Run} (hrun : s.me.st.run m = some r) (reb : BitVec 4) (len : Nat) :
    repeatWord m reb len s =
      if 16777215 < (r.eb reb).toNat then .next (s.updSt fun t => t.blockEnc m r 0xFFFF)
      else .next (s.updSt fun t => t.setRun m (some (r.repeats len (r.eb reb).toNat))) := by
  rw [repeatWord, hrun]

/-- MREP is the repeat word of M. -/
theorem exec_mrep {len : Nat} (hlen : len < 4096) (reb : BitVec 4) (s : State) :
    exec (.mrep reb (BitVec.ofNat 12 len)) s = repeatWord true reb len s := by
  show repeatWord true reb (BitVec.ofNat 12 len).toNat s = _
  rw [BitVec.toNat_ofNat, Nat.mod_eq_of_lt hlen]

/-- VREP is the repeat word of V: its register stands in the upper 4 bits of MOD, its length in the lower 12. -/
theorem exec_vrep {len : Nat} (hlen : len < 4096) {reb : BitVec 4} {f : VFields} (hmod : f.mod = reb ++ BitVec.ofNat 12 len)
    (s : State) : exec (.vrep f) s = repeatWord false reb len s := by
  have hreb : f.mod.extractLsb' 12 4 = reb := by rw [hmod]; exact BitVec.extractLsb'_append_eq_left
  have hlow : f.mod.setWidth 12 = BitVec.ofNat 12 len := by rw [hmod]; exact BitVec.setWidth_append_eq_right
  have hcount : f.mod.toNat % 4096 = len := by
    calc f.mod.toNat % 2 ^ 12
      _ = (f.mod.setWidth 12).toNat := (BitVec.toNat_setWidth 12 f.mod).symm
      _ = len := by rw [hlow, BitVec.toNat_ofNat, Nat.mod_eq_of_lt hlen]
  show repeatWord false (f.mod.extractLsb' 12 4) (f.mod.toNat % 4096) s = _
  rw [hreb, hcount]

/-- A repeat word whose count is not 0 stands at its body's first word in repetition 0. -/
theorem repeats_pos (r : Run) (len : Nat) {n : Nat} (hn : 0 < n) :
    (r.repeats len n).off = r.off + 1 ∧ (r.repeats len n).k = 0 ∧ (r.repeats len n).repLen = len ∧
      (r.repeats len n).repStart = r.off + 1 ∧ (r.repeats len n).repCount = n := by
  rw [Run.repeats, if_neg (Nat.pos_iff_ne_zero.1 hn)]
  exact ⟨rfl, rfl, rfl, rfl, rfl⟩

/-! ### The word behind (R184) -/

/-- A block whose current word has not begun. -/
def Run.fresh (r : Run) : Run := { r with popped := false, rows := 0, work := Work.none }

/-- Outside a repeat body, and within one, the next word follows. -/
theorem advance_within {r : Run} (h : r.repLen = 0 ∨ r.off + 1 ≠ r.repStart + r.repLen) :
    r.advance = { r.fresh with off := r.off + 1 } :=
  if_neg fun ⟨hbody, hend⟩ => h.elim hbody (· hend)

/-- Behind the last word of a body stands its first in the next repetition. -/
theorem advance_repeats {r : Run} (hbody : r.repLen ≠ 0) (hend : r.off + 1 = r.repStart + r.repLen)
    (hmore : r.k + 1 < r.repCount) : r.advance = { r.fresh with off := r.repStart, k := r.k + 1 } :=
  (if_pos ⟨hbody, hend⟩).trans (if_pos hmore)

/-- Behind the last word of the last repetition stands the word behind the body. -/
theorem advance_leaves {r : Run} (hbody : r.repLen ≠ 0) (hend : r.off + 1 = r.repStart + r.repLen)
    (hlast : r.repCount ≤ r.k + 1) :
    r.advance = { r.fresh with off := r.off + 1, repLen := 0, repStart := 0, repCount := 0, k := 0 } :=
  (if_pos ⟨hbody, hend⟩).trans (if_neg (Nat.not_lt.2 hlast))

/-- Whichever way the walk goes, only its position moves. -/
theorem advance_moves (r : Run) : ∃ off repLen repStart repCount k,
    r.advance = { r.fresh with off := off, repLen := repLen, repStart := repStart, repCount := repCount, k := k } := by
  by_cases hend : r.repLen ≠ 0 ∧ r.off + 1 = r.repStart + r.repLen
  · by_cases hmore : r.k + 1 < r.repCount
    · exact ⟨_, _, _, _, _, advance_repeats hend.1 hend.2 hmore⟩
    · exact ⟨_, _, _, _, _, advance_leaves hend.1 hend.2 (Nat.not_lt.1 hmore)⟩
  · exact ⟨_, _, _, _, _, advance_within ((Decidable.not_and_iff_not_or_not.1 hend).imp_left Decidable.not_not.1)⟩

/-- The word that the walk comes to has not begun, and the block keeps what waits with it. -/
theorem advance_fresh (r : Run) : r.advance.popped = false ∧ r.advance.rows = 0 ∧ r.advance.work = Work.none ∧
    r.advance.blk = r.blk ∧ r.advance.shadow = r.shadow ∧ r.advance.pushes = r.pushes := by
  obtain ⟨_, _, _, _, _, h⟩ := advance_moves r
  rw [h]
  exact ⟨rfl, rfl, rfl, rfl, rfl, rfl⟩

/-! ### What an engine's block, its records and its pushes leave alone -/

@[simp] theorem setRun_ctl (t : Strand) (m : Bool) (r : Option Run) : (t.setRun m r).ctl = t.ctl := by cases m <;> rfl

@[simp] theorem setRun_m (t : Strand) (m : Bool) (r : Option Run) : (t.setRun m r).m = t.m := by cases m <;> rfl

theorem pushTokens_get (c : Ctl) (mask : Nat) (k : Fin 16) : (c.pushTokens mask).tok.get k =
    if mask / 2 ^ k.val % 2 = 1 ∧ c.tok.get k ≠ 65535 then c.tok.get k + 1 else c.tok.get k :=
  Vector.getElem_ofFn k.isLt

/-- Pushes count up each queue that the mask names, to its limit; the record of an overflow counts nothing (R189). -/
theorem pushFrom_tok (t : Strand) (e : Eng) (waddr info : Word) (mask : Nat) (k : Fin 16) :
    (t.pushFrom e waddr info mask).ctl.tok.get k =
      if mask / 2 ^ k.val % 2 = 1 ∧ t.ctl.tok.get k ≠ 65535 then t.ctl.tok.get k + 1 else t.ctl.tok.get k := by
  unfold Strand.pushFrom
  split <;> exact pushTokens_get _ mask k

@[simp] theorem pushFrom_m (t : Strand) (e : Eng) (waddr info : Word) (mask : Nat) : (t.pushFrom e waddr info mask).m = t.m := by
  unfold Strand.pushFrom
  split <;> rfl

/-! ### Rows of a matrix word (R189, R286) -/

/-- A matrix word that has executed without writing memory pushes its tokens. -/
theorem mDone_pushes {t : Strand} {r : Run} (hrun : t.mrun = some r) (push : BitVec 4) :
    t.mDone push false = (t.pushFrom .m r.blk.waddr r.info (mPush push)).setRun true (some r.advance) := by
  simp only [Strand.mDone, hrun, Bool.false_eq_true, if_false]

/-- One that has written memory keeps them with the block. -/
theorem mDone_keeps {t : Strand} {r : Run} (hrun : t.mrun = some r) (push : BitVec 4) :
    t.mDone push true = t.setRun true (some { r.advance with pushes := r.pushes ++ [(mPush push, r.info)] }) := by
  simp only [Strand.mDone, hrun, if_true]

theorem mDone_m (t : Strand) (push : BitVec 4) (wrote : Bool) : (t.mDone push wrote).m = t.m := by
  unfold Strand.mDone
  split
  · rfl
  · split
    · exact setRun_m ..
    · rw [setRun_m, pushFrom_m]

/-- The strand once its matrix block has completed one more row. -/
def Strand.rowDone (t : Strand) (r : Run) : Strand := t.setRun true (some { r with rows := r.rows + 1 })

/-- With its last row a matrix word has executed. -/
theorem mRow_last {s : State} {r : Run} (hrun : s.me.st.mrun = some r) (push : BitVec 4) {total : Nat} (wrote : Bool)
    (hlast : total ≤ r.rows + 1) : s.mRow push total wrote = s.updSt fun t => (t.rowDone r).mDone push wrote := by
  have hrow : (s.updRun fun r => { r with rows := r.rows + 1 }) = s.updSt fun t => t.rowDone r := by
    simp only [State.updRun, State.updSt, hrun, Strand.rowDone, Option.map_some]
  have hrun' : (s.updSt fun t => t.rowDone r).me.st.mrun = some { r with rows := r.rows + 1 } := rfl
  simp only [State.mRow, hrow, hrun', if_pos hlast]
  rfl

theorem mRow_m (s : State) (push : BitVec 4) (total : Nat) (wrote : Bool) : (s.mRow push total wrote).me.st.m = s.me.st.m := by
  have hrow (f : Run → Run) : (s.updRun f).me.st.m = s.me.st.m := setRun_m ..
  unfold State.mRow
  dsimp only
  split
  · split
    · exact (mDone_m ..).trans (hrow _)
    · exact hrow _
  · exact hrow _

/-- Settles O32: the repeat word, the walk's three ways, and the rows of a matrix word. -/
theorem engineWalk : Obligations.EngineWalk := by
  refine ⟨?repeats, ?advance, ?rows⟩
  case repeats =>
    intro s r m reb len hrun i n hlen
    have hexec : exec i s = repeatWord m reb len s := by
      cases m
      · exact exec_vrep hlen rfl s
      · exact exec_mrep hlen reb s
    rw [hexec, repeatWord_running hrun]
    refine ⟨fun hzero => ?_, fun hpos hmax => ?_, fun hbig => if_pos hbig⟩
    · have hcount : (r.eb reb).toNat = 0 := hzero
      rw [hcount]
      exact ⟨_, rfl, rfl, rfl, rfl⟩
    · rw [if_neg (Nat.not_lt.2 hmax)]
      exact ⟨_, rfl, repeats_pos r len hpos⟩
  case advance =>
    intro r q
    obtain ⟨hpopped, hrows, hwork, hblk, hshadow, hpushes⟩ := advance_fresh r
    refine ⟨hpopped, hrows, hwork, hblk, hshadow, hpushes, fun hwithin => ?_,
      fun hbody hend => ⟨fun hmore => ?_, fun hlast => ?_⟩⟩
    · rw [show q = _ from advance_within hwithin]
      exact ⟨rfl, rfl, rfl⟩
    · rw [show q = _ from advance_repeats hbody hend hmore]
      exact ⟨rfl, rfl, rfl, rfl⟩
    · rw [show q = _ from advance_leaves hbody hend hlast]
      exact ⟨rfl, rfl, rfl⟩
  case rows =>
    intro s push total r hrun
    refine ⟨mRow_more s r push total false hrun, fun hlast => ?_,
      fun wrote => ⟨mRow_m s push total wrote, mRow_mem s push total wrote⟩⟩
    have hrow : (s.me.st.rowDone r).mrun = some { r with rows := r.rows + 1 } := rfl
    have hpushes : (s.mRow push total false).me.st = _ :=
      (congrArg (·.me.st) (mRow_last hrun push false hlast)).trans (mDone_pushes hrow push)
    have hkeeps : (s.mRow push total true).me.st = _ :=
      (congrArg (·.me.st) (mRow_last hrun push true hlast)).trans (mDone_keeps hrow push)
    refine ⟨?_, ?_, ?_, fun k => ?_⟩
    · rw [hpushes]; rfl
    · rw [hkeeps]; rfl
    · rw [State.ctl, hkeeps, setRun_ctl]; rfl
    · rw [State.ctl, hpushes, setRun_ctl, pushFrom_tok]; rfl

end Sys2Proof.Machine
end

section
/-!
SUPPORT. The frame of the vector words (R179, R243, R244): what a step of the vector engine may change of its strand, carried
through the parts of one execution; and the statement about it.
-/

namespace Sys2Proof.Machine

/-! ### What the vector engine may change -/

/-- `u` is `t` but for what a step of the vector engine may change: token counts, CQ and what TRP_STATUS.P shows; rows, masks
and generators; the queues; its block and its records; and the marks of progress. -/
def Strand.onlyVector (t u : Strand) : Prop :=
  u = { t with
    ctl := { t.ctl with tok := u.ctl.tok, cq := u.ctl.cq, trp := { t.ctl.trp with pend := u.ctl.trp.pend } },
    v := u.v, m := { t.m with gens := u.m.gens }, q := u.q, traps := u.traps, vrun := u.vrun, vdry := u.vdry, mdry := u.mdry,
    wdE := u.wdE }

theorem Strand.onlyVector.trans {t u w : Strand} (h : t.onlyVector u) (h' : u.onlyVector w) : t.onlyVector w := by
  unfold Strand.onlyVector at h h' ⊢
  rw [h] at h'
  exact h'

/-! ### The parts of an execution -/

theorem setRun_onlyVector (t : Strand) (r : Option Run) : t.onlyVector (t.setRun false r) := rfl

theorem record_onlyVector (t : Strand) (d : TrapRec) : t.onlyVector (t.record d) := rfl

theorem popTokens_onlyVector (t : Strand) (mask : Nat) : t.onlyVector { t with ctl := t.ctl.popTokens mask } := rfl

/-- An engine's pushes count up tokens, beside the record of an overflow. -/
theorem pushFrom_onlyVector (t : Strand) (e : Eng) (waddr info : Word) (mask : Nat) :
    t.onlyVector (t.pushFrom e waddr info mask) := by
  unfold Strand.pushFrom
  split <;> rfl

/-- An error ends the block of V with a record. -/
theorem blockEnc_onlyVector (t : Strand) (r : Run) (bit : Nat) : t.onlyVector (t.blockEnc false r bit) :=
  (setRun_onlyVector t none).trans (record_onlyVector _ _)

theorem vUnhold_onlyVector (t : Strand) (f : VFields) (r : Run) : t.onlyVector (t.vUnhold f r) := by
  unfold Strand.vUnhold
  split <;> rfl

theorem vHold_onlyVector (t : Strand) (f : VFields) (fm : VForm) (r : Run) : t.onlyVector (t.vHold f fm r) := rfl

/-- Results go to the engine's state, to a store queue and to CQ. -/
theorem vWrite_onlyVector (t : Strand) (f : VFields) (fm : VForm) (x : VIn) (y : VOut) (q : Queues) :
    t.onlyVector (t.vWrite f fm x y q) := by
  unfold Strand.vWrite
  dsimp only
  repeat' split
  all_goals rfl

/-- An execution takes its source, writes its results, pushes its tokens and goes on to the next word. -/
theorem vRun_onlyVector (t : Strand) (f : VFields) (fm : VForm) (r : Run) : t.onlyVector (t.vRun f fm r) :=
  (vUnhold_onlyVector t f r).trans <| (vWrite_onlyVector _ f fm _ _ _).trans <| (pushFrom_onlyVector _ _ _ _ _).trans <|
    setRun_onlyVector _ _

/-! ### A step on a vector word -/

/-- `t` is `s` but for what the vector engine may change of the strand of `me`. -/
def State.onlyVector (s t : State) : Prop :=
  t = { s with me := t.me } ∧ t.me = { s.me with st := t.me.st } ∧ s.me.st.onlyVector t.me.st

theorem State.onlyVector_refl (s : State) : s.onlyVector s := ⟨rfl, rfl, rfl⟩

theorem updSt_onlyVector {s : State} {f : Strand → Strand} (h : s.me.st.onlyVector (f s.me.st)) : s.onlyVector (s.updSt f) :=
  ⟨rfl, rfl, h⟩

theorem State.onlyVector.trans {s t u : State} (h : s.onlyVector t) (h' : t.onlyVector u) : s.onlyVector u := by
  obtain ⟨hme, hst, honly⟩ := h
  obtain ⟨hme', hst', honly'⟩ := h'
  refine ⟨?_, ?_, honly.trans honly'⟩
  · rw [hme', hme]
  · rw [hst', hst]

theorem dry_onlyVector (s : State) : s.onlyVector (s.dry false) := updSt_onlyVector rfl

theorem popWord_onlyVector {s s1 : State} {r : Run} {mask : Nat} (h : s.popWord false r mask = some s1) : s.onlyVector s1 := by
  unfold State.popWord at h
  split at h
  · obtain rfl := Option.some.inj h
    exact s.onlyVector_refl
  · split at h
    · obtain rfl := Option.some.inj h
      exact updSt_onlyVector ((popTokens_onlyVector _ _).trans (setRun_onlyVector _ _))
    · cases h

/-- Whichever way a step on a vector word ends, it stays within what the vector engine may change. -/
theorem vWord_onlyVector (f : VFields) (form : Bool → VForm) (s : State) :
    ∃ t, vWord f form s = .next t ∧ s.onlyVector t := by
  unfold vWord
  split
  · exact ⟨s, rfl, s.onlyVector_refl⟩
  next r hrun =>
    dsimp only
    split
    · exact ⟨_, rfl, updSt_onlyVector (blockEnc_onlyVector ..)⟩
    · split
      · exact ⟨_, rfl, dry_onlyVector s⟩
      next s1 hpop =>
        have hpopped := popWord_onlyVector hpop
        split
        · exact ⟨_, rfl, hpopped.trans (dry_onlyVector s1)⟩
        · split
          · refine ⟨_, rfl, ?_⟩
            split
            · exact hpopped.trans (updSt_onlyVector (vHold_onlyVector ..))
            · exact hpopped
          · exact ⟨_, rfl, hpopped.trans (updSt_onlyVector (vRun_onlyVector ..))⟩

/-! ### The words as one operation -/

theorem vWord_form (f : VFields) (form : Bool → VForm) (s : State) : ∃ form', vWord f form s = vWord f form' s :=
  ⟨form, rfl⟩

theorem elementwise_form (f : VFields) (fn : VIn → Nat → Nat → Nat → Nat → Sp Lane → Nat × Sp Lane) (s : State) :
    ∃ form, elementwise f fn s = vWord f form s := ⟨_, rfl⟩

/-- The words of Uslyn-V but VREP are one operation, at the form of each. -/
theorem exec_vectorWord (f : VFields) (s : State) : ∀ w ∈ vectorWords, ∃ form, exec (w f) s = vWord f form s := by
  simp only [vectorWords, List.forall_mem_cons]
  refine ⟨?vadd, ?vsub, ?vmul, ?vfma, ?vfms, ?vmin, ?vmax, ?vabs, ?vneg, ?vclamp, ?vexp2, ?vlog2, ?vrcp, ?vrsqrt, ?vtanh, ?vsig,
    ?vand, ?vor, ?vxor, ?vshl, ?vshr, ?vsha, ?vcvt, ?vpack, ?vunpack, ?vcmp, ?vsel, ?vmop, ?vperm, ?vbcast, ?vred, ?vscan,
    ?vdefer, ?vdrain, ?vmov, ?vsacc, ?vseed, List.forall_mem_nil _⟩
  case vcvt | vpack | vunpack | vcmp | vsel | vmop | vperm | vbcast | vred | vscan | vdefer | vdrain | vseed =>
    dsimp only [exec, execVcvt, execVpack, execVunpack, execVcmp, execVsel, execVmop, execVperm, execVbcast, execVred,
      execVscan, execVdefer, execVdrain, execVseed]
    exact vWord_form ..
  all_goals exact elementwise_form ..

/-- Settles O30: each word is one operation, and every step of that stays within what the vector engine may change. -/
theorem vectorFrame : Obligations.VectorFrame := by
  intro w hw f s t h
  obtain ⟨form, hform⟩ := exec_vectorWord f s w hw
  obtain ⟨u, hu, hframe⟩ := vWord_onlyVector f form s
  obtain rfl : u = t := Host.Outcome.next.inj (hu.symm.trans (hform.symm.trans h))
  obtain ⟨hme, hst, honly⟩ := hframe
  exact ⟨hme, hst, congrArg (·.ctl) honly, congrArg (·.spad) honly, congrArg (·.lqu) honly, congrArg (·.squ) honly,
    congrArg (·.kqu) honly, congrArg (·.nt) honly, congrArg (·.mrun) honly, congrArg (·.pendDst) honly, congrArg (·.m) honly⟩

end Sys2Proof.Machine
end

section
/-!
SUPPORT. The loop sets of the control state (R211, R213, R214, R216): what each shared operation on them sets and what it leaves
alone, and the statements about leaving them and about the end check.
-/

namespace Sys2Proof.Machine

/-! ### One loop set is replaced -/

theorem Ctl.getZL_setZL (c : Ctl) (k j : Fin 4) (z : LoopSet) : (c.setZL k z).getZL j = if j = k then z else c.getZL j := by
  show (c.zl.set k.val z k.isLt)[j.val]'j.isLt = if j = k then z else c.zl[j.val]'j.isLt
  rw [Vector.getElem_set]
  by_cases h : j = k
  · rw [if_pos h, if_pos (congrArg Fin.val h.symm)]
  · rw [if_neg h, if_neg fun e => h (Fin.ext e.symm)]

@[simp] theorem Ctl.getZL_setZL_same (c : Ctl) (k : Fin 4) (z : LoopSet) : (c.setZL k z).getZL k = z := by
  rw [Ctl.getZL_setZL, if_pos rfl]

theorem Ctl.getZL_setZL_other (c : Ctl) {k j : Fin 4} (z : LoopSet) (h : j ≠ k) : (c.setZL k z).getZL j = c.getZL j := by
  rw [Ctl.getZL_setZL, if_neg h]

/-- A set that has been disarmed: it keeps its registers. -/
def LoopSet.disarmed (z : LoopSet) : LoopSet := { z with armed := false, frozen := false }

@[simp] theorem LoopSet.disarmed_live (z : LoopSet) : z.disarmed.live = false := rfl

/-- `c'` is `c` but for the loop sets, their arming order and the stage predicates. -/
def Ctl.loopsOnly (c c' : Ctl) : Prop := { c' with zl := c.zl, order := c.order, sp := c.sp } = c

theorem Ctl.loopsOnly.eq {a b : Ctl} (h : a.loopsOnly b) : { b with zl := a.zl, order := a.order, sp := a.sp } = a := h

theorem Ctl.loopsOnly.pc {a b : Ctl} (h : a.loopsOnly b) : b.pc = a.pc := (congrArg Ctl.pc h.eq :)

theorem Ctl.loopsOnly.trp {a b : Ctl} (h : a.loopsOnly b) : b.trp = a.trp := (congrArg Ctl.trp h.eq :)

theorem Ctl.loopsOnly.trans {a b c : Ctl} (hab : a.loopsOnly b) (hbc : b.loopsOnly c) : a.loopsOnly c := by
  show { ({ c with zl := b.zl, order := b.order, sp := b.sp } : Ctl) with zl := a.zl, order := a.order, sp := a.sp } = a
  rw [hbc.eq]
  exact hab

/-! ### Disarming and arming (R211, R213) -/

theorem Ctl.getZL_disarm (c : Ctl) (k j : Fin 4) :
    (c.disarm k).getZL j = if j = k then (c.getZL k).disarmed else c.getZL j := by
  have h : (c.disarm k).getZL j = (c.setZL k (c.getZL k).disarmed).getZL j := by
    unfold Ctl.disarm; dsimp only; split <;> rfl
  rw [h, Ctl.getZL_setZL]

@[simp] theorem Ctl.order_disarm (c : Ctl) (k : Fin 4) : (c.disarm k).order = c.order.filter (· ≠ k) := by
  unfold Ctl.disarm; dsimp only; split <;> rfl

@[simp] theorem Ctl.sp_disarm (c : Ctl) (k : Fin 4) : (c.disarm k).sp = if (c.getZL k).staged then 0 else c.sp := by
  unfold Ctl.disarm; dsimp only; split <;> rfl

theorem Ctl.disarm_loopsOnly (c : Ctl) (k : Fin 4) : c.loopsOnly (c.disarm k) := by
  unfold Ctl.loopsOnly Ctl.disarm; dsimp only; split <;> rfl

@[simp] theorem Ctl.pc_disarm (c : Ctl) (k : Fin 4) : (c.disarm k).pc = c.pc := (c.disarm_loopsOnly k).pc

@[simp] theorem Ctl.trp_disarm (c : Ctl) (k : Fin 4) : (c.disarm k).trp = c.trp := (c.disarm_loopsOnly k).trp

theorem Ctl.getZL_arm (c : Ctl) (k j : Fin 4) (z : LoopSet) :
    (c.arm k z).getZL j = if j = k then { z with armed := true, frozen := false } else c.getZL j :=
  c.getZL_setZL k j _

/-- Arming a set anew brings it to the front of the order. -/
theorem Ctl.order_disarm_arm (c : Ctl) (k : Fin 4) (z : LoopSet) :
    ((c.disarm k).arm k z).order = k :: c.order.filter (· ≠ k) := by
  show k :: (c.disarm k).order.filter (· ≠ k) = _
  rw [c.order_disarm, List.filter_filter]
  simp only [Bool.and_self]

/-! ### Leaving loops (R214) -/

/-- Whether a transfer to `t` leaves the set. -/
def LoopSet.leftBy (z : LoopSet) (t : Word) : Bool := z.live && !z.holds t

theorem Ctl.leave_cons_left {c : Ctl} {t : Word} {k : Fin 4} (h : (c.getZL k).leftBy t = true) (r : List (Fin 4)) :
    c.leave t (k :: r) = (c.disarm k).leave t r := if_pos h

theorem Ctl.leave_cons_kept {c : Ctl} {t : Word} {k : Fin 4} (h : (c.getZL k).leftBy t = false) (r : List (Fin 4)) :
    c.leave t (k :: r) = c.leave t r := if_neg (Bool.eq_false_iff.1 h)

/-- A set that has been disarmed is left by no transfer. -/
theorem Ctl.leftBy_disarm (c : Ctl) (t : Word) (k j : Fin 4) :
    ((c.disarm k).getZL j).leftBy t = (decide (j ≠ k) && (c.getZL j).leftBy t) := by
  rw [c.getZL_disarm]
  by_cases h : j = k
  · simp [h, LoopSet.leftBy]
  · simp [h]

theorem Ctl.getZL_leave (t : Word) (l : List (Fin 4)) (j : Fin 4) : ∀ c : Ctl,
    (c.leave t l).getZL j = if j ∈ l ∧ (c.getZL j).leftBy t = true then (c.getZL j).disarmed else c.getZL j := by
  induction l with
  | nil => intro c; simp [Ctl.leave]
  | cons k r ih =>
    intro c
    cases hk : (c.getZL k).leftBy t with
    | true =>
      rw [Ctl.leave_cons_left hk, ih, c.leftBy_disarm, c.getZL_disarm]
      by_cases h : j = k
      · simp [h, hk]
      · simp [h]
    | false =>
      rw [Ctl.leave_cons_kept hk, ih]
      by_cases h : j = k
      · simp [h, hk]
      · simp [h]

theorem Ctl.order_leave (t : Word) (l : List (Fin 4)) : ∀ c : Ctl,
    (c.leave t l).order = c.order.filter fun j => !(decide (j ∈ l) && (c.getZL j).leftBy t) := by
  induction l with
  | nil => intro c; exact (List.filter_eq_self.2 fun j _ => by simp).symm
  | cons k r ih =>
    intro c
    cases hk : (c.getZL k).leftBy t with
    | true =>
      rw [Ctl.leave_cons_left hk, ih, c.order_disarm, List.filter_filter]
      refine List.filter_congr fun j _ => ?_
      rw [c.leftBy_disarm]
      by_cases h : j = k
      · simp [h, hk]
      · simp [h]
    | false =>
      rw [Ctl.leave_cons_kept hk, ih]
      refine List.filter_congr fun j _ => ?_
      by_cases h : j = k
      · simp [h, hk]
      · simp [h]

/-- The stage predicates go with the staged set, and stay with it (R216). -/
theorem Ctl.sp_leave (t : Word) (l : List (Fin 4)) : ∀ c : Ctl,
    (c.leave t l).sp = if l.any fun j => (c.getZL j).leftBy t && (c.getZL j).staged then 0 else c.sp := by
  induction l with
  | nil => intro c; rfl
  | cons k r ih =>
    intro c
    cases hk : (c.getZL k).leftBy t with
    | true =>
      rw [Ctl.leave_cons_left hk, ih, c.sp_disarm, List.any_cons, hk]
      cases hs : (c.getZL k).staged with
      | true => simp
      | false =>
        have hrest : ∀ j, (((c.disarm k).getZL j).leftBy t && ((c.disarm k).getZL j).staged) =
            ((c.getZL j).leftBy t && (c.getZL j).staged) := by
          intro j
          rw [c.leftBy_disarm, c.getZL_disarm]
          by_cases h : j = k
          · simp [h, hs]
          · simp [h]
        simp [hrest]
    | false => rw [Ctl.leave_cons_kept hk, ih, List.any_cons, hk, Bool.false_and, Bool.false_or]

theorem Ctl.leave_loopsOnly (t : Word) (l : List (Fin 4)) : ∀ c : Ctl, c.loopsOnly (c.leave t l) := by
  induction l with
  | nil => intro c; rfl
  | cons k r ih =>
    intro c
    cases hk : (c.getZL k).leftBy t with
    | true => rw [Ctl.leave_cons_left hk]; exact (c.disarm_loopsOnly k).trans (ih _)
    | false => rw [Ctl.leave_cons_kept hk]; exact ih c

/-- Settles O4: one fact for each part of the control state, each by induction on the list. -/
theorem leavingLoops : Obligations.LeavingLoops := by
  intro c t l out c'
  have hout : ∀ k, out k = (decide (k ∈ l) && (c.getZL k).leftBy t) := fun k => Bool.and_assoc ..
  refine ⟨fun k => ?_, ?_, ?_, c.leave_loopsOnly t l⟩
  · rw [Ctl.getZL_leave, hout]
    simp only [Bool.and_eq_true, decide_eq_true_eq]
    rfl
  · rw [Ctl.order_leave]
    simp only [hout]
  · rw [Ctl.sp_leave]
    have hany : (l.any fun j => (c.getZL j).leftBy t && (c.getZL j).staged) =
        (List.finRange 4).any fun k => out k && (c.getZL k).staged := by
      rw [Bool.eq_iff_iff]
      simp [hout, and_assoc]
    rw [hany]

/-! ### The end check (R213) -/

/-- Whether the end check at `a` acts on set `l`. -/
def Ctl.ends (c : Ctl) (a : Word) (l : Fin 4) : Bool := (c.getZL l).live && decide ((c.getZL l).zle = a)

theorem Ctl.endCheck_skips {c : Ctl} {a : Word} {pre : List (Fin 4)} (h : ∀ l ∈ pre, c.ends a l = false) (r : List (Fin 4)) :
    c.endCheck a (pre ++ r) = c.endCheck a r := by
  induction pre with
  | nil => rfl
  | cons k pre ih =>
    have hk : c.ends a k = false := h k (List.mem_cons_self ..)
    exact (if_neg (Bool.eq_false_iff.1 hk)).trans (ih fun l hl => h l (List.mem_cons_of_mem _ hl))

theorem Ctl.endCheck_ends {c : Ctl} {a : Word} {k : Fin 4} (h : c.ends a k = true) (r : List (Fin 4)) :
    c.endCheck a (k :: r) = if (c.getZL k).zlc = 0 then (c.disarm k).endCheck a r else c.loopBack k := if_pos h

theorem Ctl.endCheck_none {c : Ctl} {a : Word} {l : List (Fin 4)} (h : ∀ k ∈ l, c.ends a k = false) :
    c.endCheck a l = { c with pc := a + 4 } := by
  have := Ctl.endCheck_skips h []
  rwa [List.append_nil] at this

theorem Ctl.ends_disarm (c : Ctl) (a : Word) {k j : Fin 4} (h : c.ends a j = false) : (c.disarm k).ends a j = false := by
  rw [Ctl.ends, c.getZL_disarm]
  split
  · rfl
  · exact h

/-! ### Stage predicates (R213, R216) -/

theorem stageBits_getLsbD (sp : BitVec 8) (stages : BitVec 3) {n : Nat} (hn : n < 8) :
    (stageBits sp stages).getLsbD n = (sp.getLsbD n && decide (n < stages.toNat)) := by
  rw [stageBits, BitVec.getLsbD_and, BitVec.getLsbD_ofNat, Nat.testBit_two_pow_sub_one, decide_eq_true hn, Bool.true_and]

theorem rotateSP_getLsbD_zero (sp : BitVec 8) (stages : BitVec 3) (zlc : BitVec 32) :
    (rotateSP sp stages zlc).getLsbD 0 = decide (stages.toNat ≤ zlc.toNat + 1) := by
  unfold rotateSP
  dsimp only
  split
  · next h => simp [h]
  · next h => simp [h]

theorem rotateSP_getLsbD_succ (sp : BitVec 8) (stages : BitVec 3) (zlc : BitVec 32) {n : Nat} (hpos : 0 < n) (hn : n < 8) :
    (rotateSP sp stages zlc).getLsbD n = (decide (n < stages.toNat) && sp.getLsbD (n - 1)) := by
  have hshift : (stageBits (sp <<< 1) stages).getLsbD n = (decide (n < stages.toNat) && sp.getLsbD (n - 1)) := by
    rw [stageBits_getLsbD _ _ hn, Bool.and_comm, BitVec.getLsbD_shiftLeft, decide_eq_true hn,
      decide_eq_false (Nat.not_lt.2 hpos)]
    rfl
  have hone : (1 : BitVec 8).getLsbD n = false := by
    show (1#8).getLsbD n = false
    rw [BitVec.getLsbD_one, decide_eq_false (Nat.pos_iff_ne_zero.1 hpos), Bool.and_false]
  unfold rotateSP
  dsimp only
  split
  · rw [BitVec.getLsbD_or, hshift, hone, Bool.or_false]
  · rw [BitVec.getLsbD_and, BitVec.getLsbD_not, hshift, hone, decide_eq_true hn]
    exact Bool.and_true _

/-! ### One loop-back (R213, R214) -/

/-- Set `k` has counted an iteration: ZLC is one less and the stage predicates of a staged set have moved. -/
def Ctl.counted (c : Ctl) (k : Fin 4) : Ctl :=
  { c.setZL k { c.getZL k with zlc := (c.getZL k).zlc - 1 } with
    sp := if (c.getZL k).stages ≠ 0 then rotateSP c.sp (c.getZL k).stages ((c.getZL k).zlc - 1) else c.sp }

theorem Ctl.loopBack_eq (c : Ctl) (k : Fin 4) :
    c.loopBack k =
      { (c.counted k).leave (c.getZL k).zls (c.order.filter (· ≠ k)) with pc := (c.getZL k).zls } := by
  unfold Ctl.loopBack Ctl.counted
  dsimp only
  split <;> rfl

theorem Ctl.getZL_counted_other (c : Ctl) {k l : Fin 4} (h : l ≠ k) : (c.counted k).getZL l = c.getZL l :=
  c.getZL_setZL_other _ h

theorem Ctl.getZL_loopBack_same (c : Ctl) (k : Fin 4) :
    (c.loopBack k).getZL k = { c.getZL k with zlc := (c.getZL k).zlc - 1 } := by
  rw [Ctl.loopBack_eq]
  show ((c.counted k).leave _ _).getZL k = _
  rw [Ctl.getZL_leave, if_neg (by simp)]
  exact c.getZL_setZL_same k _

theorem Ctl.getZL_loopBack_other (c : Ctl) {k l : Fin 4} (h : l ≠ k) :
    (c.loopBack k).getZL l =
      if l ∈ c.order ∧ (c.getZL l).live = true ∧ (c.getZL l).holds (c.getZL k).zls = false then (c.getZL l).disarmed
      else c.getZL l := by
  rw [Ctl.loopBack_eq]
  show ((c.counted k).leave _ _).getZL l = _
  rw [Ctl.getZL_leave, c.getZL_counted_other h]
  simp [h, LoopSet.leftBy]

/-- Where no other set is staged, leaving the other loops keeps the stage predicates. -/
theorem Ctl.sp_loopBack (c : Ctl) (k : Fin 4) (hstages : (c.getZL k).stages ≠ 0) (hother : c.stagedOther k = false) :
    (c.loopBack k).sp = rotateSP c.sp (c.getZL k).stages ((c.getZL k).zlc - 1) := by
  rw [Ctl.loopBack_eq]
  show ((c.counted k).leave _ _).sp = _
  rw [Ctl.sp_leave, if_neg]
  · exact if_pos hstages
  · simp only [Ctl.stagedOther, List.any_eq_false, List.mem_finRange, true_imp_iff, Bool.and_eq_true, decide_eq_true_eq,
      not_and] at hother
    simp only [List.any_eq_true, List.mem_filter, decide_eq_true_eq, Bool.and_eq_true, not_exists, not_and]
    rintro j ⟨-, hj⟩ -
    rw [c.getZL_counted_other hj]
    exact hother j hj

theorem Ctl.loopBack_loopsOnly (c : Ctl) (k : Fin 4) : c.loopsOnly { c.loopBack k with pc := c.pc } := by
  have hcounted : c.loopsOnly (c.counted k) := rfl
  have hleft := hcounted.trans ((c.counted k).leave_loopsOnly (c.getZL k).zls (c.order.filter (· ≠ k)))
  rw [Ctl.loopBack_eq]
  exact congrArg (fun x : Ctl => { x with pc := c.pc }) hleft.eq

theorem exec_nop (g : Guard) (s : State) : exec (.nop g) s = .next s.retire := by
  show guarded g s done = _
  unfold guarded
  split <;> rfl

/-- A word that retires leaves what the end check gives. -/
theorem retire_of_endCheck {s : State} {c' : Ctl} {a : Word} (h : s.ctl.endCheck s.ctl.pc s.ctl.order = { c' with pc := a }) :
    s.retire = (s.updCtl fun _ => c').went a := by
  have h' : s.me.st.ctl.endCheck s.me.st.ctl.pc s.me.st.ctl.order = { c' with pc := a } := h
  simp only [State.retire, State.updSt, h']
  rfl

/-- Settles O43: a NOP retires, and the end check stops at the first set that ends: it goes back there or disarms it. -/
theorem loopBack : Obligations.LoopBack := by
  intro s g pre post k horder ends z hk hpre
  have hcheck : s.ctl.endCheck s.ctl.pc s.ctl.order =
      if z.zlc = 0 then (s.ctl.disarm k).endCheck s.ctl.pc post else s.ctl.loopBack k := by
    rw [horder, Ctl.endCheck_skips hpre, Ctl.endCheck_ends hk]
  rw [exec_nop]
  refine ⟨fun hzlc => ?back, fun hzlc hpost => ?ends⟩
  case back =>
    rw [if_neg hzlc] at hcheck
    refine ⟨s.ctl.loopBack k, ?_, s.ctl.getZL_loopBack_same k, fun l hl => s.ctl.getZL_loopBack_other hl, fun hstages hother => ?_,
      s.ctl.loopBack_loopsOnly k⟩
    · have hpc : s.ctl.loopBack k = { s.ctl.loopBack k with pc := z.zls } := by rw [Ctl.loopBack_eq]
      rw [retire_of_endCheck (hcheck.trans hpc)]
    · rw [s.ctl.sp_loopBack k hstages hother, rotateSP_getLsbD_zero]
      refine ⟨?_, fun n hpos hn => rotateSP_getLsbD_succ _ _ _ hpos hn⟩
      have : (z.zlc - 1).toNat + 1 = z.zlc.toNat := by bv_omega
      rw [← this]
  case ends =>
    rw [if_pos hzlc, Ctl.endCheck_none fun l hl => s.ctl.ends_disarm _ (hpost l hl)] at hcheck
    refine ⟨s.ctl.disarm k, by rw [retire_of_endCheck hcheck], ?_, fun l hl => ?_, s.ctl.order_disarm k, s.ctl.sp_disarm k,
      congrArg (fun x : Ctl => { x with pc := s.ctl.pc }) (s.ctl.disarm_loopsOnly k).eq⟩
    · rw [s.ctl.getZL_disarm, if_pos rfl]; rfl
    · rw [s.ctl.getZL_disarm, if_neg hl]

end Sys2Proof.Machine
end

section
/-!
SUPPORT. The words on loop sets (R211, R212, R216 to R218, R350): ZLOOP, ZLSET, ZLSV and ZLRS, and the statements about them.
-/

namespace Sys2Proof.Machine

/-! ### No loop ends at the word, after its own change of a loop set -/

/-- Replacing one set keeps the word free of loop ends where the new set does not end at it. -/
theorem straight_of_replaced {s t : State} (k : Fin 4) (hpc : t.ctl.pc = s.ctl.pc)
    (horder : ∀ l ∈ t.ctl.order, l = k ∨ l ∈ s.ctl.order) (hother : ∀ l, l ≠ k → t.ctl.getZL l = s.ctl.getZL l)
    (hk : k ∈ t.ctl.order → (t.ctl.getZL k).live = true → (t.ctl.getZL k).zle ≠ s.ctl.pc) (h : s.straight) : t.straight := by
  intro l hl hlive
  rw [hpc]
  by_cases e : l = k
  · subst e; exact hk hl hlive
  · rw [hother l e] at hlive ⊢
    exact h l ((horder l hl).resolve_left e) hlive

theorem setZL_straight {s : State} (k : Fin 4) (z : LoopSet) (hk : k ∈ s.ctl.order → z.live = true → z.zle ≠ s.ctl.pc)
    (h : s.straight) : (s.updCtl fun c => c.setZL k z).straight := by
  refine straight_of_replaced (s := s) k rfl (fun l hl => .inr hl) (fun l hl => s.ctl.getZL_setZL_other z hl) ?_ h
  have e : (s.updCtl fun c => c.setZL k z).ctl.getZL k = z := s.ctl.getZL_setZL_same k z
  rw [e]
  exact hk

/-! ### ZLOOP (R212) -/

/-- Set `l` as a ZLOOP with these stages over the next `last` words gives it, but for ZLC and whether it is armed. -/
def Ctl.looped (c : Ctl) (l : Fin 4) (stages : BitVec 3) (last : BitVec 11) : LoopSet :=
  { c.getZL l with zls := c.pc + 4, zle := c.pc + 4 * last.setWidth 64, stages := stages }

theorem Ctl.getZL_zloop_other (c : Ctl) {l j : Fin 4} (h : j ≠ l) (stages : BitVec 3) (t : Nat) (last : BitVec 11) :
    (c.zloop l stages t last).getZL j = c.getZL j := by
  have hz : ∀ z, ((c.disarm l).setZL l z).getZL j = c.getZL j := fun z => by
    rw [Ctl.getZL_setZL_other _ z h, c.getZL_disarm, if_neg h]
  unfold Ctl.zloop
  dsimp only
  split
  · exact hz _
  · split <;> exact hz _

theorem Ctl.zloop_loopsOnly (c : Ctl) (l : Fin 4) (stages : BitVec 3) (t : Nat) (last : BitVec 11) :
    c.loopsOnly (c.zloop l stages t last) := by
  refine (c.disarm_loopsOnly l).trans ?_
  unfold Ctl.zloop
  dsimp only
  generalize c.disarm l = b
  split
  · rfl
  · split <;> rfl

/-- Without an iteration the set takes its registers and stays unarmed. -/
theorem Ctl.zloop_skip (c : Ctl) (l : Fin 4) (stages : BitVec 3) (last : BitVec 11) :
    (c.zloop l stages 0 last).getZL l = (c.looped l stages last).disarmed ∧
      (c.zloop l stages 0 last).order = c.order.filter (· ≠ l) := by
  refine ⟨((c.disarm l).getZL_setZL_same l _).trans ?_, c.order_disarm l⟩
  rw [c.getZL_disarm, if_pos rfl]
  rfl

/-- With iterations the set is armed anew: first in arming order, and with SP0 alone where it is staged. -/
theorem Ctl.zloop_arms (c : Ctl) (l : Fin 4) (stages : BitVec 3) {t : Nat} (ht : t ≠ 0) (last : BitVec 11) :
    (c.zloop l stages t last).getZL l =
        { c.looped l stages last with
          armed := true, frozen := false, zlc := BitVec.ofNat 32 (zloopLast t stages.toNat) } ∧
      (c.zloop l stages t last).order = l :: c.order.filter (· ≠ l) ∧
      (c.zloop l stages t last).sp = if stages ≠ 0 then 1 else if (c.getZL l).staged then 0 else c.sp := by
  have hz : ∀ z : LoopSet, ((c.disarm l).arm l z).getZL l = { z with armed := true, frozen := false } := fun z => by
    rw [Ctl.getZL_arm, if_pos rfl]
  unfold Ctl.zloop
  dsimp only
  rw [if_neg ht]
  have hset : (c.disarm l).getZL l = (c.getZL l).disarmed := by rw [c.getZL_disarm, if_pos rfl]
  by_cases hs : stages = 0
  · rw [if_pos hs, if_neg (Classical.not_not.2 hs), hset]
    exact ⟨hz _, c.order_disarm_arm l _, c.sp_disarm l⟩
  · rw [if_neg hs, if_pos hs, hset]
    exact ⟨hz _, c.order_disarm_arm l (c.looped l stages last), rfl⟩

theorem zloopLast_eq (n : Nat) (stages : BitVec 3) :
    zloopLast n stages.toNat = if stages = 0 then n - 1 else n + stages.toNat - 2 := by
  unfold zloopLast
  by_cases h : stages = 0
  · rw [if_pos h, if_pos (by rw [h]; rfl)]
  · rw [if_neg h, if_neg fun e : stages.toNat = 0 => h (BitVec.eq_of_toNat_eq e)]

theorem zloopBad_false {n : Nat} {stages : BitVec 3} (hn : n < 2 ^ 32) (hs : stages ≠ 0 → n + stages.toNat < 2 ^ 32 + 2) :
    zloopBad n stages.toNat = false := by
  have hrange : stages.toNat ≠ 0 → ¬ 0xFFFFFFFF < (n : Int) + stages.toNat - 2 := by
    intro h
    have := hs fun e => h (by rw [e]; rfl)
    omega
  simp only [zloopBad, Bool.or_eq_false_iff, Bool.and_eq_false_iff, decide_eq_false_iff_not]
  refine ⟨Nat.not_le.2 hn, ?_⟩
  by_cases h : stages.toNat = 0
  · exact .inl (Classical.not_not.2 h)
  · exact .inr (hrange h)

/-- A transfer whose target may be entered from a word that ends no loop goes on. -/
theorem transfer_enters {s : State} {t : Word} (h : s.enters t) (k : State → Out) : transfer t s k = k s := by
  obtain ⟨halign, hrange, hend⟩ := h
  rw [transfer, State.badTarget, if_neg (Classical.not_not.2 halign), if_pos hrange]
  exact if_neg (Bool.eq_false_iff.1 hend)

/-- Settles O5: the checks of ZLOOP pass, and the control state is that of the two lemmas on `Ctl.zloop`. -/
theorem loopArms : Obligations.LoopArms := by
  intro s g l stages a last hg hb n k z skip
  have hexec : exec (.zloop g l stages a last) s = _ := reads_of_guard hg hb
  refine ⟨fun hn hend hlt hrange hstage => ?arms, fun hn henters => ?skips⟩
  case arms =>
    obtain ⟨hset, horder, hsp⟩ := s.ctl.zloop_arms k stages hn last
    refine ⟨s.ctl.zloop k stages n last, ?_, ?_, fun j hj => s.ctl.getZL_zloop_other hj .., horder, hsp,
      s.ctl.zloop_loopsOnly ..⟩
    · have hbad : zloopBad n stages.toNat = false := zloopBad_false hlt hrange
      have hother : ¬ (stages ≠ 0 ∧ s.ctl.stagedOther k = true) := by
        rintro ⟨hs, ht⟩
        rcases hstage with h | h
        · exact hs h
        · rw [ht] at h; cases h
      exact hexec.trans <| (if_neg hn).trans <| (if_neg (Bool.eq_false_iff.1 hend)).trans <|
        (if_neg (Bool.eq_false_iff.1 hbad)).trans <| if_neg hother
    · rw [hset, zloopLast_eq]; rfl
  case skips =>
    obtain ⟨hset, horder⟩ := s.ctl.zloop_skip k stages last
    refine ⟨s.ctl.zloop k stages 0 last, ?_, hset, fun j hj => s.ctl.getZL_zloop_other hj .., horder⟩
    have hskip : exec (.zloop g l stages a last) s =
        transfer skip s fun _ => .next ((s.updCtl fun c => c.zloop k stages n last).retireTo skip) :=
      hexec.trans (if_pos hn)
    rw [hskip, transfer_enters henters, hn]
    rfl

/-! ### ZLSET (R217) -/

theorem loopAddrOk_of {v : Word} (halign : v.toNat % 4 = 0) (hlt : v.toNat < 2 ^ 56) : loopAddrOk v = true := by
  rw [loopAddrOk, decide_eq_true halign, decide_eq_true hlt]; rfl

/-- ZLSET's new set does not end at this word: its end is the old one, or the set is not live, or ends elsewhere. -/
theorem zlset_done {s : State} (hs : s.straight) (k : Fin 4) {z : LoopSet} (hlive : z.live = (s.ctl.getZL k).live)
    (hend : z.zle = (s.ctl.getZL k).zle ∨ z.live = false ∨ z.zle ≠ s.ctl.pc) :
    done (s.updCtl fun c => c.setZL k z) = .next (s.updCtl fun c => c.setZL k z).fell := by
  refine done_straight _ (setZL_straight k z (fun hk h => ?_) hs)
  rcases hend with hend | hend | hend
  · rw [hend]; exact hs k hk (hlive ▸ h)
  · rw [hend] at h; cases h
  · exact hend

/-- The stage predicates that a STAGES of `v` leaves to the staged set. -/
theorem stageBits_setWidth (sp : BitVec 8) {v : Word} (h : v.toNat ≤ 7) :
    stageBits sp (v.setWidth 3) = sp &&& BitVec.ofNat 8 (2 ^ v.toNat - 1) := by
  have : (v.setWidth 3).toNat = v.toNat := by rw [BitVec.toNat_setWidth]; omega
  rw [stageBits, this]

theorem zlset_words {s : State} {g : Guard} {a : Reg} (l : BitVec 2) (h : s.ready g [a]) :
    let v := s.getG a
    let k := zlIdx l
    let z := s.ctl.getZL k
    (v.toNat % 4 = 0 → v.toNat < 2 ^ 56 →
      exec (.zlset g l .zls a) s = .next (s.updCtl fun c => c.setZL k { z with zls := v }).fell) ∧
    (v.toNat % 4 = 0 → v.toNat < 2 ^ 56 → (z.live = false ∨ v ≠ s.ctl.pc) →
      exec (.zlset g l .zle a) s = .next (s.updCtl fun c => c.setZL k { z with zle := v }).fell) ∧
    (v.toNat < 2 ^ 32 →
      exec (.zlset g l .zlc a) s = .next (s.updCtl fun c => c.setZL k { z with zlc := v.setWidth 32 }).fell) ∧
    (v.toNat ≤ 7 → (v = 0 ∨ z.armed = false ∨ s.ctl.stagedOther k = false) →
      exec (.zlset g l .stages a) s = .next (s.updCtl fun c =>
        { c.setZL k { z with stages := v.setWidth 3 } with
          sp := if z.staged = true then c.sp &&& BitVec.ofNat 8 (2 ^ v.toNat - 1) else c.sp }).fell) := by
  intro v k z
  obtain ⟨hg, hb, hs⟩ := h
  refine ⟨fun halign hlt => ?zls, fun halign hlt hend => ?zle, fun hlt => ?zlc, fun hlt hstage => ?stages⟩
  case zls =>
    refine (reads_of_guard hg hb).trans <| (if_pos (loopAddrOk_of halign hlt)).trans ?_
    exact zlset_done hs k rfl (.inl rfl)
  case zle =>
    refine (reads_of_guard hg hb).trans <| (if_pos (loopAddrOk_of halign hlt)).trans ?_
    exact zlset_done hs k rfl (.inr hend)
  case zlc =>
    refine (reads_of_guard hg hb).trans <| (if_pos hlt).trans ?_
    exact zlset_done hs k rfl (.inl rfl)
  case stages =>
    have hother : ¬ (v ≠ 0 ∧ z.armed = true ∧ s.ctl.stagedOther k = true) := by
      rintro ⟨hv, harmed, hstaged⟩
      rcases hstage with h | h | h
      · exact hv h
      · rw [harmed] at h; cases h
      · rw [hstaged] at h; cases h
    refine (reads_of_guard hg hb).trans <| (if_neg (Nat.not_lt.2 hlt)).trans <| (if_neg hother).trans ?_
    have hctl : (fun c : Ctl =>
        let c1 := c.setZL k { z with stages := v.setWidth 3 }
        if z.staged then { c1 with sp := stageBits c1.sp (v.setWidth 3) } else c1) = fun c =>
        { c.setZL k { z with stages := v.setWidth 3 } with
          sp := if z.staged = true then c.sp &&& BitVec.ofNat 8 (2 ^ v.toNat - 1) else c.sp } := by
      funext c
      dsimp only
      split
      · rw [stageBits_setWidth _ hlt]; rfl
      · rfl
    refine (congrArg (fun f => done (s.updCtl f)) hctl).trans <| done_straight _ ?_
    refine straight_of_ctl (s := s.updCtl fun c => c.setZL k { z with stages := v.setWidth 3 }) rfl rfl rfl ?_
    exact setZL_straight k _ (fun hk hlive => hs k hk hlive) hs

/-! ### Four accesses (R218) -/

theorem findsAll_st {write : Bool} {s' : State} : ∀ {pls : List Place} {s : State} {ea : Word}, s.findsAll ea write pls s' →
    s'.me.st = s.me.st.release .c
  | [], s, _, h => by
    have h : s' = s.updSt fun t => t.release .c := h
    rw [h]; rfl
  | pl :: r, s, ea, h => by
    obtain ⟨_, _, s1, hlook, hrest⟩ := h
    have hst := lookup_st s ea.toNat 8 write none
    rw [hlook] at hst
    rw [findsAll_st hrest, hst]

theorem findsAll_ctl {write : Bool} {s s' : State} {pls : List Place} {ea : Word} (h : s.findsAll ea write pls s') :
    s'.ctl = s.ctl := by
  rw [State.ctl, findsAll_st h]; rfl

/-- Checks that all pass hand over the places in the order of their addresses. -/
theorem accessingAll_findsAll {write : Bool} {s' : State} (k : List Place → State → Out) :
    ∀ {pls : List Place} {s : State} {ea : Word} (acc : List Place), s.findsAll ea write pls s' →
    accessingAll ea pls.length write acc s k = k (acc.reverse ++ pls) s'
  | [], s, _, acc, h => by
    have h : s' = s.updSt fun t => t.release .c := h
    rw [h, List.append_nil]; rfl
  | pl :: r, s, ea, acc, h => by
    obtain ⟨hlt, halign, s1, hlook, hrest⟩ := h
    have hchecks : accessingAll ea (pl :: r).length write acc s k = accessingAll (ea + 8) r.length write (pl :: acc) s1 k := by
      show checking ea 8 write none s _ = _
      rw [checking, if_neg (Nat.not_le.2 hlt), if_neg (Classical.not_not.2 halign), located, hlook]
    rw [hchecks, accessingAll_findsAll k (pl :: acc) hrest, List.reverse_cons, List.append_assoc]
    rfl

/-! ### ZLSV (R218) -/

/-- The record's third doubleword, flag by flag. -/
theorem zlRecord_eq (z : LoopSet) (sp : BitVec 8) :
    zlRecord z sp = [z.zls, z.zle, BitVec.ofNat 64 (z.zlc.toNat + z.stages.toNat * 2 ^ 32 + (if z.armed then 2 ^ 35 else 0) +
      (if z.armed ∧ z.stages ≠ 0 then sp.toNat * 2 ^ 40 else 0)), 0] := by
  have harmed : z.armed.toNat * 2 ^ 35 = if z.armed then 2 ^ 35 else 0 := by cases z.armed <;> rfl
  have hsp : (if z.staged then sp.toNat else 0) * 2 ^ 40 = if z.armed ∧ z.stages ≠ 0 then sp.toNat * 2 ^ 40 else 0 := by
    have hstaged : z.staged = true ↔ z.armed = true ∧ z.stages ≠ 0 := by
      rw [LoopSet.staged, Bool.and_eq_true, decide_eq_true_eq]
    by_cases h : z.armed = true ∧ z.stages ≠ 0
    · rw [if_pos h, if_pos (hstaged.2 h)]
    · rw [if_neg h, if_neg fun e => h (hstaged.1 e), Nat.zero_mul]
  rw [zlRecord, harmed, hsp]

theorem zlsv_issues {s s1 : State} {g : Guard} {a : Reg} {pls : List Place} (l : BitVec 2) (h : s.ready g [a])
    (hlen : pls.length = 4) (hfinds : s.findsAll (s.getG a) true pls s1) (hroom : hasRoom s.me.st.squ) :
    exec (.zlsv g l a) s =
      .next (s1.pushS (.zlsv (s.getG a) pls (zlRecord (s.ctl.getZL (zlIdx l)) s.ctl.sp)) 0 0 []).fell := by
  obtain ⟨hg, hb, hs⟩ := h
  have hctl := findsAll_ctl hfinds
  have hs1 : s1.straight := straight_of_ctl (by rw [hctl]) (by rw [hctl]) (by rw [hctl]) hs
  have hroom1 : hasRoom s1.me.st.squ := by rw [findsAll_st hfinds]; exact hroom
  refine (reads_of_guard hg hb).trans ?_
  rw [← hlen, accessingAll_findsAll _ [] hfinds, List.reverse_nil, List.nil_append, hctl, State.getG, hctl]
  exact issueS_room _ 0 0 s1 hs1 hroom1

/-! ### ZLRS (R218, R350) -/

theorem zlrs_issues {s s1 : State} {g : Guard} {a : Reg} {pls : List Place} (l : BitVec 2) (h : s.ready g [a])
    (hlen : pls.length = 4) (hnone : s.me.st.zlrec = none) (hfinds : s.findsAll (s.getG a) false pls s1)
    (hroom : hasRoom s.me.st.lqu) :
    exec (.zlrs g l a) s = .next ((s1.pushL (.zlrs l (s.getG a) pls) 0 0).updSt fun t =>
      { t with zlrec := some (s.me.st.seq, []) }).stalled := by
  obtain ⟨hg, hb, -⟩ := h
  have hst := findsAll_st hfinds
  have hroom1 : queueFull s1.me.st.lqu = false := by rw [hst]; exact hroom
  have hissue : exec (.zlrs g l a) s = issueZlrs l (s.getG a) s := by
    refine (reads_of_guard hg hb).trans ?_
    simp only [hnone]
  rw [hissue, issueZlrs, ← hlen, accessingAll_findsAll _ [] hfinds, List.reverse_nil, List.nil_append, if_neg (by rw [hroom1]; simp)]
  have hseq : s1.me.st.seq = s.me.st.seq := by rw [hst]; rfl
  rw [← hseq]
  rfl

/-- Once the four doublewords have come, a record in order is installed where that leaves one staged set (R216). -/
theorem zlrs_installs {s : State} {g : Guard} {a : Reg} {n : Nat} {ws : List Word} (l : BitVec 2) (h : s.ready g [a])
    (hrec : s.me.st.zlrec = some (n, ws)) (hlen : ws.length = 4) (hok : zlRecordOk ws = true)
    (hstage : (zlOfRecord ws).staged = false ∨ s.ctl.stagedOther (zlIdx l) = false) :
    exec (.zlrs g l a) s =
      done ((s.updSt fun t => { t with zlrec := none }).updCtl fun c => c.zlInstall (zlIdx l) ws) := by
  obtain ⟨hg, hb, -⟩ := h
  have hloaded : s.me.st.zlLoaded = some ws := by simp only [Strand.zlLoaded, hrec, hlen, if_true]
  have hother : ¬ ((zlOfRecord ws).staged = true ∧ s.ctl.stagedOther (zlIdx l) = true) := by
    rintro ⟨h1, h2⟩
    rcases hstage with h | h
    · rw [h1] at h; cases h
    · rw [h2] at h; cases h
  refine (reads_of_guard hg hb).trans ?_
  simp only [hrec, hloaded]
  exact (if_neg (by rw [hok]; simp)).trans (if_neg hother)

theorem Ctl.zlInstall_unarmed (c : Ctl) (k : Fin 4) {ws : List Word} (h : (zlOfRecord ws).armed = false) :
    c.zlInstall k ws = (c.disarm k).setZL k (zlOfRecord ws) := if_neg (Bool.eq_false_iff.1 h)

/-- An armed set takes the place of set `k`: first in arming order, frozen while a handler runs. -/
def Ctl.installed (c : Ctl) (k : Fin 4) (z : LoopSet) : Ctl :=
  if c.trp.h then ((c.disarm k).arm k z).setZL k { z with frozen := true } else (c.disarm k).arm k z

theorem Ctl.getZL_installed_same (c : Ctl) (k : Fin 4) {z : LoopSet} (h : z.armed = true) :
    (c.installed k z).getZL k = { z with frozen := c.trp.h } := by
  unfold Ctl.installed
  split
  · next hh => rw [Ctl.getZL_setZL_same, hh]
  · next hh => rw [Ctl.getZL_arm, if_pos rfl, Bool.eq_false_iff.2 hh, ← h]

theorem Ctl.getZL_installed_other (c : Ctl) {k j : Fin 4} (hj : j ≠ k) (z : LoopSet) : (c.installed k z).getZL j = c.getZL j := by
  have harm : ((c.disarm k).arm k z).getZL j = c.getZL j := by rw [Ctl.getZL_arm, if_neg hj, c.getZL_disarm, if_neg hj]
  unfold Ctl.installed
  split
  · rw [Ctl.getZL_setZL_other _ _ hj, harm]
  · exact harm

@[simp] theorem Ctl.order_installed (c : Ctl) (k : Fin 4) (z : LoopSet) : (c.installed k z).order = k :: c.order.filter (· ≠ k) := by
  unfold Ctl.installed
  split <;> exact c.order_disarm_arm k z

@[simp] theorem Ctl.sp_installed (c : Ctl) (k : Fin 4) (z : LoopSet) :
    (c.installed k z).sp = if (c.getZL k).staged then 0 else c.sp := by
  unfold Ctl.installed
  split <;> exact c.sp_disarm k

theorem Ctl.installed_loopsOnly (c : Ctl) (k : Fin 4) (z : LoopSet) : c.loopsOnly (c.installed k z) := by
  refine (c.disarm_loopsOnly k).trans ?_
  unfold Ctl.installed
  generalize c.disarm k = b
  split <;> rfl

theorem Ctl.zlInstall_armed (c : Ctl) (k : Fin 4) {ws : List Word} (h : (zlOfRecord ws).armed = true) :
    c.zlInstall k ws = { c.installed k (zlOfRecord ws) with
      sp := if (zlOfRecord ws).stages ≠ 0 then
          stageBits (BitVec.ofNat 8 ((ws.getD 2 0).toNat / 2 ^ 40)) (zlOfRecord ws).stages
        else if (c.getZL k).staged then 0 else c.sp } := by
  have hinstalled : c.zlInstall k ws = if (zlOfRecord ws).stages ≠ 0 then
      { c.installed k (zlOfRecord ws) with
        sp := stageBits (BitVec.ofNat 8 ((ws.getD 2 0).toNat / 2 ^ 40)) (zlOfRecord ws).stages }
      else c.installed k (zlOfRecord ws) := by
    unfold Ctl.zlInstall
    dsimp only
    rw [if_pos h, Ctl.installed, ← c.trp_disarm k]
  rw [hinstalled]
  split
  · rfl
  · rw [← c.sp_installed k (zlOfRecord ws)]

/-- Settles O8: ZLSET writes its field; ZLSV and ZLRS hand over four checked places; a loaded record becomes its set. -/
theorem loopSetWords : Obligations.LoopSetWords := by
  refine ⟨fun s g l a h => zlset_words l h, fun s s1 g l a pls h hlen hfinds hroom => ?stores,
    fun s s1 g l a pls h hlen hnone hfinds hroom => zlrs_issues l h hlen hnone hfinds hroom, ?installs⟩
  case stores =>
    intro z ctlWord
    rw [zlsv_issues l h hlen hfinds hroom, zlRecord_eq]
  case installs =>
    intro s g l a n ws h hrec hlen hok z k
    refine ⟨fun harmed => ?unarmed, fun harmed hstage hend => ?armed⟩
    case unarmed =>
      have hstaged : z.staged = false := by rw [LoopSet.staged, harmed, Bool.false_and]
      have hctl : (fun c : Ctl => c.zlInstall k ws) = fun c => (c.disarm k).setZL k z :=
        funext fun c => c.zlInstall_unarmed k harmed
      rw [zlrs_installs l h hrec hlen hok (.inl hstaged)]
      refine (congrArg (fun f => done (State.updCtl _ f)) hctl).trans <| done_straight _ ?_
      refine straight_of_replaced k (s.ctl.pc_disarm k) (fun j hj => .inr ?_) (fun j hj => ?_) (fun hk hlive => ?_) h.2.2
      · have hj : j ∈ s.ctl.order.filter (· ≠ k) := (s.ctl.order_disarm k) ▸ hj
        exact (List.mem_filter.1 hj).1
      · exact (Ctl.getZL_setZL_other _ z hj).trans ((s.ctl.getZL_disarm k j).trans (if_neg hj))
      · have hz : z.live = true := (congrArg LoopSet.live ((s.ctl.disarm k).getZL_setZL_same k z)) ▸ hlive
        rw [LoopSet.live, harmed] at hz
        cases hz
    case armed =>
      have hz : z.staged = false ∨ s.ctl.stagedOther k = false :=
        hstage.imp_left fun h => by rw [LoopSet.staged, h]; simp
      have hset := s.ctl.zlInstall_armed k harmed
      have hother : ∀ j, j ≠ k → (s.ctl.zlInstall k ws).getZL j = s.ctl.getZL j := fun j hj => by
        rw [hset]; exact s.ctl.getZL_installed_other hj z
      have hsame : (s.ctl.zlInstall k ws).getZL k = { z with frozen := s.ctl.trp.h } := by
        rw [hset]; exact s.ctl.getZL_installed_same k harmed
      have horder : (s.ctl.zlInstall k ws).order = k :: s.ctl.order.filter (· ≠ k) := by
        rw [hset]; exact s.ctl.order_installed k z
      have hframe : s.ctl.loopsOnly (s.ctl.zlInstall k ws) := by
        rw [hset]; exact s.ctl.installed_loopsOnly k z
      refine ⟨s.ctl.zlInstall k ws, ?_, hsame, hother, horder, by rw [hset]; rfl, hframe⟩
      rw [zlrs_installs l h hrec hlen hok hz]
      refine done_straight _ <| straight_of_replaced (s := s) k hframe.pc (fun j hj => ?_) hother (fun _ hlive => ?_) h.2.2
      · have hj : j ∈ k :: s.ctl.order.filter (· ≠ k) := horder ▸ hj
        exact (List.mem_cons.1 hj).imp_right fun h => (List.mem_filter.1 h).1
      · have hlive : LoopSet.live { z with frozen := s.ctl.trp.h } = true := hsame ▸ hlive
        have hh : s.ctl.trp.h = false := by simpa [LoopSet.live, harmed] using hlive
        have hzle : z.zle ≠ s.ctl.pc := hend.resolve_left (by rw [hh]; simp)
        exact fun e => hzle ((congrArg LoopSet.zle hsame).symm.trans e)

end Sys2Proof.Machine
end

section
/-!
SUPPORT. The words that transfer control (R205 to R207, R214, R353): what a transfer whose checks pass gives, and the statements
about the branches and about ERET.
-/

namespace Sys2Proof.Machine

/-! ### Branches (R205, R207) -/

/-- A word at whose address no armed set ends is followed by the word behind it. -/
theorem straight_of_atEnd {s : State} (h : s.ctl.atEnd s.ctl.pc = false) : s.straight := by
  intro l _ hlive
  have harmed : (s.ctl.getZL l).armed = true := (Bool.and_eq_true_iff.1 hlive).1
  have hl := List.any_eq_false.1 h l (List.mem_finRange l)
  rw [harmed, Bool.true_and, decide_eq_true_eq] at hl
  exact hl

/-- A change of the control state that touches no loop set and not PC, by a word that issues. -/
theorem done_updCtl {s : State} (f : Ctl → Ctl) (hs : s.straight) (ho : (f s.ctl).order = s.ctl.order)
    (hz : (f s.ctl).zl = s.ctl.zl) (hp : (f s.ctl).pc = s.ctl.pc) : done (s.updCtl f) = .next (s.updCtl f).fell :=
  done_straight _ (updCtl_straight s f ho hz hp hs)

theorem exec_pbr {s : State} {g : Guard} (h : s.ready g []) (t : BitVec 3) (off : BitVec 18) :
    exec (.pbr g t off) s = .next (s.updCtl fun c => c.setBT t (c.pc + 4 * off.signExtend 64)).fell := by
  obtain ⟨hg, -, hs⟩ := h
  exact (if_pos hg).trans (done_updCtl _ hs rfl rfl rfl)

theorem exec_pbri {s : State} {g : Guard} {a : Reg} (h : s.ready g [a]) (t : BitVec 3) :
    exec (.pbri g t a) s = .next (s.updCtl fun c => c.setBT t (c.getG a)).fell := by
  obtain ⟨hg, hb, hs⟩ := h
  exact (reads_of_guard hg hb).trans (done_updCtl _ hs rfl rfl rfl)

/-- A BRQ whose sense is not that of the queue's head takes the head and falls through (R207). -/
theorem exec_brq_falls {s : State} {g : Guard} {sense head : Bool} {q : List Bool} (t : BitVec 3)
    (hg : s.ctl.guard g = true) (hq : s.ctl.cq = head :: q) (hsense : head ≠ sense) (hend : s.ctl.atEnd s.ctl.pc = false) :
    exec (.brq g t sense) s = .next (s.updCtl Ctl.popCq).fell := by
  refine (if_pos hg).trans ?_
  simp only [hq, if_neg hsense, if_neg (Bool.eq_false_iff.1 hend)]
  exact done_updCtl _ (straight_of_atEnd hend) rfl rfl rfl

/-- Taking the head of CQ leaves what stood behind it. -/
theorem updCtl_popCq {s : State} {head : Bool} {q : List Bool} (hq : s.ctl.cq = head :: q) :
    s.updCtl Ctl.popCq = s.updCtl fun c => { c with cq := q } := by
  have : s.me.st.ctl.popCq = { s.me.st.ctl with cq := q } := by
    rw [Ctl.popCq, show s.me.st.ctl.cq = head :: q from hq, List.tail_cons]
  simp only [State.updCtl, State.updSt, this]

/-- Settles O3: a preparing word changes its target register; a transfer whose target may be entered goes there. -/
theorem branches : Obligations.Branches := by
  refine ⟨⟨fun s g t off h => exec_pbr h t off, fun s g t a h => exec_pbri h t⟩, fun s g t hg henters => ?br,
    fun s g t sense head q hg hq => ?brq, fun s g t hg henters => ?call, fun s g hg hb henters => ?ret⟩
  case br => exact (exec_br hg t).trans (transfer_enters henters _)
  case brq =>
    refine ⟨fun hsense henters => ?_, fun hsense hend => ?_⟩
    · have htaken := exec_brq_taken (s := s) hg t (sense := sense) (by rw [hq, List.head?_cons, hsense])
      rw [htaken, transfer_enters henters, updCtl_popCq hq]
      rfl
    · rw [exec_brq_falls t hg hq hsense hend, updCtl_popCq hq]
  case call => exact (exec_call hg t).trans (transfer_enters henters _)
  case ret => exact (exec_ret hg hb).trans (transfer_enters henters _)

/-! ### ERET (R353) -/

theorem exec_eret_outside {s : State} {g : Guard} (hg : s.ctl.guard g = true) (hh : s.ctl.trp.h = false) :
    exec (.eret g) s = trap .csrAcc s :=
  (if_pos hg).trans (if_pos (by rw [hh]; rfl))

/-- In a handler ERET judges TRP_EPC as a target (R206). -/
theorem exec_eret_traps {s : State} {g : Guard} {c : Cause} (hg : s.ctl.guard g = true) (hh : s.ctl.trp.h = true)
    (hbad : s.badTarget s.ctl.trp.epc = some c) : exec (.eret g) s = trap c s := by
  refine (if_pos hg).trans <| (if_neg (by rw [hh]; simp)).trans ?_
  rw [hbad]

theorem exec_eret_returns {s : State} {g : Guard} (hg : s.ctl.guard g = true) (hh : s.ctl.trp.h = true)
    (hgood : s.badTarget s.ctl.trp.epc = none) : exec (.eret g) s = .next s.returned := by
  refine (if_pos hg).trans <| (if_neg (by rw [hh]; simp)).trans ?_
  rw [hgood]

theorem returned_ctl (s : State) :
    s.returned.ctl = { s.ctl.unfreeze with pc := s.ctl.trp.epc, trp := { s.ctl.trp with h := false } } := rfl

theorem Ctl.getZL_unfreeze (c : Ctl) (l : Fin 4) : c.unfreeze.getZL l = { c.getZL l with frozen := false } := by
  show (c.zl.map _)[l.val]'l.isLt = _
  rw [Vector.getElem_map]
  rfl

/-- Settles O24: the checks of ERET in their order, and the state that it returns to. -/
theorem trapReturn : Obligations.TrapReturn := by
  intro s g hg
  refine ⟨exec_eret_outside hg, fun hh halign => exec_eret_traps hg hh ?_, fun hh halign hrange => exec_eret_traps hg hh ?_,
    fun hh halign hrange => ?returns⟩
  · rw [State.badTarget, if_pos halign]
  · rw [State.badTarget, if_neg (Classical.not_not.2 halign), if_neg (Bool.eq_false_iff.1 hrange)]
  case returns =>
    have hgood : s.badTarget s.ctl.trp.epc = none := by
      rw [State.badTarget, if_neg (Classical.not_not.2 halign), if_pos hrange]
    have hzl : ∀ l, s.returned.ctl.getZL l = { s.ctl.getZL l with frozen := false } := fun l => by
      rw [returned_ctl]; exact s.ctl.getZL_unfreeze l
    have hgen : ∀ d, s.returned.getG d = s.getG d := fun d => by rw [State.getG, returned_ctl]; rfl
    refine ⟨s.returned, exec_eret_returns hg hh hgood, ?_, ?_, hzl, ?_, hgen, ?_, returned_mem s⟩ <;> rw [returned_ctl] <;> rfl

end Sys2Proof.Machine
end

section
/-!
SUPPORT. The words that compute one register or one predicate (R82, R197, R199 to R204, R219 to R221): each value of the model
is the one that its rule names, and the statements about them.
-/

namespace Sys2Proof.Machine

/-! ### The register file (R197) -/

theorem writeG_zero (s : State) (v : Word) : s.writeG 0 v = s := rfl

/-- Settles O42: reads after writes of the control state, and the fields that no write touches. -/
theorem registerFile : Obligations.RegisterFile := by
  refine ⟨fun s => ⟨s.ctl.getG_zero, s.ctl.getP_zero⟩, fun s d a v => ?_, writeG_zero, fun s p q b => s.ctl.getP_setP p q b,
    fun s d v p b => ⟨?_, rfl, ?_, s.ctl.setP_g p b⟩⟩
  · rw [State.getG, s.writeG_ctl]
    exact s.ctl.getG_setG d a v
  · rw [s.writeG_ctl, Ctl.setG_p]
  · rw [s.writeG_ctl, Ctl.setG_pc]

/-! ### Quotients and remainders (R200) -/

theorem aluDivs_eq (a b : Word) : aluDivs a b = if b = 0 then -1 else a.sdiv b := by
  have hquot : BitVec.ofInt 64 (a.toInt.tdiv b.toInt) = a.sdiv b := by
    apply BitVec.eq_of_toInt_eq
    rw [BitVec.toInt_ofInt, BitVec.toInt_sdiv]
  rw [aluDivs, hquot]
  rfl

theorem aluDivn_eq (a b : Word) : aluDivn a b = if b = 0 then -1 else a / b := by
  rw [aluDivn, BitVec.udiv_def]
  rfl

theorem aluRems_eq (a b : Word) : aluRems a b = if b = 0 then a else a.srem b := by
  rw [aluRems, ← BitVec.toInt_srem, BitVec.ofInt_toInt]

theorem aluRemn_eq (a b : Word) : aluRemn a b = if b = 0 then a else a % b := by
  rw [aluRemn, BitVec.umod_def]

theorem aluRot_eq (a b : Word) : aluRot a b = a.rotateRight (b.toNat % 64) := by
  rw [BitVec.rotateRight_def, Nat.mod_mod]
  rfl

/-! ### Minima and maxima (R200): equal operands are the one result -/

/-- Two conditions, one narrower, choose alike where the choices between them do not differ. -/
theorem ite_eq_of_narrower {p q : Prop} [Decidable p] [Decidable q] {x y : Word} (hqp : q → p) (h : p → ¬ q → x = y) :
    (if p then x else y) = if q then x else y := by
  by_cases hq : q
  · rw [if_pos hq, if_pos (hqp hq)]
  · by_cases hp : p
    · rw [h hp hq, ite_self, ite_self]
    · rw [if_neg hp, if_neg hq]

theorem toInt_eq_of_not_lt {a b : Word} (hle : a.toInt ≤ b.toInt) (hlt : ¬ a.toInt < b.toInt) : a = b :=
  BitVec.toInt_inj.1 (Int.le_antisymm hle (Int.not_lt.1 hlt))

theorem toNat_eq_of_not_lt {a b : Word} (hle : a.toNat ≤ b.toNat) (hlt : ¬ a.toNat < b.toNat) : a = b :=
  BitVec.eq_of_toNat_eq (Nat.le_antisymm hle (Nat.not_lt.1 hlt))

theorem aluMin_eq (a b : Word) : aluMin a b = if a.slt b then a else b := by
  simp only [aluMin, BitVec.slt_iff_toInt_lt]
  exact ite_eq_of_narrower Int.le_of_lt toInt_eq_of_not_lt

theorem aluMax_eq (a b : Word) : aluMax a b = if a.slt b then b else a := by
  simp only [aluMax, BitVec.slt_iff_toInt_lt]
  exact ite_eq_of_narrower Int.le_of_lt fun hle hlt => (toInt_eq_of_not_lt hle hlt).symm

theorem aluMinn_eq (a b : Word) : aluMinn a b = if a.ult b then a else b := by
  simp only [aluMinn, BitVec.ult_iff_toNat_lt]
  exact ite_eq_of_narrower Nat.le_of_lt toNat_eq_of_not_lt

theorem aluMaxn_eq (a b : Word) : aluMaxn a b = if a.ult b then b else a := by
  simp only [aluMaxn, BitVec.ult_iff_toNat_lt]
  exact ite_eq_of_narrower Nat.le_of_lt fun hle hlt => (toNat_eq_of_not_lt hle hlt).symm

/-! ### Counts of bits (R200) -/

/-- Of the numbers below `m`, those before the first that fails are as many as that one's number. -/
theorem length_takeWhile_range {m n : Nat} {p : Nat → Bool} (hn : n ≤ m) (hbelow : ∀ k < n, p k = true)
    (hat : n < m → p n = false) : ((List.range m).takeWhile p).length = n := by
  obtain ⟨r, rfl⟩ := Nat.exists_eq_add_of_le hn
  rw [List.range_add, List.takeWhile_append_of_pos fun k hk => hbelow k (List.mem_range.1 hk), List.length_append,
    List.length_range]
  cases r with
  | zero => rfl
  | succ r => rw [List.range_succ_eq_map, List.map_cons, List.takeWhile_cons_of_neg (by simp [hat])]; rfl

theorem aluClz_eq (a : Word) :
    aluClz a = BitVec.ofNat 64 ((List.range 64).takeWhile fun k => !a.getLsbD (63 - k)).length := by
  rw [aluClz]
  by_cases h : a = 0
  · rw [if_pos h, length_takeWhile_range (n := 64) (Nat.le_refl _) (fun k _ => by simp [h]) (fun hlt => absurd hlt (by decide))]
    rfl
  · have hpos : a.toNat ≠ 0 := fun e => h (BitVec.eq_of_toNat_eq e)
    have hlog : a.toNat.log2 < 64 := (Nat.log2_lt hpos).2 a.isLt
    rw [if_neg h, length_takeWhile_range (n := 63 - a.toNat.log2) (by omega)]
    · intro k hk
      have hhigh : a.toNat < 2 ^ (63 - k) := (Nat.log2_lt hpos).1 (by omega)
      rw [Bool.not_eq_true', BitVec.getLsbD]
      exact Nat.testBit_lt_two_pow hhigh
    · intro _
      have hindex : 63 - (63 - a.toNat.log2) = a.toNat.log2 := by omega
      rw [hindex, BitVec.getLsbD, Nat.testBit_log2 hpos]
      rfl

theorem aluPopc_eq (a : Word) : aluPopc a = BitVec.ofNat 64 ((List.range 64).filter fun k => a.getLsbD k).length := by
  rw [aluPopc, List.countP_eq_length_filter]

/-- A shift amount of eight bits is the same amount in a register (R199). -/
theorem shAmt_setWidth (v : BitVec 8) : shAmt (v.setWidth 64) = v.toNat % 64 := by
  have := v.isLt
  rw [shAmt, BitVec.toNat_setWidth, Nat.mod_eq_of_lt (by omega : v.toNat < 2 ^ 64)]

/-! ### The integer words (R82, R199, R200) -/

theorem exec_alu {s : State} {g : Guard} {d a b : Reg} (h : s.ready g [a, b]) : ∀ row ∈ aluRows,
    exec (row.1 g d a b) s = .next (s.writeG d (row.2 (s.getG a) (s.getG b))).fell := by
  have key : ∀ f : Word → Word → Word, compute g [a, b] d (fun s => f (s.getG a) (s.getG b)) s =
      .next (s.writeG d (f (s.getG a) (s.getG b))).fell := fun f => compute_ready g [a, b] d _ s h
  simp only [aluRows, List.forall_mem_cons]
  refine ⟨key aluAdd, key aluSub, key aluMul, key aluMulh, ?divs, ?divn, ?rems, ?remn, key aluAnd, key aluOr, key aluXor, key aluAndn,
    key aluShl, key aluShr, key aluSha, ?rot, ?min, ?max, ?minn, ?maxn, List.forall_mem_nil _⟩
  case divs => rw [← aluDivs_eq]; exact key aluDivs
  case divn => rw [← aluDivn_eq]; exact key aluDivn
  case rems => rw [← aluRems_eq]; exact key aluRems
  case remn => rw [← aluRemn_eq]; exact key aluRemn
  case rot => rw [← aluRot_eq]; exact key aluRot
  case min => rw [← aluMin_eq]; exact key aluMin
  case max => rw [← aluMax_eq]; exact key aluMax
  case minn => rw [← aluMinn_eq]; exact key aluMinn
  case maxn => rw [← aluMaxn_eq]; exact key aluMaxn

theorem exec_aluUnary {s : State} {g : Guard} {d a : Reg} (h : s.ready g [a]) : ∀ row ∈ aluUnaryRows,
    exec (row.1 g d a) s = .next (s.writeG d (row.2 (s.getG a))).fell := by
  simp only [aluUnaryRows, List.forall_mem_cons]
  refine ⟨?clz, ?popc, List.forall_mem_nil _⟩
  case clz => rw [← aluClz_eq]; exact compute_ready g [a] d (fun s => aluClz (s.getG a)) s h
  case popc => rw [← aluPopc_eq]; exact compute_ready g [a] d (fun s => aluPopc (s.getG a)) s h

theorem exec_aluImm {s : State} {g : Guard} {d a : Reg} {v : BitVec 8} (h : s.ready g [a]) : ∀ row ∈ aluImmRows,
    exec (row.1 g d a v) s = .next (s.writeG d (row.2 (s.getG a) v)).fell := by
  have key : ∀ (f : Word → Word → Word) (imm : Word), compute g [a] d (fun s => f (s.getG a) imm) s =
      .next (s.writeG d (f (s.getG a) imm)).fell := fun f imm => compute_ready g [a] d _ s h
  simp only [aluImmRows, List.forall_mem_cons, ← shAmt_setWidth]
  exact ⟨key aluAdd (imm8 v), key aluAnd (imm8 v), key aluOr (imm8 v), key aluXor (imm8 v), key aluShl (v.setWidth 64),
    key aluShr (v.setWidth 64), key aluSha (v.setWidth 64), (aluRot_eq _ _ ▸ key aluRot (v.setWidth 64)), List.forall_mem_nil _⟩

/-- Settles O1: each word computes one register, by its row's function. -/
theorem integerWords : Obligations.IntegerWords := by
  refine ⟨fun row hrow s g d a b h => exec_alu h row hrow, fun row hrow s g d a h => exec_aluUnary h row hrow,
    fun row hrow s g d a v h => exec_aluImm h row hrow, fun s g d v h => ?movi, fun s g d v h => ?movh, fun s g d a v h => ?lea⟩
  case movi => exact compute_ready g [] d (fun _ => v.signExtend 64) s h
  case movh => exact compute_ready g [d] d (fun s => (s.getG d <<< 16) ||| v.setWidth 64) s h
  case lea => exact compute_ready g [a] d (fun s => s.getG a + v.signExtend 64) s h

/-! ### Compares and select (R203, R204, R220) -/

/-- A word that writes one predicate. -/
theorem predicate_ready {s : State} {g : Guard} {rs : List Reg} (h : s.ready g rs) (pd : BitVec 3) (f : State → Bool) :
    (guarded g s fun s => reading rs s fun s => done (s.setP pd (f s))) = .next (s.setP pd (f s)).fell := by
  obtain ⟨hg, hb, hs⟩ := h
  exact (reads_of_guard hg hb).trans (done_straight _ (setP_straight s pd _ hs))

theorem condHolds_eq (c : Cond) (a b : Word) : condHolds c a b =
    match c with
    | .eq => a == b
    | .ne => a != b
    | .lt => a.slt b
    | .ge => !a.slt b
    | .ltn => a.ult b
    | .gen => !a.ult b := by
  cases c with
  | eq => rfl
  | ne => exact decide_not
  | lt => rfl
  | ge => exact (decide_eq_decide.2 Int.not_lt.symm).trans decide_not
  | ltn => rfl
  | gen => exact (decide_eq_decide.2 Nat.not_lt.symm).trans decide_not

theorem fcondHolds_eq (c : FCond) (a b : Val) : fcondHolds c a b =
    match Val.cmp a b, c with
    | some .eq, .eq => true
    | some .eq, .le => true
    | some .lt, .lt => true
    | some .lt, .le => true
    | some .lt, .ne => true
    | some .gt, .ne => true
    | none, .ne => true
    | none, .un => true
    | _, _ => false := by
  unfold fcondHolds Val.lt Val.le
  rcases Val.cmp a b with _ | (_ | _ | _) <;> cases c <;> rfl

/-! ### Scalar FP32 (R219, R221) -/

theorem exec_float {s : State} {g : Guard} {d a b : Reg} {r : Rnd} : ∀ row ∈ floatRows,
    s.ready g (if row.2.1 then [a, b, d] else [a, b]) →
    exec (row.1 g d a b r) s = .next (s.writeG d
      (zext32 (cvtVal (row.2.2.1 r (s.getG a) (s.getG b) (s.getG d)) .f32 (row.2.2.2 r) .wrap))).fell := by
  simp only [floatRows, List.forall_mem_cons]
  refine ⟨?sfadd, ?sfmul, ?sffma, ?sfmin, ?sfmax, List.forall_mem_nil _⟩
  case sfadd => exact compute_ready g [a, b] d (fun s => sfAdd (s.getG a) (s.getG b) r) s
  case sfmul => exact compute_ready g [a, b] d (fun s => sfMul (s.getG a) (s.getG b) r) s
  case sffma => exact compute_ready g [a, b, d] d (fun s => sfFma (s.getG a) (s.getG b) (s.getG d) r) s
  case sfmin => exact compute_ready g [a, b] d (fun s => sfMin (s.getG a) (s.getG b)) s
  case sfmax => exact compute_ready g [a, b] d (fun s => sfMax (s.getG a) (s.getG b)) s

/-- Settles O2: compares write a predicate by their condition; the other words compute one register. -/
theorem compareAndFloat : Obligations.CompareAndFloat := by
  refine ⟨⟨fun s g pd a b c h => ?cmp, fun s g d a b p h => ?sel, fun s g pd a b c h => ?sfcmp⟩,
    fun row hrow s g d a b r h => exec_float row hrow h, fun s g d a toX xf r o h => ?sfcvt⟩
  case cmp =>
    refine (predicate_ready h pd fun s => condHolds c (s.getG a) (s.getG b)).trans ?_
    exact congrArg (fun b => Host.Outcome.next (s.setP pd b).fell) (condHolds_eq c _ _)
  case sel => exact compute_ready g [a, b] d (fun s => if s.ctl.getP p then s.getG a else s.getG b) s h
  case sfcmp =>
    refine (predicate_ready h pd fun s => fcondHolds c (f32Of (s.getG a)) (f32Of (s.getG b))).trans ?_
    exact congrArg (fun b => Host.Outcome.next (s.setP pd b).fell) (fcondHolds_eq c _ _)
  case sfcvt => exact compute_ready g [a] d (fun s => sfConvert toX xf r o (s.getG a)) s h

end Sys2Proof.Machine
end
